-- ==== Sys2Proof/Word.lean ====
section
/-! DEFINITION. Sys2Proof/Word.lean: the machine's word types and their plainest arithmetic. -/

namespace Sys2Proof

/-- A 64-bit value: a scalar register or a commons address. -/
abbrev Word := BitVec 64
/-- A byte of memory. -/
abbrev Byte := BitVec 8
/-- The 1,024 bits of a vector register (R103). -/
abbrev VWord := BitVec 1024
/-- Scalar register number (R103). -/
abbrev Reg := BitVec 5
/-- Vector register number (R103). -/
abbrev VReg := BitVec 4
/-- Predicate register number (R103). -/
abbrev PReg := BitVec 3
/-- Tensor-map register number (R103). -/
abbrev TReg := BitVec 3
/-- Accumulator number of a Mill (R103). -/
abbrev AccN := BitVec 2
/-- Stall count (R109). -/
abbrev Stall := BitVec 2

/-- `2^64`, the modulus of a word. -/
def wordMod : Nat := 18446744073709551616

end Sys2Proof
end

