-- ==== Sys2Proof/Syntax.lean ====
section
/-! DEFINITION. Sys2Proof/Syntax.lean: the instructions and events of the Rhager K8, one constructor of `Instr`
for each row of the table of operations and events; register numbers, sizes, types, conditions, scopes and
kinds are inductive types, so no reserved code has a term. An event's operands say where it happens: a core,
die, package or pod by its number, or the place `k` in the list of packets in flight or of accesses held. -/

namespace Sys2Proof

/-- Access size of the M format (R99): `sz`. -/
inductive MSize | b | h | s | d
deriving DecidableEq, Repr

/-- The bytes an access size stands for. -/
def MSize.bytes : MSize → Nat
  | .b => 1 | .h => 2 | .s => 4 | .d => 8

/-- Element types of the VM and VG formats (R99): `ty` 0 to 6. -/
inductive MTy | raw | f32 | bf16 | f16 | i32 | i16 | i8
deriving DecidableEq, Repr

/-- Floating-point `ty` of the V format (R100): 0 to 2. -/
inductive FTy | f32 | bf16 | f16
deriving DecidableEq, Repr

/-- Integer `ty` of the V format (R100): 0 to 2. -/
inductive ITy | i32 | i16 | i8
deriving DecidableEq, Repr

/-- Conditions of CMP (R267). -/
inductive Cond | eq | ne | lt | ge | ltu | geu | tst
deriving DecidableEq, Repr

/-- Operations of AMO (R258). -/
inductive AmoOp | add | and | or | xor | min | max | minu | maxu | swap
deriving DecidableEq, Repr

/-- Floating-point conditions of VCMP (R343). -/
inductive FCond | eq | ne | lt | le | un
deriving DecidableEq, Repr

/-- Integer conditions of VCMP (R343). -/
inductive ICond | eq | ne | lt | le | ltu | leu
deriving DecidableEq, Repr

/-- What VCMP compares: fn, ty and Q together (R100, R343). -/
inductive VCmpKind
  | flt (c : FCond) (t : FTy) (q : Bool)
  | int (c : ICond) (t : ITy)
deriving DecidableEq, Repr

/-- The conversions of VCVT, in the order of their codes (R101). -/
inductive Conv
  | f32ToBf16 | f32ToF16 | f32ToE4m3 | f32ToE5m2 | bf16ToF32 | f16ToF32 | e4m3ToF32 | e5m2ToF32
  | bf16ToE4m3 | bf16ToE5m2 | f16ToE4m3 | f16ToE5m2 | f32ToI32 | i32ToF32 | f32ToI16 | f32ToI8
  | i16ToF32 | i8ToF32 | bf16ToF16 | f16ToBf16
deriving DecidableEq, Repr

/-- Kinds of VDOT (R346). -/
inductive DotKind | bf16 | e4m3 | e5m2 | i8
deriving DecidableEq, Repr

/-- Kinds of FENCE (R125, R126). -/
inductive FKind | rel | acq | full | gen
deriving DecidableEq, Repr

/-- Scopes (R12); code 7 is reserved and has no term. -/
inductive Scope | lane | core | quad | die | pkg | pod | sys
deriving DecidableEq, Repr

/-- Modes of RESUME (R100, R202). -/
inductive RMode | retry | skip
deriving DecidableEq, Repr

/-- Where an uncorrectable error lies (R214): in data that an access on its way reads, or in the state of a core's engine. -/
inductive ErrUnit | data | mill | copy | dispatch | service
deriving DecidableEq, Repr

/-- The fates of a word or parcel that is no valid instruction, decided by its encoding alone (R102). -/
inductive Fate | illegal | priv | resfield
deriving DecidableEq, Repr

/-- One constructor for each row of the table of operations and events. -/
inductive Instr
  /-- NOP_SHORT (R98): Short no-operation parcel that only advances the PC. -/
  | nopShort
  /-- MOV (R305): Short form that copies x[a] to x[d]. -/
  | mov (d a : Reg)
  /-- LI (R305): Short form that loads a sign-extended 5-bit immediate into x[d]. -/
  | li (d : Reg) (imm : BitVec 5)
  /-- ADD_SHORT (R256): Short form that adds x[a] to x[d] in place. -/
  | addShort (d a : Reg)
  /-- SUB_SHORT (R335): Short form that subtracts x[a] from x[d] in place. -/
  | subShort (d a : Reg)
  /-- AND_SHORT (R259): Short form of bitwise AND of x[d] with x[a]. -/
  | andShort (d a : Reg)
  /-- OR_SHORT (R259): Short form of bitwise OR of x[d] with x[a]. -/
  | orShort (d a : Reg)
  /-- XOR_SHORT (R259): Short form of bitwise XOR of x[d] with x[a]. -/
  | xorShort (d a : Reg)
  /-- ADDI_SHORT (R257): Short form that adds a sign-extended 5-bit immediate to x[d]. -/
  | addiShort (d : Reg) (imm : BitVec 5)
  /-- SHLI_SHORT (R329): Short form that shifts x[d] left by 0-31. -/
  | shliShort (d : Reg) (n : BitVec 5)
  /-- SHRI_SHORT (R329): Short form that shifts x[d] right logically by 0-31. -/
  | shriShort (d : Reg) (n : BitVec 5)
  /-- SRAI_SHORT (R329): Short form that shifts x[d] right arithmetically by 0-31. -/
  | sraiShort (d : Reg) (n : BitVec 5)
  /-- LD_D_SHORT (R304): Short form of a plain 8-byte load from x[a] into x[d]. -/
  | ldDShort (d a : Reg)
  /-- ST_D_SHORT (R333): Short form of a plain 8-byte store of x[d] to x[a]. -/
  | stDShort (d a : Reg)
  /-- JR_SHORT (R302): Short form that jumps to the address in x[a]. -/
  | jrShort (a : Reg)
  /-- END_SHORT (R286): Short form that ends the activation and frees the context. -/
  | endShort
  /-- BEQZ (R261): Short branch by off5 parcels when x[d] is zero. -/
  | beqz (d : Reg) (o : BitVec 5)
  /-- BNEZ (R261): Short branch by off5 parcels when x[d] is nonzero. -/
  | bnez (d : Reg) (o : BitVec 5)
  /-- ADD (R256): Adds x[a] and x[b] modulo 2^64 into x[d]. -/
  | add (st : Stall) (d a b : Reg)
  /-- SUB (R335): Subtracts x[b] from x[a] modulo 2^64 into x[d]. -/
  | sub (st : Stall) (d a b : Reg)
  /-- AND (R259): Bitwise AND of x[a] and x[b]. -/
  | and (st : Stall) (d a b : Reg)
  /-- OR (R259): Bitwise OR of x[a] and x[b]. -/
  | or (st : Stall) (d a b : Reg)
  /-- XOR (R259): Bitwise XOR of x[a] and x[b]. -/
  | xor (st : Stall) (d a b : Reg)
  /-- ANDN (R259): Bitwise AND of x[a] with the complement of x[b]. -/
  | andn (st : Stall) (d a b : Reg)
  /-- SHL (R328): Shifts x[a] left by x[b][5:0]. -/
  | shl (st : Stall) (d a b : Reg)
  /-- SHR (R328): Shifts x[a] right logically by x[b][5:0]. -/
  | shr (st : Stall) (d a b : Reg)
  /-- SRA (R328): Shifts x[a] right arithmetically by x[b][5:0]. -/
  | sra (st : Stall) (d a b : Reg)
  /-- ROL (R328): Rotates x[a] left by x[b][5:0]. -/
  | rol (st : Stall) (d a b : Reg)
  /-- MIN (R313): Signed minimum of x[a] and x[b]. -/
  | min (st : Stall) (d a b : Reg)
  /-- MAX (R313): Signed maximum of x[a] and x[b]. -/
  | max (st : Stall) (d a b : Reg)
  /-- MINU (R313): Unsigned minimum of x[a] and x[b]. -/
  | minu (st : Stall) (d a b : Reg)
  /-- MAXU (R313): Unsigned maximum of x[a] and x[b]. -/
  | maxu (st : Stall) (d a b : Reg)
  /-- MUL (R315): Low 64 bits of the product of x[a] and x[b]. -/
  | mul (st : Stall) (d a b : Reg)
  /-- MULH (R315): High 64 bits of the signed product. -/
  | mulh (st : Stall) (d a b : Reg)
  /-- MULHU (R315): High 64 bits of the unsigned product. -/
  | mulhu (st : Stall) (d a b : Reg)
  /-- DIV (R285): Signed division with defined edge results and sticky flags. -/
  | div (st : Stall) (d a b : Reg)
  /-- DIVU (R285): Unsigned division with defined divide-by-zero result. -/
  | divu (st : Stall) (d a b : Reg)
  /-- REM (R285): Signed remainder with defined edge results. -/
  | rem (st : Stall) (d a b : Reg)
  /-- REMU (R285): Unsigned remainder with defined divide-by-zero result. -/
  | remu (st : Stall) (d a b : Reg)
  /-- CLZ (R266): Counts leading zero bits of x[a]. -/
  | clz (st : Stall) (d a : Reg)
  /-- CTZ (R266): Counts trailing zero bits of x[a]. -/
  | ctz (st : Stall) (d a : Reg)
  /-- POPC (R266): Counts set bits of x[a]. -/
  | popc (st : Stall) (d a : Reg)
  /-- ADDI (R257): Adds a sign-extended 13-bit immediate to x[a]. -/
  | addi (st : Stall) (d a : Reg) (imm : BitVec 13)
  /-- ANDI (R260): Bitwise AND with a sign-extended 13-bit immediate. -/
  | andi (st : Stall) (d a : Reg) (imm : BitVec 13)
  /-- ORI (R260): Bitwise OR with a sign-extended 13-bit immediate. -/
  | ori (st : Stall) (d a : Reg) (imm : BitVec 13)
  /-- XORI (R260): Bitwise XOR with a sign-extended 13-bit immediate. -/
  | xori (st : Stall) (d a : Reg) (imm : BitVec 13)
  /-- SHLI (R329): Shifts x[a] left by an immediate 0-63. -/
  | shli (st : Stall) (d a : Reg) (n : BitVec 6)
  /-- SHRI (R329): Shifts x[a] right logically by an immediate 0-63. -/
  | shri (st : Stall) (d a : Reg) (n : BitVec 6)
  /-- SRAI (R329): Shifts x[a] right arithmetically by an immediate 0-63. -/
  | srai (st : Stall) (d a : Reg) (n : BitVec 6)
  /-- ROLI (R329): Rotates x[a] left by an immediate 0-63. -/
  | roli (st : Stall) (d a : Reg) (n : BitVec 6)
  /-- CMP (R267): Writes 1 or 0 to x[d] by the condition that fn selects. -/
  | cmp (st : Stall) (d a b : Reg) (c : Cond)
  /-- LIH (R306): Loads a sign-extended 18-bit immediate shifted left by 13. -/
  | lih (st : Stall) (d : Reg) (imm : BitVec 18)
  /-- MADD (R310): Adds the product of x[a] and x[b] to x[d]. -/
  | madd (st : Stall) (d a b : Reg)
  /-- MSUB (R310): Subtracts the product of x[a] and x[b] from x[d]. -/
  | msub (st : Stall) (d a b : Reg)
  /-- BFX (R264): Extracts a bit field of x[a] into x[d]. -/
  | bfx (st : Stall) (d a : Reg) (p l : BitVec 6)
  /-- BFI (R264): Inserts the low bits of x[a] into a field of x[d]. -/
  | bfi (st : Stall) (d a : Reg) (p l : BitVec 6)
  /-- MKADR (R314): Builds a slice address of the core at ROW x[a], COL x[b] of the own die. -/
  | mkadr (st : Stall) (d a b : Reg)
  /-- ABSA (R255): Converts a relative slice address to absolute form. -/
  | absa (st : Stall) (d a : Reg)
  /-- GPTR (R299): Converts a private-window address to the equivalent slice address. -/
  | gptr (st : Stall) (d a : Reg)
  /-- SEL (R324): Selects x[a] or x[b] by whether x[c] is nonzero. -/
  | sel (st : Stall) (d a b c : Reg)
  /-- BEQ (R261): Branches when x[a] equals x[b]. -/
  | beq (a b : Reg) (o : BitVec 12)
  /-- BNE (R261): Branches when x[a] differs from x[b]. -/
  | bne (a b : Reg) (o : BitVec 12)
  /-- BLT (R261): Branches when x[a] is signed less than x[b]. -/
  | blt (a b : Reg) (o : BitVec 12)
  /-- BGE (R261): Branches when x[a] is signed at least x[b]. -/
  | bge (a b : Reg) (o : BitVec 12)
  /-- BLTU (R261): Branches when x[a] is unsigned less than x[b]. -/
  | bltu (a b : Reg) (o : BitVec 12)
  /-- BGEU (R261): Branches when x[a] is unsigned at least x[b]. -/
  | bgeu (a b : Reg) (o : BitVec 12)
  /-- J (R301): Jumps by a signed 25-bit parcel offset. -/
  | j (o : BitVec 25)
  /-- JAL (R301): Jumps by a signed offset and links PC + 4 in x1. -/
  | jal (o : BitVec 25)
  /-- JR (R302): Jumps to the address in x[a]. -/
  | jr (st : Stall) (a : Reg)
  /-- JALR (R302): Jumps to x[a] and links PC + 4 in x[d]. -/
  | jalr (st : Stall) (d a : Reg)
  /-- LOOP (R307): Opens a hardware loop level with count x[a], or leaves one. -/
  | loop (st : Stall) (a : Reg) (imm : BitVec 13)
  /-- NOP (R316): Long no-operation that may carry a stall count. -/
  | nop (st : Stall)
  /-- END (R286): Ends the activation once replies are in, sends any empty reply and frees the context. -/
  | endAct (st : Stall)
  /-- TRAP (R341): Raises TRAPINSN as a parking upcall with x[a] as fault address. -/
  | trap (st : Stall) (a : Reg)
  /-- SYSC (R336): Sends a system request to the partition's supervisor core, or enters supervisor mode on a supervisor core. -/
  | sysc (st : Stall) (a : Reg)
  /-- ERET (R287): Returns from supervisor mode to %EPC under %EMODE. -/
  | eret (st : Stall)
  /-- HALT (R300): Parks a supervisor context until the core accepts a message, upcall record or notice. -/
  | halt (st : Stall)
  /-- RESUME (R322): Restarts a context parked by an upcall in retry or skip mode. -/
  | resume (st : Stall) (m : RMode) (a : Reg)
  /-- LD (R304): Plain scalar load applied at the home of the address. -/
  | ld (st : Stall) (t b : Reg) (z : MSize) (o : BitVec 8)
  /-- LDW (R304): Scalar load that waits for the granule to be full and acquires. -/
  | ldw (st : Stall) (t b : Reg) (z : MSize) (o : BitVec 8)
  /-- LDC (R304): Scalar load that waits for full, consumes the granule to empty and acquires. -/
  | ldc (st : Stall) (t b : Reg) (z : MSize) (o : BitVec 8)
  /-- ST (R333): Plain scalar store applied at the home of the address. -/
  | st (st : Stall) (t b : Reg) (z : MSize) (o : BitVec 8)
  /-- STP (R333): Scalar store that waits for empty, then writes and sets the granule full. -/
  | stp (st : Stall) (t b : Reg) (z : MSize) (o : BitVec 8)
  /-- STF (R333): Scalar store that writes and sets the granule full. -/
  | stf (st : Stall) (t b : Reg) (z : MSize) (o : BitVec 8)
  /-- GET (R298): Copies N granules from a remote home into the own slice in one step each side and sets them full. -/
  | get (st : Stall) (d a b : Reg)
  /-- PUT (R298): Copies N granules from the own slice to a remote home in one step and sets them full. -/
  | put (st : Stall) (d a b : Reg)
  /-- FEQRY (R290): Returns the full/empty bits of the 64 granules of a 1 KiB block. -/
  | feqry (st : Stall) (d a : Reg)
  /-- FESET (R290): Sets or clears the full/empty bits of a granule range in one step and serves waiters. -/
  | feset (st : Stall) (a b : Reg)
  /-- AMO (R258): Atomic read-modify-write at the home, with or without returning the old value. -/
  | amo (st : Stall) (d a b : Reg) (n z : Bool) (o : AmoOp)
  /-- CAS (R265): Compare-and-swap at the home, returning the old value. -/
  | cas (st : Stall) (d a b : Reg) (z : Bool)
  /-- ENQ (R236): Appends an element to a ring at its home and returns OK or FULL. -/
  | enq (st : Stall) (d a b : Reg)
  /-- DEQ (R283): Takes the oldest element of a ring at its home and returns a status. -/
  | deq (st : Stall) (d a b : Reg)
  /-- VLD (R353): Vector load of 128 bytes with page-format decoding. -/
  | vld (st : Stall) (v : VReg) (b : Reg) (p : PReg) (t : MTy) (o : BitVec 6)
  /-- VLDW (R354): Vector load that waits until all eight granules are full and acquires. -/
  | vldw (st : Stall) (v : VReg) (b : Reg) (p : PReg) (t : MTy) (o : BitVec 6)
  /-- VLDC (R354): Vector load that waits for full, empties all eight granules and acquires. -/
  | vldc (st : Stall) (v : VReg) (b : Reg) (p : PReg) (t : MTy) (o : BitVec 6)
  /-- VST (R362): Vector store of 128 bytes with page-format encoding, or a contribution to an armed reduction page. -/
  | vst (st : Stall) (v : VReg) (b : Reg) (p : PReg) (t : MTy) (o : BitVec 6)
  /-- VSTP (R362): Vector store that waits for all eight granules empty, then sets them full. -/
  | vstp (st : Stall) (v : VReg) (b : Reg) (p : PReg) (t : MTy) (o : BitVec 6)
  /-- VSTF (R362): Vector store that sets all eight granules full. -/
  | vstf (st : Stall) (v : VReg) (b : Reg) (p : PReg) (t : MTy) (o : BitVec 6)
  /-- VGATH (R349): Gathers one element per active lane from indexed addresses. -/
  | vgath (st : Stall) (v : VReg) (b : Reg) (i : VReg) (p : PReg) (t : MTy)
  /-- VSCAT (R349): Scatters one element per active lane to indexed addresses. -/
  | vscat (st : Stall) (v : VReg) (b : Reg) (i : VReg) (p : PReg) (t : MTy)
  /-- VFADD (R347): Floating-point vector addition rounded by %ROUND. -/
  | vfadd (st : Stall) (d a b : VReg) (p : PReg) (q : Bool) (t : FTy)
  /-- VFSUB (R347): Floating-point vector subtraction. -/
  | vfsub (st : Stall) (d a b : VReg) (p : PReg) (q : Bool) (t : FTy)
  /-- VFMUL (R347): Floating-point vector multiplication. -/
  | vfmul (st : Stall) (d a b : VReg) (p : PReg) (q : Bool) (t : FTy)
  /-- VFMIN (R347): Floating-point vector minimum. -/
  | vfmin (st : Stall) (d a b : VReg) (p : PReg) (q : Bool) (t : FTy)
  /-- VFMAX (R347): Floating-point vector maximum. -/
  | vfmax (st : Stall) (d a b : VReg) (p : PReg) (q : Bool) (t : FTy)
  /-- VFABS (R347): Clears the sign of each element. -/
  | vfabs (st : Stall) (d a : VReg) (p : PReg) (q : Bool) (t : FTy)
  /-- VFNEG (R347): Inverts the sign of each element. -/
  | vfneg (st : Stall) (d a : VReg) (p : PReg) (q : Bool) (t : FTy)
  /-- VFCPYS (R347): Copies the sign of vb onto va. -/
  | vfcpys (st : Stall) (d a b : VReg) (p : PReg) (q : Bool) (t : FTy)
  /-- VFMA (R348): Fused a × b + c, rounded once. -/
  | vfma (st : Stall) (d a b : VReg) (p : PReg) (q : Bool) (t : FTy)
  /-- VFMS (R348): Fused a × b − c, rounded once. -/
  | vfms (st : Stall) (d a b : VReg) (p : PReg) (q : Bool) (t : FTy)
  /-- VFNMA (R348): Fused c − a × b, rounded once. -/
  | vfnma (st : Stall) (d a b : VReg) (p : PReg) (q : Bool) (t : FTy)
  /-- VFNMS (R348): Fused −(a × b) − c, rounded once. -/
  | vfnms (st : Stall) (d a b : VReg) (p : PReg) (q : Bool) (t : FTy)
  /-- VRCP (R355): Vector reciprocal from a table and exact correction, rounded once. -/
  | vrcp (st : Stall) (d a : VReg) (p : PReg) (q : Bool) (t : FTy)
  /-- VRSQ (R355): Vector reciprocal square root, rounded once. -/
  | vrsq (st : Stall) (d a : VReg) (p : PReg) (q : Bool) (t : FTy)
  /-- VEXP2 (R356): Vector base-2 exponential by table and polynomial. -/
  | vexp2 (st : Stall) (d a : VReg) (p : PReg) (q : Bool) (t : FTy)
  /-- VLOG2 (R356): Vector base-2 logarithm by table and polynomial. -/
  | vlog2 (st : Stall) (d a : VReg) (p : PReg) (q : Bool) (t : FTy)
  /-- VIADD (R351): Integer vector addition modulo the element width. -/
  | viadd (st : Stall) (d a b : VReg) (p : PReg) (t : ITy)
  /-- VISUB (R351): Integer vector subtraction. -/
  | visub (st : Stall) (d a b : VReg) (p : PReg) (t : ITy)
  /-- VIMUL (R351): Integer vector multiplication, low half. -/
  | vimul (st : Stall) (d a b : VReg) (p : PReg) (t : ITy)
  /-- VIMULH (R351): Integer vector multiplication, signed high half. -/
  | vimulh (st : Stall) (d a b : VReg) (p : PReg) (t : ITy)
  /-- VIMIN (R351): Signed integer vector minimum. -/
  | vimin (st : Stall) (d a b : VReg) (p : PReg) (t : ITy)
  /-- VIMAX (R351): Signed integer vector maximum. -/
  | vimax (st : Stall) (d a b : VReg) (p : PReg) (t : ITy)
  /-- VIMINU (R351): Unsigned integer vector minimum. -/
  | viminu (st : Stall) (d a b : VReg) (p : PReg) (t : ITy)
  /-- VIMAXU (R351): Unsigned integer vector maximum. -/
  | vimaxu (st : Stall) (d a b : VReg) (p : PReg) (t : ITy)
  /-- VAND (R342): Bitwise AND of active lanes. -/
  | vand (st : Stall) (d a b : VReg) (p : PReg) (t : ITy)
  /-- VOR (R342): Bitwise OR of active lanes. -/
  | vor (st : Stall) (d a b : VReg) (p : PReg) (t : ITy)
  /-- VXOR (R342): Bitwise XOR of active lanes. -/
  | vxor (st : Stall) (d a b : VReg) (p : PReg) (t : ITy)
  /-- VANDN (R342): Bitwise AND-NOT of active lanes. -/
  | vandn (st : Stall) (d a b : VReg) (p : PReg) (t : ITy)
  /-- VSHL (R360): Vector shift left by per-element amounts. -/
  | vshl (st : Stall) (d a b : VReg) (p : PReg) (t : ITy)
  /-- VSHR (R360): Vector logical shift right. -/
  | vshr (st : Stall) (d a b : VReg) (p : PReg) (t : ITy)
  /-- VSRA (R360): Vector arithmetic shift right. -/
  | vsra (st : Stall) (d a b : VReg) (p : PReg) (t : ITy)
  /-- VROL (R360): Vector rotate left. -/
  | vrol (st : Stall) (d a b : VReg) (p : PReg) (t : ITy)
  /-- VCMP (R343): Compares elements and writes one predicate bit per active lane. -/
  | vcmp (st : Stall) (d : PReg) (a b : VReg) (p : PReg) (k : VCmpKind)
  /-- VSEL (R359): Selects each lane from va or vb by the predicate. -/
  | vsel (st : Stall) (d a b : VReg) (p : PReg)
  /-- VCVT (R344): Converts elements between formats as fn selects. -/
  | vcvt (st : Stall) (d a : VReg) (p : PReg) (q : Bool) (f : Conv)
  /-- VRSUM (R358): Sums all elements in a fixed tree into element 0. -/
  | vrsum (st : Stall) (d a : VReg) (p : PReg) (q : Bool) (t : FTy)
  /-- VRMAX (R358): Maximum of all elements by a fixed tree into element 0. -/
  | vrmax (st : Stall) (d a : VReg) (p : PReg) (q : Bool) (t : FTy)
  /-- VRMIN (R358): Minimum of all elements by a fixed tree into element 0. -/
  | vrmin (st : Stall) (d a : VReg) (p : PReg) (q : Bool) (t : FTy)
  /-- VSHUF (R361): Permutes lanes of va by the indices held in vd. -/
  | vshuf (st : Stall) (d a : VReg)
  /-- VBCAST (R361): Broadcasts the low 32 bits of x[s] to every lane. -/
  | vbcast (st : Stall) (x : Reg) (d : VReg)
  /-- VEXTR (R361): Extracts one lane into an x register. -/
  | vextr (st : Stall) (d : Reg) (a : VReg) (l : BitVec 5)
  /-- VINSR (R361): Inserts the low 32 bits of x[s] into one lane. -/
  | vinsr (st : Stall) (x : Reg) (d : VReg) (l : BitVec 5)
  /-- VDOT (R346): Per-lane dot product of pairs or quads added exactly into the lane. -/
  | vdot (st : Stall) (d a b : VReg) (p : PReg) (k : DotKind)
  /-- PAND (R317): AND of two predicates. -/
  | pand (st : Stall) (d a b : PReg)
  /-- POR (R317): OR of two predicates. -/
  | por (st : Stall) (d a b : PReg)
  /-- PXOR (R317): XOR of two predicates. -/
  | pxor (st : Stall) (d a b : PReg)
  /-- PNOT (R317): Complement of a predicate. -/
  | pnot (st : Stall) (d a : PReg)
  /-- PCNT (R317): Counts the set bits of a predicate into an x register. -/
  | pcnt (st : Stall) (d : Reg) (a : PReg)
  /-- FLGRD (R291): Reads every lane's sticky flag set into a vector after earlier vector instructions complete. -/
  | flgrd (st : Stall) (d : VReg)
  /-- FLGCLR (R291): Clears the flag sets of the lanes the predicate selects. -/
  | flgclr (st : Stall) (p : PReg)
  /-- GADD (R150): Adds two Gaussian blocks over the same variables. -/
  | gadd (st : Stall) (d a b : VReg)
  /-- GDAMP (R150): Damps a Gaussian block toward another by β. -/
  | gdamp (st : Stall) (d a b : VReg)
  /-- GSOLVE (R150): Solves a Gaussian block for its mean and variances. -/
  | gsolve (st : Stall) (d a : VReg)
  /-- GRES (R150): Writes the largest absolute difference of two blocks to an x register. -/
  | gres (st : Stall) (d a b : VReg) (h : Bool)
  /-- GELIM (R151): Eliminates masked slots of a Gaussian block by a Schur complement. -/
  | gelim (st : Stall) (d a : VReg) (m : BitVec 6) (t : Bool) (p : PReg)
  /-- GAUSS_COMPLETE (R149): The Gaussian unit writes an operation's result after its variable latency, in issue order. -/
  | gaussComplete (core : Nat)
  /-- MLOAD (R138): Queues a command that decodes a B tile into the Mill's shadow plane. -/
  | mload (st : Stall) (a : TReg) (b : Reg) (g : Bool) (t : BitVec 2)
  /-- MFLIP (R138): Queues a command that exchanges the Mill's active and shadow planes. -/
  | mflip (st : Stall) (b : Reg) (g : Bool) (t : BitVec 2)
  /-- MSTRM (R139): Queues a command that streams A rows past the active plane into an accumulator. -/
  | mstrm (st : Stall) (a : TReg) (b : Reg) (c : AccN) (g o : Bool) (t : BitVec 2)
  /-- MDRAIN (R140): Queues a command that writes accumulator rows to a tile. -/
  | mdrain (st : Stall) (a : TReg) (b : Reg) (c : AccN) (g k : Bool) (t : BitVec 2)
  /-- MCLR (R141): Queues a command that zeroes an accumulator and optionally resets a halted queue. -/
  | mclr (st : Stall) (b : Reg) (c : AccN) (g r : Bool) (t : BitVec 2)
  /-- MILL_EXECUTE (R142): A Mill executes the next command of its inbox and writes its completion granule. -/
  | millExecute (core : Nat)
  /-- COPY (R272): Queues a tile copy with decode and encode on the copy engine. -/
  | copy (st : Stall) (a : TReg) (b : Reg) (c : TReg)
  /-- COPYM (R147): Queues a copy that places a follow-on MSTRM when it ends. -/
  | copym (st : Stall) (a : TReg) (b : Reg) (c : TReg) (g o : Bool) (t : BitVec 2)
  /-- GATHER (R294): Queues a copy of listed far rows into a local tile. -/
  | gather (st : Stall) (a : TReg) (b c : Reg) (r : Bool)
  /-- SCATTER (R294): Queues a copy of local rows into listed far rows. -/
  | scatter (st : Stall) (a : TReg) (b c : Reg)
  /-- MCAST (R274): Queues a copy of a tile to every destination of a list. -/
  | mcast (st : Stall) (a : TReg) (b c : Reg) (r : Bool)
  /-- COPY_ENGINE_EXECUTE (R272): The copy engine executes a queued copy command and writes its completion. -/
  | copyEngineExecute (core k : Nat)
  /-- TMSET (R244): Loads a tensor-map record into a tm register and zeroes its origin. -/
  | tmset (st : Stall) (a : TReg) (b : Reg)
  /-- TMADV (R340): Adds four signed deltas to a tm register's origin. -/
  | tmadv (st : Stall) (a : TReg) (b : Reg)
  /-- DISP (R284): Reads the route-table header, reserves tape and queues a dispatch of token rows to experts. -/
  | disp (st : Stall) (a : TReg) (b c : Reg) (n : BitVec 4)
  /-- DCUR (R282): Stops a dispatch engine command and writes its cursor. -/
  | dcur (st : Stall) (a b : Reg)
  /-- DRES (R282): Resumes a stopped DISP or COMB from a cursor. -/
  | dres (st : Stall) (a : TReg) (b : Reg) (n : BitVec 4)
  /-- COMB (R270): Queues a command that sums gated expert outputs into output rows. -/
  | comb (st : Stall) (a : TReg) (b c : Reg)
  /-- DISPATCH_ENGINE_EXECUTE (R182): The dispatch engine executes a queued DISP, COMB, DRES or REPLAY record by record. -/
  | dispatchEngineExecute (core k : Nat)
  /-- GRANT_SERVED (R183): A waiting grant request is served when a freeing store makes a slot free. -/
  | grantServed (core : Nat)
  /-- GRANT_BOUND_EXPIRY (R184): A record whose grant has waited 2^bnd × 256 cycles is deferred and its request withdrawn. -/
  | grantBoundExpiry (core k : Nat)
  /-- TMARK (R192): Writes the job's tape position once earlier recording commands hold their reservations. -/
  | tmark (st : Stall) (d : Reg)
  /-- REPLAY (R193): Queues the transpose of a recorded tape entry, moving gradients backwards. -/
  | replay (st : Stall) (a : TReg) (b c : Reg) (k : Bool)
  /-- TTRIM (R192): Releases the job's tape entries that end at or before a position. -/
  | ttrim (st : Stall) (a : Reg)
  /-- ROW_CONTRIBUTION (R194): A COMB or REPLAY contribution arrives at a row's home die and is added exactly in a row accumulator. -/
  | rowContribution (k : Nat)
  /-- SEND (R326): Reserves a reply slot and queues an active message to a core. -/
  | send (st : Stall) (a b : Reg)
  /-- SENDB (R326): Queues an active message with a payload of up to 256 bytes. -/
  | sendb (st : Stall) (a b c : Reg)
  /-- REPLY (R321): Sends a RPLY message to %RPLYADR using the request's reservation. -/
  | reply (st : Stall) (b : Reg)
  /-- SPAWN (R330): Pushes a task record onto the own deque or offers it to a neighbour. -/
  | spawn (st : Stall) (b : Reg)
  /-- TAGEN (R339): Sets the EN bits of the classes in a mask. -/
  | tagen (st : Stall) (a : Reg)
  /-- TAGDIS (R339): Clears the EN bits of the classes in a mask. -/
  | tagdis (st : Stall) (a : Reg)
  /-- TAGPND (R339): Reads %TAGPND into an x register. -/
  | tagpnd (st : Stall) (d : Reg)
  /-- MBPUT (R154): Posts a prioritised entry to a mailbox at its home. -/
  | mbput (st : Stall) (a b c : Reg)
  /-- MBTAKE (R155): Removes the top entry of an own-core mailbox. -/
  | mbtake (st : Stall) (a d : Reg)
  /-- MBCFG (R153): Re-divides and empties the issuing core's mailboxes. -/
  | mbcfg (st : Stall) (a : Reg)
  /-- CRY_ST (R164): Queues a Crier store to the partition's mirror word. -/
  | crySt (st : Stall) (a b : Reg)
  /-- CRY_ADD (R164): Queues a Crier add and returns the value before it in crier order. -/
  | cryAdd (st : Stall) (d a b : Reg)
  /-- CRY_MARK (R164): Queues a Crier mark and returns its sequence number. -/
  | cryMark (st : Stall) (d : Reg)
  /-- FENCE (R125): Holds the context until the ordering of its kind and scope is met. -/
  | fence (k : FKind) (c : Scope)
  /-- PUBLISH (R318): Flips FACE of a shadow region or page at its home. -/
  | publish (st : Stall) (a : Reg)
  /-- BARR (R262): Arrives at a named barrier as a release at its scope. -/
  | barr (st : Stall) (c : Scope) (imm : BitVec 4)
  /-- BWAIT (R262): Parks until the member's barrier phase ends and reports completed or aborted. -/
  | bwait (st : Stall) (d : Reg) (c : Scope) (imm : BitVec 4)
  /-- CNTADD (R268): Adds to a join counter at its home and fires the continuation at target. -/
  | cntadd (st : Stall) (a b : Reg)
  /-- CNTARM (R268): Arms a join counter with a target and class, firing at once or raising CNTOVER. -/
  | cntarm (st : Stall) (a b : Reg)
  /-- CNTRD (R268): Reads a join counter's COUNT. -/
  | cntrd (st : Stall) (d a : Reg)
  /-- SRD (R331): Reads a special register into x[d]. -/
  | srd (st : Stall) (d : Reg) (n : BitVec 12)
  /-- SWR (R331): Writes x[a] to a special register under its write checks. -/
  | swr (st : Stall) (a : Reg) (n : BitVec 12)
  /-- CTXSV (R278): Saves a held context's image, or frees a saved or held context. -/
  | ctxsv (st : Stall) (a b : Reg)
  /-- CTXLD (R279): Restores a context image and delivers arrived replies. -/
  | ctxld (st : Stall) (a b : Reg)
  /-- XINV (R364): Removes translations from every agent of a package and waits for accesses that used them. -/
  | xinv (st : Stall) (a b : Reg)
  /-- MESSAGE_ARRIVAL (R29): A REQ or BULK message arriving at a core's inbox is accepted or refused. -/
  | messageArrival (k : Nat)
  /-- RPLY_ARRIVAL (R28): A RPLY message is accepted into its reserved slot or an unreserved slot granted by credit. -/
  | rplyArrival (k : Nat)
  /-- DISPATCH (R32): When a context is free and work is waiting the core picks a message or deque record and activates it. -/
  | dispatch (core : Nat)
  /-- PRIORITY_PROMOTION (R36): A context eligible for 4,096 cycles without issuing is promoted above priority 3 for one issue. -/
  | priorityPromotion (core ctx : Nat)
  /-- SEND_QUEUE_ENTRY_LEAVES (R38): An entry leaves the send queue, waking contexts parked on a full queue. -/
  | sendQueueEntryLeaves (core : Nat)
  /-- STEAL_REQUEST (R42): After 64 idle cycles with an empty deque a core sends a steal request to the next neighbour. -/
  | stealRequest (core : Nat)
  /-- STEAL_REQUEST_ARRIVAL (R42): A victim removes half its deque from the top and sends the records. -/
  | stealRequestArrival (k : Nat)
  /-- STOLEN_RECORDS_ARRIVAL (R42): The thief places stolen records in order on its deque. -/
  | stolenRecordsArrival (k : Nat)
  /-- LEVELLING_INTERVAL (R43): At each BALINT interval a core snapshots occupancies and ships records to its least-loaded neighbour. -/
  | levellingInterval (core : Nat)
  /-- LEVELLING_SHIPMENT_ARRIVAL (R43): A levelling shipment delivers as many records as fit; the rest stay at the sender. -/
  | levellingShipmentArrival (k : Nat)
  /-- BARRIER_TIMEOUT (R46): TMO expiry aborts the phase and sends BARTIMEOUT to members that had not arrived. -/
  | barrierTimeout (core off : Nat)
  /-- FULL_EMPTY_WAITER_APPLIED (R63): A waiting access held at its home is applied once its full/empty condition holds, in arrival order. -/
  | fullEmptyWaiterApplied (k : Nat)
  /-- ACCESS_REPLY_ARRIVAL (R207): A reply to a load, atomic or other access lands in its outstanding-reply slot and is delivered. -/
  | accessReplyArrival (k : Nat)
  /-- STORE_ACKNOWLEDGEMENT (R125): A home's acknowledgement of a store, atomic or contribution reaches the issuer. -/
  | storeAcknowledgement (k : Nat)
  /-- PAGE_WALK (R65): A Granary agent's page-table walk completes and releases the accesses waiting on it. -/
  | pageWalk (k : Nat)
  /-- CONTRIBUTION (R72): A granule contribution reaches the collective engine and is added exactly into the accumulator. -/
  | contribution (k : Nat)
  /-- REDUCTION_DEADLINE (R73): After RDL µs every incomplete granule takes the abort pattern and ABT is set. -/
  | reductionDeadline (die slot : Nat)
  /-- CATCHUP_PROBE (R124): A probe from a home that holds an access asks a source interface for a marker. -/
  | catchupProbe (k : Nat)
  /-- MARKER (R124): A marker reaches the home, which then applies the held access. -/
  | marker (k src : Nat)
  /-- PACKET_DELIVERY (R158): The destination interface hands a flow's packet to its home in sequence order, dropping duplicates. -/
  | packetDelivery (k : Nat)
  /-- PACKET_LOST (R123): A packet of a draining generation not delivered within 100 µs is declared lost. -/
  | packetLost (k : Nat)
  /-- FLIT_RETRANSMIT (R159): An uncorrectable flit is asked for again and resent on any live lane of the rail. -/
  | flitRetransmit (k : Nat)
  /-- ESCAPE_CHANNEL_DIVERT (R172): A packet that has waited 1,024 cycles at a hop moves to the escape channel. -/
  | escapeChannelDivert (k : Nat)
  /-- LINK_FAILURE (R173): A failed die bridge or last lane marks the hop failed and the service die opens a generation. -/
  | linkFailure (pkg link : Nat)
  /-- LANE_ERROR_WINDOW (R174): At the end of each error window a lane over ERRMAX is removed for retraining. -/
  | laneErrorWindow (pkg lane count : Nat)
  /-- LANE_RETRAIN_DONE (R174): A retrained lane is handed back, or disabled after three failures. -/
  | laneRetrainDone (pkg lane : Nat) (pass : Bool)
  /-- CRIER_TOKEN_FRAME (R161): The token reaches a holder, which sends up to four messages and passes the token in a frame. -/
  | crierTokenFrame (pod : Nat)
  /-- CRIER_SILENT_HOLDER (R161): A holder silent for 1 µs is skipped and a MEMBER message marks it absent. -/
  | crierSilentHolder (pod : Nat)
  /-- CRIER_RESEND_REQUEST (R161): A package missing a message after a check error asks for it again and holds later messages. -/
  | crierResendRequest (pkg : Nat)
  /-- CRIER_ST_APPLIED (R164): A CRY.ST message is applied to the mirror in crier order and sets the granule full. -/
  | crierStApplied (pkg : Nat)
  /-- CRIER_ADD_APPLIED (R164): A CRY.ADD message adds to the mirror word and returns the old value at the issuer. -/
  | crierAddApplied (pkg : Nat)
  /-- CRIER_MARK_APPLIED (R164): A CRY.MARK message returns its SEQ at the issuing package. -/
  | crierMarkApplied (pkg : Nat)
  /-- CRIER_BARRIER_ARRIVAL (R47): A POD barrier arrival message is applied to each package's barrier copy. -/
  | crierBarrierArrival (pkg : Nat)
  /-- CRIER_MARKET (R222): A market message of kind 4 carries a package's ask, draw and licence. -/
  | crierMarket (pkg : Nat)
  /-- CRIER_GEN (R166): Applying a GEN message moves the package to the next generation and resends kept packets. -/
  | crierGen (pkg : Nat)
  /-- CRIER_DRAINED (R168): A DRAINED message is applied, closing the generation when every live member has drained. -/
  | crierDrained (pkg : Nat)
  /-- DRAINED_SEND (R168): When every kept packet of a generation is acknowledged or lost the package sends DRAINED. -/
  | drainedSend (pkg : Nat)
  /-- CRIER_MEMBER (R161): A MEMBER message marks a package absent or admits it, opening a generation. -/
  | crierMember (pkg : Nat)
  /-- CRIER_INTENT (R171): An INTENT message orders table commits among packages. -/
  | crierIntent (pkg : Nat)
  /-- CRIER_UNKNOWN_KIND (R162): A message of kind 9-255 is recorded in the black box and otherwise ignored. -/
  | crierUnknownKind (pkg : Nat)
  /-- COMMIT (R171): A write of 1 to COMMIT sends INTENT and starts checking the staged route tables. -/
  | commit (k : Nat)
  /-- COMMIT_CHECK (R171): Once earlier commits are resolved the checker refuses or accepts the tables and sends GEN. -/
  | commitCheck (pkg : Nat)
  /-- STOP (R205): A STOP write to the stop word halts dispatch and saves every context and engine of the partition. -/
  | stop (k : Nat)
  /-- STOP_COMPLETE (R219): When the last image is written the partition becomes stopped and the supervisor is notified. -/
  | stopComplete (pkg part : Nat)
  /-- GO (R219): A GO write to a stopped partition's stop word resumes dispatch. -/
  | go (k : Nat)
  /-- PARTITION_RESET (R212): A RESET write increments the incarnation and clears every core's partition state. -/
  | partitionReset (k : Nat)
  /-- RESET_COMPLETE (R219): After at least 20 µs a resetting partition becomes running and the supervisor is notified. -/
  | resetComplete (pkg part : Nat)
  /-- PARTITION_ENTRY_WRITE (R219): A store to a partition entry sets EN, SUPCORE, FCLASS and NCLASS. -/
  | partitionEntryWrite (k : Nat)
  /-- QUAD_TABLE_WRITE (R220): A store to the quad table assigns a quad to a partition when both partitions are stopped. -/
  | quadTableWrite (k : Nat)
  /-- CLASS_TABLE_WRITE (R22): A store to a class-table entry, checked for permission, loader bit and reserved fields. -/
  | classTableWrite (k : Nat)
  /-- BARRIER_RECORD_WRITE (R45): A store to a barrier record takes effect at once or when the current phase ends. -/
  | barrierRecordWrite (k : Nat)
  /-- REGION_DESCRIPTOR_WRITE (R60): A store to a region descriptor, checked as its fields require. -/
  | regionDescriptorWrite (k : Nat)
  /-- TAPE_QUOTA_WRITE (R189): A store to a tape-quota record by the supervisor or a loader, checked for partition and uniqueness. -/
  | tapeQuotaWrite (k : Nat)
  /-- SAVEBASE_WRITE (R209): A supervisor store of the save area's offset. -/
  | savebaseWrite (k : Nat)
  /-- HOST_PORT_WRITE (R226): A store to a host port word enables a CXL port for a host. -/
  | hostPortWrite (k : Nat)
  /-- LCOMMIT (R221): A write of 1 has the security engine check the staged licence record. -/
  | lcommit (k : Nat)
  /-- ENERGY_COUNTER_CLEAR (R224): A write of 0 clears a job's energy counter. -/
  | energyCounterClear (k : Nat)
  /-- UNFREEZE (R229): A write of 1 clears the black-box frozen state. -/
  | unfreeze (k : Nat)
  /-- CONTROL_WORD_WRITE (R22): A store to any other control word or table, such as BALINT, ESCROOT, ERRMAX or staged hop tables. -/
  | controlWordWrite (k : Nat)
  /-- MARKET_INTERVAL (R222): At the end of each 1 ms interval every package computes the grants and sends its market message. -/
  | marketInterval (pod : Nat)
  /-- ENERGY_UPDATE (R224): Every 10 µs the service die adds integrated energy to the job counters. -/
  | energyUpdate (pkg : Nat)
  /-- POWER_ON_RESET (R62): Power-on reset clears slices, empties full/empty bits and resets registers and partition entries. -/
  | powerOnReset
  /-- BOOT (R225): The boot ROM fetches, verifies and measures the image, then starts the supervisor cores. -/
  | boot (pkg image : Nat)
  /-- ATTESTATION_REQUEST (R225): The security engine returns the measurement log signed over a nonce. -/
  | attestationRequest (core : Nat) (nonce : BitVec 512)
  /-- HOST_WINDOW_WRITE (R226): A whole aligned 256-byte host write becomes a message to the host's supervisor class. -/
  | hostWindowWrite (pkg port off : Nat) (data : List (BitVec 8))
  /-- HOST_RETRY (R226): A refused host-port message is sent again every 1 µs. -/
  | hostRetry (pkg : Nat)
  /-- SRAM_SCRUB (R228): One granule per core is scrubbed every 1,024 cycles. -/
  | sramScrub (core : Nat)
  /-- LPDDR6_SCRUB (R228): The in-package Granary is scrubbed once each 24 hours. -/
  | lpddr6Scrub (pkg : Nat)
  /-- TELEMETRY (R228): Telemetry is sent to the supervisor every 10 ms. -/
  | telemetry (pkg : Nat)
  /-- AGEING_MONITOR (R228): Ageing monitors of each quad are read each minute. -/
  | ageingMonitor (pkg quad : Nat)
  /-- MARGIN_REPLAN (R228): Every 24 hours the power manager re-plans each quad's voltage and frequency margins. -/
  | marginReplan (pkg : Nat)
  /-- MEMORY_ERROR (R214): An uncorrectable error raises MCHECK, holding the reader or failing the engine command. -/
  | memoryError (k : Nat) (u : ErrUnit)
  /-- SUM_STORE_ERROR (R177): An uncorrectable sum-store error aborts the granules it touches and raises MCHECK. -/
  | sumStoreError (die slot granule : Nat)
  /-- ILLEGAL_INSTRUCTION (R102): Fetching a word or parcel that is no valid instruction raises ILLEGAL to the supervisor, holding the context. -/
  | illegalInstruction (f : Fate)
  /-- VARIABLE_LATENCY_RESULT (R108): The result of a variable-latency operation with no reply, such as DIV, REM, VRCP, VEXP2, FLGRD, TAGPND or TMARK, is written and its waiting instructions become eligible. -/
  | variableLatencyResult (core ctx : Nat)
  /-- REMOTE_ACCESS_ARRIVAL (R56): A load, store, atomic, counter or mailbox request that travels on the on-die mesh arrives at its home's slice port and is applied there. -/
  | remoteAccessArrival (k : Nat)
  /-- POWER_LOSS (R215): A package or die loses power, its contexts are gone and it falls silent on the fabric and the Crier. -/
  | powerLoss (pkg die : Nat)
  /-- POWER_LIMIT (R229): A rail draw beyond 30,000 A for more than 50 µs is logged as a fatal power-limit event and freezes the black-box ring. -/
  | powerLimit (pkg : Nat)
  /-- END_TO_END_CHECK_FAILURE (R214): A packet that fails its end-to-end check is asked for again from the sending interface. -/
  | endToEndCheckFailure (k : Nat)
deriving DecidableEq, Repr

end Sys2Proof
end

