-- ==== Sys2Proof/WellFormed.lean ====
section
/-! DEFINITION. Sys2Proof/WellFormed.lean: the checks that R100 and the entries make on fields which the types of
`Syntax` leave free. An event's operands carry none: an event that is not due changes nothing. -/

namespace Sys2Proof

/-- Named barriers of a scope (R12); none at a scope that has no barriers. -/
def Scope.barriers : Scope → Nat
  | .quad => 4 | .die => 16 | .pkg => 16 | .pod => 8 | _ => 0

/-- Does R107, R19, R287 or R337 define the special register of this number? -/
def specialNumber (n : BitVec 12) : Bool :=
  decide (n.toNat ≤ 0x018) || (decide (0x100 ≤ n.toNat) && decide (n.toNat ≤ 0x106))

/-- An encoding that no field comparison of R100 or of an entry refuses with RESFIELD. -/
def Instr.wf : Instr → Bool
  | .bfx _ _ _ p l => decide (p.toNat + l.toNat + 1 ≤ 64)
  | .bfi _ _ _ p l => decide (p.toNat + l.toNat + 1 ≤ 64)
  | .amo _ d _ _ n _ _ => !n || d == 0
  | .deq _ d _ b => d != b && b != 0
  | .loop _ a i => if i == 0 then a == 0 else decide (3 ≤ i.toNat)
  | .mload _ _ _ g t => !g || t == 0
  | .mflip _ _ g t => !g || t == 0
  | .mstrm _ _ _ _ g _ t => !g || t == 0
  | .mdrain _ _ _ _ g _ t => !g || t == 0
  | .mclr _ _ _ g _ t => !g || t == 0
  | .copym _ _ _ _ g _ t => !g || t == 0
  | .replay _ _ _ c _ => c != 31
  | .mbtake _ _ d => d != 31
  | .vgath _ _ _ _ _ t => t != .raw
  | .vscat _ _ _ _ _ t => t != .raw
  | .fence k c => k != .gen || c == .pod || c == .sys
  | .barr _ c i => decide (i.toNat < c.barriers)
  | .bwait _ _ c i => decide (i.toNat < c.barriers)
  | .srd _ _ n => specialNumber n
  | .swr _ _ n => specialNumber n
  | _ => true

end Sys2Proof
end

