-- ==== Sys2Proof/Decode.lean ====
section
/-! DEFINITION. Sys2Proof/Decode.lean: the decoder, total on every word and parcel, which refuses by name what is
no instruction (R102), and after it the encoder, both written from the opcode map of R98 to R101. -/

namespace Sys2Proof

/-- The `n` bits of a word that begin at bit `lo`, as a number. -/
def fld (w : BitVec 32) (lo n : Nat) : Nat := (w.extractLsb' lo n).toNat

/-- The `n` bits of a parcel that begin at bit `lo`, as a number. -/
def fld16 (w : BitVec 16) (lo n : Nat) : Nat := (w.extractLsb' lo n).toNat

/-- What the opcode map makes of a word: an instruction, ILLEGAL, or RESFIELD (R102). -/
inductive RowRes
  | ok (i : Instr)
  | illegal
  | resfield
deriving DecidableEq, Repr

/-- What the opcode map makes of the fields of VCMP (R100). -/
inductive CmpRes
  | ok (k : VCmpKind)
  | illegal
  | resfield
deriving DecidableEq, Repr

/-- What the bytes at the PC decode to: an instruction, or the fate that its encoding alone decides; `resfield true`
is a refused encoding of an instruction that user mode may not run, so PRIV comes before it (R102). -/
inductive Decoded
  | ok (i : Instr)
  | illegal
  | resfield (priv : Bool)
deriving DecidableEq, Repr

def MSize.ofBits (b : BitVec 2) : MSize :=
  match b.toNat with | 0 => .b | 1 => .h | 2 => .s | _ => .d
def MSize.toBits : MSize → BitVec 2
  | .b => 0 | .h => 1 | .s => 2 | .d => 3

def MTy.ofBits (b : BitVec 3) : Option MTy :=
  match b.toNat with
  | 0 => some .raw | 1 => some .f32 | 2 => some .bf16 | 3 => some .f16 | 4 => some .i32 | 5 => some .i16 | 6 => some .i8
  | _ => none
def MTy.toBits : MTy → BitVec 3
  | .raw => 0 | .f32 => 1 | .bf16 => 2 | .f16 => 3 | .i32 => 4 | .i16 => 5 | .i8 => 6

def FTy.ofBits (b : BitVec 2) : Option FTy :=
  match b.toNat with | 0 => some .f32 | 1 => some .bf16 | 2 => some .f16 | _ => none
def FTy.toBits : FTy → BitVec 2
  | .f32 => 0 | .bf16 => 1 | .f16 => 2

def ITy.ofBits (b : BitVec 2) : Option ITy :=
  match b.toNat with | 0 => some .i32 | 1 => some .i16 | 2 => some .i8 | _ => none
def ITy.toBits : ITy → BitVec 2
  | .i32 => 0 | .i16 => 1 | .i8 => 2

def Cond.ofBits (b : BitVec 8) : Option Cond :=
  match b.toNat with
  | 0 => some .eq | 1 => some .ne | 2 => some .lt | 3 => some .ge | 4 => some .ltu | 5 => some .geu | 6 => some .tst
  | _ => none
def Cond.toBits : Cond → BitVec 8
  | .eq => 0 | .ne => 1 | .lt => 2 | .ge => 3 | .ltu => 4 | .geu => 5 | .tst => 6

def AmoOp.ofBits (b : BitVec 4) : Option AmoOp :=
  match b.toNat with
  | 0 => some .add | 1 => some .and | 2 => some .or | 3 => some .xor | 4 => some .min | 5 => some .max
  | 6 => some .minu | 7 => some .maxu | 8 => some .swap | _ => none
def AmoOp.toBits : AmoOp → BitVec 4
  | .add => 0 | .and => 1 | .or => 2 | .xor => 3 | .min => 4 | .max => 5 | .minu => 6 | .maxu => 7 | .swap => 8

def FCond.toBits : FCond → BitVec 4
  | .eq => 0 | .ne => 1 | .lt => 2 | .le => 3 | .un => 4
def FCond.ofBits (b : BitVec 4) : Option FCond :=
  match b.toNat with
  | 0 => some .eq | 1 => some .ne | 2 => some .lt | 3 => some .le | 4 => some .un | _ => none
def ICond.toBits : ICond → BitVec 4
  | .eq => 0 | .ne => 1 | .lt => 2 | .le => 3 | .ltu => 4 | .leu => 5
def ICond.ofBits (b : BitVec 4) : Option ICond :=
  match b.toNat with
  | 0 => some .eq | 1 => some .ne | 2 => some .lt | 3 => some .le | 4 => some .ltu | 5 => some .leu | _ => none

/-- VCMP's fn, ty and Q (R100): an undefined fn is ILLEGAL, a reserved ty or a Q on an integer compare RESFIELD. -/
def VCmpKind.ofBits (fn : BitVec 5) (ty : BitVec 2) (q : Bool) : CmpRes :=
  if fn.getLsbD 4 then
    match ICond.ofBits (fn.extractLsb' 0 4) with
    | none => .illegal
    | some c =>
      match ITy.ofBits ty with
      | none => .resfield
      | some t => if q then .resfield else .ok (.int c t)
  else
    match FCond.ofBits (fn.extractLsb' 0 4) with
    | none => .illegal
    | some c =>
      match FTy.ofBits ty with
      | none => .resfield
      | some t => .ok (.flt c t q)

/-- Q, ty and fn of VCMP: the word's bits 7 to 0. -/
def VCmpKind.toBits : VCmpKind → BitVec 8
  | .flt c t q => BitVec.ofBool q ++ t.toBits ++ 0#1 ++ c.toBits
  | .int c t => 0#1 ++ t.toBits ++ 1#1 ++ c.toBits

def Conv.ofBits (b : BitVec 5) : Option Conv :=
  match b.toNat with
  | 0 => some .f32ToBf16 | 1 => some .f32ToF16 | 2 => some .f32ToE4m3 | 3 => some .f32ToE5m2 | 4 => some .bf16ToF32
  | 5 => some .f16ToF32 | 6 => some .e4m3ToF32 | 7 => some .e5m2ToF32 | 8 => some .bf16ToE4m3 | 9 => some .bf16ToE5m2
  | 10 => some .f16ToE4m3 | 11 => some .f16ToE5m2 | 12 => some .f32ToI32 | 13 => some .i32ToF32 | 14 => some .f32ToI16
  | 15 => some .f32ToI8 | 16 => some .i16ToF32 | 17 => some .i8ToF32 | 18 => some .bf16ToF16 | 19 => some .f16ToBf16
  | _ => none
def Conv.toBits : Conv → BitVec 5
  | .f32ToBf16 => 0 | .f32ToF16 => 1 | .f32ToE4m3 => 2 | .f32ToE5m2 => 3 | .bf16ToF32 => 4 | .f16ToF32 => 5
  | .e4m3ToF32 => 6 | .e5m2ToF32 => 7 | .bf16ToE4m3 => 8 | .bf16ToE5m2 => 9 | .f16ToE4m3 => 10 | .f16ToE5m2 => 11
  | .f32ToI32 => 12 | .i32ToF32 => 13 | .f32ToI16 => 14 | .f32ToI8 => 15 | .i16ToF32 => 16 | .i8ToF32 => 17
  | .bf16ToF16 => 18 | .f16ToBf16 => 19

def DotKind.ofBits (b : BitVec 2) : DotKind :=
  match b.toNat with | 0 => .bf16 | 1 => .e4m3 | 2 => .e5m2 | _ => .i8
def DotKind.toBits : DotKind → BitVec 2
  | .bf16 => 0 | .e4m3 => 1 | .e5m2 => 2 | .i8 => 3

def FKind.ofBits (b : BitVec 2) : FKind :=
  match b.toNat with | 0 => .rel | 1 => .acq | 2 => .full | _ => .gen
def FKind.toBits : FKind → BitVec 2
  | .rel => 0 | .acq => 1 | .full => 2 | .gen => 3

def Scope.ofBits (b : BitVec 3) : Option Scope :=
  match b.toNat with
  | 0 => some .lane | 1 => some .core | 2 => some .quad | 3 => some .die | 4 => some .pkg | 5 => some .pod | 6 => some .sys
  | _ => none
def Scope.toBits : Scope → BitVec 3
  | .lane => 0 | .core => 1 | .quad => 2 | .die => 3 | .pkg => 4 | .pod => 5 | .sys => 6

def RMode.ofBits (b : BitVec 5) : Option RMode :=
  match b.toNat with | 0 => some .retry | 1 => some .skip | _ => none
def RMode.toBits : RMode → BitVec 5
  | .retry => 0 | .skip => 1

/-- Major 0x00 of the opcode map (R100): ADD, SUB, AND, OR, XOR, ANDN, SHL, SHR, SRA, ROL, MIN, MAX, MINU, MAXU, MUL, MULH, MULHU, DIV, DIVU, REM, REMU, CLZ, CTZ, POPC. -/
def decMajor00 (w : BitVec 32) : RowRes :=
  match fld w 0 8 with
  | 0 => .ok (.add (w.extractLsb' 23 2) (w.extractLsb' 18 5) (w.extractLsb' 13 5) (w.extractLsb' 8 5))
  | 1 => .ok (.sub (w.extractLsb' 23 2) (w.extractLsb' 18 5) (w.extractLsb' 13 5) (w.extractLsb' 8 5))
  | 2 => .ok (.and (w.extractLsb' 23 2) (w.extractLsb' 18 5) (w.extractLsb' 13 5) (w.extractLsb' 8 5))
  | 3 => .ok (.or (w.extractLsb' 23 2) (w.extractLsb' 18 5) (w.extractLsb' 13 5) (w.extractLsb' 8 5))
  | 4 => .ok (.xor (w.extractLsb' 23 2) (w.extractLsb' 18 5) (w.extractLsb' 13 5) (w.extractLsb' 8 5))
  | 5 => .ok (.andn (w.extractLsb' 23 2) (w.extractLsb' 18 5) (w.extractLsb' 13 5) (w.extractLsb' 8 5))
  | 6 => .ok (.shl (w.extractLsb' 23 2) (w.extractLsb' 18 5) (w.extractLsb' 13 5) (w.extractLsb' 8 5))
  | 7 => .ok (.shr (w.extractLsb' 23 2) (w.extractLsb' 18 5) (w.extractLsb' 13 5) (w.extractLsb' 8 5))
  | 8 => .ok (.sra (w.extractLsb' 23 2) (w.extractLsb' 18 5) (w.extractLsb' 13 5) (w.extractLsb' 8 5))
  | 9 => .ok (.rol (w.extractLsb' 23 2) (w.extractLsb' 18 5) (w.extractLsb' 13 5) (w.extractLsb' 8 5))
  | 10 => .ok (.min (w.extractLsb' 23 2) (w.extractLsb' 18 5) (w.extractLsb' 13 5) (w.extractLsb' 8 5))
  | 11 => .ok (.max (w.extractLsb' 23 2) (w.extractLsb' 18 5) (w.extractLsb' 13 5) (w.extractLsb' 8 5))
  | 12 => .ok (.minu (w.extractLsb' 23 2) (w.extractLsb' 18 5) (w.extractLsb' 13 5) (w.extractLsb' 8 5))
  | 13 => .ok (.maxu (w.extractLsb' 23 2) (w.extractLsb' 18 5) (w.extractLsb' 13 5) (w.extractLsb' 8 5))
  | 16 => .ok (.mul (w.extractLsb' 23 2) (w.extractLsb' 18 5) (w.extractLsb' 13 5) (w.extractLsb' 8 5))
  | 17 => .ok (.mulh (w.extractLsb' 23 2) (w.extractLsb' 18 5) (w.extractLsb' 13 5) (w.extractLsb' 8 5))
  | 18 => .ok (.mulhu (w.extractLsb' 23 2) (w.extractLsb' 18 5) (w.extractLsb' 13 5) (w.extractLsb' 8 5))
  | 20 => .ok (.div (w.extractLsb' 23 2) (w.extractLsb' 18 5) (w.extractLsb' 13 5) (w.extractLsb' 8 5))
  | 21 => .ok (.divu (w.extractLsb' 23 2) (w.extractLsb' 18 5) (w.extractLsb' 13 5) (w.extractLsb' 8 5))
  | 22 => .ok (.rem (w.extractLsb' 23 2) (w.extractLsb' 18 5) (w.extractLsb' 13 5) (w.extractLsb' 8 5))
  | 23 => .ok (.remu (w.extractLsb' 23 2) (w.extractLsb' 18 5) (w.extractLsb' 13 5) (w.extractLsb' 8 5))
  | 24 => if fld w 8 5 = 0 then .ok (.clz (w.extractLsb' 23 2) (w.extractLsb' 18 5) (w.extractLsb' 13 5)) else .resfield
  | 25 => if fld w 8 5 = 0 then .ok (.ctz (w.extractLsb' 23 2) (w.extractLsb' 18 5) (w.extractLsb' 13 5)) else .resfield
  | 26 => if fld w 8 5 = 0 then .ok (.popc (w.extractLsb' 23 2) (w.extractLsb' 18 5) (w.extractLsb' 13 5)) else .resfield
  | _ => .illegal

/-- Major 0x01 of the opcode map (R100): ADDI. -/
def decMajor01 (w : BitVec 32) : RowRes :=
  .ok (.addi (w.extractLsb' 23 2) (w.extractLsb' 18 5) (w.extractLsb' 13 5) (w.extractLsb' 0 13))

/-- Major 0x02 of the opcode map (R100): ANDI. -/
def decMajor02 (w : BitVec 32) : RowRes :=
  .ok (.andi (w.extractLsb' 23 2) (w.extractLsb' 18 5) (w.extractLsb' 13 5) (w.extractLsb' 0 13))

/-- Major 0x03 of the opcode map (R100): ORI. -/
def decMajor03 (w : BitVec 32) : RowRes :=
  .ok (.ori (w.extractLsb' 23 2) (w.extractLsb' 18 5) (w.extractLsb' 13 5) (w.extractLsb' 0 13))

/-- Major 0x04 of the opcode map (R100): XORI. -/
def decMajor04 (w : BitVec 32) : RowRes :=
  .ok (.xori (w.extractLsb' 23 2) (w.extractLsb' 18 5) (w.extractLsb' 13 5) (w.extractLsb' 0 13))

/-- Major 0x05 of the opcode map (R100): SHLI, SHRI, SRAI, ROLI. -/
def decMajor05 (w : BitVec 32) : RowRes :=
  match fld w 11 2 with
  | 0 => if fld w 6 5 = 0 then .ok (.shli (w.extractLsb' 23 2) (w.extractLsb' 18 5) (w.extractLsb' 13 5) (w.extractLsb' 0 6)) else .resfield
  | 1 => if fld w 6 5 = 0 then .ok (.shri (w.extractLsb' 23 2) (w.extractLsb' 18 5) (w.extractLsb' 13 5) (w.extractLsb' 0 6)) else .resfield
  | 2 => if fld w 6 5 = 0 then .ok (.srai (w.extractLsb' 23 2) (w.extractLsb' 18 5) (w.extractLsb' 13 5) (w.extractLsb' 0 6)) else .resfield
  | 3 => if fld w 6 5 = 0 then .ok (.roli (w.extractLsb' 23 2) (w.extractLsb' 18 5) (w.extractLsb' 13 5) (w.extractLsb' 0 6)) else .resfield
  | _ => .illegal

/-- Major 0x06 of the opcode map (R100): CMP. -/
def decMajor06 (w : BitVec 32) : RowRes :=
  (match Cond.ofBits (w.extractLsb' 0 8) with | some c => .ok (.cmp (w.extractLsb' 23 2) (w.extractLsb' 18 5) (w.extractLsb' 13 5) (w.extractLsb' 8 5) c) | none => .illegal)

/-- Major 0x07 of the opcode map (R100): LIH. -/
def decMajor07 (w : BitVec 32) : RowRes :=
  .ok (.lih (w.extractLsb' 23 2) (w.extractLsb' 18 5) (w.extractLsb' 0 18))

/-- Major 0x08 of the opcode map (R100): MADD, MSUB. -/
def decMajor08 (w : BitVec 32) : RowRes :=
  match fld w 0 8 with
  | 0 => .ok (.madd (w.extractLsb' 23 2) (w.extractLsb' 18 5) (w.extractLsb' 13 5) (w.extractLsb' 8 5))
  | 1 => .ok (.msub (w.extractLsb' 23 2) (w.extractLsb' 18 5) (w.extractLsb' 13 5) (w.extractLsb' 8 5))
  | _ => .illegal

/-- Major 0x09 of the opcode map (R100): BFX, BFI. -/
def decMajor09 (w : BitVec 32) : RowRes :=
  match fld w 12 1 with
  | 0 => .ok (.bfx (w.extractLsb' 23 2) (w.extractLsb' 18 5) (w.extractLsb' 13 5) (w.extractLsb' 6 6) (w.extractLsb' 0 6))
  | 1 => .ok (.bfi (w.extractLsb' 23 2) (w.extractLsb' 18 5) (w.extractLsb' 13 5) (w.extractLsb' 6 6) (w.extractLsb' 0 6))
  | _ => .illegal

/-- Major 0x0a of the opcode map (R100): MKADR, ABSA, GPTR. -/
def decMajor0A (w : BitVec 32) : RowRes :=
  match fld w 0 8 with
  | 0 => .ok (.mkadr (w.extractLsb' 23 2) (w.extractLsb' 18 5) (w.extractLsb' 13 5) (w.extractLsb' 8 5))
  | 1 => if fld w 8 5 = 0 then .ok (.absa (w.extractLsb' 23 2) (w.extractLsb' 18 5) (w.extractLsb' 13 5)) else .resfield
  | 2 => if fld w 8 5 = 0 then .ok (.gptr (w.extractLsb' 23 2) (w.extractLsb' 18 5) (w.extractLsb' 13 5)) else .resfield
  | _ => .illegal

/-- Major 0x0b of the opcode map (R100): SEL. -/
def decMajor0B (w : BitVec 32) : RowRes :=
  if fld w 5 3 = 0 then .ok (.sel (w.extractLsb' 23 2) (w.extractLsb' 18 5) (w.extractLsb' 13 5) (w.extractLsb' 8 5) (w.extractLsb' 0 5)) else .resfield

/-- Major 0x0c of the opcode map (R100): BEQ, BNE, BLT, BGE, BLTU, BGEU. -/
def decMajor0C (w : BitVec 32) : RowRes :=
  match fld w 22 3 with
  | 0 => .ok (.beq (w.extractLsb' 17 5) (w.extractLsb' 12 5) (w.extractLsb' 0 12))
  | 1 => .ok (.bne (w.extractLsb' 17 5) (w.extractLsb' 12 5) (w.extractLsb' 0 12))
  | 2 => .ok (.blt (w.extractLsb' 17 5) (w.extractLsb' 12 5) (w.extractLsb' 0 12))
  | 3 => .ok (.bge (w.extractLsb' 17 5) (w.extractLsb' 12 5) (w.extractLsb' 0 12))
  | 4 => .ok (.bltu (w.extractLsb' 17 5) (w.extractLsb' 12 5) (w.extractLsb' 0 12))
  | 5 => .ok (.bgeu (w.extractLsb' 17 5) (w.extractLsb' 12 5) (w.extractLsb' 0 12))
  | _ => .illegal

/-- Major 0x0d of the opcode map (R100): J. -/
def decMajor0D (w : BitVec 32) : RowRes :=
  .ok (.j (w.extractLsb' 0 25))

/-- Major 0x0e of the opcode map (R100): JAL. -/
def decMajor0E (w : BitVec 32) : RowRes :=
  .ok (.jal (w.extractLsb' 0 25))

/-- Major 0x0f of the opcode map (R100): JR, JALR. -/
def decMajor0F (w : BitVec 32) : RowRes :=
  match fld w 0 8 with
  | 0 => if fld w 8 5 = 0 ∧ fld w 18 5 = 0 then .ok (.jr (w.extractLsb' 23 2) (w.extractLsb' 13 5)) else .resfield
  | 1 => if fld w 8 5 = 0 then .ok (.jalr (w.extractLsb' 23 2) (w.extractLsb' 18 5) (w.extractLsb' 13 5)) else .resfield
  | _ => .illegal

/-- Major 0x10 of the opcode map (R100): LOOP. -/
def decMajor10 (w : BitVec 32) : RowRes :=
  if fld w 18 5 = 0 then .ok (.loop (w.extractLsb' 23 2) (w.extractLsb' 13 5) (w.extractLsb' 0 13)) else .resfield

/-- Major 0x11 of the opcode map (R100): NOP, END, TRAP, SYSC, ERET, HALT, RESUME. -/
def decMajor11 (w : BitVec 32) : RowRes :=
  match fld w 0 8 with
  | 0 => if fld w 8 15 = 0 then .ok (.nop (w.extractLsb' 23 2)) else .resfield
  | 1 => if fld w 8 15 = 0 then .ok (.endAct (w.extractLsb' 23 2)) else .resfield
  | 2 => if fld w 8 5 = 0 ∧ fld w 18 5 = 0 then .ok (.trap (w.extractLsb' 23 2) (w.extractLsb' 13 5)) else .resfield
  | 3 => if fld w 8 5 = 0 ∧ fld w 18 5 = 0 then .ok (.sysc (w.extractLsb' 23 2) (w.extractLsb' 13 5)) else .resfield
  | 4 => if fld w 8 15 = 0 then .ok (.eret (w.extractLsb' 23 2)) else .resfield
  | 5 => if fld w 8 15 = 0 then .ok (.halt (w.extractLsb' 23 2)) else .resfield
  | 6 => if fld w 8 5 = 0 then (match RMode.ofBits (w.extractLsb' 18 5) with | some m => .ok (.resume (w.extractLsb' 23 2) m (w.extractLsb' 13 5)) | none => .resfield) else .resfield
  | _ => .illegal

/-- Major 0x12 of the opcode map (R100): LD, LDW, LDC. -/
def decMajor12 (w : BitVec 32) : RowRes :=
  match fld w 10 3 with
  | 0 => .ok (.ld (w.extractLsb' 23 2) (w.extractLsb' 18 5) (w.extractLsb' 13 5) (MSize.ofBits (w.extractLsb' 8 2)) (w.extractLsb' 0 8))
  | 1 => .ok (.ldw (w.extractLsb' 23 2) (w.extractLsb' 18 5) (w.extractLsb' 13 5) (MSize.ofBits (w.extractLsb' 8 2)) (w.extractLsb' 0 8))
  | 2 => .ok (.ldc (w.extractLsb' 23 2) (w.extractLsb' 18 5) (w.extractLsb' 13 5) (MSize.ofBits (w.extractLsb' 8 2)) (w.extractLsb' 0 8))
  | _ => .resfield

/-- Major 0x13 of the opcode map (R100): ST, STP, STF. -/
def decMajor13 (w : BitVec 32) : RowRes :=
  match fld w 10 3 with
  | 0 => .ok (.st (w.extractLsb' 23 2) (w.extractLsb' 18 5) (w.extractLsb' 13 5) (MSize.ofBits (w.extractLsb' 8 2)) (w.extractLsb' 0 8))
  | 1 => .ok (.stp (w.extractLsb' 23 2) (w.extractLsb' 18 5) (w.extractLsb' 13 5) (MSize.ofBits (w.extractLsb' 8 2)) (w.extractLsb' 0 8))
  | 2 => .ok (.stf (w.extractLsb' 23 2) (w.extractLsb' 18 5) (w.extractLsb' 13 5) (MSize.ofBits (w.extractLsb' 8 2)) (w.extractLsb' 0 8))
  | _ => .resfield

/-- Major 0x14 of the opcode map (R100): GET, PUT. -/
def decMajor14 (w : BitVec 32) : RowRes :=
  match fld w 0 8 with
  | 0 => .ok (.get (w.extractLsb' 23 2) (w.extractLsb' 18 5) (w.extractLsb' 13 5) (w.extractLsb' 8 5))
  | 1 => .ok (.put (w.extractLsb' 23 2) (w.extractLsb' 18 5) (w.extractLsb' 13 5) (w.extractLsb' 8 5))
  | _ => .illegal

/-- Major 0x15 of the opcode map (R100): FEQRY, FESET. -/
def decMajor15 (w : BitVec 32) : RowRes :=
  match fld w 0 8 with
  | 0 => if fld w 8 5 = 0 then .ok (.feqry (w.extractLsb' 23 2) (w.extractLsb' 18 5) (w.extractLsb' 13 5)) else .resfield
  | 1 => if fld w 18 5 = 0 then .ok (.feset (w.extractLsb' 23 2) (w.extractLsb' 13 5) (w.extractLsb' 8 5)) else .resfield
  | _ => .illegal

/-- Major 0x16 of the opcode map (R100): AMO. -/
def decMajor16 (w : BitVec 32) : RowRes :=
  if AmoOp.ofBits (w.extractLsb' 0 4) = none then .illegal else if fld w 6 2 = 0 then (match AmoOp.ofBits (w.extractLsb' 0 4) with | some o => .ok (.amo (w.extractLsb' 23 2) (w.extractLsb' 18 5) (w.extractLsb' 13 5) (w.extractLsb' 8 5) (w.getLsbD 5) (w.getLsbD 4) o) | none => .illegal) else .resfield

/-- Major 0x17 of the opcode map (R100): CAS. -/
def decMajor17 (w : BitVec 32) : RowRes :=
  if fld w 0 4 = 0 ∧ fld w 5 3 = 0 then .ok (.cas (w.extractLsb' 23 2) (w.extractLsb' 18 5) (w.extractLsb' 13 5) (w.extractLsb' 8 5) (w.getLsbD 4)) else .resfield

/-- Major 0x18 of the opcode map (R100): ENQ, DEQ. -/
def decMajor18 (w : BitVec 32) : RowRes :=
  match fld w 0 8 with
  | 0 => .ok (.enq (w.extractLsb' 23 2) (w.extractLsb' 18 5) (w.extractLsb' 13 5) (w.extractLsb' 8 5))
  | 1 => .ok (.deq (w.extractLsb' 23 2) (w.extractLsb' 18 5) (w.extractLsb' 13 5) (w.extractLsb' 8 5))
  | _ => .illegal

/-- Major 0x19 of the opcode map (R100): VLD, VLDW, VLDC. -/
def decMajor19 (w : BitVec 32) : RowRes :=
  match fld w 9 2 with
  | 0 => (match MTy.ofBits (w.extractLsb' 6 3) with | some t => .ok (.vld (w.extractLsb' 23 2) (w.extractLsb' 19 4) (w.extractLsb' 14 5) (w.extractLsb' 11 3) t (w.extractLsb' 0 6)) | none => .resfield)
  | 1 => (match MTy.ofBits (w.extractLsb' 6 3) with | some t => .ok (.vldw (w.extractLsb' 23 2) (w.extractLsb' 19 4) (w.extractLsb' 14 5) (w.extractLsb' 11 3) t (w.extractLsb' 0 6)) | none => .resfield)
  | 2 => (match MTy.ofBits (w.extractLsb' 6 3) with | some t => .ok (.vldc (w.extractLsb' 23 2) (w.extractLsb' 19 4) (w.extractLsb' 14 5) (w.extractLsb' 11 3) t (w.extractLsb' 0 6)) | none => .resfield)
  | _ => .resfield

/-- Major 0x1a of the opcode map (R100): VST, VSTP, VSTF. -/
def decMajor1A (w : BitVec 32) : RowRes :=
  match fld w 9 2 with
  | 0 => (match MTy.ofBits (w.extractLsb' 6 3) with | some t => .ok (.vst (w.extractLsb' 23 2) (w.extractLsb' 19 4) (w.extractLsb' 14 5) (w.extractLsb' 11 3) t (w.extractLsb' 0 6)) | none => .resfield)
  | 1 => (match MTy.ofBits (w.extractLsb' 6 3) with | some t => .ok (.vstp (w.extractLsb' 23 2) (w.extractLsb' 19 4) (w.extractLsb' 14 5) (w.extractLsb' 11 3) t (w.extractLsb' 0 6)) | none => .resfield)
  | 2 => (match MTy.ofBits (w.extractLsb' 6 3) with | some t => .ok (.vstf (w.extractLsb' 23 2) (w.extractLsb' 19 4) (w.extractLsb' 14 5) (w.extractLsb' 11 3) t (w.extractLsb' 0 6)) | none => .resfield)
  | _ => .resfield

/-- Major 0x1b of the opcode map (R100): VGATH, VSCAT. -/
def decMajor1B (w : BitVec 32) : RowRes :=
  match fld w 0 1 with
  | 0 => if fld w 1 3 = 0 then (match MTy.ofBits (w.extractLsb' 4 3) with | some t => .ok (.vgath (w.extractLsb' 23 2) (w.extractLsb' 19 4) (w.extractLsb' 14 5) (w.extractLsb' 10 4) (w.extractLsb' 7 3) t) | none => .resfield) else .resfield
  | 1 => if fld w 1 3 = 0 then (match MTy.ofBits (w.extractLsb' 4 3) with | some t => .ok (.vscat (w.extractLsb' 23 2) (w.extractLsb' 19 4) (w.extractLsb' 14 5) (w.extractLsb' 10 4) (w.extractLsb' 7 3) t) | none => .resfield) else .resfield
  | _ => .illegal

/-- Major 0x1c of the opcode map (R100): VFADD, VFSUB, VFMUL, VFMIN, VFMAX, VFABS, VFNEG, VFCPYS, VFMA, VFMS, VFNMA, VFNMS, VRCP, VRSQ, VEXP2, VLOG2. -/
def decMajor1C (w : BitVec 32) : RowRes :=
  match fld w 0 5 with
  | 0 => (match FTy.ofBits (w.extractLsb' 5 2) with | some t => .ok (.vfadd (w.extractLsb' 23 2) (w.extractLsb' 19 4) (w.extractLsb' 15 4) (w.extractLsb' 11 4) (w.extractLsb' 8 3) (w.getLsbD 7) t) | none => .resfield)
  | 1 => (match FTy.ofBits (w.extractLsb' 5 2) with | some t => .ok (.vfsub (w.extractLsb' 23 2) (w.extractLsb' 19 4) (w.extractLsb' 15 4) (w.extractLsb' 11 4) (w.extractLsb' 8 3) (w.getLsbD 7) t) | none => .resfield)
  | 2 => (match FTy.ofBits (w.extractLsb' 5 2) with | some t => .ok (.vfmul (w.extractLsb' 23 2) (w.extractLsb' 19 4) (w.extractLsb' 15 4) (w.extractLsb' 11 4) (w.extractLsb' 8 3) (w.getLsbD 7) t) | none => .resfield)
  | 3 => (match FTy.ofBits (w.extractLsb' 5 2) with | some t => .ok (.vfmin (w.extractLsb' 23 2) (w.extractLsb' 19 4) (w.extractLsb' 15 4) (w.extractLsb' 11 4) (w.extractLsb' 8 3) (w.getLsbD 7) t) | none => .resfield)
  | 4 => (match FTy.ofBits (w.extractLsb' 5 2) with | some t => .ok (.vfmax (w.extractLsb' 23 2) (w.extractLsb' 19 4) (w.extractLsb' 15 4) (w.extractLsb' 11 4) (w.extractLsb' 8 3) (w.getLsbD 7) t) | none => .resfield)
  | 5 => if fld w 11 4 = 0 then (match FTy.ofBits (w.extractLsb' 5 2) with | some t => .ok (.vfabs (w.extractLsb' 23 2) (w.extractLsb' 19 4) (w.extractLsb' 15 4) (w.extractLsb' 8 3) (w.getLsbD 7) t) | none => .resfield) else .resfield
  | 6 => if fld w 11 4 = 0 then (match FTy.ofBits (w.extractLsb' 5 2) with | some t => .ok (.vfneg (w.extractLsb' 23 2) (w.extractLsb' 19 4) (w.extractLsb' 15 4) (w.extractLsb' 8 3) (w.getLsbD 7) t) | none => .resfield) else .resfield
  | 7 => (match FTy.ofBits (w.extractLsb' 5 2) with | some t => .ok (.vfcpys (w.extractLsb' 23 2) (w.extractLsb' 19 4) (w.extractLsb' 15 4) (w.extractLsb' 11 4) (w.extractLsb' 8 3) (w.getLsbD 7) t) | none => .resfield)
  | 8 => (match FTy.ofBits (w.extractLsb' 5 2) with | some t => .ok (.vfma (w.extractLsb' 23 2) (w.extractLsb' 19 4) (w.extractLsb' 15 4) (w.extractLsb' 11 4) (w.extractLsb' 8 3) (w.getLsbD 7) t) | none => .resfield)
  | 9 => (match FTy.ofBits (w.extractLsb' 5 2) with | some t => .ok (.vfms (w.extractLsb' 23 2) (w.extractLsb' 19 4) (w.extractLsb' 15 4) (w.extractLsb' 11 4) (w.extractLsb' 8 3) (w.getLsbD 7) t) | none => .resfield)
  | 10 => (match FTy.ofBits (w.extractLsb' 5 2) with | some t => .ok (.vfnma (w.extractLsb' 23 2) (w.extractLsb' 19 4) (w.extractLsb' 15 4) (w.extractLsb' 11 4) (w.extractLsb' 8 3) (w.getLsbD 7) t) | none => .resfield)
  | 11 => (match FTy.ofBits (w.extractLsb' 5 2) with | some t => .ok (.vfnms (w.extractLsb' 23 2) (w.extractLsb' 19 4) (w.extractLsb' 15 4) (w.extractLsb' 11 4) (w.extractLsb' 8 3) (w.getLsbD 7) t) | none => .resfield)
  | 12 => if fld w 11 4 = 0 then (match FTy.ofBits (w.extractLsb' 5 2) with | some t => .ok (.vrcp (w.extractLsb' 23 2) (w.extractLsb' 19 4) (w.extractLsb' 15 4) (w.extractLsb' 8 3) (w.getLsbD 7) t) | none => .resfield) else .resfield
  | 13 => if fld w 11 4 = 0 then (match FTy.ofBits (w.extractLsb' 5 2) with | some t => .ok (.vrsq (w.extractLsb' 23 2) (w.extractLsb' 19 4) (w.extractLsb' 15 4) (w.extractLsb' 8 3) (w.getLsbD 7) t) | none => .resfield) else .resfield
  | 14 => if fld w 11 4 = 0 then (match FTy.ofBits (w.extractLsb' 5 2) with | some t => .ok (.vexp2 (w.extractLsb' 23 2) (w.extractLsb' 19 4) (w.extractLsb' 15 4) (w.extractLsb' 8 3) (w.getLsbD 7) t) | none => .resfield) else .resfield
  | 15 => if fld w 11 4 = 0 then (match FTy.ofBits (w.extractLsb' 5 2) with | some t => .ok (.vlog2 (w.extractLsb' 23 2) (w.extractLsb' 19 4) (w.extractLsb' 15 4) (w.extractLsb' 8 3) (w.getLsbD 7) t) | none => .resfield) else .resfield
  | _ => .illegal

/-- Major 0x1d of the opcode map (R100): VIADD, VISUB, VIMUL, VIMULH, VIMIN, VIMAX, VIMINU, VIMAXU, VAND, VOR, VXOR, VANDN, VSHL, VSHR, VSRA, VROL. -/
def decMajor1D (w : BitVec 32) : RowRes :=
  match fld w 0 5 with
  | 0 => if fld w 7 1 = 0 then (match ITy.ofBits (w.extractLsb' 5 2) with | some t => .ok (.viadd (w.extractLsb' 23 2) (w.extractLsb' 19 4) (w.extractLsb' 15 4) (w.extractLsb' 11 4) (w.extractLsb' 8 3) t) | none => .resfield) else .resfield
  | 1 => if fld w 7 1 = 0 then (match ITy.ofBits (w.extractLsb' 5 2) with | some t => .ok (.visub (w.extractLsb' 23 2) (w.extractLsb' 19 4) (w.extractLsb' 15 4) (w.extractLsb' 11 4) (w.extractLsb' 8 3) t) | none => .resfield) else .resfield
  | 2 => if fld w 7 1 = 0 then (match ITy.ofBits (w.extractLsb' 5 2) with | some t => .ok (.vimul (w.extractLsb' 23 2) (w.extractLsb' 19 4) (w.extractLsb' 15 4) (w.extractLsb' 11 4) (w.extractLsb' 8 3) t) | none => .resfield) else .resfield
  | 3 => if fld w 7 1 = 0 then (match ITy.ofBits (w.extractLsb' 5 2) with | some t => .ok (.vimulh (w.extractLsb' 23 2) (w.extractLsb' 19 4) (w.extractLsb' 15 4) (w.extractLsb' 11 4) (w.extractLsb' 8 3) t) | none => .resfield) else .resfield
  | 4 => if fld w 7 1 = 0 then (match ITy.ofBits (w.extractLsb' 5 2) with | some t => .ok (.vimin (w.extractLsb' 23 2) (w.extractLsb' 19 4) (w.extractLsb' 15 4) (w.extractLsb' 11 4) (w.extractLsb' 8 3) t) | none => .resfield) else .resfield
  | 5 => if fld w 7 1 = 0 then (match ITy.ofBits (w.extractLsb' 5 2) with | some t => .ok (.vimax (w.extractLsb' 23 2) (w.extractLsb' 19 4) (w.extractLsb' 15 4) (w.extractLsb' 11 4) (w.extractLsb' 8 3) t) | none => .resfield) else .resfield
  | 6 => if fld w 7 1 = 0 then (match ITy.ofBits (w.extractLsb' 5 2) with | some t => .ok (.viminu (w.extractLsb' 23 2) (w.extractLsb' 19 4) (w.extractLsb' 15 4) (w.extractLsb' 11 4) (w.extractLsb' 8 3) t) | none => .resfield) else .resfield
  | 7 => if fld w 7 1 = 0 then (match ITy.ofBits (w.extractLsb' 5 2) with | some t => .ok (.vimaxu (w.extractLsb' 23 2) (w.extractLsb' 19 4) (w.extractLsb' 15 4) (w.extractLsb' 11 4) (w.extractLsb' 8 3) t) | none => .resfield) else .resfield
  | 8 => if fld w 7 1 = 0 then (match ITy.ofBits (w.extractLsb' 5 2) with | some t => .ok (.vand (w.extractLsb' 23 2) (w.extractLsb' 19 4) (w.extractLsb' 15 4) (w.extractLsb' 11 4) (w.extractLsb' 8 3) t) | none => .resfield) else .resfield
  | 9 => if fld w 7 1 = 0 then (match ITy.ofBits (w.extractLsb' 5 2) with | some t => .ok (.vor (w.extractLsb' 23 2) (w.extractLsb' 19 4) (w.extractLsb' 15 4) (w.extractLsb' 11 4) (w.extractLsb' 8 3) t) | none => .resfield) else .resfield
  | 10 => if fld w 7 1 = 0 then (match ITy.ofBits (w.extractLsb' 5 2) with | some t => .ok (.vxor (w.extractLsb' 23 2) (w.extractLsb' 19 4) (w.extractLsb' 15 4) (w.extractLsb' 11 4) (w.extractLsb' 8 3) t) | none => .resfield) else .resfield
  | 11 => if fld w 7 1 = 0 then (match ITy.ofBits (w.extractLsb' 5 2) with | some t => .ok (.vandn (w.extractLsb' 23 2) (w.extractLsb' 19 4) (w.extractLsb' 15 4) (w.extractLsb' 11 4) (w.extractLsb' 8 3) t) | none => .resfield) else .resfield
  | 12 => if fld w 7 1 = 0 then (match ITy.ofBits (w.extractLsb' 5 2) with | some t => .ok (.vshl (w.extractLsb' 23 2) (w.extractLsb' 19 4) (w.extractLsb' 15 4) (w.extractLsb' 11 4) (w.extractLsb' 8 3) t) | none => .resfield) else .resfield
  | 13 => if fld w 7 1 = 0 then (match ITy.ofBits (w.extractLsb' 5 2) with | some t => .ok (.vshr (w.extractLsb' 23 2) (w.extractLsb' 19 4) (w.extractLsb' 15 4) (w.extractLsb' 11 4) (w.extractLsb' 8 3) t) | none => .resfield) else .resfield
  | 14 => if fld w 7 1 = 0 then (match ITy.ofBits (w.extractLsb' 5 2) with | some t => .ok (.vsra (w.extractLsb' 23 2) (w.extractLsb' 19 4) (w.extractLsb' 15 4) (w.extractLsb' 11 4) (w.extractLsb' 8 3) t) | none => .resfield) else .resfield
  | 15 => if fld w 7 1 = 0 then (match ITy.ofBits (w.extractLsb' 5 2) with | some t => .ok (.vrol (w.extractLsb' 23 2) (w.extractLsb' 19 4) (w.extractLsb' 15 4) (w.extractLsb' 11 4) (w.extractLsb' 8 3) t) | none => .resfield) else .resfield
  | _ => .illegal

/-- Major 0x1e of the opcode map (R100): VCMP. -/
def decMajor1E (w : BitVec 32) : RowRes :=
  match VCmpKind.ofBits (w.extractLsb' 0 5) (w.extractLsb' 5 2) (w.getLsbD 7) with
  | .illegal => .illegal
  | .resfield => .resfield
  | .ok k => if fld w 22 1 = 0 then .ok (.vcmp (w.extractLsb' 23 2) (w.extractLsb' 19 3) (w.extractLsb' 15 4) (w.extractLsb' 11 4) (w.extractLsb' 8 3) k) else .resfield

/-- Major 0x1f of the opcode map (R100): VSEL. -/
def decMajor1F (w : BitVec 32) : RowRes :=
  if fld w 0 8 = 0 then .ok (.vsel (w.extractLsb' 23 2) (w.extractLsb' 19 4) (w.extractLsb' 15 4) (w.extractLsb' 11 4) (w.extractLsb' 8 3)) else .resfield

/-- Major 0x20 of the opcode map (R100): VCVT. -/
def decMajor20 (w : BitVec 32) : RowRes :=
  if Conv.ofBits (w.extractLsb' 0 5) = none then .illegal else if fld w 5 2 = 0 ∧ fld w 11 4 = 0 then (match Conv.ofBits (w.extractLsb' 0 5) with | some f => .ok (.vcvt (w.extractLsb' 23 2) (w.extractLsb' 19 4) (w.extractLsb' 15 4) (w.extractLsb' 8 3) (w.getLsbD 7) f) | none => .illegal) else .resfield

/-- Major 0x21 of the opcode map (R100): VRSUM, VRMAX, VRMIN. -/
def decMajor21 (w : BitVec 32) : RowRes :=
  match fld w 0 5 with
  | 0 => if fld w 11 4 = 0 then (match FTy.ofBits (w.extractLsb' 5 2) with | some t => .ok (.vrsum (w.extractLsb' 23 2) (w.extractLsb' 19 4) (w.extractLsb' 15 4) (w.extractLsb' 8 3) (w.getLsbD 7) t) | none => .resfield) else .resfield
  | 1 => if fld w 11 4 = 0 then (match FTy.ofBits (w.extractLsb' 5 2) with | some t => .ok (.vrmax (w.extractLsb' 23 2) (w.extractLsb' 19 4) (w.extractLsb' 15 4) (w.extractLsb' 8 3) (w.getLsbD 7) t) | none => .resfield) else .resfield
  | 2 => if fld w 11 4 = 0 then (match FTy.ofBits (w.extractLsb' 5 2) with | some t => .ok (.vrmin (w.extractLsb' 23 2) (w.extractLsb' 19 4) (w.extractLsb' 15 4) (w.extractLsb' 8 3) (w.getLsbD 7) t) | none => .resfield) else .resfield
  | _ => .illegal

/-- Major 0x22 of the opcode map (R100): VSHUF, VBCAST, VEXTR, VINSR. -/
def decMajor22 (w : BitVec 32) : RowRes :=
  match fld w 0 5 with
  | 0 => if fld w 9 5 = 0 ∧ fld w 18 5 = 0 then .ok (.vshuf (w.extractLsb' 23 2) (w.extractLsb' 14 4) (w.extractLsb' 5 4)) else .resfield
  | 1 => if fld w 5 9 = 0 then .ok (.vbcast (w.extractLsb' 23 2) (w.extractLsb' 18 5) (w.extractLsb' 14 4)) else .resfield
  | 2 => if fld w 5 4 = 0 then .ok (.vextr (w.extractLsb' 23 2) (w.extractLsb' 18 5) (w.extractLsb' 14 4) (w.extractLsb' 9 5)) else .resfield
  | 3 => if fld w 5 4 = 0 then .ok (.vinsr (w.extractLsb' 23 2) (w.extractLsb' 18 5) (w.extractLsb' 14 4) (w.extractLsb' 9 5)) else .resfield
  | _ => .illegal

/-- Major 0x23 of the opcode map (R100): VDOT. -/
def decMajor23 (w : BitVec 32) : RowRes :=
  if fld w 2 6 = 0 then .ok (.vdot (w.extractLsb' 23 2) (w.extractLsb' 19 4) (w.extractLsb' 15 4) (w.extractLsb' 11 4) (w.extractLsb' 8 3) (DotKind.ofBits (w.extractLsb' 0 2))) else .resfield

/-- Major 0x24 of the opcode map (R100): PAND, POR, PXOR, PNOT, PCNT. -/
def decMajor24 (w : BitVec 32) : RowRes :=
  match fld w 0 8 with
  | 0 => if fld w 11 2 = 0 ∧ fld w 16 2 = 0 ∧ fld w 21 2 = 0 then .ok (.pand (w.extractLsb' 23 2) (w.extractLsb' 18 3) (w.extractLsb' 13 3) (w.extractLsb' 8 3)) else .resfield
  | 1 => if fld w 11 2 = 0 ∧ fld w 16 2 = 0 ∧ fld w 21 2 = 0 then .ok (.por (w.extractLsb' 23 2) (w.extractLsb' 18 3) (w.extractLsb' 13 3) (w.extractLsb' 8 3)) else .resfield
  | 2 => if fld w 11 2 = 0 ∧ fld w 16 2 = 0 ∧ fld w 21 2 = 0 then .ok (.pxor (w.extractLsb' 23 2) (w.extractLsb' 18 3) (w.extractLsb' 13 3) (w.extractLsb' 8 3)) else .resfield
  | 3 => if fld w 8 5 = 0 ∧ fld w 16 2 = 0 ∧ fld w 21 2 = 0 then .ok (.pnot (w.extractLsb' 23 2) (w.extractLsb' 18 3) (w.extractLsb' 13 3)) else .resfield
  | 4 => if fld w 8 5 = 0 ∧ fld w 16 2 = 0 then .ok (.pcnt (w.extractLsb' 23 2) (w.extractLsb' 18 5) (w.extractLsb' 13 3)) else .resfield
  | _ => .illegal

/-- Major 0x25 of the opcode map (R100): FLGRD, FLGCLR. -/
def decMajor25 (w : BitVec 32) : RowRes :=
  match fld w 0 5 with
  | 0 => if fld w 5 14 = 0 then .ok (.flgrd (w.extractLsb' 23 2) (w.extractLsb' 19 4)) else .resfield
  | 1 => if fld w 5 3 = 0 ∧ fld w 11 12 = 0 then .ok (.flgclr (w.extractLsb' 23 2) (w.extractLsb' 8 3)) else .resfield
  | _ => .illegal

/-- Major 0x26 of the opcode map (R100): GADD, GDAMP, GSOLVE, GRES. -/
def decMajor26 (w : BitVec 32) : RowRes :=
  match fld w 0 5 with
  | 0 => if fld w 5 6 = 0 then .ok (.gadd (w.extractLsb' 23 2) (w.extractLsb' 19 4) (w.extractLsb' 15 4) (w.extractLsb' 11 4)) else .resfield
  | 1 => if fld w 5 6 = 0 then .ok (.gdamp (w.extractLsb' 23 2) (w.extractLsb' 19 4) (w.extractLsb' 15 4) (w.extractLsb' 11 4)) else .resfield
  | 2 => if fld w 5 10 = 0 then .ok (.gsolve (w.extractLsb' 23 2) (w.extractLsb' 19 4) (w.extractLsb' 15 4)) else .resfield
  | 3 => if fld w 5 2 = 0 ∧ fld w 8 3 = 0 then .ok (.gres (w.extractLsb' 23 2) (w.extractLsb' 19 4) (w.extractLsb' 15 4) (w.extractLsb' 11 4) (w.getLsbD 7)) else .resfield
  | _ => .illegal

/-- Major 0x27 of the opcode map (R100): GELIM. -/
def decMajor27 (w : BitVec 32) : RowRes :=
  if fld w 0 5 = 0 then .ok (.gelim (w.extractLsb' 23 2) (w.extractLsb' 19 4) (w.extractLsb' 15 4) (w.extractLsb' 9 6) (w.getLsbD 8) (w.extractLsb' 5 3)) else .resfield

/-- Major 0x28 of the opcode map (R100): MLOAD, MFLIP, MSTRM, MDRAIN, MCLR. -/
def decMajor28 (w : BitVec 32) : RowRes :=
  match fld w 0 4 with
  | 0 => if fld w 6 1 = 0 ∧ fld w 8 5 = 0 ∧ fld w 21 2 = 0 then .ok (.mload (w.extractLsb' 23 2) (w.extractLsb' 18 3) (w.extractLsb' 13 5) (w.getLsbD 7) (w.extractLsb' 4 2)) else .resfield
  | 1 => if fld w 6 1 = 0 ∧ fld w 8 5 = 0 ∧ fld w 18 5 = 0 then .ok (.mflip (w.extractLsb' 23 2) (w.extractLsb' 13 5) (w.getLsbD 7) (w.extractLsb' 4 2)) else .resfield
  | 2 => if fld w 21 2 = 0 ∧ fld w 10 3 = 0 then .ok (.mstrm (w.extractLsb' 23 2) (w.extractLsb' 18 3) (w.extractLsb' 13 5) (w.extractLsb' 8 2) (w.getLsbD 7) (w.getLsbD 6) (w.extractLsb' 4 2)) else .resfield
  | 3 => if fld w 21 2 = 0 ∧ fld w 10 3 = 0 then .ok (.mdrain (w.extractLsb' 23 2) (w.extractLsb' 18 3) (w.extractLsb' 13 5) (w.extractLsb' 8 2) (w.getLsbD 7) (w.getLsbD 6) (w.extractLsb' 4 2)) else .resfield
  | 4 => if fld w 18 5 = 0 ∧ fld w 10 3 = 0 then .ok (.mclr (w.extractLsb' 23 2) (w.extractLsb' 13 5) (w.extractLsb' 8 2) (w.getLsbD 7) (w.getLsbD 6) (w.extractLsb' 4 2)) else .resfield
  | _ => .illegal

/-- Major 0x29 of the opcode map (R100): COPY, COPYM, GATHER, SCATTER, MCAST. -/
def decMajor29 (w : BitVec 32) : RowRes :=
  match fld w 0 4 with
  | 0 => if fld w 4 4 = 0 ∧ fld w 21 2 = 0 ∧ fld w 11 2 = 0 then .ok (.copy (w.extractLsb' 23 2) (w.extractLsb' 18 3) (w.extractLsb' 13 5) (w.extractLsb' 8 3)) else .resfield
  | 1 => if fld w 21 2 = 0 ∧ fld w 11 2 = 0 then .ok (.copym (w.extractLsb' 23 2) (w.extractLsb' 18 3) (w.extractLsb' 13 5) (w.extractLsb' 8 3) (w.getLsbD 7) (w.getLsbD 6) (w.extractLsb' 4 2)) else .resfield
  | 2 => if fld w 4 3 = 0 ∧ fld w 21 2 = 0 then .ok (.gather (w.extractLsb' 23 2) (w.extractLsb' 18 3) (w.extractLsb' 13 5) (w.extractLsb' 8 5) (w.getLsbD 7)) else .resfield
  | 3 => if fld w 4 4 = 0 ∧ fld w 21 2 = 0 then .ok (.scatter (w.extractLsb' 23 2) (w.extractLsb' 18 3) (w.extractLsb' 13 5) (w.extractLsb' 8 5)) else .resfield
  | 4 => if fld w 4 3 = 0 ∧ fld w 21 2 = 0 then .ok (.mcast (w.extractLsb' 23 2) (w.extractLsb' 18 3) (w.extractLsb' 13 5) (w.extractLsb' 8 5) (w.getLsbD 7)) else .resfield
  | _ => .illegal

/-- Major 0x2a of the opcode map (R100): TMSET, TMADV. -/
def decMajor2A (w : BitVec 32) : RowRes :=
  match fld w 0 4 with
  | 0 => if fld w 4 9 = 0 ∧ fld w 21 2 = 0 then .ok (.tmset (w.extractLsb' 23 2) (w.extractLsb' 18 3) (w.extractLsb' 13 5)) else .resfield
  | 1 => if fld w 4 9 = 0 ∧ fld w 21 2 = 0 then .ok (.tmadv (w.extractLsb' 23 2) (w.extractLsb' 18 3) (w.extractLsb' 13 5)) else .resfield
  | _ => .illegal

/-- Major 0x2b of the opcode map (R100): DISP, DCUR, DRES, COMB. -/
def decMajor2B (w : BitVec 32) : RowRes :=
  match fld w 0 4 with
  | 0 => if fld w 21 2 = 0 then .ok (.disp (w.extractLsb' 23 2) (w.extractLsb' 18 3) (w.extractLsb' 13 5) (w.extractLsb' 8 5) (w.extractLsb' 4 4)) else .resfield
  | 1 => if fld w 4 9 = 0 then .ok (.dcur (w.extractLsb' 23 2) (w.extractLsb' 18 5) (w.extractLsb' 13 5)) else .resfield
  | 2 => if fld w 8 5 = 0 ∧ fld w 21 2 = 0 then .ok (.dres (w.extractLsb' 23 2) (w.extractLsb' 18 3) (w.extractLsb' 13 5) (w.extractLsb' 4 4)) else .resfield
  | 3 => if fld w 4 4 = 0 ∧ fld w 21 2 = 0 then .ok (.comb (w.extractLsb' 23 2) (w.extractLsb' 18 3) (w.extractLsb' 13 5) (w.extractLsb' 8 5)) else .resfield
  | _ => .illegal

/-- Major 0x2c of the opcode map (R100): TMARK, REPLAY, TTRIM. -/
def decMajor2C (w : BitVec 32) : RowRes :=
  match fld w 0 4 with
  | 0 => if fld w 4 14 = 0 then .ok (.tmark (w.extractLsb' 23 2) (w.extractLsb' 18 5)) else .resfield
  | 1 => if fld w 5 3 = 0 ∧ fld w 21 2 = 0 then .ok (.replay (w.extractLsb' 23 2) (w.extractLsb' 18 3) (w.extractLsb' 13 5) (w.extractLsb' 8 5) (w.getLsbD 4)) else .resfield
  | 2 => if fld w 4 14 = 0 then .ok (.ttrim (w.extractLsb' 23 2) (w.extractLsb' 18 5)) else .resfield
  | _ => .illegal

/-- Major 0x2d of the opcode map (R100): SEND, SENDB, REPLY, SPAWN. -/
def decMajor2D (w : BitVec 32) : RowRes :=
  match fld w 0 4 with
  | 0 => if fld w 4 9 = 0 then .ok (.send (w.extractLsb' 23 2) (w.extractLsb' 18 5) (w.extractLsb' 13 5)) else .resfield
  | 1 => if fld w 4 4 = 0 then .ok (.sendb (w.extractLsb' 23 2) (w.extractLsb' 18 5) (w.extractLsb' 13 5) (w.extractLsb' 8 5)) else .resfield
  | 2 => if fld w 4 9 = 0 ∧ fld w 18 5 = 0 then .ok (.reply (w.extractLsb' 23 2) (w.extractLsb' 13 5)) else .resfield
  | 3 => if fld w 4 9 = 0 ∧ fld w 18 5 = 0 then .ok (.spawn (w.extractLsb' 23 2) (w.extractLsb' 13 5)) else .resfield
  | _ => .illegal

/-- Major 0x2e of the opcode map (R100): TAGEN, TAGDIS, TAGPND. -/
def decMajor2E (w : BitVec 32) : RowRes :=
  match fld w 0 4 with
  | 0 => if fld w 4 14 = 0 then .ok (.tagen (w.extractLsb' 23 2) (w.extractLsb' 18 5)) else .resfield
  | 1 => if fld w 4 14 = 0 then .ok (.tagdis (w.extractLsb' 23 2) (w.extractLsb' 18 5)) else .resfield
  | 2 => if fld w 4 14 = 0 then .ok (.tagpnd (w.extractLsb' 23 2) (w.extractLsb' 18 5)) else .resfield
  | _ => .illegal

/-- Major 0x2f of the opcode map (R100): MBPUT, MBTAKE, MBCFG. -/
def decMajor2F (w : BitVec 32) : RowRes :=
  match fld w 0 4 with
  | 0 => if fld w 4 4 = 0 then .ok (.mbput (w.extractLsb' 23 2) (w.extractLsb' 18 5) (w.extractLsb' 13 5) (w.extractLsb' 8 5)) else .resfield
  | 1 => if fld w 4 9 = 0 then .ok (.mbtake (w.extractLsb' 23 2) (w.extractLsb' 18 5) (w.extractLsb' 13 5)) else .resfield
  | 2 => if fld w 4 14 = 0 then .ok (.mbcfg (w.extractLsb' 23 2) (w.extractLsb' 18 5)) else .resfield
  | _ => .illegal

/-- Major 0x30 of the opcode map (R100): CRY_ST, CRY_ADD, CRY_MARK. -/
def decMajor30 (w : BitVec 32) : RowRes :=
  match fld w 0 8 with
  | 0 => if fld w 18 5 = 0 then .ok (.crySt (w.extractLsb' 23 2) (w.extractLsb' 13 5) (w.extractLsb' 8 5)) else .resfield
  | 1 => .ok (.cryAdd (w.extractLsb' 23 2) (w.extractLsb' 18 5) (w.extractLsb' 13 5) (w.extractLsb' 8 5))
  | 2 => if fld w 8 10 = 0 then .ok (.cryMark (w.extractLsb' 23 2) (w.extractLsb' 18 5)) else .resfield
  | _ => .illegal

/-- Major 0x31 of the opcode map (R100): FENCE. -/
def decMajor31 (w : BitVec 32) : RowRes :=
  if fld w 5 20 = 0 then (match Scope.ofBits (w.extractLsb' 0 3) with | some c => .ok (.fence (FKind.ofBits (w.extractLsb' 3 2)) c) | none => .resfield) else .resfield

/-- Major 0x32 of the opcode map (R100): PUBLISH. -/
def decMajor32 (w : BitVec 32) : RowRes :=
  if fld w 0 13 = 0 ∧ fld w 18 5 = 0 then .ok (.publish (w.extractLsb' 23 2) (w.extractLsb' 13 5)) else .resfield

/-- Major 0x33 of the opcode map (R100): BARR, BWAIT. -/
def decMajor33 (w : BitVec 32) : RowRes :=
  match fld w 13 5 with
  | 0 => if fld w 4 6 = 0 ∧ fld w 18 5 = 0 then (match Scope.ofBits (w.extractLsb' 10 3) with | some c => .ok (.barr (w.extractLsb' 23 2) c (w.extractLsb' 0 4)) | none => .resfield) else .resfield
  | 1 => if fld w 4 6 = 0 then (match Scope.ofBits (w.extractLsb' 10 3) with | some c => .ok (.bwait (w.extractLsb' 23 2) (w.extractLsb' 18 5) c (w.extractLsb' 0 4)) | none => .resfield) else .resfield
  | _ => .resfield

/-- Major 0x34 of the opcode map (R100): CNTADD, CNTARM, CNTRD. -/
def decMajor34 (w : BitVec 32) : RowRes :=
  match fld w 0 8 with
  | 0 => if fld w 18 5 = 0 then .ok (.cntadd (w.extractLsb' 23 2) (w.extractLsb' 13 5) (w.extractLsb' 8 5)) else .resfield
  | 1 => if fld w 18 5 = 0 then .ok (.cntarm (w.extractLsb' 23 2) (w.extractLsb' 13 5) (w.extractLsb' 8 5)) else .resfield
  | 2 => if fld w 8 5 = 0 then .ok (.cntrd (w.extractLsb' 23 2) (w.extractLsb' 18 5) (w.extractLsb' 13 5)) else .resfield
  | _ => .illegal

/-- Major 0x35 of the opcode map (R100): SRD, SWR. -/
def decMajor35 (w : BitVec 32) : RowRes :=
  match fld w 12 1 with
  | 0 => if fld w 13 5 = 0 then .ok (.srd (w.extractLsb' 23 2) (w.extractLsb' 18 5) (w.extractLsb' 0 12)) else .resfield
  | 1 => if fld w 18 5 = 0 then .ok (.swr (w.extractLsb' 23 2) (w.extractLsb' 13 5) (w.extractLsb' 0 12)) else .resfield
  | _ => .illegal

/-- Major 0x36 of the opcode map (R100): CTXSV, CTXLD. -/
def decMajor36 (w : BitVec 32) : RowRes :=
  match fld w 0 8 with
  | 0 => if fld w 18 5 = 0 then .ok (.ctxsv (w.extractLsb' 23 2) (w.extractLsb' 13 5) (w.extractLsb' 8 5)) else .resfield
  | 1 => if fld w 18 5 = 0 then .ok (.ctxld (w.extractLsb' 23 2) (w.extractLsb' 13 5) (w.extractLsb' 8 5)) else .resfield
  | _ => .illegal

/-- Major 0x37 of the opcode map (R100): XINV. -/
def decMajor37 (w : BitVec 32) : RowRes :=
  if fld w 0 8 = 0 ∧ fld w 18 5 = 0 then .ok (.xinv (w.extractLsb' 23 2) (w.extractLsb' 13 5) (w.extractLsb' 8 5)) else .resfield

/-- The long instruction that a 32-bit word holds, before the checks that compare fields (R99, R100). -/
def row32 (w : BitVec 32) : RowRes :=
  match fld w 25 6 with
  | 0 => decMajor00 w
  | 1 => decMajor01 w
  | 2 => decMajor02 w
  | 3 => decMajor03 w
  | 4 => decMajor04 w
  | 5 => decMajor05 w
  | 6 => decMajor06 w
  | 7 => decMajor07 w
  | 8 => decMajor08 w
  | 9 => decMajor09 w
  | 10 => decMajor0A w
  | 11 => decMajor0B w
  | 12 => decMajor0C w
  | 13 => decMajor0D w
  | 14 => decMajor0E w
  | 15 => decMajor0F w
  | 16 => decMajor10 w
  | 17 => decMajor11 w
  | 18 => decMajor12 w
  | 19 => decMajor13 w
  | 20 => decMajor14 w
  | 21 => decMajor15 w
  | 22 => decMajor16 w
  | 23 => decMajor17 w
  | 24 => decMajor18 w
  | 25 => decMajor19 w
  | 26 => decMajor1A w
  | 27 => decMajor1B w
  | 28 => decMajor1C w
  | 29 => decMajor1D w
  | 30 => decMajor1E w
  | 31 => decMajor1F w
  | 32 => decMajor20 w
  | 33 => decMajor21 w
  | 34 => decMajor22 w
  | 35 => decMajor23 w
  | 36 => decMajor24 w
  | 37 => decMajor25 w
  | 38 => decMajor26 w
  | 39 => decMajor27 w
  | 40 => decMajor28 w
  | 41 => decMajor29 w
  | 42 => decMajor2A w
  | 43 => decMajor2B w
  | 44 => decMajor2C w
  | 45 => decMajor2D w
  | 46 => decMajor2E w
  | 47 => decMajor2F w
  | 48 => decMajor30 w
  | 49 => decMajor31 w
  | 50 => decMajor32 w
  | 51 => decMajor33 w
  | 52 => decMajor34 w
  | 53 => decMajor35 w
  | 54 => decMajor36 w
  | 55 => decMajor37 w
  | _ => .illegal

/-- The short instruction that a parcel holds (R98). -/
def row16 (w : BitVec 16) : RowRes :=
  match w.toNat / 1024 with
  | 0 => if fld16 w 0 10 = 0 then .ok (.nopShort) else .resfield
  | 1 => .ok (.mov (w.extractLsb' 5 5) (w.extractLsb' 0 5))
  | 2 => .ok (.li (w.extractLsb' 5 5) (w.extractLsb' 0 5))
  | 3 => .ok (.addShort (w.extractLsb' 5 5) (w.extractLsb' 0 5))
  | 4 => .ok (.subShort (w.extractLsb' 5 5) (w.extractLsb' 0 5))
  | 5 => .ok (.andShort (w.extractLsb' 5 5) (w.extractLsb' 0 5))
  | 6 => .ok (.orShort (w.extractLsb' 5 5) (w.extractLsb' 0 5))
  | 7 => .ok (.xorShort (w.extractLsb' 5 5) (w.extractLsb' 0 5))
  | 8 => .ok (.addiShort (w.extractLsb' 5 5) (w.extractLsb' 0 5))
  | 9 => .ok (.shliShort (w.extractLsb' 5 5) (w.extractLsb' 0 5))
  | 10 => .ok (.shriShort (w.extractLsb' 5 5) (w.extractLsb' 0 5))
  | 11 => .ok (.sraiShort (w.extractLsb' 5 5) (w.extractLsb' 0 5))
  | 12 => .ok (.ldDShort (w.extractLsb' 5 5) (w.extractLsb' 0 5))
  | 13 => .ok (.stDShort (w.extractLsb' 5 5) (w.extractLsb' 0 5))
  | 14 => if fld16 w 5 5 = 0 then .ok (.jrShort (w.extractLsb' 0 5)) else .resfield
  | 15 => if fld16 w 0 10 = 0 then .ok (.endShort) else .resfield
  | 16 => .ok (.beqz (w.extractLsb' 5 5) (w.extractLsb' 0 5))
  | 17 => .ok (.bnez (w.extractLsb' 5 5) (w.extractLsb' 0 5))
  | _ => .illegal

/-- Is the word one that user mode may not run, whatever its other fields hold (R102 order 2)? CTXSV and CTXLD, XINV,
ERET, HALT, and SRD or SWR of a number 0x100 to 0x1FF. -/
def privWord (w : BitVec 32) : Bool :=
  match fld w 25 6 with
  | 0x36 => true
  | 0x37 => true
  | 0x11 => fld w 0 8 == 4 || fld w 0 8 == 5
  | 0x35 => fld w 8 4 == 1
  | _ => false

/-- A row's instruction, refused where fields that R100 compares with each other do not agree. -/
def RowRes.refine (r : RowRes) (priv : Bool) : Decoded :=
  match r with
  | .ok i => if i.wf then .ok i else .resfield priv
  | .illegal => .illegal
  | .resfield => .resfield priv

/-- Decode a 32-bit word (R99 to R102). -/
def decode32 (w : BitVec 32) : Decoded := (row32 w).refine (privWord w)

/-- Decode the parcel at the PC and, when its bit 15 is set, the parcel after it (R96). -/
def decode (p q : BitVec 16) : Decoded :=
  if p.getLsbD 15 then decode32 (p ++ q) else (row16 p).refine false

/-- The parcel of a short instruction (R98); 0 for every other term. -/
def encode16 : Instr → BitVec 16
  | .nopShort => 0x0#16
  | .mov d a => 0x1#6 ++ d ++ a
  | .li d i => 0x2#6 ++ d ++ i
  | .addShort d a => 0x3#6 ++ d ++ a
  | .subShort d a => 0x4#6 ++ d ++ a
  | .andShort d a => 0x5#6 ++ d ++ a
  | .orShort d a => 0x6#6 ++ d ++ a
  | .xorShort d a => 0x7#6 ++ d ++ a
  | .addiShort d i => 0x8#6 ++ d ++ i
  | .shliShort d n => 0x9#6 ++ d ++ n
  | .shriShort d n => 0xa#6 ++ d ++ n
  | .sraiShort d n => 0xb#6 ++ d ++ n
  | .ldDShort d a => 0xc#6 ++ d ++ a
  | .stDShort d a => 0xd#6 ++ d ++ a
  | .jrShort a => 0x1c0#11 ++ a
  | .endShort => 0x3c00#16
  | .beqz d o => 0x10#6 ++ d ++ o
  | .bnez d o => 0x11#6 ++ d ++ o
  | _ => 0#16

/-- The word of a long instruction, each row from its line of the opcode map (R99, R100); 0 for every other term. -/
def encode32 : Instr → BitVec 32
  | .add st d a b => 0x40#7 ++ st ++ d ++ a ++ b ++ 0x0#8
  | .sub st d a b => 0x40#7 ++ st ++ d ++ a ++ b ++ 0x1#8
  | .and st d a b => 0x40#7 ++ st ++ d ++ a ++ b ++ 0x2#8
  | .or st d a b => 0x40#7 ++ st ++ d ++ a ++ b ++ 0x3#8
  | .xor st d a b => 0x40#7 ++ st ++ d ++ a ++ b ++ 0x4#8
  | .andn st d a b => 0x40#7 ++ st ++ d ++ a ++ b ++ 0x5#8
  | .shl st d a b => 0x40#7 ++ st ++ d ++ a ++ b ++ 0x6#8
  | .shr st d a b => 0x40#7 ++ st ++ d ++ a ++ b ++ 0x7#8
  | .sra st d a b => 0x40#7 ++ st ++ d ++ a ++ b ++ 0x8#8
  | .rol st d a b => 0x40#7 ++ st ++ d ++ a ++ b ++ 0x9#8
  | .min st d a b => 0x40#7 ++ st ++ d ++ a ++ b ++ 0xa#8
  | .max st d a b => 0x40#7 ++ st ++ d ++ a ++ b ++ 0xb#8
  | .minu st d a b => 0x40#7 ++ st ++ d ++ a ++ b ++ 0xc#8
  | .maxu st d a b => 0x40#7 ++ st ++ d ++ a ++ b ++ 0xd#8
  | .mul st d a b => 0x40#7 ++ st ++ d ++ a ++ b ++ 0x10#8
  | .mulh st d a b => 0x40#7 ++ st ++ d ++ a ++ b ++ 0x11#8
  | .mulhu st d a b => 0x40#7 ++ st ++ d ++ a ++ b ++ 0x12#8
  | .div st d a b => 0x40#7 ++ st ++ d ++ a ++ b ++ 0x14#8
  | .divu st d a b => 0x40#7 ++ st ++ d ++ a ++ b ++ 0x15#8
  | .rem st d a b => 0x40#7 ++ st ++ d ++ a ++ b ++ 0x16#8
  | .remu st d a b => 0x40#7 ++ st ++ d ++ a ++ b ++ 0x17#8
  | .clz st d a => 0x40#7 ++ st ++ d ++ a ++ 0x18#13
  | .ctz st d a => 0x40#7 ++ st ++ d ++ a ++ 0x19#13
  | .popc st d a => 0x40#7 ++ st ++ d ++ a ++ 0x1a#13
  | .addi st d a i => 0x41#7 ++ st ++ d ++ a ++ i
  | .andi st d a i => 0x42#7 ++ st ++ d ++ a ++ i
  | .ori st d a i => 0x43#7 ++ st ++ d ++ a ++ i
  | .xori st d a i => 0x44#7 ++ st ++ d ++ a ++ i
  | .shli st d a n => 0x45#7 ++ st ++ d ++ a ++ 0x0#7 ++ n
  | .shri st d a n => 0x45#7 ++ st ++ d ++ a ++ 0x20#7 ++ n
  | .srai st d a n => 0x45#7 ++ st ++ d ++ a ++ 0x40#7 ++ n
  | .roli st d a n => 0x45#7 ++ st ++ d ++ a ++ 0x60#7 ++ n
  | .cmp st d a b c => 0x46#7 ++ st ++ d ++ a ++ b ++ c.toBits
  | .lih st d i => 0x47#7 ++ st ++ d ++ i
  | .madd st d a b => 0x48#7 ++ st ++ d ++ a ++ b ++ 0x0#8
  | .msub st d a b => 0x48#7 ++ st ++ d ++ a ++ b ++ 0x1#8
  | .bfx st d a p l => 0x49#7 ++ st ++ d ++ a ++ 0x0#1 ++ p ++ l
  | .bfi st d a p l => 0x49#7 ++ st ++ d ++ a ++ 0x1#1 ++ p ++ l
  | .mkadr st d a b => 0x4a#7 ++ st ++ d ++ a ++ b ++ 0x0#8
  | .absa st d a => 0x4a#7 ++ st ++ d ++ a ++ 0x1#13
  | .gptr st d a => 0x4a#7 ++ st ++ d ++ a ++ 0x2#13
  | .sel st d a b c => 0x4b#7 ++ st ++ d ++ a ++ b ++ 0x0#3 ++ c
  | .beq a b o => 0x260#10 ++ a ++ b ++ o
  | .bne a b o => 0x261#10 ++ a ++ b ++ o
  | .blt a b o => 0x262#10 ++ a ++ b ++ o
  | .bge a b o => 0x263#10 ++ a ++ b ++ o
  | .bltu a b o => 0x264#10 ++ a ++ b ++ o
  | .bgeu a b o => 0x265#10 ++ a ++ b ++ o
  | .j o => 0x4d#7 ++ o
  | .jal o => 0x4e#7 ++ o
  | .jr st a => 0x4f#7 ++ st ++ 0x0#5 ++ a ++ 0x0#13
  | .jalr st d a => 0x4f#7 ++ st ++ d ++ a ++ 0x1#13
  | .loop st a i => 0x50#7 ++ st ++ 0x0#5 ++ a ++ i
  | .nop st => 0x51#7 ++ st ++ 0x0#23
  | .endAct st => 0x51#7 ++ st ++ 0x1#23
  | .trap st a => 0x51#7 ++ st ++ 0x0#5 ++ a ++ 0x2#13
  | .sysc st a => 0x51#7 ++ st ++ 0x0#5 ++ a ++ 0x3#13
  | .eret st => 0x51#7 ++ st ++ 0x4#23
  | .halt st => 0x51#7 ++ st ++ 0x5#23
  | .resume st m a => 0x51#7 ++ st ++ m.toBits ++ a ++ 0x6#13
  | .ld st t b z o => 0x52#7 ++ st ++ t ++ b ++ 0x0#3 ++ z.toBits ++ o
  | .ldw st t b z o => 0x52#7 ++ st ++ t ++ b ++ 0x1#3 ++ z.toBits ++ o
  | .ldc st t b z o => 0x52#7 ++ st ++ t ++ b ++ 0x2#3 ++ z.toBits ++ o
  | .st st t b z o => 0x53#7 ++ st ++ t ++ b ++ 0x0#3 ++ z.toBits ++ o
  | .stp st t b z o => 0x53#7 ++ st ++ t ++ b ++ 0x1#3 ++ z.toBits ++ o
  | .stf st t b z o => 0x53#7 ++ st ++ t ++ b ++ 0x2#3 ++ z.toBits ++ o
  | .get st d a b => 0x54#7 ++ st ++ d ++ a ++ b ++ 0x0#8
  | .put st d a b => 0x54#7 ++ st ++ d ++ a ++ b ++ 0x1#8
  | .feqry st d a => 0x55#7 ++ st ++ d ++ a ++ 0x0#13
  | .feset st a b => 0x55#7 ++ st ++ 0x0#5 ++ a ++ b ++ 0x1#8
  | .amo st d a b n z o => 0x56#7 ++ st ++ d ++ a ++ b ++ 0x0#2 ++ BitVec.ofBool n ++ BitVec.ofBool z ++ o.toBits
  | .cas st d a b z => 0x57#7 ++ st ++ d ++ a ++ b ++ 0x0#3 ++ BitVec.ofBool z ++ 0x0#4
  | .enq st d a b => 0x58#7 ++ st ++ d ++ a ++ b ++ 0x0#8
  | .deq st d a b => 0x58#7 ++ st ++ d ++ a ++ b ++ 0x1#8
  | .vld st v b p t o => 0x59#7 ++ st ++ v ++ b ++ p ++ 0x0#2 ++ t.toBits ++ o
  | .vldw st v b p t o => 0x59#7 ++ st ++ v ++ b ++ p ++ 0x1#2 ++ t.toBits ++ o
  | .vldc st v b p t o => 0x59#7 ++ st ++ v ++ b ++ p ++ 0x2#2 ++ t.toBits ++ o
  | .vst st v b p t o => 0x5a#7 ++ st ++ v ++ b ++ p ++ 0x0#2 ++ t.toBits ++ o
  | .vstp st v b p t o => 0x5a#7 ++ st ++ v ++ b ++ p ++ 0x1#2 ++ t.toBits ++ o
  | .vstf st v b p t o => 0x5a#7 ++ st ++ v ++ b ++ p ++ 0x2#2 ++ t.toBits ++ o
  | .vgath st v b i p t => 0x5b#7 ++ st ++ v ++ b ++ i ++ p ++ t.toBits ++ 0x0#4
  | .vscat st v b i p t => 0x5b#7 ++ st ++ v ++ b ++ i ++ p ++ t.toBits ++ 0x1#4
  | .vfadd st d a b p q t => 0x5c#7 ++ st ++ d ++ a ++ b ++ p ++ BitVec.ofBool q ++ t.toBits ++ 0x0#5
  | .vfsub st d a b p q t => 0x5c#7 ++ st ++ d ++ a ++ b ++ p ++ BitVec.ofBool q ++ t.toBits ++ 0x1#5
  | .vfmul st d a b p q t => 0x5c#7 ++ st ++ d ++ a ++ b ++ p ++ BitVec.ofBool q ++ t.toBits ++ 0x2#5
  | .vfmin st d a b p q t => 0x5c#7 ++ st ++ d ++ a ++ b ++ p ++ BitVec.ofBool q ++ t.toBits ++ 0x3#5
  | .vfmax st d a b p q t => 0x5c#7 ++ st ++ d ++ a ++ b ++ p ++ BitVec.ofBool q ++ t.toBits ++ 0x4#5
  | .vfabs st d a p q t => 0x5c#7 ++ st ++ d ++ a ++ 0x0#4 ++ p ++ BitVec.ofBool q ++ t.toBits ++ 0x5#5
  | .vfneg st d a p q t => 0x5c#7 ++ st ++ d ++ a ++ 0x0#4 ++ p ++ BitVec.ofBool q ++ t.toBits ++ 0x6#5
  | .vfcpys st d a b p q t => 0x5c#7 ++ st ++ d ++ a ++ b ++ p ++ BitVec.ofBool q ++ t.toBits ++ 0x7#5
  | .vfma st d a b p q t => 0x5c#7 ++ st ++ d ++ a ++ b ++ p ++ BitVec.ofBool q ++ t.toBits ++ 0x8#5
  | .vfms st d a b p q t => 0x5c#7 ++ st ++ d ++ a ++ b ++ p ++ BitVec.ofBool q ++ t.toBits ++ 0x9#5
  | .vfnma st d a b p q t => 0x5c#7 ++ st ++ d ++ a ++ b ++ p ++ BitVec.ofBool q ++ t.toBits ++ 0xa#5
  | .vfnms st d a b p q t => 0x5c#7 ++ st ++ d ++ a ++ b ++ p ++ BitVec.ofBool q ++ t.toBits ++ 0xb#5
  | .vrcp st d a p q t => 0x5c#7 ++ st ++ d ++ a ++ 0x0#4 ++ p ++ BitVec.ofBool q ++ t.toBits ++ 0xc#5
  | .vrsq st d a p q t => 0x5c#7 ++ st ++ d ++ a ++ 0x0#4 ++ p ++ BitVec.ofBool q ++ t.toBits ++ 0xd#5
  | .vexp2 st d a p q t => 0x5c#7 ++ st ++ d ++ a ++ 0x0#4 ++ p ++ BitVec.ofBool q ++ t.toBits ++ 0xe#5
  | .vlog2 st d a p q t => 0x5c#7 ++ st ++ d ++ a ++ 0x0#4 ++ p ++ BitVec.ofBool q ++ t.toBits ++ 0xf#5
  | .viadd st d a b p t => 0x5d#7 ++ st ++ d ++ a ++ b ++ p ++ 0x0#1 ++ t.toBits ++ 0x0#5
  | .visub st d a b p t => 0x5d#7 ++ st ++ d ++ a ++ b ++ p ++ 0x0#1 ++ t.toBits ++ 0x1#5
  | .vimul st d a b p t => 0x5d#7 ++ st ++ d ++ a ++ b ++ p ++ 0x0#1 ++ t.toBits ++ 0x2#5
  | .vimulh st d a b p t => 0x5d#7 ++ st ++ d ++ a ++ b ++ p ++ 0x0#1 ++ t.toBits ++ 0x3#5
  | .vimin st d a b p t => 0x5d#7 ++ st ++ d ++ a ++ b ++ p ++ 0x0#1 ++ t.toBits ++ 0x4#5
  | .vimax st d a b p t => 0x5d#7 ++ st ++ d ++ a ++ b ++ p ++ 0x0#1 ++ t.toBits ++ 0x5#5
  | .viminu st d a b p t => 0x5d#7 ++ st ++ d ++ a ++ b ++ p ++ 0x0#1 ++ t.toBits ++ 0x6#5
  | .vimaxu st d a b p t => 0x5d#7 ++ st ++ d ++ a ++ b ++ p ++ 0x0#1 ++ t.toBits ++ 0x7#5
  | .vand st d a b p t => 0x5d#7 ++ st ++ d ++ a ++ b ++ p ++ 0x0#1 ++ t.toBits ++ 0x8#5
  | .vor st d a b p t => 0x5d#7 ++ st ++ d ++ a ++ b ++ p ++ 0x0#1 ++ t.toBits ++ 0x9#5
  | .vxor st d a b p t => 0x5d#7 ++ st ++ d ++ a ++ b ++ p ++ 0x0#1 ++ t.toBits ++ 0xa#5
  | .vandn st d a b p t => 0x5d#7 ++ st ++ d ++ a ++ b ++ p ++ 0x0#1 ++ t.toBits ++ 0xb#5
  | .vshl st d a b p t => 0x5d#7 ++ st ++ d ++ a ++ b ++ p ++ 0x0#1 ++ t.toBits ++ 0xc#5
  | .vshr st d a b p t => 0x5d#7 ++ st ++ d ++ a ++ b ++ p ++ 0x0#1 ++ t.toBits ++ 0xd#5
  | .vsra st d a b p t => 0x5d#7 ++ st ++ d ++ a ++ b ++ p ++ 0x0#1 ++ t.toBits ++ 0xe#5
  | .vrol st d a b p t => 0x5d#7 ++ st ++ d ++ a ++ b ++ p ++ 0x0#1 ++ t.toBits ++ 0xf#5
  | .vcmp st d a b p k => 0x5E#7 ++ st ++ 0#1 ++ d ++ a ++ b ++ p ++ k.toBits
  | .vsel st d a b p => 0x5f#7 ++ st ++ d ++ a ++ b ++ p ++ 0x0#8
  | .vcvt st d a p q f => 0x60#7 ++ st ++ d ++ a ++ 0x0#4 ++ p ++ BitVec.ofBool q ++ 0x0#2 ++ f.toBits
  | .vrsum st d a p q t => 0x61#7 ++ st ++ d ++ a ++ 0x0#4 ++ p ++ BitVec.ofBool q ++ t.toBits ++ 0x0#5
  | .vrmax st d a p q t => 0x61#7 ++ st ++ d ++ a ++ 0x0#4 ++ p ++ BitVec.ofBool q ++ t.toBits ++ 0x1#5
  | .vrmin st d a p q t => 0x61#7 ++ st ++ d ++ a ++ 0x0#4 ++ p ++ BitVec.ofBool q ++ t.toBits ++ 0x2#5
  | .vshuf st d a => 0x62#7 ++ st ++ 0x0#5 ++ d ++ 0x0#5 ++ a ++ 0x0#5
  | .vbcast st x d => 0x62#7 ++ st ++ x ++ d ++ 0x1#14
  | .vextr st d a l => 0x62#7 ++ st ++ d ++ a ++ l ++ 0x2#9
  | .vinsr st x d l => 0x62#7 ++ st ++ x ++ d ++ l ++ 0x3#9
  | .vdot st d a b p k => 0x63#7 ++ st ++ d ++ a ++ b ++ p ++ 0x0#6 ++ k.toBits
  | .pand st d a b => 0x64#7 ++ st ++ 0x0#2 ++ d ++ 0x0#2 ++ a ++ 0x0#2 ++ b ++ 0x0#8
  | .por st d a b => 0x64#7 ++ st ++ 0x0#2 ++ d ++ 0x0#2 ++ a ++ 0x0#2 ++ b ++ 0x1#8
  | .pxor st d a b => 0x64#7 ++ st ++ 0x0#2 ++ d ++ 0x0#2 ++ a ++ 0x0#2 ++ b ++ 0x2#8
  | .pnot st d a => 0x64#7 ++ st ++ 0x0#2 ++ d ++ 0x0#2 ++ a ++ 0x3#13
  | .pcnt st d a => 0x64#7 ++ st ++ d ++ 0x0#2 ++ a ++ 0x4#13
  | .flgrd st d => 0x65#7 ++ st ++ d ++ 0x0#19
  | .flgclr st p => 0x65#7 ++ st ++ 0x0#12 ++ p ++ 0x1#8
  | .gadd st d a b => 0x66#7 ++ st ++ d ++ a ++ b ++ 0x0#11
  | .gdamp st d a b => 0x66#7 ++ st ++ d ++ a ++ b ++ 0x1#11
  | .gsolve st d a => 0x66#7 ++ st ++ d ++ a ++ 0x2#15
  | .gres st d a b h => 0x66#7 ++ st ++ d ++ a ++ b ++ 0x0#3 ++ BitVec.ofBool h ++ 0x3#7
  | .gelim st d a m t p => 0x67#7 ++ st ++ d ++ a ++ m ++ BitVec.ofBool t ++ p ++ 0x0#5
  | .mload st a b g t => 0x68#7 ++ st ++ 0#2 ++ a ++ b ++ 0x0#5 ++ BitVec.ofBool g ++ 0x0#1 ++ t ++ 0x0#4
  | .mflip st b g t => 0x68#7 ++ st ++ 0x0#5 ++ b ++ 0x0#5 ++ BitVec.ofBool g ++ 0x0#1 ++ t ++ 0x1#4
  | .mstrm st a b c g o t => 0x68#7 ++ st ++ 0#2 ++ a ++ b ++ 0#3 ++ c ++ BitVec.ofBool g ++ BitVec.ofBool o ++ t ++ 0x2#4
  | .mdrain st a b c g k t => 0x68#7 ++ st ++ 0#2 ++ a ++ b ++ 0#3 ++ c ++ BitVec.ofBool g ++ BitVec.ofBool k ++ t ++ 0x3#4
  | .mclr st b c g r t => 0x68#7 ++ st ++ 0x0#5 ++ b ++ 0#3 ++ c ++ BitVec.ofBool g ++ BitVec.ofBool r ++ t ++ 0x4#4
  | .copy st a b c => 0x69#7 ++ st ++ 0#2 ++ a ++ b ++ 0#2 ++ c ++ 0x0#8
  | .copym st a b c g o t => 0x69#7 ++ st ++ 0#2 ++ a ++ b ++ 0#2 ++ c ++ BitVec.ofBool g ++ BitVec.ofBool o ++ t ++ 0x1#4
  | .gather st a b c r => 0x69#7 ++ st ++ 0#2 ++ a ++ b ++ c ++ BitVec.ofBool r ++ 0x2#7
  | .scatter st a b c => 0x69#7 ++ st ++ 0#2 ++ a ++ b ++ c ++ 0x3#8
  | .mcast st a b c r => 0x69#7 ++ st ++ 0#2 ++ a ++ b ++ c ++ BitVec.ofBool r ++ 0x4#7
  | .tmset st a b => 0x6a#7 ++ st ++ 0#2 ++ a ++ b ++ 0x0#13
  | .tmadv st a b => 0x6a#7 ++ st ++ 0#2 ++ a ++ b ++ 0x1#13
  | .disp st a b c n => 0x6b#7 ++ st ++ 0#2 ++ a ++ b ++ c ++ n ++ 0x0#4
  | .dcur st a b => 0x6b#7 ++ st ++ a ++ b ++ 0x1#13
  | .dres st a b n => 0x6b#7 ++ st ++ 0#2 ++ a ++ b ++ 0x0#5 ++ n ++ 0x2#4
  | .comb st a b c => 0x6b#7 ++ st ++ 0#2 ++ a ++ b ++ c ++ 0x3#8
  | .tmark st d => 0x6c#7 ++ st ++ d ++ 0x0#18
  | .replay st a b c k => 0x6c#7 ++ st ++ 0#2 ++ a ++ b ++ c ++ 0x0#3 ++ BitVec.ofBool k ++ 0x1#4
  | .ttrim st a => 0x6c#7 ++ st ++ a ++ 0x2#18
  | .send st a b => 0x6d#7 ++ st ++ a ++ b ++ 0x0#13
  | .sendb st a b c => 0x6d#7 ++ st ++ a ++ b ++ c ++ 0x1#8
  | .reply st b => 0x6d#7 ++ st ++ 0x0#5 ++ b ++ 0x2#13
  | .spawn st b => 0x6d#7 ++ st ++ 0x0#5 ++ b ++ 0x3#13
  | .tagen st a => 0x6e#7 ++ st ++ a ++ 0x0#18
  | .tagdis st a => 0x6e#7 ++ st ++ a ++ 0x1#18
  | .tagpnd st d => 0x6e#7 ++ st ++ d ++ 0x2#18
  | .mbput st a b c => 0x6f#7 ++ st ++ a ++ b ++ c ++ 0x0#8
  | .mbtake st a d => 0x6f#7 ++ st ++ a ++ d ++ 0x1#13
  | .mbcfg st a => 0x6f#7 ++ st ++ a ++ 0x2#18
  | .crySt st a b => 0x70#7 ++ st ++ 0x0#5 ++ a ++ b ++ 0x0#8
  | .cryAdd st d a b => 0x70#7 ++ st ++ d ++ a ++ b ++ 0x1#8
  | .cryMark st d => 0x70#7 ++ st ++ d ++ 0x2#18
  | .fence k c => 0x7100000#27 ++ k.toBits ++ c.toBits
  | .publish st a => 0x72#7 ++ st ++ 0x0#5 ++ a ++ 0x0#13
  | .barr st c i => 0x73#7 ++ st ++ 0x0#10 ++ c.toBits ++ 0x0#6 ++ i
  | .bwait st d c i => 0x73#7 ++ st ++ d ++ 0x1#5 ++ c.toBits ++ 0x0#6 ++ i
  | .cntadd st a b => 0x74#7 ++ st ++ 0x0#5 ++ a ++ b ++ 0x0#8
  | .cntarm st a b => 0x74#7 ++ st ++ 0x0#5 ++ a ++ b ++ 0x1#8
  | .cntrd st d a => 0x74#7 ++ st ++ d ++ a ++ 0x2#13
  | .srd st d n => 0x75#7 ++ st ++ d ++ 0x0#6 ++ n
  | .swr st a n => 0x75#7 ++ st ++ 0x0#5 ++ a ++ 0x1#1 ++ n
  | .ctxsv st a b => 0x76#7 ++ st ++ 0x0#5 ++ a ++ b ++ 0x0#8
  | .ctxld st a b => 0x76#7 ++ st ++ 0x0#5 ++ a ++ b ++ 0x1#8
  | .xinv st a b => 0x77#7 ++ st ++ 0x0#5 ++ a ++ b ++ 0x0#8
  | _ => 0#32

/-- Is the instruction a short one (R98)? -/
def Instr.isShort : Instr → Bool
  | .nopShort .. => true
  | .mov .. => true
  | .li .. => true
  | .addShort .. => true
  | .subShort .. => true
  | .andShort .. => true
  | .orShort .. => true
  | .xorShort .. => true
  | .addiShort .. => true
  | .shliShort .. => true
  | .shriShort .. => true
  | .sraiShort .. => true
  | .ldDShort .. => true
  | .stDShort .. => true
  | .jrShort .. => true
  | .endShort .. => true
  | .beqz .. => true
  | .bnez .. => true
  | _ => false

/-- Is the row an instruction with words, and no event? -/
def Instr.isCode : Instr → Bool
  | .gaussComplete .. => false
  | .millExecute .. => false
  | .copyEngineExecute .. => false
  | .dispatchEngineExecute .. => false
  | .grantServed .. => false
  | .grantBoundExpiry .. => false
  | .rowContribution .. => false
  | .messageArrival .. => false
  | .rplyArrival .. => false
  | .dispatch .. => false
  | .priorityPromotion .. => false
  | .sendQueueEntryLeaves .. => false
  | .stealRequest .. => false
  | .stealRequestArrival .. => false
  | .stolenRecordsArrival .. => false
  | .levellingInterval .. => false
  | .levellingShipmentArrival .. => false
  | .barrierTimeout .. => false
  | .fullEmptyWaiterApplied .. => false
  | .accessReplyArrival .. => false
  | .storeAcknowledgement .. => false
  | .pageWalk .. => false
  | .contribution .. => false
  | .reductionDeadline .. => false
  | .catchupProbe .. => false
  | .marker .. => false
  | .packetDelivery .. => false
  | .packetLost .. => false
  | .flitRetransmit .. => false
  | .escapeChannelDivert .. => false
  | .linkFailure .. => false
  | .laneErrorWindow .. => false
  | .laneRetrainDone .. => false
  | .crierTokenFrame .. => false
  | .crierSilentHolder .. => false
  | .crierResendRequest .. => false
  | .crierStApplied .. => false
  | .crierAddApplied .. => false
  | .crierMarkApplied .. => false
  | .crierBarrierArrival .. => false
  | .crierMarket .. => false
  | .crierGen .. => false
  | .crierDrained .. => false
  | .drainedSend .. => false
  | .crierMember .. => false
  | .crierIntent .. => false
  | .crierUnknownKind .. => false
  | .commit .. => false
  | .commitCheck .. => false
  | .stop .. => false
  | .stopComplete .. => false
  | .go .. => false
  | .partitionReset .. => false
  | .resetComplete .. => false
  | .partitionEntryWrite .. => false
  | .quadTableWrite .. => false
  | .classTableWrite .. => false
  | .barrierRecordWrite .. => false
  | .regionDescriptorWrite .. => false
  | .tapeQuotaWrite .. => false
  | .savebaseWrite .. => false
  | .hostPortWrite .. => false
  | .lcommit .. => false
  | .energyCounterClear .. => false
  | .unfreeze .. => false
  | .controlWordWrite .. => false
  | .marketInterval .. => false
  | .energyUpdate .. => false
  | .powerOnReset .. => false
  | .boot .. => false
  | .attestationRequest .. => false
  | .hostWindowWrite .. => false
  | .hostRetry .. => false
  | .sramScrub .. => false
  | .lpddr6Scrub .. => false
  | .telemetry .. => false
  | .ageingMonitor .. => false
  | .marginReplan .. => false
  | .memoryError .. => false
  | .sumStoreError .. => false
  | .illegalInstruction .. => false
  | .variableLatencyResult .. => false
  | .remoteAccessArrival .. => false
  | .powerLoss .. => false
  | .powerLimit .. => false
  | .endToEndCheckFailure .. => false
  | _ => true

/-- The parcels of a well-formed instruction, the one at the lower address first (R4); none for an event. -/
def encode (i : Instr) : List (BitVec 16) :=
  if i.isCode then
    if i.isShort then [encode16 i]
    else [(encode32 i).extractLsb' 16 16, (encode32 i).extractLsb' 0 16]
  else []

/-- Decode a list of parcels, the one at the lower address first; a missing second parcel reads as zero. -/
def decodeParcels : List (BitVec 16) → Decoded
  | [] => .illegal
  | [p] => decode p 0
  | p :: q :: _ => decode p q

/-- The instruction of a row's word, numbered as the opcode table numbers it: a row of 16 bits is one parcel, a longer
row is a 32-bit word whose bits [31:16] are the parcel at the lower address. -/
def decodeTableWord (nbits w : Nat) : Option Instr :=
  let r := if nbits ≤ 16 then decode (BitVec.ofNat 16 w) 0
    else decode (BitVec.ofNat 16 (w / 65536)) (BitVec.ofNat 16 w)
  match r with
  | .ok i => some i
  | _ => none

end Sys2Proof
end

