-- ==== Sys2Proof/Config.lean ====
section
/-! DEFINITION. Sys2Proof/Config.lean: what an installation fixes and what the spec leaves open. Every `opaque`
constant is a free value: no proof can see what it is, so a statement holds whatever it is. -/

namespace Sys2Proof.Config

/-- The SHAKE256 digest, 512 bits, of a list of bytes (R225); log 20. -/
opaque shake256 : List Byte → BitVec 512

/-- Does a Falcon-1024 signature check (R221, R225)? The key's number, 0 for the boot ROM's and `i` + 1 for the operator key that boot
image `i` carries, and the signed bytes; log 20. -/
opaque falconOk : Nat → List Byte → Bool

/-- The signature that a package's identity key gives (R225): the package and the signed bytes; log 20. -/
opaque falconSign : Nat → List Byte → List Byte

/-- The bytes of a boot image, by the number that the server answers with (R225); log 20. -/
opaque bootImage : Nat → List Byte

/-- The fused rollback counter and key hash accept the image (R225); log 20. -/
opaque fuseOk : Nat → Bool

/-- The supervisor entry point of an image (R225); log 20. -/
opaque bootEntry : Nat → Word

/-- The watts that a licence record delivers (R221), by its bytes; log 21. -/
opaque licenceOf : List Byte → BitVec 32

/-- What LCOMMIT reads once a licence record has been accepted (R221 gives only the failure's value); log 36. -/
opaque lcommitDone : BitVec 64

/-- Energy that a service die adds to a job's counter in one update, in microjoules (R224): package, job and a fresh
number; log 21. -/
opaque energy : Nat → Nat → Nat → BitVec 64

/-- VOFF at which an image is placed in the in-package Granary (R225 gives no place); the image; log 20. -/
opaque bootBase : Nat → Nat

/-- Watts a package asks for and has drawn in an interval, before the limits of R222 on either: package and a fresh number;
log 21. -/
opaque ask : Nat → Nat → BitVec 32
opaque draw : Nat → Nat → BitVec 32

/-- A quad's clock setting, 0 to 84 in steps of 25 MHz above 1.2 GHz, that the power manager chooses (R223, R228):
package, quad, grant and a fresh number; log 21. -/
opaque quadClock : Nat → Nat → Nat → Nat → Nat

/-- 25 MHz steps by which an interval's credited energy raises a gang's common setting (R223); log 21. -/
opaque creditSteps : Nat → Nat

/-- The draw, in watts, that some quad settings would give (R223): package, a fresh number, and the settings of the quads in
quad-table order; log 21. -/
opaque wouldDraw : Nat → Nat → List Nat → Nat

/-- The highest setting that a quad holds 3.3 GHz margins for (R228): package, quad and a fresh number; log 21. -/
opaque topClock : Nat → Nat → Nat → Nat

/-- Nanoseconds since service-die reset (R229): a fresh number; log 21. -/
opaque nanoseconds : Nat → BitVec 64

/-- What telemetry reports (R228): package and a fresh number; log 21. -/
opaque telemetry : Nat → Nat → BitVec 64

/-- Frames of 64 KiB of CXL memory installed at a package (R66, R9); the package; log 23. -/
opaque cxlFrames : Nat → Nat

/-- Where a fibre of a package's switch chiplet leads, for a position of the destination pod: the package at its other end, or
none (R15 leaves the topology between switch chiplets to the installation); package, fibre, position; log 23. -/
opaque fibreTo : Nat → Nat → Nat → Option Nat

/-- The failure code of a command whose engine's state has an uncorrectable error: R214 leaves it to the engines' chapters,
which name none; a fresh number; log 41. -/
opaque errCode : Nat → BitVec 32

/-- Does a supervisor core or an agent still hold a translation or a line that memory no longer agrees with (R19, R65,
R133)? A fresh number; log 14. -/
opaque keeps : Nat → Bool

end Sys2Proof.Config
end

