-- ==== Sys2Proof/Machine/State.lean ====
section
/-! DEFINITION. Sys2Proof/Machine/State.lean: everything the spec gives the machine, as plain data, and the state
right after power-on reset.

Names of places. A core is a number: COL + 32 ROW + 1024 DIE + 16384 PKG, the WHO layout of R44 with the physical
package (R15). A die is a core's number divided by 1024, a package by 16384; a pod is a package divided by 8. A part
of the machine that no step has touched is not listed: it stands as `Ctx.reset`, `Core.reset`, `Die.reset`,
`Pkg.reset` or `Pod.reset` give it. -/

namespace Sys2Proof.Machine

/-- Sixteen causality counters (R124): 0-7 the dies of the package, 8-15 the pod positions. -/
abbrev Vec16 := Vector Nat 16

/-- A vector of zeros. -/
def zeroVec : Vec16 := Vector.replicate 16 0

/-- Networks (R156, R158); the steal network joins adjacent cores of a die. -/
inductive Net | req | rply | bulk | col | steal
deriving DecidableEq, Repr

/-- Qualifiers of loads and stores (R62): plain, wait-full or produce, consume or fill. -/
inductive Qual | plain | wait | consume
deriving DecidableEq, Repr

/-- What an access does at its home. -/
inductive AccOp
  | load (q : Qual) (bytes : Nat)
  | store (q : Qual) (bytes : Nat)
  | vload (q : Qual) (t : MTy)
  | vstore (q : Qual) (t : MTy)
  | gath (t : MTy)
  | scat (t : MTy)
  | amo (op : AmoOp) (dbl : Bool)
  | cas (dbl : Bool)
  | cntadd | cntarm | cntrd
  | enq | deq
  | get (n : Nat)
  | put (n : Nat)
  | feqry
  | feset (n : Nat) (val : Bool)
  | publish
  | mbput | mbtake
  | tmset
  | payload (n : Nat)
deriving DecidableEq, Repr

/-- One access (R56): who issued it, what it does, and all the operand values it takes with it. -/
structure Access where
  num   : Nat               -- the access's own number
  core  : Nat               -- issuing core
  ctx   : Nat               -- issuing context
  act   : Nat               -- number of the issuing activation
  part  : Nat               -- partition and incarnation it travels under (R211)
  inc   : Nat
  supr  : Bool              -- issued in supervisor mode
  ldr   : Bool              -- issued with loader permission (R23)
  c63   : Bool              -- issued by a class 63 activation (R201)
  job   : Nat               -- JOB of the issuing activation (R224)
  op    : AccOp
  adr   : Word              -- commons address as the instruction formed it
  home  : Nat               -- core number of the slice's core; of core (0, 0) of the agent's die for the Granary
  adr2  : Word              -- second operand address (GET's destination, PUT's source)
  val   : VWord             -- operand data
  val2  : Word              -- second operand (CAS's expected value, MBPUT's priority and tag)
  bytes : List Byte         -- data of a PUT
  win   : Nat               -- window size of the issuing activation
  pred  : BitVec 32         -- lanes this access moves (vector forms)
  lanes : BitVec 32         -- lanes of the whole instruction
  idx   : VWord             -- index register of VGATH and VSCAT
  round : Nat               -- %ROUND as it stood at issue
  dest  : Nat               -- destination register code (R198), 0xFF for none
  dest2 : Nat
  pc    : Word              -- PC of the instruction
  len   : Nat               -- its length in bytes
  vec   : Vec16             -- dependency vector it carries (R124)
  seq   : Nat               -- sequence number on its flow
  gen   : Nat               -- generation in which it was issued (R129)
  ptes  : List (Nat × Nat)  -- pages under whose entries its home holds it, translated: first offset and entry (R364)
  own   : Option (Nat × Nat × Nat) -- page of its own supervisor space that its issue translated: offset, bytes, key (R19)
  net   : Net               -- the network it takes (R156)
deriving DecidableEq, Repr

/-- What a home gives back for an access. -/
inductive Answer
  | data (v : VWord)                 -- the result
  | fault (code : Nat) (adr : Word)  -- a fault found at the home
  | lost                             -- the die cannot be reached (R215)
deriving DecidableEq, Repr

/-- A reply to an access, or the acknowledgement of a store. -/
structure Reply where
  acc  : Access
  ans  : Answer
  mask : VWord               -- bits of the destination that the reply writes
  bytes : List Byte          -- bytes that a GET brings
  vec  : Vec16               -- merged vector of the home's die (R124)
deriving DecidableEq, Repr

/-- Where a message comes from and what it holds of its sender's reply area (R27, R28). -/
inductive MsgKind
  | request (id : Nat)       -- REQ or BULK, with the identifier of its reservation
  | reply (id : Nat)         -- REPLY, into the reservation `id` of the destination
  | refusal (id : Nat)       -- R30
  | empty (id : Nat)         -- R27
  | lost (id : Nat)          -- the reservation of a message that was lost (R215)
  | unreserved               -- continuations, notices, supervisor faults, partition notices (R28)
  | host (port : Nat)        -- from a host port (R226)
deriving DecidableEq, Repr

/-- A message (R111, R158). -/
structure Msg where
  kind    : MsgKind
  cls     : Nat
  prio    : Nat              -- priority override of the header
  narg    : Nat
  args    : List Word        -- eight arguments
  payload : List Byte
  hdr     : Word             -- the header as sent
  dest    : Word             -- destination address in absolute form (R30)
  src     : Nat              -- sending core
  ctx     : Nat              -- sending context
  act     : Nat
  dst     : Nat              -- destination core
  bulk    : Bool             -- on BULK, else on REQ or RPLY as its kind gives
  part    : Nat
  inc     : Nat
  vec     : Vec16            -- what it releases (R130)
deriving DecidableEq, Repr

/-- One contribution of a COMB or REPLAY to a row (R194). -/
structure RowPart where
  core  : Nat                -- core, context and number of the command
  ctx   : Nat
  cmd   : Nat
  row   : Word               -- commons address of the row
  home  : Nat                -- its home
  idx   : Nat                -- the record it belongs to
  expect : Nat               -- contributions the command makes to the row
  base  : Bool               -- the row's own value is part of the sum (REPLAY), or not (COMB)
  bf16  : Bool               -- the row's format: BF16, else F32
  n     : Nat                -- elements of the row
  vals  : List (Int × Bool × Bool × Bool) -- the values contributed, exact (R94); none for a part that was lost
  live  : Bool
  part  : Nat
  inc   : Nat
  job   : Nat                -- JOB of the command
  supr  : Bool               -- the command was issued in supervisor mode
  vec   : Vec16              -- what the command's issue released (R131)
deriving DecidableEq, Repr

/-- Why an engine's access is not made: a refusal with its code and address, an unreachable home, or a write that the
command's issue released and that has not been applied there yet. -/
inductive EFail
  | refused (code : Nat) (adr : Word)
  | lost (adr : Word) (die : Nat)
  | wait
deriving DecidableEq, Repr

/-- A piece of a row that an engine sends, as the page or region at its destination stores it: its address and bytes, which of their
bits are written, and the headers of its blocks. -/
structure DataPiece where
  adr   : Word
  len   : Nat
  data  : Nat
  mask  : Nat
  heads : List Nat
deriving DecidableEq, Repr

/-- What a row of a copy or dispatch engine's command takes to one die (R156). -/
structure DataPart where
  core  : Nat                -- core, context and number of the command
  ctx   : Nat
  disp  : Bool               -- a dispatch engine's command, else a copy engine's
  cmd   : Nat
  tag   : Nat                -- the row's own number
  home  : Nat                -- home of its first piece
  pieces : List DataPiece
  part  : Nat
  inc   : Nat
  job   : Nat                -- JOB of the command
  supr  : Bool               -- the command was issued in supervisor mode
  vec   : Vec16              -- what the command's issue released (R131)
deriving DecidableEq, Repr

/-- What a die answers to a row's data: the bytes written there, and what stopped the rest. -/
structure DataDone where
  core  : Nat
  disp  : Bool
  cmd   : Nat
  tag   : Nat
  die   : Nat
  bytes : Nat
  bad   : Option EFail
deriving DecidableEq, Repr

/-- One granule contributed to a reduction page (R72). -/
structure RedPart where
  acc   : Access
  page  : Nat                -- key of the page's first byte
  attr  : Nat                -- key of its attribute record
  idx   : Nat                -- granule of the page
  val   : BitVec 128
  bf16  : Bool
  round : Nat                -- the round it was stamped with (R176)
  die   : Nat
  last  : Bool               -- the last granule of its store: acknowledges it
deriving DecidableEq, Repr

/-- A record of the task deque (R40): header and seven arguments; the core that spawned it; what it releases. -/
structure Task where
  words : List Word
  src   : Nat
  vec   : Vec16
  part  : Nat
deriving DecidableEq, Repr

/-- Messages on the steal network (R42, R43). -/
inductive StealMsg
  | request
  | records (rs : List Task)   -- yielded records, the victim's topmost last
  | shipment (n : Nat)         -- levelling: so many records of the sender's top
deriving DecidableEq, Repr

/-- What a packet carries. A probe names the held access and the die that probes; a marker the held access, the die that
answers and its counter (R124). -/
inductive Body
  | access (a : Access)
  | reply (r : Reply)
  | ack (r : Reply)
  | msg (m : Msg)
  | row (r : RowPart)
  | red (r : RedPart)
  | probe (num src : Nat)
  | marker (num src count : Nat)
  | steal (m : StealMsg)
  | data (d : DataPart)
  | dataDone (r : DataDone)
deriving DecidableEq, Repr

/-- A packet in flight (R158): between dies on a flow with a sequence number; on one die with none. -/
structure Packet where
  src   : Nat                -- core whose interface sent it
  dst   : Nat                -- core at whose home it is applied
  net   : Net
  seq   : Nat
  gen   : Nat                -- generation of the sending pod
  part  : Nat
  inc   : Nat
  stamp : Vec16              -- write stamp (R124)
  body  : Body
  esc   : Bool               -- moved to the escape channel (R172)
  seen  : Nat                -- below it, its sender has received every packet of the reverse flow (R123)
  here  : Bool               -- its destination's interface has handed it over (R158)
deriving DecidableEq, Repr

/-- Why an access is held at its home (R207). -/
inductive HeldWhy
  | full                     -- full/empty condition (R63)
  | walk                     -- translation miss (R65)
  | catchup (need : List Nat) -- markers still awaited, by source die (R124)
  | turn                     -- earlier accesses of its context (R118, R122, R350)
deriving DecidableEq, Repr

/-- An access held at its home. -/
structure Held where
  acc : Access
  stamp : Vec16              -- write stamp of its packet
  why : HeldWhy
  order : Nat                -- rises with the order in which accesses reached their homes
deriving DecidableEq, Repr

/-- Context states (R31). -/
inductive CtxSt | free | running | parked | held | saved
deriving DecidableEq, Repr

/-- Why a context is parked (R206). -/
inductive Cause | none | reply | fullEmpty | bwait | send | unit | upcall | fence | crier | halt
deriving DecidableEq, Repr

/-- What keeps a running context from being eligible (R125, R262). -/
inductive Block
  | none
  | fence (k : FKind) (c : Scope) (gen : Nat)   -- with the pod generation current at the fence
  | barr (key phase stall : Nat)                 -- a second arrival, until the phase ends; the stall count of its BARR
deriving DecidableEq, Repr

/-- One level of the loop state (R307). -/
structure LoopLevel where
  count : Word
  start : Word
  fin   : Word
deriving DecidableEq, Repr

/-- A fixed-latency result not yet written (R108): register code, value, bits written, first cycle that reads it. -/
structure Pend where
  code  : Nat
  val   : VWord
  mask  : VWord
  ready : Nat
deriving DecidableEq, Repr

/-- What a variable-latency operation without a reply will write (R108). -/
inductive VarOp
  | value (v : VWord)
  | tagpnd
  | tmark
deriving DecidableEq, Repr

/-- A variable-latency result not yet written. -/
structure VarRes where
  code : Nat
  op   : VarOp
  mask : VWord
  unit : Bool                -- of the Gaussian unit, which completes in issue order
deriving DecidableEq, Repr

/-- An outstanding-reply slot in use (R207). -/
structure RSlot where
  num   : Nat
  dest  : Nat
  dest2 : Nat
  kind  : Nat
  adr   : Word
  arr   : Bool
  data  : VWord
  mask  : VWord              -- bits of the destination that the reply writes
  left  : Nat                -- parts of a VGATH that have not answered
  flt   : Option (Nat × Nat × Word)  -- lowest lane of a VGATH that failed: lane, code, address
deriving DecidableEq, Repr

/-- What a BWAIT that is parked, or that was when its context was saved, waits for (R47, R263): its record, the phase, its
register, its member and its PC; and whether the phase was aborted, once it has ended while the context was saved. -/
structure BWait where
  key   : Nat
  phase : Nat
  d     : Reg
  member : Nat
  pc    : Word
  ended : Option Bool
deriving DecidableEq, Repr

/-- A store-like access that its home has not acknowledged (R125): its number, the generation of issue, its home, and
whether it is a vector store. -/
structure Unack where
  num  : Nat
  gen  : Nat
  home : Nat
  vec  : Bool
  left : Nat                 -- parts of a VSCAT that have not answered
  flt  : Option (Nat × Nat × Word)
deriving DecidableEq, Repr

/-- One hardware context (R103, R107, R206). -/
structure Ctx where
  st    : CtxSt
  cause : Cause
  act   : Nat                -- number of the activation
  cls   : Nat
  prio  : Nat
  c63   : Bool
  ldr   : Bool
  owes  : Bool
  replied : Bool
  job   : Nat
  win   : Nat                -- window size in bytes, 0 for none
  pol   : Bool
  sup   : Bool               -- supervisor mode (R287)
  pc    : Word
  x     : Vector Word 32
  v     : Vector VWord 16
  p     : Vector (BitVec 32) 8
  tm    : Vector (BitVec 256) 8
  org   : Vector (BitVec 64) 8
  loops : List LoopLevel     -- innermost first, at most two
  srcadr  : Word
  rplyadr : Word
  round : BitVec 5
  sflags : BitVec 2
  check : Bool
  seed  : BitVec 16
  fltcode : Nat
  fltadr : Word
  fltctx : Nat
  fltpc : Word
  lanef : Vector (BitVec 5) 32
  pend  : List Pend          -- in issue order
  var   : List VarRes        -- in issue order
  rslots : List RSlot        -- at most twelve
  acks  : List Unack
  tapeAt : Option Nat        -- the tape entry that the command at the PC has reserved while it waits for its engine (R188)
  resvAt : Option Nat        -- the reply slot that the request at the PC has reserved while it waits (R326)
  paybuf : Option (List Byte) -- bytes that the instruction at the PC reads at its issue, once they are here
  awaits : Option Nat        -- the access whose reply the context is parked for
  dep   : Vec16
  wgens : List Nat           -- generations of the writes issued since the last SYS release (R129)
  stall : Nat                -- the cycle before which it may not issue (R109)
  waited : Nat               -- cycles it has been eligible without issuing (R36)
  promoted : Bool
  block : Block
  bwait : Option BWait
  redo  : Bool               -- it was restored parked at an instruction that executes again (R205, R279)
  xinv  : Option (List Nat)  -- the accesses that its XINV waits for, once it has removed the entries (R364)
  fcode : Nat                -- the upcall that parked it
  fadr  : Word
  fpc   : Word
  flen  : Nat
  late  : Bool               -- that fault was found after issue (R365)
  kept  : Option Access
  queued : List (Nat × Word × Access)  -- further faults found after issue, until RESUME deals with the first
  excs  : List (Nat × Word)  -- supervisor exceptions of its engine commands, taken before its next issue (R19, R366)
  epc   : Word
  emode : Bool
  scause : Nat
  stval : Word
deriving DecidableEq, Repr

/-- A class 63 activation that waits (R199, R200). -/
structure Upcall where
  code : Nat
  adr  : Word
  ctx  : Nat
  pc   : Word                -- all ones for a notice
  order : Nat                -- acceptance number
  part : Nat
  die  : Option Nat          -- the lost die that a DIELOST notice concerns (R215)
deriving DecidableEq, Repr

/-- A command of a Mill (R137). -/
structure MillCmd where
  fn    : BitVec 8
  c     : Nat
  core  : Nat                -- issuing core and context
  ctx   : Nat
  t     : Bool
  map   : BitVec 256         -- with BASE the address of tile element (0, 0)
  org   : BitVec 64          -- the origin at issue
  cadr  : Word
  gang  : Option Nat         -- a gang command's number (R144)
  part  : Nat
  acc   : Nat                -- ACC of a COPYM follow-on's completion word
  job   : Nat                -- the issuing context's job (R224)
  supr  : Bool               -- issued in supervisor mode (R19)
  vec   : Vec16              -- what its issue released (R131)
deriving DecidableEq, Repr

/-- A plane of a Mill (R138): elements as stored codes, row k of 32 columns, and per column and block a header. -/
structure Plane where
  valid : Bool
  fmt   : Nat
  geom  : Nat
  k     : Nat
  n     : Nat
  elems : List (BitVec 16)
  heads : List (BitVec 16)
deriving DecidableEq, Repr

/-- A Mill (R138-R143). Accumulators list the elements that are not +0, by acc, row and column: 4096 a + 32 r + c. -/
structure Mill where
  acc    : List (Nat × BitVec 32)
  bad    : List Nat          -- accumulators marked invalid
  active : Plane
  shadow : Plane
  halted : Bool
  alien  : Bool              -- it was restored from an image of another major version, which no command has met yet (R148)
  inbox  : List MillCmd
deriving DecidableEq, Repr

/-- A row of a command whose data are on their way (R156): its own number, the dies that have yet to answer, the bytes written, and
the first write that was not made. -/
structure OnWay where
  tag   : Nat
  left  : List Nat
  bytes : Nat
  bad   : Option EFail
deriving DecidableEq, Repr

/-- The slot that a DISP's row goes to (R182): the expert's core, its NOTE, the key of the slot's entry, the slot's number and
address, and its bytes. -/
structure SlotAt where
  core  : Nat
  note  : Word
  key   : Nat
  slot  : Nat
  adr   : Word
  rb    : Nat
deriving DecidableEq, Repr

/-- A command of a copy engine (R271, R275, R293). -/
structure CopyCmd where
  num   : Nat
  fn    : BitVec 8
  c     : Nat                -- c of its encoding (R275)
  ctx   : Nat
  cword : Word
  smap  : BitVec 256
  sorg  : BitVec 64
  dmap  : BitVec 256
  dorg  : BitVec 64
  list  : Word
  row   : Nat
  didx  : Nat
  pos   : Option Nat
  done  : Nat
  started : Bool             -- its checks are made and its far-end entries reserved
  gone  : List Nat           -- unreachable dies it has met and told of (R273)
  move  : Option OnWay        -- the row on its way
  job   : Nat
  part  : Nat
  supr  : Bool               -- issued in supervisor mode (R19)
  vec   : Vec16              -- what its issue released (R131)
deriving DecidableEq, Repr

/-- A route record of the tape (R191), with its number in the command and the address of its far row. -/
structure TapeRec where
  idx  : Nat
  adr  : Word
  row  : Nat
  flags : Nat
  fin  : Nat                 -- END
  path : Nat
  slot : Nat
  gen  : Nat
  gate : BitVec 32
deriving DecidableEq, Repr

/-- Kinds of dispatch-engine commands. -/
inductive DKind | disp | comb | dres | replay
deriving DecidableEq, Repr

/-- A command of a dispatch engine (R181-R187, R193) with its progress. -/
structure DispCmd where
  num   : Nat
  kind  : DKind
  ctx   : Nat
  cword : Word
  table : Word               -- route table; the cursor of a DRES; the position of a REPLAY
  map   : BitVec 256         -- with BASE resolved
  org   : BitVec 64
  goff  : Word
  strict : Bool
  bound : Nat
  flags : Nat
  n     : Nat
  list  : Word
  next  : Nat
  done  : Nat
  nlist : Nat
  bytes : Nat
  pos   : Option Nat
  started : Bool
  halt  : Bool               -- DCUR has stopped it (R187)
  bad   : Option (Nat × Nat × Word) -- why it stops part way: its code, and the fault code and address of an access
  lost  : Nat
  deferred : Nat
  rerouted : Nat
  recs  : List TapeRec       -- the entry that a REPLAY has read, its kind and its TID
  rkind : Nat
  tid   : Nat × Nat
  rows  : List (Word × List Nat) -- rows not yet written, with the records whose contributions to them were sent (R194)
  late  : List Nat           -- records of a COMB whose contribution was lost on its way, not yet listed (R216)
  move  : Option (OnWay × SlotAt) -- a DISP's row on its way
  moved : Bool               -- some row has moved (R188)
  cursor : Option Word       -- where the DCUR that has stopped it wrote its cursor (R187)
  job   : Nat
  part  : Nat
  supr  : Bool               -- issued in supervisor mode (R19)
  vec   : Vec16              -- what its issue released (R131)
deriving DecidableEq, Repr

/-- A grant that waits at an expert's home (R183). -/
structure Grant where
  core  : Nat                -- issuing core and command
  cmd   : Nat
  desc  : Word               -- expert descriptor
  token : Nat
  gate  : BitVec 32
  ridx  : Nat
  job   : Nat                -- JOB of the command
deriving DecidableEq, Repr

/-- A mailbox entry (R153). -/
structure MbEntry where
  val  : Word
  tag  : BitVec 32
  prio : BitVec 32
deriving DecidableEq, Repr

/-- An accepted message in the inbox, or a reply in the reply area. -/
structure InMsg where
  msg   : Msg
  slots : Nat                -- general slots it occupies; 0 in the reply area
  order : Nat                -- acceptance number
deriving DecidableEq, Repr

/-- A translation a supervisor core or an agent holds (R19, R65): page base, size, entry. -/
structure Tlb where
  part : Nat
  base : Nat
  size : Nat
  pte  : BitVec 64
deriving DecidableEq, Repr

/-- What an image does not hold of the context that it was written from, for a CTXLD into another context (R118, R120, R129): the
slot, its dependency vector, the generations of its writes, and the numbers of its stores without acknowledgement. -/
structure Past where
  slot  : Nat
  dep   : Vec16
  wgens : List Nat
  nums  : List Nat
deriving DecidableEq, Repr

/-- One core: sixteen contexts and everything they share. -/
structure Core where
  ctxs  : List (Nat × Ctx)
  cycle : Nat
  last  : Vector Nat 5       -- context that issued last at priorities 0-3 and among promoted ones
  inbox : List InMsg         -- in acceptance order
  order : Nat
  resv  : List Nat           -- identifiers of reserved reply slots (R27)
  resvNext : Nat
  rplyWait : List Msg        -- messages that wait at their originators for an unreserved reply slot, in the order of their requests (R28)
  sendq : List Msg
  sqlim : Nat
  sqnote : Nat
  sqfaults : Nat
  deque : List Task          -- bottom first
  upcalls : List Upcall      -- in the order in which they were raised; at most 32 of them notices
  noticeHeld : List Upcall
  mbcfg : Nat
  mboxes : List (Nat × List MbEntry)
  mill  : Mill
  copyq : List CopyCmd
  dispq : List DispCmd
  gaussq : List Nat          -- contexts with an operation in the Gaussian unit, oldest first
  grants : List Grant
  idle  : Nat                -- cycles of the steal condition (R42)
  stealDir : Nat
  svec  : Word
  sptr  : Word
  spart : Nat
  stlb  : List Tlb
  work  : List Nat           -- jobs that have had work here since the last update of the energy counters (R224)
  saved : Bool               -- a stop has written the engines' images and nothing has restored them (R208)
  past  : List Past          -- of the images in its save area
  dcache : List (Nat × BitVec 128)
  icache : List (Nat × BitVec 16)
deriving DecidableEq, Repr

/-- One granule of a reduction slot (R175): its count, its state, and per element A and the three seen-flags. -/
structure RedGran where
  idx   : Nat
  count : Nat
  ended : Bool               -- complete or aborted
  sums  : List (Int × Bool × Bool × Bool)
deriving DecidableEq, Repr

/-- A sum-store slot (R71, R175). -/
structure RedSlot where
  page  : Nat                -- key of the page's first byte
  attr  : Nat                -- key of the attribute record
  part  : Nat
  bf16  : Bool
  rcnt  : Nat
  rdl   : Nat
  round : Nat
  grans : List RedGran
  opens : Nat                -- granules neither complete nor aborted
deriving DecidableEq, Repr

/-- A row accumulator (R194). -/
structure RowAcc where
  core : Nat
  cmd  : Nat
  row  : Word
  got  : Nat
  live : Bool                -- something has been added
  fail : Option EFail        -- why the row's own value could not be read: it is not written
  segs : Nat                 -- accumulators it takes
  sums : List (Int × Bool × Bool × Bool)
deriving DecidableEq, Repr

/-- A tape entry (R190): its place, size, header and records; a void one has no records (R188). -/
structure TapeEntry where
  pos  : Nat
  size : Nat
  void : Bool
  tid  : Nat × Nat           -- issuing core and issuer position mod 2^40
  kind : Nat
  role : Nat
  gen  : Nat
  base : Word
  ne   : Nat
  recs : List TapeRec
deriving DecidableEq, Repr

/-- The tape of one job at one die (R188). -/
structure Tape where
  part : Nat
  job  : Nat
  pos  : Nat
  trim : Nat
  entries : List TapeEntry
deriving DecidableEq, Repr

/-- A barrier record's hidden state (R45-R47); its written word and mask lie in memory. -/
structure Barrier where
  word  : Word               -- the configuration in force
  mask  : List Nat           -- the members in force
  phase : Nat
  arrived : List Nat         -- members that have arrived in the current phase
  last  : List (Nat × Nat × Option Bool) -- each member's last arrival since the record was written: its phase and, once that has
                             -- ended, whether it was aborted
  pending : Bool             -- a write waits for the phase's end
  issued : List Nat          -- POD: members whose arrival is on its way
  vec   : Vec16              -- what the arrivers of this phase released
  ovec  : Vec16              -- what the arrivers of completed phases released
deriving DecidableEq, Repr

/-- A die's interface, agent and engines. -/
structure Die where
  wctr  : Nat
  clock : Vec16
  merged : Vec16
  tlb   : List Tlb
  slots : List RedSlot
  rowacc : List RowAcc
  tapes : List Tape
  dead  : Bool               -- lost its power
deriving DecidableEq, Repr

/-- A Crier message (R162) and the instruction that waits for it. -/
structure CMsg where
  seq  : Nat
  kind : Nat
  pos  : Nat
  part : Nat
  inc  : Nat
  poff : Nat
  val  : Word
  body : List Nat
  core : Nat
  acc  : Option Access
  vec  : Vec16
deriving DecidableEq, Repr

/-- An open or draining generation of a pod as one package sees it (R168). -/
structure GenSt where
  gen     : Nat
  drained : List Nat         -- positions whose DRAINED has been applied
  sent    : Bool             -- this package has sent its DRAINED
deriving DecidableEq, Repr

/-- A package's service die and Crier interface. -/
structure Pkg where
  egress : Nat
  queue  : List CMsg
  applied : Nat              -- SEQ of the next message to apply
  missing : Option Nat       -- a message received with a check error (R161)
  mvec   : Vec16             -- what the applied Crier writes released
  gen    : Nat
  gens   : List GenSt        -- generations before `gen` that are not closed, oldest first
  failed : List Nat          -- failed links
  unreach : List (Nat × Nat) -- dies of the package, and dies that each cannot reach (R215)
  laneWait : List Nat        -- lanes over ERRMAX that wait for another of their rail and peer to return (R174)
  laneNotes : List Nat       -- disabled lanes of which the supervisor has been notified (R174)
  commitBy : Option Nat      -- the package whose INTENT is being served
  intents : List (Nat × Nat) -- open commits in crier order: package and SEQ of its INTENT (R171)
  market : List (Nat × Nat × Nat × Nat × Nat)  -- market messages received: position, INTERVAL, ASK, DRAW, LIC
  asked  : Bool              -- its message of the current interval has been sent (R222)
  licNext : Option Nat       -- LICENCE from the next interval
  clocks : List (Nat × Nat)  -- quad settings that differ from 3.3 GHz
  maxClk : List (Nat × Nat)  -- highest settings of quads, where lower than 3.3 GHz (R228)
  credits : List (Nat × Nat) -- energy credited to gangs by barrier key (R223)
  waited : List Nat          -- gangs of which a context has waited in BWAIT since the interval began (R223)
  mlog   : BitVec 512
  digests : List (BitVec 512)
  attests : List (List Byte)
  booted : Bool              -- a boot image has been started since power-on
  image  : Option Nat        -- that image, which carries the operator key (R221)
  bootFails : Nat            -- failures in a row
  bootHeld : Option Nat      -- the image that failed three times: a new one is waited for (R225)
  hostHeld : List Msg
  hostBad : Nat              -- discarded host writes, counted in telemetry
  telem  : List (BitVec 64)
  dead   : Bool
deriving DecidableEq, Repr

/-- A pod's Crier. -/
structure Pod where
  seq    : Nat
  holder : Nat
  members : List Nat         -- positions present
  sent   : List CMsg         -- messages sent, in crier order
  visit  : Nat               -- messages that the holder has sent on this visit (R161)
deriving DecidableEq, Repr

/-- A flow's counters (R158). -/
structure Flow where
  src  : Nat                 -- source die
  dst  : Nat                 -- destination die
  net  : Net
  send : Nat
  recv : Nat
deriving DecidableEq, Repr

/-- Which agent moves next: a core's cycle, or an event of the table. `late` leaves the result of what is issued to
arrive by a step of its own. -/
inductive Pick
  | issue (core : Nat) (late : Bool)
  | event (i : Instr)
  | enrol (pkg pos : Nat)    -- a package's service die admits an absent one to the Crier (R161)
  | ask (pkg : Nat)          -- a package sends its market message of an interval that none has been sent for (R222)
deriving DecidableEq, Repr

/-- The context an instruction runs in. -/
structure Cur where
  core : Nat
  ctx  : Nat
  late : Bool
deriving DecidableEq, Repr

/-- The whole machine. -/
structure State where
  sched : List Pick          -- the model's own: what moves next
  cur   : Cur                -- the model's own: who runs the instruction
  serial : Nat               -- the model's own: numbers accesses, activations and commands
  free  : Nat                -- the model's own: counts free values
  mem   : List Host.Cell     -- canonical: see `Memory.wf`
  full  : List Nat           -- granules that are full, strictly rising
  cores : List (Nat × Core)
  dies  : List (Nat × Die)
  pkgs  : List (Nat × Pkg)
  pods  : List (Nat × Pod)
  bars  : List (Nat × Barrier)   -- by the key of the record's word 0
  roots : List (Nat × Nat × Nat) -- 32 pkg + partition: frame of the root table, VOFF of the attribute table
  flows : List Flow
  flight : List Packet
  held  : List Held          -- in the order in which they reached their homes (R63)
  keptReq : List Packet      -- kept by senders until acknowledged (R123)
  keptRep : List Packet      -- kept by destinations (R123)
  aborted : List Nat         -- granules aborted in their page's current round (R73)
deriving DecidableEq, Repr

/-- Why a step stops with a fault. -/
inductive Fault
  /-- `step`: the schedule names a core that no package has (R6, R15). Safe: no such core exists. -/
  | noSuchCore (n : Nat)
deriving DecidableEq, Repr

/-- Why a step refuses. -/
inductive Refusal
  /-- An arm of `exec` whose instruction has no meaning yet. Safe: nothing is claimed of it. -/
  | notModelled (mnemonic : String)
deriving DecidableEq, Repr

/-- The %SEED of context `c` of core `n` after reset (R86; for the supervisor cores of DIE 8 too: DESIGN CHOICE, log 77). -/
def seedReset (n c : Nat) : BitVec 16 :=
  BitVec.ofNat 16 ((n % 16384 * 16 + c) % 65535 + 1)

/-- A context as power-on reset leaves it (log 1). -/
def Ctx.reset (n c : Nat) : Ctx where
  st := .free
  cause := .none
  act := 0
  cls := 0
  prio := 0
  c63 := false
  ldr := false
  owes := false
  replied := false
  job := 0
  win := 0
  pol := false
  sup := n / 1024 % 16 == 8
  pc := 0
  x := Vector.replicate 32 0
  v := Vector.replicate 16 0
  p := Vector.replicate 8 0
  tm := Vector.replicate 8 0
  org := Vector.replicate 8 0
  loops := []
  srcadr := 0
  rplyadr := 0
  round := 0
  sflags := 0
  check := false
  seed := seedReset n c
  fltcode := 0
  fltadr := 0
  fltctx := 0
  fltpc := 0
  lanef := Vector.replicate 32 0
  pend := []
  var := []
  rslots := []
  acks := []
  tapeAt := none
  resvAt := none
  paybuf := none
  awaits := none
  dep := zeroVec
  wgens := []
  stall := 0
  waited := 0
  promoted := false
  block := .none
  bwait := none
  redo := false
  xinv := none
  fcode := 0
  fadr := 0
  fpc := 0
  flen := 0
  late := false
  kept := none
  queued := []
  excs := []
  epc := 0
  emode := false
  scause := 0
  stval := 0

/-- A plane marked invalid (R138). -/
def Plane.invalid : Plane where
  valid := false
  fmt := 0
  geom := 0
  k := 0
  n := 0
  elems := []
  heads := []

/-- A Mill after power-on reset: accumulators +0 and valid, planes invalid (R138). -/
def Mill.reset : Mill where
  acc := []
  bad := []
  active := Plane.invalid
  shadow := Plane.invalid
  halted := false
  alien := false
  inbox := []

/-- A core as power-on reset leaves it. -/
def Core.reset : Core where
  ctxs := []
  cycle := 0
  last := Vector.replicate 5 15
  inbox := []
  order := 0
  resv := []
  resvNext := 1
  rplyWait := []
  sendq := []
  sqlim := 32
  sqnote := 0
  sqfaults := 0
  deque := []
  upcalls := []
  noticeHeld := []
  mbcfg := 0
  mboxes := []
  mill := Mill.reset
  copyq := []
  dispq := []
  gaussq := []
  grants := []
  idle := 0
  stealDir := 0
  svec := 0
  sptr := 0
  spart := 0
  stlb := []
  work := []
  saved := false
  past := []
  dcache := []
  icache := []

/-- A die as power-on reset leaves it. -/
def Die.reset : Die where
  wctr := 0
  clock := zeroVec
  merged := zeroVec
  tlb := []
  slots := []
  rowacc := []
  tapes := []
  dead := false

/-- A package as power-on reset leaves it. -/
def Pkg.reset : Pkg where
  egress := 0
  queue := []
  applied := 0
  missing := none
  mvec := zeroVec
  gen := 0
  gens := []
  failed := []
  unreach := []
  laneWait := []
  laneNotes := []
  commitBy := none
  intents := []
  market := []
  asked := false
  licNext := none
  clocks := []
  maxClk := []
  credits := []
  waited := []
  mlog := 0
  digests := []
  attests := []
  booted := false
  image := none
  bootFails := 0
  bootHeld := none
  hostHeld := []
  hostBad := 0
  telem := []
  dead := false

/-- A pod's Crier after pod reset (R161): SEQ 0, the lowest present position holds the token. -/
def Pod.reset : Pod where
  seq := 0
  holder := 0
  members := [0, 1, 2, 3, 4, 5, 6, 7]
  sent := []
  visit := 0

/-- A barrier record before it is written: EN = 0, no members. -/
def Barrier.reset : Barrier where
  word := 0
  mask := []
  phase := 0
  arrived := []
  last := []
  pending := false
  issued := []
  vec := zeroVec
  ovec := zeroVec

/-- The machine right after power-on reset: nothing listed, so every part stands at its reset value; no agent is
chosen. -/
def State.reset : State where
  sched := []
  cur := ⟨0, 0, false⟩
  serial := 1
  free := 0
  mem := []
  full := []
  cores := []
  dies := []
  pkgs := []
  pods := []
  bars := []
  roots := []
  flows := []
  flight := []
  held := []
  keptReq := []
  keptRep := []
  aborted := []

end Sys2Proof.Machine
end

