-- ==== Sys2Proof/Machine/Memory.lean ====
section
/-! DEFINITION. Sys2Proof/Machine/Memory.lean: the byte memory, the full/empty bits and the lists that hold the parts
of the machine, each in one canonical form, with the operations that read and write them.

Keys. Every byte of the machine has one key: a slice byte `8388608 core + OFFSET`, the control and instruction
windows and the blocks of the service die among them; an in-package or CXL Granary byte `2^62 + 2^52 package +` its
physical offset; a Crier-mirror byte `2^63 + 65536 (32 package + partition) + POFF`. A granule is its first byte's key
divided by 16. -/

namespace Sys2Proof.Machine

/-- Look a key up in a list of parts. -/
def look {α : Type} (dflt : α) : List (Nat × α) → Nat → α
  | [], _ => dflt
  | (k, a) :: r, n => if k = n then a else look dflt r n

/-- Set a key's part. -/
def upd {α : Type} : List (Nat × α) → Nat → α → List (Nat × α)
  | [], n, a => [(n, a)]
  | (k, b) :: r, n, a =>
    if n = k then (n, a) :: r
    else if n < k then (n, a) :: (k, b) :: r
    else (k, b) :: upd r n a

/-- Key of the first byte of a core's window (R53). -/
def sliceKey (core off : Nat) : Nat := 8388608 * core + off

/-- Key of a Granary byte of a package, by physical offset (R66). -/
def granKey (pkg phys : Nat) : Nat := 4611686018427387904 + 4503599627370496 * pkg + phys

/-- Key of a Crier-mirror byte of a package's copy (R74). -/
def mirrorKey (pkg part poff : Nat) : Nat := 9223372036854775808 + 65536 * (32 * pkg + part) + poff

/-- The core number of the fabric-control block of a package (R169). -/
def fabricCore (pkg : Nat) : Nat := 16384 * pkg + 8224

/-- The core number of the service block of a package (R218). -/
def serviceCore (pkg : Nat) : Nat := 16384 * pkg + 8256

/-- The records of the capability list: ID, and the body's values (R227), each in a word of 8 bytes (log 22). -/
def capRecords : List (Nat × List Nat) :=
  [(1, [32, 4, 71168]), (2, [6]), (3, [8388608]), (4, [4, 65536]), (5, [48]), (6, [32]), (7, [1024]), (8, [16, 4]), (9, [24])]

/-- Words of a capability list from the offset `at'` on: headers with NEXT, LEN, VER 1.0 and ID, and bodies. -/
def capWords : Nat → List (Nat × List Nat) → List Nat
  | _, [] => []
  | at', (id, body) :: r =>
    let next := at' + 8 * (body.length + 1)
    (id + 65536 * 16 + 16777216 * (body.length + 1) + 4294967296 * (if r.isEmpty then 0 else next)) ::
      body ++ capWords next r

/-- A byte of the capability list. -/
def capByte (i : Nat) : Byte := BitVec.ofNat 8 ((capWords 0 capRecords).getD (i / 8) 0 / 2 ^ (8 * (i % 8)))

/-- What a byte that nothing has written reads as: BALINT 16 (R43), ERRMAX 100,000 (R174), calibration state for
wavelength 0 (R169, R8), the capability list (R227), and 0 elsewhere: slices and mirrors as R62 and R74
say, the rest by choice (log 2). -/
def unlisted (a : Nat) : Byte :=
  if a < 4611686018427387904 then
    let off := a % 8388608
    let loc := a / 8388608 % 16384
    if loc = 8224 then
      if off = 0x410100 then 0xA0 else if off = 0x410101 then 0x86 else if off = 0x410102 then 0x01
      else if 0x410200 ≤ off ∧ off < 0x410A00 ∧ off % 64 = 0 then 3
      else 0
    else if loc = 8256 then
      if 0x20000 ≤ off ∧ off < 0x20200 then capByte (off - 0x20000) else 0
    else if off = 0x410200 then 16
    else 0
  else 0

/-- Read one byte. -/
def Memory.get : List Host.Cell → Nat → Byte
  | [], a => unlisted a
  | (k, b) :: r, a => if k = a then b else if a < k then unlisted a else Memory.get r a

/-- Write one byte, keeping the canonical form: a byte written with what an unlisted byte reads as is not listed. -/
def Memory.put : List Host.Cell → Nat → Byte → List Host.Cell
  | [], a, v => if v = unlisted a then [] else [(a, v)]
  | (k, b) :: r, a, v =>
    if k = a then (if v = unlisted a then r else (a, v) :: r)
    else if a < k then (if v = unlisted a then (k, b) :: r else (a, v) :: (k, b) :: r)
    else (k, b) :: Memory.put r a v

/-- Every listed address from `lo` on, strictly rising, and no listed byte equal to what an unlisted one reads as. -/
def Memory.wfFrom : Nat → List Host.Cell → Bool
  | _, [] => true
  | lo, (k, b) :: r => decide (lo ≤ k) && (b != unlisted k) && Memory.wfFrom (k + 1) r

/-- The canonical form of memory. -/
def Memory.wf (m : List Host.Cell) : Bool := Memory.wfFrom 0 m

/-- Read `n` bytes, the first least significant, as a number. -/
def Memory.read (m : List Host.Cell) (a : Nat) : Nat → Nat
  | 0 => 0
  | n + 1 => (Memory.get m a).toNat + 256 * Memory.read m (a + 1) n

/-- Read `n` bytes as a list. -/
def Memory.readBytes (m : List Host.Cell) (a : Nat) : Nat → List Byte
  | 0 => []
  | n + 1 => Memory.get m a :: Memory.readBytes m (a + 1) n

/-- Write a list of bytes from an address on. -/
def Memory.putBytes (m : List Host.Cell) (a : Nat) : List Byte → List Host.Cell
  | [] => m
  | b :: r => Memory.putBytes (Memory.put m a b) (a + 1) r

/-- The low `n` bytes of a number, least significant first. -/
def toBytes : Nat → Nat → List Byte
  | 0, _ => []
  | n + 1, v => BitVec.ofNat 8 v :: toBytes n (v / 256)

/-- The number that a list of bytes holds, the first least significant. -/
def ofBytes : List Byte → Nat
  | [] => 0
  | b :: r => b.toNat + 256 * ofBytes r

/-- Write the low `n` bytes of a number. -/
def Memory.write (m : List Host.Cell) (a n v : Nat) : List Host.Cell := Memory.putBytes m a (toBytes n v)

/-- Is a number in a strictly rising list? -/
def memb : List Nat → Nat → Bool
  | [], _ => false
  | k :: r, n => if k = n then true else if n < k then false else memb r n

/-- Add a number to a strictly rising list. -/
def addMem : List Nat → Nat → List Nat
  | [], n => [n]
  | k :: r, n => if k = n then k :: r else if n < k then n :: k :: r else k :: addMem r n

/-- Remove a number from a strictly rising list. -/
def delMem : List Nat → Nat → List Nat
  | [], _ => []
  | k :: r, n => if k = n then r else if n < k then k :: r else k :: delMem r n

/-- Every element of a list is above the last, beginning at `lo`. -/
def risingFrom : Nat → List Nat → Bool
  | _, [] => true
  | lo, k :: r => decide (lo ≤ k) && risingFrom (k + 1) r

/-- Add or remove `n` numbers from `k` on. -/
def setRun (l : List Nat) (k : Nat) (val : Bool) : Nat → List Nat
  | 0 => l
  | n + 1 => setRun (if val then addMem l k else delMem l k) (k + 1) val n

end Sys2Proof.Machine
end

