-- ==== Sys2Proof/Machine/Ops.lean ====
section
/-! DEFINITION. Sys2Proof/Machine/Ops.lean: the named operations every meaning is written with: reaching a part of the
machine, reading and writing registers, advancing the PC, parking and waking, taking an exception in each of its forms
(a supervisor fault, an upcall, a notice, the supervisor exception of R19) and the return from one, and putting
packets and messages on their way. -/

namespace Sys2Proof.Machine

/-- The outcome of one instruction or event. -/
abbrev Out := Host.Outcome State Fault Refusal

/-! ## Reaching a part -/

def coreAt (s : State) (n : Nat) : Core := look Core.reset s.cores n
def setCore (s : State) (n : Nat) (k : Core) : State := { s with cores := upd s.cores n k }
def ctxAt (s : State) (n c : Nat) : Ctx := look (Ctx.reset n c) (coreAt s n).ctxs c
def setCtx (s : State) (n c : Nat) (t : Ctx) : State :=
  setCore s n { coreAt s n with ctxs := upd (coreAt s n).ctxs c t }
def dieAt (s : State) (d : Nat) : Die := look Die.reset s.dies d
def setDie (s : State) (d : Nat) (k : Die) : State := { s with dies := upd s.dies d k }
def pkgAt (s : State) (p : Nat) : Pkg := look Pkg.reset s.pkgs p
def setPkg (s : State) (p : Nat) (k : Pkg) : State := { s with pkgs := upd s.pkgs p k }
def podAt (s : State) (p : Nat) : Pod := look Pod.reset s.pods p
def setPod (s : State) (p : Nat) (k : Pod) : State := { s with pods := upd s.pods p k }
def barAt (s : State) (key : Nat) : Barrier := look Barrier.reset s.bars key
def setBar (s : State) (key : Nat) (b : Barrier) : State := { s with bars := upd s.bars key b }

/-- The context the instruction runs in. -/
def me (s : State) : Ctx := ctxAt s s.cur.core s.cur.ctx
def setMe (s : State) (t : Ctx) : State := setCtx s s.cur.core s.cur.ctx t
/-- The core the instruction runs on. -/
def myCore (s : State) : Core := coreAt s s.cur.core
def setMyCore (s : State) (k : Core) : State := setCore s s.cur.core k

/-- Take a number that no access, activation or command has had. -/
def fresh (s : State) : Nat × State := (s.serial, { s with serial := s.serial + 1 })

/-! ## Places (R6, R12, R15, R17) -/

def dieOf (n : Nat) : Nat := n / 1024
def pkgOf (n : Nat) : Nat := n / 16384
def podOf (n : Nat) : Nat := n / 131072
def posOf (n : Nat) : Nat := n / 16384 % 8
def rowOf (n : Nat) : Nat := n / 32 % 32
def colOf (n : Nat) : Nat := n % 32
/-- The DIE field of a core's address. -/
def dieField (n : Nat) : Nat := n / 1024 % 16
def isSupCore (n : Nat) : Bool := dieField n == 8
def isWorker (n : Nat) : Bool := decide (dieField n < 8)
/-- A core that exists: a worker core of DIE 0-7 or a supervisor core at DIE 8, ROW 0. -/
def coreExists (n : Nat) : Bool := decide (n < 16777216) && (isWorker n || (isSupCore n && rowOf n == 0))
/-- The reeve of a core's quad (R14). -/
def reeveOf (n : Nat) : Nat := n - rowOf n % 2 * 32 - colOf n % 2
/-- The quad's index in the quad table (R220). -/
def quadIdx (n : Nat) : Nat := 256 * dieField n + 16 * (rowOf n / 2) + colOf n / 2

/-! ## Partitions (R18, R219, R220) -/

/-- Byte of the service block of a package. -/
def svcByte (s : State) (pkg off : Nat) : Nat := (Memory.get s.mem (sliceKey (serviceCore pkg) off)).toNat
/-- The `n`-byte word of the service block of a package. -/
def svcWord (s : State) (pkg off n : Nat) : Nat := Memory.read s.mem (sliceKey (serviceCore pkg) off) n
def setSvc (s : State) (pkg off n v : Nat) : State :=
  { s with mem := Memory.write s.mem (sliceKey (serviceCore pkg) off) n v }

def partEn (s : State) (pkg p : Nat) : Bool := decide (128 ≤ svcByte s pkg (0x40 * p + 7))
def partSup (s : State) (pkg p : Nat) : Nat := svcByte s pkg (0x40 * p) % 32
def partFclass (s : State) (pkg p : Nat) : Nat := svcByte s pkg (0x40 * p + 4) % 64
def partNclass (s : State) (pkg p : Nat) : Nat := svcByte s pkg (0x40 * p + 5) % 64
def partInc (s : State) (pkg p : Nat) : Nat := svcWord s pkg (0x40 * p + 2) 2
/-- The stop word of a partition: 0 running, 1 stopping, 2 stopped, 3 resetting. -/
def stopState (s : State) (pkg p : Nat) : Nat := svcByte s pkg (0x40 * p + 8) % 4
def setStop (s : State) (pkg p v : Nat) : State := setSvc s pkg (0x40 * p + 8) 1 v

/-- The partition that owns a worker core's quad, or none (R220). -/
def partOf (s : State) (n : Nat) : Option Nat :=
  let b := svcByte s (pkgOf n) (0x40000 + quadIdx n)
  if 128 ≤ b then some (b % 32) else none

/-- %PART (R220); on a supervisor core the partition that %SPART names (R19). -/
def partNum (s : State) (n : Nat) : Nat :=
  if isSupCore n then (coreAt s n).spart else svcByte s (pkgOf n) (0x40000 + quadIdx n) % 32

/-- The supervisor core of a partition in a package (R219). -/
def supCoreOf (s : State) (pkg p : Nat) : Nat := 16384 * pkg + 8192 + partSup s pkg p

/-- May the core dispatch (R205, R219, R220)? A supervisor core always may. -/
def mayDispatch (s : State) (n : Nat) : Bool :=
  if isSupCore n then true
  else match partOf s n with
    | none => false
    | some p => partEn s (pkgOf n) p && stopState s (pkgOf n) p == 0

/-- The physical package of a partition-virtual one (R16, R218). -/
def physPkg (s : State) (pkg part v : Nat) : Option Nat :=
  let e := svcWord s pkg (0x1000 + 0x800 * part + 2 * v) 2
  if 32768 ≤ e then some (e % 1024) else none

/-- Search the package table of a partition for the virtual number of a physical package. -/
def findVirt (s : State) (pkg part phys : Nat) : Nat → Option Nat
  | 0 => none
  | k + 1 =>
    match findVirt s pkg part phys k with
    | some v => some v
    | none => if physPkg s pkg part k = some phys then some k else none

/-- The partition-virtual number of a physical package: the same number where the table maps it to itself, else the
least that maps to it, else the physical number (log 12). A supervisor core names packages physically (log 11). -/
def virtPkg (s : State) (n phys : Nat) : Nat :=
  if isSupCore n then phys
  else
    let part := partNum s n
    if physPkg s (pkgOf n) part phys = some phys then phys
    else if (s.mem.any fun c => decide (sliceKey (serviceCore (pkgOf n)) 0x1000 ≤ c.1) &&
        decide (c.1 < sliceKey (serviceCore (pkgOf n)) 0xD000)) then
      (findVirt s (pkgOf n) part phys 1024).getD phys
    else phys

/-- The slice address of a core, OFFSET 0, as core `n` names it (R52). -/
def coreAdr (s : State) (n target : Nat) : Word :=
  BitVec.ofNat 64 (virtPkg s n (pkgOf target) * 4503599627370496 + target % 16384 * 274877906944)

/-- %COORD (R107). -/
def coord (s : State) (n : Nat) : Word := coreAdr s n n

/-- Has a die lost its power, alone or with its package (R215)? -/
def dieDead (s : State) (d : Nat) : Bool := (pkgAt s (d / 16)).dead || (dieAt s d).dead

/-! ## Registers (R103, R105) -/

/-- `old` with the bits of `mask` taken from `v`. -/
def mergeBits {w : Nat} (old v mask : BitVec w) : BitVec w := (old &&& ~~~mask) ||| (v &&& mask)

/-- x[r]; x0 reads zero. -/
def Ctx.rx (c : Ctx) (r : Reg) : Word := if r = 0 then 0 else c.x.get r.toFin
/-- Write x[r]; a write to x0 is discarded. -/
def Ctx.wx (c : Ctx) (r : Reg) (v : Word) : Ctx := if r = 0 then c else { c with x := c.x.set r.toNat v r.isLt }
/-- v[r]. -/
def Ctx.rv (c : Ctx) (r : VReg) : VWord := c.v.get r.toFin
/-- Write the bits of `mask` of v[r]. -/
def Ctx.wv (c : Ctx) (r : VReg) (v mask : VWord) : Ctx :=
  { c with v := c.v.set r.toNat (mergeBits (c.rv r) v mask) r.isLt }
/-- p[r]; p0 reads all ones. -/
def Ctx.rp (c : Ctx) (r : PReg) : BitVec 32 := if r = 0 then BitVec.allOnes 32 else c.p.get r.toFin
/-- Write p[r]; a write to p0 is discarded. -/
def Ctx.wp (c : Ctx) (r : PReg) (v : BitVec 32) : Ctx :=
  if r = 0 then c else { c with p := c.p.set r.toNat v r.isLt }
/-- The record and the origin of tm[r] (R113). -/
def Ctx.rtm (c : Ctx) (r : TReg) : BitVec 256 := c.tm.get r.toFin
def Ctx.rorg (c : Ctx) (r : TReg) : BitVec 64 := c.org.get r.toFin
def Ctx.wtm (c : Ctx) (r : TReg) (m : BitVec 256) (o : BitVec 64) : Ctx :=
  { c with tm := c.tm.set r.toNat m r.isLt, org := c.org.set r.toNat o r.isLt }

/-- Register codes (R198): x, v, p, tm. -/
def xCode (r : Reg) : Nat := r.toNat
def vCode (r : VReg) : Nat := 0x20 + r.toNat
def pCode (r : PReg) : Nat := 0x30 + r.toNat
def tmCode (r : TReg) : Nat := 0x38 + r.toNat
/-- No register. -/
def noCode : Nat := 0xFF

/-- Every bit of a register. -/
def allBits : VWord := BitVec.allOnes 1024

/-- Write the bits of `mask` of the register with a code; a tm register takes a record and a zero origin (R244). -/
def Ctx.wcode (c : Ctx) (code : Nat) (v mask : VWord) : Ctx :=
  if code < 0x20 then
    let r := BitVec.ofNat 5 code
    c.wx r (mergeBits (c.rx r) (v.setWidth 64) (mask.setWidth 64))
  else if code < 0x30 then c.wv (BitVec.ofNat 4 code) v mask
  else if code < 0x38 then
    let r := BitVec.ofNat 3 code
    c.wp r (mergeBits (c.rp r) (v.setWidth 32) (mask.setWidth 32))
  else if code < 0x40 then c.wtm (BitVec.ofNat 3 code) (v.setWidth 256) 0
  else c

/-- Pending results of a register that a later-issued write has taken effect on are discarded, whatever lanes it wrote
(R110). A write with no lane at all is no write here (DESIGN CHOICE, log 77). -/
def stripPend (l : List Pend) (code : Nat) (mask : VWord) : List Pend :=
  if mask = 0 then l else l.filter fun e => e.code != code

/-- Pending results without those of a register that would arrive after a later-issued write of it has taken effect in cycle
`ready`: they will be discarded (R110). -/
def overtake (l : List Pend) (code ready : Nat) (mask : VWord) : List Pend :=
  if mask = 0 then l else l.filter fun e => e.code != code || decide (e.ready ≤ ready)

/-- Write a register now: an older pending result is discarded (R110). -/
def Ctx.putNow (c : Ctx) (code : Nat) (v mask : VWord) : Ctx :=
  { c with pend := stripPend c.pend code mask }.wcode code v mask

/-- Write a register with latency `lat`, issued in `cycle` (R108). Nothing is pending for x0 and p0 (R103). -/
def Ctx.put (c : Ctx) (cycle lat code : Nat) (v mask : VWord) : Ctx :=
  if lat ≤ 1 ∨ code = 0 ∨ code = 0x30 then c.putNow code v mask
  else { c with pend := overtake c.pend code (cycle + lat) mask ++ [⟨code, v, mask, cycle + lat⟩] }

/-- Write every pending result whose cycle has come, in issue order (R108, R110). -/
def commitPend (cycle : Nat) : List Pend → List Pend → Ctx → Ctx
  | [], kept, c => { c with pend := kept }
  | e :: r, kept, c =>
    if e.ready ≤ cycle then commitPend cycle r kept (c.wcode e.code e.val e.mask)
    else commitPend cycle r (kept ++ [e]) c

def Ctx.commit (c : Ctx) (cycle : Nat) : Ctx := commitPend cycle c.pend [] c

/-- x[r] of the running context. -/
def xr (s : State) (r : Reg) : Word := (me s).rx r
def vr (s : State) (r : VReg) : VWord := (me s).rv r
def pr (s : State) (r : PReg) : BitVec 32 := (me s).rp r

/-- Write x[r] with a latency. -/
def wrX (s : State) (lat : Nat) (r : Reg) (v : Word) : State :=
  setMe s ((me s).put (myCore s).cycle lat (xCode r) (v.setWidth 1024) allBits)
/-- Write the bits of `mask` of v[r] with a latency. -/
def wrV (s : State) (lat : Nat) (r : VReg) (v mask : VWord) : State :=
  setMe s ((me s).put (myCore s).cycle lat (vCode r) v mask)
/-- Write the bits of `mask` of p[r] with a latency. -/
def wrP (s : State) (lat : Nat) (r : PReg) (v mask : BitVec 32) : State :=
  setMe s ((me s).put (myCore s).cycle lat (pCode r) (v.setWidth 1024) (mask.setWidth 1024))

/-! ## The PC (R96, R308) -/

/-- The check after every instruction: the loop levels and the PC that the next PC `n` gives (R308). -/
def loopCheck : List LoopLevel → Word → List LoopLevel × Word
  | [], n => ([], n)
  | l :: r, n =>
    if n = l.fin then
      if 1 < l.count.toNat then ({ l with count := l.count - 1 } :: r, l.start) else loopCheck r n
    else (l :: r, n)

/-- Go on at `n`, checked against the loop levels. -/
def Ctx.goto (c : Ctx) (n : Word) : Ctx := { c with loops := (loopCheck c.loops n).1, pc := (loopCheck c.loops n).2 }

/-- The running context goes on at `n`; its stall count binds it (R109). -/
def jumpTo (s : State) (st : Stall) (n : Word) : State :=
  setMe s { (me s).goto n with stall := (myCore s).cycle + st.toNat + 1 }

/-- The running context goes on after an instruction of `len` bytes. -/
def advance (s : State) (st : Stall) (len : Nat) : State := jumpTo s st ((me s).pc + BitVec.ofNat 64 len)

/-- An instruction of `len` bytes completes. -/
def done (st : Stall) (len : Nat) (s : State) : Out := .next (advance s st len)

/-! ## Flows and packets (R124, R156-R158) -/

/-- Element-wise maximum of two vectors. -/
def vmax (a b : Vec16) : Vec16 := Vector.zipWith Nat.max a b

/-- A vector with one entry raised. -/
def vraise (a : Vec16) (k n : Nat) : Vec16 := if h : k < 16 then a.set k (Nat.max (a[k]'h) n) h else a

def flowEq (f : Flow) (src dst : Nat) (net : Net) : Bool := f.src == src && f.dst == dst && f.net == net
/-- The flow's next sequence number to send and to hand to its homes. -/
def flowOf (fs : List Flow) (src dst : Nat) (net : Net) : Flow :=
  (fs.find? fun f => flowEq f src dst net).getD ⟨src, dst, net, 1, 1⟩
def setFlow (fs : List Flow) (g : Flow) : List Flow :=
  if fs.any (fun f => flowEq f g.src g.dst g.net) then
    fs.map fun f => if flowEq f g.src g.dst g.net then g else f
  else fs ++ [g]

/-- Is the die out of reach of a core's die (R215)? -/
def unreachable (s : State) (n die : Nat) : Bool :=
  (pkgAt s (pkgOf n)).unreach.contains (dieOf n, die)

/-- Count a write that leaves a die (R124): its stamp and the counters after it. A write that stays on its die carries
the counter as it stands; one to another pod carries no stamp. -/
def stampOf (s : State) (src dst : Nat) (isWrite : Bool) : Vec16 × State :=
  let d := dieOf src
  if !isWorker src then (zeroVec, s)
  else if d = dieOf dst then (vraise zeroVec (dieField src) (dieAt s d).wctr, s)
  else if !isWrite then (zeroVec, s)
  else
    let k := dieAt s d
    let s := setDie s d { k with wctr := k.wctr + 1 }
    let v := vraise zeroVec (dieField src) (k.wctr + 1)
    if pkgOf src = pkgOf dst then (v, s)
    else if podOf src = podOf dst then
      let g := pkgAt s (pkgOf src)
      (vraise v (8 + posOf src) (g.egress + 1), setPkg s (pkgOf src) { g with egress := g.egress + 1 })
    else (zeroVec, s)

/-- Does a sender keep this packet for resending (R123)? -/
def Body.isKept : Body → Bool
  | .access _ => true
  | .msg _ => true
  | .row _ => true
  | .red _ => true
  | .probe .. => true
  | .data _ => true
  | _ => false

/-- Note the flow's sequence number in what is sent. -/
def Body.withSeq (b : Body) (q : Nat) : Body :=
  match b with
  | .access a => .access { a with seq := q }
  | .red r => .red { r with acc := { r.acc with seq := q } }
  | b => b

/-- The core that issued what a packet carries: for a granule on its way from an agent to its engine, the contributor. -/
def Packet.issuer (p : Packet) : Nat := match p.body with | .red r => r.acc.core | .access a => a.core | _ => p.src

/-- Has the packet only its destination's die before it: it never left it, or its interface has handed it over (R158)? -/
def Packet.near (p : Packet) : Bool := p.here || dieOf p.src == dieOf p.dst

/-- Packets of `n` bytes of payload, 256 to each (R158). -/
def packetsFor (n : Nat) : Nat := Nat.max 1 ((n + 255) / 256)

/-- The packets that a body takes on its flow, one behind the other; what they carry is whole with the last. -/
def Body.packets : Body → Nat
  | .access a => packetsFor a.bytes.length
  | .reply r => packetsFor r.bytes.length
  | .ack r => packetsFor r.bytes.length
  | .row r => packetsFor (4 * r.n)
  | .data d => packetsFor (d.pieces.foldl (fun n p => n + p.len + 2 * p.heads.length) 0)
  | _ => 1

/-- Put a packet on its way: between dies it takes its flow's next sequence number and, if its sender keeps it, a copy
stays until it is acknowledged (R123, R158). -/
def transmit (s : State) (src dst : Nat) (net : Net) (part inc : Nat) (isWrite : Bool) (body : Body) : State :=
  let r := stampOf s src dst isWrite
  let s := r.2
  let g := (pkgAt s (pkgOf src)).gen
  if dieOf src = dieOf dst then
    { s with flight := s.flight ++ [⟨src, dst, net, 0, g, part, inc, r.1, body, false, 0, false⟩] }
  else
    let f := flowOf s.flows (dieOf src) (dieOf dst) net
    let back := (flowOf s.flows (dieOf dst) (dieOf src) net).recv
    let p : Packet := ⟨src, dst, net, f.send, g, part, inc, r.1, body.withSeq f.send, false, back, false⟩
    { s with
      flows := setFlow s.flows { f with send := f.send + body.packets }
      flight := s.flight ++ [p]
      keptReq := if body.isKept then s.keptReq ++ [p] else s.keptReq }

/-! ## Parking and waking (R34) -/

/-- Park the running context at its instruction, which it executes again when it is woken. -/
def parkHere (s : State) (c : Cause) : State := setMe s { me s with st := .parked, cause := c }

/-- Wake a context that is parked for `c`. -/
def wake (s : State) (n k : Nat) (c : Cause) : State :=
  let t := ctxAt s n k
  if t.st = .parked ∧ t.cause = c then setCtx s n k { t with st := .running, cause := .none } else s

/-- Wake every context of a core that is parked for `c`. -/
def wakeAll (s : State) (n : Nat) (c : Cause) : State :=
  let k := coreAt s n
  setCore s n { k with
    ctxs := k.ctxs.map fun e =>
      if e.2.st = .parked ∧ e.2.cause = c then (e.1, { e.2 with st := .running, cause := .none, redo := false }) else e }

/-- Wake every context of a package that is parked for `c`. -/
def wakePkg (s : State) (pkg : Nat) (c : Cause) : State :=
  s.cores.foldl (fun s e => if pkgOf e.1 = pkg then wakeAll s e.1 c else s) s

/-- A context gives up what the instruction at its PC holds while it waits: a reserved reply slot, and bytes read at its issue. -/
def dropSlot (s : State) (n c : Nat) : State :=
  let t := ctxAt s n c
  let k := coreAt s n
  let s := match t.resvAt with | some id => setCore s n { k with resv := k.resv.filter fun x => x != id } | none => s
  setCtx s n c { ctxAt s n c with paybuf := none, resvAt := none }

/-- The same, and contexts that wait for a reply slot look again. -/
def giveSlot (s : State) (n c : Nat) : State :=
  if (ctxAt s n c).resvAt.isSome then wakeAll (dropSlot s n c) n .send else dropSlot s n c

/-! ## Taking an exception (R19, R199-R204, R366) -/

/-- PC of a notice (R200). -/
def noticePc : Word := BitVec.allOnes 64

/-- Eight arguments from a short list. -/
def eightArgs (l : List Word) : List Word := (l ++ List.replicate 8 0).take 8

/-- What a core's die passes on of the writes applied at it: its merged vector, with its own position's entry at the package's
current egress counter (R124, log 17). -/
def dieVec (s : State) (n : Nat) : Vec16 :=
  vraise (dieAt s (dieOf n)).merged (8 + posOf n) (pkgAt s (pkgOf n)).egress

/-- A home has applied a write, or a granule of one: what it follows goes into the merged vector (R119, R124). -/
def mergeWrite (s : State) (src home : Nat) (stamp vec : Vec16) : State :=
  if podOf src != podOf home then s
  else
    let k := dieAt s (dieOf home)
    setDie s (dieOf home) { k with merged := vmax k.merged (vmax stamp vec) }

/-- What the context of a core releases: its own vector, and the stamps of its die's stores (R124). -/
def ctxVec (s : State) (n c : Nat) : Vec16 :=
  let v := vmax (ctxAt s n c).dep (dieAt s (dieOf n)).merged
  if isWorker n then
    vraise (vraise v (dieField n) (dieAt s (dieOf n)).wctr) (8 + posOf n) (pkgAt s (pkgOf n)).egress
  else v

/-- What a message of a core to a core carries of the writes applied at its die: nothing to another pod (R160). -/
def passVec (s : State) (src dst : Nat) : Vec16 := if podOf src = podOf dst then dieVec s src else zeroVec

/-- A message that holds no reply reservation (R28), from a core to a core. -/
def sendUnreserved (s : State) (src dst cls : Nat) (args : List Word) (part : Nat) : State :=
  let m : Msg := ⟨.unreserved, cls, 0, args.length, eightArgs args, [], 0, coreAdr s dst dst, src, 0, 0, dst, false, part,
    partInc s (pkgOf src) part, passVec s src dst⟩
  transmit s src dst .rply part (partInc s (pkgOf src) part) false (.msg m)

/-- The message of R204 to the partition's supervisor core. -/
def supMessage (s : State) (n c code : Nat) (c63 engine : Bool) (adr pc : Word) : State :=
  let part := partNum s n
  let dst := supCoreOf s (pkgOf n) part
  sendUnreserved s n dst (partFclass s (pkgOf n) part)
    [coreAdr s dst n, BitVec.ofNat 64 (code + 256 * c + (if c63 then 4096 else 0) + (if engine then 8192 else 0)), adr, pc]
    part

/-- A supervisor fault: the context is held where it stands, and the partition's supervisor core is told (R204). -/
def raiseSup (s : State) (n c code : Nat) (adr pc : Word) : State :=
  let t := ctxAt s n c
  supMessage (setCtx s n c { t with st := .held, cause := .none }) n c code t.c63 false adr pc

/-- A job has work at a core, to be charged at the next update (R224). -/
def noteWork (s : State) (n job : Nat) : State :=
  let k := coreAt s n
  if k.work.contains job then s else setCore s n { k with work := job :: k.work }

/-- Is a context halted (R300)? -/
def Ctx.halted (t : Ctx) : Bool := t.st == .parked && t.cause == .halt

/-- A halted supervisor context goes on when its core accepts something (R300), and its job has work again. -/
def wakeHalted (s : State) (n : Nat) : State :=
  wakeAll ((((coreAt s n).ctxs.filter fun e => e.2.halted).map fun e => e.2.job).foldl (fun s j => noteWork s n j) s) n .halt

/-- How many notices a core has queued (R200). -/
def noticeCount (k : Core) : Nat := (k.upcalls.filter fun u => u.pc == noticePc).length

/-- Queue a class 63 activation at a core (R199). -/
def queueUpcall (s : State) (n : Nat) (u : Upcall) : State :=
  let k := coreAt s n
  wakeHalted (setCore s n { k with upcalls := k.upcalls ++ [{ u with order := k.order }], order := k.order + 1 }) n

/-- An upcall that parks: the context is parked with its fault and a class 63 activation is queued (R199); in a class 63
activation the supervisor receives the fault instead (R201). -/
def raiseUpcall (s : State) (n c code : Nat) (adr pc : Word) (len : Nat) (kept : Option Access) : State :=
  let t := ctxAt s n c
  if t.c63 then raiseSup s n c code adr pc
  else
    let t := { t with
      st := .parked
      cause := .upcall
      fcode := code
      fadr := adr
      fpc := pc
      flen := len
      late := kept.isSome
      kept := kept
      bwait := none
      block := .none }
    queueUpcall (setCtx s n c t) n ⟨code, adr, c, pc, 0, partNum s n, none⟩

/-- A notice (R200): it parks nothing; a core queues at most 32, and the raiser holds a further one. -/
def raiseNotice (s : State) (n c code : Nat) (adr : Word) (die : Option Nat := none) : State :=
  let u : Upcall := ⟨code, adr, c, noticePc, 0, partNum s n, die⟩
  let k := coreAt s n
  if noticeCount k < 32 then queueUpcall s n u
  else setCore s n { k with noticeHeld := k.noticeHeld ++ [u] }

/-- The supervisor exception of R19: a supervisor core's own translation fault. -/
def raiseSupExc (s : State) (n c code : Nat) (adr pc : Word) : State :=
  let t := ctxAt s n c
  setCtx s n c { t with
    epc := pc
    emode := t.sup
    scause := code
    stval := adr
    sup := true
    pc := (coreAt s n).svec + 0x40 }

/-- Raise a fault with the delivery that R198 gives its code, found at issue at the running context: the instruction
has no other effect and the PC stays at it. -/
def supFault (s : State) (code : Nat) (adr : Word) : Out :=
  .next (raiseSup s s.cur.core s.cur.ctx code adr (me s).pc)
def upcall (s : State) (code : Nat) (adr : Word) (len : Nat) : Out :=
  .next (raiseUpcall s s.cur.core s.cur.ctx code adr (me s).pc len none)

/-! Fault codes (R198). -/
def fILLEGAL : Nat := 0x01
def fRESFIELD : Nat := 0x02
def fMISALIGN : Nat := 0x03
def fPROTECT : Nat := 0x04
def fPAGE : Nat := 0x05
def fCHECK : Nat := 0x06
def fSQFULL : Nat := 0x07
def fDQFULL : Nat := 0x08
def fTAPEFULL : Nat := 0x09
def fSINGULAR : Nat := 0x0A
def fBARNONMEM : Nat := 0x0B
def fBARTIMEOUT : Nat := 0x0C
def fCNTOVER : Nat := 0x0D
def fROUTELOST : Nat := 0x0E
def fTIMEOUT : Nat := 0x0F
def fENGERR : Nat := 0x10
def fPARTIAL : Nat := 0x11
def fPRIV : Nat := 0x12
def fTRAPINSN : Nat := 0x13
def fDIELOST : Nat := 0x14
def fMCHECK : Nat := 0x15

/-- The codes that R198 delivers to the supervisor. -/
def toSupervisor (code : Nat) : Bool :=
  [fILLEGAL, fRESFIELD, fMISALIGN, fPROTECT, fBARNONMEM, fPARTIAL, fPRIV, fMCHECK].contains code

/-- Return from the entry to supervisor mode (R287). -/
def returnFrom (s : State) (st : Stall) : Out :=
  let t := me s
  if t.epc.getLsbD 0 then supFault s fMISALIGN t.epc
  else .next (jumpTo (setMe s { t with sup := t.emode }) st t.epc)

end Sys2Proof.Machine
end

