-- ==== Sys2Proof/Machine/Address.lean ====
section
/-! DEFINITION. Sys2Proof/Machine/Address.lean: commons addresses (R52-R58), region descriptors (R59-R61), the Granary's
page tables and attribute records (R66, R67) and the supervisor table (R19). A `View` says where an access finds its
bytes and in which format. -/

namespace Sys2Proof.Machine

/-- `w` bits of a word from `lo` on. -/
def bitsOf (a : Word) (lo w : Nat) : Nat := a.toNat / 2 ^ lo % 2 ^ w
/-- The same of a number. -/
def nbits (a lo w : Nat) : Nat := a / 2 ^ lo % 2 ^ w

/-- Who makes an access: a context, or an engine for the context that issued its command. -/
structure Who where
  core : Nat
  ctx  : Nat
  supr : Bool
  ldr  : Bool
  part : Nat
  win  : Nat
deriving DecidableEq, Repr

/-- The running context as the maker of an access. -/
def whoAmI (s : State) : Who :=
  let t := me s
  ⟨s.cur.core, s.cur.ctx, t.sup, t.ldr, partNum s s.cur.core, t.win⟩

/-- Where an address leads. -/
inductive Place
  | slice (n off : Nat)
  | priv (off : Nat)
  | istore (n off : Nat)
  | ctl (n off : Nat)
  | gran (pkg voff : Nat)
  | sup (voff : Nat)
  | mirror (poff : Nat)
deriving DecidableEq, Repr

/-- A resolved address, or the fault of the checks. -/
inductive Res
  | ok (p : Place)
  | bad (code : Nat)
deriving DecidableEq, Repr

/-- The must-be-zero fields and SUB of an address (R52). -/
def mbzOk (a : Word) : Bool :=
  let sp := bitsOf a 62 2
  if sp = 0 then bitsOf a 23 15 == 0
  else if sp = 1 then bitsOf a 48 14 == 0 && bitsOf a 23 15 == 0
  else if sp = 2 then true
  else if bitsOf a 58 4 = 0 then bitsOf a 17 41 == 0
  else bitsOf a 58 4 == 1 && bitsOf a 16 42 == 0

def isPrivAdr (a : Word) : Bool := bitsOf a 62 2 == 3 && bitsOf a 58 4 == 0
def isMirrorAdr (a : Word) : Bool := bitsOf a 62 2 == 3 && bitsOf a 58 4 == 1
/-- Does core `n` name its own supervisor space (R19)? -/
def isSupSpace (n : Nat) (a : Word) : Bool := isSupCore n && bitsOf a 62 2 == 2 && bitsOf a 52 10 == 1023
def isGranAdr (a : Word) : Bool := bitsOf a 62 2 == 2
def isSliceAdr (a : Word) : Bool := decide (bitsOf a 62 2 < 2)

/-- A five-bit signed field. -/
def sext5 (n : Nat) : Int := if n < 16 then n else (n : Int) - 32

/-- The core that a relative address names (R54). -/
def relCore (n : Nat) (a : Word) : Option Nat :=
  let r : Int := rowOf n + sext5 (bitsOf a 43 5)
  let c : Int := colOf n + sext5 (bitsOf a 38 5)
  if 0 ≤ r ∧ r < 32 ∧ 0 ≤ c ∧ c < 32 then some (n / 1024 * 1024 + 32 * r.toNat + c.toNat) else none

/-- The absolute form of an address (R54, R255); none when a resolved ROW or COL is outside 0-31. A must-be-zero field that is
not zero stays so. -/
def absAdr (s : State) (n : Nat) (a : Word) : Option Word :=
  if bitsOf a 62 2 = 1 then
    (relCore n a).map fun t => coreAdr s n t ||| BitVec.ofNat 64 (bitsOf a 0 23) ||| (if mbzOk a then 0 else 0x800000)
  else some a

/-- The physical package that core `n` names by PKG or HOME `v` (R16); supervisor cores name packages physically
(log 11). -/
def pkgFor (s : State) (w : Who) (v : Nat) : Option Nat :=
  if isSupCore w.core then some v else physPkg s (pkgOf w.core) w.part v

/-- The part of a core's window that an OFFSET names, and the rules of R17, R22 and R53 that need no state of the home. R17
says what user mode meets on DIE 8; what supervisor mode meets there beside the control space and the two blocks is the
model's choice: PROTECT at every other OFFSET, and where no block lies (DESIGN CHOICE, log 73). -/
def window (w : Who) (t off : Nat) (load : Bool) : Res :=
  let df := dieField t
  if df < 8 then
    if off < 0x400000 then .ok (.slice t off)
    else if off < 0x410000 then (if load || !(w.supr || w.ldr) then .bad fPROTECT else .ok (.istore t off))
    else if off < 0x420000 then (if w.supr || w.ldr then .ok (.ctl t off) else .bad fPROTECT)
    else .bad fPROTECT
  else if df = 8 then
    if w.supr then
      if t % 1024 < 32 then (if 0x410000 ≤ off ∧ off < 0x420000 then .ok (.ctl t off) else .bad fPROTECT)
      else if t % 1024 = 32 ∨ t % 1024 = 64 then .ok (.ctl t off)
      else .bad fPROTECT
    else if w.ldr && load && t % 1024 == 64 && decide (0x20000 ≤ off) && decide (off < 0x30000) then .ok (.ctl t off)
    else .bad fPROTECT
  else .bad fPROTECT

/-- Resolve an address whose must-be-zero fields are right: the conditions of R52, R54, R57, R16, R17, R19, R22 and R53
that the issuing core judges; each failure is PROTECT. -/
def resolve (s : State) (w : Who) (a : Word) (load : Bool) : Res :=
  let sp := bitsOf a 62 2
  if sp = 0 then
    if 14 ≤ bitsOf a 48 4 then .bad fPROTECT
    else
      match pkgFor s w (bitsOf a 52 10) with
      | none => .bad fPROTECT
      | some g => window w (16384 * g + bitsOf a 38 14) (bitsOf a 0 23) load
  else if sp = 1 then
    match relCore w.core a with
    | none => .bad fPROTECT
    | some t => window w t (bitsOf a 0 23) load
  else if sp = 2 then
    if bitsOf a 52 10 = 1023 then
      (if isSupCore w.core then .ok (.sup (bitsOf a 0 52)) else .bad fPROTECT)
    else if isSupCore w.core && !w.supr then .bad fPROTECT
    else
      match pkgFor s w (bitsOf a 52 10) with
      | none => .bad fPROTECT
      | some g => .ok (.gran g (bitsOf a 0 52))
  else if bitsOf a 58 4 = 0 then
    if w.win ≤ bitsOf a 0 17 then .bad fPROTECT
    else .ok (.priv (0x300000 + 0x10000 * w.ctx + bitsOf a 0 17))
  else .ok (.mirror (bitsOf a 0 16))

/-- Core (0, 0) of the die whose agent serves an offset (R56). -/
def agentOf (pkg voff : Nat) : Nat := 16384 * pkg + 1024 * nbits voff 16 3

/-- The core at whose die an access is applied. -/
def homeOf (w : Who) : Place → Nat
  | .slice n _ => n
  | .istore n _ => n
  | .ctl n _ => n
  | .gran pkg voff => agentOf pkg voff
  | _ => w.core

/-! ## Region descriptors (R59-R61) -/

/-- Which formats a GEOM allows (R60). -/
def fmtGeomOk (fmt geom : Nat) : Bool :=
  match geom with
  | 0 => decide (fmt ≤ 5) || fmt == 9
  | 1 => fmt == 6 || fmt == 7 || fmt == 8 || fmt == 10
  | 2 => fmt == 7 || fmt == 8 || fmt == 10
  | _ => false

/-- Bytes of a block's elements. -/
def blockBytes (fmt geom : Nat) : Nat := if fmt = 6 then 16 else if geom = 1 then 32 else 16

def descWord (s : State) (n i k : Nat) : Nat := Memory.read s.mem (sliceKey n (0x410400 + 16 * i + 8 * k)) 8

/-- The valid descriptor of lowest index whose range holds an offset (R61). -/
def findDesc (s : State) (n off : Nat) : Option Nat :=
  (List.range 32).find? fun i =>
    let w0 := descWord s n i 0
    nbits w0 63 1 == 1 && decide (nbits w0 0 22 ≤ off) && decide (off < nbits w0 0 22 + 2 ^ nbits w0 45 5)

/-- Where an access finds its bytes, in which format, and what stands beside them. -/
structure View where
  key    : Nat               -- key of its first byte
  fmt    : Nat
  geom   : Nat
  hdrs   : List Nat          -- keys of the headers of the blocks it touches
  blkOff : Nat               -- offset of its first byte in its first block
  shd    : Bool
  flip   : Nat               -- key of the byte that holds FACE, for a shadow region or page
  red    : Bool
  page   : Nat               -- key of the page's first byte
  attr   : Nat               -- key of the page's attribute record
deriving DecidableEq, Repr

/-- Raw bytes at a key. -/
def rawView (key : Nat) : View := ⟨key, 0, 0, [], 0, false, 0, false, 0, 0⟩

/-- A view, or a fault with its address where that is not the access's own. -/
inductive Seen
  | ok (v : View)
  | bad (code : Nat) (adr : Option Word)
deriving DecidableEq, Repr

/-- Numbers of the blocks that `len` bytes from `rel` touch. -/
def blockList (bb rel len : Nat) : List Nat := (List.range ((rel + len - 1) / bb - rel / bb + 1)).map fun i => rel / bb + i

/-- The bytes of a slice that a descriptor covers (headers that would lie beyond the slice refuse the access: R59 is silent,
DESIGN CHOICE, log 73), in the copy that FACE and the direction choose (R69). `look` uses the
descriptor for the format alone, as a private access does (R57). -/
def descView (s : State) (n off len i : Nat) (engWrite fmtOnly : Bool) : Seen :=
  let w0 := descWord s n i 0
  let w1 := descWord s n i 1
  let fmt := nbits w0 54 4
  let geom := nbits w0 52 2
  let base := nbits w0 0 22
  let rel := off - base
  let shd := nbits w0 51 1 == 1
  let twin := shd && !fmtOnly && ((nbits w0 50 1 == 1) != engWrite)
  let bb := blockBytes fmt geom
  let hdr0 := nbits w1 0 22 + (if twin then 2 * (2 ^ nbits w0 45 5 / bb) else 0)
  let start := if twin then nbits w1 22 22 + rel else off
  let hs := if geom = 0 then [] else (blockList bb rel len).map fun b => hdr0 + 2 * b
  if hs.any fun h => decide (0x400000 ≤ h + 1) then .bad fPROTECT none
  else .ok ⟨sliceKey n start, fmt, geom, hs.map (sliceKey n), rel % bb, shd, sliceKey n (0x410400 + 16 * i + 6), false, 0, 0⟩

/-- A slice access at its home (R61, R220): the partition, the descriptor and its permission. A supervisor core belongs to no
partition: in supervisor mode it reaches the slices of every quad that a partition owns, as another core of that partition
does (log 13). -/
def sliceView (s : State) (core part : Nat) (supr : Bool) (n off len : Nat) (rd wr eng : Bool) : Seen :=
  if (if supr then (partOf s n).isNone else partOf s n ≠ some part) then .bad fPROTECT none
  else
    match findDesc s n off with
    | none => .bad fPROTECT none
    | some i =>
      let w0 := descWord s n i 0
      let r := nbits w0 (if core = n then 62 else 60) 1 == 1
      let w := nbits w0 (if eng then 58 else if core = n then 61 else 59) 1 == 1
      if nbits w0 0 22 + 2 ^ nbits w0 45 5 < off + len ∨ (rd && !r) ∨ (wr && !w) then .bad fPROTECT none
      else descView s n off len i (eng && wr) false

/-- An access to the own private window (R57): its first byte lies in the window, and `resolve` judges no other (DESIGN CHOICE,
log 73). -/
def privView (s : State) (n off len : Nat) : Seen :=
  match findDesc s n off with
  | none => .ok (rawView (sliceKey n off))
  | some i =>
    match descView s n off len i false true with
    | .ok v => .ok { v with shd := false }
    | b => b

/-! ## The Granary's page tables (R66) -/

def frameOf (e : Nat) : Nat := nbits e 12 35

/-- `n` frames from `f` on are installed in a package: 8 TiB lie in it, and at most 24 TiB behind its CXL ports (R9). -/
def installed (pkg f n : Nat) : Bool :=
  decide (f + n ≤ 0x8000000) || decide (f + n ≤ 0x8000000 + Nat.min 0x18000000 (Config.cxlFrames pkg))

/-- A pointer entry is well-formed: PSZ 00 and zero in every field but V and FRAME. -/
def pointerOk (pkg e : Nat) : Bool := nbits e 47 16 == 0 && nbits e 0 12 == 0 && installed pkg (frameOf e) 1

/-- Frames of a page by PSZ. -/
def psFrames (psz : Nat) : Nat := if psz = 0 then 1 else if psz = 1 then 32 else 16384

/-- A leaf entry is well-formed. -/
def leafOk (pkg e : Nat) : Bool :=
  let fmt := nbits e 56 4
  let geom := nbits e 54 2
  let shd := nbits e 53 1 == 1
  let red := nbits e 51 1 == 1
  let psz := nbits e 49 2
  psz != 3 && nbits e 47 2 == 0 && installed pkg (frameOf e) (psFrames psz) && fmtGeomOk fmt geom &&
    !((shd || red) && psz != 0) && !(shd && red) && !(red && !((fmt == 1 || fmt == 2) && geom == 0))

/-- The root of a partition's table in a package and the VOFF of its attribute table; the supervisor sets them in every
agent. -/
def rootOf (s : State) (pkg part : Nat) : Option (Nat × Nat) :=
  (s.roots.find? fun r => r.1 == 32 * pkg + part).map fun r => r.2

def tableEntry (s : State) (pkg frame idx : Nat) : Nat := Memory.read s.mem (granKey pkg (65536 * frame + 8 * idx)) 8

/-- Key of the entry that a leaf was read from. -/
def entryKey (pkg frame idx : Nat) : Nat := granKey pkg (65536 * frame + 8 * idx)

/-- What a walk finds: a leaf with the key of its entry, or a fault. -/
inductive Walk
  | leaf (pte entry : Nat)
  | bad (code : Nat)
deriving DecidableEq, Repr

/-- Walk three levels from a first-level table (R66). `ptrGood` judges a pointer, `leafGood` a leaf. -/
def walkFrom (s : State) (pkg root voff : Nat) (ptrGood leafGood : Nat → Bool) : Walk :=
  let e1 := tableEntry s pkg root (nbits voff 40 12)
  if nbits e1 63 1 = 0 then .bad fPAGE
  else if !ptrGood e1 then .bad fPROTECT
  else
    let e2 := tableEntry s pkg (frameOf e1) (nbits voff 28 12)
    if nbits e2 63 1 = 0 then .bad fPAGE
    else if nbits e2 49 2 = 2 then
      (if leafGood e2 then .leaf e2 (entryKey pkg (frameOf e1) (nbits voff 28 12)) else .bad fPROTECT)
    else if !ptrGood e2 then .bad fPROTECT
    else
      let e3 := tableEntry s pkg (frameOf e2) (nbits voff 16 12)
      if nbits e3 63 1 = 0 then .bad fPAGE
      else if nbits e3 49 2 = 2 ∨ !leafGood e3 then .bad fPROTECT
      else .leaf e3 (entryKey pkg (frameOf e2) (nbits voff 16 12))

/-- The walk of a partition's table; a package whose root nobody has set has no page. -/
def walkPart (s : State) (pkg part voff : Nat) : Walk :=
  match rootOf s pkg part with
  | none => .bad fPAGE
  | some r => walkFrom s pkg r.1 voff (pointerOk pkg) (leafOk pkg)

/-- Bytes of a leaf's page. -/
def pageBytes (pte : Nat) : Nat := 65536 * psFrames (nbits pte 49 2)

/-- The translation that an agent holds for an offset. -/
def findTlb (tlb : List Tlb) (part voff : Nat) : Option Tlb :=
  tlb.find? fun t => t.part == part && decide (t.base ≤ voff) && decide (voff < t.base + t.size)

/-- Two entries of one page, which PUBLISH may have flipped in between. -/
def samePage (a b : Nat) : Bool := nbits a 0 52 == nbits b 0 52 && nbits a 53 11 == nbits b 53 11

/-- Translate an offset at its agent: the entry that the agent holds, or what its table says now. An entry that the
table has left behind may be gone (log 14). An access that the agent holds keeps its translation `kept`, whatever has become of
the entry (R364). -/
def translate (s : State) (pkg part voff : Nat) (kept : Option Nat := none) : Walk :=
  let w := walkPart s pkg part voff
  let held := (findTlb (dieAt s (dieOf (agentOf pkg voff))).tlb part voff).map fun t => t.pte.toNat
  match kept, held, w with
  | some k, some t, .leaf pte e => .leaf (if samePage k t then t else k) (if samePage k pte then e else 0)
  | some k, some t, .bad _ => .leaf (if samePage k t then t else k) 0
  | some k, none, .leaf pte e => if samePage k pte then .leaf pte e else .leaf k 0
  | some k, none, .bad _ => .leaf k 0
  | none, none, _ => w
  | none, some t, .leaf pte e => if t = pte then w else if Config.keeps s.free then .leaf t e else w
  | none, some t, .bad c => if Config.keeps s.free then .leaf t 0 else .bad c

/-- Does the agent need a walk before it can apply an access (R65)? -/
def needsWalk (s : State) (pkg part voff : Nat) : Bool :=
  (findTlb (dieAt s (dieOf (agentOf pkg voff))).tlb part voff).isNone

/-- Enter a translation at the agent. -/
def enterTlb (s : State) (pkg part voff pte : Nat) : State :=
  let d := dieOf (agentOf pkg voff)
  let k := dieAt s d
  let sz := pageBytes pte
  setDie s d { k with tlb := k.tlb ++ [⟨part, voff / sz * sz, sz, BitVec.ofNat 64 pte⟩] }

/-- The physical offset of a byte of a page. -/
def physOf (pte voff : Nat) : Nat := 65536 * frameOf pte + voff % pageBytes pte

/-- The Granary address of an offset as core `n` names it. -/
def granAdr (s : State) (n pkg voff : Nat) : Word :=
  BitVec.ofNat 64 (9223372036854775808 + virtPkg s n pkg * 4503599627370496 + voff % 4503599627370496)

/-- The entry under which an access is held for the page of an offset. -/
def keptEntry (kept : List (Nat × Nat)) (voff : Nat) : Option Nat :=
  (kept.find? fun e => decide (e.1 ≤ voff) && decide (voff < e.1 + pageBytes e.2)).map fun e => e.2

/-- Key of a byte that the agent reaches for itself: no permission, no fault but those of R67. -/
def agentByte (s : State) (n pkg part voff : Nat) (kept : List (Nat × Nat) := []) : Seen :=
  match translate s pkg part voff (keptEntry kept voff) with
  | .bad c => if c = fPAGE then .bad fPAGE (some (granAdr s n pkg voff)) else .bad c none
  | .leaf pte _ => .ok (rawView (granKey pkg (physOf pte voff)))

/-- Keys of header bytes, one after the other. -/
def headerKeys (s : State) (n pkg part : Nat) (kept : List (Nat × Nat)) : List Nat → List Nat → Seen ⊕ List Nat
  | [], acc => .inr acc
  | v :: r, acc =>
    match agentByte s n pkg part v kept with
    | .ok w => headerKeys s n pkg part kept r (acc ++ [w.key])
    | b => .inl b

/-- Does a page's leaf need its attribute record? -/
def needsAttr (pte : Nat) : Bool := nbits pte 53 1 == 1 || nbits pte 51 1 == 1 || nbits pte 54 2 != 0

/-- Offset of the attribute record of a page, the table at `att`. -/
def attrOff (att pte : Nat) : Nat := att + 32 * nbits pte 0 12

/-- Offsets of the headers of the blocks that `len` bytes of a page from `off` on touch, its attribute record at a key. -/
def headOffs (s : State) (pte at' off len : Nat) (twin : Bool) : List Nat :=
  let bb := blockBytes (nbits pte 56 4) (nbits pte 54 2)
  let hv := Memory.read s.mem at' 8 % 2 ^ 52 + (if twin then 2 * (pageBytes pte / bb) else 0)
  (blockList bb off len).map fun b => hv + 2 * b

/-- Every offset that an agent translates for a context's access of `len` bytes: its own, its page's attribute record's and its
blocks' headers' (R67, R69). -/
def usedOffs (s : State) (n part pkg voff len : Nat) (kept : List (Nat × Nat)) : List Nat :=
  match translate s pkg part voff (keptEntry kept voff), rootOf s pkg part with
  | .leaf pte _, some r =>
    if !needsAttr pte then [voff]
    else
      let a := attrOff r.2 pte
      match agentByte s n pkg part a kept with
      | .ok at' =>
        if nbits pte 54 2 = 0 then [voff, a]
        else voff :: a :: headOffs s pte at'.key (voff % pageBytes pte) len (nbits pte 53 1 == 1 && nbits pte 52 1 == 1)
      | .bad .. => [voff, a]
  | _, _ => [voff]

/-- The pages that those offsets lie in, each with its entry. -/
def usedPages (s : State) (n part pkg voff len : Nat) (kept : List (Nat × Nat)) : List (Nat × Nat) :=
  ((usedOffs s n part pkg voff len kept).filterMap fun v =>
    match translate s pkg part v (keptEntry kept v) with
    | .leaf pte _ => some (v / pageBytes pte * pageBytes pte, pte)
    | .bad _ => none).eraseDups

/-- A Granary access at its agent (R65-R67, R69). `early` names a fault that the page itself gives before its attribute record
is needed, 0 for none (R254, R318). Of a record's bytes 0-15 only HDRV and TWINF are used: what their must-be-zero bits hold
is ignored (R67 is silent, DESIGN CHOICE, log 73). -/
def granView (s : State) (n part : Nat) (supr : Bool) (pkg voff len : Nat) (rd wr eng : Bool)
    (kept : List (Nat × Nat) := []) (early : View → Nat := fun _ => 0) : Seen :=
  match translate s pkg part voff (keptEntry kept voff) with
  | .bad c => .bad c none
  | .leaf pte entry =>
    let off := voff % pageBytes pte
    let ok := (!rd || nbits pte 62 1 == 1) && (!wr || nbits pte (if eng then 60 else 61) 1 == 1)
    let fmt := nbits pte 56 4
    let geom := nbits pte 54 2
    let shd := nbits pte 53 1 == 1
    let red := nbits pte 51 1 == 1
    let bb := blockBytes fmt geom
    let base := granKey pkg (65536 * frameOf pte)
    let plain : View := ⟨base + off, fmt, geom, [], off % bb, shd, if entry = 0 then 0 else entry + 6, red, base, 0⟩
    if pageBytes pte < off + len ∨ (!supr && !ok) then .bad fPROTECT none
    else if early plain ≠ 0 then .bad (early plain) none
    else if !needsAttr pte then .ok plain
    else
      match rootOf s pkg part with
      | none => .bad fPAGE none
      | some r =>
        match agentByte s n pkg part (attrOff r.2 pte) kept with
        | .bad c a => .bad c a
        | .ok at' =>
          let twin := shd && ((nbits pte 52 1 == 1) != (eng && wr))
          let tf := Memory.read s.mem (at'.key + 8) 8 % 2 ^ 35
          let key := if twin then granKey pkg (65536 * tf + off) else base + off
          let v := { plain with key := key, attr := at'.key }
          if geom = 0 then .ok v
          else
            match headerKeys s n pkg part kept (headOffs s pte at'.key off len twin) [] with
            | .inl b => b
            | .inr hs => .ok { v with hdrs := hs }

/-! ## The supervisor table (R19) -/

/-- A pointer of the supervisor table, which lies in the in-package Granary, is well-formed. -/
def supPtrOk (pkg e : Nat) : Bool := pointerOk pkg e && decide (frameOf e < 0x8000000)

/-- A leaf of the supervisor table is well-formed. -/
def supLeafOk (pkg e : Nat) : Bool :=
  nbits e 51 9 == 0 && nbits e 49 2 != 3 && nbits e 47 2 == 0 && nbits e 1 11 == 0 &&
    decide (frameOf e + psFrames (nbits e 49 2) ≤ 0x8000000) && installed pkg (frameOf e) 1

/-- The walk of a supervisor core's table, or the translation that it holds. -/
def supWalk (s : State) (n voff : Nat) : Walk :=
  let k := coreAt s n
  let w := walkFrom s (pkgOf n) (bitsOf k.sptr 12 35) voff (supPtrOk (pkgOf n)) (supLeafOk (pkgOf n))
  match findTlb k.stlb 0 voff, w with
  | some t, .leaf pte e => if t.pte = BitVec.ofNat 64 pte then w else if Config.keeps s.free then .leaf t.pte.toNat e else w
  | some t, .bad _ => if Config.keeps s.free then .leaf t.pte.toNat 0 else w
  | none, _ => w

/-- The page of a supervisor core's own space that an offset lies in: its first offset, its bytes and the key of its first byte. With
EN = 0 all of the in-package Granary counts as one (R19, log 73). -/
def supPage (s : State) (n voff : Nat) : Option (Nat × Nat × Nat) :=
  if !(coreAt s n).sptr.getLsbD 0 then some (0, 0x80000000000, granKey (pkgOf n) 0)
  else
    match supWalk s n voff with
    | .leaf pte _ => some (voff / pageBytes pte * pageBytes pte, pageBytes pte, granKey (pkgOf n) (65536 * frameOf pte))
    | .bad _ => none

/-- The bytes of a page of that space that an access has been translated to. -/
def ownView (g : Nat × Nat × Nat) (voff len : Nat) : Seen :=
  if g.1 ≤ voff ∧ voff + len ≤ g.1 + g.2.1 then .ok (rawView (g.2.2 + (voff - g.1))) else .bad fPROTECT none

/-- Translate `len` bytes from an offset of a supervisor core's own space: the key of the first, or PAGE or PROTECT. `perm` is the
bit of the leaf that must be set: 62 load, 61 store, 60 fetch. With EN = 0, an offset at or beyond the 8 TiB of in-package Granary
names no byte: PROTECT (R19 names no fault there, DESIGN CHOICE, log 73). -/
def supView (s : State) (n : Nat) (mode : Bool) (voff perm : Nat) (len : Nat := 1) : Seen :=
  let k := coreAt s n
  let pkg := pkgOf n
  if !k.sptr.getLsbD 0 then
    (if mode && decide (voff + len ≤ 0x80000000000) then .ok (rawView (granKey pkg voff)) else .bad fPROTECT none)
  else
    match supWalk s n voff with
    | .bad c => .bad c none
    | .leaf pte _ =>
      if nbits pte perm 1 = 0 ∨ (!mode ∧ nbits pte 0 1 = 0) ∨ pageBytes pte < voff % pageBytes pte + len then .bad fPROTECT none
      else .ok (rawView (granKey pkg (physOf pte voff)))

/-- Keep the translation of an offset at the supervisor core, up to 256 of them. -/
def supKeep (s : State) (n voff : Nat) : State :=
  let k := coreAt s n
  if !k.sptr.getLsbD 0 ∨ (findTlb k.stlb 0 voff).isSome then s
  else
    match walkFrom s (pkgOf n) (bitsOf k.sptr 12 35) voff (supPtrOk (pkgOf n)) (supLeafOk (pkgOf n)) with
    | .bad _ => s
    | .leaf pte _ =>
      let sz := pageBytes pte
      setCore s n { k with stlb := (k.stlb ++ [(⟨0, voff / sz * sz, sz, BitVec.ofNat 64 pte⟩ : Tlb)]).drop (k.stlb.length - 255) }

end Sys2Proof.Machine
end

