-- ==== Sys2Proof/Machine/Barriers.lean ====
section
/-! DEFINITION. Sys2Proof/Machine/Barriers.lean: barrier records and their phases (R45-R47, R262). -/

namespace Sys2Proof.Machine

/-- The OFFSET of record `i` of a scope and the core that holds it for a context of core `n` (R45). -/
def barCore (n : Nat) : Scope → Nat
  | .quad => reeveOf n
  | .die => n / 1024 * 1024
  | _ => n / 16384 * 16384
def barOff (c : Scope) (i : Nat) : Nat :=
  match c with
  | .quad => 0x411000 + 0x100 * i
  | .die => 0x412000 + 0x100 * i
  | .pkg => 0x413000 + 0x100 * i
  | _ => 0x414000 + 0x100 * i
def barKey (n : Nat) (c : Scope) (i : Nat) : Nat := sliceKey (barCore n c) (barOff c i)

/-- The scope of the record that a control-space OFFSET lies in. -/
def barScopeOf (off : Nat) : Scope :=
  if off < 0x412000 then .quad else if off < 0x413000 then .die else if off < 0x414000 then .pkg else .pod

/-- A core's member number at a scope (R12, R46). -/
def memberOf (n : Nat) : Scope → Nat
  | .quad => 2 * (rowOf n % 2) + colOf n % 2
  | .die => n % 1024
  | .pkg => dieField n
  | _ => posOf n

/-- Bits of a scope's mask. -/
def maskBits : Scope → Nat
  | .quad => 4
  | .die => 1024
  | _ => 8

/-- The members that a mask in memory names. -/
def maskList (s : State) (key : Nat) (c : Scope) : List Nat :=
  let m := Memory.read s.mem (key + 0x80) ((maskBits c + 7) / 8)
  (List.range (maskBits c)).filter fun i => m / 2 ^ i % 2 == 1

def barEn (b : Barrier) : Bool := b.word.getLsbD 63
/-- TMO in microseconds, 0 for none. -/
def barTmo (b : Barrier) : Nat := bitsOf b.word 32 16

/-- The scope of a record by its key. -/
def keyScope (key : Nat) : Scope := barScopeOf (key % 8388608)

/-- A write to a record takes effect: it governs the phase that starts, and no member has arrived since (R45, R47). -/
def barTake (s : State) (key : Nat) (b : Barrier) : Barrier :=
  { b with
    word := BitVec.ofNat 64 (Memory.read s.mem key 8)
    mask := maskList s key (keyScope key)
    last := []
    pending := false }

/-- A store has changed a record's word or mask (R45). -/
def barWritten (s : State) (key : Nat) : State :=
  let b := barAt s key
  if b.arrived = [] then setBar s key (barTake s key b) else setBar s key { b with pending := true }

/-- What a load of word 0 returns (R45). -/
def barRead (s : State) (key : Nat) : Nat :=
  let b := barAt s key
  Memory.read s.mem key 8 / 4294967296 * 4294967296 + b.phase * 65536 + b.arrived.length % 65536

/-- A BWAIT of phase `ph` returns: 0 for a completed phase, which acquires, or 1 for an aborted one (R47). -/
def bwaitDone (t : Ctx) (cycle : Nat) (aborted : Bool) (vec : Vec16) (d : Reg) : Ctx :=
  let t := t.put cycle 1 (xCode d) (if aborted then 1 else 0) allBits
  let t := { t with
    st := .running
    cause := .none
    bwait := none
    dep := if aborted then t.dep else vmax t.dep vec }
  t.goto (t.pc + 4)

/-- The phase of a BWAIT ends while its context is saved: it returns when it executes again (R263). -/
def bwaitEnded (t : Ctx) (aborted : Bool) (vec : Vec16) (w : BWait) : Ctx :=
  { t with
    bwait := some { w with ended := some aborted }
    dep := if aborted then t.dep else vmax t.dep vec }

/-- Let every BWAIT of a phase go on. -/
def wakeBwaits (s : State) (key ph : Nat) (aborted : Bool) (vec : Vec16) : State :=
  { s with cores := s.cores.map fun e =>
      (e.1, { e.2 with ctxs := e.2.ctxs.map fun x =>
        match x.2.bwait with
        | some w =>
          if w.key = key ∧ w.phase = ph ∧ x.2.cause = .bwait then
            (if x.2.st = .parked ∧ !x.2.redo then (x.1, bwaitDone x.2 e.2.cycle aborted vec w.d)
             else (x.1, bwaitEnded x.2 aborted vec w))
          else x
        | none => x }) }

/-- Is a partition's share of its package's Crier queue full (R163)? -/
def shareFull (s : State) (pkg part : Nat) : Bool :=
  let q := (pkgAt s pkg).queue
  decide (256 ≤ q.length) || decide (32 ≤ (q.filter fun m => m.part == part).length)

/-- Queue a Crier message of a core (R162, R163); an arrival's holds the member bit of its package. -/
def crierMsg (s : State) (n kind poff : Nat) (val : Word) (acc : Option Access) (vec : Vec16) : State :=
  let g := pkgAt s (pkgOf n)
  let part := partNum s n
  let m : CMsg :=
    { seq := 0
      kind := kind
      pos := posOf n
      part := part
      inc := partInc s (pkgOf n) part
      poff := poff
      val := val
      body := if kind = 3 then [2 ^ posOf n] else []
      core := n
      acc := acc
      vec := vec }
  setPkg s (pkgOf n) { g with queue := g.queue ++ [m] }

/-- Is the member's arrival in the current phase made, or on its way (R46, R262)? -/
def arrivedNow (b : Barrier) (m : Nat) : Bool := b.arrived.contains m || b.issued.contains m

/-- The arrival of core `n`'s package at a POD barrier goes out on the Crier (R262). -/
def issuePod (s : State) (n key : Nat) (vec : Vec16) : State :=
  let s := crierMsg s n 3 (key % 8388608 / 256 % 16) 0 none vec
  setBar s key { barAt s key with issued := posOf n :: (barAt s key).issued }

/-- The current phase of a record ends, completed or aborted (R46, R47), and what waits on it in BWAIT goes on. -/
def closePhase (s : State) (key : Nat) (aborted : Bool) : State :=
  let b := barAt s key
  let ph := b.phase
  let b' := { b with
    phase := (ph + 1) % 65536
    arrived := []
    last := b.last.map fun l => if l.2.1 = ph ∧ l.2.2 = none then (l.1, ph, some aborted) else l
    vec := zeroVec
    ovec := if aborted then b.ovec else vmax b.ovec b.vec }
  let b' := if b'.pending then barTake s key b' else b'
  wakeBwaits (setBar s key b') key ph aborted b.vec

/-- A member is marked as arrived. -/
def markArrived (s : State) (key m : Nat) (vec : Vec16) : State :=
  let b := barAt s key
  setBar s key { b with
    arrived := m :: b.arrived
    last := (m, b.phase, none) :: b.last.filter fun l => l.1 != m
    vec := vmax b.vec vec }

/-- Has every member of the mask arrived? -/
def allArrived (b : Barrier) : Bool := b.mask.all fun x => b.arrived.contains x

/-- The contexts that stall at a second BARR of a record: core, context, the phase they stall in and their stall count. -/
def stalledBarrs (s : State) (key : Nat) : List (Nat × Nat × Nat × Nat) :=
  s.cores.flatMap fun e => e.2.ctxs.filterMap fun x =>
    match x.2.block with
    | .barr k ph st => if k = key ∧ x.2.st = .running then some (e.1, x.1, ph, st) else none
    | _ => none

/-- May a stalled arrival of core `n` count in the current phase, once its message has room (R46, R262)? -/
def countsNow (s : State) (key n : Nat) : Bool :=
  let b := barAt s key
  barEn b && b.mask.contains (memberOf n (keyScope key)) && !arrivedNow b (memberOf n (keyScope key))

/-- Does an arrival of core `n` at a POD barrier lack room in its partition's Crier share (R163)? -/
def noShare (s : State) (key n : Nat) : Bool := keyScope key == .pod && shareFull s (pkgOf n) (partNum s n)

/-- The first of them that stalled in a phase now over and can be counted in the current one. Of several contexts of one member the
first in the order of cores and contexts counts (R46 names none, DESIGN CHOICE, log 79). -/
def nextStalled (s : State) (key : Nat) : Option (Nat × Nat × Nat × Nat) :=
  (stalledBarrs s key).find? fun w => w.2.2.1 != (barAt s key).phase && countsNow s key w.1 && !noShare s key w.1

/-- Count stalled arrivals in the phases that follow, at most `n` of them (R46, R262): each context goes on behind its BARR. -/
def countStalled (s : State) (key : Nat) : Nat → State
  | 0 => s
  | n + 1 =>
    match nextStalled s key with
    | none => s
    | some (k, c, _, st) =>
      let t := ctxAt s k c
      let vec := ctxVec s k c
      let s := setCtx s k c { t.goto (t.pc + 4) with block := .none, stall := (coreAt s k).cycle + st + 1 }
      if keyScope key = .pod then countStalled (issuePod s k key vec) key n
      else
        let s := markArrived s key (memberOf k (keyScope key)) vec
        countStalled (if allArrived (barAt s key) then closePhase s key false else s) key n

/-- Those whose member has arrived before them in the current phase stall until it ends. -/
def stallOn (s : State) (key : Nat) : State :=
  let b := barAt s key
  { s with cores := s.cores.map fun e => (e.1, { e.2 with ctxs := e.2.ctxs.map fun x =>
      match x.2.block with
      | .barr k ph st =>
        if k = key ∧ ph ≠ b.phase ∧ arrivedNow b (memberOf e.1 (keyScope key)) then (x.1, { x.2 with block := .barr k b.phase st }) else x
      | _ => x }) }

/-- Stalled arrivals whose phase is over count, and those behind them stall on. -/
def recount (s : State) (key : Nat) : State := stallOn (countStalled s key (stalledBarrs s key).length) key

/-- The current phase of a record ends, completed or aborted (R46, R47): its BWAITs go on, and the arrivals that stalled in it
count in the next phase. -/
def endPhase (s : State) (key : Nat) (aborted : Bool) : State := recount (closePhase s key aborted) key

/-- There is room in a package's Crier queue: arrivals at POD barriers that stalled for want of it count first (R262). -/
def recountPods (s : State) (pkg : Nat) : State :=
  (s.bars.filter fun e => pkgOf (e.1 / 8388608) == pkg && keyScope e.1 == .pod).foldl (fun s e => recount s e.1) s

/-- A member arrives: it is marked, and the phase completes when every member of the mask has arrived (R46). -/
def arrive (s : State) (key m : Nat) (vec : Vec16) : State :=
  let s := markArrived s key m vec
  if allArrived (barAt s key) then endPhase s key false else s

/-- The phase that a BWAIT of member `m` waits on; 65536 stands for the phase in which an arrival that is still on its way
will be counted (R47). -/
def waitPhase (b : Barrier) (m : Nat) : Nat :=
  if b.issued.contains m then 65536
  else match b.last.find? fun l => l.1 == m with
    | some l => l.2.1
    | none => b.phase

/-- The outcome of the phase in which member `m` last arrived, if it is `ph` and has ended (R47). -/
def phaseOver (b : Barrier) (m ph : Nat) : Option Bool := (b.last.find? fun l => l.1 == m && l.2.1 == ph).bind fun l => l.2.2

/-- BWAITs that wait for an arrival on its way now wait for the phase that counted it. -/
def settleBwaits (s : State) (key m ph : Nat) : State :=
  { s with cores := s.cores.map fun e =>
      (e.1, { e.2 with ctxs := e.2.ctxs.map fun x =>
        match x.2.bwait with
        | some w => if w.key = key ∧ w.member = m ∧ w.phase = 65536 then (x.1, { x.2 with bwait := some { w with phase := ph } }) else x
        | none => x }) }

/-- The address of a record as core `n` names it. -/
def barAdr (s : State) (n key : Nat) : Word := coreAdr s n (key / 8388608) ||| BitVec.ofNat 64 (key % 8388608)

/-- The core that a missing member's BARTIMEOUT goes to (R46), or none. -/
def timeoutCore (key m : Nat) : Option Nat :=
  let n := key / 8388608
  match keyScope key with
  | .quad => some (n + m / 2 * 32 + m % 2)
  | .die => some (n + m)
  | .pkg => some (n + 1024 * m)
  | _ => if posOf n = m then some n else none

/-- TMO expires: the phase aborts, and every member that had not arrived is told (R46). -/
def barTimeout (s : State) (key : Nat) : State :=
  let b := barAt s key
  if barTmo b = 0 ∨ b.arrived = [] then s
  else
    let missing := b.mask.filter fun m => !b.arrived.contains m
    missing.foldl (fun s m =>
      match timeoutCore key m with
      | some n => raiseNotice s n 0 fBARTIMEOUT (barAdr s n key)
      | none => s) (endPhase s key true)

/-- The cores that a record's mask covers. -/
def barMembers (key : Nat) (b : Barrier) : List Nat :=
  let n := key / 8388608
  match keyScope key with
  | .quad => b.mask.map fun m => n + m / 2 * 32 + m % 2
  | .die => b.mask.map fun m => n + m
  | .pkg => b.mask.flatMap fun m => (List.range 1024).map fun i => n + 1024 * m + i
  | _ => b.mask.flatMap fun m => (List.range 8192).map fun i => n / 131072 * 131072 + 16384 * m + i

end Sys2Proof.Machine
end

