-- ==== Sys2Proof/Machine/Numbers.lean ====
section
/-! DEFINITION. Sys2Proof/Machine/Numbers.lean: the number formats and how results are rounded (spec file 04). Values
are exact dyadic numbers, so every rounding happens in one place, `roundFix`. -/

namespace Sys2Proof.Machine

/-- An exact dyadic number `(-1)^neg man 2^exp`; a zero keeps its sign. -/
structure Dy where
  neg : Bool
  man : Nat
  exp : Int
deriving DecidableEq, Repr

/-- A decoded element: a NaN with its payload at the top of 23 bits, an infinity, or an exact number. -/
inductive Fp
  | nan (neg : Bool) (pay : Nat)
  | inf (neg : Bool)
  | fin (d : Dy)
deriving DecidableEq, Repr

/-- How a format uses its highest exponent: infinities and NaNs, one NaN (E4M3), or numbers only (E2M1). -/
inductive Top | ieee | e4m3 | finite
deriving DecidableEq, Repr

/-- A floating-point format (R77): exponent bits, mantissa bits, bias. -/
structure Fmt where
  eb : Nat
  mb : Nat
  bias : Int
  top : Top
deriving DecidableEq, Repr

def fmtF32 : Fmt := ⟨8, 23, 127, .ieee⟩
def fmtBF16 : Fmt := ⟨8, 7, 127, .ieee⟩
def fmtF16 : Fmt := ⟨5, 10, 15, .ieee⟩
def fmtE4M3 : Fmt := ⟨4, 3, 7, .e4m3⟩
def fmtE5M2 : Fmt := ⟨5, 2, 15, .ieee⟩
def fmtE2M1 : Fmt := ⟨2, 1, 1, .finite⟩

/-- Width of an element of the format. -/
def Fmt.width (f : Fmt) : Nat := 1 + f.eb + f.mb

/-- The sign bit of the format, set or clear. -/
def Fmt.signBit (f : Fmt) (neg : Bool) : Nat := if neg then 2 ^ (f.eb + f.mb) else 0

/-- Flags of a lane (R89): NV, DZ, OF, UF, NX. -/
abbrev Flags := BitVec 5
def flNV : Flags := 16
def flDZ : Flags := 8
def flOF : Flags := 4
def flUF : Flags := 2
def flNX : Flags := 1

/-- The value of an element's bits (R77). -/
def Fmt.unpack (f : Fmt) (bits : Nat) : Fp :=
  let m := bits % 2 ^ f.mb
  let e := bits / 2 ^ f.mb % 2 ^ f.eb
  let neg := bits / 2 ^ (f.mb + f.eb) % 2 == 1
  let norm : Fp := .fin ⟨neg, m + 2 ^ f.mb, (e : Int) - f.bias - f.mb⟩
  if e = 0 then .fin ⟨neg, m, 1 - f.bias - f.mb⟩
  else if e = 2 ^ f.eb - 1 then
    match f.top with
    | .ieee => if m = 0 then .inf neg else .nan neg (m * 2 ^ (23 - f.mb))
    | .e4m3 => if m = 2 ^ f.mb - 1 then .nan neg (m * 2 ^ (23 - f.mb)) else norm
    | .finite => norm
  else norm

/-- Is the NaN payload that of a signalling NaN (R77)? -/
def sigPay (pay : Nat) : Bool := decide (pay < 4194304)

/-- A NaN of the format with the sign and the top payload bits that fit, quiet (R88). -/
def Fmt.packNan (f : Fmt) (neg : Bool) (pay : Nat) : Nat :=
  match f.top with
  | .e4m3 => f.signBit neg + 127
  | _ =>
    let q := if sigPay pay then pay + 4194304 else pay
    f.signBit neg + (2 ^ f.eb - 1) * 2 ^ f.mb + q / 2 ^ (23 - f.mb) % 2 ^ f.mb

/-- The canonical quiet NaN (R77). -/
def Fmt.canonNan (f : Fmt) : Nat := f.packNan false 4194304

/-- Infinity; E4M3 and E2M1 have none and take their largest number (R85). -/
def Fmt.maxFinite (f : Fmt) (neg : Bool) : Nat :=
  f.signBit neg +
  match f.top with
  | .ieee => (2 ^ f.eb - 1) * 2 ^ f.mb - 1
  | .e4m3 => (2 ^ f.eb - 1) * 2 ^ f.mb + 2 ^ f.mb - 2
  | .finite => 2 ^ (f.eb + f.mb) - 1
def Fmt.infinity (f : Fmt) (neg : Bool) : Nat :=
  match f.top with
  | .ieee => f.signBit neg + (2 ^ f.eb - 1) * 2 ^ f.mb
  | _ => f.maxFinite neg

/-- Rounding modes (R84): RNE, RTZ, RUP, RDN; SR rounds as RNE where R86 does not name the conversion. -/
inductive Rm | rne | rtz | rup | rdn
deriving DecidableEq, Repr

def rmOf (round : BitVec 5) : Rm :=
  match round.toNat % 8 with | 1 => .rtz | 2 => .rup | 3 => .rdn | _ => .rne
def isSR (round : BitVec 5) : Bool := round.toNat % 8 == 4
def dazOf (round : BitVec 5) : Bool := round.getLsbD 3
def ftzOf (round : BitVec 5) : Bool := round.getLsbD 4

/-- Bits needed to write a number. -/
def bitLen (n : Nat) : Nat := if n = 0 then 0 else Nat.log2 n + 1

/-- Does the overflow table of R85 give infinity (RNE, and the directed mode away from zero)? -/
def overflowInf (rm : Rm) (neg : Bool) : Bool :=
  match rm with | .rne => true | .rtz => false | .rup => !neg | .rdn => neg

/-- Round an exact magnitude, with `sticky` for a rest below its last bit, to the format (R85): bits and the flags OF, UF
and NX. `sat` saturates to the largest number. UF is judged on the rounded result: one that is nonzero, below the smallest
normal and inexact; a result that rounds to zero is inexact only. -/
def roundFix (f : Fmt) (rm : Rm) (sat : Bool) (d : Dy) (sticky : Bool) : Nat × Flags :=
  if d.man = 0 ∧ !sticky then (f.signBit d.neg, 0)
  else
    let emin : Int := 1 - f.bias
    let top : Int := d.exp + (bitLen d.man : Int) - 1
    let q : Int := (if top < emin then emin else top) - f.mb
    let sh : Int := q - d.exp
    let kept : Nat := if sh ≤ 0 then d.man * 2 ^ (-sh).toNat else d.man / 2 ^ sh.toNat
    let rest : Nat := if sh ≤ 0 then 0 else d.man % 2 ^ sh.toNat
    let unit : Nat := if sh ≤ 0 then 1 else 2 ^ sh.toNat
    let inexact : Bool := rest != 0 || sticky
    let above : Bool := decide (unit < 2 * rest) || (decide (2 * rest = unit) && sticky)
    let tie : Bool := decide (2 * rest = unit) && !sticky
    let inc : Bool :=
      match rm with
      | .rne => above || (tie && kept % 2 == 1)
      | .rtz => false
      | .rup => inexact && !d.neg
      | .rdn => inexact && d.neg
    let r : Nat := if inc then kept + 1 else kept
    let big : Bool := decide (2 ^ (f.mb + 1) ≤ r)
    let r' : Nat := if big then r / 2 else r
    let q' : Int := if big then q + 1 else q
    if r' < 2 ^ f.mb then
      (f.signBit d.neg + r', if inexact then (if r' = 0 then flNX else flUF ||| flNX) else 0)
    else
      let e : Int := q' + f.mb + f.bias
      let ovf : Bool :=
        match f.top with
        | .ieee => decide ((2 ^ f.eb - 1 : Int) ≤ e)
        | .e4m3 => decide ((2 ^ f.eb - 1 : Int) < e) || (e == (2 ^ f.eb - 1 : Int) && r' == 2 ^ (f.mb + 1) - 1)
        | .finite => decide ((2 ^ f.eb - 1 : Int) < e)
      if ovf then
        (if sat || !overflowInf rm d.neg then f.maxFinite d.neg else f.infinity d.neg, flOF ||| flNX)
      else (f.signBit d.neg + e.toNat * 2 ^ f.mb + (r' - 2 ^ f.mb), if inexact then flNX else 0)

/-- The smallest normal number's bits. -/
def Fmt.minNormal (f : Fmt) : Nat := 2 ^ f.mb

/-- FTZ (R87): a rounded result that is nonzero and below the smallest normal becomes zero of its sign, with UF and
NX. -/
def flushRes (f : Fmt) (ftz : Bool) (r : Nat × Flags) : Nat × Flags :=
  let mag := r.1 % 2 ^ (f.eb + f.mb)
  if ftz ∧ mag ≠ 0 ∧ mag < f.minNormal then (r.1 - mag, r.2 ||| flUF ||| flNX) else r

/-- `round_mode` (R85, R87). -/
def roundMode (f : Fmt) (round : BitVec 5) (d : Dy) : Nat × Flags :=
  flushRes f (ftzOf round) (roundFix f (rmOf round) false d false)

/-- `round_rne` (R85). -/
def roundRne (f : Fmt) (d : Dy) : Nat := (roundFix f .rne false d false).1

/-- DAZ (R87): a subnormal input reads as zero of the same sign. -/
def Fmt.daz (f : Fmt) (on : Bool) (bits : Nat) : Nat :=
  let mag := bits % 2 ^ (f.eb + f.mb)
  if on ∧ mag < f.minNormal then bits - mag else bits

/-- The signed mantissa of a dyadic number at a lower exponent. -/
def Dy.at (d : Dy) (e : Int) : Int := (if d.neg then -1 else 1) * (d.man * 2 ^ (d.exp - e).toNat : Nat)

/-- A dyadic number from a signed mantissa, with the sign a zero takes. -/
def mkDy (m : Int) (e : Int) (zneg : Bool) : Dy := if m = 0 then ⟨zneg, 0, e⟩ else ⟨decide (m < 0), m.natAbs, e⟩

/-- Exact sum; a zero sum of unlike signs takes `zneg`, one of like signs keeps the sign (R347). -/
def Dy.add (a b : Dy) (zneg : Bool) : Dy :=
  let e := min a.exp b.exp
  mkDy (a.at e + b.at e) e (if a.man = 0 ∧ b.man = 0 ∧ a.neg = b.neg then a.neg else zneg)

def Dy.mul (a b : Dy) : Dy := ⟨a.neg != b.neg, a.man * b.man, a.exp + b.exp⟩
def Dy.negate (a : Dy) : Dy := { a with neg := !a.neg }
/-- `a < b` as numbers. -/
def Dy.lt (a b : Dy) : Bool := let e := min a.exp b.exp; decide (a.at e < b.at e)
def Dy.eq (a b : Dy) : Bool := let e := min a.exp b.exp; a.at e == b.at e
def dyOne : Dy := ⟨false, 1, 0⟩

/-- NV of an operand that is a signalling NaN (R88). -/
def Fp.sig : Fp → Bool
  | .nan _ pay => sigPay pay
  | _ => false
def Fp.isNan : Fp → Bool
  | .nan .. => true
  | _ => false

/-- The first NaN of a list of operands, quieted, and NV when any is signalling (R88). -/
def nanOf (f : Fmt) : List Fp → Option (Nat × Flags)
  | l =>
    match l.find? Fp.isNan with
    | some (.nan n p) => some (f.packNan n p, if l.any Fp.sig then flNV else 0)
    | _ => none

/-- An invalid operation: the canonical NaN and NV (R88). -/
def invalid (f : Fmt) : Nat × Flags := (f.canonNan, flNV)

/-- Sum of two elements (R347). -/
def fpAdd (f : Fmt) (round : BitVec 5) (x y : Nat) : Nat × Flags :=
  let a := f.unpack (f.daz (dazOf round) x)
  let b := f.unpack (f.daz (dazOf round) y)
  match nanOf f [a, b] with
  | some r => r
  | none =>
    match a, b with
    | .inf n, .inf m => if n = m then (f.infinity n, 0) else invalid f
    | .inf n, _ => (f.infinity n, 0)
    | _, .inf m => (f.infinity m, 0)
    | .fin p, .fin q => roundMode f round (p.add q (rmOf round == .rdn))
    | _, _ => invalid f

/-- The element with its sign inverted. -/
def Fmt.neg (f : Fmt) (x : Nat) : Nat := if x / 2 ^ (f.eb + f.mb) % 2 = 1 then x - 2 ^ (f.eb + f.mb) else x + 2 ^ (f.eb + f.mb)
def Fmt.abs (f : Fmt) (x : Nat) : Nat := x % 2 ^ (f.eb + f.mb)
/-- The element with the sign of another. -/
def Fmt.copySign (f : Fmt) (x y : Nat) : Nat := f.abs x + f.signBit (y / 2 ^ (f.eb + f.mb) % 2 == 1)
/-- Is it a NaN? -/
def Fmt.isNan (f : Fmt) (x : Nat) : Bool := (f.unpack x).isNan

/-- Difference of two elements; a NaN subtrahend keeps its own sign (R88). -/
def fpSub (f : Fmt) (round : BitVec 5) (x y : Nat) : Nat × Flags :=
  if f.isNan y then fpAdd f round x y else fpAdd f round x (f.neg y)

/-- Product of two elements (R347). -/
def fpMul (f : Fmt) (round : BitVec 5) (x y : Nat) : Nat × Flags :=
  let a := f.unpack (f.daz (dazOf round) x)
  let b := f.unpack (f.daz (dazOf round) y)
  match nanOf f [a, b] with
  | some r => r
  | none =>
    match a, b with
    | .inf n, .inf m => (f.infinity (n != m), 0)
    | .inf n, .fin q => if q.man = 0 then invalid f else (f.infinity (n != q.neg), 0)
    | .fin p, .inf m => if p.man = 0 then invalid f else (f.infinity (p.neg != m), 0)
    | .fin p, .fin q => roundMode f round (p.mul q)
    | _, _ => invalid f

/-- Fused `(-1)^np a b + (-1)^nc c` (R348): rounded once; NaNs in the order va, vb, vd; 0 times infinity is invalid
and returns c when c is a NaN. -/
def fpFma (f : Fmt) (round : BitVec 5) (np nc : Bool) (x y z : Nat) : Nat × Flags :=
  let a := f.unpack (f.daz (dazOf round) x)
  let b := f.unpack (f.daz (dazOf round) y)
  let c := f.unpack (f.daz (dazOf round) z)
  let zeroInf : Bool :=
    match a, b with
    | .inf _, .fin q => q.man == 0
    | .fin p, .inf _ => p.man == 0
    | _, _ => false
  match nanOf f [a, b, c] with
  | some r => (r.1, if zeroInf then r.2 ||| flNV else r.2)
  | none =>
    if zeroInf then invalid f
    else
      let prodInf : Option Bool :=
        match a, b with
        | .inf n, .inf m => some ((n != m) != np)
        | .inf n, .fin q => some ((n != q.neg) != np)
        | .fin p, .inf m => some ((p.neg != m) != np)
        | _, _ => none
      match prodInf, c with
      | some n, .inf m => if n = (m != nc) then (f.infinity n, 0) else invalid f
      | some n, _ => (f.infinity n, 0)
      | none, .inf m => (f.infinity (m != nc), 0)
      | none, .fin r =>
        match a, b with
        | .fin p, .fin q =>
          let pr := p.mul q
          roundMode f round (Dy.add { pr with neg := pr.neg != np } { r with neg := r.neg != nc } (rmOf round == .rdn))
        | _, _ => invalid f
      | _, _ => invalid f

/-- The total order of VFMIN and VFMAX on non-NaN values: -0 below +0 (R88). -/
def Fp.below : Fp → Fp → Bool
  | .inf n, .inf m => n && !m
  | .inf n, _ => n
  | _, .inf m => !m
  | .fin p, .fin q => if p.man = 0 ∧ q.man = 0 then p.neg && !q.neg else p.lt q
  | _, _ => false

/-- VFMIN and VFMAX (R347): the chosen operand as DAZ leaves it; NV for a signalling NaN. -/
def fpMinMax (f : Fmt) (round : BitVec 5) (isMax : Bool) (x y : Nat) : Nat × Flags :=
  let x := f.daz (dazOf round) x
  let y := f.daz (dazOf round) y
  let a := f.unpack x
  let b := f.unpack y
  let fl : Flags := if a.sig || b.sig then flNV else 0
  match a, b with
  | .nan n p, .nan _ _ => (f.packNan n p, fl)
  | .nan _ _, _ => (y, fl)
  | _, .nan _ _ => (x, fl)
  | _, _ => (if isMax then (if a.below b then y else x) else (if b.below a then y else x), 0)

/-- A comparison of VCMP (R343): the truth of the condition and NV. -/
def fpCmp (f : Fmt) (round : BitVec 5) (c : FCond) (x y : Nat) : Bool × Flags :=
  let a := f.unpack (f.daz (dazOf round) x)
  let b := f.unpack (f.daz (dazOf round) y)
  let un := a.isNan || b.isNan
  let sg : Flags := if a.sig || b.sig then flNV else 0
  let eq : Bool :=
    match a, b with
    | .inf n, .inf m => n == m
    | .fin p, .fin q => p.eq q
    | _, _ => false
  let lt : Bool :=
    match a, b with
    | .fin p, .fin q => p.lt q
    | p, q => p.below q
  match c with
  | .eq => (!un && eq, sg)
  | .ne => (un || !eq, sg)
  | .un => (un, sg)
  | .lt => (!un && lt, if un then flNV else 0)
  | .le => (!un && (lt || eq), if un then flNV else 0)

/-- An element of one format rounded to another: NaNs as R88 gives, infinities kept (E4M3 saturates, R90), numbers by
`rnd`. -/
def convFp (g : Fmt) (v : Fp) (rnd : Dy → Nat × Flags) : Nat × Flags :=
  match v with
  | .nan n p => (g.packNan n p, if sigPay p then flNV else 0)
  | .inf n => if g.top = .ieee then (g.infinity n, 0) else (g.infinity n, flOF ||| flNX)
  | .fin d => rnd d

/-- Round a number to an integer (R90): nearest even under SR. -/
def roundInt (rm : Rm) (d : Dy) : Int × Bool :=
  if 0 ≤ d.exp then ((if d.neg then -1 else 1) * (d.man * 2 ^ d.exp.toNat : Nat), false)
  else
    let u := 2 ^ (-d.exp).toNat
    let k := d.man / u
    let r := d.man % u
    let inc : Bool :=
      match rm with
      | .rne => decide (u < 2 * r) || (2 * r == u && k % 2 == 1)
      | .rtz => false
      | .rup => r != 0 && !d.neg
      | .rdn => r != 0 && d.neg
    let n : Nat := if inc then k + 1 else k
    ((if d.neg then -(n : Int) else n), r != 0)

/-- Conversion to a signed integer of `w` bits (R90): saturating, NaN to 0, NV when out of range; an inexact result in
range raises NX (R89). -/
def toInt (w : Nat) (rm : Rm) (v : Fp) : Int × Flags :=
  let hi : Int := 2 ^ (w - 1) - 1
  let lo : Int := -(2 ^ (w - 1))
  match v with
  | .nan _ _ => (0, flNV)
  | .inf n => (if n then lo else hi, flNV)
  | .fin d =>
    let r := roundInt rm d
    if hi < r.1 then (hi, flNV) else if r.1 < lo then (lo, flNV) else (r.1, if r.2 then flNX else 0)

/-- An integer as an exact number. -/
def intFp (i : Int) : Fp := .fin ⟨decide (i < 0), i.natAbs, 0⟩

/-- The low `w` bits of an integer. -/
def intBits (w : Nat) (i : Int) : Nat := (i % (2 ^ w : Int)).toNat
/-- The signed value of `w` bits. -/
def signed (w n : Nat) : Int := if n < 2 ^ (w - 1) then n else (n : Int) - 2 ^ w

/-! ## The stochastic generator (R86) -/

def seedNext (s : BitVec 16) : BitVec 16 :=
  let b := s.getLsbD 15 ^^ s.getLsbD 13 ^^ s.getLsbD 12 ^^ s.getLsbD 10
  (s <<< 1) ||| (if b then 1 else 0)

/-- Round a number stochastically with the state `s` (R86): |x| cut to the target precision and one ulp added when the 16
bits below plus `s` carry; overflow as RTZ. -/
def roundSr (f : Fmt) (ftz : Bool) (s : BitVec 16) (d : Dy) : Nat × Flags :=
  if d.man = 0 then (f.signBit d.neg, 0)
  else
    let top : Int := d.exp + (bitLen d.man : Int) - 1
    let q : Int := (if top < 1 - f.bias then 1 - f.bias else top) - f.mb
    let kept : Nat := (Dy.at ⟨false, d.man, d.exp⟩ (min d.exp q) / (2 ^ (q - min d.exp q).toNat : Nat)).toNat
    let t : Nat := (Dy.at ⟨false, d.man, d.exp⟩ (min d.exp (q - 16)) / (2 ^ (q - 16 - min d.exp (q - 16)).toNat : Nat)).toNat % 65536
    let r := if 65536 ≤ t + s.toNat then kept + 1 else kept
    let exact := Dy.eq ⟨false, kept, q⟩ ⟨false, d.man, d.exp⟩
    let x := roundFix f .rtz false ⟨d.neg, r, q⟩ false
    let mag := x.1 % 2 ^ (f.eb + f.mb)
    let tiny := mag != 0 && decide (mag < f.minNormal)
    let fl := if exact then x.2 else x.2 ||| flNX ||| (if tiny then flUF else 0)
    flushRes f ftz (x.1, fl)

/-! ## Correctly rounded quotients and roots (R150) -/

/-- The largest `r` below `2^b` more than `r` whose square is at most `n`. -/
def isqrtGo (n : Nat) : Nat → Nat → Nat
  | 0, r => r
  | b + 1, r => if (r + 2 ^ b) * (r + 2 ^ b) ≤ n then isqrtGo n b (r + 2 ^ b) else isqrtGo n b r
def isqrt (n : Nat) : Nat := isqrtGo n (bitLen n / 2 + 1) 0

/-- The quotient of two positive numbers with its rest. -/
def dyDiv (a b : Dy) : Dy × Bool :=
  let k := 32 + bitLen b.man
  (⟨a.neg != b.neg, a.man * 2 ^ k / b.man, a.exp - k - b.exp⟩, a.man * 2 ^ k % b.man != 0)

/-- The square root of a number with its rest. -/
def dySqrt (a : Dy) : Dy × Bool :=
  let k : Nat := 64 + (if (a.exp % 2 = 0) then 0 else 1)
  let n := a.man * 2 ^ k
  let r := isqrt n
  (⟨false, r, (a.exp - k) / 2⟩, r * r != n)

/-- div_rne on F32 (R150). -/
def divRne (x y : Nat) : Nat :=
  let f := fmtF32
  let a := f.unpack x
  let b := f.unpack y
  match nanOf f [a, b] with
  | some r => r.1
  | none =>
    match a, b with
    | .inf _, .inf _ => f.canonNan
    | .inf n, .fin q => f.infinity (n != q.neg)
    | .fin p, .inf m => f.signBit (p.neg != m)
    | .fin p, .fin q =>
      if q.man = 0 then (if p.man = 0 then f.canonNan else f.infinity (p.neg != q.neg))
      else if p.man = 0 then f.signBit (p.neg != q.neg)
      else let r := dyDiv p q; (roundFix f .rne false r.1 r.2).1
    | _, _ => f.canonNan

/-- sqrt_rne on F32 (R150). -/
def sqrtRne (x : Nat) : Nat :=
  let f := fmtF32
  match f.unpack x with
  | .nan n p => f.packNan n p
  | .inf n => if n then f.canonNan else f.infinity false
  | .fin d =>
    if d.man = 0 then x else if d.neg then f.canonNan
    else let r := dySqrt d; (roundFix f .rne false r.1 r.2).1

/-- Arithmetic of the Gaussian unit and of the tables: F32, nearest even, no flags, subnormals kept (R149). -/
def addRne (x y : Nat) : Nat := (fpAdd fmtF32 0 x y).1
def mulRne (x y : Nat) : Nat := (fpMul fmtF32 0 x y).1
def fmaRne (x y z : Nat) : Nat := (fpFma fmtF32 0 false false x y z).1
/-- fnma(a, b, c) = round_rne(c - a b) (R151). -/
def fnmaRne (x y z : Nat) : Nat := (fpFma fmtF32 0 true false x y z).1

/-! ## Reciprocal, root, exponential and logarithm (R355-R357) -/

/-- A finite nonzero number normalised: mantissa in [1, 2) as an exact number, exponent (R355). -/
def normalise (d : Dy) : Dy × Int :=
  (⟨false, d.man, -((bitLen d.man : Int) - 1)⟩, d.exp + (bitLen d.man : Int) - 1)

/-- floor of `(m - 1) 256` (R355). -/
def tabIndex (m : Dy) : Nat := ((m.at (min m.exp (-8))) / (2 ^ (-8 - min m.exp (-8)).toNat : Nat)).toNat - 256

def f32Dy (bits : Nat) : Dy :=
  match fmtF32.unpack bits with
  | .fin d => d
  | _ => ⟨false, 0, 0⟩

/-- The rounded result `y` of a number of format F, flushed, with flags (R357). -/
def finishFn (f : Fmt) (round : BitVec 5) (y : Dy) (isExact : Dy → Bool) : Nat × Flags :=
  let r := roundFix f (rmOf round) false y false
  let exact : Bool :=
    match f.unpack r.1 with
    | .fin d => isExact d
    | _ => false
  let mag := r.1 % 2 ^ (f.eb + f.mb)
  let tiny := mag != 0 && decide (mag < f.minNormal)
  let fl : Flags := if exact then 0 else (r.2 &&& flOF) ||| flNX ||| (if tiny then flUF else 0)
  flushRes f (ftzOf round) (r.1, fl)

/-- VRCP (R355, R357). -/
def fpRcp (f : Fmt) (round : BitVec 5) (x : Nat) : Nat × Flags :=
  match f.unpack (f.daz (dazOf round) x) with
  | .nan n p => (f.packNan n p, if sigPay p then flNV else 0)
  | .inf n => (f.signBit n, 0)
  | .fin d =>
    if d.man = 0 then (f.infinity d.neg, flDZ)
    else
      let mn := normalise d
      let i := tabIndex mn.1
      let q := dyDiv ⟨false, 512, 0⟩ ⟨false, 513 + 2 * i, 0⟩
      let t := f32Dy (roundFix fmtF32 .rne false q.1 q.2).1
      let ep := dyOne.add (mn.1.mul t).negate false
      let y := t.mul ((dyOne.add ep false).add (ep.mul ep) false)
      finishFn f round ⟨d.neg, y.man, y.exp - mn.2⟩ fun r => (r.mul d).eq dyOne

/-- VRSQ (R355, R357). -/
def fpRsq (f : Fmt) (round : BitVec 5) (x : Nat) : Nat × Flags :=
  match f.unpack (f.daz (dazOf round) x) with
  | .nan n p => (f.packNan n p, if sigPay p then flNV else 0)
  | .inf n => if n then invalid f else (f.signBit false, 0)
  | .fin d =>
    if d.man = 0 then (f.infinity d.neg, 0)
    else if d.neg then invalid f
    else
      let mn := normalise d
      let odd := mn.2 % 2 != 0
      let m : Dy := if odd then { mn.1 with exp := mn.1.exp + 1 } else mn.1
      let e : Int := if odd then mn.2 - 1 else mn.2
      let i := tabIndex m
      let nn := 512 * 2 ^ 80 / (513 + 2 * i)
      let rt := isqrt nn
      let t := f32Dy (roundFix fmtF32 .rne false ⟨false, rt, -40⟩ true).1
      let ep := dyOne.add (m.mul (t.mul t)).negate false
      let half : Dy := { ep with exp := ep.exp - 1 }
      let sq := ep.mul ep
      let y := t.mul ((dyOne.add half false).add (Dy.mul ⟨false, 3, -3⟩ sq) false)
      finishFn f round { y with exp := y.exp - e / 2 } fun r => ((r.mul r).mul d).eq dyOne

/-- The largest `r` whose 64th power is at most `n`, bit by bit. -/
def root64Go (n : Nat) : Nat → Nat → Nat
  | 0, r => r
  | b + 1, r => if (r + 2 ^ b) ^ 64 ≤ n then root64Go n b (r + 2 ^ b) else root64Go n b r

/-- TEX[j] = round_rne(2^(j/64), F32) (R356). -/
def texEntry (j : Nat) : Nat :=
  (roundFix fmtF32 .rne false ⟨false, root64Go (2 ^ (j + 64 * 30)) 32 0, -30⟩ (j != 0)).1

/-- TLG[j] = round_rne(-log2(RLG[j]), F32) (R356), worked out from that definition. -/
def tlgTable : List Nat :=
  [0xbed47fcd, 0xbeccd838, 0xbec544bf, 0xbebdc4f8, 0xbeb6587a, 0xbeaefee7, 0xbea7b7df, 0xbea08301, 0xbe995ff9, 0xbe924e6b, 0xbe8b4e03, 0xbe845e6f, 0xbe7afec6, 0xbe6d6112, 0xbe5fe33a, 0xbe5284a8, 0xbe4544c5, 0xbe382301, 0xbe2b1ee2, 0xbe1e37d7, 0xbe116d6e, 0xbe04bf21, 0xbdf058d8, 0xbdd769d3] ++
  [0xbdbeb02f, 0xbda62b00, 0xbd8dd98a, 0xbd6b75db, 0xbd3b9c9b, 0xbd0c25da, 0xbcba1fa1, 0xbc3963d7, 0x0, 0x3c37f28b, 0x3cb73cb3, 0x3d08e68d, 0x3d35d690, 0x3d626fcc, 0x3d8759c9, 0x3d9d5182, 0x3db31fb7, 0x3dc8c50d, 0x3dde420e, 0x3df3975c, 0x3e0462c4, 0x3e0ee690, 0x3e195751, 0x3e23b551] ++
  [0x3e2e00d1, 0x3e383a17, 0x3e42615f, 0x3e4c76ea, 0x3e567aef, 0x3e606db6, 0x3e6a4f70, 0x3e74205f, 0x3e7de0b5, 0x3e83c856, 0x3e88983f, 0x3e8d602e, 0x3e92203d, 0x3e96d887, 0x3e9b8925, 0x3ea03234, 0x3ea4d3c2, 0x3ea96def, 0x3eae00d1, 0x3eb28c80, 0x3eb71110, 0x3ebb8e97, 0x3ec0052d, 0x3ec474e2] ++
  [0x3ec8ddd3, 0x3ecd4011, 0x3ed19baf, 0x3ed5f0c3, 0x3eda3f60, 0x3ede8798, 0x3ee2c97e, 0x3ee70525, 0x3eeb3a9e, 0x3eef69ff, 0x3ef39355, 0x3ef7b6b5, 0x3efbd42a, 0x3effebcb, 0x3f01fed4, 0x3f0404e8, 0x3f060828, 0x3f08089d, 0x3f0a0650, 0x3f0c0146, 0x3f0df98a, 0x3f0fef1f, 0x3f11e20e, 0x3f13d260]

/-- RLG[j] = round_rne(128 / (j + 96), F32) (R356). -/
def rlgEntry (j : Nat) : Nat :=
  let q := dyDiv ⟨false, 128, 0⟩ ⟨false, j + 96, 0⟩
  (roundFix fmtF32 .rne false q.1 q.2).1

/-- floor of an exact number. -/
def Dy.floor (d : Dy) : Int := if 0 ≤ d.exp then d.at 0 else (Dy.at { d with exp := 0 } 0) / (2 ^ (-d.exp).toNat : Nat)

/-- VEXP2 (R356, R357); `h` is exact, and each step is rounded once. Inputs beyond any exponent of the format overflow or underflow without the steps being run on
a huge power. -/
def fpExp2 (f : Fmt) (round : BitVec 5) (x : Nat) : Nat × Flags :=
  match f.unpack (f.daz (dazOf round) x) with
  | .nan n p => (f.packNan n p, if sigPay p then flNV else 0)
  | .inf n => if n then (f.signBit false, 0) else (f.infinity false, 0)
  | .fin d =>
    if d.man = 0 then (roundRne f dyOne, 0)
    else
      let n0 := d.floor
      let n : Int := if n0 < -400 then -400 else if 400 < n0 then 400 else n0
      let fr := d.add (mkDy (-n0) 0 false) false
      let j := ((Dy.mul fr ⟨false, 1, 6⟩).floor).toNat
      let h := fr.add (mkDy (-(j : Int)) (-6) false) false
      let fma (a b : Nat) : Nat := roundRne fmtF32 ((h.mul (f32Dy a)).add (f32Dy b) false)
      let q := fma (fma (fma 0x3d635847 0x3e75fdf0) 0x3f317218) 0x3f800000
      let y := f32Dy (mulRne (texEntry j) q)
      finishFn f round { y with exp := y.exp + n } fun r => h.man = 0 && j == 0 && r.eq ⟨false, 1, n0⟩

/-- VLOG2 (R356, R357). -/
def fpLog2 (f : Fmt) (round : BitVec 5) (x : Nat) : Nat × Flags :=
  match f.unpack (f.daz (dazOf round) x) with
  | .nan n p => (f.packNan n p, if sigPay p then flNV else 0)
  | .inf n => if n then invalid f else (f.infinity false, 0)
  | .fin d =>
    if d.man = 0 then (f.infinity true, flDZ)
    else if d.neg then invalid f
    else
      let mn := normalise d
      let big := !(mn.1.lt ⟨false, 3, -1⟩)
      let m : Dy := if big then { mn.1 with exp := mn.1.exp - 1 } else mn.1
      let e : Int := if big then mn.2 + 1 else mn.2
      let j := ((Dy.mul m ⟨false, 1, 7⟩).floor).toNat - 96
      let u := fmaRne (roundRne fmtF32 m) (rlgEntry j) 0xbf800000
      let q := fmaRne u 0xbeb8aa3b 0x3ef6384f
      let q := fmaRne u q 0xbf38aa3b
      let q := fmaRne u q 0x3fb8aa3b
      let q := mulRne u q
      let y := f32Dy (addRne (tlgTable.getD j 0) q)
      finishFn f round ((mkDy e 0 false).add y (rmOf round == .rdn)) fun r =>
        mn.1.eq dyOne && r.eq (mkDy mn.2 0 false)

/-! ## Exact sums (R93, R94) -/

/-- One product of a K-block: the operands' values and the exponent of their scales. -/
structure Prod where
  a : Fp
  b : Fp
  s : Int
deriving DecidableEq, Repr

/-- floor(log2 |p|) of a nonzero product. -/
def Dy.log (d : Dy) : Int := d.exp + (bitLen d.man : Int) - 1

/-- A product as a value; 0 times infinity and a NaN operand give a NaN. -/
def Prod.val (p : Prod) : Fp :=
  match p.a, p.b with
  | .nan n q, _ => .nan n q
  | _, .nan n q => .nan n q
  | .inf n, .inf m => .inf (n != m)
  | .inf n, .fin d => if d.man = 0 then .nan false 4194304 else .inf (n != d.neg)
  | .fin d, .inf m => if d.man = 0 then .nan false 4194304 else .inf (d.neg != m)
  | .fin d, .fin e => let r := d.mul e; .fin { r with exp := r.exp + p.s }

/-- Cut a product at the bit `k`, toward zero (R93). -/
def Dy.cut (d : Dy) (k : Int) : Dy :=
  if k ≤ d.exp then d else ⟨d.neg, d.man / 2 ^ (k - d.exp).toNat, k⟩

/-- block_add (R93): one K-block into the accumulator `c` (F32 bits). R93 gives a zero sum of products no sign: the sum starts at
+0, so that an exactly zero result with c = -0 is +0 (DESIGN CHOICE, log 73). -/
def blockAdd (c : Nat) (ps : List Prod) (cutoff : Bool) : Nat :=
  let f := fmtF32
  let vs := ps.map Prod.val
  let cv := f.unpack c
  let all := cv :: vs
  let pos := all.any fun v => v == .inf false
  let neg := all.any fun v => v == .inf true
  if all.any Fp.isNan || (pos && neg) then f.canonNan
  else if pos then f.infinity false
  else if neg then f.infinity true
  else
    let ds := vs.filterMap fun v => (match v with | .fin d => some d | _ => none : Option Dy)
    let nz := ds.filter fun d => d.man != 0
    let ds' :=
      match nz with
      | [] => ds
      | d :: r =>
        let q := r.foldl (fun (m : Int) (e : Dy) => max m e.log) d.log
        if cutoff then ds.map fun (e : Dy) => e.cut (q - 60) else ds
    let sum := ds'.foldl (fun a d => a.add d false) (⟨false, 0, 0⟩ : Dy)
    match cv with
    | .fin d => roundRne f (d.add sum false)
    | _ => f.canonNan

/-- An exact accumulator of the collective engine (R94): A, in units of 2^-150, and seenNaN, seenPos, seenNeg. -/
abbrev ExAcc := Int × Bool × Bool × Bool
def exZero : ExAcc := (0, false, false, false)

/-- Add a value to an exact accumulator (R94). -/
def exAdd (a : ExAcc) (v : Fp) : ExAcc :=
  match v with
  | .nan _ _ => (a.1, true, a.2.2.1, a.2.2.2)
  | .inf n => if n then (a.1, a.2.1, a.2.2.1, true) else (a.1, a.2.1, true, a.2.2.2)
  | .fin d => (a.1 + d.at (-150), a.2)

/-- The rounded result of an exact accumulator (R94); an exact zero is +0. -/
def exRound (f : Fmt) (a : ExAcc) : Nat :=
  if a.2.1 || (a.2.2.1 && a.2.2.2) then f.canonNan
  else if a.2.2.1 then f.infinity false
  else if a.2.2.2 then f.infinity true
  else roundRne f (mkDy a.1 (-150) false)

end Sys2Proof.Machine
end

