-- ==== Sys2Proof/Machine/Formats.lean ====
section
/-! DEFINITION. Sys2Proof/Machine/Formats.lean: what a page's format makes of stored bits (R76-R83), and how a vector
access moves elements between a register and memory (R353, R362). Runs of bytes and registers are numbers here. -/

namespace Sys2Proof.Machine

/-- Bits of a stored element (R353). -/
def fmtBits (fmt : Nat) : Nat :=
  match fmt with | 1 => 32 | 2 => 16 | 3 => 16 | 6 => 4 | _ => 8

/-- The floating-point layout of a FMT code (R76). -/
def fmtFloat (fmt : Nat) : Fmt :=
  match fmt with
  | 1 => fmtF32 | 2 => fmtBF16 | 3 => fmtF16 | 4 => fmtE4M3 | 7 => fmtE4M3 | 5 => fmtE5M2 | 8 => fmtE5M2 | _ => fmtE2M1

/-- Are the elements integers? -/
def fmtIsInt (fmt : Nat) : Bool := fmt == 9 || fmt == 10 || fmt == 0

/-- The quiet NaN without sign or payload of its own. -/
def plainNan : Fp := .nan false 4194304

/-- A number scaled by `2^s`. -/
def Fp.scale (v : Fp) (s : Int) : Fp :=
  match v with
  | .fin d => .fin { d with exp := d.exp + s }
  | v => v

/-- The value of a stored element (R77-R80); `hdr` is its block's header, scale in the low byte. -/
def decodeElem (fmt geom bits hdr : Nat) : Fp :=
  let e := hdr % 256
  if geom ≠ 0 ∧ e = 255 then plainNan
  else
    let s : Int := (e : Int) - 127
    if fmt = 6 then
      if bits = 8 then
        (match fmtE4M3.unpack (hdr / 256 % 256) with
         | .fin d => (Fp.fin d).scale s
         | _ => plainNan)
      else (fmtE2M1.unpack bits).scale s
    else
      let v := if fmtIsInt fmt then intFp (signed 8 bits) else (fmtFloat fmt).unpack bits
      if geom = 0 then v else v.scale s

/-- Element `k` of `w` bits of a run. -/
def elemOf (w k data : Nat) : Nat := data / 2 ^ (w * k) % 2 ^ w

/-- The header of the block that holds the byte at `off` of a run whose first byte lies `blkOff` into its first block. -/
def hdrOf (bb blkOff off : Nat) (hdrs : List Nat) : Nat := hdrs.getD ((blkOff + off) / bb) 0

/-- The values of the first `n` elements of a run (R80). -/
def decodeRun (fmt geom bb blkOff n data : Nat) (hdrs : List Nat) : List Fp :=
  (List.range n).map fun k =>
    decodeElem fmt geom (elemOf (fmtBits fmt) k data) (hdrOf bb blkOff (k * fmtBits fmt / 8) hdrs)

/-- Elements of a list laid side by side, `w` bits each. -/
def packElems (w : Nat) : List Nat → Nat
  | [] => 0
  | e :: r => e % 2 ^ w + 2 ^ w * packElems w r

/-! ## Element types of the instructions -/

/-- Bits of an element of a type (R99). -/
def mtyWidth : MTy → Nat
  | .raw => 32 | .f32 => 32 | .bf16 => 16 | .f16 => 16 | .i32 => 32 | .i16 => 16 | .i8 => 8

/-- Elements of a register of a type. -/
def mtyCount (t : MTy) : Nat := 1024 / (mtyWidth t)

/-- The floating-point layout of a type, none for integers and RAW. -/
def mtyFloat : MTy → Option Fmt
  | .f32 => some fmtF32 | .bf16 => some fmtBF16 | .f16 => some fmtF16 | _ => none

/-- The value of a register element. -/
def mtyValue (t : MTy) (bits : Nat) : Fp :=
  match (mtyFloat t) with
  | some f => f.unpack bits
  | none => intFp (signed (mtyWidth t) bits)

/-- A value as a register element, by nearest even, saturating, without flags (R353). -/
def mtyOfValue (t : MTy) (v : Fp) : Nat :=
  match (mtyFloat t) with
  | some f => (convFp f v fun d => roundFix f .rne false d false).1
  | none => intBits (mtyWidth t) (toInt (mtyWidth t) .rne v).1

/-- Does predicate bit of the lane that holds element `k` of width `w` stand? -/
def laneOn (p : BitVec 32) (w k : Nat) : Bool := p.getLsbD (w * k / 32)

/-- How many elements a vector access moves (R353). -/
def moveCount (t : MTy) (fmt : Nat) : Nat := Nat.min (mtyCount t) (1024 / fmtBits fmt)

/-- What a vector load brings of 128 bytes: the register's bits and which of them it writes (R353). -/
def vloadBits (t : MTy) (fmt geom bb : Nat) (p : BitVec 32) (data : Nat) (hdrs : List Nat) : VWord × VWord :=
  if t = .raw ∨ fmt = 0 then
    (BitVec.ofNat 1024 data,
     BitVec.ofNat 1024 (packElems 32 ((List.range 32).map fun i => if p.getLsbD i then 4294967295 else 0)))
  else
    let n := moveCount t fmt
    let w := (mtyWidth t)
    let vs := (decodeRun fmt geom bb 0 n data hdrs).map (mtyOfValue t)
    (BitVec.ofNat 1024 (packElems w vs),
     BitVec.ofNat 1024 (packElems w ((List.range n).map fun k => if laneOn p w k then 2 ^ w - 1 else 0)))

/-! ## Encoding (R81-R83) -/

/-- One value in a format without a block scale, by the modes of %ROUND (R83, R362, R90). -/
def encodePlain (fmt : Nat) (round : BitVec 5) (v : Fp) : Nat × Flags :=
  if fmt = 9 then
    let r := toInt 8 (rmOf round) v
    (intBits 8 r.1, r.2)
  else
    let f := fmtFloat fmt
    convFp f v (roundMode f round)

/-- One value as an engine writes it (R83). -/
def encodeEngine (fmt : Nat) (v : Fp) : Nat := (encodePlain fmt 0 v).1

/-- Is a value neither a NaN nor an infinity? -/
def Fp.finite : Fp → Bool
  | .fin _ => true
  | _ => false

/-- The magnitude of a finite value. -/
def Fp.mag : Fp → Dy
  | .fin d => { d with neg := false }
  | _ => ⟨false, 0, 0⟩

/-- The least `s` with `m ≤ c 2^s`, beginning at a guess at most two below it. -/
def leastScale (m c : Dy) : Int :=
  let s0 := m.log - c.log - 1
  let fits (s : Int) : Bool := !(({ c with exp := c.exp + s } : Dy).lt m)
  if fits s0 then s0 else if fits (s0 + 1) then s0 + 1 else s0 + 2

def clampScale (s : Int) : Int := if s < -127 then -127 else if 127 < s then 127 else s

/-- An encoded block: element codes, header (scale in the low byte) and the flags of each element. -/
structure EncBlock where
  codes : List Nat
  head  : Nat
  flags : List Flags
deriving DecidableEq, Repr

/-- A block that holds a NaN or an infinity (R81, R82 step 1). -/
def badBlock (xs : List Fp) : EncBlock := ⟨xs.map fun _ => 0, 255, xs.map fun x => if x.finite then 0 else flNV⟩

/-- The largest magnitude with its lowest index. -/
def maxMag : List (Nat × Dy) → Nat × Dy
  | [] => (0, ⟨false, 0, 0⟩)
  | x :: r => r.foldl (fun m y => if m.2.lt y.2 then y else m) x

def numbered (xs : List Fp) : List (Nat × Dy) := (List.range xs.length).zip (xs.map Fp.mag)

/-- The saturating round to nearest even of `x / 2^s` in a small format, with OF and NX (R81, R82). -/
def roundSat (f : Fmt) (s : Int) (v : Fp) : Nat × Flags :=
  match v with
  | .fin d =>
    let r := roundFix f .rne true { d with exp := d.exp - s } false
    (r.1, r.2 &&& (flOF ||| flNX))
  | _ => (0, 0)

/-- The same to an 8-bit integer. -/
def roundI8 (s : Int) (v : Fp) : Nat × Flags :=
  match v with
  | .fin d =>
    let r := roundInt .rne { d with exp := d.exp - s }
    if 127 < r.1 then (127, flOF ||| flNX) else if r.1 < -128 then (128, flOF ||| flNX)
    else (intBits 8 r.1, if r.2 then flNX else 0)
  | _ => (0, 0)

/-- A block of E4M3B, E5M2B or I8B (R81). -/
def encodeScaled (fmt : Nat) (xs : List Fp) : EncBlock :=
  if !xs.all Fp.finite then badBlock xs
  else
    let m1 := (maxMag (numbered xs)).2
    let maxe : Dy := if fmt = 10 then ⟨false, 127, 0⟩ else if fmt = 8 then ⟨false, 57344, 0⟩ else ⟨false, 448, 0⟩
    let s := if m1.man = 0 then -127 else clampScale (leastScale m1 maxe)
    let ys := xs.map fun x => if fmt = 10 then roundI8 s x else roundSat (fmtFloat fmt) s x
    ⟨ys.map fun y => y.1, (s + 127).toNat, ys.map fun y => y.2⟩

/-- A block of E2M1X (R82). -/
def encodeE2m1x (xs : List Fp) : EncBlock :=
  if !xs.all Fp.finite then badBlock xs
  else
    let ns := numbered xs
    let m1 := maxMag ns
    let m2 := (maxMag (ns.filter fun x => x.1 != m1.1)).2
    let m2 := if m2.man = 0 then m1.2 else m2
    let s := if m1.2.man = 0 then -127 else clampScale (leastScale m2 ⟨false, 6, 0⟩)
    let x : Nat × Flags := if m1.2.man = 0 then (0, 0) else roundSat fmtE4M3 s (xs.getD m1.1 (.fin m1.2))
    let ys := ((List.range xs.length).zip xs).map fun e =>
      if e.1 = m1.1 then (8, x.2)
      else
        let r := roundSat fmtE2M1 s e.2
        (if r.1 % 8 = 0 then 0 else r.1, r.2)
    ⟨ys.map fun y => y.1, (s + 127).toNat + 256 * x.1, ys.map fun y => y.2⟩

/-- A block of any block-scaled format. -/
def encodeBlock (fmt : Nat) (xs : List Fp) : EncBlock := if fmt = 6 then encodeE2m1x xs else encodeScaled fmt xs

/-- Elements of a block. -/
def blockElems (fmt geom : Nat) : Nat := if fmt = 6 ∨ geom = 1 then 32 else 16

/-- Whole blocks of a list. -/
def blocksOf (n : Nat) : Nat → List Fp → List (List Fp)
  | 0, _ => []
  | k + 1, l => l.take n :: blocksOf n k (l.drop n)

/-! ## Vector stores (R362) -/

/-- What a vector store does to 128 bytes: new bytes as a number, which bits of them it writes, new headers in block order,
and the flags of each lane. -/
structure VStored where
  data  : Nat
  mask  : Nat
  heads : List Nat
  flags : List Flags
deriving DecidableEq, Repr

/-- Gather the flags of elements of width `w` in their lanes. -/
def laneFlags (w : Nat) (fs : List Flags) : List Flags :=
  (List.range 32).map fun i => ((List.range (32 / w)).map fun j => fs.getD (32 / w * i + j) 0).foldl (· ||| ·) 0

/-- All ones of `w` bits where a lane is active. -/
def laneMask (p : BitVec 32) (w k : Nat) : Nat := if laneOn p w k then 2 ^ w - 1 else 0

/-- Encode the register `v` for a page (R362). On a block-scaled page the caller has checked that every moved element is
active. -/
def vstoreBits (t : MTy) (fmt geom : Nat) (round : BitVec 5) (p : BitVec 32) (v : Nat) : VStored :=
  if t = .raw ∨ fmt = 0 then
    ⟨v, packElems 32 ((List.range 32).map fun i => if p.getLsbD i then 4294967295 else 0), [], List.replicate 32 0⟩
  else
    let n := moveCount t fmt
    let w := (mtyWidth t)
    let mw := fmtBits fmt
    let raw := (List.range n).map fun k => elemOf w k v
    if geom = 0 then
      let es := raw.map fun b =>
        encodePlain fmt round (match (mtyFloat t) with | some f => f.unpack (f.daz (dazOf round) b) | none => (mtyValue t) b)
      let fs := ((List.range n).zip es).map fun e => if laneOn p w e.1 then e.2.2 else 0
      ⟨packElems mw (es.map fun e => e.1), packElems mw ((List.range n).map fun k => if laneOn p w k then 2 ^ mw - 1 else 0),
        [], laneFlags w fs⟩
    else
      let bn := blockElems fmt geom
      let bs := (blocksOf bn (n / bn) (raw.map (mtyValue t))).map (encodeBlock fmt)
      ⟨packElems mw (bs.flatMap fun b => b.codes), 2 ^ (mw * n) - 1, bs.map fun b => b.head,
        laneFlags w (bs.flatMap fun b => b.flags)⟩

/-- Every lane. -/
def allLanes : BitVec 32 := BitVec.allOnes 32

/-- The flags of 32 lanes in one word, five bits each. -/
def packFlags (fs : List Flags) : VWord := BitVec.ofNat 1024 (packElems 5 (fs.map fun f => f.toNat))
/-- Lane `i`'s flags of such a word. -/
def flagsAt (v : VWord) (i : Nat) : Flags := BitVec.ofNat 5 (elemOf 5 i v.toNat)

end Sys2Proof.Machine
end

