-- ==== Sys2Proof/Machine/Image.lean ====
section
/-! DEFINITION. Sys2Proof/Machine/Image.lean: the save area: context images (R206, R207), Mill images (R148) and engine
cursors (R187, R275), written at a stop and read back. -/

namespace Sys2Proof.Machine

/-- SAVEBASE of a core (R209). -/
def saveBase (s : State) (n : Nat) : Nat := Memory.read s.mem (sliceKey n 0x410300) 8 % 4194304
/-- Key of context image slot `c` of a core. -/
def imageKey (s : State) (n c : Nat) : Nat := sliceKey n (saveBase s n + 4608 * c)

/-- The CAUSE code of an image (R206). -/
def causeCode : Cause → Nat
  | .none => 0 | .reply => 1 | .fullEmpty => 2 | .bwait => 3 | .send => 4 | .unit => 5 | .upcall => 6 | .fence => 7
  | .crier => 8 | .halt => 9
def causeOf (n : Nat) : Cause :=
  match n with
  | 1 => .reply | 2 => .fullEmpty | 3 => .bwait | 4 => .send | 5 => .unit | 6 => .upcall | 7 => .fence | 8 => .crier
  | 9 => .halt | _ => .none

/-- `n` zero bytes. -/
def zeros (n : Nat) : List Byte := List.replicate n 0

/-- The LOOP area (R206). -/
def loopBytes (l : Option LoopLevel) : List Byte :=
  match l with
  | some l => toBytes 8 l.count.toNat ++ toBytes 2 l.start.toNat ++ toBytes 2 l.fin.toNat ++ [1] ++ zeros 3
  | none => zeros 16

/-- One outstanding-reply slot (R207). -/
def slotBytes (r : Option RSlot) : List Byte :=
  match r with
  | some r =>
    [1, if r.arr then 1 else 0, BitVec.ofNat 8 r.dest, BitVec.ofNat 8 r.kind] ++ zeros 4 ++ toBytes 8 r.adr.toNat ++
      toBytes 128 r.data.toNat
  | none => zeros 144

/-- The bytes of a context image (R206). -/
def imageBytes (t : Ctx) (st inc : Nat) (cause : Cause) : List Byte :=
  let up := cause == .upcall
  [BitVec.ofNat 8 st, BitVec.ofNat 8 (causeCode cause), BitVec.ofNat 8 t.cls,
    BitVec.ofNat 8 (t.prio % 4 + (if t.c63 then 4 else 0) + (if t.ldr then 8 else 0) + (if t.owes then 16 else 0) +
      (if t.replied then 32 else 0))] ++
  toBytes 2 t.pc.toNat ++ [BitVec.ofNat 8 t.rslots.length, 0] ++ toBytes 2 inc ++ zeros 6 ++
  [BitVec.ofNat 8 (if up then t.fcode else 0)] ++ zeros 7 ++ toBytes 8 (if up then t.fadr.toNat else 0) ++ zeros 32 ++
  (t.x.toList.flatMap fun v => toBytes 8 v.toNat) ++ (t.v.toList.flatMap fun v => toBytes 128 v.toNat) ++
  (t.p.toList.flatMap fun v => toBytes 4 v.toNat) ++
  ((t.tm.toList.zip t.org.toList).flatMap fun v => toBytes 32 v.1.toNat ++ toBytes 8 v.2.toNat) ++
  loopBytes (t.loops[0]?) ++ loopBytes (t.loops[1]?) ++
  ([t.srcadr.toNat, t.rplyadr.toNat, t.round.toNat, t.sflags.toNat, (if t.check then 1 else 0), t.seed.toNat, t.fltcode,
    t.fltadr.toNat, t.fltctx, t.fltpc.toNat].flatMap (toBytes 8)) ++
  (t.lanef.toList.flatMap fun f => toBytes 1 f.toNat) ++ zeros 16 ++
  ((List.range 12).flatMap fun i => slotBytes (t.rslots[i]?))

/-- Finish what a context has issued: fixed-latency results, and variable-latency ones that need no reply (R205). -/
def finishVar (tagpnd mark : Word) : List VarRes → Ctx → Ctx
  | [], t => { t with var := [] }
  | r :: rest, t =>
    let v : VWord :=
      match r.op with
      | .value v => v
      | .tagpnd => tagpnd.setWidth 1024
      | .tmark => mark.setWidth 1024
    finishVar tagpnd mark rest (t.wcode r.code v r.mask)

/-- Write the image of a context and leave it saved (R205); the image is a store that depends on what the context has seen (R120). Waits on a fence, BWAIT, send queue or unit are set back to
their instruction. -/
def saveCtx (s : State) (n c : Nat) (tagpnd mark : Word) : State :=
  let s := dropSlot s n c
  let t := ctxAt s n c
  let t := finishVar tagpnd mark t.var (t.pend.foldl (fun t e => t.wcode e.code e.val e.mask) { t with pend := [] })
  let st := match t.st with | .parked => 2 | .held => 3 | _ => 1
  let cause := match t.block with | .fence .. => Cause.fence | _ => t.cause
  let inc := partInc s (pkgOf n) (partNum s n)
  let d := dieAt s (dieOf n)
  let s := { s with mem := Memory.putBytes s.mem (imageKey s n c) (imageBytes t st inc cause) }
  let s := setDie s (dieOf n) { d with merged := vmax d.merged t.dep }
  let k := coreAt s n
  let s := setCore s n { k with past := ⟨c, t.dep, t.wgens, t.acks.map fun u => u.num⟩ :: k.past.filter fun p => p.slot != c }
  setCtx s n c { t with
    st := .saved
    cause := cause
    block := .none
    bwait := if cause = .bwait then t.bwait else none
    redo := false
    xinv := none
    stall := 0 }

/-- Bytes of an image that must be zero (R279). -/
def imageZero (m : List Host.Cell) (k : Nat) : Bool :=
  let z (a n : Nat) : Bool := Memory.read m (k + a) n == 0
  z 7 1 && z 10 6 && z 17 7 && z 32 32 && z 2733 3 && z 2749 3 && z 2864 16 && nbits (Memory.read m (k + 3) 1) 6 2 == 0 &&
    (List.range 12).all fun i => z (2880 + 144 * i + 4) 4

def readLoop (m : List Host.Cell) (k : Nat) : List LoopLevel :=
  if Memory.read m (k + 12) 1 % 256 = 1 then
    [⟨BitVec.ofNat 64 (Memory.read m k 8), BitVec.ofNat 64 (Memory.read m (k + 8) 2), BitVec.ofNat 64 (Memory.read m (k + 10) 2)⟩]
  else []

/-- Reply slots of an image, in slot order; the slots the context kept give the access numbers and lanes. -/
def readSlots (m : List Host.Cell) (k : Nat) (old : List RSlot) : List RSlot :=
  ((List.range 12).zip (old.map some ++ List.replicate 12 none)).filterMap fun e =>
    let a := k + 2880 + 144 * e.1
    if Memory.read m a 1 = 0 then none
    else
      let o : RSlot := e.2.getD ⟨0, noCode, noCode, 0, 0, false, 0, allBits, 1, none⟩
      some { o with
        arr := Memory.read m (a + 1) 1 == 1
        dest := Memory.read m (a + 2) 1
        kind := Memory.read m (a + 3) 1
        adr := BitVec.ofNat 64 (Memory.read m (a + 8) 8)
        data := BitVec.ofNat 1024 (Memory.read m (a + 16) 128) }

/-- Is the access still outstanding? -/
def Ctx.outstanding (t : Ctx) (num : Nat) : Bool :=
  (t.rslots.any fun r => r.num == num && !r.arr) || (t.acks.any fun u => u.num == num)

/-- Deliver a reply that has arrived to its registers; MBTAKE and DEQ write two. A waiting vector store's brings the
flags of its lanes (R362). -/
def Ctx.deliverSlot (t : Ctx) (r : RSlot) : Ctx :=
  let t :=
    if r.dest = noCode then
      (if r.kind = 1 then { t with lanef := Vector.ofFn fun i : Fin 32 => t.lanef.get i ||| flagsAt r.data i.val } else t)
    else t.putNow r.dest r.data r.mask
  if r.dest2 = noCode then t else t.putNow r.dest2 (r.data >>> 64) (allBits)

/-- The context that an image at `k` gives (R206, R279), over what the context `t` keeps of its own. One parked on a BWAIT, a send
queue, a unit, a fence or the Crier stands at that instruction, and executes it again when its core runs (R205). -/
def readImage (m : List Host.Cell) (k : Nat) (t : Ctx) : Ctx :=
  let w (a : Nat) : Nat := Memory.read m (k + a) 8
  let pr := Memory.read m (k + 3) 1
  let cause := causeOf (Memory.read m (k + 1) 1)
  let st := Memory.read m k 1
  let slots := readSlots m k t.rslots
  let t := { t with
    st := if st = 2 then .parked else if st = 3 then .held else .running
    cause := if st = 2 then cause else .none
    cls := Memory.read m (k + 2) 1 % 64
    prio := pr % 4
    c63 := nbits pr 2 1 == 1
    ldr := nbits pr 3 1 == 1
    owes := nbits pr 4 1 == 1
    replied := nbits pr 5 1 == 1
    pc := BitVec.ofNat 64 (Memory.read m (k + 4) 2)
    fcode := Memory.read m (k + 16) 1
    fadr := BitVec.ofNat 64 (w 24)
    x := Vector.ofFn fun i : Fin 32 => BitVec.ofNat 64 (w (64 + 8 * i.val))
    v := Vector.ofFn fun i : Fin 16 => BitVec.ofNat 1024 (Memory.read m (k + 320 + 128 * i.val) 128)
    p := Vector.ofFn fun i : Fin 8 => BitVec.ofNat 32 (Memory.read m (k + 2368 + 4 * i.val) 4)
    tm := Vector.ofFn fun i : Fin 8 => BitVec.ofNat 256 (Memory.read m (k + 2400 + 40 * i.val) 32)
    org := Vector.ofFn fun i : Fin 8 => BitVec.ofNat 64 (w (2432 + 40 * i.val))
    loops := readLoop m (k + 2720) ++ readLoop m (k + 2736)
    srcadr := BitVec.ofNat 64 (w 2752)
    rplyadr := BitVec.ofNat 64 (w 2760)
    round := BitVec.ofNat 5 (w 2768)
    sflags := BitVec.ofNat 2 (w 2776)
    check := w 2784 % 2 == 1
    seed := BitVec.ofNat 16 (w 2792)
    fltcode := w 2800 % 256
    fltadr := BitVec.ofNat 64 (w 2808)
    fltctx := w 2816 % 16
    fltpc := BitVec.ofNat 64 (w 2824)
    lanef := Vector.ofFn fun i : Fin 32 => BitVec.ofNat 5 (Memory.read m (k + 2832 + i.val) 1)
    pend := []
    var := []
    stall := 0
    waited := 0
    promoted := false
    block := .none
    bwait := if st = 2 ∧ cause = Cause.bwait then t.bwait else none
    redo := false
    xinv := none }
  let t := (slots.filter fun r => r.arr).foldl (fun t r => t.deliverSlot r) t
  let t := { t with rslots := slots.filter fun r => !r.arr }
  match t.cause with
  | .reply =>
    if t.awaits.any t.outstanding then t
    else if t.awaits = none ∧ !(slots.any fun r => r.arr) ∧ t.rslots ≠ [] then t
    else { t with st := .running, cause := .none, awaits := none }
  | .fullEmpty =>
    if t.awaits.any t.outstanding then t
    else { t with st := .running, cause := .none, awaits := none }
  | .upcall => t
  | .halt => t
  | .none => t
  | _ => { t with redo := true }

/-! ## The Mill's image (R148) -/

/-- A tensor-map command record (R137). -/
def millCmdBytes (c : MillCmd) : List Byte :=
  toBytes 8 (c.fn.toNat + 256 * c.c + 8192 * c.ctx + (if c.t then 131072 else 0) + 262144 * c.acc) ++
    toBytes 32 c.map.toNat ++ toBytes 8 c.cadr.toNat ++ zeros 16

/-- A plane (R148). R148 gives neither the widths and places of the header's four fields nor how elements and headers fill their
bytes: the model gives each field a byte, each element a 16-bit cell, and each column its two headers, one column after the other
(DESIGN CHOICE, log 79). -/
def planeBytes (p : Plane) : List Byte :=
  [BitVec.ofNat 8 p.fmt, BitVec.ofNat 8 p.geom, BitVec.ofNat 8 p.k, BitVec.ofNat 8 p.n] ++ zeros 12 ++
    (List.range 1024).flatMap (fun i => toBytes 2 (p.elems.getD i 0).toNat) ++
    (List.range 64).flatMap (fun i => toBytes 2 (p.heads.getD i 0).toNat) ++ zeros 48

/-- Nonzero accumulator words of an image, placed one by one on cleared bytes. -/
def putAccs (m : List Host.Cell) (k : Nat) (l : List (Nat × BitVec 32)) : List Host.Cell :=
  l.foldl (fun m e => Memory.write m (k + 128 + 4 * e.1) 4 e.2.toNat) m

/-- Remove every listed byte of a range. -/
def clearRange (m : List Host.Cell) (lo len : Nat) : List Host.Cell := m.filter fun c => decide (c.1 < lo) || decide (lo + len ≤ c.1)

def millMarks (k : Mill) : Nat :=
  (List.range 4).foldl (fun a i => if k.bad.contains i then a + 2 ^ i else a) 0 + (if k.shadow.valid then 0 else 16) +
    (if k.active.valid then 0 else 32) + (if k.halted then 64 else 0)

/-- Write a plane's image over zeros; an invalid plane that nothing has loaded is all zeros. -/
def putPlane (m : List Host.Cell) (k : Nat) (p : Plane) : List Host.Cell :=
  if p = Plane.invalid then m else Memory.putBytes m k (planeBytes p)

/-- Write a Mill's image at a key of a slice. -/
def saveMill (m : List Host.Cell) (k : Nat) (c : Mill) : List Host.Cell :=
  let m := clearRange m k 71168
  let m := Memory.putBytes m k [1, 0, BitVec.ofNat 8 (millMarks c), BitVec.ofNat 8 c.inbox.length]
  let m := putAccs m k c.acc
  let m := putPlane m (k + 65664) c.active
  let m := putPlane m (k + 67904) c.shadow
  Memory.putBytes m (k + 70144) (c.inbox.flatMap millCmdBytes)

def readPlane (m : List Host.Cell) (k : Nat) (valid : Bool) : Plane :=
  if valid then
    ⟨true, Memory.read m k 1, Memory.read m (k + 1) 1, Memory.read m (k + 2) 1, Memory.read m (k + 3) 1,
      (List.range 1024).map fun i => BitVec.ofNat 16 (Memory.read m (k + 16 + 2 * i) 2),
      (List.range 64).map fun i => BitVec.ofNat 16 (Memory.read m (k + 2064 + 2 * i) 2)⟩
  else Plane.invalid

/-- The accumulator words of an image that are not +0. -/
def readAccs (m : List Host.Cell) (k : Nat) : List (Nat × BitVec 32) :=
  let r := m.filter fun c => decide (k + 128 ≤ c.1) && decide (c.1 < k + 65664)
  if r.isEmpty then []
  else (List.range 16384).filterMap fun i =>
    let v := Memory.read r (k + 128 + 4 * i) 4
    if v = 0 then none else some (i, BitVec.ofNat 32 v)

/-- The queued commands of an image. What a record does not hold (the issuing core, the origin, the job and what the issue
released) is that of the Mill's own command with the same record, if it kept one, else its core's, with the tile's origin at
the map's own (log 76). A gang command is the same command in all four Mills: they are counted, as each takes one place in
every Mill at one instant (R144). -/
def readCmds (m : List Host.Cell) (k n core part : Nat) (job : Nat → Nat) (old : List MillCmd) : List MillCmd :=
  (List.range n).map fun i =>
    let a := k + 64 * i
    let h := Memory.read m a 8
    let fn : BitVec 8 := BitVec.ofNat 8 h
    let ctx := nbits h 13 4
    let cadr : Word := BitVec.ofNat 64 (Memory.read m (a + 40) 8)
    let map : BitVec 256 := BitVec.ofNat 256 (Memory.read m (a + 8) 32)
    let gangs := ((List.range i).filter fun j => nbits (Memory.read m (k + 64 * j) 8) 7 1 == 1).length
    let o :=
      (old.find? fun o => o.fn == fn && o.ctx == ctx && o.cadr == cadr && o.map == map).getD
        ⟨0, 0, core, 0, false, 0, 0, 0, none, part, 0, job ctx, false, zeroVec⟩
    { o with
      fn := fn
      c := nbits h 8 5
      ctx := ctx
      t := nbits h 17 1 == 1
      acc := nbits h 18 2
      map := map
      cadr := cadr
      gang := if fn.getLsbD 7 then some (wordMod + gangs) else none }

/-- Restore a Mill from its image; one of another major version leaves every tile invalid and the queue halted, and the first
command that meets it fails with code 0x08 (R143, R148). -/
def restoreMill (m : List Host.Cell) (k core part : Nat) (job : Nat → Nat) (old : Mill) : Mill :=
  let marks := Memory.read m (k + 2) 1
  let cmds := readCmds m (k + 70144) (Nat.min 16 (Memory.read m (k + 3) 1)) core part job old.inbox
  if Memory.read m k 1 ≠ 1 then
    { Mill.reset with
      bad := [0, 1, 2, 3]
      halted := true
      alien := true
      inbox := cmds }
  else
    { acc := readAccs m k
      bad := (List.range 4).filter fun i => nbits marks i 1 == 1
      shadow := readPlane m (k + 67904) (nbits marks 4 1 == 0)
      active := readPlane m (k + 65664) (nbits marks 5 1 == 0)
      halted := nbits marks 6 1 == 1
      alien := false
      inbox := cmds }

/-! ## Cursors (R187, R275) -/

/-- All ones for no tape entry. -/
def posWord (p : Option Nat) : Nat := p.getD 18446744073709551615

/-- A copy engine cursor (R275). -/
def copyCursor (c : CopyCmd) : List Byte :=
  let sm := c.smap.toNat
  let dm := c.dmap.toNat
  let base (m : BitVec 256) : Nat := m.toNat % 18446744073709551616
  let list := c.fn.toNat % 16 == 4 || c.fn.toNat % 16 == 2 || c.fn.toNat % 16 == 3
  toBytes 8 (c.fn.toNat + 256 * c.c + 8192 * c.ctx + (if c.cword.getLsbD 0 then 131072 else 0) + 262144 * bitsOf c.cword 1 2) ++
    toBytes 8 c.cword.toNat ++ toBytes 8 (base c.smap) ++ toBytes 8 (if list then c.list.toNat else base c.dmap) ++
    toBytes 3 (nbits sm 128 24) ++ toBytes 3 (nbits dm 128 24) ++
    [BitVec.ofNat 8 (nbits sm 224 4 + 16 * nbits dm 224 4), 1] ++
    toBytes 2 (nbits sm 200 12) ++ toBytes 2 (nbits sm 212 12) ++ toBytes 2 c.row ++ toBytes 2 c.didx ++
    toBytes 8 (posWord c.pos) ++ toBytes 4 c.done ++ zeros 4

/-- A dispatch engine cursor with its STATE (R187). -/
def dispCursor (c : DispCmd) : List Byte :=
  let kind := match c.kind with | .comb => 1 | _ => 0
  toBytes 8 c.table.toNat ++ toBytes 8 c.cword.toNat ++ toBytes 4 c.next ++ toBytes 4 c.done ++ toBytes 4 c.nlist ++
    [kind, 1, BitVec.ofNat 8 c.flags, 0] ++ toBytes 8 (c.map.toNat % 18446744073709551616) ++ toBytes 8 (posWord c.pos) ++
    toBytes 8 c.bytes ++ toBytes 4 c.n ++ zeros 4

/-- The cursor that a DRES not yet begun would continue (R187), as its 64 bytes stand; of one that names no stopped command,
or that its core cannot read, a cursor with STATE 0. -/
def dresCursor (s : State) (n : Nat) (c : DispCmd) : List Byte :=
  let w : Who := ⟨n, c.ctx, c.supr, false, c.part, 0⟩
  let seen :=
    match resolve s w c.table true with
    | .ok (.slice m off) => sliceView s n c.part w.supr m off 64 true false true
    | .ok (.gran g v) => granView s n c.part w.supr g v 64 true false true
    | .ok (.sup v) => supView s n w.supr v 62 64
    | _ => .bad fPROTECT none
  match seen with
  | .ok v => if Memory.read s.mem (v.key + 29) 1 = 1 then toBytes 64 (Memory.read s.mem v.key 64) else zeros 64
  | .bad .. => zeros 64

/-- The cursor of a queued or running command (R187). -/
def queuedCursor (s : State) (n : Nat) (c : DispCmd) : List Byte :=
  if c.kind == .dres then dresCursor s n c else dispCursor c

/-- Write the engines' images of a core at a stop; grants that its commands wait for are withdrawn (R187, R208). -/
def saveEngines (s : State) (n : Nat) : State :=
  let k := coreAt s n
  let b := sliceKey n (saveBase s n)
  let m := saveMill s.mem (b + 0x12000) k.mill
  let m := clearRange m (b + 0x23600) 0x800
  let m := Memory.putBytes m (b + 0x23600) (k.copyq.flatMap copyCursor)
  let m := Memory.putBytes m (b + 0x23A00) (k.dispq.flatMap (queuedCursor s n))
  let s := setCore { s with mem := m } n { k with saved := true }
  { s with cores := s.cores.map fun e => (e.1, { e.2 with grants := e.2.grants.filter fun g => g.core != n }) }

/-- Restore the engines of a core from its save area, before its first context (R208, R279). Cursors tell how far each
queued command has come. -/
def restoreEngines (s : State) (n : Nat) : State :=
  let k := coreAt s n
  if !k.saved then s
  else
    let b := sliceKey n (saveBase s n)
    setCore s n { k with
      saved := false
      mill := restoreMill s.mem (b + 0x12000) n (partNum s n) (fun c => (ctxAt s n c).job) k.mill
      copyq := ((List.range k.copyq.length).zip k.copyq).map fun e =>
        let row := Memory.read s.mem (b + 0x23600 + 64 * e.1 + 44) 2
        let didx := Memory.read s.mem (b + 0x23600 + 64 * e.1 + 46) 2
        { e.2 with
          row := row
          didx := didx
          move := if row = e.2.row ∧ didx = e.2.didx then e.2.move else none }
      dispq := ((List.range k.dispq.length).zip k.dispq).map fun e =>
        let next := Memory.read s.mem (b + 0x23A00 + 64 * e.1 + 16) 4
        { e.2 with
          next := next
          move := if next = e.2.next then e.2.move else none } }

end Sys2Proof.Machine
end

