-- ==== Sys2Proof/Machine/Deliver.lean ====
section
/-! DEFINITION. Sys2Proof/Machine/Deliver.lean: what a reply or an acknowledgement does to its context (R207, R125), and
faults found after issue (R365, R215). -/

namespace Sys2Proof.Machine

/-- Does the access hold an outstanding-reply slot (R207)? -/
def AccOp.slot : AccOp → Bool
  | .load .. => true
  | .store q _ => q == .wait
  | .vload .. => true
  | .vstore q _ => q == .wait
  | .gath _ => true
  | .cas _ => true
  | .cntrd => true
  | .enq => true
  | .deq => true
  | .get _ => true
  | .put _ => true
  | .feqry => true
  | .mbtake => true
  | .tmset => true
  | .payload _ => true
  | _ => false

/-- The KIND of a slot (R207). -/
def AccOp.kind : AccOp → Nat
  | .vload .. => 1
  | .vstore .. => 1
  | .gath _ => 1
  | .amo .. => 2
  | .cas _ => 2
  | .get _ => 3
  | .put _ => 3
  | .mbtake => 5
  | .cntrd => 6
  | .enq => 6
  | .deq => 6
  | _ => 0

/-- Is the access ordered as a store (R118): acknowledged, and placed after earlier stores? -/
def AccOp.storeLike : AccOp → Bool
  | .store .. => true
  | .vstore .. => true
  | .scat _ => true
  | .amo .. => true
  | .cas _ => true
  | .cntadd => true
  | .cntarm => true
  | .enq => true
  | .deq => true
  | .put _ => true
  | .feset .. => true
  | .publish => true
  | .mbput => true
  | .mbtake => true
  | _ => false

/-- A vector memory access, for FLGRD and FLGCLR (R89). -/
def AccOp.vector : AccOp → Bool
  | .vload .. => true
  | .vstore .. => true
  | .gath _ => true
  | .scat _ => true
  | _ => false

/-- An access with return: DIELOST parks its context (R215). A no-return AMO has no destination and no slot. -/
def Access.returns (a : Access) : Bool :=
  match a.op with
  | .store .. => false
  | .vstore .. => false
  | .put _ => false
  | .amo .. => a.dest != noCode
  | op => op.slot

/-- Does this access hold a reply slot? An AMO does when it returns a value. -/
def Access.slotted (a : Access) : Bool :=
  match a.op with
  | .amo .. => a.dest != noCode
  | op => op.slot

/-- Lowest-lane failure of a gather or scatter (R350). -/
def lowestFlt (a b : Option (Nat × Nat × Word)) : Option (Nat × Nat × Word) :=
  match a, b with
  | some x, some y => if y.1 < x.1 then some y else some x
  | none, y => y
  | x, none => x

/-- The lowest active lane. -/
def lowLane (p : BitVec 32) : Nat := ((List.range 32).find? fun i => p.getLsbD i).getD 32

/-- A gather or scatter: each lane's access has its own address, and keeps the base in `adr2`. -/
def AccOp.lanewise : AccOp → Bool
  | .gath _ => true
  | .scat _ => true
  | _ => false

/-- The whole instruction's access, for RESUME with retry, which is translated afresh (R350, R365). -/
def Access.whole (a : Access) : Access :=
  if a.op.lanewise then { a with pred := a.lanes, adr := a.adr2, ptes := [], own := none }
  else { a with pred := a.lanes, ptes := [], own := none }

/-- Remove an access from the context's reply slots and unacknowledged stores. -/
def Ctx.drop (t : Ctx) (num : Nat) : Ctx :=
  { t with
    rslots := t.rslots.filter fun r => r.num != num
    acks := t.acks.filter fun u => u.num != num }

/-- Wake a context that waited for an access, or for room in its slots. -/
def Ctx.replyWake (t : Ctx) : Ctx :=
  if t.st = .parked ∧ (t.cause = .reply ∨ t.cause = .fullEmpty) ∧ !(t.awaits.any t.outstanding) then
    { t with st := .running, cause := .none, awaits := none }
  else t

/-- A DIELOST notice; those to one context that concern one die are merged into the first (R215). -/
def dieLostNotice (s : State) (n c die : Nat) (adr : Word) : State :=
  let k := coreAt s n
  if (k.upcalls ++ k.noticeHeld).any fun u => u.code == fDIELOST && u.ctx == c && u.die == some die then s
  else raiseNotice s n c fDIELOST adr (some die)

/-- A saved context's reply goes into its slot of the image (R207). -/
def landInImage (s : State) (n c i : Nat) (data : VWord) : State :=
  let k := imageKey s n c + 2880 + 144 * i
  let m := Memory.write s.mem (k + 1) 1 1
  { s with mem := Memory.write m (k + 16) 128 data.toNat }

/-- The data of a finished slot reaches the context: its registers, or its image while it is saved. -/
def finishSlot (s : State) (n c : Nat) (r : RSlot) (data mask : VWord) : State :=
  let t := ctxAt s n c
  if t.st = .saved then
    let i := (t.rslots.findIdx? fun x => x.num == r.num).getD 0
    let t := { t with rslots := t.rslots.map fun x => if x.num = r.num then { x with arr := true, data := data, mask := mask } else x }
    landInImage (setCtx s n c t) n c i data
  else
    let t := t.deliverSlot { r with data := data, mask := mask }
    setCtx s n c ({ t with rslots := t.rslots.filter fun x => x.num != r.num }).replyWake

/-- A fault found after its instruction has issued (R365): for the supervisor the context is held where it stands; as an
upcall it parks there with the access kept. A context that another fault already stops takes it later. One of an access
whose activation has ended holds and parks nothing (log 33). Bytes that an instruction reads before it takes effect are
no access of its own: their fault is the instruction's. -/
def lateFault (s : State) (a : Access) (code : Nat) (adr : Word) : State :=
  let now := (ctxAt s a.core a.ctx).act == a.act
  let s := match a.op with | .payload _ => (if now then giveSlot s a.core a.ctx else s) | _ => s
  let t := ctxAt s a.core a.ctx
  if t.act ≠ a.act ∨ t.st = .free then
    (if isSupSpace a.core adr ∧ (code = fPAGE ∨ code = fPROTECT) then raiseNotice s a.core a.ctx code adr
     else if toSupervisor code then supMessage s a.core a.ctx code a.c63 false adr a.pc
     else if code = fDIELOST then dieLostNotice s a.core a.ctx (dieOf a.home) adr
     else raiseNotice s a.core a.ctx code adr)
  else if isSupSpace a.core adr ∧ (code = fPAGE ∨ code = fPROTECT) then
    raiseSupExc (setCtx s a.core a.ctx { t.drop a.num with st := if t.st = .parked then .running else t.st, cause := .none, awaits := none }) a.core a.ctx code adr a.pc
  else if toSupervisor code then raiseSup (setCtx s a.core a.ctx (t.drop a.num)) a.core a.ctx code adr a.pc
  else if code = fDIELOST ∧ !a.returns then
    dieLostNotice (setCtx s a.core a.ctx (t.drop a.num).replyWake) a.core a.ctx (dieOf a.home) adr
  else if t.c63 then raiseSup (setCtx s a.core a.ctx (t.drop a.num)) a.core a.ctx code adr a.pc
  else if t.st = .held ∨ t.st = .saved ∨ (t.st = .parked ∧ t.cause = .upcall) then
    match a.op, t.rslots.find? fun x => x.num == a.num with
    | .payload _, some x => finishSlot s a.core a.ctx x 0 0
    | _, _ => setCtx s a.core a.ctx { t with queued := t.queued ++ [(code, adr, a.whole)] }
  else
    match a.op with
    | .payload _ =>
      raiseUpcall (setCtx s a.core a.ctx { t.drop a.num with awaits := none }) a.core a.ctx code adr a.pc a.len none
    | _ => raiseUpcall s a.core a.ctx code adr a.pc a.len (some a.whole)

/-- Raise the next fault that a context has kept waiting. -/
def nextQueued (s : State) (n c : Nat) : State :=
  let t := ctxAt s n c
  match t.queued with
  | [] => s
  | (code, adr, a) :: r => raiseUpcall (setCtx s n c { t with queued := r }) n c code adr a.pc a.len (some a)

/-- Write the low `n` bytes that a GET brings into the own slice and set their granules full (R298). -/
def putGranules (s : State) (key : Nat) (bytes : List Byte) : State :=
  { s with
    mem := Memory.putBytes s.mem key bytes
    full := setRun s.full (key / 16) true (bytes.length / 16) }

/-- A GET's write to the own slice: it follows what the read at the far home saw (R119), so its die merges that (R124). -/
def getWrite (s : State) (r : Reply) (key : Nat) : State :=
  let a := r.acc
  let vec := if podOf a.home = podOf a.core then a.vec else (ctxAt s a.core a.ctx).dep
  mergeWrite (putGranules s key r.bytes) a.core a.core (stampOf s a.core a.core true).1 (vmax vec r.vec)

/-- Where a GET puts its granules: the operand names the own slice. -/
def ownKey (a : Access) (adr : Word) : Nat :=
  if isPrivAdr adr then sliceKey a.core (0x300000 + 0x10000 * a.ctx + bitsOf adr 0 17)
  else sliceKey a.core (bitsOf adr 0 23)

/-- Where the bytes that a GET brings are written: in the visible copy of the operand's region (R69, R298). -/
def getKey (s : State) (a : Access) (len : Nat) : Nat :=
  if isPrivAdr a.adr2 then ownKey a a.adr2
  else
    match sliceView s a.core a.part a.supr a.core (bitsOf a.adr2 0 23) len false true false with
    | .ok v => v.key
    | .bad .. => ownKey a a.adr2

/-- A reply reaches a slot (R207). -/
def deliverSlotted (s : State) (r : Reply) : State :=
  let a := r.acc
  let t := ctxAt s a.core a.ctx
  match t.rslots.find? fun x => x.num == a.num && !x.arr with
  | none => s
  | some x =>
    let flt : Option (Nat × Nat × Word) :=
      match r.ans with
      | .fault code adr => some (lowLane a.pred, code, adr)
      | .lost => some (lowLane a.pred, fDIELOST, a.adr)
      | .data _ => none
    let data := match r.ans with | .data v => mergeBits x.data v r.mask | _ => x.data
    let x' := { x with
      data := data
      mask := match r.ans with | .data _ => x.mask ||| r.mask | _ => x.mask
      left := x.left - 1
      flt := lowestFlt x.flt flt }
    let t := { t with
      rslots := t.rslots.map fun y => if y.num = a.num then x' else y
      dep := match r.ans with | .data _ => vmax t.dep r.vec | _ => t.dep }
    let s := setCtx s a.core a.ctx t
    let s :=
      match a.op with
      | .payload _ => setCtx s a.core a.ctx { t with paybuf := some (t.paybuf.getD [] ++ r.bytes) }
      | _ => if r.bytes = [] then s else getWrite s r (getKey s a r.bytes.length)
    if 0 < x'.left then s
    else
      match x'.flt with
      | none => finishSlot s a.core a.ctx x' x'.data x'.mask
      | some f => lateFault s a f.2.1 f.2.2

/-- Lane flags that reach a context: into its image too while it is saved (R89, R207). -/
def landFlags (s : State) (n c : Nat) (fl : VWord) : State :=
  let t := ctxAt s n c
  let s := setCtx s n c { t with lanef := Vector.ofFn fun i : Fin 32 => t.lanef.get i ||| flagsAt fl i.val }
  if t.st = .saved then
    let k := imageKey s n c + 2832
    { s with mem := Memory.putBytes s.mem k ((List.range 32).map fun i => Memory.get s.mem (k + i) ||| (flagsAt fl i).setWidth 8) }
  else s

/-- An acknowledgement reaches its context (R125); a vector store's brings its lanes' flags (R89). -/
def deliverAck (s : State) (r : Reply) : State :=
  let a := r.acc
  match (ctxAt s a.core a.ctx).acks.find? fun u => u.num == a.num with
  | none => s
  | some u =>
    let s := match r.ans with | .data v => if a.op.vector then landFlags s a.core a.ctx v else s | _ => s
    let t := ctxAt s a.core a.ctx
    let flt : Option (Nat × Nat × Word) :=
      match r.ans with
      | .fault code adr => some (lowLane a.pred, code, adr)
      | .lost => some (lowLane a.pred, fDIELOST, a.adr)
      | .data _ => none
    let u' := { u with left := u.left - 1, flt := lowestFlt u.flt flt }
    if 0 < u'.left then
      setCtx s a.core a.ctx { t with acks := t.acks.map fun x => if x.num = a.num then u' else x }
    else
      match u'.flt with
      | none => setCtx s a.core a.ctx (t.drop a.num).replyWake
      | some f =>
        lateFault (setCtx s a.core a.ctx { t with acks := t.acks.map fun x => if x.num = a.num then u' else x }) a f.2.1 f.2.2

/-- The issuer's interface forgets a request that has been answered (R123). -/
def forgetAnswered (s : State) (a : Access) : State :=
  { s with keptReq := s.keptReq.filter fun p => match p.body with | .access b => b.num != a.num || b.pred != a.pred | _ => true }

/-- A reply or acknowledgement arrives: the sender's interface forgets the kept request, and the context takes it. One
for an activation that has gone is dropped. -/
def deliver (s : State) (r : Reply) : State :=
  let a := r.acc
  let s := forgetAnswered s a
  let t := ctxAt s a.core a.ctx
  if t.act ≠ a.act ∨ t.st = .free then
    (if a.slotted then s
     else match r.ans with
       | .data _ => s
       | .fault code adr => lateFault s a code adr
       | .lost => lateFault s a fDIELOST a.adr)
  else if a.slotted then deliverSlotted s r
  else deliverAck s r

/-- Free a reply reservation and wake a context that waits for one (R27). -/
def releaseResv (s : State) (n id : Nat) : State :=
  let k := coreAt s n
  wakeAll (setCore s n { k with resv := k.resv.filter fun x => x != id }) n .send

/-- What is lost for good is told to its issuer (R123, R215). -/
def loseBody (s : State) (b : Body) : State :=
  match b with
  | .access a => deliver s ⟨a, .lost, 0, [], zeroVec⟩
  | .red r => if r.last then deliver s ⟨r.acc, .lost, 0, [], zeroVec⟩ else s
  | .msg m =>
    match m.kind with
    | .request id => releaseResv (dieLostNotice s m.src m.ctx (dieOf m.dst) m.dest) m.src id
    | .reply _ => dieLostNotice s m.src m.ctx (dieOf m.dst) m.dest
    | _ => s
  | _ => s

end Sys2Proof.Machine
end

