-- ==== Sys2Proof/Machine/Messages.lean ====
section
/-! DEFINITION. Sys2Proof/Machine/Messages.lean: class tables (R21-R24), the inbox, acceptance and refusal (R26-R30),
dispatch and activation (R32, R33, R199), the send queue (R38, R39), and task deques (R40-R43). -/

namespace Sys2Proof.Machine

/-! ## The class table -/

def classKey (n cls : Nat) : Nat := sliceKey n (0x410000 + 8 * cls)
def classWord (s : State) (n cls : Nat) : Nat := Memory.read s.mem (classKey n cls) 8
/-- Window size of an entry in bytes (R21). -/
def classWin (e : Nat) : Nat := if nbits e 44 4 = 0 then 0 else 2 ^ (nbits e 44 4 + 8)
def classEn (s : State) (n cls : Nat) : Bool := nbits (classWord s n cls) 42 1 == 1
/-- Set or clear EN of a class (R339). -/
def setEn (s : State) (n cls : Nat) (on : Bool) : State :=
  let e := classWord s n cls
  let v := e - nbits e 42 1 * 4398046511104 + (if on then 4398046511104 else 0)
  { s with mem := Memory.write s.mem (classKey n cls) 8 v }

/-- %TAGEN (R107). -/
def tagEn (s : State) (n : Nat) : Word :=
  BitVec.ofNat 64 (packElems 1 ((List.range 64).map fun c => if classEn s n c then 1 else 0))
/-- %TAGPND (R29, R33): classes with an accepted, undispatched message. -/
def tagPnd (s : State) (n : Nat) : Word :=
  let k := coreAt s n
  BitVec.ofNat 64 (packElems 1 ((List.range 64).map fun c => if k.inbox.any fun e => e.msg.cls == c then 1 else 0))

/-! ## The inbox (R26-R30) -/

/-- General slots of a message (R26). -/
def generalSlots (m : Msg) : Nat := (32 + 8 * m.narg + m.payload.length + 63) / 64
def generalUsed (k : Core) : Nat := k.inbox.foldl (fun a e => a + e.slots) 0
/-- Undispatched messages of a class in the general area; a reply or a refusal stands in its reserved slot and does not
count against QUOTA (R29; DESIGN CHOICE, log 77). -/
def classUsed (k : Core) (cls : Nat) : Nat := (k.inbox.filter fun e => e.msg.cls == cls && e.slots != 0).length
/-- RPLY messages without a reservation that the reply area holds (R28). -/
def unreservedUsed (k : Core) : Nat :=
  (k.inbox.filter fun e => e.slots == 0 && (match e.msg.kind with | .unreserved => true | _ => false)).length

/-- Why a REQ or BULK message is refused: 1 quota, 2 inbox full, 3 window too small; 0 when it is accepted (R29, R30). Where
several cases apply R30 gives no order: the model reports the first in this one (DESIGN CHOICE, log 73). -/
def refusalReason (s : State) (m : Msg) : Nat :=
  let k := coreAt s m.dst
  let e := classWord s m.dst m.cls
  if nbits e 32 8 ≠ 0 ∧ nbits e 32 8 ≤ classUsed k m.cls then 1
  else if 384 < generalUsed k + generalSlots m then 2
  else if classWin e < m.payload.length then 3
  else 0

/-- Put an accepted message into the inbox; a halted supervisor context goes on (R300). -/
def acceptMsg (s : State) (m : Msg) (slots : Nat) : State :=
  let k := coreAt s m.dst
  wakeHalted (setCore s m.dst { k with inbox := k.inbox ++ [⟨m, slots, k.order⟩], order := k.order + 1 }) m.dst

/-- A message on RPLY that answers another (R27, R30). -/
def answerMsg (s : State) (m : Msg) (kind : MsgKind) (cls : Nat) (args : List Word) : State :=
  let r : Msg := { m with
    kind := kind
    cls := cls
    prio := 0
    narg := args.length
    args := eightArgs args
    payload := []
    src := m.dst
    dst := m.src
    dest := coreAdr s m.dst m.src
    bulk := false
    vec := passVec s m.dst m.src }
  transmit s m.dst m.src .rply m.part m.inc false (.msg r)

/-- A refused message returns to its sender's class 62 (R30). -/
def refuseMsg (s : State) (m : Msg) (id reason : Nat) : State :=
  let hdr : Word := (m.hdr &&& BitVec.ofNat 64 0x3FFFFFFFFFFFFFFF) ||| BitVec.ofNat 64 (reason * 2 ^ 62)
  answerMsg s m (.refusal id) 62 ([m.dest, hdr] ++ m.args.take 6)

/-- Is the identifier one of the core's reservations? -/
def reserved (k : Core) (id : Nat) : Bool := k.resv.contains id

/-- A core grants its free unreserved reply slots, at most `n`, to the originators that wait, in the order in which their
requests reached it (R28). -/
def grantSlots (s : State) (core : Nat) : Nat → State
  | 0 => s
  | n + 1 =>
    let k := coreAt s core
    match k.rplyWait with
    | [] => s
    | m :: r =>
      if unreservedUsed k < 16 then grantSlots (acceptMsg (setCore s core { k with rplyWait := r }) m 0) core n else s

/-- A message reaches its destination's inbox (R28, R29). For a RPLY message without a reservation it is its originator's
request that does: it waits its turn for a slot. A host port keeps what is refused (R226). -/
def arriveMsg (s : State) (m : Msg) : State :=
  let k := coreAt s m.dst
  match m.kind with
  | .request id =>
    let r := refusalReason s m
    if r = 0 then acceptMsg s m (generalSlots m) else refuseMsg s m id r
  | .host _ =>
    if refusalReason s m = 0 ∧ !((pkgAt s (pkgOf m.dst)).hostHeld.any fun h => h.kind == m.kind) then
      acceptMsg s m (generalSlots m)
    else
      let g := pkgAt s (pkgOf m.dst)
      setPkg s (pkgOf m.dst) { g with hostHeld := g.hostHeld ++ [m] }
  | .reply id => if reserved k id then acceptMsg s m 0 else s
  | .refusal id => if reserved k id then acceptMsg s m 0 else s
  | .empty id => releaseResv s m.dst id
  | .lost id => releaseResv s m.dst id
  | .unreserved => grantSlots (setCore s m.dst { k with rplyWait := k.rplyWait ++ [m] }) m.dst 16

/-! ## Dispatch and activation (R32, R33, R199) -/

/-- The effective priority of an accepted message (R32). -/
def effPrio (s : State) (n : Nat) (m : Msg) : Nat :=
  if m.prio = 0 then nbits (classWord s n m.cls) 40 2 else m.prio

/-- The free context of lowest number. -/
def freeCtx (s : State) (n : Nat) : Option Nat := (List.range 16).find? fun c => (ctxAt s n c).st == .free

/-- Contexts that hold activations of classes other than 63. -/
def othersUsed (s : State) (n : Nat) : Nat :=
  ((List.range 16).filter fun c => (ctxAt s n c).st != .free && (ctxAt s n c).cls != 63).length

/-- A source of work. -/
inductive Work
  | msg (i : Nat)
  | upc (i : Nat)
  | task
deriving DecidableEq, Repr

/-- A candidate: its effective priority, its acceptance number and itself. -/
def workList (s : State) (n : Nat) (others : Bool) : List (Nat × Nat × Work) :=
  let k := coreAt s n
  ((List.range k.inbox.length).zip k.inbox).filterMap (fun e =>
    if classEn s n e.2.msg.cls && (others || e.2.msg.cls == 63) then some (effPrio s n e.2.msg, e.2.order, Work.msg e.1) else none) ++
  (match k.upcalls with
   | u :: _ => if classEn s n 63 then [(nbits (classWord s n 63) 40 2, u.order, Work.upc 0)] else []
   | [] => [])

/-- The best candidate: highest priority, then earliest accepted. -/
def bestWork : List (Nat × Nat × Work) → Option Work
  | [] => none
  | w :: r => some (r.foldl (fun b x => if b.1 < x.1 ∨ (b.1 = x.1 ∧ x.2.1 < b.2.1) then x else b) w).2.2

/-- What a dispatch takes next (R32). -/
def nextWork (s : State) (n : Nat) : Option Work :=
  if !mayDispatch s n || dieDead s (dieOf n) || (freeCtx s n).isNone then none
  else
    let others := decide (othersUsed s n < 15)
    match bestWork (workList s n others) with
    | some w => some w
    | none =>
      match (coreAt s n).deque with
      | t :: _ =>
        let cls := (t.words.headD 0).toNat % 64
        if classEn s n cls && (others || cls == 63) then some .task else none
      | [] => none

/-- What activation gives a context, whatever started it (R33); its job has had work (R224). -/
def activate (s : State) (n c cls prio : Nat) (args : List Word) (src rply : Word) (owes c63 : Bool) (vec : Vec16) : State :=
  let old := ctxAt s n c
  let e := classWord s n cls
  let win := classWin e
  let (act, s) := fresh s
  let s := noteWork s n (nbits e 48 16)
  let x := Vector.ofFn fun i : Fin 32 =>
    if i.val = 2 then BitVec.ofNat 64 (13835058055282163712 + win)
    else if 8 ≤ i.val ∧ i.val < 16 then args.getD (i.val - 8) 0 else 0
  setCtx s n c { Ctx.reset n c with
    st := .running
    act := act
    cls := cls
    prio := prio
    c63 := c63
    ldr := nbits e 31 1 == 1
    owes := owes
    job := nbits e 48 16
    win := win
    pol := nbits e 43 1 == 1
    pc := BitVec.ofNat 64 (2 * nbits e 0 15)
    x := x
    srcadr := src
    rplyadr := rply
    seed := old.seed
    dep := vec
    epc := old.epc
    emode := old.emode
    scause := old.scause
    stval := old.stval }

/-- The reply address of a REQ or BULK message (R107). -/
def replyAdr (s : State) (n : Nat) (m : Msg) (id : Nat) : Word := coreAdr s n m.src ||| BitVec.ofNat 64 (id % 8388608)

/-- Start the message at place `i` of the inbox in context `c`. -/
def startMsg (s : State) (n c i : Nat) : State :=
  let k := coreAt s n
  match k.inbox[i]? with
  | none => s
  | some e =>
    let m := e.msg
    let prio := effPrio s n m
    let s := setCore s n { k with inbox := k.inbox.eraseIdx i }
    let s :=
      match m.kind with
      | .reply id => releaseResv s n id
      | .refusal id => releaseResv s n id
      | .unreserved => grantSlots s n 16
      | _ => s
    let rply := match m.kind with | .request id => replyAdr s n m id | _ => 0
    let owes := match m.kind with | .request _ => true | _ => false
    let s := activate s n c m.cls prio (m.args.take m.narg) (coreAdr s n m.src) rply owes (m.cls == 63) m.vec
    { s with mem := Memory.putBytes s.mem (sliceKey n (0x300000 + 0x10000 * c)) m.payload }

/-- Start the class 63 activation of an upcall or notice (R199, R200); a notice that its raiser holds takes the place. -/
def startUpcall (s : State) (n c : Nat) : State :=
  let k := coreAt s n
  match k.upcalls with
  | [] => s
  | u :: r =>
    let s := setCore s n { k with upcalls := r }
    let s :=
      match k.noticeHeld with
      | h :: hs =>
        if noticeCount (coreAt s n) < 32 then queueUpcall (setCore s n { coreAt s n with noticeHeld := hs }) n h else s
      | [] => s
    let s := activate s n c 63 (nbits (classWord s n 63) 40 2) [] (coreAdr s n n) 0 false true zeroVec
    setCtx s n c { ctxAt s n c with fltcode := u.code, fltadr := u.adr, fltctx := u.ctx, fltpc := u.pc }

/-- Start the record at the bottom of the deque (R40). -/
def startTask (s : State) (n c : Nat) : State :=
  let k := coreAt s n
  match k.deque with
  | [] => s
  | t :: r =>
    let h := (t.words.headD 0).toNat
    let s := setCore s n { k with deque := r }
    activate s n c (h % 64) (nbits (classWord s n (h % 64)) 40 2) (t.words.tail.take (h / 64 % 8)) (coreAdr s n t.src) 0 false
      (h % 64 == 63) t.vec

/-- A dispatch (R32). -/
def dispatchCore (s : State) (n : Nat) : State :=
  match nextWork s n, freeCtx s n with
  | some (.msg i), some c => startMsg s n c i
  | some (.upc _), some c => startUpcall s n c
  | some .task, some c => startTask s n c
  | _, _ => s

/-- Dispatch all that can be dispatched, at most `n` activations. -/
def dispatchMany (s : State) (core : Nat) : Nat → State
  | 0 => s
  | n + 1 => if (nextWork s core).isSome then dispatchMany (dispatchCore s core) core n else s

/-- A core dispatches whenever it can (R32): before its next cycle, and before anything else reaches its inbox. -/
def dispatchAll (s : State) (n : Nat) : State := dispatchMany s n 16

/-- A context becomes free (R286, R278). -/
def freeContext (s : State) (n c : Nat) : State :=
  let s := giveSlot s n c
  let t := ctxAt s n c
  setCtx s n c { Ctx.reset n c with
    seed := t.seed
    x := t.x
    v := t.v
    p := t.p
    tm := t.tm
    org := t.org
    lanef := t.lanef
    round := t.round
    sflags := t.sflags
    cls := t.cls
    stall := t.stall
    epc := t.epc
    emode := t.emode
    scause := t.scause
    stval := t.stval }

/-! ## The send queue (R38, R39) -/

/-- A fresh identifier of a reply reservation, from 1 to 2^23 - 1. -/
def newResv (k : Core) : Nat :=
  ((List.range 64).map fun i => (k.resvNext - 1 + i) % 8388607 + 1).find? (fun i => !k.resv.contains i) |>.getD 1

/-- Put a message into the send queue. -/
def enqueueMsg (s : State) (n : Nat) (m : Msg) : State :=
  let k := coreAt s n
  setCore s n { k with sendq := k.sendq ++ [m] }

/-- A SQFULL fault is counted (R39). -/
def countSqfull (s : State) (n : Nat) : State :=
  let k := coreAt s n
  setCore s n { k with sqfaults := k.sqfaults + 1 }

/-- Is the send queue full (R38)? -/
def sendFull (k : Core) : Bool := decide (k.sqlim ≤ k.sendq.length)

def msgNet (m : Msg) : Net :=
  match m.kind with
  | .request _ => if m.bulk then .bulk else .req
  | _ => .rply

/-- The oldest entry leaves the queue; contexts that waited for room go on; when the queue is empty the SQFULL faults
since the last notice are reported (R38, R39). -/
def leaveQueue (s : State) (n : Nat) : State :=
  let k := coreAt s n
  match k.sendq with
  | [] => s
  | m :: r =>
    let note := r.isEmpty && k.sqfaults != 0 && k.sqnote != 0
    let s := setCore s n { k with sendq := r, sqfaults := if r.isEmpty then 0 else k.sqfaults }
    let s := wakeAll s n .send
    let s :=
      if dieOf m.dst ≠ dieOf n ∧ unreachable s n (dieOf m.dst) then loseBody s (.msg m)
      else transmit s n m.dst (msgNet m) m.part m.inc false (.msg m)
    if note then sendUnreserved s n n k.sqnote [BitVec.ofNat 64 k.sqfaults] m.part else s

/-! ## Task deques (R40-R43) -/

/-- The neighbour of a core on its die in direction 0 N, 1 E, 2 S or 3 W. -/
def neighbour (n d : Nat) : Option Nat :=
  let m :=
    match d with
    | 0 => if rowOf n = 0 then none else some (n - 32)
    | 1 => if colOf n = 31 then none else some (n + 1)
    | 2 => if rowOf n = 31 then none else some (n + 32)
    | _ => if colOf n = 0 then none else some (n - 1)
  m.bind fun x => if coreExists x then some x else none

/-- Neighbours of a core on its die, in the order N, E, S, W. -/
def neighbours (n : Nat) : List Nat := (List.range 4).filterMap (neighbour n)

def dequeLen (s : State) (n : Nat) : Nat := (coreAt s n).deque.length

/-- The least-loaded of some cores, the first of equals. -/
def leastLoaded (s : State) : List Nat → Option Nat
  | [] => none
  | a :: r => some (r.foldl (fun b x => if dequeLen s x < dequeLen s b then x else b) a)

/-- Push a record at the bottom of a deque. -/
def pushBottom (s : State) (n : Nat) (t : Task) : State :=
  let k := coreAt s n
  setCore s n { k with deque := t :: k.deque }

/-- Put records on the top of a deque, the first of them below the rest. -/
def pushTop (s : State) (n : Nat) (ts : List Task) : State :=
  let k := coreAt s n
  setCore s n { k with deque := k.deque ++ ts }

/-- The neighbour that takes a record which its own deque has no room for (R41). The steal network's neighbours are all the
adjacent cores of the die, whatever their partition (DESIGN CHOICE, log 73). -/
def overflowCore (s : State) (n : Nat) : Option Nat := leastLoaded s ((neighbours n).filter fun m => decide (dequeLen s m < 256))

/-- Does the steal condition of R42 hold now? -/
def stealIdle (s : State) (n : Nat) : Bool :=
  let k := coreAt s n
  (freeCtx s n).isSome && k.deque.isEmpty && !(k.inbox.any fun e => classEn s n e.msg.cls)

end Sys2Proof.Machine
end

