-- ==== Sys2Proof/Machine/Paths.lean ====
section
/-! DEFINITION. Sys2Proof/Machine/Paths.lean: bridges, rails and fibres (R7, R8, R15), the hop tables (R169, R170), and the ways
that they leave between two dies (R160, R172, R173, R215). -/

namespace Sys2Proof.Machine

/-! ## Bridges and rails (R7, R8) -/

/-- The die-to-die bridges of a package. -/
def bridges : List (Nat × Nat) :=
  [(0, 1), (1, 2), (2, 3), (4, 5), (5, 6), (6, 7), (0, 4), (1, 5), (2, 6), (3, 7), (8, 1), (8, 2), (8, 5), (8, 6)] ++
  [(9, 0), (9, 4), (10, 1), (10, 5), (11, 2), (11, 6), (12, 3), (12, 7), (13, 8), (13, 9), (13, 10), (13, 11), (13, 12)]

/-- The number of the bridge between two parts. -/
def bridgeOf (a b : Nat) : Option Nat := bridges.findIdx? fun e => e == (a, b) || e == (b, a)

/-- Number of the link that rail `k` makes toward pod position `p`: bridges come first. -/
def railLink (k p : Nat) : Nat := 32 + 8 * k + p

/-- Number of the link that fibre `f` of the switch chiplet makes. -/
def fibreLink (f : Nat) : Nat := 64 + f

/-- Is the bridge between two parts of a package up? -/
def bridgeUp (s : State) (pkg a b : Nat) : Bool :=
  match bridgeOf a b with
  | some i => !(pkgAt s pkg).failed.contains i && !dieDead s (16 * pkg + a) && !dieDead s (16 * pkg + b)
  | none => false

/-- Is rail `k` between two positions of a pod up? -/
def railUp (s : State) (pod k x y : Nat) : Bool :=
  x != y && decide (y < 8) && !(pkgAt s (8 * pod + x)).failed.contains (railLink k y) && !(pkgAt s (8 * pod + x)).dead &&
    !(pkgAt s (8 * pod + y)).dead

/-! ## Hop tables (R169, R170) -/

/-- A word of a package's fabric-control block. -/
def fabWord (s : State) (pkg off : Nat) : Nat := Memory.read s.mem (sliceKey (fabricCore pkg) off) 8
def setFab (s : State) (pkg off v : Nat) : State :=
  { s with mem := Memory.write s.mem (sliceKey (fabricCore pkg) off) 8 v }

/-- Offset of the live tables above the staged ones. -/
def liveOff : Nat := 0x10000
def dieEntry (s : State) (pkg base n e : Nat) : Nat := fabWord s pkg (base + 8 * (16 * n + e))
def pkgEntry (s : State) (pkg base k p : Nat) : Nat := fabWord s pkg (base + 0x800 + 8 * (8 * k + p))
def podEntry (s : State) (pkg base t : Nat) : Nat := fabWord s pkg (base + 0x900 + 8 * t)

/-- PRI and, if valid, ALT of an entry in use. -/
def mainHops (e : Nat) : List Nat :=
  if nbits e 63 1 = 0 then [] else nbits e 0 4 :: (if nbits e 8 1 = 1 then [nbits e 4 4] else [])
/-- ESC of an entry in use. -/
def escHop (e : Nat) : List Nat := if nbits e 63 1 = 0 then [] else [nbits e 9 4]

/-! ## Ways through the fabric (R160, R170, R172, R173) -/

/-- The hops that an entry gives a packet among `n` neighbours of which `up` tells whether the link to them works: PRI; where
its hop has failed, ALT; where that is not valid or has failed too, ESC, and from there on ESC alone (R170, R172). With each
goes whether the packet is on the escape channel. An entry that is not in use gives every neighbour (log 38). -/
def hopsOf (e n : Nat) (up : Nat → Bool) (esc : Bool) : List (Nat × Bool) :=
  let pri := nbits e 0 4
  let alt := nbits e 4 4
  if nbits e 63 1 = 0 then ((List.range n).filter up).map fun h => (h, esc)
  else if !esc && up pri then [(pri, false)]
  else if !esc && nbits e 8 1 == 1 && up alt then [(alt, false)]
  else if up (nbits e 9 4) then [(nbits e 9 4, true)]
  else []

/-- Places reached from some places in at most `n` steps. -/
def spread (f : Nat → List Nat) : Nat → List Nat → List Nat → List Nat
  | 0, _, seen => seen
  | n + 1, front, seen =>
    let new := (front.flatMap f).eraseDups.filter fun x => !seen.contains x
    if new = [] then seen else spread f n new (seen ++ new)

/-- Number of a place: package, part, and whether the packet is on the escape channel. -/
def spot (pkg part : Nat) (esc : Bool) : Nat := 2 * (16 * pkg + part) + if esc then 1 else 0

/-- Hops inside package `g` from part `n` toward part `e`. -/
def dieSteps (s : State) (g n e : Nat) (esc : Bool) : List Nat :=
  (hopsOf (dieEntry s g liveOff n e) 14 (bridgeUp s g n) esc).map fun h => spot g h.1 h.2

/-- Hops between packages of a pod, from package `g` on rail `k` toward package `d` (R8). -/
def railSteps (s : State) (g k d : Nat) (esc : Bool) : List Nat :=
  (hopsOf (pkgEntry s g liveOff k (d % 8)) 8 (railUp s (g / 8) k (g % 8)) esc).map fun h => spot (g / 8 * 8 + h.1) (9 + k) h.2

/-- Does fibre `f` of a package's switch chiplet work, and lead to a package with power? -/
def fibreUp (s : State) (g p f : Nat) : Bool :=
  !(pkgAt s g).failed.contains (fibreLink f) && !(pkgAt s g).dead && (Config.fibreTo g f p).any fun h => !(pkgAt s h).dead

/-- Hops between switch chiplets, from package `g` toward package `d` (R160, R170). -/
def fibreSteps (s : State) (g d : Nat) (esc : Bool) : List Nat :=
  (hopsOf (podEntry s g liveOff (d / 8)) 16 (fibreUp s g (d % 8)) esc).filterMap fun h =>
    (Config.fibreTo g h.1 (d % 8)).map fun q => spot q 13 h.2

/-- Steps of a flow on rail `k` to die `e` of package `d`; `far` tells whether it leaves its pod, and so passes the optical and
the switch chiplets of both packages (R160). -/
def flowSteps (s : State) (far : Bool) (k d e x : Nat) : List Nat :=
  let g := x / 32
  let n := x / 2 % 16
  let esc := x % 2 == 1
  let cross (a b : Nat) : List Nat := if bridgeUp s g a b then [spot g b esc] else []
  if g = d then (if far && n == 13 then cross 13 (9 + k) else dieSteps s g n e esc)
  else if !far then (if n = 9 + k then railSteps s g k d esc else dieSteps s g n (9 + k) esc)
  else if n = 13 then fibreSteps s g d esc
  else if n = 9 + k then cross (9 + k) 13
  else dieSteps s g n (9 + k) esc

/-- The rail of a die (R8); of the service die, for which R8 gives none, rail 0 (DESIGN CHOICE, log 79). -/
def railOf (d : Nat) : Nat := d % 16 % 4

/-- Is a byte's key in a live hop table? -/
def inLiveTable (k : Nat) : Bool :=
  decide (k < 4611686018427387904) && k / 8388608 % 16384 == 8224 && decide (liveOff ≤ k % 8388608) && decide (k % 8388608 < liveOff + 0xD00)

/-- Has no link failed, nothing lost its power, and no table been installed? Then every die reaches every other. -/
def fabricWhole (s : State) : Bool :=
  (s.pkgs.all fun e => e.2.failed == [] && !e.2.dead) && (s.dies.all fun e => !e.2.dead) && !(s.mem.any fun c => inLiveTable c.1)

/-- Does a way remain from die `a` to die `b`, for a packet that is on the escape channel, or for one that is not? -/
def wayTo (s : State) (a b : Nat) (esc : Bool) : Bool :=
  let far := decide (a / 128 ≠ b / 128)
  fabricWhole s ||
    (let start := spot (a / 16) (a % 16) esc
     let seen := spread (flowSteps s far (railOf a) (b / 16) (b % 16)) 2048 [start] [start]
     seen.contains (spot (b / 16) (b % 16) true) || seen.contains (spot (b / 16) (b % 16) false))

/-- Can die `b` be reached from die `a`? -/
def reach (s : State) (a b : Nat) : Bool := !dieDead s a && !dieDead s b && wayTo s a b false

/-- Can a packet on its way between dies still be delivered (R172, R173)? What a die that lost its power has sent is past it. -/
def Packet.hasWay (s : State) (p : Packet) : Bool := dieDead s (dieOf p.src) || wayTo s (dieOf p.src) (dieOf p.dst) p.esc

/-- Dies that a package may have to do with: those of its pod, of the packages that the state lists, and the far ends of its
flows. -/
def knownDies (s : State) (pkg : Nat) : List Nat :=
  let pod := pkg / 8
  ((((List.range 8).map fun x => 8 * pod + x) ++ s.pkgs.map fun e => e.1).eraseDups.flatMap fun g =>
    (List.range 9).map fun i => 16 * g + i) ++
  ((s.flows.filter fun f => f.src / 16 == pkg).map fun f => f.dst)

/-- The pairs of a die of a package and a die that it cannot reach (R215). -/
def outOfReach (s : State) (pkg : Nat) : List (Nat × Nat) :=
  if fabricWhole s then []
  else
    (List.range 9).flatMap fun i =>
      ((knownDies s pkg).eraseDups.filter fun d => d != 16 * pkg + i && !reach s (16 * pkg + i) d).map fun d => (16 * pkg + i, d)

/-- Dies that no live die of a package reaches, among some pairs. -/
def lostDies (s : State) (pkg : Nat) (out : List (Nat × Nat)) : List Nat :=
  let mine := ((List.range 9).map fun i => 16 * pkg + i).filter fun a => !dieDead s a
  (out.map fun e => e.2).eraseDups.filter fun d => mine.all fun a => a == d || out.contains (a, d)

end Sys2Proof.Machine
end

