-- ==== Sys2Proof/Machine/Tapes.lean ====
section
/-! DEFINITION. Sys2Proof/Machine/Tapes.lean: tape-quota records and the tape of a job at a die (R188-R192). -/

namespace Sys2Proof.Machine

/-- Key of tape-quota record `i` of a die, at its core (0, 0) (R189). -/
def quotaKey (d i : Nat) : Nat := sliceKey (1024 * d) (0x416000 + 16 * i)

/-- Does a record's word 0 name this job of this partition, valid? -/
def quotaNames (w part job : Nat) : Bool := nbits w 63 1 == 1 && nbits w 16 5 == part && nbits w 0 16 == job

/-- The valid record of a job at a die. -/
def quotaRec (s : State) (d part job : Nat) : Option Nat :=
  (List.range 512).find? fun i => quotaNames (Memory.read s.mem (quotaKey d i) 8) part job

/-- The lowest free record of a die. -/
def quotaFree (s : State) (d : Nat) : Option Nat :=
  (List.range 512).find? fun i => nbits (Memory.read s.mem (quotaKey d i) 8) 63 1 == 0

/-- LIMIT of a job at a die, 0 without a record (R189). -/
def tapeLimit (s : State) (d part job : Nat) : Nat :=
  match quotaRec s d part job with
  | some i => Memory.read s.mem (quotaKey d i + 8) 8 % 8388608
  | none => 0

/-- The tape of a job at a die. -/
def tapeOf (s : State) (d part job : Nat) : Tape :=
  ((dieAt s d).tapes.find? fun t => t.part == part && t.job == job).getD ⟨part, job, 0, 0, []⟩

def setTape (s : State) (d : Nat) (t : Tape) : State :=
  let k := dieAt s d
  setDie s d { k with tapes := t :: k.tapes.filter fun u => !(u.part == t.part && u.job == t.job) }

/-- %TAPEPOS (R107). -/
def tapePos (s : State) (d part job : Nat) : Nat := (tapeOf s d part job).pos

/-- Bytes that every tape of a die holds. -/
def tapeHeld (s : State) (d : Nat) : Nat := (dieAt s d).tapes.foldl (fun a t => a + (t.pos - t.trim)) 0

/-- Reserve `size` bytes for a job at a die: the entry's position, or none when the quota or the free store forbids it
(R188). -/
def tapeReserve (s : State) (d part job size : Nat) (e : TapeEntry) : Option (Nat × State) :=
  let t := tapeOf s d part job
  if tapeLimit s d part job < t.pos + size - t.trim ∨ 8388608 < tapeHeld s d + size then none
  else some (t.pos, setTape s d { t with pos := t.pos + size, entries := t.entries ++ [{ e with pos := t.pos, size := size }] })

/-- Change the entry at a position. -/
def tapeEdit (s : State) (d part job pos : Nat) (f : TapeEntry → TapeEntry) : State :=
  let t := tapeOf s d part job
  setTape s d { t with entries := t.entries.map fun e => if e.pos = pos then f e else e }

/-- The reservation at a position is released without being written (R188). -/
def tapeVoid (s : State) (d part job pos : Nat) : State :=
  tapeEdit s d part job pos fun e => { e with void := true, recs := [] }

/-- Release every entry that ends at or before `x` (R192). -/
def tapeTrim (t : Tape) (x : Nat) : Tape :=
  let gone := t.entries.filter fun e => decide (e.pos + e.size ≤ x)
  { t with
    trim := gone.foldl (fun a e => Nat.max a (e.pos + e.size)) t.trim
    entries := t.entries.filter fun e => decide (x < e.pos + e.size) }

/-- Release every entry of a job at a die: V of its record is cleared (R189). -/
def tapeClear (s : State) (d part job : Nat) : State :=
  let t := tapeOf s d part job
  if t.entries = [] ∧ t.trim = t.pos then s else setTape s d { t with trim := t.pos, entries := [] }

/-! ## Recording (R188, R190, R191) -/

/-- TID of an entry: its issuing core and its issuer position (R190). -/
def tidOf (core pos : Nat) : Nat × Nat := (core, pos % 1099511627776)

/-- An entry of a tape as a command reserves it. -/
def newEntry (tid : Nat × Nat) (kind role gen : Nat) (base : Word) (ne : Nat) (recs : List TapeRec) : TapeEntry :=
  ⟨0, 0, false, tid, kind, role, gen, base, ne, recs⟩

/-- Bytes of an entry with `n` records. -/
def entrySize (n : Nat) : Nat := 32 + 16 * n

/-- Release, unwritten, every reservation of a command that holds its TID: the issuer's and every far end's (R188). -/
def voidAll (s : State) (part job : Nat) (tid : Nat × Nat) : State :=
  { s with dies := s.dies.map fun e =>
      (e.1, { e.2 with tapes := e.2.tapes.map fun t =>
        if t.part = part ∧ t.job = job then
          { t with entries := t.entries.map fun x => if x.tid = tid then { x with void := true, recs := [] } else x }
        else t }) }

/-- Reserve far-end entries at some dies, each with its records; none when one is refused. -/
def reserveFar (s : State) (part job : Nat) : List (Nat × TapeEntry) → Option State
  | [] => some s
  | (d, e) :: r =>
    match tapeReserve s d part job (entrySize e.recs.length) e with
    | none => none
    | some x => reserveFar x.2 part job r

/-- Reserve what can be reserved: what `reserveFar` has taken when one is refused. -/
def reserveSome (s : State) (part job : Nat) : List (Nat × TapeEntry) → State
  | [] => s
  | (d, e) :: r =>
    match tapeReserve s d part job (entrySize e.recs.length) e with
    | none => s
    | some x => reserveSome x.2 part job r

/-- The position of the package that a packet of die `a` for another package of its pod enters first, on its rail (R170). -/
def viaOf (s : State) (a b : Nat) : Nat :=
  match railSteps s (a / 16) (railOf a) (b / 16) false with
  | x :: _ => if nbits (pkgEntry s (a / 16) liveOff (railOf a) (b / 16 % 8)) 63 1 = 0 then b / 16 % 8 else x / 32 % 8
  | [] => b / 16 % 8

/-- PATH of a record, from die `a` to die `b`: the rail of the sending die (R8), the first package on the way, ONDIE and
INTERPOD (R191). -/
def pathOf (s : State) (a b : Nat) : Nat :=
  if a = b then 4
  else if a / 128 ≠ b / 128 then 64 * railOf a + 8 * (b / 16 % 8) + 2
  else if a / 16 = b / 16 then 64 * railOf a + 8 * (b / 16 % 8)
  else 64 * railOf a + 8 * viaOf s a b

/-- Change record `idx` at both ends of a command's entries. A record whose row has moved tells the way it took. -/
def markRec (s : State) (part job : Nat) (tid : Nat × Nat) (idx : Nat) (f : TapeRec → TapeRec) : State :=
  let took (d : Nat) (r : TapeRec) : TapeRec := if r.flags = 0 then { r with path := pathOf s d (dieOf r.fin) } else r
  { s with dies := s.dies.map fun e =>
      (e.1, { e.2 with tapes := e.2.tapes.map fun t =>
        if t.part = part ∧ t.job = job then
          { t with entries := t.entries.map fun x =>
              if x.tid = tid then { x with recs := x.recs.map fun r => if r.idx = idx then took e.1 (f r) else r } else x }
        else t }) }

/-- The far-end entry of a TID at a die (R193). -/
def farEntry (s : State) (d part job : Nat) (tid : Nat × Nat) : Option TapeEntry :=
  (tapeOf s d part job).entries.find? fun x => x.role == 1 && x.tid == tid && !x.void

/-- The TID that a command of a core holds its entry at a position by: of the core that reserved it, when a DRES on another
core of the die goes on with it (R282). -/
def tidAt (s : State) (n part job pos : Nat) : Nat × Nat :=
  match (tapeOf s (dieOf n) part job).entries.find? fun x => x.pos == pos && x.role == 0 with
  | some x => x.tid
  | none => tidOf n pos

/-- Flags of a record. -/
def recLOST : Nat := 1
def recDEFERRED : Nat := 2

end Sys2Proof.Machine
end

