-- ==== Sys2Proof/Machine/Reset.lean ====
section
/-! DEFINITION. Sys2Proof/Machine/Reset.lean: the stop of a partition (R205, R208), its reset (R211, R212), the notices of
the service die (R219) and power-on reset (R62). -/

namespace Sys2Proof.Machine

/-- A notice of the service die to a partition's supervisor core, in class NCLASS; none of a partition with EN = 0 arises
(R219). -/
def serviceNotice (s : State) (pkg part what : Nat) : State :=
  let dst := supCoreOf s pkg part
  let adr := coreAdr s dst (serviceCore pkg) ||| BitVec.ofNat 64 (0x40 * part + 8)
  if !partEn s pkg part then s else sendUnreserved s (serviceCore pkg) dst (partNclass s pkg part) [adr, BitVec.ofNat 64 what] part

/-- Worker cores of a package whose quad belongs to a partition, quad by quad (R220). -/
def partCores (s : State) (pkg part : Nat) : List Nat :=
  (List.range 2048).flatMap fun q =>
    let n := 16384 * pkg + 1024 * (q / 256) + 64 * (q / 16 % 16) + 2 * (q % 16)
    if partOf s n = some part then [n, n + 1, n + 32, n + 33] else []

/-- Contexts of a core that hold an activation not saved. -/
def liveCtxs (s : State) (n : Nat) : List Nat :=
  (List.range 16).filter fun c => match (ctxAt s n c).st with | .free => false | .saved => false | _ => true

/-- Does a core's dispatch engine hold a REPLAY, which a stop lets finish (R320)? -/
def replaysLeft (s : State) (n : Nat) : Bool := (coreAt s n).dispq.any fun c => c.kind == .replay

/-- Save every context of a core, and then its engines (R205, R208); a core whose dispatch engine holds a REPLAY saves its
engines when the stop completes. -/
def stopCore (s : State) (n : Nat) : State :=
  let s := (liveCtxs s n).foldl (fun s c =>
    saveCtx s n c (tagPnd s n) (BitVec.ofNat 64 (tapePos s (dieOf n) (partNum s n) (ctxAt s n c).job))) s
  let s := setCore s n { coreAt s n with gaussq := [] }
  if replaysLeft s n then s else saveEngines s n

/-- Every context and engine of a partition in a package is saved (R205). -/
def stopPart (s : State) (pkg part : Nat) : State :=
  (partCores s pkg part).foldl stopCore (setStop s pkg part 1)

/-- A context after a partition reset: free, with its %SEED loaded (R212, R86). -/
def resetCtx (n c : Nat) (t : Ctx) : Ctx :=
  { Ctx.reset n c with
    x := t.x
    v := t.v
    p := t.p
    tm := t.tm
    org := t.org
    lanef := t.lanef
    round := t.round
    sflags := t.sflags
    epc := t.epc
    emode := t.emode
    scause := t.scause
    stval := t.stval }

/-- What a partition reset does to a core (R212). -/
def resetCore (s : State) (n : Nat) : State :=
  let k := coreAt s n
  setCore s n { k with
    ctxs := k.ctxs.map fun e => (e.1, resetCtx n e.1 e.2)
    inbox := []
    rplyWait := k.rplyWait.filter fun m => !isWorker m.src
    resv := []
    sqlim := 32
    sqnote := 0
    deque := []
    upcalls := []
    noticeHeld := []
    mboxes := []
    mill := { k.mill with
      bad := [0, 1, 2, 3]
      active := { k.mill.active with valid := false }
      shadow := { k.mill.shadow with valid := false }
      inbox := [] }
    copyq := []
    dispq := []
    gaussq := []
    grants := []
    idle := 0
    saved := false }

/-- Zero a partition's mirror in a package and empty its granules (R74). -/
def clearMirror (s : State) (pkg part : Nat) : State :=
  let k := mirrorKey pkg part 0
  { s with
    mem := clearRange s.mem k 65536
    full := s.full.filter fun g => decide (g < k / 16) || decide ((k + 65536) / 16 ≤ g) }

/-- The packages of a package's pod. -/
def podPkgs (pkg : Nat) : List Nat := (List.range 8).map fun i => pkg / 8 * 8 + i

/-- Does every core that a barrier's mask covers lie in the partition? -/
def barInside (s : State) (part key : Nat) (b : Barrier) : Bool :=
  !b.mask.isEmpty && (barMembers key b).all fun n => partOf s n == some part

/-- The reset of a partition in a package (R211, R212): the incarnation moves on, and its old traffic is stale. -/
def resetPart (s : State) (pkg part : Nat) : State :=
  let s := setSvc s pkg (0x40 * part + 2) 2 ((partInc s pkg part + 1) % 65536)
  let s := setStop s pkg part 3
  let mine (n : Nat) : Bool := pkgOf n == pkg && partOf s n == some part
  let s := { s with
    dies := s.dies.map fun e => (e.1, { e.2 with rowacc := e.2.rowacc.filter fun a => !mine a.core })
    cores := s.cores.map fun e => (e.1, { e.2 with grants := e.2.grants.filter fun g => !mine g.core }) }
  let s := (partCores s pkg part).foldl resetCore s
  let s := (s.bars.filter fun e => pkgOf (e.1 / 8388608) == pkg && barInside s part e.1 e.2).foldl
    (fun s e => endPhase s e.1 true) s
  (podPkgs pkg).foldl (fun s q => clearMirror s q part) s

/-- Memory that power-on reset leaves: Granary data, which hardware does not clear (R62), and the black-box record, which
keeps its contents (R229). -/
def keptCell (c : Host.Cell) : Bool :=
  (decide (4611686018427387904 ≤ c.1) && decide (c.1 < 9223372036854775808)) ||
    (c.1 / 8388608 % 16384 == 8256 && decide (c.1 < 4611686018427387904) &&
      ((decide (0x30000 ≤ c.1 % 8388608) && decide (c.1 % 8388608 < 0x30018)) ||
       (decide (0x200000 ≤ c.1 % 8388608) && decide (c.1 % 8388608 < 0x300000))))

/-- Power-on reset (R62). -/
def powerOn (s : State) : State :=
  { State.reset with
    sched := s.sched
    serial := s.serial
    free := s.free
    mem := s.mem.filter keptCell }

end Sys2Proof.Machine
end

