-- ==== Sys2Proof/Machine/Control.lean ====
section
/-! DEFINITION. Sys2Proof/Machine/Control.lean: loads and stores that reach control space, the fabric-control block and the
service block at their homes (R17, R22, R43, R45, R60, R153, R169, R171, R189, R209, R218-R221, R224, R226, R229). A store
is judged by the words it would leave, all of them, before any of them changes. -/

namespace Sys2Proof.Machine

/-- What stands at an offset of control space. -/
inductive CtlKind
  | classEntry | balint | savebase | desc | barWord | barMask | quota | mailbox
  | partWord | partZero | stopWord | pkgTable | hostPort | power | lcommit | licence | capability | boxRead | unfreeze
  | quad | energy | response | staged | fabricRead | commit | escroot | errmax | none
deriving DecidableEq, Repr

/-- Control space of a core (R21, R43, R45, R59, R153, R189, R209). -/
def coreKind (n off : Nat) : CtlKind :=
  let bar := if off % 256 < 8 then CtlKind.barWord else if 128 ≤ off % 256 then .barMask else .none
  if 0x410000 ≤ off ∧ off < 0x410200 then .classEntry
  else if 0x410200 ≤ off ∧ off < 0x410208 then .balint
  else if 0x410300 ≤ off ∧ off < 0x410308 ∧ isWorker n then .savebase
  else if 0x410400 ≤ off ∧ off < 0x410600 ∧ isWorker n then .desc
  else if 0x411000 ≤ off ∧ off < 0x411400 ∧ isWorker n ∧ reeveOf n = n then bar
  else if 0x412000 ≤ off ∧ off < 0x413000 ∧ isWorker n ∧ n % 1024 = 0 then bar
  else if 0x413000 ≤ off ∧ off < 0x414800 ∧ n % 16384 = 0 then bar
  else if 0x416000 ≤ off ∧ off < 0x418000 ∧ isWorker n ∧ n % 1024 = 0 then .quota
  else if 0x418000 ≤ off ∧ off < 0x41C000 then .mailbox
  else .none

/-- The fabric-control block (R169). -/
def fabricKind (off : Nat) : CtlKind :=
  if off < 0xD00 then .staged
  else if 0x10000 ≤ off ∧ off < 0x10D00 then .fabricRead
  else if 0x410000 ≤ off ∧ off < 0x410008 then .commit
  else if 0x410008 ≤ off ∧ off < 0x410010 then .fabricRead
  else if 0x410010 ≤ off ∧ off < 0x410018 then .escroot
  else if 0x410100 ≤ off ∧ off < 0x410108 then .errmax
  else if 0x410200 ≤ off ∧ off < 0x410A00 then .fabricRead
  else .none

/-- The service block (R218). -/
def serviceKind (off : Nat) : CtlKind :=
  if off < 0x600 then (if off % 64 < 8 then .partWord else if off % 64 < 16 then .stopWord else .partZero)
  else if 0x1000 ≤ off ∧ off < 0xD000 then .pkgTable
  else if 0xD000 ≤ off ∧ off < 0xD080 then .hostPort
  else if 0xE000 ≤ off ∧ off < 0xE018 then .power
  else if 0xE018 ≤ off ∧ off < 0xE020 then .lcommit
  else if 0xE800 ≤ off ∧ off < 0xF000 then .licence
  else if 0x20000 ≤ off ∧ off < 0x30000 then .capability
  else if 0x30000 ≤ off ∧ off < 0x30010 then .boxRead
  else if 0x30010 ≤ off ∧ off < 0x30018 then .unfreeze
  else if 0x40000 ≤ off ∧ off < 0x40800 then .quad
  else if 0x100000 ≤ off ∧ off < 0x180000 then .energy
  else if 0x200000 ≤ off ∧ off < 0x300000 then .boxRead
  else if 0x300000 ≤ off ∧ off < 0x380000 then .response
  else .none

def ctlKind (n off : Nat) : CtlKind :=
  if n % 16384 = 8224 then fabricKind off else if n % 16384 = 8256 then serviceKind off else coreKind n off

/-- The record that an offset of the tape-quota table lies in, as memory `m` holds it: valid, and of another partition? -/
def quotaForeign (m : List Host.Cell) (n off part : Nat) : Bool :=
  let w := Memory.read m (sliceKey n (off / 16 * 16)) 8
  nbits w 63 1 == 1 && nbits w 16 5 != part

/-- Does a partition own a quad of a die? -/
def dieHas (s : State) (d part : Nat) : Bool :=
  (List.range 256).any fun q => svcByte s (d / 16) (0x40000 + 256 * (d % 16) + q) == 128 + part

/-- May this access reach the words at an offset at all (R22, R23, R189)? The loader's permission reaches the cores of its
own partition. -/
def ctlReach (s : State) (supr : Bool) (part n off : Nat) : Bool :=
  supr ||
    (match ctlKind n off with
     | .quota => dieHas s (dieOf n) part && !quotaForeign s.mem n off part
     | .capability => true
     | _ => partOf s n == some part)

/-! ## Loads -/

/-- The byte that a load of control space reads; of COMMIT, for which R169 lists the write only, 0 (DESIGN CHOICE, log 79). -/
def ctlByte (s : State) (n off : Nat) : Byte :=
  match ctlKind n off with
  | .barWord => BitVec.ofNat 8 (barRead s (sliceKey n (off / 256 * 256)) / 256 ^ (off % 8))
  | .mailbox => 0
  | .commit => 0
  | .unfreeze => 0
  | _ => Memory.get s.mem (sliceKey n off)

/-- A load of `len` bytes: PROTECT, or the bytes. The staged licence record can only be written (R218). -/
def ctlLoad (s : State) (supr : Bool) (part n off len : Nat) : Nat × List Byte :=
  let offs := (List.range len).map fun i => off + i
  if offs.any fun o => ctlKind n o == .none || ctlKind n o == .licence || !ctlReach s supr part n o then (fPROTECT, [])
  else (0, offs.map (ctlByte s n))

/-! ## Stores -/

/-- The written bytes of the 8-byte word at `w`, over zeros. -/
def writtenWord (w off : Nat) (bytes : List Byte) : Nat :=
  ofBytes ((List.range 8).map fun i => if off ≤ w + i ∧ w + i < off + bytes.length then bytes.getD (w + i - off) 0 else 0)

/-- Every 16-byte record of the table but `i` differs from record `i` in partition or job, or one of them is free. -/
def quotaUnique (m : List Host.Cell) (n off : Nat) : Bool :=
  let i := (off - 0x416000) / 16
  let w := Memory.read m (quotaKey (n / 1024) i) 8
  nbits w 63 1 == 0 ||
    (List.range 512).all fun j => j == i || !quotaNames (Memory.read m (quotaKey (n / 1024) j) 8) (nbits w 16 5) (nbits w 0 16)

/-- The descriptor that an offset lies in, judged as R60 says. -/
def descGood (m : List Host.Cell) (n off : Nat) : Bool :=
  let k := sliceKey n (off / 16 * 16)
  let w0 := Memory.read m k 8
  let w1 := Memory.read m (k + 8) 8
  let lsz := nbits w0 45 5
  nbits w0 22 23 == 0 && nbits w1 44 20 == 0 &&
    (nbits w0 63 1 == 0 ||
      (decide (12 ≤ lsz) && decide (lsz ≤ 22) && nbits w0 0 22 % 2 ^ lsz == 0 &&
        nbits w1 22 22 % 2 ^ lsz == 0 &&
        fmtGeomOk (nbits w0 54 4) (nbits w0 52 2)))

/-- SAVEBASE (R209). -/
def savebaseGood (v : Nat) : Bool := v / 4194304 == 0 && v % 4096 == 0 && decide (v + 146944 ≤ 0x300000)

/-- The quad table's byte (R220): the partitions that the quad leaves and enters must be stopped. -/
def quadGood (s : State) (pkg q old new : Nat) : Bool :=
  let stopped (b : Nat) : Bool := decide (b < 128) || stopState s pkg (b % 32) == 2
  new / 32 % 4 == 0 && (old == new || (old < 128 && new < 128) || (old / 128 == new / 128 && old % 32 == new % 32) ||
    (stopped old && stopped new)) && decide (q < 2048)

/-- May a stop word take a command in a state (R219)? -/
def stopCmdOk (state cmd : Nat) : Bool := cmd != 2 || state == 2

/-- The fault of one 8-byte word `w` that a store touches, 0 for none: `m` is memory as the store would leave it, `val` the
written bytes over zeros. -/
def ctlCheck (s : State) (m : List Host.Cell) (supr : Bool) (part n w val : Nat) : Nat :=
  let k := sliceKey n w
  let new := Memory.read m k 8
  let pkg := pkgOf n
  let res (ok : Bool) : Nat := if ok then 0 else fRESFIELD
  match ctlKind n w with
  | .classEntry =>
    if !supr && nbits new 31 1 == 1 then fPROTECT else res (nbits new 15 16 == 0 && decide (nbits new 44 4 ≤ 8))
  | .balint => res (new / 65536 == 0)
  | .savebase => if supr then res (savebaseGood new) else fRESFIELD
  | .desc => res (descGood m n w)
  | .barWord => res (nbits new 48 15 == 0)
  | .barMask => 0
  | .quota =>
    if !supr && quotaForeign m n w part then fPROTECT
    else if w % 16 = 0 then res (nbits new 21 42 == 0 && decide (nbits new 16 5 ≤ 23) && quotaUnique m n w)
    else res (nbits new 23 41 == 0 && quotaUnique m n w)
  | .mailbox => 0
  | .partWord => res (nbits new 46 17 == 0 && nbits new 38 2 == 0 && nbits new 5 11 == 0)
  | .partZero => res (new == 0)
  | .stopWord => res (val / 4 == 0 && stopCmdOk (stopState s pkg (w / 64)) (val % 4))
  | .pkgTable => res ((List.range 4).all fun i => nbits new (16 * i + 10) 5 == 0)
  | .hostPort =>
    let ens := (List.range 16).filter fun i => nbits (Memory.read m (sliceKey n (0xD000 + 8 * i)) 8) 63 1 == 1
    res (nbits new 62 1 == 0 && nbits new 53 3 == 0 && nbits new 0 48 == 0 && decide (ens.length ≤ 4))
  | .lcommit => res (val == 1)
  | .licence => 0
  | .unfreeze => res (val == 1)
  | .quad =>
    res ((List.range 8).all fun i =>
      quadGood s pkg (w - 0x40000 + i) (Memory.get s.mem (k + i)).toNat (Memory.get m (k + i)).toNat)
  | .energy => res (val == 0)
  | .response => 0
  | .staged => 0
  | .commit => res (val == 1 && svcByteF s pkg 0x410008 % 4 != 1)
  | .escroot => res (new / 128 == 0)
  | .errmax => res (new / 4294967296 == 0)
  | .power => fPROTECT
  | .capability => fPROTECT
  | .boxRead => fPROTECT
  | .fabricRead => fPROTECT
  | .none => fPROTECT
where
  /-- A byte of the fabric-control block. -/
  svcByteF (s : State) (pkg off : Nat) : Nat := (Memory.get s.mem (sliceKey (fabricCore pkg) off)).toNat

/-- Queue a Crier message of the service die itself: kinds 4 to 8 (R162, R163). Where the queue holds 256 it is queued beyond them,
since R163 parks instructions only (DESIGN CHOICE, log 79). -/
def serviceCrier (s : State) (pkg kind : Nat) (val : Word) (body : List Nat) : State :=
  let g := pkgAt s pkg
  let m : CMsg := ⟨0, kind, pkg % 8, 0xFF, 0, 0, val, body, serviceCore pkg, none, zeroVec⟩
  setPkg s pkg { g with queue := g.queue ++ [m] }

/-- Add an event to the black-box record, unless it is frozen (R229). A fatal event freezes it. -/
def blackBox (s : State) (pkg code src : Nat) (fatal : Bool) (unit : Nat) (a b : Word) : State :=
  if svcWord s pkg 0x30008 8 % 2 = 1 then s
  else
    let i := svcWord s pkg 0x30000 8 % 32768
    let t := (Config.nanoseconds s.free).toNat
    let s := { s with free := s.free + 1 }
    let base := 0x200000 + 32 * i
    let s := setSvc s pkg base 8 t
    let s := setSvc s pkg (base + 8) 8 (code + 65536 * src + (if fatal then 16777216 else 0) + 4294967296 * unit)
    let s := setSvc s pkg (base + 16) 8 a.toNat
    let s := setSvc s pkg (base + 24) 8 b.toNat
    let s := setSvc s pkg 0x30000 8 ((i + 1) % 32768)
    if fatal then setSvc s pkg 0x30008 8 1 else s

/-- UNIT of a core in the black-box record (R229). -/
def unitOf (n : Nat) : Nat := 1048576 * dieField n + 32768 * rowOf n + 1024 * colOf n

/-- The service die records an MCHECK (R214); which faults it records is its own choice, and no other is (DESIGN CHOICE, log
41). `src` is 0 for a core's memory, 1 for an engine, 2 for an agent. -/
def boxMcheck (s : State) (n src : Nat) (adr : Word) : State := blackBox s (pkgOf n) fMCHECK src false (unitOf n) adr 0

/-- The security engine checks the staged licence record under the operator key of the booted image (R221). -/
def licenceCheck (s : State) (pkg : Nat) : State :=
  let bytes := Memory.readBytes s.mem (sliceKey (serviceCore pkg) 0xE800) 2048
  if (pkgAt s pkg).image.any fun i => Config.falconOk (i + 1) bytes then
    let s := setPkg s pkg { pkgAt s pkg with licNext := some (Config.licenceOf bytes).toNat }
    blackBox (setSvc s pkg 0xE018 8 Config.lcommitDone.toNat) pkg 0x0101 4 false 0 0 0
  else blackBox (setSvc s pkg 0xE018 8 3) pkg 0x0101 4 false 0 0 0

/-- A command to a stop word (R219). -/
def stopCommand (s : State) (pkg part cmd : Nat) : State :=
  let st := stopState s pkg part
  if cmd = 1 ∧ st = 0 then stopPart s pkg part
  else if cmd = 2 ∧ st = 2 then (partCores s pkg part).foldl restoreEngines (setStop s pkg part 0)
  else if cmd = 3 ∧ st ≠ 3 then resetPart s pkg part
  else s

/-- What a store to the word `w` does beyond writing its bytes; `s0` is the state before it. A tape-quota record that names another
partition or job than before, V still 1, releases the old one's entries, as clearing V does (R189 is silent, DESIGN CHOICE, log
79). -/
def ctlEffect (s0 s : State) (n w val : Nat) : State :=
  let k := sliceKey n w
  let pkg := pkgOf n
  let old := Memory.read s0.mem k 8
  let back (s : State) : State := { s with mem := Memory.write s.mem k 8 old }
  match ctlKind n w with
  | .barWord => barWritten s (sliceKey n (w / 256 * 256))
  | .barMask => barWritten s (sliceKey n (w / 256 * 256))
  | .quota =>
    let o := Memory.read s0.mem (sliceKey n (w / 16 * 16)) 8
    let new := Memory.read s.mem (sliceKey n (w / 16 * 16)) 8
    if nbits o 63 1 = 1 ∧ !quotaNames new (nbits o 16 5) (nbits o 0 16) then tapeClear s (n / 1024) (nbits o 16 5) (nbits o 0 16)
    else s
  | .mailbox => back s
  | .partWord => { s with mem := Memory.write s.mem (k + 2) 2 (nbits old 16 16) }
  | .stopWord => stopCommand (back s) pkg (w / 64) (val % 4)
  | .lcommit => licenceCheck (back s) pkg
  | .unfreeze => setSvc (back s) pkg 0x30008 8 0
  | .energy => { s with mem := Memory.write s.mem k 8 0 }
  | .errmax => if Memory.read s.mem k 4 = 0 then setPkg s pkg { pkgAt s pkg with laneWait := [] } else s
  | .commit =>
    let s := back s
    let s := { s with mem := Memory.write s.mem (sliceKey n 0x410008) 8 1 }
    serviceCrier s pkg 8 0 []
  | _ => s

/-- The 8-byte words that `len` bytes from `off` touch. -/
def wordsOf (off len : Nat) : List Nat := (List.range ((off + len - 1) / 8 - off / 8 + 1)).map fun i => 8 * (off / 8 + i)

/-- A store of bytes to control space: a fault code, or 0 with the state after it. -/
def ctlStore (s : State) (supr : Bool) (part n off : Nat) (bytes : List Byte) : Nat × State :=
  let ws := wordsOf off bytes.length
  let offs := (List.range bytes.length).map fun i => off + i
  if bytes = [] then (0, s)
  else if offs.any fun o => ctlKind n o == .none || !ctlReach s supr part n o then (fPROTECT, s)
  else
    let m := Memory.putBytes s.mem (sliceKey n off) bytes
    match ws.find? fun w => ctlCheck s m supr part n w (writtenWord w off bytes) != 0 with
    | some w => (ctlCheck s m supr part n w (writtenWord w off bytes), s)
    | none => (0, ws.foldl (fun t w => ctlEffect s t n w (writtenWord w off bytes)) { s with mem := m })

/-! ## Which row of the table a control store is -/

/-- The rows of the table for stores to control words. -/
inductive CtlRow
  | stop | go | reset | partEntry | quad | classTable | barrier | desc | quota | savebase | hostPort | lcommit | energy
  | unfreeze | commit | other
deriving DecidableEq, Repr

/-- The row for a store of bytes at an offset. -/
def ctlRow (n off : Nat) (bytes : List Byte) : CtlRow :=
  match ctlKind n off with
  | .stopWord =>
    let c := writtenWord (off / 8 * 8) off bytes % 4
    if c = 1 then .stop else if c = 2 then .go else if c = 3 then .reset else .partEntry
  | .partWord => .partEntry
  | .partZero => .partEntry
  | .quad => .quad
  | .classEntry => .classTable
  | .barWord => .barrier
  | .barMask => .barrier
  | .desc => .desc
  | .quota => .quota
  | .savebase => .savebase
  | .hostPort => .hostPort
  | .lcommit => .lcommit
  | .energy => .energy
  | .unfreeze => .unfreeze
  | .commit => .commit
  | _ => .other

end Sys2Proof.Machine
end

