-- ==== Sys2Proof/Machine/Home.lean ====
section
/-! DEFINITION. Sys2Proof/Machine/Home.lean: what each access does at its home at one instant (R56, R62-R64, R69-R74 and
the instruction reference), and what the home answers. -/

namespace Sys2Proof.Machine

/-- What an access does when its home applies it. -/
inductive Applied
  | answer (s : State) (r : Reply)
  | wait
  | parts (s : State)        -- contributions are on their way; the last of them acknowledges
deriving DecidableEq, Repr

/-- The context or engine that an access is made for. -/
def whoOf (a : Access) : Who := ⟨a.core, a.ctx, a.supr, a.ldr, a.part, a.win⟩

/-- Where its bytes are, with the permission it needs. `early` names a fault of the page itself (see `granView`). -/
def accView (s : State) (a : Access) (p : Place) (len : Nat) (rd wr : Bool) (early : View → Nat := fun _ => 0) : Seen :=
  match p with
  | .slice n off => sliceView s a.core a.part a.supr n off len rd wr false
  | .priv off => privView s a.core off len
  | .istore n off => .ok (rawView (sliceKey n off))
  | .ctl n off => .ok (rawView (sliceKey n off))
  | .gran pkg voff => granView s a.core a.part a.supr pkg voff len rd wr false a.ptes early
  | .sup voff =>
    match a.own with
    | some g => ownView g voff len
    | none =>
      match supView s a.core a.supr voff (if rd then 62 else 61) len with
      | .bad c x => .bad c x
      | .ok v => if rd && wr then supView s a.core a.supr voff 61 len else .ok v
  | .mirror poff => .ok (rawView (mirrorKey (pkgOf a.core) a.part poff))

/-- The full/empty bit of the granule at a key. -/
def isFull (s : State) (key : Nat) : Bool := memb s.full (key / 16)
/-- Do `n` granules all have the bit `b`? -/
def allBits16 (s : State) (key n : Nat) (b : Bool) : Bool := (List.range n).all fun i => memb s.full (key / 16 + i) == b
def setFull (s : State) (key n : Nat) (b : Bool) : State := { s with full := setRun s.full (key / 16) b n }

/-- Does a load touch an aborted granule of a reduction page (R73)? -/
def timedOut (s : State) (v : View) (len : Nat) : Bool :=
  v.red && (List.range ((len + 15) / 16)).any fun i => memb s.aborted (v.key / 16 + i)

/-- The merged vector that a reply brings within a pod (R124). A mirror's brings what the Crier writes applied to it released
(R119, R130). -/
def replyVec (s : State) (a : Access) : Vec16 :=
  if podOf a.core = podOf a.home then
    (if isMirrorAdr a.adr then vmax (dieVec s a.home) (pkgAt s (pkgOf a.home)).mvec else dieVec s a.home)
  else zeroVec

/-- A home applies a write: its stamp raises the die clock and the merged vector. -/
def noteWrite (s : State) (src home : Nat) (stamp vec : Vec16) : State :=
  let d := dieOf home
  let k := dieAt s d
  let clock :=
    if !isWorker src then k.clock
    else if pkgOf src = pkgOf home then vraise k.clock (dieField src) (stamp.toArray.getD (dieField src) 0)
    else if podOf src = podOf home then vraise k.clock (8 + posOf src) (stamp.toArray.getD (8 + posOf src) 0)
    else k.clock
  let v := if podOf src = podOf home then vmax stamp vec else zeroVec
  setDie s d { k with clock := clock, merged := vmax k.merged v }

def okReply (s : State) (a : Access) (v mask : VWord) (bytes : List Byte) : Applied :=
  .answer s ⟨a, .data v, mask, bytes, replyVec s a⟩
def okWord (s : State) (a : Access) (v : Nat) : Applied := okReply s a (BitVec.ofNat 1024 v) allBits []
def failReply (s : State) (a : Access) (code : Nat) (adr : Word) : Applied :=
  .answer s ⟨a, .fault code adr, 0, [], replyVec s a⟩
/-- A fault whose address is the access's own. -/
def failOwn (s : State) (a : Access) (code : Nat) : Applied := failReply s a code a.adr

/-- Go on with a view, or fail. -/
def withView (s : State) (a : Access) (seen : Seen) (f : View → Applied) : Applied :=
  match seen with
  | .bad c x => failReply s a c (x.getD a.adr)
  | .ok v => f v

/-! ## Attribute records and arming (R67, R71) -/

/-- Does a write of `len` bytes touch bytes 16-31 of an attribute record of the partition? 0 when it does not. A vector store
counts with all its bytes, the inactive ones too (R67 is silent, DESIGN CHOICE, log 73). -/
def attrGuard (s : State) (p : Place) (part len : Nat) : Nat :=
  match p with
  | .gran pkg voff =>
    match rootOf s pkg part with
    | none => 0
    | some r =>
      if voff + len ≤ r.2 ∨ r.2 + 131072 ≤ voff then 0
      else
        let at' := (List.range len).map fun i => (voff + i - r.2) % 32
        if at'.any fun b => decide (24 ≤ b) then fPROTECT else if at'.any fun b => decide (16 ≤ b) then fRESFIELD else 0
  | _ => 0

/-- The entries of a table that are valid, with their indexes. -/
def tableEntries (s : State) (pkg frame : Nat) : List (Nat × Nat) :=
  let b := granKey pkg (65536 * frame)
  (s.mem.filter fun c => decide (b ≤ c.1) && decide (c.1 < b + 32768) && (c.1 - b) % 8 == 7 && decide (128 ≤ c.2.toNat)).map
    fun c => ((c.1 - b) / 8, tableEntry s pkg frame ((c.1 - b) / 8))

/-- Every leaf of 64 KiB of a partition's table in a package: offset and entry. -/
def smallLeaves (s : State) (pkg root : Nat) : List (Nat × Nat) :=
  (tableEntries s pkg root).flatMap fun e1 =>
    if !pointerOk pkg e1.2 then []
    else (tableEntries s pkg (frameOf e1.2)).flatMap fun e2 =>
      if !pointerOk pkg e2.2 then []
      else (tableEntries s pkg (frameOf e2.2)).filterMap fun e3 =>
        if leafOk pkg e3.2 && nbits e3.2 49 2 == 0 then some (1099511627776 * e1.1 + 268435456 * e2.1 + 65536 * e3.1, e3.2) else none

/-- The reduction page whose record has index `aux`. -/
def redLeaf (s : State) (pkg root aux : Nat) : Option (Nat × Nat) :=
  (smallLeaves s pkg root).find? fun e => nbits e.2 51 1 == 1 && nbits e.2 0 12 == aux

/-- An aligned 8-byte store to bytes 16-23 of the record at `voff`, whose bytes stand at `key`: it arms the page (R71). To a
record that no reduction page names the word is stored as it is, must-be-zero bits [59:48] too (R67 and R71 are silent, DESIGN
CHOICE, log 77). -/
def armStore (s : State) (a : Access) (pkg root voff key v : Nat) (aux : Nat) : Applied :=
  let w := { s with mem := Memory.write s.mem key 8 v }
  match redLeaf s pkg root aux with
  | none => okWord w a 0
  | some (pv, pte) =>
    if !a.supr && nbits pte 60 1 == 0 then failOwn s a fPROTECT
    else if nbits v 32 16 = 0 ∨ nbits v 60 4 ≠ nbits pte 56 4 ∨ nbits v 48 12 ≠ 0 then failOwn s a fRESFIELD
    else
      let d := dieOf (agentOf pkg pv)
      let k := dieAt s d
      let page := granKey pkg (65536 * frameOf pte)
      let others := k.slots.filter fun x => x.page != page
      if 48 ≤ others.length then failReply s a fENGERR (granAdr s a.core pkg (voff - 16))
      else
        let (round, w) := fresh w
        let slot : RedSlot := ⟨page, key - 16, a.part, nbits v 60 4 == 2, nbits v 32 16, v % 4294967296, round, [], 4096⟩
        let w := setDie w d { k with slots := others ++ [slot] }
        let w := { w with
          mem := Memory.write w.mem (key + 8) 1 1
          full := setRun w.full (page / 16) false 4096
          aborted := w.aborted.filter fun g => decide (g < page / 16) || decide (page / 16 + 4096 ≤ g) }
        okWord w a 0

/-! ## The supervisor core's data cache (R133): write-through, Granary lines only -/

/-- The 16 bytes of a granule, as a number's bits. -/
def granule (m : List Host.Cell) (g : Nat) : BitVec 128 := BitVec.ofNat 128 (Memory.read m (16 * g) 16)

/-- Granules that `n` bytes touch. -/
def granulesOf (key n : Nat) : List Nat := (List.range ((key + n - 1) / 16 - key / 16 + 1)).map fun i => key / 16 + i

/-- Does a supervisor core cache what this plain load reads? -/
def isCached (a : Access) (key : Nat) : Bool :=
  isSupCore a.core && decide (4611686018427387904 ≤ key) && decide (key < 9223372036854775808)

/-- What the cache holds of a granule after a load: a line that memory has left behind may stay or may be fetched again
(log 14). -/
def cacheLine (s : State) (c : List (Nat × BitVec 128)) (g : Nat) : BitVec 128 :=
  match c.find? fun e => e.1 == g with
  | some e => if Config.keeps s.free then e.2 else granule s.mem g
  | none => granule s.mem g

/-- Read `n` bytes with a plain load: from the home, or through the supervisor core's data cache. -/
def cachedRead (s : State) (a : Access) (key n : Nat) : Nat × State :=
  if !isCached a key then (Memory.read s.mem key n, s)
  else
    let k := coreAt s a.core
    let gs := granulesOf key n
    let lines := gs.map fun g => (g, cacheLine s k.dcache g)
    let data := packElems 128 (lines.map fun e => e.2.toNat)
    (data / 256 ^ (key % 16) % 256 ^ n,
     setCore s a.core { k with dcache := lines ++ k.dcache.filter fun e => !gs.contains e.1 })

/-- A supervisor core's own write goes through its cache: lines that it changed, and those of the granules `gs` that it wrote,
hold what memory holds (R122, R133). -/
def writeThrough (s t : State) (n : Nat) (gs : List Nat) : State :=
  let k := coreAt t n
  setCore t n { k with
    dcache := k.dcache.map fun e =>
      if granule s.mem e.1 = granule t.mem e.1 && !gs.contains e.1 then e else (e.1, granule t.mem e.1) }

/-! ## Scalar loads and stores (R304, R333) -/

/-- A load of control space: its bytes and PROTECT (R22). -/
def applyCtlLoad (s : State) (a : Access) (n off len : Nat) (k : Nat → Applied) : Applied :=
  let r := ctlLoad s a.supr a.part n off len
  if r.1 ≠ 0 then failOwn s a r.1 else k (ofBytes r.2)

/-- A qualified access to control space or to an instruction store, which have no full/empty bits, waits for nothing (R62 is
silent, DESIGN CHOICE, log 73). -/
def applyLoad (s : State) (a : Access) (p : Place) (q : Qual) (n : Nat) : Applied :=
  match p with
  | .ctl c off => applyCtlLoad s a c off n fun v => okWord s a v
  | _ =>
    withView s a (accView s a p n true false) fun v =>
      if timedOut s v n then failOwn s a fTIMEOUT
      else
        match q with
        | .plain => let r := cachedRead s a v.key n; okWord r.2 a r.1
        | .wait => if isFull s v.key then okWord s a (Memory.read s.mem v.key n) else .wait
        | .consume =>
          if isFull s v.key then okWord (setFull s v.key 1 false) a (Memory.read s.mem v.key n) else .wait

/-- Store bytes at a view and set the bit as the qualifier says. -/
def putQual (s : State) (q : Qual) (key n v : Nat) : State :=
  let s := { s with mem := Memory.write s.mem key n v }
  match q with
  | .plain => s
  | _ => setFull s key 1 true

def applyStore (s : State) (a : Access) (p : Place) (q : Qual) (n : Nat) : Applied :=
  let val := a.val.toNat % 256 ^ n
  match p with
  | .ctl c off =>
    let r := ctlStore s a.supr a.part c off (toBytes n val)
    if r.1 ≠ 0 then failOwn s a r.1 else okWord r.2 a 0
  | .istore c off =>
    if a.supr || partOf s c == some a.part then okWord { s with mem := Memory.write s.mem (sliceKey c off) n val } a 0
    else failOwn s a fPROTECT
  | _ =>
    withView s a (accView s a p n false true) fun v =>
      if v.red then failOwn s a fPARTIAL
      else
        let arm := match p with
          | .gran pkg voff =>
            (match rootOf s pkg a.part with
             | some r => if n = 8 ∧ r.2 ≤ voff ∧ voff < r.2 + 131072 ∧ (voff - r.2) % 32 = 16 then some (pkg, r, voff) else none
             | none => none)
          | _ => none
        match arm with
        | some (pkg, r, voff) =>
          if q = .wait ∧ isFull s v.key then .wait
          else
            match armStore s a pkg r.1 voff v.key val ((voff - r.2) / 32) with
            | .answer t rep => .answer (if q = .plain then t else match rep.ans with | .data _ => setFull t v.key 1 true | _ => t) rep
            | x => x
        | none =>
          if attrGuard s p a.part n ≠ 0 then failOwn s a (attrGuard s p a.part n)
          else if q = .wait ∧ isFull s v.key then .wait
          else okWord (putQual s q v.key n val) a 0

/-! ## Vector loads and stores (R353, R354, R362) -/

/-- The headers of a view, in block order. -/
def readHeads (s : State) (v : View) : List Nat := v.hdrs.map fun k => Memory.read s.mem k 2

def applyVload (s : State) (a : Access) (p : Place) (q : Qual) (t : MTy) : Applied :=
  match p with
  | .ctl c off =>
    applyCtlLoad s a c off 128 fun d =>
      let r := vloadBits t 0 0 16 a.pred d []
      okReply s a r.1 r.2 []
  | _ =>
    withView s a (accView s a p 128 true false) fun v =>
      if timedOut s v 128 then failOwn s a fTIMEOUT
      else if q ≠ .plain ∧ !allBits16 s v.key 8 true then .wait
      else
        let d := if q = .plain then cachedRead s a v.key 128 else (Memory.read s.mem v.key 128, s)
        let r := vloadBits t v.fmt v.geom (blockBytes v.fmt v.geom) a.pred d.1 (readHeads s v)
        okReply (if q = .consume then setFull d.2 v.key 8 false else d.2) a r.1 r.2 []

/-- Write headers one after the other. -/
def putHeads (m : List Host.Cell) : List Nat → List Nat → List Host.Cell
  | k :: ks, h :: hs => putHeads (Memory.write m k 2 h) ks hs
  | _, _ => m

/-- Write the bits of `mask` of `n` bytes. -/
def putMasked (m : List Host.Cell) (key n data mask : Nat) : List Host.Cell :=
  let old := Memory.read m key n
  let w := 8 * n
  Memory.write m key n (mergeBits (BitVec.ofNat w old) (BitVec.ofNat w data) (BitVec.ofNat w mask)).toNat

/-- A packet that stays at its home. -/
def localPacket (n : Nat) (net : Net) (part inc : Nat) (stamp : Vec16) (b : Body) : Packet :=
  ⟨n, n, net, 0, 0, part, inc, stamp, b, false, 0, false⟩

/-- The granules of a contribution: index within the store and value, or none for PARTIAL (R72, R362). -/
def contribGranules (st : VStored) : Option (List (Nat × BitVec 128)) :=
  let gs := (List.range 8).map fun g => (g, elemOf 128 g st.mask, elemOf 128 g st.data)
  if gs.any fun g => g.2.1 != 0 && g.2.1 != 2 ^ 128 - 1 then none
  else some ((gs.filter fun g => g.2.1 != 0).map fun g => (g.1, BitVec.ofNat 128 g.2.2))

/-- Mark the last of some contributions. -/
def markLast : List RedPart → List RedPart
  | [] => []
  | [r] => [{ r with last := true }]
  | r :: rs => r :: markLast rs

/-- A vector store to a reduction page: its contributions leave the agent for the engine, stamped with the open round
(R72, R176). Where no lane is active but the type could not fill eight granules, R72 gives no fault and R362 PARTIAL: PARTIAL comes
first (DESIGN CHOICE, log 79). -/
def applyContribution (s : State) (a : Access) (stamp : Vec16) (t : MTy) (v : View) : Applied :=
  let st := vstoreBits t v.fmt 0 a.round a.pred a.val.toNat
  if t ≠ .raw ∧ moveCount t v.fmt * fmtBits v.fmt < 1024 then failOwn s a fPARTIAL
  else
    match contribGranules st with
    | none => failOwn s a fPARTIAL
    | some gs =>
      if gs = [] then okReply s a (packFlags st.flags) 0 []
      else
        let d := dieOf a.home
        let round := (((dieAt s d).slots.find? fun x => x.page == v.page).map fun x => x.round).getD 0
        let rs := markLast (gs.map fun g =>
          ({ acc := a
             page := v.page
             attr := v.attr
             idx := (v.key - v.page) / 16 + g.1
             val := g.2
             bf16 := v.fmt == 2
             round := round
             die := d
             last := false } : RedPart))
        .parts { s with flight := s.flight ++ rs.map fun r => localPacket a.home .col a.part a.inc stamp (.red r) }

def applyVstore (s : State) (a : Access) (p : Place) (stamp : Vec16) (q : Qual) (t : MTy) : Applied :=
  match p with
  | .ctl c off =>
    let bytes := toBytes 128 a.val.toNat
    let r := ((List.range 32).filter fun i => a.pred.getLsbD i).foldl (fun (r : Nat × State) i =>
      if r.1 ≠ 0 then r else ctlStore r.2 a.supr a.part c (off + 4 * i) ((bytes.drop (4 * i)).take 4)) (0, s)
    if r.1 ≠ 0 then failOwn s a r.1 else okReply r.2 a 0 0 []
  | _ =>
    withView s a (accView s a p 128 false true) fun v =>
      if v.red then applyContribution s a stamp t v
      else if attrGuard s p a.part 128 ≠ 0 then failOwn s a (attrGuard s p a.part 128)
      else if v.geom ≠ 0 ∧ t ≠ .raw ∧
          !((List.range (moveCount t v.fmt)).all fun k => laneOn a.pred (mtyWidth t) k) then failOwn s a fRESFIELD
      else if q = .wait ∧ !allBits16 s v.key 8 false then .wait
      else
        let st := vstoreBits t v.fmt v.geom a.round a.pred a.val.toNat
        let m := putHeads (putMasked s.mem v.key 128 st.data st.mask) v.hdrs st.heads
        let s := { s with mem := m }
        okReply (if q = .plain then s else setFull s v.key 8 true) a (packFlags st.flags) allBits []

/-! ## Gather and scatter (R349, R350): one access for each active lane -/

/-- Bytes of an element of a type. -/
def mtyBytes (t : MTy) : Nat := mtyWidth t / 8

/-- May this page serve elements of this type? -/
def laneOk (v : View) (t : MTy) : Bool := v.geom == 0 && !v.red && (v.fmt == 0 || fmtBits v.fmt == mtyWidth t)
/-- The PROTECT of a page that may not (R349), before its record is needed. -/
def laneDeny (t : MTy) (v : View) : Nat := if laneOk v t then 0 else fPROTECT
/-- The PROTECT of a reduction page, which comes before PAGE (R254). -/
def redDeny (v : View) : Nat := if v.red then fPROTECT else 0

def applyGath (s : State) (a : Access) (p : Place) (t : MTy) : Applied :=
  let n := mtyBytes t
  let i := lowLane a.pred
  let w := mtyWidth t
  let back (v : Nat) : Applied := okReply s a (BitVec.ofNat 1024 (v * 2 ^ (32 * i))) (BitVec.ofNat 1024 ((2 ^ w - 1) * 2 ^ (32 * i))) []
  match p with
  | .ctl c off => applyCtlLoad s a c off n back
  | _ =>
    withView s a (accView s a p n true false (laneDeny t)) fun v =>
      if !laneOk v t then failOwn s a fPROTECT
      else
        let raw := Memory.read s.mem v.key n
        back (if v.fmt = 0 ∨ t = .raw then raw else mtyOfValue t (decodeElem v.fmt 0 raw 0))

def applyScat (s : State) (a : Access) (p : Place) (t : MTy) : Applied :=
  let n := mtyBytes t
  let i := lowLane a.pred
  let w := mtyWidth t
  let x := elemOf 32 i a.val.toNat % 2 ^ w
  match p with
  | .ctl c off =>
    let r := ctlStore s a.supr a.part c off (toBytes n x)
    if r.1 ≠ 0 then failOwn s a r.1 else okReply r.2 a 0 0 []
  | .istore c off =>
    if a.supr || partOf s c == some a.part then okReply { s with mem := Memory.write s.mem (sliceKey c off) n x } a 0 0 []
    else failOwn s a fPROTECT
  | _ =>
    withView s a (accView s a p n false true (laneDeny t)) fun v =>
      if !laneOk v t then failOwn s a fPROTECT
      else if attrGuard s p a.part n ≠ 0 then failOwn s a (attrGuard s p a.part n)
      else
        let e : Nat × Flags :=
          if v.fmt = 0 ∨ t = .raw then (x, 0)
          else encodePlain v.fmt a.round (match mtyFloat t with | some f => f.unpack (f.daz (dazOf a.round) x) | none => mtyValue t x)
        okReply { s with mem := Memory.write s.mem v.key n e.1 } a
          (packFlags ((List.range 32).map fun j => if j = i then e.2 else 0)) 0 []

/-! ## Atomics, counters and rings (R258, R265, R268, R236) -/

/-- The new value of an AMO of `w` bits (R258). -/
def amoNew (op : AmoOp) (w old y : Nat) : Nat :=
  match op with
  | .add => (old + y) % 2 ^ w
  | .and => old &&& y
  | .or => old ||| y
  | .xor => old ^^^ y
  | .min => if signed w y < signed w old then y else old
  | .max => if signed w old < signed w y then y else old
  | .minu => if y < old then y else old
  | .maxu => if old < y then y else old
  | .swap => y

/-- A 32-bit old value as it reaches a register. -/
def amoOld (op : AmoOp) (dbl : Bool) (old : Nat) : Nat :=
  if dbl then old
  else match op with
    | .minu => old
    | .maxu => old
    | _ => intBits 64 (signed 32 old)

/-- Read and write the same bytes: the checks that AMO, CAS, counters and rings share (R254). -/
def withBoth (s : State) (a : Access) (p : Place) (len : Nat) (f : View → Applied) : Applied :=
  match p with
  | .ctl .. => failOwn s a fPROTECT
  | .istore .. => failOwn s a fPROTECT
  | .mirror _ => failOwn s a fPROTECT
  | _ =>
    withView s a (accView s a p len true true redDeny) fun v =>
      if v.red then failOwn s a fPROTECT
      else if attrGuard s p a.part len ≠ 0 then failOwn s a (attrGuard s p a.part len)
      else f v

def applyAmo (s : State) (a : Access) (p : Place) (op : AmoOp) (dbl : Bool) : Applied :=
  let n := if dbl then 8 else 4
  withBoth s a p n fun v =>
    let old := Memory.read s.mem v.key n
    okWord { s with mem := Memory.write s.mem v.key n (amoNew op (8 * n) old (a.val.toNat % 256 ^ n)) } a (amoOld op dbl old)

def applyCas (s : State) (a : Access) (p : Place) (dbl : Bool) : Applied :=
  let n := if dbl then 8 else 4
  withBoth s a p n fun v =>
    let old := Memory.read s.mem v.key n
    let s := if old = a.val2.toNat % 256 ^ n then { s with mem := Memory.write s.mem v.key n (a.val.toNat % 256 ^ n) } else s
    okWord s a (amoOld .add dbl old)

/-- Send a join's continuation to the core that WHO names (R44): `adr` is the counter's address, `home` its core. -/
def continuation (s : State) (home part : Nat) (adr : Word) (key : Nat) : State :=
  let who := Memory.read s.mem (key + 13) 3
  if !coreExists who then s
  else sendUnreserved s home who (Memory.read s.mem (key + 12) 1 % 64) [adr, BitVec.ofNat 64 (Memory.read s.mem key 8)] part

/-- Fire an armed counter that has reached its target (R44). -/
def fireCounter (s : State) (home part : Nat) (adr : Word) (key : Nat) : State :=
  let arm := Memory.read s.mem (key + 12) 1
  continuation { s with mem := Memory.write s.mem (key + 12) 1 (arm % 128) } home part adr key

/-- Add to the counter at a key, and fire it if it is armed and has reached its target (R44, R268). -/
def addCounter (s : State) (home part : Nat) (adr : Word) (key x : Nat) : State :=
  let n := (Memory.read s.mem key 8 + x) % wordMod
  let s := { s with mem := Memory.write s.mem key 8 n }
  let armed := decide (128 ≤ Memory.read s.mem (key + 12) 1)
  if armed && decide (Memory.read s.mem (key + 8) 4 ≤ n) then fireCounter s home part adr key else s

/-- The address of an access in absolute form. -/
def Access.absolute (s : State) (a : Access) : Word := (absAdr s a.core a.adr).getD a.adr

/-- A continuation carries what its last CNTADD follows too (R44, R130): the die notes the CNTADD before it sends. -/
def applyCntadd (s : State) (a : Access) (stamp : Vec16) (p : Place) : Applied :=
  withBoth s a p 16 fun v =>
    okWord (addCounter (noteWrite s a.core a.home stamp a.vec) a.home a.part (a.absolute s) v.key a.val.toNat) a 0

def applyCntarm (s : State) (a : Access) (p : Place) : Applied :=
  withBoth s a p 16 fun v =>
    let n := Memory.read s.mem v.key 8
    let x := a.val.toNat % wordMod
    let target := x % 4294967296
    if target < n then failOwn s a fCNTOVER
    else
      let m := Memory.write s.mem (v.key + 8) 4 target
      let m := Memory.write m (v.key + 12) 1 (128 + nbits x 32 6)
      let m := Memory.write m (v.key + 13) 3 (a.core % 16777216)
      let s := { s with mem := m }
      okWord (if n = target then fireCounter s a.home a.part (a.absolute s) v.key else s) a 0

def applyCntrd (s : State) (a : Access) (p : Place) : Applied :=
  match p with
  | .ctl .. => failOwn s a fPROTECT
  | .mirror _ => failOwn s a fPROTECT
  | _ =>
    withView s a (accView s a p 16 true false redDeny) fun v =>
      if v.red then failOwn s a fPROTECT else okWord s a (Memory.read s.mem v.key 8)

/-- A ring control block (R236). -/
structure Ring where
  base : Word
  log2n : Nat
  esz  : Nat
  zero : Bool
  head : Nat
  tail : Nat
deriving DecidableEq, Repr

def readRing (m : List Host.Cell) (k : Nat) : Ring :=
  ⟨BitVec.ofNat 64 (Memory.read m k 8), Memory.read m (k + 8) 1, Memory.read m (k + 9) 1, Memory.read m (k + 10) 6 == 0,
    Memory.read m (k + 16) 8, Memory.read m (k + 24) 8⟩

/-- Where element 0 lies, if every element lies where the block does: in its slice and descriptor, or in its page. -/
def ringPlace (s : State) (a : Access) (p : Place) (r : Ring) : Option Place :=
  let size := 2 ^ r.log2n * 2 ^ r.esz
  match p, resolve s (whoOf a) r.base true with
  | .slice n off, .ok (.slice m e) =>
    if n ≠ m then none
    else
      match findDesc s n off with
      | some i =>
        let w := descWord s n i 0
        if findDesc s n e = some i ∧ e + size ≤ nbits w 0 22 + 2 ^ nbits w 45 5 then some (.slice m e) else none
      | none => if a.supr && decide (e + size ≤ 0x400000) then some (.slice m e) else none
  | .gran g voff, .ok (.gran h e) =>
    match translate s g a.part voff (keptEntry a.ptes voff) with
    | .leaf pte _ =>
      if g = h ∧ voff / pageBytes pte = e / pageBytes pte ∧ e % pageBytes pte + size ≤ pageBytes pte then some (.gran h e) else none
    | .bad _ => none
  | .sup voff, .ok (.sup e) =>
    ((a.own <|> supPage s a.core voff)).bind fun g => if g.1 ≤ e ∧ e + size ≤ g.1 + g.2.1 then some (.sup e) else none
  | _, _ => none

/-- An element of a ring, `i` counted from the first ever added. -/
def ringElem (r : Ring) (p : Place) (i : Nat) : Place :=
  let d := i % 2 ^ r.log2n * 2 ^ r.esz
  match p with
  | .slice n off => .slice n (off + d)
  | .gran g voff => .gran g (voff + d)
  | .sup voff => .sup (voff + d)
  | p => p

/-- ENQ and DEQ share their checks, in the order of R236's table. A write of an element is a write to an attribute record where
it touches one (R67). -/
def withRing (s : State) (a : Access) (p : Place) (wr : Bool) (i : Ring → Nat) (f : View → Ring → Option Nat → Applied) : Applied :=
  withBoth s a p 32 fun v =>
    let r := readRing s.mem v.key
    if r.base.toNat % 2 ^ (Nat.min r.esz 3) ≠ 0 then failOwn s a fMISALIGN
    else if 16 < r.log2n ∨ 3 < r.esz ∨ !r.zero ∨ (bitsOf r.base 62 2 ≠ 0 ∧ bitsOf r.base 62 2 ≠ 2) ∨ !mbzOk r.base then
      failOwn s a fRESFIELD
    else
      match ringPlace s a p r with
      | none => failOwn s a fPROTECT
      | some q =>
        withView s a (accView s a (ringElem r q (i r)) (2 ^ r.esz) true true) fun e =>
          let g := if wr then attrGuard s (ringElem r q (i r)) a.part (2 ^ r.esz) else 0
          if g ≠ 0 then failOwn s a g else f v r (some e.key)

def applyEnq (s : State) (a : Access) (p : Place) : Applied :=
  withRing s a p true (fun r => r.tail) fun v r e =>
    if 2 ^ r.log2n ≤ (r.tail + wordMod - r.head) % wordMod then okWord s a 1
    else
      let m := Memory.write s.mem (e.getD 0) (2 ^ r.esz) (a.val.toNat % 256 ^ 2 ^ r.esz)
      okWord { s with mem := Memory.write m (v.key + 24) 8 ((r.tail + 1) % wordMod) } a 0

def applyDeq (s : State) (a : Access) (p : Place) : Applied :=
  withRing s a p false (fun r => r.head) fun v r e =>
    if r.tail = r.head then okWord s a wordMod
    else
      let x := Memory.read s.mem (e.getD 0) (2 ^ r.esz)
      okWord { s with mem := Memory.write s.mem (v.key + 16) 8 ((r.head + 1) % wordMod) } a x

/-! ## Transfers, bits, PUBLISH and mailboxes (R298, R290, R318, R153-R155) -/

def applyGet (s : State) (a : Access) (p : Place) (n : Nat) : Applied :=
  match p with
  | .ctl .. => failOwn s a fPROTECT
  | _ =>
    withView s a (accView s a p (16 * n) true false) fun v =>
      if timedOut s v (16 * n) then failOwn s a fTIMEOUT
      else okReply s a (BitVec.ofNat 1024 n) allBits (Memory.readBytes s.mem v.key (16 * n))

def applyPut (s : State) (a : Access) (p : Place) (n : Nat) : Applied :=
  withView s a (accView s a p (16 * n) false true redDeny) fun v =>
    if v.red then failOwn s a fPROTECT
    else if attrGuard s p a.part (16 * n) ≠ 0 then failOwn s a (attrGuard s p a.part (16 * n))
    else okWord (setFull { s with mem := Memory.putBytes s.mem v.key a.bytes } v.key n true) a n

def applyFeqry (s : State) (a : Access) (p : Place) : Applied :=
  match p with
  | .ctl .. => failOwn s a fPROTECT
  | _ =>
    withView s a (accView s a p 1024 true false) fun v =>
      okWord s a (packElems 1 ((List.range 64).map fun i => if memb s.full (v.key / 16 + i) then 1 else 0))

def applyFeset (s : State) (a : Access) (p : Place) (n : Nat) (b : Bool) : Applied :=
  match p with
  | .ctl .. => failOwn s a fPROTECT
  | .mirror _ => failOwn s a fPROTECT
  | _ =>
    withView s a (accView s a p (16 * n) false true redDeny) fun v =>
      if v.red then failOwn s a fPROTECT else okWord (setFull s v.key n b) a 0

/-- Flip a bit of a byte of memory. -/
def flipBit (m : List Host.Cell) (key bit : Nat) : List Host.Cell :=
  Memory.put m key (Memory.get m key ^^^ BitVec.ofNat 8 (2 ^ bit))

def applyPublish (s : State) (a : Access) (p : Place) : Applied :=
  withView s a (accView s a p 1 false true fun v => if v.shd then 0 else fPROTECT) fun v =>
    if !v.shd then failOwn s a fPROTECT
    else
      match p with
      | .slice .. => okWord { s with mem := flipBit s.mem v.flip 2 } a 0
      | .gran g voff =>
        let d := dieOf (agentOf g voff)
        let k := dieAt s d
        let hold (t : Tlb) : Bool := t.part == a.part && decide (t.base ≤ voff) && decide (voff < t.base + t.size)
        let s := setDie s d { k with
          tlb := k.tlb.map fun t => if hold t then { t with pte := t.pte ^^^ BitVec.ofNat 64 4503599627370496 } else t }
        okWord (if v.flip = 0 then s else { s with mem := flipBit s.mem v.flip 4 }) a 0
      | _ => failOwn s a fPROTECT

/-- Mailboxes and depth by the code of MBCFG (R153). -/
def mbCount (code : Nat) : Nat := 64 / 2 ^ code
def mbDepth (code : Nat) : Nat := 16 * 2 ^ code

/-- Is a priority lower than another, +0 equal to -0 (R154)? -/
def mbLower : Fp → Fp → Bool
  | .fin p, .fin q => p.lt q
  | a, b => a.below b

/-- Does an entry rank at or before a priority (R154)? -/
def mbBefore (e : MbEntry) (prio : BitVec 32) : Bool := !(mbLower (fmtF32.unpack e.prio.toNat) (fmtF32.unpack prio.toNat))

/-- Insert an entry by priority, ties after, and drop what ranks beyond the depth. -/
def mbInsert (k : Nat) (l : List MbEntry) (e : MbEntry) : List MbEntry :=
  ((l.takeWhile fun x => mbBefore x e.prio) ++ e :: l.dropWhile fun x => mbBefore x e.prio).take k

def applyMbput (s : State) (a : Access) (p : Place) : Applied :=
  match p with
  | .ctl n off =>
    let k := coreAt s n
    let i := (off - 0x418000) / 16
    if mbCount k.mbcfg ≤ i then okWord s a 0
    else
      let e : MbEntry := ⟨a.val.setWidth 64, a.val2.setWidth 32, (a.val2 >>> 32).setWidth 32⟩
      okWord (setCore s n { k with mboxes := upd k.mboxes i (mbInsert (mbDepth k.mbcfg) (look [] k.mboxes i) e) }) a 0
  | _ => failOwn s a fPROTECT

def applyMbtake (s : State) (a : Access) (p : Place) : Applied :=
  match p with
  | .ctl n off =>
    let k := coreAt s n
    let i := (off - 0x418000) / 16
    match (if mbCount k.mbcfg ≤ i then [] else look [] k.mboxes i) with
    | [] => okWord s a (0xFFFFFFFF00000000 * wordMod)
    | e :: r =>
      okWord (setCore s n { k with mboxes := upd k.mboxes i r }) a
        (e.val.toNat + wordMod * (e.tag.toNat + 4294967296 * e.prio.toNat))
  | _ => failOwn s a fPROTECT

/-- A tensor-map record, read as a load (R244). -/
def applyTmset (s : State) (a : Access) (p : Place) : Applied :=
  match p with
  | .ctl c off => applyCtlLoad s a c off 32 fun v => okWord s a v
  | _ =>
    withView s a (accView s a p 32 true false) fun v =>
      if timedOut s v 32 then failOwn s a fTIMEOUT
      else let r := cachedRead s a v.key 32; okWord r.2 a r.1

/-- Bytes that an instruction reads at its issue (R326, R284, R294). -/
def applyPayload (s : State) (a : Access) (p : Place) (n : Nat) : Applied :=
  match p with
  | .ctl c off => applyCtlLoad s a c off n fun v => okReply s a 0 0 (toBytes n v)
  | _ =>
    withView s a (accView s a p n true false) fun v =>
      if timedOut s v n then failOwn s a fTIMEOUT else okReply s a 0 0 (Memory.readBytes s.mem v.key n)

/-! ## All of them -/

/-- What each operation does at its place. -/
def applyOp (s : State) (a : Access) (stamp : Vec16) (p : Place) : Applied :=
  match a.op with
  | .load q n => applyLoad s a p q n
  | .store q n => applyStore s a p q n
  | .vload q t => applyVload s a p q t
  | .vstore q t => applyVstore s a p stamp q t
  | .gath t => applyGath s a p t
  | .scat t => applyScat s a p t
  | .amo op dbl => applyAmo s a p op dbl
  | .cas dbl => applyCas s a p dbl
  | .cntadd => applyCntadd s a stamp p
  | .cntarm => applyCntarm s a p
  | .cntrd => applyCntrd s a p
  | .enq => applyEnq s a p
  | .deq => applyDeq s a p
  | .get n => applyGet s a p n
  | .put n => applyPut s a p n
  | .feqry => applyFeqry s a p
  | .feset n b => applyFeset s a p n b
  | .publish => applyPublish s a p
  | .mbput => applyMbput s a p
  | .mbtake => applyMbtake s a p
  | .tmset => applyTmset s a p
  | .payload n => applyPayload s a p n

/-- Bytes that an operation touches at its own address. -/
def AccOp.span : AccOp → Nat
  | .load _ n => n
  | .store _ n => n
  | .vload .. => 128
  | .vstore .. => 128
  | .gath t => mtyBytes t
  | .scat t => mtyBytes t
  | .amo _ d => if d then 8 else 4
  | .cas d => if d then 8 else 4
  | .cntadd => 16
  | .cntarm => 16
  | .cntrd => 16
  | .enq => 32
  | .deq => 32
  | .get n => 16 * n
  | .put n => 16 * n
  | .feqry => 1024
  | .feset n _ => 16 * n
  | .publish => 16
  | .mbput => 16
  | .mbtake => 16
  | .tmset => 32
  | .payload n => n

/-- The granules that a write of a supervisor core covers: at its address, and of a ring its element too. -/
def ownGranules (s : State) (a : Access) (p : Place) : List Nat :=
  match accView s a p a.op.span false true with
  | .bad .. => []
  | .ok v =>
    granulesOf v.key a.op.span ++
      (match a.op with
       | .enq =>
         let r := readRing s.mem v.key
         (match (ringPlace s a p r).map fun q => accView s a (ringElem r q r.tail) (2 ^ r.esz) true true with
          | some (.ok e) => granulesOf e.key (2 ^ r.esz)
          | _ => [])
       | _ => [])

/-- Apply an access at its place. -/
def applyAt (s : State) (a : Access) (stamp : Vec16) (p : Place) : Applied :=
  match applyOp s a stamp p with
  | .answer t r =>
    if isSupCore a.core && a.op.storeLike then .answer (writeThrough s t a.core (ownGranules s a p)) r else .answer t r
  | x => x

/-- Is the operation a load for the purpose of the address checks? -/
def AccOp.isLoad : AccOp → Bool
  | .load .. => true
  | .vload .. => true
  | .gath _ => true
  | .cntrd => true
  | .get _ => true
  | .feqry => true
  | .tmset => true
  | .payload _ => true
  | _ => false

/-- Where a mailbox address leads. Mailboxes lie in control space, which only MBPUT and MBTAKE may name from user mode, and on DIE 8
not they (R17, R154). -/
def mailboxPlace (s : State) (w : Who) (adr : Word) : Res :=
  match resolve s { w with supr := true } adr false with
  | .ok (.ctl n off) => if isSupCore n && !w.supr then .bad fPROTECT else .ok (.ctl n off)
  | r => r

/-- Where an access is applied. -/
def placeOf (s : State) (a : Access) : Res :=
  match a.op with
  | .mbput => mailboxPlace s (whoOf a) a.adr
  | .mbtake => mailboxPlace s (whoOf a) a.adr
  | op => resolve s (whoOf a) a.adr op.isLoad

end Sys2Proof.Machine
end

