-- ==== Sys2Proof/Machine/Arrive.lean ====
section
/-! DEFINITION. Sys2Proof/Machine/Arrive.lean: from a packet in flight to its effect: the order in which packets reach their
homes (R157, R158), the order of one context's accesses (R118, R122), catch-up (R124), accesses held at homes (R63, R65),
and the replies and acknowledgements that go back. -/

namespace Sys2Proof.Machine

/-! ## Order of packets -/

/-- Has the packet left the mesh, and waits at an agent or an interface: a contribution to a row, once it has reached its home, for its accumulator (R194), a
probe for what its marker waits for, a marker for its access (R124)? It holds back no other packet. -/
def Packet.aside (p : Packet) : Bool := match p.body with | .row _ => p.here | .probe .. => true | .marker .. => true | _ => false

/-- Does an earlier packet of the same core, destination and plane stand before place `k` (R157)? -/
def blockedAt (fl : List Packet) (p : Packet) (k : Nat) : Bool :=
  (fl.take k).any fun q => q.src == p.src && q.dst == p.dst && q.net == p.net && q.near && !q.aside

/-- What the arrival of packet `k` would be. -/
inductive Take
  | no                       -- not its turn
  | dup (p : Packet)         -- its sequence number has been applied
  | yes (p : Packet)
deriving DecidableEq, Repr

def takeAt (s : State) (k : Nat) : Take :=
  match s.flight[k]? with
  | none => .no
  | some p =>
    if dieDead s (dieOf p.dst) then .no
    else if p.near then (if !p.aside && blockedAt s.flight p k then .no else .yes p)
    else if !p.hasWay s then .no
    else
      let f := flowOf s.flows (dieOf p.src) (dieOf p.dst) p.net
      if p.seq < f.recv then .dup p else if p.seq = f.recv then .yes p else .no

/-- Take packet `k` out of the fabric; a sequenced one moves its flow on. -/
def removeAt (s : State) (k : Nat) : State := { s with flight := s.flight.eraseIdx k }

/-- A flow moves on by the packet that its destination's interface takes; a kept reply that the packet shows to have arrived is
kept no longer (R123, log 71). -/
def moveFlow (s : State) (p : Packet) : State :=
  if p.near then s
  else
    let f := flowOf s.flows (dieOf p.src) (dieOf p.dst) p.net
    { s with
      flows := setFlow s.flows { f with recv := f.recv + p.body.packets }
      keptRep := s.keptRep.filter fun q =>
        !(dieOf q.src == dieOf p.dst && dieOf q.dst == dieOf p.src && q.net == p.net && decide (q.seq < p.seen)) }

/-- Does the packet travel for a core of a partition? What a supervisor core or the service die has issued, and the answer to
it, belong to no partition (log 37). -/
def Packet.ofPart (p : Packet) : Bool :=
  match p.body with
  | .access a => isWorker a.core
  | .reply r => isWorker r.acc.core
  | .ack r => isWorker r.acc.core
  | .red r => isWorker r.acc.core
  | .row _ => true
  | .steal _ => true
  | .data d => isWorker d.core
  | .dataDone r => isWorker r.core
  | .msg m => (match m.kind with | .refusal _ => isWorker m.dst | .empty _ => isWorker m.dst | _ => isWorker m.src)
  | _ => false

/-- Does the packet belong to an earlier incarnation, or to a partition that does not exist (R211, R219)? -/
def stale (s : State) (p : Packet) : Bool :=
  p.ofPart && (p.inc != partInc s (pkgOf p.dst) p.part || !partEn s (pkgOf p.dst) p.part)

/-- A sender forgets a request that has been taken care of. -/
def forgetKept (s : State) (p : Packet) : State :=
  { s with keptReq := s.keptReq.filter fun q => !(dieOf q.src == dieOf p.src && dieOf q.dst == dieOf p.dst && q.net == p.net && q.seq == p.seq) }

/-! ## One context's accesses to one granule (R118, R122) -/

/-- A number for a place, so that equal bytes of one partition have equal numbers. -/
def placeNum (core part : Nat) : Place → Nat
  | .slice n off => sliceKey n off
  | .priv off => sliceKey core off
  | .istore n off => sliceKey n off
  | .ctl n off => sliceKey n off
  | .gran g voff => granKey g voff
  | .sup voff => 18446744073709551616 + voff
  | .mirror poff => mirrorKey (pkgOf core) part poff

/-- The bytes of an access: first and number. A ring may lie anywhere in its slice or page. -/
def accSpan (s : State) (a : Access) : Nat × Nat :=
  match placeOf s a with
  | .bad _ => (0, 0)
  | .ok p =>
    match a.op, p with
    | .enq, .sup _ => (18446744073709551616, 4503599627370496)
    | .deq, .sup _ => (18446744073709551616, 4503599627370496)
    | .enq, .slice n _ => (sliceKey n 0, 4194304)
    | .deq, .slice n _ => (sliceKey n 0, 4194304)
    | .enq, .gran g _ => (granKey g 0, 4503599627370496)
    | .deq, .gran g _ => (granKey g 0, 4503599627370496)
    | .publish, .slice n _ => (sliceKey n 0, 4194304)
    | .publish, .gran g voff => (granKey g (voff / 65536 * 65536), 65536)
    | op, p => (placeNum a.core a.part p, op.span)

/-- Do two spans share a granule? -/
def spansMeet (a b : Nat × Nat) : Bool :=
  a.2 != 0 && b.2 != 0 && decide (a.1 / 16 ≤ (b.1 + b.2 - 1) / 16) && decide (b.1 / 16 ≤ (a.1 + a.2 - 1) / 16)

/-- Accesses that their homes have not applied; a contribution is one until its last granule has been added (R121). -/
def unapplied (s : State) : List Access :=
  (s.flight.filterMap fun p => match p.body with | .access a => some a | .red r => some r.acc | _ => none) ++
    s.held.map fun h => h.acc

/-- The own granules that GETs of a context have yet to write. -/
def pendingGets (s : State) (n c : Nat) : List (Nat × Nat × Nat) :=
  let one (a : Access) : Option (Nat × Nat × Nat) :=
    match a.op with
    | .get k => if a.core = n ∧ a.ctx = c then some (a.num, ownKey a a.adr2, 16 * k) else none
    | _ => none
  ((unapplied s).filterMap one) ++
    s.flight.filterMap fun p => match p.body with | .reply r => one r.acc | _ => none

/-- May an access of a context, `num`-th issued, that touches a span be applied now? Not before an earlier one of its
context to the same granule (R122), and, if it is a store, not before an earlier store that stays on the issuing die
(R118): stores that leave the die are ordered by their stamps (R124). A load does not wait for a contribution of its context to a
reduction page, whose granules the engine writes: without a fence between them the load may take the round's TIMEOUT while the
contribution is held (R251, DEDUCED, log 80). -/
def mayTouch (s : State) (n c num : Nat) (span : Nat × Nat) (isStore : Bool) : Bool :=
  !((unapplied s).any fun b =>
    b.core == n && b.ctx == c && decide (b.num < num) &&
      ((spansMeet (accSpan s b) span && (isStore || b.net != .col)) || (isStore && b.op.storeLike && dieOf b.home == dieOf n))) &&
  !((pendingGets s n c).any fun g => decide (g.1 < num) && spansMeet (g.2.1, g.2.2) span)

/-- Is a lower lane of the same VGATH or VSCAT to the same granule still to be applied (R350)? -/
def lowerLane (s : State) (a : Access) : Bool :=
  a.op.lanewise && (unapplied s).any fun b =>
    b.core == a.core && b.ctx == a.ctx && b.num == a.num && decide (lowLane b.pred < lowLane a.pred) && spansMeet (accSpan s b) (accSpan s a)

/-- A supervisor core's stores carry no stamps (R124): within its pod one is not applied before the context's earlier ones
(R118, log 72). -/
def supStoreBefore (s : State) (a : Access) : Bool :=
  !isWorker a.core && a.op.storeLike && podOf a.home == podOf a.core && (unapplied s).any fun b =>
    b.core == a.core && b.ctx == a.ctx && decide (b.num < a.num) && b.op.storeLike && podOf b.home == podOf a.core

def mayApply (s : State) (a : Access) : Bool :=
  mayTouch s a.core a.ctx a.num (accSpan s a) a.op.storeLike && !lowerLane s a && !supStoreBefore s a

/-! ## Catch-up (R124) -/

/-- Is an entry of a stamp set and at most `v`? -/
def stampLow (entry v : Nat) (st : Vec16) : Bool :=
  decide (st.toArray.getD entry 0 ≠ 0) && decide (st.toArray.getD entry 0 ≤ v)

/-- A write that its home has not applied: the core whose die stamped it, its home and its stamp. -/
structure OpenWrite where
  src   : Nat
  home  : Nat
  stamp : Vec16
deriving DecidableEq, Repr

/-- The writes that their homes have not applied. One that waits for its full/empty condition parks its
context, and nothing is ordered behind it (log 44). -/
def openWrites (s : State) : List OpenWrite :=
  (s.flight.filterMap fun p =>
    match p.body with
    | .access a => if a.op.storeLike then some ⟨a.core, a.home, p.stamp⟩ else none
    | .red r => some ⟨r.acc.core, r.acc.home, p.stamp⟩
    | .data d => some ⟨p.src, d.home, p.stamp⟩
    | _ => none) ++
  s.held.filterMap fun h => if h.acc.op.storeLike && h.why != .full then some ⟨h.acc.core, h.acc.home, h.stamp⟩ else none

/-- Is a write from one of some dies to a die still to be applied, with an entry of its stamp at most `v`? -/
def writeComing (s : State) (srcs : List Nat) (d entry v : Nat) : Bool :=
  (openWrites s).any fun w => srcs.contains (dieOf w.src) && dieOf w.home == d && stampLow entry v w.stamp

/-- Source dies whose markers an access at a home waits for. -/
def behind (s : State) (home : Nat) (vec : Vec16) : List Nat :=
  let d := dieOf home
  let k := dieAt s d
  let late (srcs : List Nat) (entry : Nat) : Bool :=
    let v := vec.toArray.getD entry 0
    v != 0 && (decide (k.clock.toArray.getD entry 0 < v) || writeComing s srcs d entry v)
  ((List.range 8).flatMap fun i =>
    let src := 16 * pkgOf home + i
    if src != d && late [src] i then [src] else []) ++
  (List.range 8).flatMap fun p =>
    let srcs := (List.range 8).map fun i => 16 * (8 * podOf home + p) + i
    if p != posOf home && late srcs (8 + p) then srcs else []

/-- Is a write within a pod still to be applied that a vector covers (R124)? -/
def writeOpen (s : State) (pod : Nat) (vec : Vec16) : Bool :=
  (openWrites s).any fun w =>
    podOf w.src == pod && podOf w.home == pod && isWorker w.src &&
      stampLow (dieField w.src) (vec.toArray.getD (dieField w.src) 0) w.stamp

/-- Send a probe for held access `a` to a source die's interface (R124): a request on the flow between the dies. -/
def sendProbe (s : State) (a : Access) (src : Nat) : State :=
  transmit s a.home (1024 * src) .req a.part a.inc false (.probe a.num (dieOf a.home))

/-- A home's interface keeps what it has just sent until it knows that it arrived (R123). -/
def keepSent (s : State) : State :=
  match s.flight.getLast? with
  | some p => { s with keptRep := s.keptRep ++ [p] }
  | none => s

/-- The probes and markers of a held access are done with. -/
def dropProbes (s : State) (num : Nat) : State :=
  let mine (p : Packet) : Bool :=
    match p.body with | .probe n _ => n == num | .marker n .. => n == num && p.here | _ => false
  { s with flight := s.flight.filter (fun p => !(mine p && p.here)), keptReq := s.keptReq.filter fun p => !mine p }

/-! ## Holding and answering -/

/-- Put a held access at its place by order of arrival. -/
def insertHeld (h : Held) : List Held → List Held
  | [] => [h]
  | x :: r => if h.order < x.order then h :: x :: r else x :: insertHeld h r

/-- An access that its agent has translated keeps the entries that it used while it is held there for its full/empty condition
(R364). -/
def keptPages (s : State) (a : Access) (why : HeldWhy) : List (Nat × Nat) :=
  match why, placeOf s a with
  | .full, .ok (.gran g voff) => usedPages s a.core a.part g voff a.op.span a.ptes
  | _, _ => []

/-- Hold an access that reached its home as number `ord`. -/
def hold (s : State) (a : Access) (stamp : Vec16) (ord : Nat) (why : HeldWhy) : State :=
  let a := { a with ptes := keptPages s a why }
  { s with serial := Nat.max s.serial (ord + 1), held := insertHeld ⟨a, stamp, why, ord⟩ s.held }

/-- A home sends its answer back, and between dies keeps it until it knows that it arrived (R123). -/
def sendBack (s : State) (r : Reply) : State :=
  let a := r.acc
  if unreachable s a.home (dieOf a.core) then s
  else
    let s := transmit s a.home a.core .rply a.part a.inc false (if a.slotted then .reply r else .ack r)
    if dieOf a.home = dieOf a.core then s else keepSent s

/-- What follows an access that its home has tried to apply. -/
def settle (s : State) (a : Access) (stamp : Vec16) (ord : Nat) (res : Applied) (now : Bool) : State :=
  match res with
  | .wait => hold s a stamp ord .full
  | .parts t => t
  | .answer t r =>
    let t := match r.ans with | .data _ => if a.op.storeLike then noteWrite t a.core a.home stamp a.vec else t | _ => t
    if now then deliver t r else sendBack t r

/-- Does the operation wait on full/empty bits? -/
def AccOp.waits : AccOp → Bool
  | .load q _ => q != .plain
  | .store q _ => q == .wait
  | .vload q _ => q != .plain
  | .vstore q _ => q == .wait
  | _ => false

/-- Would a held access be applied now? -/
def ready (s : State) (h : Held) : Bool :=
  match h.why, placeOf s h.acc with
  | .full, .ok p => (match applyAt s h.acc h.stamp p with | .wait => false | _ => true)
  | _, _ => false

/-- Waiters on one granule are served in the order in which they reached the home (R63). -/
def waiterBefore (s : State) (a : Access) (ord : Nat) : Bool :=
  s.held.any fun h => decide (h.order < ord) && spansMeet (accSpan s h.acc) (accSpan s a) && ready s h

/-- Apply an access whose translation and catch-up are settled, or hold it. -/
def serveHere (s : State) (a : Access) (stamp : Vec16) (ord : Nat) (now : Bool) : State :=
  match placeOf s a with
  | .bad c => settle s a stamp ord (failOwn s a c) now
  | .ok p =>
    if a.op.waits && waiterBefore s a ord then hold s a stamp ord .full
    else settle s a stamp ord (applyAt s a stamp p) now

/-- The same, once its catch-up is settled. -/
def serveWalk (s : State) (a : Access) (stamp : Vec16) (ord : Nat) (now : Bool) : State :=
  match placeOf s a with
  | .ok (.gran g voff) => if needsWalk s g a.part voff then hold s a stamp ord .walk else serveHere s a stamp ord now
  | _ => serveHere s a stamp ord now

/-- An access whose turn it is at its home, which it reached as number `ord`. -/
def serveAs (s : State) (a : Access) (stamp : Vec16) (ord : Nat) (now : Bool) : State :=
  match behind s a.home a.vec with
  | [] => serveWalk s a stamp ord now
  | need => need.foldl (fun s src => sendProbe s a src) (hold s a stamp ord (.catchup need))

/-- An access reaches its home. -/
def serve (s : State) (a : Access) (stamp : Vec16) (now : Bool) : State := serveAs s a stamp s.serial now

/-- Has a held access's partition been reset since (R211)? -/
def heldStale (s : State) (h : Held) : Bool :=
  isWorker h.acc.core && (h.acc.inc != partInc s (pkgOf h.acc.home) h.acc.part || !partEn s (pkgOf h.acc.home) h.acc.part)

/-- Nothing is left of a held access that has been taken out. -/
def forgetHeld (s : State) (h : Held) : State := dropProbes (forgetAnswered s h.acc) h.acc.num

/-- A held access of an earlier incarnation is dropped (R211). -/
def dropHeld (s : State) (k : Nat) (h : Held) : State := forgetHeld { s with held := s.held.eraseIdx k } h

/-- Apply every waiter whose condition holds, in arrival order, at most `n` times (R290); one of an earlier incarnation is applied
no more (R211). -/
def serveWaiters (s : State) : Nat → State
  | 0 => s
  | n + 1 =>
    match (List.range s.held.length).find? fun k =>
        (s.held[k]?).any fun h => !heldStale s h && ready s h && mayApply { s with held := s.held.eraseIdx k } h.acc with
    | none => s
    | some k =>
      match s.held[k]? with
      | none => s
      | some h => serveWaiters (serveHere { s with held := s.held.eraseIdx k } h.acc h.stamp h.order false) n

/-- FESET serves the waiters of its range in the same step. -/
def afterServe (s : State) (a : Access) : State :=
  match a.op with
  | .feset .. => serveWaiters s s.held.length
  | _ => s

/-! ## Events of homes -/

/-- Is an access a store to control space, which has a row of its own? -/
def ctlStoreOf (s : State) (a : Access) : Option (Nat × Nat × List Byte) :=
  match placeOf s a with
  | .ok (.ctl n off) =>
    match a.op with
    | .store _ k => some (n, off, toBytes k a.val.toNat)
    | .vstore .. => some (n, off + 4 * (lowLane a.pred), (toBytes 128 a.val.toNat).drop (4 * (lowLane a.pred)))
    | .scat t => some (n, off, toBytes (mtyBytes t) (elemOf 32 (lowLane a.pred) a.val.toNat))
    | _ => none
  | _ => none

/-- An access leaves its packet and reaches its home. There it waits for earlier accesses of its context, and holds back no other
packet (R118, R122, R124). A home in another package than the issuer's works for the issuer's job (R224). -/
def arriveAccess (s : State) (k : Nat) (p : Packet) (a : Access) : State :=
  let s' := moveFlow (removeAt s k) p
  let s' := if pkgOf a.home = pkgOf a.core then s' else noteWork s' a.home a.job
  if stale s p then forgetKept (moveFlow (removeAt s k) p) p
  else if !mayApply s' a then hold s' a p.stamp s'.serial .turn
  else afterServe (serve s' a p.stamp false) a

/-- A packet that has been handed over goes on within its die. -/
def localise (s : State) (k : Nat) (p : Packet) : State :=
  let s := moveFlow (removeAt s k) p
  { s with flight := s.flight ++ [{ p with here := true }] }

/-- A duplicate is dropped, and the kept reply or acknowledgement is sent again (R123). -/
def dropDup (s : State) (k : Nat) (p : Packet) : State :=
  let s := removeAt s k
  match p.body with
  | .access a =>
    let again := s.keptRep.filter fun q =>
      match q.body with
      | .reply r => r.acc.num == a.num && r.acc.pred == a.pred && r.acc.core == a.core
      | .ack r => r.acc.num == a.num && r.acc.pred == a.pred && r.acc.core == a.core
      | _ => false
    { s with flight := s.flight ++ again.map fun q => { q with gen := (pkgAt s (pkgOf q.src)).gen } }
  | .data d =>
    let again := s.keptRep.filter fun q =>
      match q.body with
      | .dataDone r => r.tag == d.tag && r.die == dieOf d.home
      | _ => false
    { s with flight := s.flight ++ again.map fun q => { q with gen := (pkgAt s (pkgOf q.src)).gen } }
  | .probe num _ =>
    let again := s.keptRep.filter fun q => match q.body with | .marker n src _ => n == num && src == dieOf p.dst | _ => false
    { s with flight := s.flight ++ again.map fun q => { q with gen := (pkgAt s (pkgOf q.src)).gen } }
  | _ => s

/-- PACKET_DELIVERY (R158). -/
def deliverPacket (s : State) (k : Nat) : State :=
  match takeAt s k with
  | .no => s
  | .dup p => dropDup s k p
  | .yes p =>
    if p.near then s
    else
      match p.body with
      | .access a => if (ctlStoreOf s a).isSome && !stale s p then s else arriveAccess s k p a
      | .marker num .. => if s.held.any fun h => h.acc.num == num then localise s k p else moveFlow (removeAt s k) p
      | .msg _ => forgetKept (if stale s p then moveFlow (removeAt s k) p else localise s k p) p
      | .row _ => forgetKept (if stale s p then moveFlow (removeAt s k) p else localise s k p) p
      | _ => localise s k p

/-- REMOTE_ACCESS_ARRIVAL (R56): an access that crosses the mesh of its die. -/
def meshArrival (s : State) (k : Nat) : State :=
  match takeAt s k with
  | .yes p =>
    (match p.body with
     | .access a =>
       if !p.near ∨ ((ctlStoreOf s a).isSome ∧ !stale s p) then s else arriveAccess s k p a
     | _ => s)
  | _ => s

/-- A store to a control word arrives, if it is of the given row of the table. -/
def ctlArrival (s : State) (k : Nat) (row : CtlRow) : State :=
  match takeAt s k with
  | .yes p =>
    (match p.body with
     | .access a =>
       (match ctlStoreOf s a with
        | some (n, off, bytes) => if ctlRow n off bytes = row then arriveAccess s k p a else s
        | none => s)
     | _ => s)
  | _ => s

/-- Is a store held that came before message packet `p` on its flow, or on one die from its core to its destination (R50)? -/
def codeHeld (s : State) (p : Packet) : Bool :=
  s.held.any fun h =>
    h.acc.op.storeLike && h.acc.net == p.net &&
      (if p.here then dieOf h.acc.core == dieOf p.src && dieOf h.acc.home == dieOf p.dst && decide (h.acc.seq < p.seq)
       else h.acc.core == p.src && h.acc.home == p.dst)

/-- A message on its die reaches the inbox: MESSAGE_ARRIVAL (R29) for REQ and BULK, RPLY_ARRIVAL (R28). What the core could
have dispatched before it is dispatched first (R32, R33). -/
def msgArrival (s : State) (k : Nat) (rply : Bool) : State :=
  match takeAt s k with
  | .yes p =>
    (match p.body with
     | .msg m =>
       if !p.near ∨ (p.net == .rply) ≠ rply ∨ codeHeld s p then s
       else if stale s p then removeAt s k
       else arriveMsg (dispatchAll (removeAt s k) m.dst) m
     | _ => s)
  | _ => s

/-- A reply or acknowledgement reaches its context, or is dropped with what it answers (R211). -/
def answerArrival (s : State) (k : Nat) (p : Packet) (r : Reply) : State :=
  if !p.near then s else if stale s p then forgetAnswered (removeAt s k) r.acc else deliver (removeAt s k) r

/-- ACCESS_REPLY_ARRIVAL (R207) and STORE_ACKNOWLEDGEMENT (R125). -/
def replyArrival (s : State) (k : Nat) : State :=
  match takeAt s k with
  | .yes p => (match p.body with | .reply r => answerArrival s k p r | _ => s)
  | _ => s
def ackArrival (s : State) (k : Nat) : State :=
  match takeAt s k with
  | .yes p => (match p.body with | .ack r => answerArrival s k p r | _ => s)
  | _ => s

/-- FULL_EMPTY_WAITER_APPLIED (R63); an access that waits for earlier ones of its context goes on when they are applied. -/
def waiterApplied (s : State) (k : Nat) : State :=
  match s.held[k]? with
  | none => s
  | some h =>
    let s' := { s with held := s.held.eraseIdx k }
    if heldStale s h then dropHeld s k h
    else if h.why = .full ∧ ready s h ∧ mayApply s' h.acc ∧ !waiterBefore s h.acc h.order then
      serveHere s' h.acc h.stamp h.order false
    else if h.why = .turn ∧ mayApply s' h.acc then afterServe (serveAs s' h.acc h.stamp h.order false) h.acc
    else s

/-- Does a held access wait for the page that `voff` of a package lies in? -/
def waitsPage (s : State) (h : Held) (g part lo size : Nat) : Bool :=
  h.why == .walk && h.acc.part == part &&
    (match placeOf s h.acc with | .ok (.gran g' v) => g' == g && decide (lo ≤ v) && decide (v < lo + size) | _ => false)

/-- PAGE_WALK (R65): one walk serves every access that waits on its page. -/
def pageWalked (s : State) (k : Nat) : State :=
  match s.held[k]? with
  | none => s
  | some h =>
    if heldStale s h then dropHeld s k h
    else
      match h.why, placeOf s h.acc with
      | .walk, .ok (.gran g voff) =>
        let part := h.acc.part
        let (s, size) :=
          match walkPart s g part voff with
          | .leaf pte _ => (if needsWalk s g part voff then enterTlb s g part voff pte else s, pageBytes pte)
          | .bad _ => (s, 65536)
        let lo := voff / size * size
        let mine := s.held.filter fun x => waitsPage s x g part lo size
        let s := { s with held := s.held.filter fun x => !waitsPage s x g part lo size }
        mine.foldl (fun s x =>
          if heldStale s x then forgetHeld s x else afterServe (serveHere s x.acc x.stamp x.order false) x.acc) s
      | _, _ => s

/-- Has a source interface something outstanding that the marker for held access `num` waits for: a packet to that die that
left before the marker and is not acknowledged, messages on the marker's own flow among them? Not an access that its home has
taken and holds for its full/empty condition, and not one that is held there and was issued after the held access, which cannot
have seen it, nor a later command's data that the home has taken: two of them would wait for each other's markers for ever (R124,
log 44). -/
def markerWaits (s : State) (src d num : Nat) : Bool :=
  let passed (a : Access) : Bool := s.held.any fun h =>
    h.acc.num == a.num && h.acc.pred == a.pred && (h.why == .full || (h.why != .walk && decide (num < a.num)))
  s.keptReq.any fun q => dieOf q.src == src && dieOf q.dst == d &&
    (match q.body with
     | .access a => !passed a
     | .data x => decide (x.cmd < num) || decide ((flowOf s.flows src d q.net).recv ≤ q.seq)
     | .msg _ => q.net == .req
     | _ => false)

/-- CATCHUP_PROBE (R124): the probe reaches the source's interface, which answers when nothing it sent earlier to that die is
outstanding: a marker on the flow to the probing die, kept like a reply. -/
def probeArrival (s : State) (k : Nat) : State :=
  match takeAt s k with
  | .dup p => dropDup s k p
  | .yes p =>
    (match p.body with
     | .probe num d =>
       let src := dieOf p.dst
       if !p.here then localise s k p
       else if markerWaits s src d num then s
       else
         let count := if pkgOf p.src = pkgOf p.dst then (dieAt s src).wctr else (pkgAt s (pkgOf p.dst)).egress
         keepSent (transmit (removeAt s k) p.dst p.src .req p.part p.inc false (.marker num src count))
     | _ => s)
  | .no => s

/-- MARKER (R124): held access `k` no longer waits for source `src`; when it waits for none it is applied. Where the source
cannot be reached, the home's own interface supplies the marker. -/
def markerArrival (s : State) (k src : Nat) : State :=
  match s.held[k]? with
  | none => s
  | some h =>
    match h.why with
    | .catchup need =>
      if heldStale s h then dropHeld s k h
      else
        let mine (p : Packet) : Bool :=
          p.here && dieOf p.dst == dieOf h.acc.home && (match p.body with | .marker n d _ => n == h.acc.num && d == src | _ => false)
        match s.flight.findIdx? mine with
        | none =>
          if need.contains src && unreachable s h.acc.home src then markerDone s k h (need.filter fun d => d != src) else s
        | some i =>
          let count := match (s.flight[i]?).map fun p => p.body with | some (.marker _ _ c) => c | _ => 0
          let s := removeAt s i
          let s := { s with keptReq := s.keptReq.filter fun q =>
            !(dieOf q.dst == src && (match q.body with | .probe n _ => n == h.acc.num | _ => false)) }
          let d := dieOf h.acc.home
          let q := dieAt s d
          let s := if src / 16 = pkgOf h.acc.home then setDie s d { q with clock := vraise q.clock (src % 16) count } else s
          markerDone s k h (need.filter fun d => d != src)
    | _ => s
where
  /-- The access goes on when no marker is awaited. -/
  markerDone (s : State) (k : Nat) (h : Held) (need : List Nat) : State :=
    if need = [] then
      let s' := { s with held := s.held.eraseIdx k }
      afterServe (serveWalk s' h.acc h.stamp h.order false) h.acc
    else { s with held := s.held.set k { h with why := .catchup need } }

end Sys2Proof.Machine
end

