-- ==== Sys2Proof/Machine/Access.lean ====
section
/-! DEFINITION. Sys2Proof/Machine/Access.lean: the issuing side of an access: its checks in the order of R254, R303 and R332,
its reply slot, its way to its home, and the waits that release the issuer's earlier accesses (R34, R118, R130, R207). -/

namespace Sys2Proof.Machine

/-- A fault of the running context with the delivery that its code has (R198); what the translation of its own supervisor
space forbids or lacks raises the supervisor exception (R19). -/
def faultOf (s : State) (code : Nat) (adr : Word) (len : Nat) : State :=
  if isSupSpace s.cur.core adr && (code == fPAGE || code == fPROTECT) then
    raiseSupExc s s.cur.core s.cur.ctx code adr (me s).pc
  else if toSupervisor code then raiseSup s s.cur.core s.cur.ctx code adr (me s).pc
  else raiseUpcall s s.cur.core s.cur.ctx code adr (me s).pc len none

/-- Is the address a slice address of an instruction store (R53)? -/
def isIstoreAdr (n : Nat) (a : Word) : Bool :=
  decide (0x400000 ≤ bitsOf a 0 23) && decide (bitsOf a 0 23 < 0x410000) &&
    (if bitsOf a 62 2 = 0 then decide (bitsOf a 48 4 < 8) else bitsOf a 62 2 == 1 && isWorker n)

/-- Is a place served by the issuing core itself, with no packet? -/
def isOwn (n : Nat) : Place → Bool
  | .slice m _ => m == n
  | .priv _ => true
  | .sup _ => true
  | .mirror _ => true
  | _ => false

/-- The fault that an access to an own place meets at issue, 0 for none (R61). -/
def ownFault (s : State) (a : Access) (p : Place) (len : Nat) (rd wr : Bool) : Nat :=
  if !isOwn a.core p then 0
  else match accView s a p len rd wr with
    | .bad c _ => c
    | .ok _ => 0

/-- An access as the running context would issue it now. -/
def newAccess (s : State) (op : AccOp) (adr : Word) (len : Nat) : Access :=
  let t := me s
  let n := s.cur.core
  { num := s.serial
    core := n
    ctx := s.cur.ctx
    act := t.act
    part := partNum s n
    inc := partInc s (pkgOf n) (partNum s n)
    supr := t.sup
    ldr := t.ldr
    c63 := t.c63
    job := t.job
    op := op
    adr := adr
    home := n
    adr2 := 0
    val := 0
    val2 := 0
    bytes := []
    win := t.win
    pred := allLanes
    lanes := allLanes
    idx := 0
    round := t.round.toNat
    dest := noCode
    dest2 := noCode
    pc := t.pc
    len := len
    vec := t.dep
    seq := 0
    gen := (pkgAt s (pkgOf n)).gen
    ptes := []
    own := none
    net := .req }

/-- The network of an access: COL for a vector store whose page is a reduction page now, else REQ (R156); BULK for GET and
PUT. -/
def netOf (s : State) (a : Access) (p : Place) : Net :=
  match a.op, p with
  | .get _, _ => .bulk
  | .put _, _ => .bulk
  | .vstore .., .gran g voff =>
    (match walkPart s g a.part voff with
     | .leaf pte _ => if nbits pte 51 1 = 1 then .col else .req
     | .bad _ => .req)
  | _, _ => .req

/-- Send an access to its home, or apply it in this step where the issuing core serves it itself. Between pods it carries no
dependency vector (R160). An access to its own supervisor space is translated now (R19). -/
def sendAccess (s : State) (a : Access) (p : Place) : State :=
  let a := if podOf a.home = podOf a.core then a else { a with vec := zeroVec }
  let a := { a with net := netOf s a p, own := match p with | .sup voff => supPage s a.core voff | _ => none }
  let s := match p with | .sup voff => supKeep s a.core voff | _ => s
  if isOwn a.core p && !s.cur.late && mayApply s a then
    afterServe (serve s a (stampOf s a.core a.home a.op.storeLike).1 true) a
  else if dieOf a.home ≠ dieOf a.core ∧ unreachable s a.core (dieOf a.home) then deliver s ⟨a, .lost, 0, [], zeroVec⟩
  else transmit s a.core a.home a.net a.part a.inc a.op.storeLike (.access a)

/-- Reply slots in use (R207). -/
def slotsFull (t : Ctx) : Bool := decide (12 ≤ t.rslots.length)

/-- Note an access in its context: a reply slot, or an unacknowledged store (R125, R207). `parts` of it will answer. -/
def noteAccess (t : Ctx) (a : Access) (parts : Nat) : Ctx :=
  let adr := if a.op.lanewise then a.adr2 else a.adr
  let t :=
    if a.slotted then
      { t with rslots := t.rslots ++ [⟨a.num, a.dest, a.dest2, a.op.kind, adr, false, 0, 0, parts, none⟩] }
    else { t with acks := t.acks ++ [⟨a.num, a.gen, a.home, a.op.vector, parts, none⟩] }
  if a.op.storeLike && !t.wgens.contains a.gen then { t with wgens := t.wgens ++ [a.gen] } else t

/-- Park the context until an access is answered, unless it has been (R34). -/
def parkFor (s : State) (num : Nat) (c : Cause) : State :=
  let t := me s
  if t.outstanding num && t.st == .running then setMe s { t with st := .parked, cause := c, awaits := some num } else s

/-- Issue an access to a place: the instruction of `len` bytes completes, and its context parks if `wait` names a cause. -/
def issue (s : State) (st : Stall) (len : Nat) (a : Access) (p : Place) (wait : Option Cause) : Out :=
  if a.slotted && slotsFull (me s) then .next (parkHere s .reply)
  else
    let a := { a with home := homeOf (whoOf a) p }
    let s := advance { s with serial := s.serial + 1 } st len
    let s := sendAccess (setMe s (noteAccess (me s) a 1)) a p
    match wait with
    | none => .next s
    | some c => .next (parkFor s a.num c)

/-- An access whose address has been checked for RESFIELD and MISALIGN: PROTECT, then issue. `deny` names the places that the
instruction may not reach, `n` its bytes, `rd` and `wr` the permissions it needs. -/
def accessAt (s : State) (st : Stall) (len n : Nat) (rd wr load : Bool) (deny : Place → Bool) (a : Access)
    (wait : Option Cause) : Out :=
  match resolve s (whoAmI s) a.adr load with
  | .bad c => .next (faultOf s c a.adr len)
  | .ok p =>
    if deny p then .next (faultOf s fPROTECT a.adr len)
    else
      let c := ownFault s a p n rd wr
      if c ≠ 0 then .next (faultOf s c a.adr len) else issue s st len a p wait

/-- The RESFIELD and MISALIGN of an address, 0 for neither. `noPriv` forbids private addresses. -/
def formFault (a : Word) (noPriv : Bool) (align : Nat) : Nat :=
  if !mbzOk a || (noPriv && isPrivAdr a) then fRESFIELD else if a.toNat % align ≠ 0 then fMISALIGN else 0

/-- A scalar or vector access: its checks in order, then its issue. -/
def access (s : State) (st : Stall) (len align n : Nat) (noPriv rd wr load : Bool) (deny : Place → Bool) (a : Access)
    (wait : Option Cause) : Out :=
  let c := formFault a.adr noPriv align
  if c ≠ 0 then .next (faultOf s c a.adr len) else accessAt s st len n rd wr load deny a wait

/-! ## Waiting for earlier accesses -/

/-- Every earlier load of the context has returned (R125). -/
def loadsDone (t : Ctx) : Bool := t.rslots.isEmpty

/-- Every earlier store whose home lies on the issuing die has been applied; stores that left it are ordered by their stamps
(R118, R124). Those of a supervisor core carry none, so all that stay in its pod have been applied (R130, log 72). -/
def storesSettled (s : State) (n c : Nat) : Bool :=
  !((unapplied s).any fun b =>
    b.core == n && b.ctx == c && b.op.storeLike && (dieOf b.home == dieOf n || (!isWorker n && podOf b.home == podOf n)))

/-- The running context may act as a release (R130). -/
def mayRelease (s : State) : Bool := loadsDone (me s) && storesSettled s s.cur.core s.cur.ctx

/-- What the running context releases: its own vector, and the stamps of its stores (R124). -/
def releaseVec (s : State) : Vec16 := ctxVec s s.cur.core s.cur.ctx

/-- Wait until earlier loads have returned and earlier stores are settled, then go on (R130). -/
def releasing (s : State) (f : State → Out) : Out := if mayRelease s then f s else .next (parkHere s .reply)

/-- Read bytes for the running instruction at its issue, as a plain load does: at once from what its own core serves, unless the
step leaves its results for later, else by an access of their own for which the context parks. `f` goes on with the bytes. -/
def readAtIssue (s : State) (len : Nat) (adr : Word) (n : Nat) (f : State → List Byte → Out) : Out :=
  let a := newAccess s (.payload n) adr len
  let bad (s : State) (c : Nat) (x : Word) : Out := .next (faultOf (giveSlot s s.cur.core s.cur.ctx) c x len)
  if !mbzOk adr then bad s fRESFIELD adr
  else
    match resolve s (whoAmI s) adr true with
    | .bad c => bad s c adr
    | .ok p =>
      let c := ownFault s a p n true false
      if c ≠ 0 then bad s c adr
      else if isOwn a.core p && !s.cur.late && mayTouch s a.core a.ctx s.serial (placeNum a.core a.part p, n) false then
        (match applyPayload s a p n with
         | .answer t r => (match r.ans with | .fault c x => bad t c x | _ => f t r.bytes)
         | _ => .next s)
      else if slotsFull (me s) then .next (parkHere s .reply)
      else
        let a := { a with home := homeOf (whoOf a) p }
        let s := sendAccess (setMe { s with serial := s.serial + 1 } (noteAccess (me s) a 1)) a p
        .next (parkFor s a.num .reply)

/-- Bytes that the running instruction reads at its issue: those that have come, or else they are read. -/
def withBytes (s : State) (len : Nat) (adr : Word) (n : Nat) (f : State → List Byte → Out) : Out :=
  match (me s).paybuf with
  | some b => f (setMe s { me s with paybuf := none }) b
  | none => readAtIssue s len adr n f

/-- Bytes that the running instruction reads at its issue in up to `fuel` parts: `next` names the part that follows those that
have come, none when no more is read. -/
def withParts (len : Nat) (next : List Byte → Option (Word × Nat)) (f : State → List Byte → Out) : Nat → State → Out
  | 0, s => f (setMe s { me s with paybuf := none }) ((me s).paybuf.getD [])
  | fuel + 1, s =>
    let got := (me s).paybuf.getD []
    match next got with
    | none => f (setMe s { me s with paybuf := none }) got
    | some (adr, n) =>
      readAtIssue s len adr n fun s b => withParts len next f fuel (setMe s { me s with paybuf := some (got ++ b) })

end Sys2Proof.Machine
end

