-- ==== Sys2Proof/Machine/Regs.lean ====
section
/-! DEFINITION. Sys2Proof/Machine/Regs.lean: which registers each instruction reads and writes, by their codes (R198), for
the waits and checks of R108 and R110. -/

namespace Sys2Proof.Machine

/-- Argument registers x8 to x(7 + NARG) (R108). -/
def argCodes (n : Nat) : List Nat := (List.range (Nat.min n 8)).map fun i => 8 + i

/-- The destination of GRES (R150). -/
def gresCode (d : VReg) (h : Bool) : Nat := d.toNat + (if h then 16 else 0)

/-- Codes that an instruction reads. -/
def readCodes (t : Ctx) (i : Instr) : List Nat :=
  match i with
  | .nopShort => []
  | .mov _ a => [xCode a]
  | .li _ _ => []
  | .addShort d a => [xCode d, xCode a]
  | .subShort d a => [xCode d, xCode a]
  | .andShort d a => [xCode d, xCode a]
  | .orShort d a => [xCode d, xCode a]
  | .xorShort d a => [xCode d, xCode a]
  | .addiShort d _ => [xCode d]
  | .shliShort d _ => [xCode d]
  | .shriShort d _ => [xCode d]
  | .sraiShort d _ => [xCode d]
  | .ldDShort _ a => [xCode a]
  | .stDShort d a => [xCode d, xCode a]
  | .jrShort a => [xCode a]
  | .endShort => []
  | .beqz d _ => [xCode d]
  | .bnez d _ => [xCode d]
  | .add _ _ a b => [xCode a, xCode b]
  | .sub _ _ a b => [xCode a, xCode b]
  | .and _ _ a b => [xCode a, xCode b]
  | .or _ _ a b => [xCode a, xCode b]
  | .xor _ _ a b => [xCode a, xCode b]
  | .andn _ _ a b => [xCode a, xCode b]
  | .shl _ _ a b => [xCode a, xCode b]
  | .shr _ _ a b => [xCode a, xCode b]
  | .sra _ _ a b => [xCode a, xCode b]
  | .rol _ _ a b => [xCode a, xCode b]
  | .min _ _ a b => [xCode a, xCode b]
  | .max _ _ a b => [xCode a, xCode b]
  | .minu _ _ a b => [xCode a, xCode b]
  | .maxu _ _ a b => [xCode a, xCode b]
  | .mul _ _ a b => [xCode a, xCode b]
  | .mulh _ _ a b => [xCode a, xCode b]
  | .mulhu _ _ a b => [xCode a, xCode b]
  | .div _ _ a b => [xCode a, xCode b]
  | .divu _ _ a b => [xCode a, xCode b]
  | .rem _ _ a b => [xCode a, xCode b]
  | .remu _ _ a b => [xCode a, xCode b]
  | .clz _ _ a => [xCode a]
  | .ctz _ _ a => [xCode a]
  | .popc _ _ a => [xCode a]
  | .addi _ _ a _ => [xCode a]
  | .andi _ _ a _ => [xCode a]
  | .ori _ _ a _ => [xCode a]
  | .xori _ _ a _ => [xCode a]
  | .shli _ _ a _ => [xCode a]
  | .shri _ _ a _ => [xCode a]
  | .srai _ _ a _ => [xCode a]
  | .roli _ _ a _ => [xCode a]
  | .cmp _ _ a b _ => [xCode a, xCode b]
  | .lih _ _ _ => []
  | .madd _ d a b => [xCode d, xCode a, xCode b]
  | .msub _ d a b => [xCode d, xCode a, xCode b]
  | .bfx _ _ a _ _ => [xCode a]
  | .bfi _ d a _ _ => [xCode d, xCode a]
  | .mkadr _ _ a b => [xCode a, xCode b]
  | .absa _ _ a => [xCode a]
  | .gptr _ _ a => [xCode a]
  | .sel _ _ a b c => [xCode a, xCode b, xCode c]
  | .beq a b _ => [xCode a, xCode b]
  | .bne a b _ => [xCode a, xCode b]
  | .blt a b _ => [xCode a, xCode b]
  | .bge a b _ => [xCode a, xCode b]
  | .bltu a b _ => [xCode a, xCode b]
  | .bgeu a b _ => [xCode a, xCode b]
  | .j _ => []
  | .jal _ => []
  | .jr _ a => [xCode a]
  | .jalr _ _ a => [xCode a]
  | .loop _ a _ => [xCode a]
  | .nop _ => []
  | .endAct _ => []
  | .trap _ a => [xCode a]
  | .sysc _ a => xCode a :: argCodes 8
  | .eret _ => []
  | .halt _ => []
  | .resume _ _ a => [xCode a]
  | .ld _ _ b _ _ => [xCode b]
  | .ldw _ _ b _ _ => [xCode b]
  | .ldc _ _ b _ _ => [xCode b]
  | .st _ t b _ _ => [xCode t, xCode b]
  | .stp _ t b _ _ => [xCode t, xCode b]
  | .stf _ t b _ _ => [xCode t, xCode b]
  | .get _ d a b => [xCode d, xCode a, xCode b]
  | .put _ d a b => [xCode d, xCode a, xCode b]
  | .feqry _ _ a => [xCode a]
  | .feset _ a b => [xCode a, xCode b]
  | .amo _ _ a b _ _ _ => [xCode a, xCode b]
  | .cas _ d a b _ => [xCode d, xCode a, xCode b]
  | .enq _ _ a b => [xCode a, xCode b]
  | .deq _ _ a _ => [xCode a]
  | .vld _ _ b p _ _ => [xCode b, pCode p]
  | .vldw _ _ b p _ _ => [xCode b, pCode p]
  | .vldc _ _ b p _ _ => [xCode b, pCode p]
  | .vst _ v b p _ _ => [vCode v, xCode b, pCode p]
  | .vstp _ v b p _ _ => [vCode v, xCode b, pCode p]
  | .vstf _ v b p _ _ => [vCode v, xCode b, pCode p]
  | .vgath _ _ b i p _ => [xCode b, vCode i, pCode p]
  | .vscat _ v b i p _ => [vCode v, xCode b, vCode i, pCode p]
  | .vfadd _ _ a b p _ _ => [vCode a, vCode b, pCode p]
  | .vfsub _ _ a b p _ _ => [vCode a, vCode b, pCode p]
  | .vfmul _ _ a b p _ _ => [vCode a, vCode b, pCode p]
  | .vfmin _ _ a b p _ _ => [vCode a, vCode b, pCode p]
  | .vfmax _ _ a b p _ _ => [vCode a, vCode b, pCode p]
  | .vfabs _ _ a p _ _ => [vCode a, pCode p]
  | .vfneg _ _ a p _ _ => [vCode a, pCode p]
  | .vfcpys _ _ a b p _ _ => [vCode a, vCode b, pCode p]
  | .vfma _ d a b p _ _ => [vCode d, vCode a, vCode b, pCode p]
  | .vfms _ d a b p _ _ => [vCode d, vCode a, vCode b, pCode p]
  | .vfnma _ d a b p _ _ => [vCode d, vCode a, vCode b, pCode p]
  | .vfnms _ d a b p _ _ => [vCode d, vCode a, vCode b, pCode p]
  | .vrcp _ _ a p _ _ => [vCode a, pCode p]
  | .vrsq _ _ a p _ _ => [vCode a, pCode p]
  | .vexp2 _ _ a p _ _ => [vCode a, pCode p]
  | .vlog2 _ _ a p _ _ => [vCode a, pCode p]
  | .viadd _ _ a b p _ => [vCode a, vCode b, pCode p]
  | .visub _ _ a b p _ => [vCode a, vCode b, pCode p]
  | .vimul _ _ a b p _ => [vCode a, vCode b, pCode p]
  | .vimulh _ _ a b p _ => [vCode a, vCode b, pCode p]
  | .vimin _ _ a b p _ => [vCode a, vCode b, pCode p]
  | .vimax _ _ a b p _ => [vCode a, vCode b, pCode p]
  | .viminu _ _ a b p _ => [vCode a, vCode b, pCode p]
  | .vimaxu _ _ a b p _ => [vCode a, vCode b, pCode p]
  | .vand _ _ a b p _ => [vCode a, vCode b, pCode p]
  | .vor _ _ a b p _ => [vCode a, vCode b, pCode p]
  | .vxor _ _ a b p _ => [vCode a, vCode b, pCode p]
  | .vandn _ _ a b p _ => [vCode a, vCode b, pCode p]
  | .vshl _ _ a b p _ => [vCode a, vCode b, pCode p]
  | .vshr _ _ a b p _ => [vCode a, vCode b, pCode p]
  | .vsra _ _ a b p _ => [vCode a, vCode b, pCode p]
  | .vrol _ _ a b p _ => [vCode a, vCode b, pCode p]
  | .vcmp _ _ a b p _ => [vCode a, vCode b, pCode p]
  | .vsel _ _ a b p => [vCode a, vCode b, pCode p]
  | .vcvt _ _ a p _ _ => [vCode a, pCode p]
  | .vrsum _ _ a p _ _ => [vCode a, pCode p]
  | .vrmax _ _ a p _ _ => [vCode a, pCode p]
  | .vrmin _ _ a p _ _ => [vCode a, pCode p]
  | .vshuf _ d a => [vCode d, vCode a]
  | .vbcast _ x _ => [xCode x]
  | .vextr _ _ a _ => [vCode a]
  | .vinsr _ x _ _ => [xCode x]
  | .vdot _ d a b p _ => [vCode d, vCode a, vCode b, pCode p]
  | .pand _ _ a b => [pCode a, pCode b]
  | .por _ _ a b => [pCode a, pCode b]
  | .pxor _ _ a b => [pCode a, pCode b]
  | .pnot _ _ a => [pCode a]
  | .pcnt _ _ a => [pCode a]
  | .flgrd _ _ => []
  | .flgclr _ p => [pCode p]
  | .gadd _ _ a b => [vCode a, vCode b]
  | .gdamp _ _ a b => [vCode a, vCode b]
  | .gsolve _ _ a => [vCode a]
  | .gres _ _ a b _ => [vCode a, vCode b]
  | .gelim _ _ a _ _ _ => [vCode a]
  | .gaussComplete _ => []
  | .mload _ a b _ _ => [tmCode a, xCode b]
  | .mflip _ b _ _ => [xCode b]
  | .mstrm _ a b _ _ _ _ => [tmCode a, xCode b]
  | .mdrain _ a b _ _ _ _ => [tmCode a, xCode b]
  | .mclr _ b _ _ _ _ => [xCode b]
  | .millExecute _ => []
  | .copy _ a b c => [tmCode a, xCode b, tmCode c]
  | .copym _ a b c _ _ _ => [tmCode a, xCode b, tmCode c]
  | .gather _ a b c _ => [tmCode a, xCode b, xCode c]
  | .scatter _ a b c => [tmCode a, xCode b, xCode c]
  | .mcast _ a b c _ => [tmCode a, xCode b, xCode c]
  | .copyEngineExecute _ _ => []
  | .tmset _ _ b => [xCode b]
  | .tmadv _ a b => [tmCode a, xCode b]
  | .disp _ a b c _ => [tmCode a, xCode b, xCode c]
  | .dcur _ a b => [xCode a, xCode b]
  | .dres _ a b _ => [tmCode a, xCode b]
  | .comb _ a b c => [tmCode a, xCode b, xCode c]
  | .dispatchEngineExecute _ _ => []
  | .grantServed _ => []
  | .grantBoundExpiry _ _ => []
  | .tmark _ _ => []
  | .replay _ a b c _ => [tmCode a, xCode b, xCode c, xCode c + 1]
  | .ttrim _ a => [xCode a]
  | .rowContribution _ => []
  | .send _ a b => xCode a :: xCode b :: argCodes ((t.rx b).toNat / 64 % 16)
  | .sendb _ a b c => xCode a :: xCode b :: xCode c :: argCodes ((t.rx b).toNat / 64 % 16)
  | .reply _ b => xCode b :: argCodes ((t.rx b).toNat / 64 % 16)
  | .spawn _ b => xCode b :: argCodes ((t.rx b).toNat / 64 % 8)
  | .tagen _ a => [xCode a]
  | .tagdis _ a => [xCode a]
  | .tagpnd _ _ => []
  | .mbput _ a b c => [xCode a, xCode b, xCode c]
  | .mbtake _ a _ => [xCode a]
  | .mbcfg _ a => [xCode a]
  | .crySt _ a b => [xCode a, xCode b]
  | .cryAdd _ _ a b => [xCode a, xCode b]
  | .cryMark _ _ => []
  | .fence _ _ => []
  | .publish _ a => [xCode a]
  | .barr _ _ _ => []
  | .bwait _ _ _ _ => []
  | .cntadd _ a b => [xCode a, xCode b]
  | .cntarm _ a b => [xCode a, xCode b]
  | .cntrd _ _ a => [xCode a]
  | .srd _ _ _ => []
  | .swr _ a _ => [xCode a]
  | .ctxsv _ a b => [xCode a, xCode b]
  | .ctxld _ a b => [xCode a, xCode b]
  | .xinv _ a b => [xCode a, xCode b]
  | .messageArrival _ => []
  | .rplyArrival _ => []
  | .dispatch _ => []
  | .priorityPromotion _ _ => []
  | .sendQueueEntryLeaves _ => []
  | .stealRequest _ => []
  | .stealRequestArrival _ => []
  | .stolenRecordsArrival _ => []
  | .levellingInterval _ => []
  | .levellingShipmentArrival _ => []
  | .barrierTimeout _ _ => []
  | .fullEmptyWaiterApplied _ => []
  | .accessReplyArrival _ => []
  | .storeAcknowledgement _ => []
  | .pageWalk _ => []
  | .contribution _ => []
  | .reductionDeadline _ _ => []
  | .catchupProbe _ => []
  | .marker _ _ => []
  | .packetDelivery _ => []
  | .packetLost _ => []
  | .flitRetransmit _ => []
  | .escapeChannelDivert _ => []
  | .linkFailure _ _ => []
  | .laneErrorWindow _ _ _ => []
  | .laneRetrainDone _ _ _ => []
  | .crierTokenFrame _ => []
  | .crierSilentHolder _ => []
  | .crierResendRequest _ => []
  | .crierStApplied _ => []
  | .crierAddApplied _ => []
  | .crierMarkApplied _ => []
  | .crierBarrierArrival _ => []
  | .crierMarket _ => []
  | .crierGen _ => []
  | .crierDrained _ => []
  | .drainedSend _ => []
  | .crierMember _ => []
  | .crierIntent _ => []
  | .crierUnknownKind _ => []
  | .commit _ => []
  | .commitCheck _ => []
  | .stop _ => []
  | .stopComplete _ _ => []
  | .go _ => []
  | .partitionReset _ => []
  | .resetComplete _ _ => []
  | .partitionEntryWrite _ => []
  | .quadTableWrite _ => []
  | .classTableWrite _ => []
  | .barrierRecordWrite _ => []
  | .regionDescriptorWrite _ => []
  | .tapeQuotaWrite _ => []
  | .savebaseWrite _ => []
  | .hostPortWrite _ => []
  | .lcommit _ => []
  | .energyCounterClear _ => []
  | .unfreeze _ => []
  | .controlWordWrite _ => []
  | .marketInterval _ => []
  | .energyUpdate _ => []
  | .powerOnReset => []
  | .boot _ _ => []
  | .attestationRequest _ _ => []
  | .hostWindowWrite _ _ _ _ => []
  | .hostRetry _ => []
  | .sramScrub _ => []
  | .lpddr6Scrub _ => []
  | .telemetry _ => []
  | .ageingMonitor _ _ => []
  | .marginReplan _ => []
  | .memoryError _ _ => []
  | .sumStoreError _ _ _ => []
  | .illegalInstruction _ => []
  | .variableLatencyResult _ _ => []
  | .remoteAccessArrival _ => []
  | .powerLoss _ _ => []
  | .powerLimit _ => []
  | .endToEndCheckFailure _ => []

/-- Codes that an instruction writes. -/
def writeCodes (i : Instr) : List Nat :=
  match i with
  | .nopShort => []
  | .mov d _ => [xCode d]
  | .li d _ => [xCode d]
  | .addShort d _ => [xCode d]
  | .subShort d _ => [xCode d]
  | .andShort d _ => [xCode d]
  | .orShort d _ => [xCode d]
  | .xorShort d _ => [xCode d]
  | .addiShort d _ => [xCode d]
  | .shliShort d _ => [xCode d]
  | .shriShort d _ => [xCode d]
  | .sraiShort d _ => [xCode d]
  | .ldDShort d _ => [xCode d]
  | .stDShort _ _ => []
  | .jrShort _ => []
  | .endShort => []
  | .beqz _ _ => []
  | .bnez _ _ => []
  | .add _ d _ _ => [xCode d]
  | .sub _ d _ _ => [xCode d]
  | .and _ d _ _ => [xCode d]
  | .or _ d _ _ => [xCode d]
  | .xor _ d _ _ => [xCode d]
  | .andn _ d _ _ => [xCode d]
  | .shl _ d _ _ => [xCode d]
  | .shr _ d _ _ => [xCode d]
  | .sra _ d _ _ => [xCode d]
  | .rol _ d _ _ => [xCode d]
  | .min _ d _ _ => [xCode d]
  | .max _ d _ _ => [xCode d]
  | .minu _ d _ _ => [xCode d]
  | .maxu _ d _ _ => [xCode d]
  | .mul _ d _ _ => [xCode d]
  | .mulh _ d _ _ => [xCode d]
  | .mulhu _ d _ _ => [xCode d]
  | .div _ d _ _ => [xCode d]
  | .divu _ d _ _ => [xCode d]
  | .rem _ d _ _ => [xCode d]
  | .remu _ d _ _ => [xCode d]
  | .clz _ d _ => [xCode d]
  | .ctz _ d _ => [xCode d]
  | .popc _ d _ => [xCode d]
  | .addi _ d _ _ => [xCode d]
  | .andi _ d _ _ => [xCode d]
  | .ori _ d _ _ => [xCode d]
  | .xori _ d _ _ => [xCode d]
  | .shli _ d _ _ => [xCode d]
  | .shri _ d _ _ => [xCode d]
  | .srai _ d _ _ => [xCode d]
  | .roli _ d _ _ => [xCode d]
  | .cmp _ d _ _ _ => [xCode d]
  | .lih _ d _ => [xCode d]
  | .madd _ d _ _ => [xCode d]
  | .msub _ d _ _ => [xCode d]
  | .bfx _ d _ _ _ => [xCode d]
  | .bfi _ d _ _ _ => [xCode d]
  | .mkadr _ d _ _ => [xCode d]
  | .absa _ d _ => [xCode d]
  | .gptr _ d _ => [xCode d]
  | .sel _ d _ _ _ => [xCode d]
  | .beq _ _ _ => []
  | .bne _ _ _ => []
  | .blt _ _ _ => []
  | .bge _ _ _ => []
  | .bltu _ _ _ => []
  | .bgeu _ _ _ => []
  | .j _ => []
  | .jal _ => [1]
  | .jr _ _ => []
  | .jalr _ d _ => [xCode d]
  | .loop _ _ _ => []
  | .nop _ => []
  | .endAct _ => []
  | .trap _ _ => []
  | .sysc _ _ => []
  | .eret _ => []
  | .halt _ => []
  | .resume _ _ _ => []
  | .ld _ t _ _ _ => [xCode t]
  | .ldw _ t _ _ _ => [xCode t]
  | .ldc _ t _ _ _ => [xCode t]
  | .st _ _ _ _ _ => []
  | .stp _ _ _ _ _ => []
  | .stf _ _ _ _ _ => []
  | .get _ d _ _ => [xCode d]
  | .put _ d _ _ => [xCode d]
  | .feqry _ d _ => [xCode d]
  | .feset _ _ _ => []
  | .amo _ d _ _ _ _ _ => [xCode d]
  | .cas _ d _ _ _ => [xCode d]
  | .enq _ d _ _ => [xCode d]
  | .deq _ d _ b => [xCode d, xCode b]
  | .vld _ v _ _ _ _ => [vCode v]
  | .vldw _ v _ _ _ _ => [vCode v]
  | .vldc _ v _ _ _ _ => [vCode v]
  | .vst _ _ _ _ _ _ => []
  | .vstp _ _ _ _ _ _ => []
  | .vstf _ _ _ _ _ _ => []
  | .vgath _ v _ _ _ _ => [vCode v]
  | .vscat _ _ _ _ _ _ => []
  | .vfadd _ d _ _ _ _ _ => [vCode d]
  | .vfsub _ d _ _ _ _ _ => [vCode d]
  | .vfmul _ d _ _ _ _ _ => [vCode d]
  | .vfmin _ d _ _ _ _ _ => [vCode d]
  | .vfmax _ d _ _ _ _ _ => [vCode d]
  | .vfabs _ d _ _ _ _ => [vCode d]
  | .vfneg _ d _ _ _ _ => [vCode d]
  | .vfcpys _ d _ _ _ _ _ => [vCode d]
  | .vfma _ d _ _ _ _ _ => [vCode d]
  | .vfms _ d _ _ _ _ _ => [vCode d]
  | .vfnma _ d _ _ _ _ _ => [vCode d]
  | .vfnms _ d _ _ _ _ _ => [vCode d]
  | .vrcp _ d _ _ _ _ => [vCode d]
  | .vrsq _ d _ _ _ _ => [vCode d]
  | .vexp2 _ d _ _ _ _ => [vCode d]
  | .vlog2 _ d _ _ _ _ => [vCode d]
  | .viadd _ d _ _ _ _ => [vCode d]
  | .visub _ d _ _ _ _ => [vCode d]
  | .vimul _ d _ _ _ _ => [vCode d]
  | .vimulh _ d _ _ _ _ => [vCode d]
  | .vimin _ d _ _ _ _ => [vCode d]
  | .vimax _ d _ _ _ _ => [vCode d]
  | .viminu _ d _ _ _ _ => [vCode d]
  | .vimaxu _ d _ _ _ _ => [vCode d]
  | .vand _ d _ _ _ _ => [vCode d]
  | .vor _ d _ _ _ _ => [vCode d]
  | .vxor _ d _ _ _ _ => [vCode d]
  | .vandn _ d _ _ _ _ => [vCode d]
  | .vshl _ d _ _ _ _ => [vCode d]
  | .vshr _ d _ _ _ _ => [vCode d]
  | .vsra _ d _ _ _ _ => [vCode d]
  | .vrol _ d _ _ _ _ => [vCode d]
  | .vcmp _ d _ _ _ _ => [pCode d]
  | .vsel _ d _ _ _ => [vCode d]
  | .vcvt _ d _ _ _ _ => [vCode d]
  | .vrsum _ d _ _ _ _ => [vCode d]
  | .vrmax _ d _ _ _ _ => [vCode d]
  | .vrmin _ d _ _ _ _ => [vCode d]
  | .vshuf _ d _ => [vCode d]
  | .vbcast _ _ d => [vCode d]
  | .vextr _ d _ _ => [xCode d]
  | .vinsr _ _ d _ => [vCode d]
  | .vdot _ d _ _ _ _ => [vCode d]
  | .pand _ d _ _ => [pCode d]
  | .por _ d _ _ => [pCode d]
  | .pxor _ d _ _ => [pCode d]
  | .pnot _ d _ => [pCode d]
  | .pcnt _ d _ => [xCode d]
  | .flgrd _ d => [vCode d]
  | .flgclr _ _ => []
  | .gadd _ d _ _ => [vCode d]
  | .gdamp _ d _ _ => [vCode d]
  | .gsolve _ d _ => [vCode d]
  | .gres _ d _ _ h => [gresCode d h]
  | .gelim _ d _ _ _ p => [vCode d, pCode p]
  | .gaussComplete _ => []
  | .mload _ _ _ _ _ => []
  | .mflip _ _ _ _ => []
  | .mstrm _ _ _ _ _ _ _ => []
  | .mdrain _ _ _ _ _ _ _ => []
  | .mclr _ _ _ _ _ _ => []
  | .millExecute _ => []
  | .copy _ _ _ _ => []
  | .copym _ _ _ _ _ _ _ => []
  | .gather _ _ _ _ _ => []
  | .scatter _ _ _ _ => []
  | .mcast _ _ _ _ _ => []
  | .copyEngineExecute _ _ => []
  | .tmset _ a _ => [tmCode a]
  | .tmadv _ a _ => [tmCode a]
  | .disp _ _ _ _ _ => []
  | .dcur _ _ _ => []
  | .dres _ _ _ _ => []
  | .comb _ _ _ _ => []
  | .dispatchEngineExecute _ _ => []
  | .grantServed _ => []
  | .grantBoundExpiry _ _ => []
  | .tmark _ d => [xCode d]
  | .replay _ _ _ _ _ => []
  | .ttrim _ _ => []
  | .rowContribution _ => []
  | .send _ _ _ => []
  | .sendb _ _ _ _ => []
  | .reply _ _ => []
  | .spawn _ _ => []
  | .tagen _ _ => []
  | .tagdis _ _ => []
  | .tagpnd _ d => [xCode d]
  | .mbput _ _ _ _ => []
  | .mbtake _ _ d => [xCode d, xCode d + 1]
  | .mbcfg _ _ => []
  | .crySt _ _ _ => []
  | .cryAdd _ d _ _ => [xCode d]
  | .cryMark _ d => [xCode d]
  | .fence _ _ => []
  | .publish _ _ => []
  | .barr _ _ _ => []
  | .bwait _ d _ _ => [xCode d]
  | .cntadd _ _ _ => []
  | .cntarm _ _ _ => []
  | .cntrd _ d _ => [xCode d]
  | .srd _ d _ => [xCode d]
  | .swr _ _ _ => []
  | .ctxsv _ _ _ => []
  | .ctxld _ _ _ => []
  | .xinv _ _ _ => []
  | .messageArrival _ => []
  | .rplyArrival _ => []
  | .dispatch _ => []
  | .priorityPromotion _ _ => []
  | .sendQueueEntryLeaves _ => []
  | .stealRequest _ => []
  | .stealRequestArrival _ => []
  | .stolenRecordsArrival _ => []
  | .levellingInterval _ => []
  | .levellingShipmentArrival _ => []
  | .barrierTimeout _ _ => []
  | .fullEmptyWaiterApplied _ => []
  | .accessReplyArrival _ => []
  | .storeAcknowledgement _ => []
  | .pageWalk _ => []
  | .contribution _ => []
  | .reductionDeadline _ _ => []
  | .catchupProbe _ => []
  | .marker _ _ => []
  | .packetDelivery _ => []
  | .packetLost _ => []
  | .flitRetransmit _ => []
  | .escapeChannelDivert _ => []
  | .linkFailure _ _ => []
  | .laneErrorWindow _ _ _ => []
  | .laneRetrainDone _ _ _ => []
  | .crierTokenFrame _ => []
  | .crierSilentHolder _ => []
  | .crierResendRequest _ => []
  | .crierStApplied _ => []
  | .crierAddApplied _ => []
  | .crierMarkApplied _ => []
  | .crierBarrierArrival _ => []
  | .crierMarket _ => []
  | .crierGen _ => []
  | .crierDrained _ => []
  | .drainedSend _ => []
  | .crierMember _ => []
  | .crierIntent _ => []
  | .crierUnknownKind _ => []
  | .commit _ => []
  | .commitCheck _ => []
  | .stop _ => []
  | .stopComplete _ _ => []
  | .go _ => []
  | .partitionReset _ => []
  | .resetComplete _ _ => []
  | .partitionEntryWrite _ => []
  | .quadTableWrite _ => []
  | .classTableWrite _ => []
  | .barrierRecordWrite _ => []
  | .regionDescriptorWrite _ => []
  | .tapeQuotaWrite _ => []
  | .savebaseWrite _ => []
  | .hostPortWrite _ => []
  | .lcommit _ => []
  | .energyCounterClear _ => []
  | .unfreeze _ => []
  | .controlWordWrite _ => []
  | .marketInterval _ => []
  | .energyUpdate _ => []
  | .powerOnReset => []
  | .boot _ _ => []
  | .attestationRequest _ _ => []
  | .hostWindowWrite _ _ _ _ => []
  | .hostRetry _ => []
  | .sramScrub _ => []
  | .lpddr6Scrub _ => []
  | .telemetry _ => []
  | .ageingMonitor _ _ => []
  | .marginReplan _ => []
  | .memoryError _ _ => []
  | .sumStoreError _ _ _ => []
  | .illegalInstruction _ => []
  | .variableLatencyResult _ _ => []
  | .remoteAccessArrival _ => []
  | .powerLoss _ _ => []
  | .powerLimit _ => []
  | .endToEndCheckFailure _ => []

end Sys2Proof.Machine
end

