-- ==== Sys2Proof/Machine/Issue.lean ====
section
/-! DEFINITION. Sys2Proof/Machine/Issue.lean: one cycle of a core (R35, R36): results that fall due, contexts that park for a
register (R34, R108), the choice of a context, the fetch of its instruction (R75, R96, R19) and the check of R110. -/

namespace Sys2Proof.Machine

/-! ## Fetch -/

/-- A fetched instruction, or a fault of the fetch. -/
inductive Fetched
  | ok (d : Decoded) (len : Nat)
  | bad (code : Nat) (adr : Word)
deriving DecidableEq, Repr

/-- A parcel of a worker core's instruction store. -/
def storeParcel (s : State) (n off : Nat) : BitVec 16 := BitVec.ofNat 16 (Memory.read s.mem (sliceKey n (0x400000 + off)) 2)

/-- The parcel that a supervisor core's instruction cache gives for a key (R133, log 14). -/
def cachedParcel (s : State) (n key : Nat) : BitVec 16 :=
  let now := BitVec.ofNat 16 (Memory.read s.mem key 2)
  match (coreAt s n).icache.find? fun e => e.1 == key with
  | some e => if e.2 ≠ now ∧ Config.keeps s.free then e.2 else now
  | none => now

/-- Keep a parcel in the instruction cache. -/
def keepParcel (s : State) (n key : Nat) (p : BitVec 16) : State :=
  let k := coreAt s n
  setCore s n { k with icache := (key, p) :: k.icache.filter fun e => e.1 != key }

/-- The instruction at the PC of a context of a worker core. -/
def fetchStore (s : State) (n pc : Nat) : Fetched :=
  if 65534 < pc then .bad fPROTECT (BitVec.ofNat 64 pc)
  else
    let p := storeParcel s n pc
    if p.getLsbD 15 then
      if 65532 < pc then .bad fPROTECT (BitVec.ofNat 64 pc) else .ok (decode p (storeParcel s n (pc + 2))) 4
    else .ok (decode p 0) 2

/-- The instruction at a PC in a supervisor core's own space. -/
def fetchSup (s : State) (n : Nat) (mode : Bool) (pc : Word) : Fetched :=
  let at' (a : Word) : Seen := supView s n mode (bitsOf a 0 52) 60
  match at' pc with
  | .bad c _ => .bad c pc
  | .ok v =>
    let p := cachedParcel s n v.key
    if p.getLsbD 15 then
      match at' (pc + 2) with
      | .bad c _ => .bad c (pc + 2)
      | .ok w => .ok (decode p (cachedParcel s n w.key)) 4
    else .ok (decode p 0) 2

/-- What a fetch leaves in a supervisor core: its translation and its parcels. -/
def fetchKeep (s : State) (n : Nat) (mode : Bool) (pc : Word) : State :=
  match supView s n mode (bitsOf pc 0 52) 60 with
  | .bad .. => s
  | .ok v => supKeep (keepParcel s n v.key (cachedParcel s n v.key)) n (bitsOf pc 0 52)

def fetchAt (s : State) (n c : Nat) : Fetched :=
  let t := ctxAt s n c
  if isSupCore n then fetchSup s n t.sup t.pc else fetchStore s n t.pc.toNat

/-! ## Registers with results to come (R108, R110) -/

/-- Codes that stand for no register that can be pending: x0 and p0. -/
def realCode (k : Nat) : Bool := k != 0 && k != 0x30 && k != noCode

/-- Registers that a variable-latency operation of the context has yet to write. -/
def Ctx.varCodes (t : Ctx) : List Nat :=
  ((t.rslots.flatMap fun r => [r.dest, r.dest2]) ++ t.var.map fun v => v.code).filter realCode

/-- Registers whose latest fixed-latency write has not reached its latency. -/
def Ctx.pendCodes (t : Ctx) : List Nat := (t.pend.filter fun e => e.mask != 0 && realCode e.code).map fun e => e.code

/-- Must the instruction wait for a register (R108)? -/
def mustWait (t : Ctx) (i : Instr) : Bool :=
  (readCodes t i ++ writeCodes i).any fun k => t.varCodes.contains k

/-- The register that the instruction would read early with %CHECK set (R110). -/
def earlyRead (t : Ctx) (i : Instr) : Option Nat :=
  if t.check then (readCodes t i).find? fun k => t.pendCodes.contains k else none

/-! ## Fences (R125, R128, R129) -/

/-- Have all generations of a package's pod before `g` closed (R128)? -/
def gensClosed (s : State) (n g : Nat) : Bool :=
  (pkgAt s (pkgOf n)).gens.all fun e => !(decide ((g + 65536 - e.gen) % 65536 < 32768) && e.gen != g)

/-- Has the generation in which a write was issued drained and closed, or is it the current one (R129)? -/
def writeGenDone (s : State) (n g : Nat) : Bool :=
  let p := pkgAt s (pkgOf n)
  p.gen == g || !(p.gens.any fun e => e.gen == g)

/-- May a fence of a kind and scope, issued in generation `g`, complete (R125)? A release at SYS waits also until every write of
the pod that the context has seen is applied, so that a reader in another pod sees it (R129, log 74). -/
def fenceMet (s : State) (n c : Nat) (k : FKind) (sc : Scope) (g : Nat) : Bool :=
  let t := ctxAt s n c
  let sys := sc == .sys
  let loads := loadsDone t
  let stores := t.acks.isEmpty
  let gens := t.wgens.all (writeGenDone s n) && !writeOpen s (podOf n) (ctxVec s n c)
  match k with
  | .rel => loads && (!sys || (stores && gens))
  | .acq => loads
  | .full => loads && stores && (!sys || gens)
  | .gen => loads && stores && (!sys || gens) && gensClosed s n g

/-- Does what a running context waits on hold? -/
def blockMet (s : State) (n c : Nat) : Bool :=
  match (ctxAt s n c).block with
  | .none => true
  | .fence k sc g => fenceMet s n c k sc g
  | .barr key ph _ => (barAt s key).phase != ph && !(noShare s key n && countsNow s key n)

/-! ## One cycle -/

/-- Has a supervisor core stopped its clock: every context free or halted (R300)? -/
def clockStops (s : State) (n : Nat) : Bool :=
  isSupCore n && (coreAt s n).ctxs.all fun e => e.2.st == .free || e.2.halted

/-- Begin a cycle: results that fall due are written, and the steal condition of R42 is counted. -/
def beginCycle (s : State) (n : Nat) : State :=
  let k := coreAt s n
  if clockStops s n then s else setCore s n { k with
    cycle := k.cycle + 1
    idle := if stealIdle s n then k.idle + 1 else 0
    ctxs := k.ctxs.map fun e => (e.1, e.2.commit (k.cycle + 1)) }

/-- Does a stop or a reset of the core's partition keep its contexts from issuing (R205, R279)? -/
def stopped (s : State) (n : Nat) : Bool :=
  isWorker n && (partOf s n).any fun p => stopState s (pkgOf n) p != 0

/-- Does an instruction take PRIV before anything its operands could raise (R102)? -/
def privStops (sup : Bool) (i : Instr) : Bool :=
  !sup &&
    (match i with
     | .ctxsv .. => true
     | .ctxld .. => true
     | .xinv .. => true
     | .eret .. => true
     | .halt .. => true
     | .srd _ _ n => decide (0x100 ≤ n.toNat) && decide (n.toNat < 0x200)
     | .swr _ _ n => decide (0x100 ≤ n.toNat) && decide (n.toNat < 0x200)
     | _ => false)

/-- A context that stands at an instruction that executes again goes on to it, once its partition runs (R205, R279). -/
def wakeRedo (s : State) (n c : Nat) : State :=
  let t := ctxAt s n c
  if t.redo ∧ t.st = .parked ∧ !stopped s n then
    setCtx s n c { t with
      st := .running
      cause := .none
      redo := false }
  else s

/-- A running context takes the next supervisor exception that an engine's access of its own has met, where it stands. -/
def nextExc (s : State) (n c : Nat) : State :=
  let t := ctxAt s n c
  match t.excs with
  | [] => s
  | (code, adr) :: r => raiseSupExc (setCtx s n c { t with excs := r }) n c code adr t.pc

/-- Park a running context that cannot go on: for a fault that waits, for its access, or for a register. A fault that was found
while the context was saved parks it also where it waits for something else (R365). -/
def parkDue (s : State) (n c : Nat) : State :=
  let t := ctxAt s n c
  if t.excs ≠ [] ∧ t.st = .running then nextExc s n c
  else if t.queued ≠ [] ∧ !stopped s n ∧ (t.st = .running ∨ (t.st = .parked ∧ t.cause ≠ .upcall)) then nextQueued s n c
  else if t.st ≠ .running then s
  else if t.awaits.any t.outstanding then setCtx s n c { t with st := .parked, cause := .reply }
  else if (coreAt s n).cycle < t.stall then s
  else
    match fetchAt s n c with
    | .ok (.ok i) _ => if mustWait t i && !privStops t.sup i then setCtx s n c { t with st := .parked, cause := .reply, awaits := none } else s
    | _ => s

/-- A core before it chooses: its cycle has begun, what can be dispatched is (R32, R33), and contexts that cannot go on are
parked. -/
def readyCore (s : State) (n : Nat) : State :=
  (List.range 16).foldl (fun s c => parkDue (wakeRedo s n c) n c) (dispatchAll (beginCycle s n) n)

/-- Contexts that may issue (R31, R35). -/
def eligible (s : State) (n : Nat) : List Nat :=
  (List.range 16).filter fun c =>
    let t := ctxAt s n c
    !stopped s n && t.st == .running && decide (t.stall ≤ (coreAt s n).cycle) && blockMet s n c

/-- The first of some contexts in rotation after `last`. -/
def rotate (last : Nat) (cs : List Nat) : Option Nat :=
  ((List.range 16).map fun i => (last + 1 + i) % 16).find? fun c => cs.contains c

/-- The context that issues: promoted ones first, then the highest priority, each in rotation (R35, R36). -/
def choose (s : State) (n : Nat) (cs : List Nat) : Option (Nat × Nat) :=
  let k := coreAt s n
  let up := cs.filter fun c => (ctxAt s n c).promoted || decide (4096 ≤ (ctxAt s n c).waited)
  let top := cs.foldl (fun m c => Nat.max m ((ctxAt s n c).prio % 4)) 0
  match rotate (k.last.get 4) up with
  | some c => some (c, 4)
  | none =>
    match rotate (k.last.toArray.getD top 15) (cs.filter fun c => (ctxAt s n c).prio % 4 == top) with
    | some c => some (c, top)
    | none => none

/-- Note who issues: the rotation, and the cycles that the others have waited. -/
def noteIssue (s : State) (n : Nat) (cs : List Nat) (c q : Nat) : State :=
  let k := coreAt s n
  let last := if h : q < 5 then k.last.set q c h else k.last
  setCore s n { k with
    last := last
    ctxs := k.ctxs.map fun e =>
      if e.1 = c then (e.1, { e.2 with waited := 0, promoted := false })
      else if cs.contains e.1 then (e.1, { e.2 with waited := e.2.waited + 1 })
      else e }

/-- What a cycle comes to: nothing to run, or an instruction of the context that `cur` names. -/
inductive Cycle
  | over (s : State)
  | run (s : State) (i : Instr)
deriving DecidableEq, Repr

/-- The fate of an encoding that is no valid instruction (R102): privilege comes before reserved fields. -/
def fateOf (sup : Bool) : Decoded → Fate
  | .illegal => .illegal
  | .resfield priv => if priv && !sup then .priv else .resfield
  | .ok _ => .illegal

/-- ILLEGAL_INSTRUCTION (R102): the fault goes to the supervisor and the context is held. -/
def illegal (s : State) (f : Fate) : State :=
  raiseSup s s.cur.core s.cur.ctx (match f with | .illegal => fILLEGAL | .priv => fPRIV | .resfield => fRESFIELD) 0 (me s).pc

/-- A fault of the fetch: the supervisor exception on a supervisor core (R19), else PROTECT (R96). -/
def fetchFault (s : State) (n c code : Nat) (adr : Word) : State :=
  if isSupCore n then raiseSupExc s n c code adr (ctxAt s n c).pc else raiseSup s n c code adr (ctxAt s n c).pc

/-- The chosen context's instruction. -/
def fetchRun (s : State) (n c : Nat) : Cycle :=
  let t := ctxAt s n c
  match fetchAt s n c with
  | .bad code adr => .over (fetchFault s n c code adr)
  | .ok d len =>
    let s := if isSupCore n then fetchKeep s n t.sup t.pc else s
    match d with
    | .ok i =>
      match if privStops t.sup i then none else earlyRead t i with
      | some k => .over (raiseUpcall s n c fCHECK (BitVec.ofNat 64 k) t.pc len none)
      | none => .run s i
    | d => .over (illegal s (fateOf t.sup d))

/-- One cycle of a core, up to the instruction it issues. `late` leaves the results of what it issues for later steps. -/
def cycleOf (s : State) (n : Nat) (late : Bool) : Cycle :=
  if dieDead s (dieOf n) then .over s
  else
    let s := readyCore s n
    let cs := eligible s n
    match choose s n cs with
    | none => .over s
    | some (c, q) => fetchRun { noteIssue s n cs c q with cur := ⟨n, c, late⟩ } n c

end Sys2Proof.Machine
end

