-- ==== Sys2Proof/Machine/Flags.lean ====
section
/-! DEFINITION. Sys2Proof/Machine/Flags.lean: every flag computation: the scalar flags (R91) and the lanes' sticky flags
(R89). -/

namespace Sys2Proof.Machine

/-- IDZ and IOV of %SFLAGS (R91). -/
def flIDZ : BitVec 2 := 1
def flIOV : BitVec 2 := 2

/-- What a division raises (R91): the matching DIV and REM raise the same. -/
def divFlags (isSigned : Bool) (n m : Word) : BitVec 2 :=
  if m = 0 then flIDZ
  else if isSigned && n == BitVec.ofNat 64 9223372036854775808 && m == BitVec.allOnes 64 then flIOV
  else 0

/-- Raise scalar flags. -/
def raiseSflags (s : State) (f : BitVec 2) : State := setMe s { me s with sflags := (me s).sflags ||| f }

/-- Add flags to each lane's set (R89). -/
def Ctx.addLanes (t : Ctx) (fs : List Flags) : Ctx :=
  { t with lanef := Vector.ofFn fun i : Fin 32 => t.lanef.get i ||| fs.getD i.val 0 }

/-- Raise the lanes' flags of a vector instruction, unless Q is set. -/
def raiseLanes (s : State) (q : Bool) (fs : List Flags) : State := if q then s else setMe s ((me s).addLanes fs)

/-- The OR of all sets: %LANEF (R89). -/
def laneOr (t : Ctx) : Flags := t.lanef.toList.foldl (· ||| ·) 0

/-- The sets as FLGRD writes them: lane i's in bits [4:0] of lane i. -/
def laneSets (t : Ctx) : VWord := BitVec.ofNat 1024 (packElems 32 (t.lanef.toList.map fun f => f.toNat))

/-- Clear the sets of the lanes that a predicate selects (R89). -/
def Ctx.clearLanes (t : Ctx) (p : BitVec 32) : Ctx :=
  { t with lanef := Vector.ofFn fun i : Fin 32 => if p.getLsbD i.val then 0 else t.lanef.get i }

/-- Has every earlier vector instruction of the context completed (R89)? -/
def vectorsDone (t : Ctx) : Bool :=
  (t.rslots.all fun r => r.kind != 1) && (t.acks.all fun u => !u.vec) &&
    (t.pend.all fun e => !(decide (0x20 ≤ e.code) && decide (e.code < 0x38))) &&
    t.var.all fun v => v.unit || !(decide (0x20 ≤ v.code) && decide (v.code < 0x38))

end Sys2Proof.Machine
end

