-- ==== Sys2Proof/Machine/Operands.lean ====
section
/-! DEFINITION. Sys2Proof/Machine/Operands.lean: every operand form: immediates, memory operands, branch targets, the lanes
and elements of vector operands, message headers (R111), completion words (R136) and the results of variable latency. -/

namespace Sys2Proof.Machine

/-! ## Immediates and addresses -/

def sext5w (i : BitVec 5) : Word := i.signExtend 64
def sext13w (i : BitVec 13) : Word := i.signExtend 64

/-- The address of a scalar memory operand (R303). -/
def memAdr (s : State) (b : Reg) (z : MSize) (o : BitVec 8) : Word :=
  xr s b + o.signExtend 64 * BitVec.ofNat 64 z.bytes

/-- The address of a vector memory operand (R352). -/
def vecAdr (s : State) (b : Reg) (o : BitVec 6) : Word := xr s b + o.signExtend 64 * 128

/-- The address of lane `i` of a gather or scatter (R349). -/
def laneAdr (base : Word) (idx : VWord) (t : MTy) (i : Nat) : Word :=
  base + (BitVec.ofNat 32 (elemOf 32 i idx.toNat)).signExtend 64 * BitVec.ofNat 64 (mtyBytes t)

/-- The target of a branch or jump: PC + 2 × sext(off) (R97). -/
def target (s : State) (off : Word) : Word := (me s).pc + 2 * off

/-- Go to a target, with the checks of R96. -/
def jumpChecked (s : State) (st : Stall) (t : Word) : Out :=
  if t.getLsbD 0 then supFault s fMISALIGN t
  else if isWorker s.cur.core && decide (65535 < t.toNat) then supFault s fPROTECT t
  else .next (jumpTo s st t)

/-- The same, with a link register written before the jump is taken (R301, R302). -/
def jumpLinked (s : State) (st : Stall) (t : Word) (d : Reg) : Out :=
  if t.getLsbD 0 then supFault s fMISALIGN t
  else if isWorker s.cur.core && decide (65535 < t.toNat) then supFault s fPROTECT t
  else .next (jumpTo (wrX s 1 d ((me s).pc + 4)) st t)

/-! ## Variable latency (R108) -/

/-- A result of variable latency: written in this step, or, when the step leaves it, by a step of its own. -/
def varResult (s : State) (code : Nat) (op : VarOp) (v mask : VWord) : State :=
  let t := me s
  if s.cur.late then setMe s { t with var := t.var ++ [⟨code, op, mask, false⟩] } else setMe s (t.putNow code v mask)

/-- A value of variable latency for an x register. -/
def varX (s : State) (d : Reg) (v : Word) : State :=
  varResult s (xCode d) (.value (v.setWidth 1024)) (v.setWidth 1024) allBits

/-! ## Vector operands -/

/-- The type of an integer vector element as an element type. -/
def ityM : ITy → MTy
  | .i32 => .i32 | .i16 => .i16 | .i8 => .i8
/-- The type of a floating-point vector element as an element type. -/
def ftyM : FTy → MTy
  | .f32 => .f32 | .bf16 => .bf16 | .f16 => .f16
def ftyFmt : FTy → Fmt
  | .f32 => fmtF32 | .bf16 => fmtBF16 | .f16 => fmtF16

/-- The elements of a register, `w` bits each. -/
def elemsOf (w : Nat) (v : VWord) : List Nat := (List.range (1024 / w)).map fun k => elemOf w k v.toNat

/-- A register from its elements. -/
def ofElems (w : Nat) (es : List Nat) : VWord := BitVec.ofNat 1024 (packElems w es)

/-- The bits of the active lanes. -/
def laneBits (p : BitVec 32) : VWord :=
  BitVec.ofNat 1024 (packElems 32 ((List.range 32).map fun i => if p.getLsbD i then 4294967295 else 0))

/-- The low `w` bits of each active lane. -/
def lowBits (w : Nat) (p : BitVec 32) : VWord :=
  BitVec.ofNat 1024 (packElems 32 ((List.range 32).map fun i => if p.getLsbD i then 2 ^ w - 1 else 0))

/-- Apply a function to the elements of active lanes and gather their flags; elements of inactive lanes count nothing. -/
def mapElems (w : Nat) (p : BitVec 32) (f : Nat → Nat × Flags) : VWord × List Flags :=
  let rs := (List.range (1024 / w)).map fun k => if laneOn p w k then f k else (0, 0)
  (ofElems w (rs.map fun r => r.1), laneFlags w (rs.map fun r => r.2))

/-! ## Message headers (R111) -/

def hdrClass (h : Word) : Nat := bitsOf h 0 6
def hdrNarg (h : Word) : Nat := bitsOf h 6 4
def hdrVc (h : Word) : Nat := bitsOf h 10 2
def hdrPrio (h : Word) : Nat := bitsOf h 12 2
def hdrPlen (h : Word) : Nat := bitsOf h 14 9

/-- The rules of R111 that every message keeps: no bit above [22], at most eight arguments, at most 256 bytes. -/
def hdrOk (h : Word) : Bool := h.toNat / 8388608 == 0 && decide (hdrNarg h ≤ 8) && decide (hdrPlen h ≤ 256)

/-- Arguments x8 on. -/
def argsOf (s : State) (n : Nat) : List Word := (List.range n).map fun i => xr s (BitVec.ofNat 5 (8 + i))

/-! ## Completion words (R136) -/

/-- T, the accumulator and the address of a completion word. -/
def cwT (w : Word) : Bool := w.getLsbD 0
def cwAcc (w : Word) : Nat := bitsOf w 1 2
def cwAdr (w : Word) : Word := w &&& ~~~(15 : Word)

/-- The resolved address of a tile's element (0, 0): BASE plus the origin (R113, R137). -/
def esize (m : BitVec 256) : Nat := match nbits m.toNat 224 4 with | 2 => 2 | 3 => 4 | _ => 1

/-- An element offset in bytes; half-byte elements lie two to a byte. -/
def elemBytes (m : BitVec 256) (i : Nat) : Nat := if nbits m.toNat 224 4 = 0 then i / 2 else i * esize m

/-- Element number of the origin, by the strides. -/
def originElem (m : BitVec 256) (o : BitVec 64) : Nat :=
  nbits o.toNat 0 16 + nbits m.toNat 128 24 * nbits o.toNat 16 16 + nbits m.toNat 152 24 * nbits o.toNat 32 16 +
    nbits m.toNat 176 24 * nbits o.toNat 48 16

end Sys2Proof.Machine
end

