-- ==== Sys2Proof/Machine/Tiles.lean ====
section
/-! DEFINITION. Sys2Proof/Machine/Tiles.lean: how engines reach memory (R61, R64, R69, R83, R131): tensor maps and tiles (R113,
R134), rows read and written granule by granule, completion granules (R112, R136), and the faults of engine accesses (R366,
R215). Rows that move between dies travel as packets on BULK (R156); an engine's other accesses are applied at their homes
within the engine's step (log 32). -/

namespace Sys2Proof.Machine

/-! ## Tensor maps (R113) -/

def mapBase (m : BitVec 256) : Nat := m.toNat % wordMod
/-- DIM0-DIM3. -/
def mapDim (m : BitVec 256) (i : Nat) : Nat := nbits m.toNat (64 + 16 * i) 16
/-- STR1. -/
def mapStr (m : BitVec 256) : Nat := nbits m.toNat 128 24
def mapT0 (m : BitVec 256) : Nat := nbits m.toNat 200 12
def mapT1 (m : BitVec 256) : Nat := nbits m.toNat 212 12
def mapEsz (m : BitVec 256) : Nat := nbits m.toNat 224 4
/-- Bits of an element by ESZ. -/
def eszBits (e : Nat) : Nat := match e with | 0 => 4 | 2 => 16 | 3 => 32 | _ => 8

/-- Is the record well-formed? -/
def mapOk (m : BitVec 256) : Bool :=
  m.toNat / 2 ^ 228 == 0 && decide (mapEsz m < 4) && mapT0 m != 0 && mapT1 m != 0 && (List.range 4).all fun i => mapDim m i != 0

/-- A coordinate of an origin. -/
def orgAt (o : BitVec 64) (i : Nat) : Nat := elemOf 16 i o.toNat

/-- The record with BASE replaced. -/
def mapWithBase (m : BitVec 256) (base : Word) : BitVec 256 :=
  BitVec.ofNat 256 (m.toNat / wordMod * wordMod + base.toNat)

/-- A map with BASE replaced by the absolute address of tile element (0, 0); none when a relative BASE leaves the die
(R54, R134). -/
def resolveMap (s : State) (n : Nat) (m : BitVec 256) (o : BitVec 64) : Option (BitVec 256) :=
  (absAdr s n (BitVec.ofNat 64 (mapBase m))).map fun b => mapWithBase m (b + BitVec.ofNat 64 (elemBytes m (originElem m o)))

/-- Bit address of element (0, r) of a resolved tile. -/
def rowBit (m : BitVec 256) (o : BitVec 64) (r : Nat) : Nat :=
  8 * mapBase m + (if mapEsz m = 0 then 4 * (originElem m o % 2) else 0) + eszBits (mapEsz m) * (mapStr m * r)

/-- Is row `r` of the tile inside DIM0-DIM3? -/
def rowInside (m : BitVec 256) (o : BitVec 64) (r : Nat) : Bool :=
  decide (orgAt o 0 + mapT0 m ≤ mapDim m 0) && decide (orgAt o 1 + r < mapDim m 1) && decide (orgAt o 2 < mapDim m 2) &&
    decide (orgAt o 3 < mapDim m 3)

/-! ## Engine accesses -/

/-- An engine working for a command: whose permission it has, and what its command's issue released. -/
structure Eng where
  who : Who
  vec : Vec16
deriving DecidableEq, Repr

/-- Is a write that a vector covers still to be applied at a home (R124, R131)? Its stamp counts by die within a package and by
position between packages. -/
def engLate (s : State) (n home : Nat) (vec : Vec16) : Bool :=
  (openWrites s).any fun w =>
    let e := if pkgOf w.src = pkgOf home then dieField w.src else 8 + posOf w.src
    dieOf w.home == dieOf home && isWorker w.src && podOf w.src == podOf n && podOf home == podOf n &&
      stampLow e (vec.toArray.getD e 0) w.stamp

/-- The place of an engine's access and its home; engines reach slices, the Granary and, for a supervisor core, its own
space. -/
def engPlace (s : State) (e : Eng) (adr : Word) (load : Bool) : Option (Place × Nat) :=
  if isPrivAdr adr || !mbzOk adr then none
  else
    match resolve s e.who adr load with
    | .ok (.slice n off) => some (.slice n off, n)
    | .ok (.gran g v) => some (.gran g v, agentOf g v)
    | .ok (.sup v) => some (.sup v, e.who.core)
    | _ => none

/-- What an engine finds at `len` bytes. -/
def engView (s : State) (e : Eng) (adr : Word) (len : Nat) (wr : Bool) : Except EFail (View × Nat) :=
  match engPlace s e adr (!wr) with
  | none => .error (.refused fPROTECT adr)
  | some (p, home) =>
    if dieOf home ≠ dieOf e.who.core ∧ unreachable s e.who.core (dieOf home) then .error (.lost adr (dieOf home))
    else if dieDead s (dieOf home) || engLate s e.who.core home e.vec then .error .wait
    else
      let seen :=
        match p with
        | .slice n off => sliceView s e.who.core e.who.part e.who.supr n off len (!wr) wr true
        | .gran g v => granView s e.who.core e.who.part e.who.supr g v len (!wr) wr true
        | .sup v => supView s e.who.core e.who.supr v (if wr then 61 else 62) len
        | _ => .bad fPROTECT none
      match seen with
      | .bad c x => .error (.refused (if c = fPAGE then fPAGE else fPROTECT) (x.getD adr))
      | .ok v =>
        if wr && (v.red || attrGuard s p e.who.part len != 0) then .error (.refused fPROTECT adr) else .ok (v, home)

/-- Is a leaf well-formed but for its FMT and GEOM? -/
def leafForm (pkg e : Nat) : Bool :=
  leafOk pkg (e - nbits e 54 6 * 2 ^ 54 + (if nbits e 51 1 = 1 then 2 ^ 56 else 0))

/-- FMT and GEOM of a page whose leaf has a reserved FMT or a GEOM that does not match it (R273); none for another page. -/
def badFormat (s : State) (pkg part voff : Nat) : Seen :=
  match rootOf s pkg part with
  | none => .bad fPAGE none
  | some r =>
    match walkFrom s pkg r.1 voff (pointerOk pkg) (leafForm pkg) with
    | .leaf pte _ =>
      if leafOk pkg pte then .bad fPROTECT none
      else .ok { rawView 0 with
        fmt := nbits pte 56 4
        geom := nbits pte 54 2
        blkOff := voff % blockBytes (nbits pte 56 4) (nbits pte 54 2) }
    | .bad c => .bad c none

/-- The format of the memory that holds `len` bytes, whoever may access it; none where no page or region holds the first. -/
def engFormat (s : State) (e : Eng) (adr : Word) (len : Nat) (wr : Bool) : Option View :=
  let seen :=
    match engPlace s e adr (!wr) with
    | some (.slice n off, _) => (match findDesc s n off with | some i => descView s n off len i wr false | none => .bad fPROTECT none)
    | some (.gran g v, _) =>
      (match granView s e.who.core e.who.part true g v len (!wr) wr true with
       | .ok v => .ok v
       | .bad .. => badFormat s g e.who.part v)
    | some (.sup _, _) => .ok (rawView 0)
    | _ => .bad fPROTECT none
  match seen with
  | .ok v => some v
  | .bad .. => none

/-- An engine's write is applied: readers of its home see what its command's issue released. -/
def engNote (s : State) (e : Eng) (home : Nat) : State := noteWrite s e.who.core home zeroVec e.vec

/-- Read raw bytes. -/
def engRead (s : State) (e : Eng) (adr : Word) (n : Nat) : Except EFail Nat :=
  match engView s e adr n false with
  | .ok v => .ok (Memory.read s.mem v.1.key n)
  | .error f => .error f

/-- Write raw bytes and set their granules full. -/
def engWrite (s : State) (e : Eng) (adr : Word) (n v : Nat) : Except EFail State :=
  match engView s e adr n true with
  | .ok (w, home) =>
    let s := { s with mem := Memory.write s.mem w.key n v }
    .ok (engNote (setFull s w.key ((w.key % 16 + n + 15) / 16) true) e home)
  | .error f => .error f

/-! ## Rows -/

/-- One stored element: format, its code, and its block's header. -/
structure Elem where
  fmt  : Nat
  geom : Nat
  code : Nat
  head : Nat
deriving DecidableEq, Repr

def Elem.val (e : Elem) : Fp := decodeElem e.fmt e.geom e.code e.head

/-- The pieces of a row of `n` elements of `bits` at bit address `ba` that lie in one granule each: first element and
number. -/
def rowPieces (ba bits n : Nat) : List (Nat × Nat) :=
  let g0 := ba / 128
  let first (g : Nat) : Nat := if g ≤ g0 then 0 else Nat.min n ((128 * g - ba + bits - 1) / bits)
  ((List.range ((ba + bits * n - 1) / 128 - g0 + 1)).map fun i => (first (g0 + i), first (g0 + i + 1) - first (g0 + i))).filter
    fun p => p.2 != 0

/-- Address and length in bytes of `c` elements from `k` on. -/
def pieceAdr (ba bits k c : Nat) : Word × Nat :=
  let b := ba + bits * k
  (BitVec.ofNat 64 (b / 8), (b % 8 + bits * c + 7) / 8)

/-- Elements of a row, piece by piece. -/
def readPieces (s : State) (e : Eng) (ba bits : Nat) : List (Nat × Nat) → List Elem → Except EFail (List Elem)
  | [], acc => .ok acc
  | (k, c) :: r, acc =>
    let a := pieceAdr ba bits k c
    match engView s e a.1 a.2 false with
    | .error f => .error f
    | .ok (v, _) =>
      let data := Memory.read s.mem v.key a.2 / 2 ^ ((ba + bits * k) % 8)
      let heads := readHeads s v
      let bb := blockBytes v.fmt v.geom
      readPieces s e ba bits r (acc ++ (List.range c).map fun i =>
        ⟨v.fmt, v.geom, elemOf bits i data, if v.geom = 0 then 0 else hdrOf bb v.blkOff (i * bits / 8) heads⟩)

def readRow (s : State) (e : Eng) (ba bits n : Nat) : Except EFail (List Elem) :=
  readPieces s e ba bits (rowPieces ba bits n) []

/-- Row `r` of a resolved tile. -/
def readTileRow (s : State) (e : Eng) (m : BitVec 256) (o : BitVec 64) (r : Nat) : Except EFail (List Elem) :=
  readRow s e (rowBit m o r) (eszBits (mapEsz m)) (mapT0 m)

/-- Codes and headers of a row to be written. -/
structure RowCodes where
  codes : List Nat
  heads : List Nat
  bn    : Nat                -- elements of a block
deriving DecidableEq, Repr

/-- Encode values as an engine write (R83). -/
def encodeRow (fmt geom : Nat) (vs : List Fp) : RowCodes :=
  if geom = 0 then ⟨vs.map (encodeEngine fmt), [], 1⟩
  else
    let bn := blockElems fmt geom
    let bs := (blocksOf bn (vs.length / bn) vs).map (encodeBlock fmt)
    ⟨bs.flatMap fun b => b.codes, bs.map fun b => b.head, bn⟩

/-- What elements that were read make at a destination of a format: RAW takes their codes (R272). -/
def encodeElems (els : List Elem) (fmt geom : Nat) : RowCodes :=
  if fmt = 0 then ⟨els.map fun v => v.code, [], 1⟩ else encodeRow fmt geom (els.map Elem.val)

/-- Write the bits of a piece at a view, with its blocks' headers, and set its granules full. -/
def putPiece (s : State) (v : View) (p : DataPiece) : State :=
  setFull { s with mem := putHeads (putMasked s.mem v.key p.len p.data p.mask) v.hdrs p.heads } v.key ((v.key % 16 + p.len + 15) / 16) true

/-- Elements `k` to `k + c - 1` of a row of codes as a piece, `heads` headers with it. -/
def pieceOf (ba bits k c : Nat) (rc : RowCodes) (heads : Nat) : DataPiece :=
  let a := pieceAdr ba bits k c
  let sh := (ba + bits * k) % 8
  { adr := a.1
    len := a.2
    data := packElems bits ((rc.codes.drop k).take c) * 2 ^ sh
    mask := (2 ^ (bits * c) - 1) * 2 ^ sh
    heads := (rc.heads.drop (k / rc.bn)).take heads }

/-- What a row makes for a format: what was made for the piece before, where that has the same. -/
def codesFor (enc : Nat → Nat → RowCodes) (had : Option (Nat × Nat × RowCodes)) (fmt geom : Nat) : RowCodes :=
  match had with
  | some (f, g, rc) => if f = fmt ∧ g = geom then rc else enc fmt geom
  | none => enc fmt geom

/-- Write a row, piece by piece, each as `enc` makes it for the format of its page or region: the state, the bytes written and
what stopped it. `had` is what was made for the piece before. -/
def writePieces (s : State) (e : Eng) (ba bits : Nat) (enc : Nat → Nat → RowCodes) (had : Option (Nat × Nat × RowCodes))
    (done : Nat) : List (Nat × Nat) → State × Nat × Option EFail
  | [] => (s, done, none)
  | (k, c) :: r =>
    let a := pieceAdr ba bits k c
    match engView s e a.1 a.2 true with
    | .error f => (s, done, some f)
    | .ok (v, home) =>
      let rc := codesFor enc had v.fmt v.geom
      let s := putPiece s v (pieceOf ba bits k c rc v.hdrs.length)
      writePieces (engNote s e home) e ba bits enc (some (v.fmt, v.geom, rc)) (done + a.2) r

/-- The first piece of a row that lies out of reach. -/
def rowLost (s : State) (e : Eng) (ba bits n : Nat) : Option EFail :=
  (rowPieces ba bits n).findSome? fun p =>
    let a := pieceAdr ba bits p.1 p.2
    match engView s e a.1 a.2 true with
    | .error (.lost x d) => some (.lost x d)
    | _ => none

/-- Write a row; one that needs a home out of reach is not written (R273). -/
def writeRow (s : State) (e : Eng) (ba bits n : Nat) (enc : Nat → Nat → RowCodes) : State × Nat × Option EFail :=
  match rowLost s e ba bits n with
  | some f => (s, 0, some f)
  | none => writePieces s e ba bits enc none 0 (rowPieces ba bits n)

/-! ## Rows between dies (R156, R158) -/

/-- The core at whose die a piece of a row is read or written; `n` where no access reaches it. -/
def pieceHome (s : State) (e : Eng) (n : Nat) (adr : Word) : Nat :=
  match engPlace s e adr true with
  | some (_, home) => home
  | none => n

/-- The home that a row's data leave from: of its first element. -/
def rowSource (s : State) (e : Eng) (ba : Nat) : Nat := pieceHome s e e.who.core (BitVec.ofNat 64 (ba / 8))

/-- The pieces of a row that lie on other dies than core `src`, each with its home. -/
def awayPieces (s : State) (e : Eng) (src ba bits n : Nat) : List (Nat × Nat × Nat) :=
  ((rowPieces ba bits n).map fun p => (pieceHome s e src (pieceAdr ba bits p.1 p.2).1, p)).filter fun p => dieOf p.1 != dieOf src

/-- Does every piece of a row lie on the die that its data leave from? -/
def rowStays (s : State) (e : Eng) (src ba bits n : Nat) : Bool := (awayPieces s e src ba bits n).isEmpty

/-- The pieces of a row as they travel, each encoded for the page or region that it goes to; where there is none, as raw bytes,
which its home refuses. -/
def sentPieces (s : State) (e : Eng) (ba bits : Nat) (enc : Nat → Nat → RowCodes) (had : Option (Nat × Nat × RowCodes)) :
    List (Nat × Nat) → List DataPiece
  | [] => []
  | (k, c) :: r =>
    let a := pieceAdr ba bits k c
    let v := (engFormat s e a.1 a.2 true).getD (rawView 0)
    let rc := codesFor enc had v.fmt v.geom
    pieceOf ba bits k c rc v.hdrs.length :: sentPieces s e ba bits enc (some (v.fmt, v.geom, rc)) r

/-- A row of a command that goes from one place to another. -/
structure RowMove where
  core  : Nat                -- the command, as in DataPart
  ctx   : Nat
  disp  : Bool
  cmd   : Nat
  job   : Nat
  src   : Nat                -- the home that its data leave from
deriving DecidableEq, Repr

/-- Send a row's pieces for one die on their way, as the data of its command on BULK. -/
def sendData (s : State) (e : Eng) (m : RowMove) (tag home : Nat) (ps : List DataPiece) : State :=
  let d : DataPart :=
    { core := m.core
      ctx := m.ctx
      disp := m.disp
      cmd := m.cmd
      tag := tag
      home := home
      pieces := ps
      part := e.who.part
      inc := partInc s (pkgOf m.core) e.who.part
      job := m.job
      supr := e.who.supr
      vec := e.vec }
  transmit (noteWork s m.src m.job) m.src home .bulk d.part d.inc true (.data d)

/-- A row of which some pieces lie on other dies than its source: those on the source's die are written, and the others go on their
way, one packet for each die. The state, and the row as it stands; one that needs a home out of reach is not written at all
(R273). -/
def moveAway (s : State) (e : Eng) (m : RowMove) (ba bits n : Nat) (enc : Nat → Nat → RowCodes) : State × OnWay :=
  let away := awayPieces s e m.src ba bits n
  let cut := away.findSome? fun p =>
    if unreachable s m.src (dieOf p.1) then some (EFail.lost (pieceAdr ba bits p.2.1 p.2.2).1 (dieOf p.1)) else none
  match rowLost s e ba bits n, cut with
  | some f, _ => (s, ⟨0, [], 0, some f⟩)
  | none, some f => (s, ⟨0, [], 0, some f⟩)
  | none, none =>
    let w := writePieces s e ba bits enc none 0 ((rowPieces ba bits n).filter fun p => !away.any fun q => q.2 == p)
    match w.2.2 with
    | some f => (w.1, ⟨0, [], w.2.1, some f⟩)
    | none =>
      let (tag, t) := fresh w.1
      let dies := (away.map fun p => dieOf p.1).eraseDups
      (dies.foldl (fun t d =>
        let mine := away.filter fun p => dieOf p.1 == d
        sendData t e m tag ((mine.map fun p => p.1).headD m.src) (sentPieces s e ba bits enc none (mine.map fun p => p.2))) t,
       ⟨tag, dies, w.2.1, none⟩)

/-- A row leaves its source: it is written there and then where it stays on the source's die, else it goes on its way. -/
def moveOut (s : State) (e : Eng) (m : RowMove) (ba bits n : Nat) (enc : Nat → Nat → RowCodes) : State × OnWay :=
  if rowStays s e m.src ba bits n then
    let w := writeRow s e ba bits n enc
    (w.1, ⟨0, [], w.2.1, w.2.2⟩)
  else moveAway s e m ba bits n enc

/-- A home writes pieces that have come from core `src`, one after the other: the state, the bytes written and what stopped it. -/
def putPieces (s : State) (e : Eng) (src : Nat) (stamp : Vec16) (done : Nat) : List DataPiece → State × Nat × Option EFail
  | [] => (s, done, none)
  | p :: r =>
    match engView s e p.adr p.len true with
    | .error f => (s, done, some f)
    | .ok (v, home) => putPieces (noteWrite (putPiece s v p) src home stamp e.vec) e src stamp (done + p.len) r

/-- Format and geometry of the memory that holds a bit address. -/
def rowFmt (s : State) (e : Eng) (ba : Nat) (wr : Bool) : Except EFail (Nat × Nat) :=
  match engView s e (BitVec.ofNat 64 (ba / 8)) 1 wr with
  | .ok (v, _) => .ok (v.fmt, v.geom)
  | .error f => .error f

/-! ## Checks of a tile before data moves (R134) -/

/-- The memory of one piece of a row, its elements from `k` on: format, geometry, and whether the row's elements stand in its
blocks as in blocks that the row itself starts. -/
structure Found where
  row  : Nat
  k    : Nat
  n    : Nat
  fmt  : Nat
  geom : Nat
  starts : Bool
deriving DecidableEq, Repr

/-- What the pieces of a row find; those out of reach, or without a page or region, are not among them. -/
def pieceFound (s : State) (e : Eng) (ba bits : Nat) (wr : Bool) (row : Nat) : List (Nat × Nat) → Except Unit (List Found)
  | [] => .ok []
  | (k, c) :: r =>
    let a := pieceAdr ba bits k c
    let found (v : View) : Found :=
      let bb := 8 * blockBytes v.fmt v.geom
      ⟨row, k, c, v.fmt, v.geom, v.geom == 0 || 8 * v.blkOff % bb == bits * k % bb⟩
    match engView s e a.1 a.2 wr, pieceFound s e ba bits wr row r with
    | .error .wait, _ => .error ()
    | _, .error _ => .error ()
    | .error (.lost ..), .ok l => .ok l
    | .error _, .ok l => .ok (((engFormat s e a.1 a.2 wr).map found).toList ++ l)
    | .ok (v, _), .ok l => .ok (found v :: l)

def rowFound (s : State) (e : Eng) (ba bits n : Nat) (wr : Bool) (row : Nat) : Except Unit (List Found) :=
  pieceFound s e ba bits wr row (rowPieces ba bits n)

/-- The same of some rows, `n` elements of `bits`, whose bit addresses are given. -/
def rowsFound (s : State) (e : Eng) (bits n : Nat) (wr : Bool) : List (Nat × Nat) → Except Unit (List Found)
  | [] => .ok []
  | (r, ba) :: rs =>
    match rowFound s e ba bits n wr r, rowsFound s e bits n wr rs with
    | .ok l, .ok m => .ok (l ++ m)
    | _, _ => .error ()

/-- Every page and region that a tile lies in. -/
def tileFound (s : State) (e : Eng) (m : BitVec 256) (o : BitVec 64) (wr : Bool) : Except Unit (List Found) :=
  rowsFound s e (eszBits (mapEsz m)) (mapT0 m) wr ((List.range (mapT1 m)).map fun r => (r, rowBit m o r))

/-- Is the format one that memory may have? -/
def fmtKnown (f : Nat) : Bool := decide (f ≤ 10)

/-- ESZ matches FMT, and rows of a block-scaled tile start blocks. -/
def tileFits (m : BitVec 256) (o : BitVec 64) (f : Found) : Bool :=
  eszBits (mapEsz m) == fmtBits f.fmt && fmtGeomOk f.fmt f.geom &&
    (f.geom == 0 ||
      (orgAt o 0 % blockElems f.fmt f.geom == 0 && mapStr m % blockElems f.fmt f.geom == 0 && f.starts))

/-! ## Completions and engine faults (R112, R143, R366, R215) -/

/-- STATUS codes. -/
def stOK : Nat := 0
def stENGERR : Nat := 1
def stHALTED : Nat := 2
def stINVALID : Nat := 3
def stDEFERRED : Nat := 4
def stLOST : Nat := 5
def stREROUTED : Nat := 6

/-- An engine's access to its supervisor core's own space is refused: no other core is told. The context that issued the command
takes the exception of R19 before its next issue; one that has ended leaves a notice (log 78). -/
def engExc (s : State) (e : Eng) (code : Nat) (adr : Word) : State :=
  let t := ctxAt s e.who.core e.who.ctx
  if t.st = .free then raiseNotice s e.who.core e.who.ctx code adr
  else setCtx s e.who.core e.who.ctx { t with excs := t.excs ++ [(code, adr)] }

/-- Tell of the first access that a command could not make. -/
def engTell (s : State) (e : Eng) (f : Option EFail) : State :=
  match f with
  | some (.refused code adr) =>
    if isSupSpace e.who.core adr then engExc s e code adr
    else if code = fPAGE then raiseNotice s e.who.core e.who.ctx fPAGE adr
    else supMessage s e.who.core e.who.ctx fPROTECT false true adr noticePc
  | some (.lost adr d) => dieLostNotice s e.who.core e.who.ctx d adr
  | _ => s

/-- Write a completion granule and set it full; with T a failed command starts class 63. A refused completion write is
lost, and told unless the command has already told of a refused access. -/
def engComplete (s : State) (e : Eng) (cadr : Word) (t : Bool) (status count spec : Nat) (bad : Option EFail) :
    Except EFail State :=
  let s := engTell s e bad
  let v := status % 4294967296 + 4294967296 * (count % 4294967296) + wordMod * (spec % wordMod)
  let fin (s : State) : State :=
    if t && status == stENGERR then raiseNotice s e.who.core e.who.ctx fENGERR cadr else s
  match engWrite s e cadr 16 v with
  | .ok s => .ok (fin s)
  | .error .wait => .error .wait
  | .error f => .ok (fin (match bad with | some (.refused ..) => s | _ => engTell s e (some f)))

/-- May a core's engines work while the stop word of its partition is at most `most`? -/
def engUpTo (most : Nat) (s : State) (n : Nat) : Bool :=
  coreExists n && !(coreAt s n).saved && !dieDead s (dieOf n) &&
    (isSupCore n || (partOf s n).any fun p => partEn s (pkgOf n) p && decide (stopState s (pkgOf n) p ≤ most))

/-- May a core's engines work (R205, R208)? A command is a step or more of an engine: none goes on once a stop is requested. -/
def engRuns (s : State) (n : Nat) : Bool := engUpTo 0 s n

/-- May a core's dispatch engine work on a REPLAY, which a stop lets finish (R208, R320)? -/
def replayRuns (s : State) (n : Nat) : Bool := engUpTo 1 s n

/-- The engine of a command issued by a context, `supr` in supervisor mode (R19). -/
def engOf (core ctx part : Nat) (supr : Bool) (vec : Vec16) : Eng := ⟨⟨core, ctx, supr, false, part, 0⟩, vec⟩

/-- Was the running context's command issued in supervisor mode? -/
def suprNow (s : State) : Bool := isSupCore s.cur.core && (me s).sup

/-! ## Issue of engine commands -/

/-- The completion word of an engine command: its faults at issue (R134, R136); `acc` allows a nonzero ACC. -/
def cwordFault (w : Word) (acc : Bool) : Bool :=
  w.getLsbD 3 || (!acc && cwAcc w != 0) || isPrivAdr (cwAdr w)

/-- The completion word with its address in absolute form; none when it leaves the die. -/
def cwordAbs (s : State) (w : Word) : Option Word :=
  (absAdr s s.cur.core (cwAdr w)).map fun a => (a &&& ~~~(15 : Word)) ||| (w &&& 15)

/-- BASE as an address. -/
def baseAdr (m : BitVec 256) : Word := BitVec.ofNat 64 (mapBase m)

/-- A map's BASE is a private address. -/
def mapPrivate (m : BitVec 256) : Bool := isPrivAdr (baseAdr m)

/-- The fault address of a command that names a private address: the first such (R198). -/
def privateOf (l : List Word) : Word := (l.find? isPrivAdr).getD 0

/-- May no command of a copy or dispatch engine name the address: a private one, or one that breaks R52? A Mill command finds
the latter when it executes, since R312 names no other fault at its issue (log 77). -/
def operandBad (a : Word) : Bool := isPrivAdr a || !mbzOk a

/-- The fault address of a command with such an address: the first (R198). -/
def badOperand (l : List Word) : Word := (l.find? operandBad).getD 0

/-- An operand of a copy or dispatch engine in absolute form; none for one that leaves the die or names DIE 14 or 15 (R52,
R54). -/
def absOperand (s : State) (n : Nat) (a : Word) : Option Word :=
  if bitsOf a 62 2 = 0 ∧ 14 ≤ bitsOf a 48 4 then none else absAdr s n a

/-- A completion word and a tensor map of such a command (see `absOperand`). -/
def cwordOperand (s : State) (w : Word) : Option Word := (absOperand s s.cur.core (cwAdr w)).bind fun _ => cwordAbs s w
def mapOperand (s : State) (n : Nat) (m : BitVec 256) (o : BitVec 64) : Option (BitVec 256) :=
  (absOperand s n (baseAdr m)).bind fun _ => resolveMap s n m o

end Sys2Proof.Machine
end

