-- ==== Sys2Proof/Machine/Mill.lean ====
section
/-! DEFINITION. Sys2Proof/Machine/Mill.lean: the Mill (R134-R148): its commands' issue, its planes and accumulators, and the
execution of the oldest command of its inbox. -/

namespace Sys2Proof.Machine

/-! ## Issue (R135-R137, R144, R312) -/

/-- The four cores of a quad, Mill (0, 0) first. -/
def quadCores (n : Nat) : List Nat := [reeveOf n, reeveOf n + 1, reeveOf n + 32, reeveOf n + 33]

/-- The core that a target names: 0 own, 1 COL differs in bit 0, 2 ROW, 3 both. -/
def quadPeer (n t : Nat) : Nat :=
  let c := if t % 2 = 0 then n else if colOf n % 2 = 0 then n + 1 else n - 1
  if t / 2 % 2 = 0 then c else if rowOf n % 2 = 0 then c + 32 else c - 32

/-- Cores whose Mills a command enters. -/
def millTargets (n t : Nat) (g : Bool) : List Nat := if g then quadCores n else [quadPeer n t]

/-- Has every Mill of some cores room for a command (R37)? -/
def millRoom (s : State) (cs : List Nat) : Bool := cs.all fun n => decide ((coreAt s n).mill.inbox.length < 16)

/-- Put a command into the inboxes of some cores at one instant. -/
def pushMill (s : State) (cs : List Nat) (c : MillCmd) : State :=
  cs.foldl (fun s n =>
    let k := coreAt s n
    setCore s n { k with mill := { k.mill with inbox := k.mill.inbox ++ [c] } }) s

/-- Issue a Mill command: `map` is its tile, if it has one. -/
def millIssue (s : State) (st : Stall) (op : BitVec 4) (c : Nat) (map : Option TReg) (b : Reg) (g flag : Bool)
    (t : BitVec 2) : Out :=
  let w := xr s b
  let n := s.cur.core
  let m := match map with | some r => (me s).rtm r | none => 0
  let o := match map with | some r => (me s).rorg r | none => 0
  if cwordFault w false || (g && t != 0) || (map.isSome && mapPrivate m) then
    supFault s fRESFIELD (privateOf [cwAdr w, baseAdr m])
  else
    match cwordAbs s w, (if map.isSome then resolveMap s n m o else some 0) with
    | none, _ => supFault s fPROTECT (cwAdr w)
    | _, none => supFault s fPROTECT (BitVec.ofNat 64 (mapBase m))
    | some w', some m' =>
      releasing s fun s =>
        let cs := millTargets n t.toNat g
        if !millRoom s cs then .next (parkHere s .unit)
        else
          let r := fresh s
          let cmd : MillCmd :=
            { fn := op.setWidth 8 ||| (t.setWidth 8 <<< 4) ||| (if flag then 64 else 0) ||| (if g then 128 else 0)
              c := c
              core := n
              ctx := s.cur.ctx
              t := cwT w'
              map := m'
              org := o
              cadr := cwAdr w'
              gang := if g then some r.1 else none
              part := partNum s n
              acc := 0
              job := (me s).job
              supr := suprNow s
              vec := releaseVec s }
          done st 4 (pushMill r.2 cs cmd)

def execMload (st : Stall) (a : TReg) (b : Reg) (g : Bool) (t : BitVec 2) (s : State) : Out :=
  millIssue s st 0 0 (some a) b g false t
def execMflip (st : Stall) (b : Reg) (g : Bool) (t : BitVec 2) (s : State) : Out := millIssue s st 1 0 none b g false t
def execMstrm (st : Stall) (a : TReg) (b : Reg) (c : AccN) (g o : Bool) (t : BitVec 2) (s : State) : Out :=
  millIssue s st 2 c.toNat (some a) b g o t
def execMdrain (st : Stall) (a : TReg) (b : Reg) (c : AccN) (g k : Bool) (t : BitVec 2) (s : State) : Out :=
  millIssue s st 3 c.toNat (some a) b g k t
def execMclr (st : Stall) (b : Reg) (c : AccN) (g r : Bool) (t : BitVec 2) (s : State) : Out :=
  millIssue s st 4 c.toNat none b g r t

/-! ## Planes and accumulators (R138, R139) -/

/-- Formats of the 8-bit set. -/
def narrowFmt (f : Nat) : Bool := f == 4 || f == 5 || f == 6 || f == 7 || f == 8 || f == 9 || f == 10
def halfFmt (f : Nat) : Bool := f == 2 || f == 3

/-- The element at row `k`, column `j` of a plane; with K = 64 rows 32-63 lie in the high bytes. -/
def planeCode (p : Plane) (k j : Nat) : Nat :=
  let w := (p.elems.getD (32 * (k % 32) + j) 0).toNat
  if p.k = 64 then nbits w (8 * (k / 32)) 8 else w
def planeHead (p : Plane) (k j : Nat) : Nat := (p.heads.getD (2 * j + k / blockElems p.fmt p.geom) 0).toNat

/-- A plane from the columns that were read. -/
def planeOf (k fmt geom : Nat) (cols : List (List Elem)) : Plane :=
  let at' (j i : Nat) : Nat := (((cols.getD j []).getD i ⟨0, 0, 0, 0⟩).code)
  let bn := blockElems fmt geom
  ⟨true, fmt, geom, k, cols.length,
    (List.range 1024).map fun x =>
      BitVec.ofNat 16 (if k = 64 then at' (x % 32) (x / 32) + 256 * at' (x % 32) (x / 32 + 32) else at' (x % 32) (x / 32)),
    (List.range 64).map fun x =>
      if geom = 0 then 0 else BitVec.ofNat 16 (((cols.getD (x / 2) []).getD (x % 2 * bn) ⟨0, 0, 0, 0⟩).head)⟩

/-- Scale exponent of an element; none for a NaN scale (R145). -/
def scaleExp (geom head : Nat) : Option Int :=
  if geom = 0 then some 0 else if head % 256 = 255 then none else some ((head % 256 : Nat) - 127)

/-- An element without its scale (R138). -/
def unscaled (fmt geom code head : Nat) : Fp := decodeElem fmt geom code (head / 256 * 256 + 127)

/-- One product of a K-block: scales that sum beyond ±127 count as ±127 (R145, R146). -/
def millProd (a : Elem) (p : Plane) (k j : Nat) : Prod :=
  let hb := planeHead p k j
  match scaleExp a.geom a.head, scaleExp p.geom hb with
  | some x, some y => ⟨unscaled a.fmt a.geom a.code a.head, unscaled p.fmt p.geom (planeCode p k j) hb, clampScale (x + y)⟩
  | _, _ => ⟨plainNan, plainNan, 0⟩

/-- The element of a Mill's accumulator. -/
def accAt (m : Mill) (a r c : Nat) : Nat := (look (0 : BitVec 32) m.acc (4096 * a + 32 * r + c)).toNat

/-- Stream one row of A into a row of an accumulator: its 32 new elements. -/
def streamRow (m : Mill) (a r : Nat) (ow : Bool) (row : List Elem) : List Nat :=
  let p := m.active
  (List.range 32).map fun j =>
    (List.range (row.length / 32)).foldl (fun c kb =>
      blockAdd c ((List.range 32).map fun i =>
        millProd (row.getD (32 * kb + i) ⟨0, 0, 0, 0⟩) p (32 * kb + i) j)
        (halfFmt p.fmt || row.any fun e => halfFmt e.fmt)) (if ow then 0 else accAt m a r j)

/-- Replace the rows of an accumulator from `r0` on. -/
def putAccRows (l : List (Nat × BitVec 32)) (a r0 : Nat) (rows : List (List Nat)) : List (Nat × BitVec 32) :=
  let lo := 4096 * a + 32 * r0
  let hi := lo + 32 * rows.length
  let new := ((List.range (32 * rows.length)).zip rows.flatten).filterMap fun e =>
    if e.2 = 0 then none else some (lo + e.1, BitVec.ofNat 32 e.2)
  (l.filter fun e => decide (e.1 < lo)) ++ new ++ l.filter fun e => decide (hi ≤ e.1)

/-- Every element of an accumulator +0. -/
def clearAcc (l : List (Nat × BitVec 32)) (a : Nat) : List (Nat × BitVec 32) :=
  l.filter fun e => decide (e.1 < 4096 * a) || decide (4096 * a + 4096 ≤ e.1)

/-! ## Executing a command (R138-R145) -/

/-- What a Mill's share of a command comes to. -/
structure MillOut where
  s      : State
  mill   : Mill
  status : Nat
  count  : Nat
  code   : Nat
  bad    : Option EFail
deriving DecidableEq, Repr

/-- Mark a command's target invalid (R143 step 3). -/
def millSpoil (m : Mill) (op a : Nat) : Mill :=
  let bad := if m.bad.contains a then m.bad else a :: m.bad
  match op with
  | 0 => { m with shadow := { m.shadow with valid := false } }
  | 1 => { m with
      shadow := { m.shadow with valid := false }
      active := { m.active with valid := false } }
  | _ => { m with bad := bad }

/-- A command that failed or met an unreachable home: the queue halts. -/
def millFail (s : State) (m : Mill) (op a count : Nat) (f : EFail ⊕ Nat) : MillOut :=
  let m := { millSpoil m op a with halted := true }
  match f with
  | .inr code => ⟨s, m, stENGERR, count, code, none⟩
  | .inl (.lost adr d) => ⟨s, m, stLOST, count, 0, some (.lost adr d)⟩
  | .inl (.refused c adr) => ⟨s, m, stENGERR, count, if c = fPAGE then 7 else 6, some (.refused c adr)⟩
  | .inl .wait => ⟨s, m, stENGERR, count, 6, none⟩

/-- Rows read one after the other: those read, and what stopped the reading: an access or code 0x05. -/
def millRows (s : State) (e : Eng) (c : MillCmd) : List Nat → List (List Elem) → List (List Elem) × Option (EFail ⊕ Nat)
  | [], acc => (acc, none)
  | r :: rs, acc =>
    if !rowInside c.map c.org r then (acc, some (.inr 5))
    else
      match readTileRow s e c.map c.org r with
      | .error f => (acc, some (.inl f))
      | .ok row => millRows s e c rs (acc ++ [row])

/-- Does a failure ask the engine to wait? -/
def waits : Option (EFail ⊕ Nat) → Bool
  | some (.inl .wait) => true
  | _ => false

/-- The code of R143 found before any data moves, 0 for none: `known` is the memory of the tile as far as it can be found, and
`limits` judges the extents, by themselves or for a format and geometry. -/
def millStatic (c : MillCmd) (known : List Found) (fmtBad : Nat → Bool) (limits : Option (Nat × Nat) → Bool) (more : Bool) : Nat :=
  if known.any fun f => fmtBad f.fmt then 1
  else if !limits none || known.any fun f => !limits (some (f.fmt, f.geom)) then 2
  else if !mapOk c.map then 3
  else if more || known.any fun f => !tileFits c.map c.org f then 4
  else 0

/-- A plane holds one format and one geometry (R148): DESIGN CHOICE (log 73), a B tile in memory of several does not match. -/
def mixed : List Found → Bool
  | [] => false
  | f :: r => r.any fun g => g.fmt != f.fmt || g.geom != f.geom

/-- K of A and B: 32, or 64 of E2M1X (R138). -/
def kGood (k : Nat) (f : Option (Nat × Nat)) : Bool := k == 32 || (k == 64 && f.all fun x => x.1 == 6)

/-- MLOAD: columns `cols` of the tile into the shadow plane. -/
def doMload (s : State) (e : Eng) (m : Mill) (c : MillCmd) (cols : List Nat) : Except Unit MillOut :=
  match tileFound s e c.map c.org false with
  | .error _ => .error ()
  | .ok known =>
    let k := mapT0 c.map
    let code := millStatic c known (fun fmt => !(narrowFmt fmt || halfFmt fmt))
      (fun f => kGood k f &&
        (if c.gang.isSome then mapT1 c.map == 64 else decide (1 ≤ mapT1 c.map) && decide (mapT1 c.map ≤ 32))) (mixed known)
    if code ≠ 0 then .ok (millFail s m 0 0 0 (.inr code))
    else
      let r := millRows s e c cols []
      let bytes := r.1.length * (k * eszBits (mapEsz c.map) / 8)
      if waits r.2 then .error ()
      else
        match r.2 with
        | some x => .ok (millFail s m 0 0 bytes x)
        | none =>
          let one := (r.1.flatten.head?).getD ⟨0, 0, 0, 0⟩
          .ok ⟨s, { m with shadow := planeOf k one.fmt one.geom r.1 }, stOK, bytes, 0, none⟩

/-- MSTRM: rows `rows` of A into rows 0 on of an accumulator. An ill-formed command fails with its code against an invalid
accumulator or plane too (DESIGN CHOICE, log 77). -/
def doMstrm (s : State) (e : Eng) (m : Mill) (c : MillCmd) (rows : List Nat) : Except Unit MillOut :=
  match tileFound s e c.map c.org false with
  | .error _ => .error ()
  | .ok known =>
    let k := mapT0 c.map
    let a := c.c % 4
    let off := m.bad.contains a || !m.active.valid
    let pair (fmt : Nat) : Bool :=
      (narrowFmt fmt && (off || narrowFmt m.active.fmt)) || (halfFmt fmt && (off || halfFmt m.active.fmt))
    let code := millStatic c known (fun fmt => !pair fmt)
      (fun f => kGood k f &&
        (if c.gang.isSome then mapT1 c.map == 64 else decide (1 ≤ mapT1 c.map) && decide (mapT1 c.map ≤ 128)))
      (!off && k != m.active.k)
    if code ≠ 0 then .ok (millFail s m 2 a 0 (.inr code))
    else if off then .ok ⟨s, m, stINVALID, 0, 0, none⟩
    else
      let r := millRows s e c rows []
      if waits r.2 then .error ()
      else
        let ow := c.fn.getLsbD 6
        let new := ((List.range r.1.length).zip r.1).map fun x => streamRow m a x.1 ow x.2
        let m' := { m with acc := putAccRows m.acc a 0 new }
        match r.2 with
        | some x => .ok (millFail s m' 2 a r.1.length x)
        | none => .ok ⟨s, m', stOK, r.1.length, 0, none⟩

/-- Write rows of an accumulator to the rows of a tile: the state, the rows written, and what stopped it. -/
def drainRows (e : Eng) (m : Mill) (c : MillCmd) (a row0 col0 n : Nat) :
    List Nat → State → Nat → State × Nat × Option (EFail ⊕ Nat)
  | [], s, k => (s, k, none)
  | r :: rs, s, k =>
    let ba := rowBit c.map c.org (row0 + r) + eszBits (mapEsz c.map) * col0
    if !rowInside c.map c.org (row0 + r) then (s, k, some (.inr 5))
    else
      let vs := (List.range n).map fun j => fmtF32.unpack (accAt m a r j)
      let w := writeRow s e ba (eszBits (mapEsz c.map)) n fun fmt geom => encodeRow fmt geom vs
      match w.2.2 with
      | some f => (w.1, k, some (.inl f))
      | none => drainRows e m c a row0 col0 n rs w.1 (k + 1)

/-- T0 of a block-scaled target (R140). -/
def drainGood (n : Nat) (f : Option (Nat × Nat)) : Bool :=
  f.all fun x => (x.1 != 6 || n == 32) && (x.2 == 0 || n == 32 || (x.2 == 2 && n == 16))

/-- MDRAIN of rows 0 on, `n` columns, to tile rows `row0` on and columns `col0` on. An ill-formed command fails with its code
against an invalid accumulator too (DESIGN CHOICE, log 77). -/
def doMdrain (s : State) (e : Eng) (m : Mill) (c : MillCmd) (row0 col0 : Nat) : Except Unit MillOut :=
  match tileFound s e c.map c.org true with
  | .error _ => .error ()
  | .ok known =>
    let a := c.c % 4
    let gang := c.gang.isSome
    let n := if gang then 32 else mapT0 c.map
    let rows := if gang then 32 else mapT1 c.map
    let code := millStatic c known (fun fmt => fmt == 0 || !fmtKnown fmt)
      (fun f => drainGood n f &&
        (if gang then mapT0 c.map == 64 && mapT1 c.map == 64 else decide (n ≤ 32) && decide (rows ≤ 128))) false
    if code ≠ 0 then .ok (millFail s m 3 a 0 (.inr code))
    else if m.bad.contains a then .ok ⟨s, m, stINVALID, 0, 0, none⟩
    else
      let r := drainRows e m c a row0 col0 n (List.range rows) s 0
      if waits r.2.2 then .error ()
      else
        match r.2.2 with
        | some x => .ok (millFail r.1 m 3 a r.2.1 x)
        | none =>
          let m' := if c.fn.getLsbD 6 then { m with acc := clearAcc m.acc a } else m
          .ok ⟨r.1, m', stOK, r.2.1, 0, none⟩

/-- The share of Mill (qr, qc) in a command. The first command to execute after an image of another version reports 0x08; an
MCLR with RST clears that unreported (DESIGN CHOICE, log 77). -/
def millShare (s : State) (e : Eng) (m : Mill) (c : MillCmd) (qr qc : Nat) : Except Unit MillOut :=
  let op := c.fn.toNat % 16
  let gang := c.gang.isSome
  let run (lo : Nat) : List Nat := if gang then (List.range 32).map fun i => 32 * lo + i else List.range (mapT1 c.map)
  let fresh := op == 4 && c.fn.getLsbD 6
  if m.alien && !fresh then .ok (millFail s { m with alien := false } op (c.c % 4) 0 (.inr 8))
  else if m.halted && !fresh then .ok ⟨s, m, stHALTED, 0, 0, none⟩
  else
    match op with
    | 0 => doMload s e m c (run qc)
    | 1 => .ok ⟨s, { m with
        active := m.shadow
        shadow := m.active }, stOK, 0, 0, none⟩
    | 2 => doMstrm s e m c (run qr)
    | 3 => doMdrain s e m c (if gang then 32 * qr else 0) (if gang then 32 * qc else 0)
    | _ => .ok ⟨s, { m with
        acc := clearAcc m.acc (c.c % 4)
        bad := m.bad.filter fun a => a != c.c % 4
        halted := false
        alien := false }, stOK, 0, 0, none⟩

/-- How a gang command's STATUS is chosen (R144): the first of ENGERR, LOST, HALTED, INVALID. -/
def statusRank (st : Nat) : Nat := if st = stENGERR then 0 else if st = stLOST then 1 else if st = stHALTED then 2 else if st = stINVALID then 3 else 4

/-- Every share of a command, one Mill after the other: the state and the shares' outcomes. -/
def millShares (c : MillCmd) (e : Eng) : List Nat → State → List MillOut → Except Unit (State × List MillOut)
  | [], s, acc => .ok (s, acc)
  | n :: r, s, acc =>
    match millShare s e (coreAt s n).mill c (rowOf n % 2) (colOf n % 2) with
    | .error _ => .error ()
    | .ok o =>
      let s := setCore o.s n { coreAt o.s n with mill := { o.mill with inbox := o.mill.inbox.drop 1 } }
      millShares c e r s (acc ++ [o])

/-- The outcome that the completion tells. -/
def worstOut : List MillOut → Option MillOut
  | [] => none
  | o :: r => some (r.foldl (fun b x => if statusRank x.status < statusRank b.status then x else b) o)

/-- The first refused access of a command's shares, which is told once for the command (R366). -/
def refusedBad (outs : List MillOut) : Option EFail :=
  outs.findSome? fun o => match o.bad with | some (.refused c x) => some (.refused c x) | _ => none

/-- Tell of the dies that a command's shares could not reach (R215). -/
def tellLost (s : State) (e : Eng) (outs : List MillOut) : State :=
  outs.foldl (fun s o => match o.bad with | some (.lost x d) => engTell s e (some (.lost x d)) | _ => s) s

/-- The Mill of a core executes the oldest command of its inbox (MILL_EXECUTE, R142); a gang command when all four Mills
have come to it. -/
def millStep (s : State) (n : Nat) : State :=
  if !engRuns s n then s
  else
    match (coreAt s n).mill.inbox with
    | [] => s
    | c :: _ =>
      let cs := if c.gang.isSome then quadCores n else [n]
      let ready := cs.all fun k => !(coreAt s k).saved && ((coreAt s k).mill.inbox.head?).any fun x => k == n || x.gang == c.gang
      if !ready then s
      else
        let e := engOf c.core c.ctx c.part c.supr c.vec
        match millShares c e cs s [] with
        | .error _ => s
        | .ok (t, outs) =>
          match worstOut outs with
          | none => s
          | some o =>
            match engComplete (tellLost t e outs) e c.cadr c.t o.status o.count (if o.status = stENGERR then o.code else 0) (refusedBad outs) with
            | .error _ => s
            | .ok t => (quadCores n).foldl (fun t k => wakeAll t k .unit) t

def execMillExecute (core : Nat) (s : State) : Out := .next (millStep s core)

end Sys2Proof.Machine
end

