-- ==== Sys2Proof/Machine/Copy.lean ====
section
/-! DEFINITION. Sys2Proof/Machine/Copy.lean: the copy engine (R147, R245, R271-R275, R293-R296): issue of its commands, the
checks before data moves, and the execution of one row of a command per step. -/

namespace Sys2Proof.Machine

/-! ## Issue (R271, R294) -/

/-- Room in a core's copy engine (R37). -/
def copyRoom (s : State) (n : Nat) : Bool := decide ((coreAt s n).copyq.length < 16)

/-- A command of the running context. -/
def copyCmd (s : State) (fn : BitVec 8) (c : Nat) (cword : Word) (smap : BitVec 256) (sorg : BitVec 64) (dmap : BitVec 256)
    (dorg : BitVec 64) (list : Word) (pos : Option Nat) : CopyCmd :=
  { num := s.serial
    fn := fn
    c := c
    ctx := s.cur.ctx
    cword := cword
    smap := smap
    sorg := sorg
    dmap := dmap
    dorg := dorg
    list := list
    row := 0
    didx := 0
    pos := pos
    done := 0
    started := false
    gone := []
    move := none
    job := (me s).job
    part := partNum s s.cur.core
    supr := suprNow s
    vec := releaseVec s }

/-- Queue a command and go on. -/
def pushCopy (s : State) (st : Stall) (c : CopyCmd) : Out :=
  let k := myCore s
  let s := setMyCore { s with serial := s.serial + 1 } { k with copyq := k.copyq ++ [c] }
  done st 4 (setMe s { me s with tapeAt := none, paybuf := none })

/-- Reserve the issuer entry of a recording command of `n` records, once for each issue: its position, or none when the
reservation does not fit (R188). -/
def reserveIssuer (s : State) (n kind : Nat) (base : Word) (ne : Nat) : Option (Nat × State) :=
  match (me s).tapeAt with
  | some p => some (p, s)
  | none =>
    let core := s.cur.core
    let d := dieOf core
    let part := partNum s core
    let job := (me s).job
    let tid := tidOf core (tapePos s d part job)
    let e := newEntry tid kind 0 (pkgAt s (pkgOf core)).gen base ne []
    (tapeReserve s d part job (entrySize n) e).map fun x => (x.1, setMe x.2 { me x.2 with tapeAt := some x.1 })

/-- COPY and COPYM. -/
def copyIssue (s : State) (st : Stall) (fn : BitVec 8) (a : TReg) (b : Reg) (c : TReg) (acc : Bool) : Out :=
  let w := xr s b
  let n := s.cur.core
  let t := me s
  let adrs := [cwAdr w, baseAdr (t.rtm a), baseAdr (t.rtm c)]
  if cwordFault w acc || (fn.getLsbD 7 && nbits fn.toNat 4 2 != 0) || adrs.any operandBad then supFault s fRESFIELD (badOperand adrs)
  else
    match cwordOperand s w, mapOperand s n (t.rtm a) (t.rorg a), mapOperand s n (t.rtm c) (t.rorg c) with
    | none, _, _ => supFault s fPROTECT (cwAdr w)
    | _, none, _ => supFault s fPROTECT (BitVec.ofNat 64 (mapBase (t.rtm a)))
    | _, _, none => supFault s fPROTECT (BitVec.ofNat 64 (mapBase (t.rtm c)))
    | some w', some m, some d =>
      releasing s fun s =>
        if !copyRoom s n then .next (parkHere s .unit)
        else pushCopy s st (copyCmd s fn c.toNat w' m (t.rorg a) d (t.rorg c) 0 none)

/-- The part of an MCAST's list that its issue reads after the bytes it has: ND, and then each DBASE (R274). -/
def mcastPart (l : Word) (got : List Byte) : Option (Word × Nat) :=
  let nd := ofBytes (got.take 2)
  if got.length < 16 then some (l, 16)
  else if nd = 0 ∨ 64 < nd ∨ 16 + 8 * nd ≤ got.length then none
  else some (l + BitVec.ofNat 64 got.length, 8)

/-- The addresses DBASE among the bytes of an MCAST's list. -/
def mcastBases (bytes : List Byte) : List Word :=
  (List.range ((bytes.length - 16) / 8)).map fun i => BitVec.ofNat 64 (ofBytes ((bytes.drop (16 + 8 * i)).take 8))

/-- What the issue of a copy command reads of its list, as a plain load: all of an MCAST's, whose addresses R271 judges at issue;
the first 16 bytes of a row list whose command records. -/
def withList (s : State) (mcast : Bool) (l : Word) (rec : Bool) (f : State → List Byte → Out) : Out :=
  if mcast then withParts 4 (mcastPart l) f 66 s else if rec then withBytes s 4 l 16 f else f s []

/-- MCAST, GATHER and SCATTER: `count` gives the number of tape records from the list's first 16 bytes, for a command that
records. -/
def listIssue (s : State) (st : Stall) (fn : BitVec 8) (a : TReg) (b c : Reg) (mcast : Bool) (kind : Nat)
    (count : Option (Nat → Nat)) : Out :=
  let w := xr s b
  let l := xr s c
  let n := s.cur.core
  let t := me s
  let map := baseAdr (t.rtm a)
  let bad := if mcast then operandBad map else !mbzOk map
  if cwordFault w false || operandBad (cwAdr w) || isPrivAdr l || bad then
    supFault s fRESFIELD (badOperand ([cwAdr w, l] ++ if bad then [map] else []))
  else if l.toNat % 16 ≠ 0 then supFault s fMISALIGN l
  else if !mbzOk l then supFault s fRESFIELD l
  else
    match cwordOperand s w, mapOperand s n (t.rtm a) (t.rorg a), absOperand s n l with
    | none, _, _ => supFault s fPROTECT (cwAdr w)
    | _, none, _ => supFault s fPROTECT (BitVec.ofNat 64 (mapBase (t.rtm a)))
    | _, _, none => supFault s fPROTECT l
    | some w', some m, some l' =>
      let cmd (s : State) (pos : Option Nat) : CopyCmd := copyCmd s fn c.toNat w' m (t.rorg a) m (t.rorg a) l' pos
      releasing s fun s =>
        withList s mcast l count.isSome fun s bytes =>
          let enter (s : State) (pos : Option Nat) : Out :=
            if !copyRoom s n then
              .next (parkHere (setMe s { me s with paybuf := if bytes = [] then none else some bytes }) .unit)
            else pushCopy s st (cmd s pos)
          if mcast ∧ (mcastBases bytes).any operandBad then supFault s fRESFIELD (badOperand (mcastBases bytes))
          else
            match count with
            | none => enter s none
            | some f =>
              match reserveIssuer s (f (ofBytes (bytes.take 16))) kind (BitVec.ofNat 64 (mapBase m)) (mapT0 m) with
              | none => upcall s fTAPEFULL (cwAdr w') 4
              | some (p, s) => enter s (some p)

/-- fn of a copy command: its operation, and fn[7:4]. -/
def copyFn (op : BitVec 4) (hi : BitVec 4) : BitVec 8 := hi ++ op

def execCopy (st : Stall) (a : TReg) (b : Reg) (c : TReg) (s : State) : Out := copyIssue s st (copyFn 0 0) a b c false
def execCopym (st : Stall) (a : TReg) (b : Reg) (c : TReg) (g o : Bool) (t : BitVec 2) (s : State) : Out :=
  copyIssue s st (copyFn 1 (t.setWidth 4 ||| (if o then 4 else 0) ||| (if g then 8 else 0))) a b c true
def execMcast (st : Stall) (a : TReg) (b c : Reg) (r : Bool) (s : State) : Out :=
  listIssue s st (copyFn 4 (if r then 8 else 0)) a b c true 0 (if r then some fun h => mapT1 ((me s).rtm a) * (h % 65536) else none)
def execGather (st : Stall) (a : TReg) (b c : Reg) (r : Bool) (s : State) : Out :=
  listIssue s st (copyFn 2 (if r then 8 else 0)) a b c false 1 (if r then some fun h => h % 4294967296 else none)
def execScatter (st : Stall) (a : TReg) (b c : Reg) (s : State) : Out := listIssue s st (copyFn 3 0) a b c false 0 none

/-! ## Rows of a command -/

def copyOp (c : CopyCmd) : Nat := c.fn.toNat % 16
def copyRec (c : CopyCmd) : Bool := c.pos.isSome

/-- One row to be moved: bit addresses and element widths of its source and destination, and its address at the far end. -/
structure CopyRow where
  skip : Bool
  src  : Nat
  sbits : Nat
  dst  : Nat
  dbits : Nat
  far  : Word
deriving DecidableEq, Repr

/-- ND of an MCAST's list, with its must-be-zero bytes (R274). -/
def mcastHead (s : State) (e : Eng) (c : CopyCmd) : Except EFail (Nat × Bool) :=
  (engRead s e c.list 16).map fun h => (h % 65536, h / 65536 == 0)

/-- DBASE(n) in absolute form. -/
def mcastBase (s : State) (e : Eng) (c : CopyCmd) (d : Nat) : Except EFail Word :=
  match engRead s e (c.list + BitVec.ofNat 64 (16 + 8 * d)) 8 with
  | .error f => .error f
  | .ok v =>
    match absAdr s e.who.core (BitVec.ofNat 64 v) with
    | none => .error (.refused fPROTECT (BitVec.ofNat 64 v))
    | some a => .ok a

/-- NR of a row list with its must-be-zero bytes, and FMAP (R293). -/
def rowListHead (s : State) (e : Eng) (c : CopyCmd) : Except EFail (Nat × Bool × BitVec 256) :=
  match engRead s e c.list 16, engRead s e (c.list + 16) 16, engRead s e (c.list + 32) 16 with
  | .ok h, .ok lo, .ok hi => .ok (h % 4294967296, h / 4294967296 == 0, BitVec.ofNat 256 (lo + 340282366920938463463374607431768211456 * hi))
  | .error f, _, _ => .error f
  | _, .error f, _ => .error f
  | _, _, .error f => .error f

/-- IDX(r): SKIP, and the far row's index. -/
def rowListIdx (s : State) (e : Eng) (c : CopyCmd) (r : Nat) : Except EFail (Bool × Nat) :=
  (engRead s e (c.list + BitVec.ofNat 64 (48 + 4 * r)) 4).map fun v => (decide (2147483648 ≤ v), v % 2147483648)

/-- FMAP with its base in absolute form. -/
def farMap (s : State) (e : Eng) (m : BitVec 256) : Except EFail (BitVec 256) :=
  match absAdr s e.who.core (BitVec.ofNat 64 (mapBase m)) with
  | none => .error (.refused fPROTECT (BitVec.ofNat 64 (mapBase m)))
  | some a => .ok (mapWithBase m a)

/-- Destinations of each row of a command, by its list. -/
def copyDests (s : State) (e : Eng) (c : CopyCmd) : Except EFail Nat :=
  if copyOp c = 4 then (mcastHead s e c).map fun h => h.1 else .ok 1

/-- Row `r` of destination `d`. -/
def copyRow (s : State) (e : Eng) (c : CopyCmd) (r d : Nat) : Except EFail CopyRow :=
  let sb := eszBits (mapEsz c.smap)
  let src := rowBit c.smap c.sorg r
  match copyOp c with
  | 4 =>
    (mcastBase s e c d).map fun b =>
      let dst := rowBit (mapWithBase c.smap b) 0 r
      ⟨false, src, sb, dst, sb, BitVec.ofNat 64 (dst / 8)⟩
  | 2 =>
    match rowListHead s e c, rowListIdx s e c r with
    | .ok h, .ok (skip, i) =>
      (farMap s e h.2.2).map fun m =>
        let far := rowBit m 0 i
        ⟨skip, far, eszBits (mapEsz m), src, sb, BitVec.ofNat 64 (far / 8)⟩
    | .error f, _ => .error f
    | _, .error f => .error f
  | 3 =>
    match rowListHead s e c, rowListIdx s e c r with
    | .ok h, .ok (skip, i) =>
      (farMap s e h.2.2).map fun m =>
        let far := rowBit m 0 i
        ⟨skip, src, sb, far, eszBits (mapEsz m), BitVec.ofNat 64 (far / 8)⟩
    | .error f, _ => .error f
    | _, .error f => .error f
  | _ => .ok ⟨false, src, sb, rowBit c.dmap c.dorg r, eszBits (mapEsz c.dmap), 0⟩

/-! ## Checks before data moves (R273, R295) -/

/-- The lowest code of some, 0 for none. -/
def lowestCode (l : List Nat) : Nat := (l.filter fun c => c != 0).foldl (fun a c => if a = 0 then c else Nat.min a c) 0

def codeIf (b : Bool) (c : Nat) : Nat := if b then c else 0

/-- Do two pieces hold elements that a copy moves into one another? -/
def Found.meets (f g : Found) : Bool := f.row == g.row && decide (f.k < g.k + g.n) && decide (g.k < f.k + f.n)

/-- 0x30: RAW on one side of a row's elements, or a reserved FMT. -/
def code30 (fs gs : List Found) : Nat :=
  codeIf ((fs ++ gs).any (fun f => !fmtKnown f.fmt) ||
    fs.any fun f => gs.any fun g => f.meets g && (f.fmt == 0) != (g.fmt == 0)) 0x30

/-- 0x33 of one side whose rows have `n` elements. -/
def code33 (m : BitVec 256) (o : BitVec 64) (n : Nat) (fs : List Found) : Nat :=
  codeIf (fs.any fun f => f.fmt != 0 && !(tileFits m o f && (f.geom == 0 || n % blockElems f.fmt f.geom == 0))) 0x33

/-- RAW on both sides with unequal element widths. -/
def rawEsz (fs gs : List Found) (a b : Nat) : Nat :=
  codeIf (a != b && fs.any fun f => gs.any fun g => f.meets g && f.fmt == 0 && g.fmt == 0) 0x33

/-- The bytes between the first and the last of `rows` rows of `n` elements, as one span of the home's bytes. -/
def tileSpan (s : State) (e : Eng) (m : BitVec 256) (o : BitVec 64) (n rows : Nat) : Nat × Nat :=
  let b := eszBits (mapEsz m)
  let lo := rowBit m o 0 / 8
  let hi := (rowBit m o (rows - 1) + b * n + 7) / 8
  match engPlace s e (BitVec.ofNat 64 lo) true with
  | some (p, _) => (placeNum e.who.core e.who.part p, hi - lo)
  | none => (0, 0)

def overlap (a b : Nat × Nat) : Bool := a.2 != 0 && b.2 != 0 && decide (a.1 < b.1 + b.2) && decide (b.1 < a.1 + a.2)

/-- A place of another partition: no far row or destination may lie there. -/
def foreign (s : State) (e : Eng) (adr : Word) : Bool :=
  match engPlace s e adr false with
  | some (.slice n _, _) => !e.who.supr && partOf s n != some e.who.part
  | _ => false

/-- The codes of COPY and COPYM. -/
def checkPair (s : State) (e : Eng) (c : CopyCmd) : Except Unit Nat :=
  let ok := mapOk c.smap && mapOk c.dmap
  match tileFound s e c.smap c.sorg false, tileFound s e c.dmap c.dorg true with
  | .ok f, .ok g =>
    let t0 := mapT0 c.smap
    let t1 := mapT1 c.smap
    .ok (lowestCode [
      code30 f g,
      codeIf (t0 != mapT0 c.dmap || t1 != mapT1 c.dmap || decide (1048576 < t0 * t1) ||
        (ok && overlap (tileSpan s e c.smap c.sorg t0 t1) (tileSpan s e c.dmap c.dorg t0 t1))) 0x31,
      codeIf (!ok) 0x32,
      code33 c.smap c.sorg t0 f, code33 c.dmap c.dorg t0 g, rawEsz f g (mapEsz c.smap) (mapEsz c.dmap),
      codeIf (!(rowInside c.smap c.sorg (t1 - 1) && rowInside c.dmap c.dorg (t1 - 1))) 0x34])
  | _, _ => .error ()

/-- The codes of one destination of an MCAST. -/
def checkDest (s : State) (e : Eng) (c : CopyCmd) (f : List Found) (d : Nat) : Except Unit (List Nat) :=
  match mcastBase s e c d with
  | .error .wait => .error ()
  | .error _ => .ok []
  | .ok b =>
    let m := mapWithBase c.smap b
    match tileFound s e m 0 true with
    | .error _ => .error ()
    | .ok g =>
      let t0 := mapT0 m
      .ok [code30 f g, codeIf (mapOk m && overlap (tileSpan s e c.smap c.sorg t0 (mapT1 m)) (tileSpan s e m 0 t0 (mapT1 m))) 0x31,
        code33 m 0 t0 g, codeIf (foreign s e b) 0x37]

def checkDests (s : State) (e : Eng) (c : CopyCmd) (f : List Found) : List Nat → List Nat → Except Unit (List Nat)
  | [], acc => .ok acc
  | d :: r, acc =>
    match checkDest s e c f d with
    | .error _ => .error ()
    | .ok l => checkDests s e c f r (acc ++ l)

def checkMcast (s : State) (e : Eng) (c : CopyCmd) : Except Unit Nat :=
  match tileFound s e c.smap c.sorg false, mcastHead s e c with
  | .error _, _ => .error ()
  | _, .error .wait => .error ()
  | .ok f, h =>
    let t0 := mapT0 c.smap
    let t1 := mapT1 c.smap
    let own := [code30 f [], codeIf (decide (1048576 < t0 * t1)) 0x31, codeIf (!mapOk c.smap) 0x32, code33 c.smap c.sorg t0 f,
      codeIf (!rowInside c.smap c.sorg (t1 - 1)) 0x34]
    match h with
    | .error _ => .ok (lowestCode own)
    | .ok (nd, zero) =>
      let l := codeIf (nd == 0 || decide (64 < nd) || !zero || decide (65535 < t1 * nd)) 0x37
      match checkDests s e c f (List.range (Nat.min nd 64)) [] with
      | .error _ => .error ()
      | .ok ds => .ok (lowestCode (l :: own ++ ds))

/-- The codes of one entry of a row list. -/
def checkFar (s : State) (e : Eng) (c : CopyCmd) (m : BitVec 256) (f : List Found) (r : Nat) :
    Except Unit (List Nat) :=
  match rowListIdx s e c r with
  | .error .wait => .error ()
  | .error _ => .ok []
  | .ok (true, _) => .ok []
  | .ok (false, i) =>
    let t0 := mapT0 c.smap
    let ba := rowBit m 0 i
    match rowFound s e ba (eszBits (mapEsz m)) t0 (copyOp c == 3) r with
    | .error _ => .error ()
    | .ok g =>
      let span := (tileSpan s e c.smap c.sorg t0 (mapT1 c.smap), tileSpan s e (mapWithBase m (BitVec.ofNat 64 (ba / 8))) 0 t0 1)
      .ok [code30 f g, codeIf (mapOk c.smap && overlap span.1 span.2) 0x31, code33 m 0 t0 g,
        rawEsz f g (mapEsz c.smap) (mapEsz m),
        codeIf (decide (mapDim m 1 ≤ i) || mapDim m 2 == 0 || mapDim m 3 == 0) 0x34,
        codeIf (foreign s e (BitVec.ofNat 64 (ba / 8))) 0x38]

def checkFars (s : State) (e : Eng) (c : CopyCmd) (m : BitVec 256) (f : List Found) :
    List Nat → List Nat → Except Unit (List Nat)
  | [], acc => .ok acc
  | r :: rs, acc =>
    match checkFar s e c m f r with
    | .error _ => .error ()
    | .ok l => checkFars s e c m f rs (acc ++ l)

/-- The codes of GATHER and SCATTER. -/
def checkRows (s : State) (e : Eng) (c : CopyCmd) : Except Unit Nat :=
  match tileFound s e c.smap c.sorg (copyOp c == 2), rowListHead s e c with
  | .error _, _ => .error ()
  | _, .error .wait => .error ()
  | .ok f, h =>
    let t0 := mapT0 c.smap
    let t1 := mapT1 c.smap
    let own := [code30 f [], codeIf (decide (1048576 < t0 * t1)) 0x31, codeIf (!mapOk c.smap) 0x32, code33 c.smap c.sorg t0 f,
      codeIf (!rowInside c.smap c.sorg (t1 - 1)) 0x34]
    match h with
    | .error _ => .ok (lowestCode own)
    | .ok (nr, zero, m0) =>
      let list := [codeIf (nr != t1 || !zero || m0.toNat / 2 ^ 228 != 0 || decide (4 ≤ mapEsz m0)) 0x38,
        codeIf (copyRec c && mapStr m0 != t0) 0x39, codeIf (decide (mapDim m0 0 < t0)) 0x34]
      match farMap s e m0 with
      | .error _ => .ok (lowestCode (own ++ list))
      | .ok m =>
        match checkFars s e c m f (List.range (Nat.min nr t1)) [] with
        | .error _ => .error ()
        | .ok fs => .ok (lowestCode (own ++ list ++ fs))

/-- The code found before any data moves, 0 for none. -/
def copyCheck (s : State) (e : Eng) (c : CopyCmd) : Except Unit Nat :=
  match copyOp c with
  | 4 => checkMcast s e c
  | 2 => checkRows s e c
  | 3 => checkRows s e c
  | _ => checkPair s e c

/-! ## Recording (R274, R296) -/

/-- The core at the far end of an address: for the Granary core (0, 0) of the agent's die. -/
def endCore (s : State) (e : Eng) (adr : Word) : Option Nat := (engPlace s e adr true).map fun p => p.2

/-- The issuer's route record number `i` for row `r` of destination `d`. Until its row has moved it is flagged LOST. -/
def copyRecAt (s : State) (e : Eng) (c : CopyCmd) (i r d : Nat) : TapeRec :=
  match copyRow s e c r d with
  | .ok x =>
    (match endCore s e x.far with
     | some n => ⟨i, x.far, r, if x.skip then recDEFERRED else recLOST, n, pathOf s (dieOf e.who.core) (dieOf n), d, 0, 0⟩
     | none => ⟨i, x.far, r, if x.skip then recDEFERRED else recLOST, 0, 0, d, 0, 0⟩)
  | .error _ => ⟨i, 0, r, recLOST, 0, 0, d, 0, 0⟩

/-- Every issuer record in loop order. -/
def copyRecs (s : State) (e : Eng) (c : CopyCmd) (nd : Nat) : List TapeRec :=
  (List.range (mapT1 c.smap * nd)).map fun i => copyRecAt s e c i (i / nd) (i % nd)

/-- Dies that records name, each once. -/
def recDies (rs : List TapeRec) : List Nat :=
  rs.foldl (fun l r => if l.contains (dieOf r.fin) then l else l ++ [dieOf r.fin]) []

/-- Far-end entries of a recording command at the dies within reach that its valid records name. -/
def farEntries (s : State) (e : Eng) (tid : Nat × Nat) (kind gen : Nat) (base : TapeRec → Word) (ne : Nat)
    (far : TapeRec → TapeRec) (rs : List TapeRec) : List (Nat × TapeEntry) :=
  let valid := rs.filter fun r => r.flags != recDEFERRED && !unreachable s e.who.core (dieOf r.fin)
  (recDies valid).map fun d =>
    let mine := valid.filter fun r => dieOf r.fin == d
    (d, newEntry tid kind 1 gen (match mine with | r :: _ => base r | [] => 0) ne
      (mine.map fun r => { far r with fin := e.who.core, path := pathOf s d (dieOf e.who.core) }))

/-- GEN of the issuer's entry. -/
def entryGen (s : State) (n part job pos : Nat) : Nat :=
  match (tapeOf s (dieOf n) part job).entries.find? fun x => x.pos == pos with
  | some x => x.gen
  | none => 0

/-- Write the issuer's records and reserve the far ends; none when a far end refuses (R188). -/
def copyRecord (s : State) (e : Eng) (c : CopyCmd) (pos nd : Nat) : Option State :=
  let rs := copyRecs s e c nd
  let n := e.who.core
  let tid := tidOf n pos
  let base : TapeRec → Word := fun r =>
    if copyOp c = 2 then
      (match rowListHead s e c with
       | .ok h => (match farMap s e h.2.2 with | .ok m => BitVec.ofNat 64 (mapBase m) | .error _ => 0)
       | .error _ => 0)
    else r.adr
  let far (r : TapeRec) : TapeRec :=
    if copyOp c = 2 then (match rowListIdx s e c r.row with | .ok x => { r with row := x.2 } | .error _ => r) else r
  let fs := farEntries s e tid (if copyOp c = 2 then 1 else 0) (entryGen s n c.part c.job pos) base (mapT0 c.smap) far rs
  let s := tapeEdit s (dieOf n) c.part c.job pos fun x => { x with recs := rs }
  reserveFar s c.part c.job fs

/-! ## Execution (R272, R273) -/

/-- What one step makes of a command: it goes on, or it is over. -/
inductive CopyStep
  | more (s : State) (c : CopyCmd)
  | over (s : State)
  | wait
deriving DecidableEq, Repr

def copyEnd (s : State) (e : Eng) (c : CopyCmd) (status count spec : Nat) (bad : Option EFail) : CopyStep :=
  match engComplete s e (cwAdr c.cword) (cwT c.cword) status count spec bad with
  | .ok s => .over s
  | .error _ => .wait

/-- A command that fails before any row has moved releases its entries (R188). -/
def copyVoid (s : State) (e : Eng) (c : CopyCmd) : State :=
  match c.pos with
  | some p => voidAll s c.part c.job (tidOf e.who.core p)
  | none => s

/-- A failure with a code. -/
def copyFail (s : State) (e : Eng) (c : CopyCmd) (code : Nat) (bad : Option EFail) : CopyStep :=
  copyEnd (if c.done = 0 then copyVoid s e c else s) e c stENGERR c.done code bad

/-- Code of an access that is refused. -/
def copyCode : EFail → Nat
  | .refused c _ => if c = fPAGE then 0x36 else 0x35
  | _ => 0x35

/-- Start: the checks, and the far ends of a recording command. -/
def copyStart (s : State) (e : Eng) (c : CopyCmd) : CopyStep :=
  match copyCheck s e c, copyDests s e c with
  | .error _, _ => .wait
  | _, .error .wait => .wait
  | .ok code, nd =>
    if code ≠ 0 then copyFail s e c code none
    else
      match nd with
      | .error f => copyFail s e c (copyCode f) (some f)
      | .ok nd =>
        match c.pos with
        | none => .more s { c with started := true }
        | some p =>
          match copyRecord s e c p nd with
          | none =>
            copyFail (reserveSome s c.part c.job (farEntries s e (tidOf e.who.core p) 0 0 (fun _ => 0) 0 id (copyRecs s e c nd)))
              e c 0x24 none
          | some s => .more s { c with started := true }

/-- The next row of a command. -/
def copyNext (c : CopyCmd) (nd : Nat) : CopyCmd :=
  if c.didx + 1 < nd then { c with didx := c.didx + 1 } else { c with row := c.row + 1, didx := 0 }

/-- A row that an unreachable die keeps from moving: told once for each die. -/
def copyLost (s : State) (e : Eng) (c : CopyCmd) (adr : Word) (die : Nat) : State × CopyCmd :=
  if c.gone.contains die then (s, c)
  else (dieLostNotice s e.who.core e.who.ctx die adr, { c with gone := die :: c.gone })

/-- A row has moved: its record tells so at both ends. -/
def copyMark (s : State) (e : Eng) (c : CopyCmd) (nd : Nat) : State :=
  match c.pos with
  | none => s
  | some p =>
    markRec s c.part c.job (tidOf e.who.core p) (c.row * nd + c.didx) fun r =>
      { r with flags := 0, gen := (pkgAt s (pkgOf e.who.core)).gen }

/-- The row that a command moves. -/
def copyMove (s : State) (e : Eng) (c : CopyCmd) (x : CopyRow) : RowMove :=
  ⟨e.who.core, c.ctx, false, c.num, c.job, rowSource s e x.src⟩

/-- OnWay one row: the elements are read and decoded, encoded for the destination, and written or sent on their way. -/
def moveRow (s : State) (e : Eng) (c : CopyCmd) (x : CopyRow) : State × OnWay :=
  match readRow s e x.src x.sbits (mapT0 c.smap) with
  | .error f => (s, ⟨0, [], 0, some f⟩)
  | .ok els => moveOut s e (copyMove s e c x) x.dst x.dbits (mapT0 c.smap) (encodeElems els)

/-- The MSTRM that a COPYM places (R147). -/
def followOn (s : State) (e : Eng) (c : CopyCmd) : CopyStep :=
  let t := nbits c.fn.toNat 4 2
  let g := c.fn.getLsbD 7
  let cs := millTargets e.who.core t g
  if !millRoom s cs then .wait
  else
    let r := fresh s
    .over (pushMill r.2 cs
      { fn := 2 ||| (c.fn &&& 0xF0)
        c := cwAcc c.cword
        core := e.who.core
        ctx := e.who.ctx
        t := cwT c.cword
        map := c.dmap
        org := c.dorg
        cadr := cwAdr c.cword
        gang := if g then some r.1 else none
        part := c.part
        acc := cwAcc c.cword
        job := c.job
        supr := c.supr
        vec := c.vec })

/-- Every row has been dealt with. -/
def copyFinish (s : State) (e : Eng) (c : CopyCmd) : CopyStep :=
  if copyOp c = 1 ∧ c.gone = [] then followOn s e c
  else copyEnd s e c (if c.gone = [] then stOK else stLOST) c.done (c.pos.getD 0) none

/-- A row has been dealt with, or waits for its answers. -/
def copyMoved (s : State) (e : Eng) (c : CopyCmd) (nd : Nat) (m : OnWay) : CopyStep :=
  let c' := { c with
    done := c.done + m.bytes
    move := none }
  if m.left ≠ [] then .more s { c with move := some m }
  else
    match m.bad with
    | none => .more (copyMark s e c nd) (copyNext c' nd)
    | some .wait => .wait
    | some (.lost adr die) =>
      let r := copyLost s e c' adr die
      .more r.1 (copyNext r.2 nd)
    | some f => copyFail s e c' (copyCode f) (some f)

/-- One step of a command. -/
def copyRun (s : State) (e : Eng) (c : CopyCmd) : CopyStep :=
  if !c.started then copyStart s e c
  else if mapT1 c.smap ≤ c.row then copyFinish s e c
  else if c.move.any fun m => m.left != [] then .wait
  else
    match copyDests s e c, copyRow s e c c.row c.didx with
    | .error .wait, _ => .wait
    | _, .error .wait => .wait
    | .error f, _ => copyFail s e c (copyCode f) (some f)
    | _, .error f => copyFail s e c (copyCode f) (some f)
    | .ok nd, .ok x =>
      match c.move with
      | some m => copyMoved s e c nd m
      | none =>
        if x.skip then .more s (copyNext c nd)
        else
          let w := moveRow s e c x
          copyMoved w.1 e c nd w.2

/-- COPY_ENGINE_EXECUTE: command `k` of a core's copy engine takes one step. -/
def copyStep (s : State) (n k : Nat) : State :=
  match (coreAt s n).copyq[k]? with
  | none => s
  | some c =>
    if !engRuns s n then s
    else
      match copyRun s (engOf n c.ctx c.part c.supr c.vec) c with
      | .wait => s
      | .more t c => setCore t n { coreAt t n with copyq := (coreAt t n).copyq.set k c }
      | .over t => wakeAll (setCore t n { coreAt t n with copyq := (coreAt t n).copyq.eraseIdx k }) n .unit

/-! ## Row data at their home (R156, R158) -/

/-- Change the row on its way of a command of a core. -/
def editMove (s : State) (core : Nat) (disp : Bool) (cmd tag : Nat) (f : OnWay → OnWay) : State :=
  let k := coreAt s core
  let on (m : OnWay) : OnWay := if m.tag = tag then f m else m
  if disp then
    setCore s core { k with dispq := k.dispq.map fun c => if c.num = cmd then { c with move := c.move.map fun m => (on m.1, m.2) } else c }
  else setCore s core { k with copyq := k.copyq.map fun c => if c.num = cmd then { c with move := c.move.map on } else c }

/-- A die that a row waits for has answered: the bytes that it wrote, and what stopped it. -/
def OnWay.answer (m : OnWay) (die bytes : Nat) (bad : Option EFail) : OnWay :=
  if m.left.contains die then
    { m with
      left := m.left.filter fun d => d != die
      bytes := m.bytes + bytes
      bad := m.bad <|> bad }
  else m

/-- A home answers for the data that have come to it, and between dies keeps the answer until it knows that it arrived. -/
def dataAnswer (s : State) (d : DataPart) (n : Nat) (bad : Option EFail) : State :=
  let r : DataDone := ⟨d.core, d.disp, d.cmd, d.tag, dieOf d.home, n, bad⟩
  if dieOf d.home ≠ dieOf d.core ∧ unreachable s d.home (dieOf d.core) then s
  else
    let s := transmit s d.home d.core .rply d.part d.inc false (.dataDone r)
    if dieOf d.home = dieOf d.core then s else keepSent s

/-- Row data reach their home, which writes them when the stores that the command's issue released are applied there (R131). -/
def dataArrival (s : State) (k : Nat) : State :=
  match takeAt s k with
  | .yes p =>
    (match p.body with
     | .data d =>
       if !p.near then s
       else if stale s p then removeAt s k
       else
         let w := putPieces (noteWork (removeAt s k) d.home d.job) (engOf d.core d.ctx d.part d.supr d.vec) p.src p.stamp 0 d.pieces
         (match w.2.2 with
          | some .wait => s
          | bad => dataAnswer w.1 d w.2.1 bad)
     | _ => s)
  | _ => s

/-- The sender's interface forgets data that have been answered for. -/
def forgetData (s : State) (tag die : Nat) : State :=
  { s with keptReq := s.keptReq.filter fun p => match p.body with | .data d => d.tag != tag || dieOf d.home != die | _ => true }

/-- An answer for row data reaches the command's engine. -/
def doneArrival (s : State) (k : Nat) : State :=
  match takeAt s k with
  | .yes p =>
    (match p.body with
     | .dataDone r =>
       if !p.near then s
       else
         let s' := forgetData (removeAt s k) r.tag r.die
         if stale s p then s' else editMove s' r.core r.disp r.cmd r.tag fun m => m.answer r.die r.bytes r.bad
     | _ => s)
  | _ => s

/-- Row data that are lost for good: the die answers no more. -/
def loseData (s : State) (d : DataPart) : State :=
  let adr := (d.pieces.head?.map fun p => p.adr).getD 0
  editMove s d.core d.disp d.cmd d.tag fun m => m.answer (dieOf d.home) 0 (some (.lost adr (dieOf d.home)))

/-- Rows on their way whose home is out of the reach of their command's package: no answer will come (R215). -/
def loseMoves (s : State) (pkg : Nat) : State :=
  s.keptReq.foldl (fun s p =>
    match p.body with
    | .data d =>
      if pkgOf d.core = pkg ∧ dieOf d.home ≠ dieOf d.core ∧ unreachable s d.core (dieOf d.home) then
        loseData (forgetData s d.tag (dieOf d.home)) d
      else s
    | _ => s) s

def execCopyEngineExecute (core k : Nat) (s : State) : Out := .next (copyStep s core k)

end Sys2Proof.Machine
end

