-- ==== Sys2Proof/Machine/Route.lean ====
section
/-! DEFINITION. Sys2Proof/Machine/Route.lean: the dispatch engine (R178-R187, R270, R281-R284): DISP, COMB, DCUR and DRES,
grants at the experts' homes, and one record of a command per step. The sums of rows are in Replay.lean. -/

namespace Sys2Proof.Machine

/-! ## Issue -/

/-- Room in a core's dispatch engine (R37). -/
def dispRoom (s : State) (n : Nat) : Bool := decide ((coreAt s n).dispq.length < 16)

/-- A command of the running context, as yet without the fields of its kind. -/
def dispCmd (s : State) (kind : DKind) (cword table : Word) (map : BitVec 256) (org : BitVec 64) : DispCmd :=
  { num := s.serial
    kind := kind
    ctx := s.cur.ctx
    cword := cword
    table := table
    map := map
    org := org
    goff := 0
    strict := false
    bound := 15
    flags := 0
    n := 0
    list := 0
    next := 0
    done := 0
    nlist := 0
    bytes := 0
    pos := none
    started := false
    halt := false
    bad := none
    lost := 0
    deferred := 0
    rerouted := 0
    recs := []
    rkind := 0
    tid := (0, 0)
    rows := []
    late := []
    move := none
    moved := false
    cursor := none
    job := (me s).job
    part := partNum s s.cur.core
    supr := suprNow s
    vec := releaseVec s }

/-- Queue a command and go on. -/
def pushDisp (s : State) (st : Stall) (c : DispCmd) : Out :=
  let k := myCore s
  let s := setMyCore { s with serial := s.serial + 1 } { k with dispq := k.dispq ++ [c] }
  done st 4 (setMe s { me s with tapeAt := none, paybuf := none })

/-- A command with the header read at issue: N, FLAGS with the bytes after it, and LIST. -/
def withHeader (c : DispCmd) (h : Nat) (pos : Option Nat) : DispCmd :=
  { c with
    n := h % 4294967296
    flags := h / 4294967296 % 4294967296
    list := BitVec.ofNat 64 (h / wordMod)
    pos := pos }

/-- DISP and COMB (R284, R270). -/
def routeIssue (s : State) (st : Stall) (kind : DKind) (tape : Nat) (a : TReg) (b c : Reg) (bound : Nat) : Out :=
  let w := xr s b
  let l := xr s c
  let n := s.cur.core
  let t := me s
  let adrs := [cwAdr w, baseAdr (t.rtm a)]
  if cwordFault w false || isPrivAdr l || adrs.any operandBad then
    supFault s fRESFIELD (badOperand (cwAdr w :: (if isPrivAdr l then [l] else []) ++ adrs))
  else if l.toNat % 16 ≠ 0 then supFault s fMISALIGN l
  else if !mbzOk l then supFault s fRESFIELD l
  else
    match cwordOperand s w, mapOperand s n (t.rtm a) (t.rorg a), absOperand s n l with
    | none, _, _ => supFault s fPROTECT (cwAdr w)
    | _, none, _ => supFault s fPROTECT (BitVec.ofNat 64 (mapBase (t.rtm a)))
    | _, _, none => supFault s fPROTECT l
    | some w', some m, some l' =>
      releasing s fun s =>
        withBytes s 4 l 16 fun s bytes =>
          let h := ofBytes bytes
          let cmd (s : State) (pos : Option Nat) : DispCmd :=
            { withHeader (dispCmd s kind w' l' m (t.rorg a)) h pos with bound := bound }
          let enter (s : State) (pos : Option Nat) : Out :=
            if !dispRoom s n then .next (parkHere (setMe s { me s with paybuf := some bytes }) .unit)
            else pushDisp s st (cmd s pos)
          if nbits h (32 + tape) 1 = 0 then enter s none
          else
            match reserveIssuer s (h % 4294967296) (2 + tape) (BitVec.ofNat 64 (mapBase m)) (mapT0 m) with
            | none => upcall s fTAPEFULL (cwAdr w') 4
            | some (p, s) => enter s (some p)

def execDisp (st : Stall) (a : TReg) (b c : Reg) (n : BitVec 4) (s : State) : Out := routeIssue s st .disp 0 a b c n.toNat
def execComb (st : Stall) (a : TReg) (b c : Reg) (s : State) : Out := routeIssue s st .comb 1 a b c 15

/-- DRES (R281, R282). -/
def execDres (st : Stall) (a : TReg) (b : Reg) (n : BitVec 4) (s : State) : Out :=
  let k := xr s b
  let core := s.cur.core
  let t := me s
  let adrs := [k, baseAdr (t.rtm a)]
  if adrs.any operandBad then supFault s fRESFIELD (badOperand adrs)
  else if k.toNat % 64 ≠ 0 then supFault s fMISALIGN k
  else
    match mapOperand s core (t.rtm a) (t.rorg a), absOperand s core k with
    | none, _ => supFault s fPROTECT (BitVec.ofNat 64 (mapBase (t.rtm a)))
    | _, none => supFault s fPROTECT k
    | some m, some k' =>
      releasing s fun s =>
        if !dispRoom s core then .next (parkHere s .unit)
        else pushDisp s st { dispCmd s .dres 0 k' m (t.rorg a) with bound := n.toNat }

/-! ## Records and experts (R178-R180) -/

/-- A record of a route table. -/
structure RouteRec where
  exp   : Word
  valid : Bool
  zero  : Bool
  token : Nat
  gate  : Nat
deriving DecidableEq, Repr

def readRec (s : State) (e : Eng) (table : Word) (i : Nat) : Except EFail RouteRec :=
  (engRead s e (table + BitVec.ofNat 64 (16 + 16 * i)) 16).map fun v =>
    ⟨BitVec.ofNat 64 (v % wordMod / 64 * 64), v % 2 == 1, nbits v 1 5 == 0, nbits v 64 32, nbits v 96 32⟩

def readRecs (s : State) (e : Eng) (table : Word) : List Nat → List RouteRec → Except EFail (List RouteRec)
  | [], acc => .ok acc
  | i :: r, acc =>
    match readRec s e table i with
    | .error f => .error f
    | .ok x => readRecs s e table r (acc ++ [x])

/-- An expert descriptor; `good` as far as R179 tells by itself. -/
structure Expert where
  core : Nat
  inb  : Word
  outb : Word
  stab : Word
  note : Word
  nslot : Nat
  rb   : Nat
  good : Bool
deriving DecidableEq, Repr

/-- The core whose slice an address names. -/
def sliceCore (s : State) (e : Eng) (a : Word) : Option Nat :=
  match engPlace s e a false with
  | some (.slice n _, _) => some n
  | _ => none

/-- An expert's descriptor. One that does not lie in a slice is malformed. -/
def readExpert (s : State) (e : Eng) (adr : Word) : Except EFail Expert :=
  match sliceCore s e adr with
  | none => .ok ⟨0, 0, 0, 0, 0, 0, 0, false⟩
  | some n =>
    (engRead s e adr 64).map fun v =>
      let w (i : Nat) : Word := BitVec.ofNat 64 (nbits v (64 * i) 64)
      let own (a : Word) : Bool := sliceCore s e a == some n
      let nslot := nbits v 256 16
      let rb := nbits v 272 16
      ⟨n, w 0, w 1, w 2, w 3, nslot, rb,
        v / 2 ^ 288 == 0 && own (w 0) && own (w 1) && own (w 2) && (w 3 == 0 || (own (w 3) && bitsOf (w 3) 0 4 == 0)) &&
          decide (1 ≤ nslot) && decide (nslot ≤ 4096) && rb % 16 == 0 && decide (16 ≤ rb) && decide (rb ≤ 4096)⟩

/-- Slot `i` of an expert's buffer. -/
def slotAdr (b : Word) (x : Expert) (i : Nat) : Word := b + BitVec.ofNat 64 (x.rb * i)

/-- Key of the slot table, with the permission to read and write it. -/
def slotTable (s : State) (e : Eng) (x : Expert) : Except EFail Nat :=
  match engView s e x.stab (16 * x.nslot) false, engView s e x.stab (16 * x.nslot) true with
  | .ok _, .ok v => .ok v.1.key
  | .error f, _ => .error f
  | _, .error f => .error f

/-- TOKEN, SRC and STATE of an entry. -/
def slotIs (m : List Host.Cell) (k token src : Nat) (state : Nat → Bool) : Bool :=
  Memory.read m k 4 == token && Memory.read m (k + 4) 3 == src && state (Memory.read m (k + 7) 1)

def findSlot (m : List Host.Cell) (k n token src : Nat) (state : Nat → Bool) : Option Nat :=
  (List.range n).find? fun i => slotIs m (k + 16 * i) token src state

/-- A grant, applied in one step at the expert's home: the slot, or none when the request must wait (R183). -/
def grantSlot (s : State) (k n token src gate ridx : Nat) : Option (Nat × State) :=
  match findSlot s.mem k n token src fun v => v == 1 || v == 2 with
  | some i => some (i, { s with mem := Memory.write s.mem (k + 16 * i + 7) 1 1 })
  | none =>
    match (List.range n).find? fun i => Memory.read s.mem (k + 16 * i + 7) 1 == 0 with
    | none => none
    | some i =>
      let v := token + 4294967296 * (src % 16777216) + 72057594037927936 + wordMod * (gate + 4294967296 * ridx)
      some (i, { s with mem := Memory.write s.mem (k + 16 * i) 16 v })

/-! ## Checks before any row moves (R185) -/

def mapBad (m : BitVec 256) : Bool := !mapOk m

/-- A record's row of the map lies in the tile and inside DIM0-DIM3. -/
def rowGood (c : DispCmd) (t : Nat) : Bool := decide (t < mapT1 c.map) && rowInside c.map c.org t

/-- May a row of this page be added into: is it of F32 or BF16 with GEOM 00? -/
def sumPage (f : Found) : Bool := (f.fmt == 1 || f.fmt == 2) && f.geom == 0

/-- May rows of these pages be added into (code 0x23)? -/
def addable (fs : List Found) : Bool := fs.all sumPage

/-- Does a map's element width fit the pages it names? -/
def eszFits (m : BitVec 256) (fs : List Found) : Bool := fs.all fun f => f.fmt == 0 || eszBits (mapEsz m) == fmtBits f.fmt

/-- Code 0x22 of a descriptor: of DISP, whose token and slot pages agree, or of COMB, whose rows hold T0 elements of the
output page's format. -/
def expertBad (c : DispCmd) (x : Expert) (tok slot : List Found) : Bool :=
  !x.good ||
    (match c.kind with
     | .comb => slot.any fun f => f.fmt == 0 || f.geom != 0 || 8 * x.rb != mapT0 c.map * fmtBits f.fmt
     | _ =>
       8 * x.rb != mapT0 c.map * eszBits (mapEsz c.map) ||
         tok.any fun f => slot.any fun g => f.fmt != g.fmt || f.geom != 0 || g.geom != 0)

/-- What the pages of the row of a token find. -/
def tokenFound (s : State) (e : Eng) (c : DispCmd) (t : Nat) (wr : Bool) : Except Unit (List Found) :=
  rowFound s e (rowBit c.map c.org t) (eszBits (mapEsz c.map)) (mapT0 c.map) wr t

/-- What the regions of `n` bytes of an expert find. -/
def bytesFound (s : State) (e : Eng) (adr : Word) (n : Nat) (wr : Bool) : Except Unit (List Found) :=
  rowFound s e (8 * adr.toNat) 8 n wr 0

/-- Codes of one valid record. A row that may not be added into has code 0x23 alone. -/
def recCodes (s : State) (e : Eng) (c : DispCmd) (r : RouteRec) : Except Unit (List Nat) :=
  let comb := c.kind == .comb
  match tokenFound s e c r.token comb, readExpert s e r.exp with
  | .error _, _ => .error ()
  | _, .error .wait => .error ()
  | .ok f, x =>
    let own := [codeIf (!rowGood c r.token) 0x21, codeIf (!eszFits c.map (if comb then f.filter sumPage else f)) 0x22,
      codeIf (comb && !addable f) 0x23]
    match x with
    | .error _ => .ok own
    | .ok x =>
      match bytesFound s e (if comb then x.outb else x.inb) (if x.good then x.rb * x.nslot else 0) (!comb) with
      | .error _ => .error ()
      | .ok g => .ok (codeIf (expertBad c x f g) 0x22 :: own)

def allCodes (s : State) (e : Eng) (c : DispCmd) : List RouteRec → List Nat → Except Unit (List Nat)
  | [], acc => .ok acc
  | r :: rs, acc =>
    if !r.valid then allCodes s e c rs (codeIf (!r.zero) 0x20 :: acc)
    else
      match recCodes s e c r with
      | .error _ => .error ()
      | .ok l => allCodes s e c rs (codeIf (!r.zero) 0x20 :: l ++ acc)

/-- Code 0x23 of a COMB's output map, by the page of its first element (R270). -/
def outCode (s : State) (e : Eng) (c : DispCmd) : Except Unit Nat :=
  if c.kind == .comb then (tokenFound s e c 0 true).map fun f => codeIf (!addable (f.take 1)) 0x23 else .ok 0

/-- The code found before any row moves, 0 for none, with the records; no records when they cannot be read. -/
def routeCheck (s : State) (e : Eng) (c : DispCmd) : Except Unit (Nat × List RouteRec) :=
  let head := codeIf (c.n == 0 || decide (65535 < c.n) || decide (4 ≤ c.flags) || bitsOf c.list 0 2 != 0) 0x20
  let map := codeIf (mapBad c.map) 0x22
  match readRecs s e c.table (List.range c.n) [], outCode s e c with
  | .error .wait, _ => .error ()
  | _, .error _ => .error ()
  | .error _, .ok out => .ok (lowestCode [head, map, out], [])
  | .ok rs, .ok out =>
    match allCodes s e c rs [] with
    | .error _ => .error ()
    | .ok l => .ok (lowestCode (head :: map :: out :: l), rs)

/-! ## Steps of a command -/

/-- What one step makes of a command. -/
inductive DispStep
  | more (s : State) (c : DispCmd)
  | over (s : State)
  | wait
deriving DecidableEq, Repr

def dispEnd (s : State) (e : Eng) (c : DispCmd) (status spec : Nat) (bad : Option EFail) : DispStep :=
  match engComplete s e (cwAdr c.cword) (cwT c.cword) status c.done spec bad with
  | .ok s => .over s
  | .error _ => .wait

/-- A STRICT REPLAY that has lost a record tells so (R195). -/
def tellStrict (s : State) (e : Eng) (c : DispCmd) : State :=
  if c.kind = .replay ∧ c.strict ∧ c.lost ≠ 0 then raiseNotice s e.who.core e.who.ctx fROUTELOST (cwAdr c.cword) else s

/-- SPEC of a failure: its code, and for a REPLAY the lost count in bytes 12-15 (R196). -/
def failSpec (c : DispCmd) (code : Nat) : Nat := if c.kind = .replay then code + 4294967296 * c.lost else code

/-- A failure with a code; a command that has moved no row releases its entries (R188). -/
def dispFail (s : State) (e : Eng) (c : DispCmd) (code : Nat) (bad : Option EFail) : DispStep :=
  let s :=
    match c.pos with
    | some p => if c.moved then s else voidAll s c.part c.job (tidAt s e.who.core c.part c.job p)
    | none => s
  dispEnd (tellStrict s e c) e c stENGERR (failSpec c code) bad

/-- Code of a refused access. -/
def dispCode (code : Nat) : Nat := if code = fPAGE then 0x27 else 0x26

/-- A command that meets a refused access stops there; it completes when every row it has begun is written. -/
def dispStop (s : State) (e : Eng) (c : DispCmd) (f : EFail) : DispStep :=
  match f with
  | .wait => .wait
  | .refused code adr => .more s { c with bad := some (dispCode code, code, adr) }
  | .lost adr d => .more (dieLostNotice s e.who.core e.who.ctx d adr) { c with bad := some (0x26, 0, 0) }

/-- Mark record `i` of a recording command at both ends. -/
def dispMark (s : State) (e : Eng) (c : DispCmd) (i : Nat) (f : TapeRec → TapeRec) : State :=
  match c.pos with
  | none => s
  | some p => markRec s c.part c.job (tidAt s e.who.core c.part c.job p) i f

/-- GEN of the issuing package now. -/
def genNow (s : State) (n : Nat) : Nat := (pkgAt s (pkgOf n)).gen

/-- Withdraw the grant that a command waits for. -/
def withdraw (s : State) (n num : Nat) : State :=
  { s with cores := s.cores.map fun e => (e.1, { e.2 with grants := e.2.grants.filter fun g => !(g.core == n && g.cmd == num) }) }

/-- Add record `i` to LIST as lost or deferred (R185): the state and the command, or what stopped the write. -/
def listAdd (s : State) (e : Eng) (c : DispCmd) (i : Nat) (lost : Bool) : Except EFail (State × DispCmd) :=
  let c' := { c with
    nlist := c.nlist + 1
    lost := if lost then c.lost + 1 else c.lost
    deferred := if lost then c.deferred else c.deferred + 1 }
  let mark (s : State) : State :=
    dispMark s e c i fun r => { r with flags := if lost then recLOST else recDEFERRED, gen := genNow s e.who.core }
  match engWrite s e (c.list + BitVec.ofNat 64 (4 * c.nlist)) 4 (i + (if lost then 2147483648 else 0)) with
  | .ok t => .ok (mark t, c')
  | .error (.lost adr d) => .ok (mark (dieLostNotice s e.who.core e.who.ctx d adr), c')
  | .error f => .error f

/-- A record that is not delivered: listed, and the next record follows. -/
def undelivered (s : State) (e : Eng) (c : DispCmd) (lost : Bool) : DispStep :=
  match listAdd s e c c.next lost with
  | .error f => dispStop s e c f
  | .ok (t, c') => .more (withdraw t e.who.core c.num) { c' with next := c.next + 1 }

/-- The tape record of record `i` before it has moved: LOST, or DEFERRED with zeros where V = 0 (R191). -/
def routeTapeRec (s : State) (e : Eng) (c : DispCmd) (i : Nat) (r : RouteRec) : TapeRec :=
  if !r.valid then ⟨i, 0, r.token, recDEFERRED, 0, 0, 0, 0, 0⟩
  else
    let n := (sliceCore s e r.exp).getD 0
    let base := match readExpert s e r.exp with | .ok x => if c.kind = .comb then x.outb else x.inb | .error _ => 0
    ⟨i, base, r.token, recLOST, n, pathOf s (dieOf e.who.core) (dieOf n), 0, 0, if c.kind = .comb then BitVec.ofNat 32 r.gate else 0⟩

/-- Start of DISP and COMB: the checks, and the far ends of a command that records. -/
def routeStart (s : State) (e : Eng) (c : DispCmd) : DispStep :=
  match routeCheck s e c with
  | .error _ => .wait
  | .ok (code, rs) =>
    if code ≠ 0 then dispFail s e c code none
    else
      match c.pos with
      | none => .more s { c with started := true }
      | some p =>
        let n := e.who.core
        let tr := ((List.range rs.length).zip rs).map fun x => routeTapeRec s e c x.1 x.2
        let fs := farEntries s e (tidAt s n c.part c.job p) (if c.kind = .comb then 3 else 2) (entryGen s n c.part c.job p) (fun r => r.adr)
          (mapT0 c.map) id tr
        match reserveFar (tapeEdit s (dieOf n) c.part c.job p fun x => { x with recs := tr }) c.part c.job fs with
        | some s => .more s { c with started := true }
        | none => dispFail (reserveSome s c.part c.job fs) e c 0x24 none

/-! ## DISP (R182-R184) -/

/-- The row is in its slot: STATE becomes 2 and NOTE is raised, in one step at the expert's home. -/
def slotWritten (s : State) (e : Eng) (a : SlotAt) : State :=
  let s := { s with mem := Memory.write s.mem (a.key + 16 * a.slot + 7) 1 2 }
  if a.note = 0 then s
  else addCounter s a.core e.who.part ((absAdr s e.who.core a.note).getD a.note) (sliceKey a.core (bitsOf a.note 0 23)) 1

/-- The row of record `c.next` is in its slot, could not be written, or is on its way there. -/
def delivered (s : State) (e : Eng) (c : DispCmd) (m : OnWay) (a : SlotAt) : DispStep :=
  if m.left ≠ [] then .more s { c with move := some (m, a) }
  else
    let c := { c with move := none }
    match m.bad with
    | some .wait => .wait
    | some (.lost x d) => undelivered (dieLostNotice s e.who.core e.who.ctx d x) e c true
    | some f => dispStop s e c f
    | none =>
      let t := slotWritten s e a
      let t := dispMark t e c c.next fun y => { y with flags := 0, slot := a.slot, adr := a.adr, gen := genNow t e.who.core }
      .more t { c with
        next := c.next + 1
        done := c.done + 1
        bytes := c.bytes + a.rb
        moved := true }

/-- The row of record `c.next` leaves for its slot. -/
def deliverRow (s : State) (e : Eng) (c : DispCmd) (r : RouteRec) (x : Expert) (k slot : Nat) : DispStep :=
  let adr := slotAdr x.inb x slot
  match readTileRow s e c.map c.org r.token with
  | .error (.lost x d) => undelivered (dieLostNotice s e.who.core e.who.ctx d x) e c true
  | .error f => dispStop s e c f
  | .ok els =>
    let m : RowMove := ⟨e.who.core, c.ctx, true, c.num, c.job, rowSource s e (rowBit c.map c.org r.token)⟩
    let w := moveOut s e m (8 * adr.toNat) (eszBits (mapEsz c.map)) (mapT0 c.map) (encodeElems els)
    delivered w.1 e c w.2 ⟨x.core, x.note, k, slot, adr, x.rb⟩

/-- A waiting grant, if it can be given now: the state with the slot taken. A grant whose command is gone is dropped. -/
def grantNow (s : State) (g : Grant) : Option State :=
  match (coreAt s g.core).dispq.find? fun c => c.num == g.cmd with
  | none => some s
  | some c =>
    let e := engOf g.core c.ctx c.part c.supr c.vec
    match readExpert s e g.desc with
    | .error _ => none
    | .ok x =>
      match slotTable s e x with
      | .error _ => none
      | .ok k => (grantSlot s k x.nslot g.token g.core g.gate.toNat g.ridx).map fun r => r.2

/-- GRANT_SERVED: the first request at a home that can be served, in order of arrival for each descriptor. -/
def grantServe (s : State) (n : Nat) : State :=
  let gs := (coreAt s n).grants
  let firstOf (i : Nat) (g : Grant) : Bool := !((gs.take i).any fun h => h.desc == g.desc)
  match (List.range gs.length).findSome? fun i =>
      match gs[i]? with
      | some g => if firstOf i g then (grantNow s g).map fun t => (i, noteWork t n g.job) else none
      | none => none with
  | none => s
  | some (i, t) => setCore t n { coreAt t n with grants := (coreAt t n).grants.eraseIdx i }

/-- Every request at a home that can be served is served, in that order: waiting requests take what freeing stores have left
before a later request is looked at (R183). -/
def grantsServed (s : State) (n : Nat) : State := (coreAt s n).grants.foldl (fun s _ => grantServe s n) s

/-- One valid record of a DISP. -/
def dispRecord (s : State) (e : Eng) (c : DispCmd) (r : RouteRec) : DispStep :=
  match readExpert s e r.exp with
  | .error (.lost x d) => undelivered (dieLostNotice s e.who.core e.who.ctx d x) e c true
  | .error f => dispStop s e c f
  | .ok x =>
    if !x.good then .more s { c with bad := some (0x22, 0, 0) }
    else if (coreAt s x.core).grants.any fun g => g.core == e.who.core && g.cmd == c.num then .wait
    else
      let s := noteWork (grantsServed s x.core) x.core c.job
      match slotTable s e x with
      | .error (.lost x d) => undelivered (dieLostNotice s e.who.core e.who.ctx d x) e c true
      | .error f => dispStop s e c f
      | .ok k =>
        match grantSlot s k x.nslot r.token e.who.core r.gate c.next with
        | some (slot, t) => deliverRow t e c r x k slot
        | none =>
          let h := coreAt s x.core
          let g : Grant := ⟨e.who.core, c.num, r.exp, r.token, BitVec.ofNat 32 r.gate, c.next, c.job⟩
          .more (setCore s x.core { h with grants := h.grants ++ [g] }) c

def execGrantServed (core : Nat) (s : State) : Out := .next (grantServe s core)

/-- GRANT_BOUND_EXPIRY: a record that has waited its bound is deferred and its request withdrawn (R184), unless a freeing store
has made room for it (R183). -/
def grantExpire (s : State) (n k : Nat) : State :=
  match (coreAt s n).dispq[k]? with
  | none => s
  | some c =>
    if 15 ≤ c.bound then s
    else
      let mine (x : Nat × Core) : Bool := x.2.grants.any fun g => g.core == n && g.cmd == c.num
      let s := s.cores.foldl (fun s x => if mine x then grantsServed s x.1 else s) s
      if s.cores.any mine then
        match undelivered s (engOf n c.ctx c.part c.supr c.vec) c false with
        | .more t c => setCore t n { coreAt t n with dispq := (coreAt t n).dispq.set k c }
        | _ => s
      else s

def execGrantBoundExpiry (core k : Nat) (s : State) : Out := .next (grantExpire s core k)

/-! ## Cursors (R187, R282) -/

/-- What a DRES continues, from the 64 bytes of its cursor: whether it names a stopped command, whether its BASE is the map's,
and the command. -/
def readCursor (s : State) (e : Eng) (c : DispCmd) : Except EFail (Bool × Bool × DispCmd) :=
  (engRead s e c.table 64).map fun v =>
    let w (b n : Nat) : Nat := nbits v (8 * b) (8 * n)
    (w 29 1 == 1 && decide (w 28 1 < 2), w 32 8 == mapBase c.map,
     { c with
       kind := if w 28 1 = 1 then .comb else .disp
       table := BitVec.ofNat 64 (w 0 8)
       cword := BitVec.ofNat 64 (w 8 8)
       next := w 16 4
       done := w 20 4
       nlist := w 24 4
       flags := w 30 1
       pos := if w 40 8 = wordMod - 1 then none else some (w 40 8)
       bytes := w 48 8
       moved := w 20 4 != 0 || w 48 8 != 0
       n := w 56 4 })

/-- Entries of LIST that the earlier part of a command has written, counted as lost and deferred. -/
def listCounts (s : State) (e : Eng) (list : Word) : Nat → Except EFail (Nat × Nat)
  | 0 => .ok (0, 0)
  | n + 1 =>
    match listCounts s e list n, engRead s e (list + BitVec.ofNat 64 (4 * n)) 4 with
    | .ok (l, d), .ok v => .ok (if 2147483648 ≤ v then (l + 1, d) else (l, d + 1))
    | .error f, _ => .error f
    | _, .error f => .error f

/-- Has a recording command whose cursor a DRES continues not begun, its issuer entry still without records? -/
def unbegun (s : State) (e : Eng) (k : DispCmd) : Bool :=
  match k.pos with
  | none => false
  | some p => (tapeOf s (dieOf e.who.core) k.part k.job).entries.any fun x => x.pos == p && x.role == 0 && !x.void && x.recs == []

/-- Is a command that a DCUR has stopped still between two records no more, its rows on their way? A DRES of its cursor waits with
it, since what becomes of them changes the cursor (R187). -/
def stopsStill (s : State) (w : Word) : Bool :=
  s.cores.any fun k => k.2.dispq.any fun c =>
    c.halt && c.cword == w && !(c.rows.isEmpty && c.late.isEmpty && c.move.isNone && c.bad.isNone)

/-- DRES begins: it continues the command of its cursor. One that was stopped before it began records as it would have at its
start (R188). Where the header of its table is out of reach its records are, and it completes LOST (log 73). -/
def dresStart (s : State) (e : Eng) (c : DispCmd) : DispStep :=
  match readCursor s e c with
  | .error .wait => .wait
  | .error f => .over (engTell s e (some f))
  | .ok (stopped, sameBase, k) =>
    let code28 := codeIf (!(stopped && sameBase)) 0x28
    let short := lowestCode [code28, codeIf (mapBad k.map) 0x22]
    if stopsStill s k.cword then .wait
    else if !stopped then dispEnd s e k stENGERR short none
    else
      match engRead s e (k.table + 8) 8 with
      | .error .wait => .wait
      | .error (.lost x d) =>
        let s := dieLostNotice s e.who.core e.who.ctx d x
        if short ≠ 0 then dispFail s e k short none else dispEnd s e k stLOST 0 none
      | head =>
        let k := { k with list := match head with | .ok v => BitVec.ofNat 64 v | .error _ => 0 }
        match routeCheck s e k with
        | .error _ => .wait
        | .ok (code, _) =>
          let code := lowestCode [code28, code]
          if code ≠ 0 then dispFail s e k code none
          else if unbegun s e k then routeStart s e k
          else
            match head, listCounts s e k.list k.nlist with
            | .error f, _ => dispStop s e { k with started := true } f
            | _, .error f => dispStop s e { k with started := true } f
            | .ok _, .ok (l, d) =>
              .more s { k with
                started := true
                lost := l
                deferred := d }

/-- The command that a DCUR names: the earliest issued whose completion word is `w`, with its place. A DRES that has not
started has the completion word of its cursor. -/
def findCommand (s : State) (e : Eng) (w : Word) : Option (Nat × DispCmd) :=
  let q := (coreAt s e.who.core).dispq
  ((List.range q.length).zip q).findSome? fun x =>
    if x.2.halt then none
    else
      match x.2.kind with
      | .replay => none
      | .dres => (match readCursor s e x.2 with | .ok (_, _, k) => if k.cword = w then some (x.1, k) else none | .error _ => none)
      | _ => if x.2.cword = w then some x else none

/-- The cursor of DCUR as a number: of a command, or with STATE 0. -/
def cursorValue (w : Word) : Option DispCmd → Nat
  | some c => ofBytes (dispCursor c)
  | none => wordMod * w.toNat

/-- DCUR (R187, R281, R282). -/
def execDcur (st : Stall) (a b : Reg) (s : State) : Out :=
  let k := xr s a
  let n := s.cur.core
  let adrs := [k, cwAdr (xr s b)]
  if cwordFault (xr s b) false || adrs.any operandBad then supFault s fRESFIELD (badOperand adrs)
  else if k.toNat % 64 ≠ 0 then supFault s fMISALIGN k
  else
    match absOperand s n k with
    | none => supFault s fPROTECT k
    | some k' =>
      releasing s fun s =>
        let e := engOf n s.cur.ctx (partNum s n) (suprNow s) (releaseVec s)
        let found := findCommand s e ((cwordAbs s (xr s b)).getD (xr s b))
        match engWrite s e k' 64 (cursorValue (xr s b) (found.map fun x => x.2)) with
        | .error .wait => .next s
        | .error (.refused c x) => .next (faultOf s c x 4)
        | .error (.lost x d) => done st 4 (dieLostNotice s n s.cur.ctx d x)
        | .ok t =>
          match found with
          | none => done st 4 t
          | some (i, c) =>
            let q := coreAt t n
            done st 4 (withdraw (setCore t n { q with dispq := q.dispq.set i { c with halt := true, cursor := some k' } }) n c.num)

end Sys2Proof.Machine
end

