-- ==== Sys2Proof/Machine/Replay.lean ====
section
/-! DEFINITION. Sys2Proof/Machine/Replay.lean: the sums of rows (R186, R193-R196, R320): COMB, REPLAY, the row accumulators of
the collective engine, the steps of the dispatch engine, TMARK and TTRIM. -/

namespace Sys2Proof.Machine

/-! ## Contributions (R193, R194) -/

/-- A value as F32, rounded to nearest even. -/
def f32Of (v : Fp) : Nat := encodeEngine 1 v

/-- round_rne(GATE × v, F32) for each element. -/
def gated (gate : Nat) (els : List Elem) : List ExAcc :=
  els.map fun x => exAdd exZero (fmtF32.unpack (fpMul fmtF32 0 gate (f32Of x.val)).1)

/-- Each element exactly. -/
def exactly (els : List Elem) : List ExAcc := els.map fun x => exAdd exZero x.val

/-- Add two exact accumulators. -/
def exMerge (a b : ExAcc) : ExAcc := (a.1 + b.1, a.2.1 || b.2.1, a.2.2.1 || b.2.2.1, a.2.2.2 || b.2.2.2)

/-- A row of `n` elements at an address, in the format of its page: what it holds. -/
def readFarRow (s : State) (e : Eng) (adr : Word) (n : Nat) : Except EFail (List Elem) :=
  match rowFmt s e (8 * adr.toNat) false with
  | .error f => .error f
  | .ok (fmt, _) => readRow s e (8 * adr.toNat) (fmtBits fmt) n

/-- What one record comes to: nothing moves, or a contribution from a core. -/
inductive Moved
  | lost (at' : Option (Word × Nat)) -- the address and the die that cannot be reached, where an access met it
  | none
  | live (src : Nat) (vals : List ExAcc) (slot : Nat) (adr : Word)
deriving DecidableEq, Repr

/-- Work every record of a row out, or stop at a refused access. -/
def gather (f : Nat → Except EFail Moved) : List Nat → List (Nat × Moved) → Except EFail (List (Nat × Moved))
  | [], acc => .ok acc
  | i :: r, acc =>
    match f i with
    | .error (.lost x d) => gather f r (acc ++ [(i, .lost (some (x, d)))])
    | .error x => .error x
    | .ok m => gather f r (acc ++ [(i, m)])

/-- The contributions that move: the core each leaves from, its record's number and its values. -/
def liveParts (ms : List (Nat × Moved)) : List (Nat × Nat × List ExAcc) :=
  ms.filterMap fun m => match m.2 with | .live src v _ _ => some (src, m.1, v) | _ => none

/-- Tell the issuer of each die that a row's records could not reach, once (R215, log 49). -/
def tellMoved (s : State) (e : Eng) (ms : List (Nat × Moved)) : State :=
  ms.foldl (fun s m => match m.2 with | .lost (some (x, d)) => dieLostNotice s e.who.core e.who.ctx d x | _ => s) s

/-- Send a row's contributions to its home, as the data of the command on BULK (R156), each from the core whose memory holds it,
which works for the command's job (R224). -/
def sendParts (s : State) (e : Eng) (c : DispCmd) (row : Word) (home : Nat) (base bf16 : Bool) (n : Nat)
    (ps : List (Nat × Nat × List ExAcc)) : State :=
  ps.foldl (fun s p =>
    let r : RowPart :=
      { core := e.who.core
        ctx := e.who.ctx
        cmd := c.num
        row := row
        home := home
        idx := p.2.1
        expect := ps.length
        base := base
        bf16 := bf16
        n := n
        vals := p.2.2
        live := true
        part := c.part
        inc := partInc s (pkgOf e.who.core) c.part
        job := c.job
        supr := c.supr
        vec := c.vec }
    transmit (noteWork s p.1 c.job) p.1 home .bulk r.part r.inc false (.row r)) s

/-- Where a row that is added into lies, and whether it holds BF16; none when it cannot be reached. -/
def rowHome (s : State) (e : Eng) (row : Word) : Except EFail (Nat × Bool) :=
  match engView s e row 1 true with
  | .error f => .error f
  | .ok (v, home) => .ok (home, v.fmt == 2)

/-! ## COMB (R186) -/

/-- The records of a table, as a COMB that runs reads them. -/
def tableRows (s : State) (e : Eng) (c : DispCmd) : Except EFail (List RouteRec) := readRecs s e c.table (List.range c.n) []

/-- One record of a COMB: its expert's result, gated. -/
def combRecord (s : State) (e : Eng) (c : DispCmd) (r : RouteRec) : Except EFail Moved :=
  match readExpert s e r.exp with
  | .error f => .error f
  | .ok x =>
    if !x.good then .ok .none
    else
      match engView s e x.stab (16 * x.nslot) false with
      | .error f => .error f
      | .ok (v, _) =>
        match findSlot s.mem v.key x.nslot r.token e.who.core fun t => t == 2 with
        | none => .ok .none
        | some i =>
          let adr := slotAdr x.outb x i
          (readFarRow s e adr (mapT0 c.map)).map fun els => .live x.core (gated r.gate els) i adr

/-- List the records of a row that were not combined, and mark those that were. -/
def combMark (e : Eng) (rs : List RouteRec) : List (Nat × Moved) → State → DispCmd → Except EFail (State × DispCmd)
  | [], s, c => .ok (s, c)
  | (i, m) :: r, s, c =>
    match m with
    | .live _ _ slot adr =>
      let gate := BitVec.ofNat 32 ((rs.getD i ⟨0, false, true, 0, 0⟩).gate)
      let t := dispMark s e c i fun y => { y with flags := 0, slot := slot, adr := adr, gate := gate, gen := genNow s e.who.core }
      combMark e rs r t { c with done := c.done + 1 }
    | .lost _ =>
      (match listAdd s e c i true with
       | .error f => .error f
       | .ok x => combMark e rs r x.1 x.2)
    | .none =>
      (match listAdd s e c i false with
       | .error f => .error f
       | .ok x => combMark e rs r x.1 x.2)

/-- The row that record `c.next` of a COMB is the first to name. -/
def combRow (s : State) (e : Eng) (c : DispCmd) (rs : List RouteRec) (t : Nat) : DispStep :=
  let mine := (List.range rs.length).filter fun i => (rs[i]?).any fun r => r.valid && r.token == t
  let row := BitVec.ofNat 64 (rowBit c.map c.org t / 8)
  let next (c : DispCmd) : DispCmd := { c with next := c.next + 1 }
  match rowHome s e row with
  | .error (.lost x d) =>
    (match combMark e rs (mine.map fun i => (i, Moved.lost none)) (dieLostNotice s e.who.core e.who.ctx d x) c with
     | .error f => dispStop s e c f
     | .ok x => .more x.1 (next x.2))
  | .error f => dispStop s e c f
  | .ok (home, bf16) =>
    match gather (fun i => combRecord s e c (rs.getD i ⟨0, false, true, 0, 0⟩)) mine [] with
    | .error f => dispStop s e c f
    | .ok ms =>
      match combMark e rs ms (tellMoved s e ms) c with
      | .error f => dispStop s e c f
      | .ok (t, c') =>
        let ps := liveParts ms
        if ps = [] then .more t (next c')
        else .more (sendParts t e c' row home false bf16 (mapT0 c.map) ps) { next c' with
          rows := (row, ps.map fun p => p.2.1) :: c'.rows
          moved := true }

/-! ## REPLAY (R193-R196) -/

/-- The row that a record of a REPLAY adds into: the issuer's row, or the far row's gradient. -/
def replayRow (c : DispCmd) (r : TapeRec) : Word :=
  if c.rkind = 0 ∨ c.rkind = 2 then BitVec.ofNat 64 (rowBit c.map c.org r.row / 8) else r.adr + c.goff

/-- Where the other end of a record is served: its far entry with the same TID, within reach (R193, R195). -/
def farServes (s : State) (e : Eng) (c : DispCmd) (r : TapeRec) : Bool :=
  r.flags != recLOST && !unreachable s e.who.core (dieOf r.fin) && (farEntry s (dieOf r.fin) c.part c.job c.tid).isSome

/-- One record of a REPLAY: what moves. -/
def replayRecord (s : State) (e : Eng) (c : DispCmd) (r : TapeRec) : Except EFail Moved :=
  if !farServes s e c r then .ok (.lost none)
  else
    let src := rowSource s e (rowBit c.map c.org r.row)
    match c.rkind with
    | 1 => (readTileRow s e c.map c.org r.row).map fun els => .live src (exactly els) 0 0
    | 3 => (readTileRow s e c.map c.org r.row).map fun els => .live src (gated r.gate.toNat els) 0 0
    | _ => (readFarRow s e (r.adr + c.goff) (mapT0 c.map)).map fun els => .live r.fin (exactly els) 0 0

/-- What the pages of a whole far row find: its width is that of the page of its first byte. -/
def farFound (s : State) (e : Eng) (adr : Word) (n : Nat) : Except Unit (List Found) :=
  match bytesFound s e adr 1 true with
  | .ok (f :: _) => rowFound s e (8 * adr.toNat) (fmtBits f.fmt) n true 0
  | r => r

/-- Do the pieces of a row have one format? -/
def oneFormat (fs : List Found) : Bool := fs.all fun f => (fs.head?).any fun g => g.fmt == f.fmt

/-- Start of a REPLAY: the entry is read, and the codes of R185. The rules give no code for a position whose reservation no command
has written yet: such an entry holds no records, and the REPLAY completes OK with COUNT 0 (DESIGN CHOICE, log 79). -/
def replayStart (s : State) (e : Eng) (c : DispCmd) : DispStep :=
  let n := e.who.core
  match (tapeOf s (dieOf n) c.part c.job).entries.find? fun x => x.pos == c.table.toNat with
  | none => dispFail s e c (if mapBad c.map then 0x22 else 0x25) none
  | some x =>
    if x.void ∨ x.role = 1 then dispFail s e c (if mapBad c.map then 0x22 else 0x25) none
    else
      let c := { c with
        recs := x.recs
        rkind := x.kind
        tid := x.tid
        n := x.recs.length }
      let act := x.recs.filter fun r => r.flags != recDEFERRED
      let codes (r : TapeRec) : Except Unit (List Nat) :=
        let own := c.rkind == 0 || c.rkind == 2
        let into := if own then tokenFound s e c r.row true else farFound s e (replayRow c r) (mapT0 c.map)
        match into, tokenFound s e c r.row false with
        | .ok f, .ok g =>
          .ok [codeIf (!rowGood c r.row) 0x21, codeIf (!eszFits c.map (if own then g.filter sumPage else g)) 0x22,
            codeIf (r.flags != recLOST && !(addable f && oneFormat f)) 0x23]
        | _, _ => .error ()
      let all := act.foldl (fun acc r => match acc, codes r with | .ok l, .ok m => Except.ok (l ++ m) | _, _ => .error ())
        (Except.ok [])
      match all with
      | .error _ => .wait
      | .ok l =>
        let code := lowestCode (codeIf (mapBad c.map) 0x22 :: codeIf (mapT0 c.map != x.ne) 0x23 :: l)
        if code ≠ 0 then dispFail s e c code none else .more s { c with started := true }

/-- The row that record `c.next` of a REPLAY is the first to name. -/
def replayStep (s : State) (e : Eng) (c : DispCmd) (r : TapeRec) : DispStep :=
  let row := replayRow c r
  let same (x : TapeRec) : Bool := x.flags != recDEFERRED && replayRow c x == row
  let next (c : DispCmd) : DispCmd := { c with next := c.next + 1 }
  if r.flags = recDEFERRED ∨ (c.recs.take c.next).any same then .more s (next c)
  else
    let mine := (List.range c.recs.length).filter fun i => (c.recs[i]?).any same
    let at' (i : Nat) : TapeRec := c.recs.getD i r
    let home := rowHome s e row
    let s := match home with | .error (.lost x d) => dieLostNotice s e.who.core e.who.ctx d x | _ => s
    let work : Except EFail (List (Nat × Moved) × Nat × Bool) :=
      match home with
      | .error (.lost ..) => .ok (mine.map fun i => (i, Moved.lost none), 0, false)
      | .error f => .error f
      | .ok (home, bf16) => (gather (fun i => replayRecord s e c (at' i)) mine []).map fun ms => (ms, home, bf16)
    match work with
    | .error f => dispStop s e c f
    | .ok (ms, home, bf16) =>
      let s := tellMoved s e ms
      let ps := liveParts ms
      let moved := ms.filter fun m => match m.2 with | .live .. => true | _ => false
      let rer := (moved.filter fun m => (at' m.1).gen != genNow s e.who.core && nbits (at' m.1).path 2 1 == 0).length
      let c' := { next c with
        done := c.done + ps.length
        lost := c.lost + (ms.length - ps.length)
        rerouted := c.rerouted + rer }
      if ps = [] then .more s c'
      else .more (sendParts s e c' row home true bf16 (mapT0 c.map) ps) { c' with
        rows := (row, ps.map fun p => p.2.1) :: c'.rows
        moved := true }

/-- REPLAY at issue (R320). -/
def execReplay (st : Stall) (a : TReg) (b c : Reg) (k : Bool) (s : State) : Out :=
  let w := xr s b
  let n := s.cur.core
  let t := me s
  let adrs := [cwAdr w, baseAdr (t.rtm a)]
  if cwordFault w false || adrs.any operandBad || c == 31 then supFault s fRESFIELD (badOperand adrs)
  else
    match cwordOperand s w, mapOperand s n (t.rtm a) (t.rorg a) with
    | none, _ => supFault s fPROTECT (cwAdr w)
    | _, none => supFault s fPROTECT (BitVec.ofNat 64 (mapBase (t.rtm a)))
    | some w', some m =>
      releasing s fun s =>
        if !dispRoom s n then .next (parkHere s .unit)
        else pushDisp s st { dispCmd s .replay w' (xr s c) m (t.rorg a) with
          goff := xr s (c + 1)
          strict := k }

/-! ## Steps of the dispatch engine -/

/-- Every record has been handled and every row written: the completion (R185, R196). -/
def dispFinish (s : State) (e : Eng) (c : DispCmd) : DispStep :=
  match c.kind with
  | .replay =>
    dispEnd (tellStrict s e c) e c (if c.lost ≠ 0 then stLOST else if c.rerouted ≠ 0 then stREROUTED else stOK)
      (c.rerouted + 4294967296 * c.lost) none
  | _ =>
    dispEnd s e c (if c.lost ≠ 0 then stLOST else if c.deferred ≠ 0 then stDEFERRED else stOK) (c.pos.getD 0) none

/-- Begin a command. -/
def dispBegin (s : State) (e : Eng) (c : DispCmd) : DispStep :=
  match c.kind with
  | .dres => dresStart s e c
  | .replay => replayStart s e c
  | _ => routeStart s e c

/-- The next record of a command that has begun. -/
def dispNext (s : State) (e : Eng) (c : DispCmd) : DispStep :=
  match c.kind with
  | .replay =>
    (match c.recs[c.next]? with
     | some r => replayStep s e c r
     | none => .more s { c with next := c.next + 1 })
  | .comb =>
    (match tableRows s e c with
     | .error (.lost x d) => undelivered (dieLostNotice s e.who.core e.who.ctx d x) e c true
     | .error f => dispStop s e c f
     | .ok rs =>
       match rs[c.next]? with
       | none => .more s { c with next := c.next + 1 }
       | some r =>
         if !r.valid || (rs.take c.next).any fun x => x.valid && x.token == r.token then .more s { c with next := c.next + 1 }
         else combRow s e c rs r.token)
  | _ =>
    match readRec s e c.table c.next with
    | .error (.lost x d) => undelivered (dieLostNotice s e.who.core e.who.ctx d x) e c true
    | .error f => dispStop s e c f
    | .ok r => if r.valid then dispRecord s e c r else .more s { c with next := c.next + 1 }

/-- The cursor of a command that a DCUR has stopped is written anew, where it still can be: with STATE 0 for one that has met a
refused access, since it completes ENGERR and is not stopped between two records (log 78). -/
def cursorAgain (s : State) (e : Eng) (c : DispCmd) : State :=
  match c.cursor with
  | none => s
  | some k =>
    match engWrite s e k 64 (cursorValue c.cword (if c.bad.isSome then none else some c)) with
    | .ok t => t
    | .error _ => s

/-- A record of a COMB whose contribution was lost on its way is listed as lost, and its tape record tells so (R186, R216). The
cursor of a command that a DCUR has stopped follows (R187, log 78). -/
def listLate (s : State) (e : Eng) (c : DispCmd) (i : Nat) (r : List Nat) : DispStep :=
  match listAdd s e { c with late := r } i true with
  | .error f => dispStop s e { c with late := r } f
  | .ok x => .more (cursorAgain x.1 e x.2) x.2

/-- A DISP's row that was on its way: once it has been answered for, its record is finished, and the cursor of a command that a
DCUR has stopped follows (R187, log 78). -/
def dispMoved (s : State) (e : Eng) (c : DispCmd) (m : OnWay) (a : SlotAt) : DispStep :=
  if m.left ≠ [] then .wait
  else
    match delivered s e c m a with
    | .more t c => .more (cursorAgain t e c) c
    | r => r

/-- One step of a command. A command that a DCUR has stopped ends between two records: what it has sent is awaited first. -/
def dispRun (s : State) (e : Eng) (c : DispCmd) : DispStep :=
  match c.late, c.move, c.bad with
  | i :: r, _, _ => listLate s e c i r
  | [], some x, _ => dispMoved s e c x.1 x.2
  | [], none, some (code, fault, adr) =>
    if c.rows ≠ [] then .wait
    else dispFail (cursorAgain s e c) e c code (if fault = 0 then none else some (.refused fault adr))
  | [], none, none =>
    if c.halt then
      (if c.rows = [] then dispEnd s e c stHALTED (c.pos.getD 0) none else .wait)
    else if !c.started then dispBegin s e c
    else if c.next < c.n then dispNext s e c
    else if c.rows ≠ [] then .wait
    else dispFinish s e c

/-- May the dispatch engine of a core work on a command? A REPLAY is finished at a stop; every other is stopped (R208, R320). -/
def dispRuns (s : State) (n : Nat) (c : DispCmd) : Bool := if c.kind = .replay then replayRuns s n else engRuns s n

/-- DISPATCH_ENGINE_EXECUTE: command `k` of a core's dispatch engine takes one step. -/
def dispStep (s : State) (n k : Nat) : State :=
  match (coreAt s n).dispq[k]? with
  | none => s
  | some c =>
    if !dispRuns s n c then s
    else
      match dispRun s (engOf n c.ctx c.part c.supr c.vec) c with
      | .wait => s
      | .more t c => setCore t n { coreAt t n with dispq := (coreAt t n).dispq.set k c }
      | .over t => wakeAll (setCore t n { coreAt t n with dispq := (coreAt t n).dispq.eraseIdx k }) n .unit

def execDispatchEngineExecute (core k : Nat) (s : State) : Out := .next (dispStep s core k)

/-! ## Row accumulators (R194) -/

/-- Change a command of a dispatch engine. -/
def editDisp (s : State) (n num : Nat) (f : DispCmd → DispCmd) : State :=
  let k := coreAt s n
  setCore s n { k with dispq := k.dispq.map fun c => if c.num = num then f c else c }

/-- The records whose contributions to a row a command still counts on. -/
def rowRecs (row : Word) (c : DispCmd) : List Nat := c.rows.flatMap fun x => if x.1 = row then x.2 else []

/-- Contributions of a command to a row are lost: a REPLAY counts them; a COMB lists their records (R216). -/
def loseRecs (row : Word) (is : List Nat) (c : DispCmd) : DispCmd :=
  let gone := (rowRecs row c).filter fun i => is.contains i
  let left (x : Word × List Nat) : Word × List Nat := if x.1 = row then (x.1, x.2.filter fun i => !is.contains i) else x
  let c := { c with
    rows := c.rows.map left
    done := c.done - gone.length }
  match c.kind with
  | .comb => { c with late := c.late ++ gone }
  | _ => { c with lost := c.lost + gone.length }

/-- A row of a command is dealt with. -/
def rowDone (row : Word) (c : DispCmd) : DispCmd := { c with rows := c.rows.filter fun x => x.1 != row }

/-- A row of a command will not be written: whatever was sent for it counts as lost. -/
def loseRow (row : Word) (c : DispCmd) : DispCmd := rowDone row (loseRecs row (rowRecs row c) c)

/-- A row of a command could not be written: its records are not done, and the command stops. -/
def refuseRow (row : Word) (code : Nat) (adr : Word) (c : DispCmd) : DispCmd :=
  { rowDone row c with
    done := c.done - (rowRecs row c).length
    bad := c.bad <|> some (dispCode code, code, adr) }

/-- A row of a command is written, or will not be: `bad` tells why. -/
def rowOver (s : State) (r : RowPart) (bad : Option EFail) : State :=
  match bad with
  | some (.refused code adr) => editDisp s r.core r.cmd (refuseRow r.row code adr)
  | some (.lost adr die) => editDisp (dieLostNotice s r.core r.ctx die adr) r.core r.cmd (loseRow r.row)
  | _ => editDisp s r.core r.cmd (rowDone r.row)

/-- Accumulators that a row of `n` elements takes. -/
def segments (n : Nat) : Nat := (n + 1023) / 1024

/-- Accumulators in use at a die. -/
def accsUsed (k : Die) : Nat := k.rowacc.foldl (fun a x => a + x.segs) 0

def sameRow (a : RowAcc) (r : RowPart) : Bool := a.core == r.core && a.cmd == r.cmd && a.row == r.row

/-- The engine of the command that a contribution belongs to. -/
def partEng (r : RowPart) : Eng := engOf r.core r.ctx r.part r.supr r.vec

/-- Bits of an element of the row. -/
def partBits (r : RowPart) : Nat := if r.bf16 then 16 else 32

/-- The value of a row when its first contribution arrives. -/
def firstValue (s : State) (r : RowPart) : Except EFail (List ExAcc) :=
  if !r.base then .ok (List.replicate r.n exZero)
  else (readRow s (partEng r) (8 * r.row.toNat) (partBits r) r.n).map exactly

/-- Add a contribution to an accumulator, which takes the row's own value with the first that carries any; none where that value
must wait. A row whose own value cannot be read is not written, whatever else comes for it. -/
def addPart (s : State) (a : RowAcc) (r : RowPart) : Option RowAcc :=
  let a := { a with got := a.got + 1 }
  let add (v : List ExAcc) : List ExAcc := (List.range r.n).map fun i => exMerge (v.getD i exZero) (r.vals.getD i exZero)
  if !r.live ∨ a.fail.isSome then some a
  else if a.live then some { a with sums := add a.sums }
  else
    match firstValue s r with
    | .error .wait => none
    | .error f => some { a with fail := some f }
    | .ok v => some { a with live := true, sums := add v }

/-- A row for which everything has come is written, each element rounded once (R94), or will not be; none where it must wait. -/
def writeSum (s : State) (r : RowPart) (a : RowAcc) : Option State :=
  if a.fail.isSome then some (rowOver s r a.fail)
  else if !a.live then some (rowOver s r none)
  else
    let f := if r.bf16 then fmtBF16 else fmtF32
    let w := writeRow s (partEng r) (8 * r.row.toNat) (partBits r) r.n fun _ _ => ⟨a.sums.map (exRound f), [], 1⟩
    if w.2.2 = some .wait then none else some (rowOver w.1 r w.2.2)

/-- An accumulator with one more contribution stays, or its row is complete. -/
def keepAcc (s : State) (r : RowPart) (a : RowAcc) : Option State :=
  let d := dieOf r.home
  let k := dieAt s d
  let rest := k.rowacc.filter fun x => !sameRow x r
  if a.got < r.expect then some (setDie s d { k with rowacc := rest ++ [a] })
  else writeSum (setDie s d { k with rowacc := rest }) r a

/-- Does a row that came earlier wait for accumulators at a die? -/
def rowsWaiting (s : State) (k : Nat) (r : RowPart) : Bool :=
  (s.flight.take k).any fun p =>
    match p.body with
    | .row q => p.here && dieOf q.home == dieOf r.home && q.row != r.row &&
        !(dieAt s (dieOf r.home)).rowacc.any fun a => a.row == q.row
    | _ => false

/-- The accumulator that a contribution to a row goes to: its command's, or a new one; none while another command holds the row or
too few are free. -/
def accFor (s : State) (k : Nat) (r : RowPart) : Option RowAcc :=
  let d := dieAt s (dieOf r.home)
  match d.rowacc.find? fun a => sameRow a r with
  | some a => some a
  | none =>
    if (d.rowacc.any fun a => a.row == r.row) || decide (32 < accsUsed d + segments r.n) || rowsWaiting s k r then none
    else some ⟨r.core, r.cmd, r.row, 0, false, none, segments r.n, []⟩

/-- Contribution `k` at its row's home: added, or left there until its accumulators are free. -/
def applyPart (s : State) (k : Nat) (r : RowPart) : State :=
  (((accFor s k r).bind fun a => addPart s a r).bind fun a => keepAcc (removeAt s k) r a).getD s

/-- ROW_CONTRIBUTION. A contribution whose turn has come leaves the mesh (R157): where it must wait for its accumulators, it waits
at its home's collective engine, in the order of arrival. -/
def rowArrival (s : State) (k : Nat) : State :=
  match takeAt s k with
  | .yes p =>
    (match p.body with
     | .row r =>
       if !p.near then s
       else if stale s p then removeAt s k
       else
         let s := noteWork s r.home r.job
         if p.here then applyPart s k r
         else
           let t := removeAt s k
           applyPart { t with flight := t.flight ++ [{ p with here := true }] } t.flight.length r
     | _ => s)
  | _ => s

def execRowContribution (k : Nat) (s : State) : Out := .next (rowArrival s k)

/-- A contribution that is lost for good: its row is summed without it, or, where the row's own home is gone, given up. -/
def losePart (s : State) (r : RowPart) : State :=
  if unreachable s r.core (dieOf r.home) then editDisp s r.core r.cmd (loseRow r.row)
  else { editDisp s r.core r.cmd (loseRecs r.row [r.idx]) with flight := s.flight ++ [localPacket r.home .bulk r.part r.inc zeroVec (.row { r with live := false, vals := [] })] }

/-- Rows of a command whose home is out of reach: they will not be written, whatever has come there counts as lost (log 49), and
the issuer is told once for each die (R215). -/
def loseRows (s : State) (pkg : Nat) : State :=
  let rows := (s.cores.filter fun e => pkgOf e.1 == pkg).flatMap fun e =>
    e.2.dispq.flatMap fun c => c.rows.map fun row => (e.1, c, row)
  rows.foldl (fun s r =>
    match rowHome s (engOf r.1 r.2.1.ctx r.2.1.part r.2.1.supr zeroVec) r.2.2.1 with
    | .error (.lost x d) =>
      editDisp (dieLostNotice s r.1 r.2.1.ctx d x) r.1 r.2.1.num (loseRow r.2.2.1)
    | _ => s) s

/-! ## TMARK and TTRIM (R192, R245) -/

/-- The position of the running context's job at its die. -/
def myTapePos (s : State) : Nat := tapePos s (dieOf s.cur.core) (partNum s s.cur.core) (me s).job

def execTmark (st : Stall) (d : Reg) (s : State) : Out :=
  done st 4 (varResult s (xCode d) .tmark (BitVec.ofNat 1024 (myTapePos s)) allBits)

def execTtrim (st : Stall) (a : Reg) (s : State) : Out :=
  let x := (xr s a).toNat
  let n := s.cur.core
  if myTapePos s < x then supFault s fRESFIELD 0
  else done st 4 (setTape s (dieOf n) (tapeTrim (tapeOf s (dieOf n) (partNum s n) (me s).job) x))

end Sys2Proof.Machine
end

