-- ==== Sys2Proof/Machine/Fabric.lean ====
section
/-! DEFINITION. Sys2Proof/Machine/Fabric.lean: the route checker (R171), and the error windows of lanes (R174). -/

namespace Sys2Proof.Machine

/-! ## The route checker (R171) -/

/-- Is a hop of a die entry possible: to a part that shares a bridge, or a delivery where the node is the destination? -/
def dieHopGood (n e h : Nat) : Bool := if h = n then e == n else (bridgeOf n h).isSome

def dieEntryGood (w n e : Nat) : Bool :=
  nbits w 13 50 == 0 &&
    (nbits w 63 1 == 0 || (decide (n < 14) && decide (e < 14) && (mainHops w ++ escHop w).all (dieHopGood n e)))

/-- A package entry of the package at position `x`. One in use for its own position names no way: malformed (R170 is silent, DESIGN
CHOICE, log 79). -/
def pkgEntryGood (w x p : Nat) : Bool :=
  nbits w 13 50 == 0 && (nbits w 63 1 == 0 || (p != x && (mainHops w ++ escHop w).all fun h => h != x && decide (h < 8)))

/-- A pod entry: its hops are fibres that lead somewhere. -/
def podEntryGood (w pkg : Nat) : Bool :=
  nbits w 13 50 == 0 && (nbits w 63 1 == 0 ||
    (mainHops w ++ escHop w).all fun f => (List.range 8).any fun p => (Config.fibreTo pkg f p).isSome)

/-- Reason 1: a malformed entry among the staged tables. -/
def malformed (s : State) (pkg : Nat) : Bool :=
  !(((List.range 16).all fun n => (List.range 16).all fun e => dieEntryGood (dieEntry s pkg 0 n e) n e) &&
    ((List.range 4).all fun k => (List.range 8).all fun p => pkgEntryGood (pkgEntry s pkg 0 k p) (pkg % 8) p) &&
    (List.range 128).all fun t => podEntryGood (podEntry s pkg 0 t) pkg)

/-- The tables that a check of a package takes of a position: its own staged ones, and the live ones of the others. -/
def checkBase (pkg x : Nat) : Nat := if pkg % 8 = x then 0 else liveOff

/-- A directed channel: a bridge of position `x` from `a` to `b`, rail `k` from position `x` to `y`, or fibre `f` of package `g`
for position `p`. -/
inductive Chan
  | bridge (x a b : Nat)
  | rail (k x y : Nat)
  | fibre (g f p : Nat)
deriving DecidableEq, Repr

/-- One package's PRI and ALT hops: from part `n` toward `e`. -/
def mainDie (s : State) (pkg x n e : Nat) : List Nat :=
  (mainHops (dieEntry s (pkg / 8 * 8 + x) (checkBase pkg x) n e)).filter fun m => m != n
def mainPkg (s : State) (pkg x k p : Nat) : List Nat :=
  (mainHops (pkgEntry s (pkg / 8 * 8 + x) (checkBase pkg x) k p)).filter fun y => y != x && decide (y < 8)

/-- Dependencies inside the package at position `x`. -/
def depsInside (s : State) (pkg x : Nat) : List (Chan × Chan) :=
  (List.range 14).flatMap fun e => (List.range 14).flatMap fun n =>
    (mainDie s pkg x n e).flatMap fun m => (mainDie s pkg x m e).map fun m2 => (.bridge x n m, .bridge x m m2)

/-- Dependencies between bridges and rails, and between rails. -/
def depsRail (s : State) (pkg x : Nat) : List (Chan × Chan) :=
  (List.range 4).flatMap fun k => (List.range 8).flatMap fun p => (mainPkg s pkg x k p).flatMap fun y =>
    ((List.range 14).flatMap fun n =>
      if (mainDie s pkg x n (9 + k)).contains (9 + k) then [(Chan.bridge x n (9 + k), Chan.rail k x y)] else []) ++
    (if y = p then
       (List.range 14).flatMap fun e => (mainDie s pkg y (9 + k) e).map fun m => (Chan.rail k x y, Chan.bridge y (9 + k) m)
     else (mainPkg s pkg y k p).map fun z => (Chan.rail k x y, Chan.rail k y z))

def members (s : State) (pod : Nat) : List Nat := (podAt s pod).members

/-- PRI and ALT fibres of package `g` toward pod `t`: staged for the package that is checked, live for the others. -/
def mainPod (s : State) (pkg g t : Nat) : List Nat := mainHops (podEntry s g (if g = pkg then 0 else liveOff) t)

/-- ESC fibres of package `g` toward pod `t`, of the same tables. -/
def escPod (s : State) (pkg g t : Nat) : List Nat := escHop (podEntry s g (if g = pkg then 0 else liveOff) t)

/-- The switch chiplets of a check: the package's own, and those that its staged pod entries name (R171). -/
def podNamed (s : State) (pkg : Nat) : List Nat :=
  (pkg :: (List.range 128).flatMap fun t => (mainPod s pkg pkg t ++ escPod s pkg pkg t).flatMap fun f =>
    (List.range 8).filterMap fun p => Config.fibreTo pkg f p).eraseDups

/-- Dependencies between fibres: a packet for position `p` of pod `t` that reaches a switch chiplet by one leaves by another. -/
def depsPod (s : State) (pkg : Nat) : List (Chan × Chan) :=
  let gs := podNamed s pkg
  gs.flatMap fun g => (List.range 128).flatMap fun t => (mainPod s pkg g t).flatMap fun f => (List.range 8).flatMap fun p =>
    match Config.fibreTo g f p with
    | none => []
    | some h =>
      if h = 8 * t + p ∨ !gs.contains h then []
      else (mainPod s pkg h t).map fun f' => (Chan.fibre g f p, Chan.fibre h f' p)

/-- Dependencies of a package's optical chiplets on the bridges into and out of them: a packet of another pod passes the chiplet of
its rail between bridges (R160). -/
def depsThrough (s : State) (pkg x : Nat) (ends : List Nat) : List (Chan × Chan) :=
  (List.range 4).flatMap fun k => ((List.range 14).filter fun n => (mainDie s pkg x n (9 + k)).contains (9 + k)).flatMap fun n =>
    (ends.flatMap fun e => mainDie s pkg x (9 + k) e).map fun m => (Chan.bridge x n (9 + k), Chan.bridge x (9 + k) m)

/-- Dependencies of a packet that leaves the pod at position `x`: bridges to the switch chiplet, and its fibres (R160). -/
def depsLeave (s : State) (pkg x : Nat) : List (Chan × Chan) :=
  let g := pkg / 8 * 8 + x
  let out := (List.range 128).flatMap fun t => (mainPod s pkg g t).flatMap fun f =>
    ((List.range 8).filter fun p => (Config.fibreTo g f p).isSome).map fun p => Chan.fibre g f p
  if out = [] then []
  else
    depsThrough s pkg x [13] ++ ((List.range 14).filter fun n => (mainDie s pkg x n 13).contains 13).flatMap fun n =>
      out.map fun c => (Chan.bridge x n 13, c)

/-- Dependencies of a packet that comes to position `p` from another pod: its last fibre, and the bridges beyond (R160). -/
def depsEnter (s : State) (pkg p : Nat) : List (Chan × Chan) :=
  let t := pkg / 8
  let last := (podNamed s pkg).flatMap fun g =>
    ((mainPod s pkg g t).filter fun f => Config.fibreTo g f p == some (8 * t + p)).map fun f => Chan.fibre g f p
  if last = [] then []
  else
    depsThrough s pkg p (List.range 14) ++ (List.range 4).flatMap fun k => (mainDie s pkg p 13 (9 + k)).flatMap fun m =>
      last.map fun c => (c, Chan.bridge p 13 m)

/-- The channel-dependency graph of the PRI and ALT hops of the pod's tables, and of the pod tables (R171, R15). -/
def chanDeps (s : State) (pkg : Nat) : List (Chan × Chan) :=
  (depsPod s pkg ++ (pkg % 8 :: (members s (pkg / 8)).filter fun x => x != pkg % 8).flatMap fun x =>
    depsInside s pkg x ++ depsRail s pkg x ++ depsLeave s pkg x ++ depsEnter s pkg x).eraseDups

/-- Remove edges that no edge follows, `n` times; what is left lies on cycles or leads to them. -/
def prune {α : Type} [DecidableEq α] : Nat → List (α × α) → List (α × α)
  | 0, es => es
  | n + 1, es =>
    let left := es.filter fun e => es.any fun f => f.1 = e.2
    if left.length = es.length then es else prune n left

/-- Reason 2: a cycle. -/
def cyclic (s : State) (pkg : Nat) : Bool := prune 800 (chanDeps s pkg) != []

/-- The edges of the escape tree as a flow on rail `k` sees it, between places of the pod: each rail crosses between packages on
lanes of its own (log 75). -/
def escEdges (s : State) (pkg k : Nat) : List (Nat × Nat) :=
  let one (x : Nat) : List (Nat × Nat) :=
    ((List.range 14).flatMap fun n => (List.range 14).flatMap fun e =>
      (escHop (dieEntry s (pkg / 8 * 8 + x) (checkBase pkg x) n e)).map fun m => (16 * x + n, 16 * x + m)) ++
    (List.range 8).flatMap fun p =>
      (escHop (pkgEntry s (pkg / 8 * 8 + x) (checkBase pkg x) k p)).map fun y => (16 * x + 9 + k, 16 * y + 9 + k)
  (((pkg % 8 :: (members s (pkg / 8)).filter fun x => x != pkg % 8).flatMap one).filterMap fun e =>
    if e.1 = e.2 then none else if e.1 < e.2 then some e else some (e.2, e.1)).eraseDups

/-- Remove edges with an end of degree 1, `n` times; what is left holds a cycle. -/
def leaves : Nat → List (Nat × Nat) → List (Nat × Nat)
  | 0, es => es
  | n + 1, es =>
    let deg (v : Nat) : Nat := (es.filter fun e => e.1 == v || e.2 == v).length
    let left := es.filter fun e => deg e.1 != 1 && deg e.2 != 1
    if left.length = es.length then es else leaves n left

/-- Following ESC inside a package from `n` reaches `e`, or its first hop lacks an entry. -/
def escArrives (s : State) (pkg n e : Nat) : Nat → Bool
  | 0 => n == e
  | f + 1 =>
    n == e || (match escHop (dieEntry s pkg 0 n e) with | m :: _ => escArrives s pkg m e f | [] => false)

/-- Following ESC on rail `k` from position `x` reaches position `p`, or a package whose entry toward it is not in use (log 75). -/
def escCrosses (s : State) (pkg k p : Nat) : Nat → Nat → Bool
  | 0, x => x == p
  | f + 1, x =>
    x == p || (match escHop (pkgEntry s (pkg / 8 * 8 + x) (checkBase pkg x) k p) with
      | y :: _ => decide (y < 8) && escCrosses s pkg k p f y
      | [] => true)

/-- Following ESC between switch chiplets from package `g` reaches package `d`, or one whose entry toward its pod is not in use. -/
def escLands (s : State) (pkg d : Nat) : Nat → Nat → Bool
  | 0, g => g == d
  | f + 1, g =>
    g == d || (match escPod s pkg g (d / 8) with
      | h :: _ => (match Config.fibreTo g h (d % 8) with | some q => escLands s pkg d f q | none => false)
      | [] => true)

/-- Does some ESC entry between packages or between switch chiplets lead to no end? On a tree a way that ends climbs and then
descends (R172). -/
def escStrays (s : State) (pkg : Nat) : Bool :=
  let xs := pkg % 8 :: (members s (pkg / 8)).filter fun x => x != pkg % 8
  (xs.any fun x => (List.range 4).any fun k => (List.range 8).any fun p => !escCrosses s pkg k p 8 x) ||
    (podNamed s pkg).any fun g => (List.range 128).any fun t =>
      t != g / 8 && escPod s pkg g t != [] && (List.range 8).any fun p => !escLands s pkg (8 * t + p) 1024 g

/-- Do edges between places form one tree that `root` belongs to, or are there none? -/
def isTree (es : List (Nat × Nat)) (root : Nat) : Bool :=
  let next (v : Nat) : List Nat := es.filterMap fun e => if e.1 = v then some e.2 else if e.2 = v then some e.1 else none
  let seen := spread next 200 [root] [root]
  leaves 200 es == [] && es.all fun e => seen.contains e.1

/-- The edges of the escape tree between the switch chiplets of a check, by the ESC fibres of their pod entries. It has no ESCROOT:
its root is the switch chiplet of the package whose tables are checked (log 75). -/
def podEdges (s : State) (pkg : Nat) : List (Nat × Nat) :=
  let gs := podNamed s pkg
  ((gs.flatMap fun g => (List.range 128).flatMap fun t => (escPod s pkg g t).flatMap fun f =>
      ((List.range 8).filterMap fun p => Config.fibreTo g f p).filterMap fun h => if gs.contains h then some (g, h) else none).filterMap
    fun e => if e.1 = e.2 then none else if e.1 < e.2 then some e else some (e.2, e.1)).eraseDups

/-- Reason 3: the ESC entries form no one tree rooted at ESCROOT, for some rail, or between the switch chiplets. -/
def noTree (s : State) (pkg : Nat) : Bool :=
  let w := fabWord s pkg 0x410010
  let root := 16 * nbits w 4 3 + nbits w 0 4
  ((List.range 4).any fun k => !isTree (escEdges s pkg k) root) || !isTree (podEdges s pkg) pkg || escStrays s pkg ||
    (List.range 14).any fun n => (List.range 14).any fun e =>
      nbits (dieEntry s pkg 0 n e) 63 1 == 1 && !escArrives s pkg n e 14

/-- The checker's reason for refusing the staged tables of a package, 0 for none. -/
def refuseReason (s : State) (pkg : Nat) : Nat :=
  if malformed s pkg then 1 else if cyclic s pkg then 2 else if noTree s pkg then 3 else 0

/-- The staged tables become the live ones, as they stand now: what has been written since the check is installed unchecked (R171 is
silent, DESIGN CHOICE, log 79). -/
def installTables (s : State) (pkg : Nat) : State :=
  let k := sliceKey (fabricCore pkg)  0
  { s with mem := Memory.putBytes s.mem (k + liveOff) (Memory.readBytes s.mem k 0xD00) }

/-! ## Link failures (R173) and lane windows (R174) -/

/-- Mark a link failed at both ends; true if it was up. -/
def markFailed (s : State) (pkg link : Nat) : Bool × State :=
  let g := pkgAt s pkg
  let add (s : State) (p l : Nat) : State :=
    let g := pkgAt s p
    setPkg s p { g with failed := if g.failed.contains l then g.failed else l :: g.failed }
  if g.dead || g.failed.contains link then (false, s)
  else if link < 27 then (true, add s pkg link)
  else if 32 ≤ link ∧ link < 64 ∧ link % 8 ≠ pkg % 8 then
    (true, add (add s pkg link) (pkg / 8 * 8 + link % 8) (railLink ((link - 32) / 8) (pkg % 8)))
  else if 64 ≤ link ∧ link < 80 then (true, add s pkg link)
  else (false, s)

/-- Queue a GEN message with a cause: 0 failure, 1 tables installed, 2 membership (R162, R167). The generation that it opens
is named when it is sent. -/
def queueGen (s : State) (pkg cause : Nat) : State := serviceCrier s pkg 5 0 [cause, 0]

/-- LINK_FAILURE: the ends mark the hop failed, and the service die opens a generation. -/
def failLink (s : State) (pkg link : Nat) : State :=
  let r := markFailed s pkg link
  if r.1 then queueGen r.2 pkg 0 else r.2

def execLinkFailure (pkg link : Nat) (s : State) : Out := .next (failLink s pkg link)

def laneOff (lane : Nat) : Nat := 0x410200 + 8 * lane
def laneState (s : State) (pkg lane : Nat) : Nat := nbits (fabWord s pkg (laneOff lane)) 0 2
/-- Lanes of the rail and peer of a lane: eight planes, one wavelength (R8). -/
def laneMates (lane : Nat) : List Nat := (List.range 8).map fun i => lane / 64 * 64 + 8 * i + lane % 8
/-- The link of a lane. -/
def laneLink (pkg lane : Nat) : Nat := railLink (lane / 64) ((pkg % 8 + lane % 8) % 8)

/-- Lanes of the rail and peer of a lane that retrain. -/
def lanesBusy (s : State) (pkg lane : Nat) : Nat := ((laneMates lane).filter fun l => laneState s pkg l == 1).length

/-- LANE_ERROR_WINDOW: the count of the window is kept; a live lane over ERRMAX is removed, two of one rail at most; a further
one stays in use until one of them returns. -/
def laneWindow (s : State) (pkg lane count : Nat) : State :=
  let w := fabWord s pkg (laneOff lane)
  let max := nbits (fabWord s pkg 0x410100) 0 32
  let g := pkgAt s pkg
  if 256 ≤ lane ∨ lane % 8 = 0 ∨ g.dead then s
  else
    let bad := laneState s pkg lane == 0 && max != 0 && decide (max < count)
    let go := bad && decide (lanesBusy s pkg lane < 2)
    let wait := g.laneWait.filter fun l => l != lane
    let s := setPkg s pkg { g with laneWait := if bad && !go then wait ++ [lane] else wait }
    setFab s pkg (laneOff lane) (Nat.min count 65535 * 2 ^ 48 + nbits w 40 8 * 2 ^ 40 + if go then 1 else laneState s pkg lane)

def execLaneErrorWindow (pkg lane count : Nat) (s : State) : Out := .next (laneWindow s pkg lane count)

/-- A lane no longer retrains: the first lane of its rail and peer that waits for that is removed now, unless ERRMAX = 0 has turned
retraining off. -/
def laneTurn (s : State) (pkg lane : Nat) : State :=
  let g := pkgAt s pkg
  match g.laneWait.find? fun l =>
      (laneMates lane).contains l && laneState s pkg l == 0 && nbits (fabWord s pkg 0x410100) 0 32 != 0 with
  | none => s
  | some l =>
    let w := fabWord s pkg (laneOff l)
    setFab (setPkg s pkg { g with laneWait := g.laneWait.filter fun x => x != l }) pkg (laneOff l) (w / 4 * 4 + 1)

/-- LANE_RETRAIN_DONE: a pass hands the lane back; the third failure in a row disables it, and the supervisor is notified (log
39). A rail whose last lane toward a peer goes is a failed link (R173). -/
def laneRetrained (s : State) (pkg lane : Nat) (pass : Bool) : State :=
  let w := fabWord s pkg (laneOff lane)
  if 256 ≤ lane ∨ lane % 8 = 0 ∨ (pkgAt s pkg).dead ∨ laneState s pkg lane ≠ 1 then s
  else if pass then laneTurn (setFab s pkg (laneOff lane) 0) pkg lane
  else
    let n := nbits w 40 8 + 1
    if n < 3 then setFab s pkg (laneOff lane) (nbits w 48 16 * 2 ^ 48 + n * 2 ^ 40 + 1)
    else
      let s := setFab s pkg (laneOff lane) (nbits w 48 16 * 2 ^ 48 + n * 2 ^ 40 + 2)
      let g := pkgAt s pkg
      let s := laneTurn (setPkg s pkg { g with laneNotes := g.laneNotes ++ [lane] }) pkg lane
      if (laneMates lane).all fun l => laneState s pkg l == 2 then failLink s pkg (laneLink pkg lane) else s

def execLaneRetrainDone (pkg lane : Nat) (pass : Bool) (s : State) : Out := .next (laneRetrained s pkg lane pass)

/-! ## Flits and the escape channel (R159, R172, R214) -/

/-- FLIT_RETRANSMIT: the flit comes again on a lane of its rail, and its packet stays on its way in its place. -/
def execFlitRetransmit (_k : Nat) (s : State) : Out := .next s

/-- END_TO_END_CHECK_FAILURE: the sending interface sends the packet again, in its place. -/
def execEndToEndCheckFailure (_k : Nat) (s : State) : Out := .next s

/-- ESCAPE_CHANNEL_DIVERT: a packet between dies whose PRI and ALT have failed, or that has waited 1,024 cycles for a buffer (which
any packet may, log 42), follows ESC entries from here to its delivery; its flow keeps its order. -/
def divert (s : State) (k : Nat) : State :=
  match s.flight[k]? with
  | some p => if p.near then s else { s with flight := s.flight.set k { p with esc := true } }
  | none => s

def execEscapeChannelDivert (k : Nat) (s : State) : Out := .next (divert s k)

end Sys2Proof.Machine
end

