-- ==== Sys2Proof/Machine/Crier.lean ====
section
/-! DEFINITION. Sys2Proof/Machine/Crier.lean: the Crier's token and queues (R161-R163), what each kind of message does when
a package applies it (R164, R46, R162), generations (R123, R166-R168), and commits (R171). -/

namespace Sys2Proof.Machine

/-! ## The token (R161, R163, R167) -/

/-- Is a package heard on the Crier: a member that has its power? -/
def heard (s : State) (pkg : Nat) : Bool := (members s (pkg / 8)).contains (pkg % 8) && !dieDead s (16 * pkg + 8)

/-- Must a GEN message of a package wait: four generations are open or draining, those it has sent included (R167)? -/
def genWaits (s : State) (pkg : Nat) : Bool :=
  let g := pkgAt s pkg
  let coming := (((podAt s (pkg / 8)).sent.drop g.applied).filter fun m => m.kind == 5).length
  decide (3 ≤ g.gens.length + coming)

/-- Up to `n` messages of a queue that may go out now, and what stays: a GEN message that must wait lets others pass. -/
def takeMsgs (waits : Bool) : Nat → List CMsg → List CMsg × List CMsg
  | _, [] => ([], [])
  | 0, q => ([], q)
  | n + 1, m :: q =>
    if m.kind = 5 ∧ waits then
      let r := takeMsgs waits (n + 1) q
      (r.1, m :: r.2)
    else
      let r := takeMsgs (waits || m.kind == 5) n q
      (m :: r.1, r.2)

/-- The generation that a package's next GEN message opens: the one after its own and those it has still to apply. -/
def nextGen (s : State) (pkg : Nat) : Nat :=
  let g := pkgAt s pkg
  let coming := (((podAt s (pkg / 8)).sent.drop g.applied).filter fun m => m.kind == 5).length
  (g.gen + coming + 1) % 65536

/-- A GEN message as it is sent names the generation that it opens (R162). -/
def nameGen (new : Nat) (m : CMsg) : CMsg :=
  if m.kind = 5 then { m with
    val := BitVec.ofNat 64 new
    body := [m.body.getD 0 0, new] }
  else m

/-- Number messages in crier order; a GEN message among them opens generation `new`. -/
def numberMsgs (new : Nat) : Nat → List CMsg → List CMsg
  | _, [] => []
  | q, m :: r => { nameGen new m with seq := q } :: numberMsgs new (q + 1) r

/-- The next position after `p` among some. -/
def nextPos (ms : List Nat) (p : Nat) : Nat := ((List.range 8).map fun i => (p + 1 + i) % 8).find? (fun x => ms.contains x) |>.getD p

/-- CRIER_TOKEN_FRAME: the holder sends messages, up to four on one visit, and passes the token on. -/
def tokenFrame (s : State) (pod : Nat) : State :=
  let t := podAt s pod
  let pkg := 8 * pod + t.holder
  if !heard s pkg then s
  else
    let g := pkgAt s pkg
    let r := takeMsgs (genWaits s pkg) (4 - t.visit) g.queue
    let s := setPkg s pkg { g with queue := r.2 }
    let s := setPod s pod { t with
      seq := t.seq + r.1.length
      sent := t.sent ++ numberMsgs (nextGen s pkg) t.seq r.1
      holder := nextPos t.members t.holder
      visit := 0 }
    if r.1 = [] then s else wakePkg (recountPods s pkg) pkg .crier

def execCrierTokenFrame (pod : Nat) (s : State) : Out := .next (tokenFrame s pod)

/-- CRIER_SILENT_HOLDER: a holder that gives no sign is skipped: the next live position takes the token and sends the MEMBER
message that marks it absent, and a generation opens (R167). -/
def silentHolder (s : State) (pod : Nat) : State :=
  let t := podAt s pod
  if heard s (8 * pod + t.holder) then s
  else
    match ((List.range 8).map fun i => (t.holder + 1 + i) % 8).find? fun x => heard s (8 * pod + x) with
    | none => s
    | some x =>
      let m : CMsg := ⟨t.seq, 7, x, 0xFF, 0, 0, 0, [t.holder, 0], serviceCore (8 * pod + x), none, zeroVec⟩
      let s := setPod s pod { t with
        seq := t.seq + 1
        sent := t.sent ++ [m]
        members := t.members.filter fun y => y != t.holder
        holder := x
        visit := 1 }
      queueGen s (8 * pod + x) 2

def execCrierSilentHolder (pod : Nat) (s : State) : Out := .next (silentHolder s pod)

/-! ## Applying messages -/

/-- The message that a package applies next, unless it waits for one to be sent again. -/
def nextCrier (s : State) (pkg : Nat) : Option CMsg :=
  let g := pkgAt s pkg
  if !heard s pkg || g.missing == some g.applied then none else (podAt s (pkg / 8)).sent[g.applied]?

/-- CRIER_RESEND_REQUEST: the next message has a check error, and holds back the later ones; once it has come again they go
on. -/
def resendRequest (s : State) (pkg : Nat) : State :=
  let g := pkgAt s pkg
  if g.missing.isSome then setPkg s pkg { g with missing := none }
  else if (nextCrier s pkg).isSome then setPkg s pkg { g with missing := some g.applied }
  else s

def execCrierResendRequest (pkg : Nat) (s : State) : Out := .next (resendRequest s pkg)

/-- Apply the next message, if it is of the given kind. -/
def applyCrier (s : State) (pkg : Nat) (kind : Nat → Bool) (f : State → CMsg → State) : State :=
  match nextCrier s pkg with
  | none => s
  | some m =>
    if kind m.kind then f (setPkg s pkg { pkgAt s pkg with applied := (pkgAt s pkg).applied + 1 }) m else s

/-- Does a message belong to the partition's current incarnation (R162, R211)? -/
def curInc (s : State) (pkg : Nat) (m : CMsg) : Bool := m.inc == partInc s pkg m.part

/-- Write a mirror word and set its granule full (R164). -/
def putMirror (s : State) (pkg : Nat) (m : CMsg) (v : Nat) : State :=
  let k := mirrorKey pkg m.part m.poff
  let g := pkgAt s pkg
  setPkg (setFull { s with mem := Memory.write s.mem k 8 v } k 1 true) pkg { g with mvec := vmax g.mvec m.vec }

/-- The value goes back to the instruction that waits for it, at its own package; it acquires what the writes before it
released (R130). -/
def answerCrier (s : State) (pkg : Nat) (m : CMsg) (v : Nat) (vec : Vec16) : State :=
  match m.acc with
  | some a => if pkgOf a.core = pkg then deliver s ⟨a, .data (BitVec.ofNat 1024 v), allBits, [], vec⟩ else s
  | none => s

def crierSt (s : State) (pkg : Nat) : State :=
  applyCrier s pkg (· == 0) fun s m => if curInc s pkg m then putMirror s pkg m m.val.toNat else s

def crierAdd (s : State) (pkg : Nat) : State :=
  applyCrier s pkg (· == 1) fun s m =>
    if curInc s pkg m then
      let w := Memory.read s.mem (mirrorKey pkg m.part m.poff) 8
      let vec := (pkgAt s pkg).mvec
      answerCrier (putMirror s pkg m ((w + m.val.toNat) % wordMod)) pkg m w vec
    else s

def crierMark (s : State) (pkg : Nat) : State :=
  applyCrier s pkg (· == 2) fun s m => if curInc s pkg m then answerCrier s pkg m m.seq (pkgAt s pkg).mvec else s

def execCrierStApplied (pkg : Nat) (s : State) : Out := .next (crierSt s pkg)
def execCrierAddApplied (pkg : Nat) (s : State) : Out := .next (crierAdd s pkg)
def execCrierMarkApplied (pkg : Nat) (s : State) : Out := .next (crierMark s pkg)

/-- A POD barrier's arrival reaches a package's copy (R46, R47). One of a member that has arrived in the copy's current phase
changes nothing (R46 speaks of BARR only: DESIGN CHOICE, log 73), nor one that the copy's EN or mask does not admit, and a BWAIT
that waits for it then waits on the current phase (DESIGN CHOICE, log 77). -/
def podArrival (s : State) (pkg : Nat) (m : CMsg) : State :=
  let key := barKey (16384 * pkg) .pod m.poff
  let b := barAt s key
  let s := if pkg % 8 = m.pos then setBar s key { b with issued := b.issued.filter fun x => x != m.pos } else s
  if !curInc s pkg m || !barEn b || !b.mask.contains m.pos || b.arrived.contains m.pos then settleBwaits s key m.pos b.phase
  else arrive (settleBwaits s key m.pos b.phase) key m.pos m.vec

def crierBarrier (s : State) (pkg : Nat) : State := applyCrier s pkg (· == 3) fun s m => podArrival s pkg m

def execCrierBarrierArrival (pkg : Nat) (s : State) : Out := .next (crierBarrier s pkg)

/-- A market message: POS, INTERVAL, ASK, DRAW and LIC (R222). -/
def crierMarket (s : State) (pkg : Nat) : State :=
  applyCrier s pkg (· == 4) fun s m =>
    let g := pkgAt s pkg
    setPkg s pkg { g with
      market := g.market ++ [(m.pos, m.body.getD 0 0, Nat.min 15000 (m.body.getD 1 0), m.body.getD 2 0, m.body.getD 3 0)] }

def execCrierMarket (pkg : Nat) (s : State) : Out := .next (crierMarket s pkg)

/-- A kind that is never sent is recorded and otherwise ignored (R162). -/
def crierUnknown (s : State) (pkg : Nat) : State :=
  applyCrier s pkg (fun k => decide (9 ≤ k)) fun s m => blackBox s pkg 0x0103 4 false 0 (BitVec.ofNat 64 m.kind) (BitVec.ofNat 64 m.seq)

def execCrierUnknownKind (pkg : Nat) (s : State) : Out := .next (crierUnknown s pkg)

/-! ## Generations (R123, R166-R168, R215) -/

/-- The members as a package knows them: those of the pod, without the MEMBER messages that it has not applied. -/
def membersSeen (s : State) (pkg : Nat) : List Nat :=
  let undo (m : CMsg) (ms : List Nat) : List Nat :=
    let p := m.body.getD 0 8
    if m.kind ≠ 7 then ms
    else if m.body.getD 1 0 = 0 then (if ms.contains p then ms else p :: ms)
    else ms.filter fun x => x != p
  ((podAt s (pkg / 8)).sent.drop (pkgAt s pkg).applied).foldr undo (members s (pkg / 8))

/-- Everything that dies have sent to dies out of their reach, or that a die without power had sent, is lost for good, and its
issuers are told (R123, R215). -/
def loseTo (s : State) (out : List (Nat × Nat)) : State :=
  let gone (p : Packet) : Bool :=
    !p.near && (out.contains (dieOf p.src, dieOf p.dst) ||
      (dieDead s (dieOf p.src) && out.contains (dieOf p.dst, dieOf p.src)))
  let lost := s.keptReq.filter gone
  let s := { s with
    keptReq := s.keptReq.filter fun p => !gone p
    keptRep := s.keptRep.filter fun p => !gone p
    flight := s.flight.filter fun p => !gone p
    flows := s.flows.map fun f => if out.contains (f.src, f.dst) then { f with recv := f.send } else f }
  lost.foldl (fun s p => match p.body with | .row r => losePart s r | .data d => loseData s d | b => loseBody s b) s

/-- Does a barrier's mask hold a core of a die, or the die, as a package's copy of the record sees it? -/
def maskHolds (key : Nat) (b : Barrier) (d : Nat) : Bool :=
  match keyScope key with
  | .pkg => d / 16 == pkgOf (key / 8388608) && b.mask.contains (d % 16)
  | .pod => d / 128 == podOf (key / 8388608) && b.mask.contains (d / 16 % 8)
  | _ => false

/-- The current phases of a package's barriers that hold a die which it can no longer reach are aborted (R215). -/
def abortBars (s : State) (pkg : Nat) (dies : List Nat) : State :=
  (s.bars.filter fun e => pkgOf (e.1 / 8388608) == pkg && dies.any fun d => maskHolds e.1 e.2 d).foldl
    (fun s e => endPhase s e.1 true) s

/-- A generation closes at a package: what it cannot reach is settled. -/
def closeGen (s : State) (pkg gen : Nat) : State :=
  let g := pkgAt s pkg
  let out := outOfReach s pkg
  let new := (lostDies s pkg out).filter fun d => !(lostDies s pkg g.unreach).contains d
  let s := setPkg s pkg { g with gens := g.gens.filter fun e => e.gen != gen, unreach := out }
  let s := { s with keptRep := s.keptRep.filter fun p => !(pkgOf p.src == pkg && p.gen == gen) }
  abortBars (loseMoves (loseRows (loseTo s out) pkg) pkg) pkg new

/-- Close every generation for which every live member's DRAINED has been applied. -/
def tryClose (s : State) (pkg : Nat) : State :=
  let ms := membersSeen s pkg
  ((pkgAt s pkg).gens.filter fun e => ms.all fun m => e.drained.contains m).foldl (fun s e => closeGen s pkg e.gen) s

/-- GEN: the package moves to the next generation and sends again what it keeps; the committing package installs its
tables. -/
def applyGen (s : State) (pkg : Nat) (m : CMsg) : State :=
  let g := pkgAt s pkg
  let new := (g.gen + 1) % 65536
  let mine := m.pos == pkg % 8 && m.body.getD 0 0 == 1
  let s := setPkg s pkg { g with
    gen := new
    gens := g.gens ++ [⟨g.gen, [], false⟩]
    intents := if m.body.getD 0 0 = 1 then g.intents.filter fun e => e.1 != pkg / 8 * 8 + m.pos else g.intents
    commitBy := if mine then none else g.commitBy }
  let again := (s.keptReq.filter fun p => pkgOf p.src == pkg && !dieDead s (dieOf p.src)).map fun p => { p with gen := new }
  let s := { s with flight := s.flight ++ again }
  if mine then setFab (installTables s pkg) pkg 0x410008 (2 + 2 ^ 48 * new) else s

def crierGen (s : State) (pkg : Nat) : State := applyCrier s pkg (· == 5) fun s m => applyGen s pkg m

def execCrierGen (pkg : Nat) (s : State) : Out := .next (crierGen s pkg)

/-- Has everything that a package sent in a generation and keeps been acknowledged or declared lost (R168, log 40)? -/
def drainedNow (s : State) (pkg gen : Nat) : Bool :=
  s.keptReq.all fun p => pkgOf p.src != pkg || p.gen != gen || dieDead s (dieOf p.src)

/-- DRAINED_SEND: the oldest generation that has drained and is not yet told. -/
def sendDrained (s : State) (pkg : Nat) : State :=
  let g := pkgAt s pkg
  match g.gens.find? fun e => !e.sent && drainedNow s pkg e.gen with
  | none => s
  | some e =>
    if !heard s pkg then s
    else
      serviceCrier (setPkg s pkg { g with gens := g.gens.map fun x => if x.gen = e.gen then { x with sent := true } else x })
        pkg 6 (BitVec.ofNat 64 e.gen) []

def execDrainedSend (pkg : Nat) (s : State) : Out := .next (sendDrained s pkg)

def crierDrained (s : State) (pkg : Nat) : State :=
  applyCrier s pkg (· == 6) fun s m =>
    let g := pkgAt s pkg
    tryClose (setPkg s pkg { g with
      gens := g.gens.map fun e => if e.gen = m.val.toNat then { e with drained := m.pos :: e.drained } else e }) pkg

def execCrierDrained (pkg : Nat) (s : State) : Out := .next (crierDrained s pkg)

/-- The service die of a live package admits an absent one that has its power: it sends a MEMBER message, and opens a generation
for it (R161, R167). What makes it do so is left to it (log 59). -/
def sendAdmit (s : State) (pkg pos : Nat) : State :=
  if !heard s pkg || decide (8 ≤ pos) || (members s (pkg / 8)).contains pos || dieDead s (16 * (pkg / 8 * 8 + pos) + 8) then s
  else queueGen (serviceCrier s pkg 7 0 [pos, 1]) pkg 2

/-- A package that a MEMBER message admits goes on from where the package that applies it stands: its generation, those open
before it, of which the newcomer has told none drained, its interval and the market messages of it, and the commits open; with
the messages that follow. -/
def admitMember (s : State) (pkg : Nat) (m : CMsg) : State :=
  let p := m.body.getD 0 8
  let t := podAt s (pkg / 8)
  if m.body.getD 1 0 = 0 ∨ t.members.contains p then s
  else
    let s := setPod s (pkg / 8) { t with members := p :: t.members }
    let q := pkg / 8 * 8 + p
    let s := setPkg s q { pkgAt s q with
      applied := (pkgAt s pkg).applied
      gen := (pkgAt s pkg).gen
      gens := (pkgAt s pkg).gens.map fun e => { e with sent := false }
      intents := (pkgAt s pkg).intents.filter fun e => e.1 != q
      market := (pkgAt s pkg).market
      asked := false }
    setSvc s q 0xE010 8 (svcWord s pkg 0xE010 8)

def crierMember (s : State) (pkg : Nat) : State := applyCrier s pkg (· == 7) fun s m => tryClose (admitMember s pkg m) pkg

def execCrierMember (pkg : Nat) (s : State) : Out := .next (crierMember s pkg)

/-- PACKET_LOST: a packet of a draining generation is declared lost in it (R123, R168); what its sender keeps counts from now
on with the generation in which it was sent again. -/
def packetLost (s : State) (k : Nat) : State :=
  match s.flight[k]? with
  | none => s
  | some p =>
    let g := pkgAt s (pkgOf p.src)
    if p.near ∨ !(g.gens.any fun e => e.gen == p.gen) then s
    else
      let same (q : Packet) : Bool :=
        q.gen == p.gen && q.seq == p.seq && q.net == p.net && dieOf q.src == dieOf p.src && dieOf q.dst == dieOf p.dst
      { removeAt s k with keptReq := s.keptReq.map fun q => if same q then { q with gen := g.gen } else q }

def execPacketLost (k : Nat) (s : State) : Out := .next (packetLost s k)

/-! ## Commits (R171) -/

def fabStatus (s : State) (pkg : Nat) : Nat := nbits (fabWord s pkg 0x410008) 0 2

/-- An INTENT takes its place in the order of commits. -/
def crierIntent (s : State) (pkg : Nat) : State :=
  applyCrier s pkg (· == 8) fun s m =>
    let g := pkgAt s pkg
    setPkg s pkg { g with intents := g.intents ++ [(8 * (pkg / 8) + m.pos, m.seq)] }

def execCrierIntent (pkg : Nat) (s : State) : Out := .next (crierIntent s pkg)

/-- Is a commit neither installed nor refused? Its package has its INTENT still to apply, or holds it open. -/
def commitOpen (s : State) (e : Nat × Nat) : Bool :=
  heard s e.1 && (decide ((pkgAt s e.1).applied ≤ e.2) || (pkgAt s e.1).intents.contains e)

/-- Has a package a commit of its own in the order? -/
def hasIntent (s : State) (pkg : Nat) : Bool := (pkgAt s pkg).intents.any fun e => e.1 == pkg

/-- Commits before a package's own that are neither installed nor refused. -/
def openBefore (s : State) (pkg : Nat) : List (Nat × Nat) :=
  ((pkgAt s pkg).intents.takeWhile fun e => e.1 != pkg).filter (commitOpen s)

/-- COMMIT_CHECK: the staged tables are refused with a reason, or accepted with a GEN message. -/
def commitCheck (s : State) (pkg : Nat) : State :=
  let g := pkgAt s pkg
  if !heard s pkg ∨ fabStatus s pkg ≠ 1 ∨ !hasIntent s pkg ∨ g.commitBy.isSome ∨ openBefore s pkg ≠ [] then s
  else
    let r := refuseReason s pkg
    let s := setPkg s pkg { g with
      intents := g.intents.filter fun e => commitOpen s e && (r == 0 || e.1 != pkg)
      commitBy := if r = 0 then some pkg else none }
    if r ≠ 0 then setFab s pkg 0x410008 (3 + 256 * r) else queueGen s pkg 1

def execCommitCheck (pkg : Nat) (s : State) : Out := .next (commitCheck s pkg)

end Sys2Proof.Machine
end

