-- ==== Sys2Proof/Machine/Reduction.lean ====
section
/-! DEFINITION. Sys2Proof/Machine/Reduction.lean: the collective engine: contributions (R72, R94, R176), the deadline (R73) and
errors of the sum store (R177). -/

namespace Sys2Proof.Machine

/-- The elements of a granule in a result format. -/
def granElems (bf16 : Bool) (v : Nat) : List Fp :=
  if bf16 then (List.range 8).map fun i => fmtBF16.unpack (elemOf 16 i v)
  else (List.range 4).map fun i => fmtF32.unpack (elemOf 32 i v)

/-- The rounded granule of its sums (R94). -/
def granResult (bf16 : Bool) (sums : List ExAcc) : Nat :=
  if bf16 then packElems 16 (sums.map (exRound fmtBF16)) else packElems 32 (sums.map (exRound fmtF32))

/-- The abort pattern of a granule (R73). -/
def abortGran (bf16 : Bool) : Nat :=
  if bf16 then packElems 16 (List.replicate 8 0x7FC0) else packElems 32 (List.replicate 4 0x7FC0DEAD)

/-- A discarded contribution raises LATE, saturating (R72). -/
def raiseLate (s : State) (attr : Nat) : State :=
  { s with mem := Memory.write s.mem (attr + 30) 2 (Nat.min 65535 (Memory.read s.mem (attr + 30) 2 + 1)) }

/-- Granule `i` of a slot, as it stands. -/
def granAt (x : RedSlot) (i : Nat) : RedGran :=
  (x.grans.find? fun g => g.idx == i).getD ⟨i, 0, false, List.replicate (if x.bf16 then 8 else 4) exZero⟩

def setGran (x : RedSlot) (g : RedGran) : RedSlot := { x with grans := g :: x.grans.filter fun h => h.idx != g.idx }

/-- Keep a slot at its die, or free it when its last granule has ended: ARMED clears (R71, R72). -/
def keepSlot (s : State) (d : Nat) (x : RedSlot) : State :=
  let k := dieAt s d
  if x.opens = 0 then
    let s := setDie s d { k with slots := k.slots.filter fun y => y.page != x.page }
    let b := Memory.read s.mem (x.attr + 24) 1
    { s with mem := Memory.write s.mem (x.attr + 24) 1 (b / 2 * 2) }
  else setDie s d { k with slots := k.slots.map fun y => if y.page = x.page then x else y }

/-- Write a granule of a page and set it full. -/
def endGran (s : State) (page i v : Nat) : State :=
  setFull { s with mem := Memory.write s.mem (page + 16 * i) 16 v } (page + 16 * i) 1 true

/-- Add a contribution to its granule, or discard it (R72, R176). -/
def addContribution (s : State) (r : RedPart) : State :=
  match (dieAt s r.die).slots.find? fun x => x.page == r.page && x.round == r.round with
  | none => raiseLate s r.attr
  | some x =>
    let g := granAt x r.idx
    if g.ended then raiseLate s r.attr
    else
      let g := { g with
        count := g.count + 1
        sums := (g.sums.zip (granElems x.bf16 r.val.toNat)).map fun e => exAdd e.1 e.2 }
      if g.count < x.rcnt then keepSlot s r.die (setGran x g)
      else
        keepSlot (endGran s r.page r.idx (granResult x.bf16 g.sums)) r.die
          { setGran x { g with ended := true, sums := [] } with opens := x.opens - 1 }

/-- A store's last granule has been added: its home acknowledges it, with the flags of its lanes (R89, R176). -/
def ackContribution (s : State) (p : Packet) (r : RedPart) : State :=
  if !r.last then s
  else
    match r.acc.op with
    | .vstore _ t =>
      let st := vstoreBits t (if r.bf16 then 2 else 1) 0 (BitVec.ofNat 5 r.acc.round) r.acc.pred r.acc.val.toNat
      let s := noteWrite s r.acc.core r.acc.home p.stamp r.acc.vec
      sendBack s ⟨r.acc, .data (packFlags st.flags), allBits, [], replyVec s r.acc⟩
    | _ => s

/-- Supervisor contexts whose XINV waits for contributions look again (R364). -/
def wakeXinv (s : State) : State := s.cores.foldl (fun s e => if isSupCore e.1 then wakeAll s e.1 .unit else s) s

/-- CONTRIBUTION: a granule reaches the collective engine. -/
def contribute (s : State) (k : Nat) : State :=
  match takeAt s k with
  | .yes p =>
    (match p.body with
     | .red r =>
       let s' := removeAt s k
       if stale s p then wakeXinv s'
       else
         let t := mergeWrite (addContribution (noteWork s' (1024 * r.die) r.acc.job) r) r.acc.core r.acc.home p.stamp r.acc.vec
         wakeXinv (ackContribution t p r)
     | _ => s)
  | _ => s

def execContribution (k : Nat) (s : State) : Out := .next (contribute s k)

/-- Abort some granules of a slot (R73, R177): the pattern, full, and ABT. -/
def abortGrans (s : State) (d : Nat) (x : RedSlot) (is : List Nat) : State :=
  let s := is.foldl (fun s i =>
    let s := endGran s x.page i (abortGran x.bf16)
    { s with aborted := setRun s.aborted (x.page / 16 + i) true 1 }) s
  let b := Memory.read s.mem (x.attr + 24) 1
  let s := { s with mem := Memory.write s.mem (x.attr + 24) 1 (b / 4 * 4 + 2 + b % 2) }
  let x := is.foldl (fun x i => setGran x { granAt x i with ended := true, sums := [] }) x
  keepSlot s d { x with opens := x.opens - is.length }

/-- Granules of a slot that have not ended. -/
def openGrans (x : RedSlot) : List Nat := (List.range 4096).filter fun i => !(granAt x i).ended

/-- REDUCTION_DEADLINE: every incomplete granule is aborted (R73). -/
def deadline (s : State) (d i : Nat) : State :=
  match (dieAt s d).slots[i]? with
  | none => s
  | some x => if x.rdl = 0 then s else abortGrans s d x (openGrans x)

def execReductionDeadline (die slot : Nat) (s : State) : Out := .next (deadline s die slot)

/-- SUM_STORE_ERROR: the granule is aborted, and the partition's supervisor core is told (R177, R204). -/
def sumError (s : State) (d i gran : Nat) : State :=
  match (dieAt s d).slots[i]? with
  | none => s
  | some x =>
    if 4096 ≤ gran ∨ (granAt x gran).ended then s
    else
      let n := 1024 * d
      let s := boxMcheck (abortGrans s d x [gran]) n 1 (BitVec.ofNat 64 (x.page + 16 * gran - granKey (d / 16) 0))
      let pkg := d / 16
      let dst := supCoreOf s pkg x.part
      sendUnreserved s n dst (partFclass s pkg x.part)
        [coreAdr s dst n, BitVec.ofNat 64 (fMCHECK + 8192), BitVec.ofNat 64 (x.page + 16 * gran - granKey pkg 0), noticePc] x.part

def execSumStoreError (die slot granule : Nat) (s : State) : Out := .next (sumError s die slot granule)

end Sys2Proof.Machine
end

