-- ==== Sys2Proof/Machine/Service.lean ====
section
/-! DEFINITION. Sys2Proof/Machine/Service.lean: the service die: the power market (R222, R223), energy (R224), boot and
attestation (R225), host ports (R226), background work (R228), the black box's fatal events (R229), memory errors (R214) and
the loss of power (R215). -/

namespace Sys2Proof.Machine

/-- Take a fresh number for a free value. -/
def drawFree (s : State) : Nat × State := (s.free, { s with free := s.free + 1 })

/-! ## The market (R221-R223) -/

/-- Watts that a level gives to some askers. -/
def atLevel (asks : List Nat) (l : Nat) : Nat := asks.foldl (fun t a => t + Nat.min a l) 0

/-- The greatest whole level, at most `n`, whose watts stay within a limit. -/
def wholeLevel (asks : List Nat) (limit : Nat) : Nat → Nat
  | 0 => 0
  | n + 1 => if atLevel asks (n + 1) ≤ limit then n + 1 else wholeLevel asks limit n

/-- Give `n` spare watts, one each, to the askers below what they asked, in order. -/
def spare : Nat → List (Nat × Nat) → List Nat
  | _, [] => []
  | n, (a, g) :: r => if n ≠ 0 ∧ g < a then (g + 1) :: spare (n - 1) r else g :: spare n r

/-- Grants to askers in ascending position (R222). -/
def grants (asks : List Nat) (limit : Nat) : List Nat :=
  if asks.sum ≤ limit then asks
  else
    let l := wholeLevel asks limit 15000
    let gs := asks.map fun a => Nat.min a l
    spare (limit - gs.sum) (asks.zip gs)

/-- Live members of a pod, ascending. -/
def liveMembers (s : State) (pod : Nat) : List Nat := (List.range 8).filter fun x => heard s (8 * pod + x)

/-- A package's current interval. -/
def interval (s : State) (pkg : Nat) : Nat := svcWord s pkg 0xE010 8

/-- The messages of the current interval that a package has: position, ASK, DRAW and LIC. -/
def marketNow (s : State) (pkg : Nat) : List (Nat × Nat × Nat × Nat) :=
  (pkgAt s pkg).market.filterMap fun m => if m.2.1 = interval s pkg % 4294967296 then some (m.1, m.2.2) else none

/-- The limit of an interval at a package: the least LIC of its messages; the least LICENCE of the live members where none has
come (R222 speaks of messages only: DESIGN CHOICE, log 77). -/
def marketLimit (s : State) (pkg : Nat) : Nat :=
  match marketNow s pkg with
  | [] =>
    (match (liveMembers s (pkg / 8)).map fun x => svcWord s (pkg / 8 * 8 + x) 0xE000 8 with
     | [] => svcWord s pkg 0xE000 8
     | l :: r => r.foldl Nat.min l)
  | m :: r => r.foldl (fun l x => Nat.min l x.2.2.2) m.2.2.2

/-- What each live member asks, or its share of the limit where its message has not come. -/
def marketAsks (s : State) (pkg : Nat) : List Nat :=
  let ms := liveMembers s (pkg / 8)
  ms.map fun x =>
    match (marketNow s pkg).find? fun m => m.1 == x with
    | some m => m.2.1
    | none => marketLimit s pkg / ms.length

/-- The grant of a package for the next interval. -/
def grantOf (s : State) (pkg : Nat) : Nat :=
  let ms := liveMembers s (pkg / 8)
  (((ms.zip (grants (marketAsks s pkg) (marketLimit s pkg))).find? fun e => e.1 == pkg % 8).map fun e => e.2).getD 0

/-- Does a barrier's mask hold a core of quad `q` of a package (R49)? -/
def gangHolds (key : Nat) (b : Barrier) (pkg q : Nat) : Bool :=
  let n := key / 8388608
  let c := 16384 * pkg + 1024 * (q / 256) + 64 * (q / 16 % 16) + 2 * (q % 16)
  match keyScope key with
  | .quad => n == c && !b.mask.isEmpty
  | .die => n / 1024 == c / 1024 && ([c, c + 1, c + 32, c + 33].any fun x => b.mask.contains (x % 1024))
  | .pkg => pkgOf n == pkg && b.mask.contains (q / 256)
  | _ => pkgOf n == pkg && b.mask.contains (pkg % 8)

/-- Keys of a package's gangs: its barriers with EN (R49). -/
def gangsOf (s : State) (pkg : Nat) : List Nat :=
  (s.bars.filter fun e => pkgOf (e.1 / 8388608) == pkg && barEn e.2).map fun e => e.1

/-- The highest setting of a quad (R228). -/
def quadTop (s : State) (pkg q : Nat) : Nat := look 84 (pkgAt s pkg).maxClk q

/-- The common setting that a gang is given before any lowering: what the power manager chooses for the grant, raised by what
the gang's waits have saved in the interval before (R223), and held by every one of its quads (R228). -/
def gangWants (s : State) (pkg grant fresh k : Nat) : Nat :=
  let top := ((List.range 2048).filter fun q => gangHolds k (barAt s k) pkg q).foldl (fun m q => Nat.min m (quadTop s pkg q)) 84
  Nat.min top (Config.quadClock pkg (2048 + k) grant fresh + Config.creditSteps (look 0 (pkgAt s pkg).credits k))

/-- Steps by which gang number `i` of `n` is lowered at lowering `t`: the quads outside any gang are lowered first, by up to 84
steps, and then every gang by one step in turn (R223). -/
def gangLower (n i t : Nat) : Nat := (t - 84 + (n - 1 - i)) / n

/-- The setting of a quad at lowering `t`: of a quad outside any gang its own, else the least that its gangs ask for (R49). -/
def quadSetting (s : State) (pkg grant fresh t q : Nat) : Nat :=
  let ks := gangsOf s pkg
  let mine := ((List.range ks.length).zip ks).filter fun e => gangHolds e.2 (barAt s e.2) pkg q
  match mine.map fun e => gangWants s pkg grant fresh e.2 - gangLower ks.length e.1 t with
  | [] => Nat.min (quadTop s pkg q) (Config.quadClock pkg q grant fresh) - t
  | w :: r => r.foldl Nat.min w

def quadSettings (s : State) (pkg grant fresh t : Nat) : List Nat := (List.range 2048).map (quadSetting s pkg grant fresh t)

/-- The first of `n` numbers from `t` on that fits, or the one after them. -/
def firstFit (f : Nat → Bool) : Nat → Nat → Nat
  | 0, t => t
  | n + 1, t => if f t then t else firstFit f n (t + 1)

/-- How far the settings are lowered so that the draw stays within the grant (R223) and within 15 kW (R11). -/
def lowering (s : State) (pkg grant fresh : Nat) : Nat :=
  firstFit (fun t => decide (Config.wouldDraw pkg fresh (quadSettings s pkg grant fresh t) ≤ Nat.min 15000 grant))
    (84 + 84 * (gangsOf s pkg).length) 0

/-- Gangs of a package of which a context is parked in BWAIT. -/
def gangsWaiting (s : State) (pkg : Nat) : List Nat :=
  (gangsOf s pkg).filter fun k =>
    s.cores.any fun c => c.2.ctxs.any fun x => x.2.st == .parked && x.2.cause == .bwait && x.2.bwait.any fun w => w.key == k

/-- Energy that gangs save while contexts of theirs are parked in BWAIT (R223): those of which one has waited in the interval. -/
def gangCredits (s : State) (pkg fresh : Nat) : List (Nat × Nat) :=
  ((gangsOf s pkg).filter fun k => (pkgAt s pkg).waited.contains k || (gangsWaiting s pkg).contains k).map
    fun k => (k, (Config.energy pkg k fresh).toNat)

/-- DRAW of an interval: within 15 kW and, but for interval 0, which no grant was computed for, within its grant (R11, R222). -/
def drawOf (s : State) (pkg fresh : Nat) : Nat :=
  let most := if interval s pkg = 0 then 15000 else Nat.min 15000 (svcWord s pkg 0xE008 8)
  Nat.min most (Config.draw pkg fresh).toNat

/-- A package sends its message of interval `n`, with the draw of the interval before. -/
def sendAsk (s : State) (pkg n fresh draw : Nat) : State :=
  serviceCrier (setPkg s pkg { pkgAt s pkg with asked := true }) pkg 4 0
    [n % 4294967296, Nat.min 15000 (Config.ask pkg fresh).toNat, draw, svcWord s pkg 0xE000 8]

/-- The message of an interval that begins without one: interval 0, or the interval in which a package was admitted. Nothing
has been measured before it. -/
def firstAsk (s : State) (pkg : Nat) : State :=
  if !heard s pkg || (pkgAt s pkg).asked then s
  else
    let (f, s) := drawFree s
    sendAsk s pkg (interval s pkg) f 0

/-- One package ends its market interval with a grant, and sends its message of the next one, whose clocks what gangs have saved in
the interval raises (R223). A gang of which a context waits on has waited in the next one too. -/
def marketStep (s : State) (pkg grant : Nat) : State :=
  let n := interval s pkg + 1
  let (f, s) := drawFree s
  let draw := drawOf s pkg f
  let s := setPkg s pkg { pkgAt s pkg with
    credits := gangCredits s pkg f
    waited := gangsWaiting s pkg }
  let g := pkgAt s pkg
  let lic := g.licNext.getD (svcWord s pkg 0xE000 8)
  let t := lowering s pkg grant f
  let s := setPkg s pkg { g with
    market := g.market.filter fun m => m.2.1 == n % 4294967296
    licNext := none
    clocks := ((List.range 2048).zip (quadSettings s pkg grant f t)).filter fun e => e.2 != 84 }
  sendAsk (setSvc (setSvc (setSvc s pkg 0xE000 8 lic) pkg 0xE008 8 grant) pkg 0xE010 8 n) pkg n f draw

/-- Have the live members of a pod the same messages of the same interval? Each then reaches the same result (R222). -/
def marketAgrees (s : State) (pod : Nat) : Bool :=
  match (liveMembers s pod).map fun x => (interval s (8 * pod + x), marketNow s (8 * pod + x)) with
  | [] => true
  | a :: r => r.all fun b => b == a

/-- MARKET_INTERVAL: the interval ends once every live member has applied the same messages of it. -/
def marketEnd (s : State) (pod : Nat) : State :=
  if marketAgrees s pod then (liveMembers s pod).foldl (fun t x => marketStep t (8 * pod + x) (grantOf s (8 * pod + x))) s else s

def execMarketInterval (pod : Nat) (s : State) : Out := .next (marketEnd s pod)

/-! ## Energy (R224) -/

/-- Jobs of the activations and commands that a core holds; a halted context is charged to none (R300). -/
def liveJobs (k : Core) : List Nat :=
  (k.ctxs.filter fun x => x.2.st != .free && !x.2.halted).map (fun x => x.2.job) ++ k.copyq.map (fun c => c.job) ++
    k.dispq.map (fun c => c.job) ++ k.mill.inbox.map fun c => c.job

/-- Jobs that have had work in a package since the last update: those held then, those started since, and those held now. -/
def jobsOf (s : State) (pkg : Nat) : List Nat :=
  ((s.cores.filter fun e => pkgOf e.1 == pkg).flatMap fun e => e.2.work ++ liveJobs e.2).eraseDups

/-- ENERGY_UPDATE. -/
def energyUpdate (s : State) (pkg : Nat) : State :=
  let js := jobsOf s pkg
  let s := { s with cores := s.cores.map fun e => if pkgOf e.1 = pkg then (e.1, { e.2 with work := (liveJobs e.2).eraseDups }) else e }
  js.foldl (fun s j =>
    let (f, s) := drawFree s
    setSvc s pkg (0x100000 + 8 * j) 8 ((svcWord s pkg (0x100000 + 8 * j) 8 + (Config.energy pkg j f).toNat) % wordMod)) s

def execEnergyUpdate (pkg : Nat) (s : State) : Out := .next (energyUpdate s pkg)

/-! ## Boot and attestation (R225) -/

/-- Extend the measurement log by a stage's digest. -/
def extendLog (s : State) (pkg : Nat) (d : BitVec 512) : State :=
  let g := pkgAt s pkg
  setPkg s pkg { g with
    mlog := Config.shake256 (toBytes 64 g.mlog.toNat ++ toBytes 64 d.toNat)
    digests := g.digests ++ [d]
    bootFails := 0 }

/-- Start supervisor core `c` of a package at an entry, in supervisor mode and untranslated (R19). -/
def startSup (pkg : Nat) (entry : Word) (s : State) (c : Nat) : State :=
  let n := 16384 * pkg + 8192 + c
  let (act, s) := fresh s
  let s := setCore s n { coreAt s n with sptr := 0 }
  setCtx s n 0 { Ctx.reset n 0 with
    st := .running
    act := act
    sup := true
    pc := entry }

/-- The image's bytes in the in-package Granary, their granules full. -/
def placeImage (s : State) (pkg image : Nat) : State :=
  let bytes := Config.bootImage image
  let base := Config.bootBase image % 8796093022208
  if 8796093022208 < base + bytes.length then s
  else
    setFull { s with mem := Memory.putBytes s.mem (granKey pkg base) bytes } (granKey pkg base)
      ((base % 16 + bytes.length + 15) / 16) true

/-- BOOT, after power-on until an image has started: the image is checked, placed and measured, and the supervisor cores start
at its entry; or the failure is logged, the third as a fatal event, after which that image is not tried again. -/
def bootImage (s : State) (pkg image : Nat) : State :=
  let bytes := Config.bootImage image
  let g := pkgAt s pkg
  if dieDead s (16 * pkg + 8) || g.booted || g.bootHeld == some image then s
  else if Config.falconOk 0 bytes && Config.fuseOk image then
    let s := extendLog (placeImage s pkg image) pkg (Config.shake256 bytes)
    let s := setPkg s pkg { pkgAt s pkg with
      booted := true
      image := some image
      bootHeld := none }
    (List.range 32).foldl (startSup pkg (Config.bootEntry image)) s
  else
    let n := g.bootFails % 3 + 1
    blackBox (setPkg s pkg { g with
      bootFails := n
      bootHeld := if n = 3 then some image else none }) pkg 0x0100 4 (n == 3) 0 (BitVec.ofNat 64 image) (BitVec.ofNat 64 n)

def execBoot (pkg image : Nat) (s : State) : Out := .next (bootImage s pkg image)

/-- ATTESTATION_REQUEST: the log and its stage digests, signed over the nonce. -/
def attest (s : State) (n : Nat) (nonce : BitVec 512) : State :=
  let g := pkgAt s (pkgOf n)
  let msg := toBytes 64 g.mlog.toNat ++ (g.digests.flatMap fun d => toBytes 64 d.toNat) ++ toBytes 64 nonce.toNat
  if isSupCore n && coreExists n && !dieDead s (dieOf n) then
    setPkg s (pkgOf n) { g with attests := g.attests ++ [msg ++ Config.falconSign (pkgOf n) msg] }
  else s

def execAttestationRequest (core : Nat) (nonce : BitVec 512) (s : State) : Out := .next (attest s core nonce)

/-! ## Host ports (R226) -/

def hostWord (s : State) (pkg k : Nat) : Nat := svcWord s pkg (0xD000 + 8 * k) 8

/-- The message of a host write. -/
def hostMsg (s : State) (pkg k off : Nat) (data : List Byte) : Msg :=
  let w := hostWord s pkg k
  let dst := 16384 * pkg + 8192 + nbits w 48 5
  { kind := .host k
    cls := nbits w 56 6
    prio := 0
    narg := 2
    args := eightArgs [BitVec.ofNat 64 k, BitVec.ofNat 64 off]
    payload := data
    hdr := 0
    dest := coreAdr s dst dst
    src := serviceCore pkg
    ctx := 0
    act := 0
    dst := dst
    bulk := false
    part := 0
    inc := 0
    vec := zeroVec }

/-- HOST_WINDOW_WRITE: a whole aligned 256-byte write of an enabled port's window becomes a message. -/
def hostWrite (s : State) (pkg k off : Nat) (data : List Byte) : State :=
  if 16 ≤ k ∨ nbits (hostWord s pkg k) 63 1 = 0 ∨ 32768 ≤ off ∨ dieDead s (16 * pkg + 8) then s
  else if off % 256 ≠ 0 ∨ data.length ≠ 256 then
    let g := pkgAt s pkg
    setPkg s pkg { g with hostBad := g.hostBad + 1 }
  else
    let m := hostMsg s pkg k off data
    transmit s m.src m.dst .req 0 0 false (.msg m)

def execHostWindowWrite (pkg port off : Nat) (data : List (BitVec 8)) (s : State) : Out := .next (hostWrite s pkg port off data)

/-- HOST_WINDOW_READ: what a host reads of `n` bytes at an offset of an enabled port's window, in its response area; none outside
it. The machine does not change. -/
def hostRead (s : State) (pkg k w n : Nat) : Option (List Byte) :=
  if 16 ≤ k ∨ nbits (hostWord s pkg k) 63 1 = 0 ∨ dieDead s (16 * pkg + 8) ∨ w < 32768 ∨ 65536 < w + n then none
  else some (Memory.readBytes s.mem (sliceKey (serviceCore pkg) (0x300000 + 0x8000 * k + (w - 0x8000))) n)

/-- Is a message of a host port on its way? -/
def hostComing (s : State) (pkg : Nat) : Bool :=
  s.flight.any fun p => match p.body with | .msg m => (match m.kind with | .host _ => pkgOf m.dst == pkg | _ => false) | _ => false

/-- HOST_RETRY: what was refused is sent again, in its order. -/
def hostRetry (s : State) (pkg : Nat) : State :=
  if hostComing s pkg then s
  else
    let g := pkgAt s pkg
    g.hostHeld.foldl (fun s m => transmit s m.src m.dst .req 0 0 false (.msg m)) (setPkg s pkg { g with hostHeld := [] })

def execHostRetry (pkg : Nat) (s : State) : Out := .next (hostRetry s pkg)

/-! ## Background work (R228) -/

/-- Scrubs are accesses that change neither bytes nor full/empty bits. -/
def execSramScrub (_core : Nat) (s : State) : Out := .next s
def execLpddr6Scrub (_pkg : Nat) (s : State) : Out := .next s

/-- A report of the service die. -/
def report (s : State) (pkg : Nat) (clear : Bool) : State :=
  let (f, s) := drawFree s
  let g := pkgAt s pkg
  setPkg s pkg { g with telem := (if clear then [] else g.telem) ++ [Config.telemetry pkg f] }

/-- TELEMETRY: the report that goes to the supervisor; AGEING_MONITOR adds a quad's monitors to the next one. -/
def execTelemetry (pkg : Nat) (s : State) : Out := .next (report s pkg true)
def execAgeingMonitor (pkg _quad : Nat) (s : State) : Out := .next (report s pkg false)

/-- MARGIN_REPLAN: quads that do not hold 3.3 GHz have their highest setting lowered, from the next market interval on. -/
def marginReplan (s : State) (pkg : Nat) : State :=
  let (f, s) := drawFree s
  let top (q : Nat) : Nat := Nat.min (quadTop s pkg q) (Config.topClock pkg q f)
  setPkg s pkg { pkgAt s pkg with maxClk := ((List.range 2048).map fun q => (q, top q)).filter fun e => e.2 != 84 }

def execMarginReplan (pkg : Nat) (s : State) : Out := .next (marginReplan s pkg)

/-! ## Fatal events (R229) -/

/-- POWER_LIMIT: a fatal event that freezes the black box. -/
def powerLimit (s : State) (pkg : Nat) : State :=
  if (pkgAt s pkg).dead then s else blackBox s pkg 0x0102 4 true 0 0 0

def execPowerLimit (pkg : Nat) (s : State) : Out := .next (powerLimit s pkg)

/-! ## Memory errors (R214) -/

/-- Does the operation read what its home holds? -/
def AccOp.reads (o : AccOp) : Bool :=
  o.isLoad || (match o with | .amo .. => true | .cas _ => true | .cntadd => true | .cntarm => true | .enq => true | .deq => true | .mbtake => true | _ => false)

/-- The physical address that a read meets: an offset into its package's Granary, or the access's own address. -/
def physAdr (s : State) (a : Access) : Word :=
  match placeOf s a with
  | .ok (.gran g voff) =>
    (match accView s a (.gran g voff) a.op.span true false with
     | .ok v => BitVec.ofNat 64 (v.key - granKey g 0)
     | .bad .. => a.adr)
  | _ => a.absolute s

/-- An access reads data with an uncorrectable error at its home: nothing is applied, and its context will be held. -/
def failRead (s : State) (a : Access) (stamp : Vec16) (ord : Nat) : State :=
  let src := match placeOf s a with | .ok (.gran ..) => 2 | _ => 0
  let s' := boxMcheck s a.home src (physAdr s a)
  settle s' a stamp ord (failReply s' a fMCHECK (physAdr s a)) false

/-- The same of access `k` that its home holds: one that waits for its data reads it only when it may be applied. -/
def heldError (s : State) (k : Nat) : State :=
  match s.held[k]? with
  | none => s
  | some h =>
    if !h.acc.op.reads || (h.why == .full && !ready s h) then s
    else failRead { s with held := s.held.eraseIdx k } h.acc h.stamp h.order

/-- An access on its way, or with a number beyond those one that its home holds, reads data with an uncorrectable error. -/
def dataError (s : State) (k : Nat) : State :=
  if s.flight.length ≤ k then heldError s (k - s.flight.length)
  else
  match takeAt s k with
  | .yes p =>
    (match p.body with
     | .access a =>
       let s' := moveFlow (removeAt s k) p
       if !a.op.reads || !mayApply s' a then s
       else if stale s p then forgetKept s' p
       else failRead s' a p.stamp s'.serial
     | _ => s)
  | _ => s

/-- MCHECK of an engine of core `n`, for the context that issued the command. -/
def engCheck (s : State) (n c : Nat) : State :=
  boxMcheck (supMessage s n c fMCHECK false true (coreAdr s n n) noticePc) n 1 (coreAdr s n n)

/-- An uncorrectable error in the state of a service die is fatal: the black box freezes (R214, R229). -/
def serviceError (s : State) (pkg : Nat) : State :=
  if (pkgAt s pkg).dead then s else blackBox s pkg fMCHECK 4 true (unitOf (serviceCore pkg)) 0 0

/-- The oldest command of a Mill fails; its peers' shares of a gang command are done. -/
def millError (s : State) (n code : Nat) : State :=
  match (coreAt s n).mill.inbox with
  | [] => s
  | c :: _ =>
    let e := engOf c.core c.ctx c.part c.supr c.vec
    let peers := if c.gang.isSome then (quadCores n).filter fun k => k != n else []
    let ready := peers.all fun k => ((coreAt s k).mill.inbox.head?).any fun x => x.gang == c.gang
    if !ready then s
    else
      match millShares c e peers s [] with
      | .error _ => s
      | .ok (t, _) =>
        let o := millFail t (coreAt t n).mill (c.fn.toNat % 16) (c.c % 4) 0 (.inr code)
        let t := setCore t n { coreAt t n with mill := { o.mill with inbox := o.mill.inbox.drop 1 } }
        match engComplete t e c.cadr c.t stENGERR 0 code none with
        | .error _ => s
        | .ok t => engCheck ((quadCores n).foldl (fun t k => wakeAll t k .unit) t) n c.ctx

def copyError (s : State) (n code : Nat) : State :=
  match (coreAt s n).copyq with
  | [] => s
  | c :: r =>
    match copyFail s (engOf n c.ctx c.part c.supr c.vec) c code none with
    | .over t => engCheck (wakeAll (setCore t n { coreAt t n with copyq := r }) n .unit) n c.ctx
    | _ => s

def dispError (s : State) (n code : Nat) : State :=
  match (coreAt s n).dispq with
  | [] => s
  | c :: r =>
    if c.bad.isSome then s
    else engCheck (setCore s n { coreAt s n with dispq := { c with bad := some (code, 0, 0), started := true } :: r }) n c.ctx

/-- MEMORY_ERROR: in data that access `k` reads; in the state of an engine of core `k`, or in data that its command reads; or in
the state of the service die of package `k`. -/
def memError (s : State) (k : Nat) (u : ErrUnit) : State :=
  let (f, t) := drawFree s
  let code := (Config.errCode f).toNat
  match u with
  | .data => dataError s k
  | .mill => millError t k code
  | .copy => copyError t k code
  | .dispatch => dispError t k code
  | .service => serviceError s k

def execMemoryError (k : Nat) (u : ErrUnit) (s : State) : Out := .next (memError s k u)

/-! ## Loss of power (R215) -/

/-- Does a kept packet of a die that dies still tell somebody elsewhere of its loss: a row's contribution or data for a command of
another die (R216)? -/
def outlives (d : Nat) (p : Packet) : Bool :=
  match p.body with
  | .row r => dieOf r.core != d
  | .data r => dieOf r.core != d
  | _ => false

/-- A die's contexts, engines and interface are gone; what it had sent is on its way, and what is sent to it arrives no more:
its senders keep what its interface had taken and not passed on, until the die is declared out of reach. -/
def dropDie (s : State) (d : Nat) : State :=
  let taken := s.flight.filter fun p =>
    p.here && dieOf p.dst == d && dieOf p.src != d && (match p.body with | .msg _ => true | .row _ => true | _ => false)
  let s := { s with
    cores := s.cores.filter fun e => dieOf e.1 != d
    held := s.held.filter fun h => dieOf h.acc.home != d
    flight := s.flight.filter fun p => !(p.near && dieOf p.dst == d)
    keptReq := (s.keptReq.filter fun (p : Packet) => dieOf p.src != d || outlives d p) ++ taken.map fun (p : Packet) => { p with here := false }
    keptRep := s.keptRep.filter fun p => dieOf p.src != d }
  let there (p : Packet) : Bool :=
    s.flight.any fun q => q.seq == p.seq && q.net == p.net && dieOf q.src == dieOf p.src && dieOf q.dst == dieOf p.dst
  let again := s.keptReq.filter fun p => dieOf p.dst == d && !there p
  setDie { s with flight := s.flight ++ again } d { Die.reset with dead := true }

/-- POWER_LOSS: of one die of a package, or of all of it for a number that is no die's. A live service die opens a generation
for the bridges that are gone. -/
def powerLoss (s : State) (pkg die : Nat) : State :=
  if die < 9 then
    let s := dropDie s (16 * pkg + die)
    if (pkgAt s pkg).dead ∨ die = 8 then s else queueGen s pkg 0
  else
    let s := (List.range 9).foldl (fun s d => dropDie s (16 * pkg + d)) s
    setPkg s pkg { pkgAt s pkg with dead := true, queue := [] }

def execPowerLoss (pkg die : Nat) (s : State) : Out := .next (powerLoss s pkg die)

/-- POWER_ON_RESET (R62). -/
def execPowerOnReset (s : State) : Out := .next (powerOn s)

end Sys2Proof.Machine
end

