-- ==== Sys2Proof/Machine/ControlFlow.lean ====
section
/-! DEFINITION. Sys2Proof/Machine/ControlFlow.lean: branches, jumps, loops, NOP, END and TRAP. -/

namespace Sys2Proof.Machine

/-- A conditional branch (R261). -/
def branch (s : State) (len : Nat) (c : Bool) (off : Word) : Out :=
  if c then jumpChecked s 0 (target s off) else done 0 len s

def execBeqz (d : Reg) (o : BitVec 5) (s : State) : Out := branch s 2 (xr s d == 0) (sext5w o)
def execBnez (d : Reg) (o : BitVec 5) (s : State) : Out := branch s 2 (xr s d != 0) (sext5w o)
def execBeq (a b : Reg) (o : BitVec 12) (s : State) : Out := branch s 4 (xr s a == xr s b) (o.signExtend 64)
def execBne (a b : Reg) (o : BitVec 12) (s : State) : Out := branch s 4 (xr s a != xr s b) (o.signExtend 64)
def execBlt (a b : Reg) (o : BitVec 12) (s : State) : Out := branch s 4 ((xr s a).slt (xr s b)) (o.signExtend 64)
def execBge (a b : Reg) (o : BitVec 12) (s : State) : Out := branch s 4 (!(xr s a).slt (xr s b)) (o.signExtend 64)
def execBltu (a b : Reg) (o : BitVec 12) (s : State) : Out := branch s 4 ((xr s a).ult (xr s b)) (o.signExtend 64)
def execBgeu (a b : Reg) (o : BitVec 12) (s : State) : Out := branch s 4 (!(xr s a).ult (xr s b)) (o.signExtend 64)

def execJ (o : BitVec 25) (s : State) : Out := jumpChecked s 0 (target s (o.signExtend 64))
def execJal (o : BitVec 25) (s : State) : Out := jumpLinked s 0 (target s (o.signExtend 64)) 1
def execJrShort (a : Reg) (s : State) : Out := jumpChecked s 0 (xr s a)
def execJr (st : Stall) (a : Reg) (s : State) : Out := jumpChecked s st (xr s a)
def execJalr (st : Stall) (d a : Reg) (s : State) : Out := jumpLinked s st (xr s a) d

/-- LOOP (R307): the end offset is unsigned. -/
def execLoop (st : Stall) (a : Reg) (i : BitVec 13) (s : State) : Out :=
  let t := me s
  if i = 0 then
    if a ≠ 0 then supFault s fRESFIELD 0
    else done st 4 (setMe s { t with loops := t.loops.drop 1 })
  else if i.toNat < 3 then supFault s fRESFIELD 0
  else if xr s a = 0 then .next (jumpTo s st (t.pc + 2 * i.setWidth 64))
  else if 2 ≤ t.loops.length then supFault s fRESFIELD 0
  else done st 4 (setMe s { t with loops := ⟨xr s a, t.pc + 4, t.pc + 2 * i.setWidth 64⟩ :: t.loops })

def execNop (st : Stall) (s : State) : Out := done st 4 s

/-- The core that a slice address of the issuer names. -/
def adrCore (s : State) (n : Nat) (a : Word) : Option Nat :=
  (pkgFor s ⟨n, 0, false, false, partNum s n, 0⟩ (bitsOf a 52 10)).map fun g => 16384 * g + bitsOf a 38 14

/-- The empty reply of R27: it releases the requester's reservation. -/
def emptyReply (s : State) : State :=
  let t := me s
  let n := s.cur.core
  match adrCore s n t.rplyadr with
  | none => s
  | some dst =>
    let m : Msg :=
      { kind := .empty (bitsOf t.rplyadr 0 23)
        cls := 0
        prio := 0
        narg := 0
        args := eightArgs []
        payload := []
        hdr := 0
        dest := coreAdr s n dst
        src := n
        ctx := s.cur.ctx
        act := t.act
        dst := dst
        bulk := false
        part := partNum s n
        inc := partInc s (pkgOf n) (partNum s n)
        vec := zeroVec }
    transmit s n dst .rply m.part m.inc false (.msg m)

/-- END (R286): it waits for outstanding replies, sends the empty reply that is owed, and frees the context. -/
def endActivation (s : State) : Out :=
  let t := me s
  if !t.rslots.isEmpty then .next (parkHere s .reply)
  else
    let s := if t.owes && !t.replied then emptyReply s else s
    let k := myCore s
    let s := setMyCore s { k with gaussq := k.gaussq.filter fun c => c != s.cur.ctx }
    .next (freeContext s s.cur.core s.cur.ctx)

def execEndShort (s : State) : Out := endActivation s
def execEndAct (_ : Stall) (s : State) : Out := endActivation s

/-- TRAP (R341): it waits for earlier loads, and then traps. -/
def execTrap (_ : Stall) (a : Reg) (s : State) : Out :=
  if loadsDone (me s) then upcall s fTRAPINSN (xr s a) 4 else .next (parkHere s .reply)

end Sys2Proof.Machine
end

