-- ==== Sys2Proof/Machine/MemOps.lean ====
section
/-! DEFINITION. Sys2Proof/Machine/MemOps.lean: loads, stores, transfers, full/empty instructions, atomics, counters, rings,
vector memory accesses, PUBLISH, mailboxes and tensor-map registers. -/

namespace Sys2Proof.Machine

/-- No place is forbidden. -/
def denyNone (_ : Place) : Bool := false
def denyMirror : Place → Bool
  | .mirror _ => true
  | _ => false
/-- Instruction store, control space and the Crier mirror. -/
def denySpecial : Place → Bool
  | .mirror _ => true
  | .istore .. => true
  | .ctl .. => true
  | _ => false
/-- Instruction store and control space. -/
def denyControl : Place → Bool
  | .istore .. => true
  | .ctl .. => true
  | _ => false

/-! ## Scalar loads and stores (R303, R304, R332, R333) -/

def scalarLoad (s : State) (st : Stall) (len : Nat) (t : Reg) (adr : Word) (n : Nat) (q : Qual) : Out :=
  let a := { newAccess s (.load q n) adr len with dest := xCode t }
  access s st len n n false true false true (if q = .consume then denyMirror else denyNone) a
    (if q = .plain then none else some .fullEmpty)

/-- The alignment check of a store: a size that an instruction store does not take is MISALIGN at every address. -/
def storeForm (s : State) (adr : Word) (n : Nat) : Nat :=
  if !mbzOk adr then fRESFIELD
  else if adr.toNat % n ≠ 0 ∨ (isIstoreAdr s.cur.core adr && n != 2 && n != 4) then fMISALIGN
  else 0

def scalarStore (s : State) (st : Stall) (len : Nat) (t : Reg) (adr : Word) (n : Nat) (q : Qual) : Out :=
  let a := { newAccess s (.store q n) adr len with val := (xr s t).setWidth 1024 }
  let c := storeForm s adr n
  if c ≠ 0 then .next (faultOf s c adr len)
  else accessAt s st len n false true false denyMirror a (if q = .wait then some .fullEmpty else none)

def execLdDShort (d a : Reg) (s : State) : Out := scalarLoad s 0 2 d (xr s a) 8 .plain
def execStDShort (d a : Reg) (s : State) : Out := scalarStore s 0 2 d (xr s a) 8 .plain
def execLd (st : Stall) (t b : Reg) (z : MSize) (o : BitVec 8) (s : State) : Out :=
  scalarLoad s st 4 t (memAdr s b z o) z.bytes .plain
def execLdw (st : Stall) (t b : Reg) (z : MSize) (o : BitVec 8) (s : State) : Out :=
  scalarLoad s st 4 t (memAdr s b z o) z.bytes .wait
def execLdc (st : Stall) (t b : Reg) (z : MSize) (o : BitVec 8) (s : State) : Out :=
  scalarLoad s st 4 t (memAdr s b z o) z.bytes .consume
def execSt (st : Stall) (t b : Reg) (z : MSize) (o : BitVec 8) (s : State) : Out :=
  scalarStore s st 4 t (memAdr s b z o) z.bytes .plain
def execStp (st : Stall) (t b : Reg) (z : MSize) (o : BitVec 8) (s : State) : Out :=
  scalarStore s st 4 t (memAdr s b z o) z.bytes .wait
def execStf (st : Stall) (t b : Reg) (z : MSize) (o : BitVec 8) (s : State) : Out :=
  scalarStore s st 4 t (memAdr s b z o) z.bytes .consume

/-! ## Atomics, counters and rings (R254, R258, R265, R268, R283) -/

def execAmo (st : Stall) (d a b : Reg) (n z : Bool) (o : AmoOp) (s : State) : Out :=
  let acc := { newAccess s (.amo o z) (xr s a) 4 with
    val := (xr s b).setWidth 1024
    dest := if n then noCode else xCode d }
  let w := if z then 8 else 4
  access s st 4 w w false true true false denySpecial acc none

def execCas (st : Stall) (d a b : Reg) (z : Bool) (s : State) : Out :=
  let acc := { newAccess s (.cas z) (xr s a) 4 with
    val := (xr s b).setWidth 1024
    val2 := xr s d
    dest := xCode d }
  let w := if z then 8 else 4
  access s st 4 w w false true true false denySpecial acc none

def execCntadd (st : Stall) (a b : Reg) (s : State) : Out :=
  let acc := { newAccess s .cntadd (xr s a) 4 with val := (xr s b).setWidth 1024 }
  access s st 4 16 16 true true true false denySpecial acc none

def execCntarm (st : Stall) (a b : Reg) (s : State) : Out :=
  if bitsOf (xr s b) 38 26 ≠ 0 then supFault s fRESFIELD (xr s a)
  else
    let acc := { newAccess s .cntarm (xr s a) 4 with val := (xr s b).setWidth 1024 }
    access s st 4 16 16 true true true false denySpecial acc (some .reply)

def execCntrd (st : Stall) (d a : Reg) (s : State) : Out :=
  let acc := { newAccess s .cntrd (xr s a) 4 with dest := xCode d }
  access s st 4 16 16 true true false true denySpecial acc none

def execEnq (st : Stall) (d a b : Reg) (s : State) : Out :=
  let acc := { newAccess s .enq (xr s a) 4 with
    val := (xr s b).setWidth 1024
    dest := xCode d }
  access s st 4 32 32 true true true false denySpecial acc none

def execDeq (st : Stall) (d a b : Reg) (s : State) : Out :=
  let acc := { newAccess s .deq (xr s a) 4 with
    dest := xCode d
    dest2 := xCode b }
  access s st 4 32 32 true true true false denySpecial acc none

/-! ## GET and PUT (R297, R298) -/

/-- Does the local side of a transfer name the issuing core's slice? -/
def ownSide (s : State) (adr : Word) (load : Bool) : Option Place :=
  match resolve s (whoAmI s) adr load with
  | .ok (.slice n off) => if n = s.cur.core then some (.slice n off) else none
  | .ok (.priv off) => some (.priv off)
  | _ => none

/-- Do `n` bytes from an address cross a 64 KiB boundary? -/
def crosses64k (adr : Word) (n : Nat) : Bool := decide (65536 < adr.toNat % 65536 + n)

/-- The checks of GET and PUT up to PROTECT of the local side: the fault and its address. -/
def transferFault (g far near : Word) : Nat × Word :=
  let n := 16 * g.toNat
  if g.toNat = 0 ∨ 64 < g.toNat then (fRESFIELD, far)
  else if !mbzOk far ∨ isPrivAdr far then (fRESFIELD, far)
  else if !mbzOk near then (fRESFIELD, near)
  else if far.toNat % 16 ≠ 0 ∨ crosses64k far n then (fMISALIGN, far)
  else if near.toNat % 16 ≠ 0 ∨ crosses64k near n then (fMISALIGN, near)
  else (0, 0)

def execGet (st : Stall) (d a b : Reg) (s : State) : Out :=
  let far := xr s a
  let near := xr s b
  let n := (xr s d).toNat
  let f := transferFault (xr s d) far near
  if f.1 ≠ 0 then .next (faultOf s f.1 f.2 4)
  else
    match ownSide s near false with
    | none => .next (faultOf s fPROTECT near 4)
    | some p =>
      let acc := { newAccess s (.get n) far 4 with
        adr2 := near
        dest := xCode d }
      let c := ownFault s { acc with adr := near } p (16 * n) false true
      if c ≠ 0 then .next (faultOf s c near 4) else accessAt s st 4 (16 * n) true false true denyControl acc none

/-- PUT reads its source at issue (R297), when no earlier access of the context to it is still to be applied. -/
def execPut (st : Stall) (d a b : Reg) (s : State) : Out :=
  let near := xr s a
  let far := xr s b
  let n := (xr s d).toNat
  let f := transferFault (xr s d) far near
  if f.1 ≠ 0 then .next (faultOf s f.1 f.2 4)
  else
    match ownSide s near true with
    | none => .next (faultOf s fPROTECT near 4)
    | some p =>
      let acc := { newAccess s (.put n) far 4 with
        adr2 := near
        dest := xCode d }
      match accView s acc p (16 * n) true false with
      | .bad c _ => .next (faultOf s c near 4)
      | .ok v =>
        if !mayTouch s s.cur.core s.cur.ctx s.serial (v.key, 16 * n) false then .next (parkHere s .reply)
        else
          withBytes s 4 near (16 * n) fun s bytes =>
            accessAt s st 4 (16 * n) false true false denySpecial { acc with num := s.serial, bytes := bytes } none

/-! ## FEQRY and FESET (R289, R290) -/

def execFeqry (st : Stall) (d a : Reg) (s : State) : Out :=
  let acc := { newAccess s .feqry (xr s a &&& ~~~(1023 : Word)) 4 with dest := xCode d }
  access s st 4 1 1024 true true false true denyControl acc none

def execFeset (st : Stall) (a b : Reg) (s : State) : Out :=
  let adr := xr s a
  let n := bitsOf (xr s b) 0 16
  if !mbzOk adr ∨ isPrivAdr adr ∨ bitsOf (xr s b) 16 47 ≠ 0 ∨ n = 0 ∨ 4096 < n then supFault s fRESFIELD adr
  else if adr.toNat % 16 ≠ 0 ∨ crosses64k adr (16 * n) then supFault s fMISALIGN adr
  else accessAt s st 4 (16 * n) false true false denySpecial (newAccess s (.feset n ((xr s b).getLsbD 63)) adr 4) none

/-! ## Vector loads and stores (R352-R354, R362) -/

def vectorLoad (s : State) (st : Stall) (v : VReg) (b : Reg) (p : PReg) (t : MTy) (o : BitVec 6) (q : Qual) : Out :=
  let a := { newAccess s (.vload q t) (vecAdr s b o) 4 with
    pred := pr s p
    lanes := pr s p
    dest := vCode v }
  access s st 4 128 128 false true false true (if q = .consume then denyMirror else denyNone) a
    (if q = .plain then none else some .fullEmpty)

def vectorStore (s : State) (st : Stall) (v : VReg) (b : Reg) (p : PReg) (t : MTy) (o : BitVec 6) (q : Qual) : Out :=
  let a := { newAccess s (.vstore q t) (vecAdr s b o) 4 with
    val := vr s v
    pred := pr s p
    lanes := pr s p }
  let adr := vecAdr s b o
  let c := storeForm s adr 128
  if c ≠ 0 then .next (faultOf s c adr 4)
  else accessAt s st 4 128 false true false denyMirror a (if q = .wait then some .fullEmpty else none)

def execVld (st : Stall) (v : VReg) (b : Reg) (p : PReg) (t : MTy) (o : BitVec 6) (s : State) : Out :=
  vectorLoad s st v b p t o .plain
def execVldw (st : Stall) (v : VReg) (b : Reg) (p : PReg) (t : MTy) (o : BitVec 6) (s : State) : Out :=
  vectorLoad s st v b p t o .wait
def execVldc (st : Stall) (v : VReg) (b : Reg) (p : PReg) (t : MTy) (o : BitVec 6) (s : State) : Out :=
  vectorLoad s st v b p t o .consume
def execVst (st : Stall) (v : VReg) (b : Reg) (p : PReg) (t : MTy) (o : BitVec 6) (s : State) : Out :=
  vectorStore s st v b p t o .plain
def execVstp (st : Stall) (v : VReg) (b : Reg) (p : PReg) (t : MTy) (o : BitVec 6) (s : State) : Out :=
  vectorStore s st v b p t o .wait
def execVstf (st : Stall) (v : VReg) (b : Reg) (p : PReg) (t : MTy) (o : BitVec 6) (s : State) : Out :=
  vectorStore s st v b p t o .consume

/-! ## Gather and scatter (R349, R350) -/

/-- The active lanes, lowest first. -/
def activeLanes (p : BitVec 32) : List Nat := (List.range 32).filter fun i => p.getLsbD i

/-- The access of lane `i` of a gather or scatter to its place. -/
def laneAccess (a : Access) (t : MTy) (i : Nat) (p : Place) : Access :=
  { a with
    adr := laneAdr a.adr2 a.idx t i
    pred := BitVec.ofNat 32 (2 ^ i)
    home := homeOf (whoOf a) p }

/-- The fault that an application answers with and its address; code 0 for none. -/
def appliedFault : Applied → Nat × Word
  | .answer _ r => (match r.ans with | .fault c x => (c, x) | _ => (0, 0))
  | _ => (0, 0)

/-- Can the core learn now what the home of an access would refuse? -/
def canJudge (s : State) (a : Access) : Bool := dieOf a.home == dieOf a.core || !unreachable s a.core (dieOf a.home)

/-- The fault that lane `i` of a gather or scatter meets before any access leaves, and its address; 0 for none. The PROTECT
conditions of R349 are judged for every home; PAGE is judged by each home when it applies the lane (R350), but for the core's own
places. -/
def laneFault (s : State) (a : Access) (t : MTy) (load : Bool) (i : Nat) : Nat × Word :=
  let adr := laneAdr a.adr2 a.idx t i
  let form := if load then formFault adr false (mtyBytes t) else storeForm s adr (mtyBytes t)
  if form ≠ 0 then (form, adr)
  else
    match resolve s (whoAmI s) adr load with
    | .bad c => (c, adr)
    | .ok p =>
      if !load && denyMirror p then (fPROTECT, adr)
      else
        let b := laneAccess a t i p
        let c := if canJudge s b then (appliedFault (if load then applyGath s b p t else applyScat s b p t)).1 else 0
        (if isOwn a.core p || c == fPROTECT then c else 0, adr)

/-- Send the accesses of the active lanes, lowest lane first. -/
def sendLanes (s : State) (a : Access) (t : MTy) (load : Bool) : List Nat → State
  | [] => s
  | i :: r =>
    let adr := laneAdr a.adr2 a.idx t i
    match resolve s ⟨a.core, a.ctx, a.supr, a.ldr, a.part, a.win⟩ adr load with
    | .bad _ => sendLanes s a t load r
    | .ok p => sendLanes (sendAccess s (laneAccess a t i p) p) a t load r

/-- Issue a gather or scatter. With no active lane it moves nothing. -/
def lanewise (s : State) (st : Stall) (a : Access) (t : MTy) (load : Bool) : Out :=
  let ls := activeLanes a.lanes
  match (ls.map (laneFault s a t load)).find? fun f => f.1 != 0 with
  | some f => .next (faultOf s f.1 f.2 4)
  | none =>
    if load && slotsFull (me s) then .next (parkHere s .reply)
    else if ls = [] then done st 4 s
    else
      let s := advance { s with serial := s.serial + 1 } st 4
      .next (sendLanes (setMe s (noteAccess (me s) a ls.length)) a t load ls)

def execVgath (st : Stall) (v : VReg) (b : Reg) (i : VReg) (p : PReg) (t : MTy) (s : State) : Out :=
  let a := { newAccess s (.gath t) (xr s b) 4 with
    adr2 := xr s b
    idx := vr s i
    pred := pr s p
    lanes := pr s p
    dest := vCode v }
  lanewise s st a t true

def execVscat (st : Stall) (v : VReg) (b : Reg) (i : VReg) (p : PReg) (t : MTy) (s : State) : Out :=
  let a := { newAccess s (.scat t) (xr s b) 4 with
    adr2 := xr s b
    idx := vr s i
    val := vr s v
    pred := pr s p
    lanes := pr s p }
  lanewise s st a t false

/-! ## PUBLISH (R318) -/

/-- A place that can lie in a shadow region: at the own core SHD is known at issue. -/
def denyUnshadowed (s : State) (p : Place) : Bool :=
  match p with
  | .gran .. => false
  | .slice n off =>
    n == s.cur.core &&
      (match findDesc s n off with
       | some i => nbits (descWord s n i 0) 51 1 == 0
       | none => true)
  | _ => true

def execPublish (st : Stall) (a : Reg) (s : State) : Out :=
  let acc := newAccess s .publish (xr s a) 4
  let c := formFault acc.adr true 1
  if c ≠ 0 then .next (faultOf s c acc.adr 4)
  else if !loadsDone (me s) then .next (parkHere s .reply)
  else
    accessAt s st 4 1 false true false (denyUnshadowed s) { acc with vec := releaseVec s } none

/-! ## Mailboxes (R153-R155) -/

/-- The fault of a mailbox address and its core: RESFIELD, MISALIGN or PROTECT in the order of R311; 0 for none. -/
def mailboxFault (s : State) (adr : Word) : Nat × Nat :=
  let off := bitsOf adr 0 23
  if !mbzOk adr || !isSliceAdr adr then (fRESFIELD, 0)
  else if 0x418000 ≤ off ∧ off < 0x41C000 ∧ off % 16 ≠ 0 then (fMISALIGN, 0)
  else
    match mailboxPlace s (whoAmI s) adr with
    | .ok (.ctl n o) => if ctlKind n o = .mailbox then (0, n) else (fPROTECT, 0)
    | _ => (fPROTECT, 0)

/-- MBPUT (R154, R311). From supervisor mode it posts to the mailbox of any core: no rule names a fault there (DESIGN CHOICE,
log 77). -/
def execMbput (st : Stall) (a b c : Reg) (s : State) : Out :=
  let adr := xr s a
  if fmtF32.isNan (bitsOf (xr s c) 32 32) then supFault s fRESFIELD adr
  else
    let f := mailboxFault s adr
    if f.1 ≠ 0 then supFault s f.1 adr
    else if !(me s).sup && f.2 != s.cur.core && partOf s f.2 != some (partNum s s.cur.core) then supFault s fPROTECT adr
    else
      let acc := { newAccess s .mbput adr 4 with
        val := (xr s b).setWidth 1024
        val2 := xr s c }
      issue s st 4 acc (.ctl f.2 (bitsOf adr 0 23)) none

def execMbtake (st : Stall) (a d : Reg) (s : State) : Out :=
  let adr := xr s a
  if d = 31 then supFault s fRESFIELD 0
  else
    let f := mailboxFault s adr
    if f.1 ≠ 0 then supFault s f.1 adr
    else if f.2 ≠ s.cur.core then supFault s fPROTECT adr
    else
      let acc := { newAccess s .mbtake adr 4 with
        dest := xCode d
        dest2 := xCode (d + 1) }
      issue s st 4 acc (.ctl f.2 (bitsOf adr 0 23)) none

/-- MBCFG empties every mailbox of the core. -/
def execMbcfg (st : Stall) (a : Reg) (s : State) : Out :=
  let v := xr s a
  if 3 < v.toNat then supFault s fRESFIELD 0
  else
    done st 4 (setMyCore s { myCore s with
      mbcfg := v.toNat
      mboxes := [] })

/-! ## Tensor-map registers (R244, R340) -/

def execTmset (st : Stall) (a : TReg) (b : Reg) (s : State) : Out :=
  let acc := { newAccess s .tmset (xr s b) 4 with dest := tmCode a }
  access s st 4 32 32 false true false true denyNone acc none

/-- The sum of two origins, field by field modulo 2^16. -/
def addOrigin (o d : BitVec 64) : BitVec 64 :=
  BitVec.ofNat 64 (packElems 16 ((List.range 4).map fun k => elemOf 16 k o.toNat + elemOf 16 k d.toNat))

def execTmadv (st : Stall) (a : TReg) (b : Reg) (s : State) : Out :=
  let t := me s
  done st 4 (setMe s (t.wtm a (t.rtm a) (addOrigin (t.rorg a) (xr s b))))

end Sys2Proof.Machine
end

