-- ==== Sys2Proof/Machine/Send.lean ====
section
/-! DEFINITION. Sys2Proof/Machine/Send.lean: SEND, SENDB, REPLY, SPAWN, SYSC and the class enables (R321, R325, R326, R330,
R336, R337, R339). -/

namespace Sys2Proof.Machine

/-- The core that a destination address names, if it exists (R325). -/
def destCore (s : State) (n : Nat) (a : Word) : Option Nat :=
  (if bitsOf a 62 2 = 1 then relCore n a else adrCore s n a).bind fun t => if coreExists t then some t else none

/-- A message of the running context. -/
def newMsg (s : State) (kind : MsgKind) (h dest : Word) (dst narg : Nat) (bulk : Bool) : Msg where
  kind := kind
  cls := hdrClass h
  prio := hdrPrio h
  narg := narg
  args := eightArgs (argsOf s narg)
  payload := []
  hdr := h
  dest := dest
  src := s.cur.core
  ctx := s.cur.ctx
  act := (me s).act
  dst := dst
  bulk := bulk
  part := partNum s s.cur.core
  inc := partInc s (pkgOf s.cur.core) (partNum s s.cur.core)
  vec := if podOf s.cur.core = podOf dst then releaseVec s else zeroVec

/-- A full send queue by the policy of the issuer's class (R38, R39). -/
def queueFull (s : State) (adr : Word) : Out :=
  if (me s).pol then upcall (countSqfull (giveSlot s s.cur.core s.cur.ctx) s.cur.core) fSQFULL adr 4
  else .next (parkHere s .send)

/-- The reply slot of the running context's request: the one that it holds, or a new one (R27). -/
def takeSlot (s : State) : Nat × State :=
  match (me s).resvAt with
  | some id => (id, s)
  | none =>
    let k := myCore s
    let id := newResv k
    (id, setMe (setMyCore s { k with resv := id :: k.resv, resvNext := id + 1 }) { me s with resvAt := some id })

/-- A request: the release, the reply slot, room in the queue, and then the payload (R326). A context that parks for room keeps
its slot. -/
def sendRequest (s : State) (st : Stall) (h dest : Word) (dst narg : Nat) (bulk : Bool) (pay : Option Word) : Out :=
  releasing s fun s =>
    if (me s).resvAt.isNone ∧ 48 ≤ (myCore s).resv.length then .next (parkHere s .send)
    else if sendFull (myCore s) ∧ (me s).pol = true then queueFull s dest
    else
      let r := takeSlot s
      if sendFull (myCore r.2) then queueFull r.2 dest
      else
        let go (s : State) (bytes : List Byte) : Out :=
          let m := { newMsg s (.request r.1) h dest dst narg bulk with payload := bytes }
          done st 4 (enqueueMsg (setMe s { me s with resvAt := none }) s.cur.core m)
        match pay with
        | none => go r.2 []
        | some a => withBytes r.2 4 a (hdrPlen h) go

/-- The fault of a header, a destination or a payload address by its form, and its address (R325, R198); code 0 for
none. -/
def sendForm (h a : Word) (pay : Option Word) : Nat × Word :=
  if !hdrOk h || !(bitsOf h 10 2 == 0 || bitsOf h 10 2 == 2) || (pay.isNone && hdrPlen h != 0) then (fRESFIELD, 0)
  else if !mbzOk a || !isSliceAdr a then (fRESFIELD, a)
  else
    match pay with
    | none => (0, 0)
    | some c =>
      if !mbzOk c then (fRESFIELD, c) else if hdrPlen h ≠ 0 ∧ c.toNat % 16 ≠ 0 then (fMISALIGN, c) else (0, 0)

/-- Do `n` bytes from a place run past the private window or the mirror that holds the first of them? -/
def runsPast (s : State) (c : Word) (n : Nat) : Place → Bool
  | .priv _ => decide ((me s).win < bitsOf c 0 17 + n)
  | .mirror off => decide (65536 < off + n)
  | _ => false

/-- The PROTECT or PAGE of a payload and its address, judged before R326 begins (R325); code 0 for none. Bytes that have been
read already are not judged again. -/
def payloadFault (s : State) (c : Word) (n : Nat) : Nat × Word :=
  if (me s).paybuf.isSome then (0, c)
  else
    match resolve s (whoAmI s) c true with
    | .bad f => (f, c)
    | .ok p =>
      let a := { newAccess s (.payload n) c 4 with home := homeOf (whoAmI s) p }
      if runsPast s c n p then (fPROTECT, c)
      else
        let f := if canJudge s a then appliedFault (applyPayload s a p n) else (0, c)
        if f.1 = fPROTECT ∨ f.1 = fPAGE then f else (0, c)

def sendCommon (s : State) (st : Stall) (a b : Reg) (pay : Option Word) : Out :=
  let h := xr s b
  let adr := xr s a
  let pay' := pay.bind fun c => if hdrPlen h = 0 then none else some c
  if (sendForm h adr pay).1 ≠ 0 then supFault s (sendForm h adr pay).1 (sendForm h adr pay).2
  else
    match destCore s s.cur.core adr with
    | none => supFault s fPROTECT adr
    | some dst =>
      let f := match pay' with | some c => payloadFault s c (hdrPlen h) | none => (0, 0)
      if f.1 ≠ 0 then .next (faultOf s f.1 f.2 4)
      else sendRequest s st h ((absAdr s s.cur.core adr).getD adr) dst (hdrNarg h) (bitsOf h 10 2 == 2) pay'

def execSend (st : Stall) (a b : Reg) (s : State) : Out := sendCommon s st a b none
def execSendb (st : Stall) (a b c : Reg) (s : State) : Out := sendCommon s st a b (some (xr s c))

/-- SYSC: a request to the supervisor core from a worker (R336); on a supervisor core the entry to supervisor mode (R337). -/
def execSysc (st : Stall) (a : Reg) (s : State) : Out :=
  let n := s.cur.core
  if isWorker n then
    if (xr s a).toNat / 64 ≠ 0 then supFault s fRESFIELD 0
    else
      let dst := supCoreOf s (pkgOf n) (partNum s n)
      sendRequest s st (BitVec.ofNat 64 ((xr s a).toNat % 64 + 512)) (coreAdr s n dst) dst 8 false none
  else if (myCore s).svec.getLsbD 0 then supFault s fMISALIGN (myCore s).svec
  else
    let t := me s
    .next (jumpTo (setMe s { t with epc := t.pc + 4, emode := t.sup, sup := true }) st (myCore s).svec)

/-- REPLY (R321): policy 0 always. -/
def execReply (st : Stall) (b : Reg) (s : State) : Out :=
  let h := xr s b
  let t := me s
  if !hdrOk h || hdrPlen h != 0 then supFault s fRESFIELD 0
  else if t.rplyadr = 0 ∨ t.replied then supFault s fRESFIELD 0
  else
    releasing s fun s =>
      if sendFull (myCore s) then .next (parkHere s .send)
      else
        let s' := setMe s { me s with replied := true }
        match adrCore s s.cur.core t.rplyadr with
        | none => done st 4 s'
        | some dst =>
          done st 4 (enqueueMsg s' s.cur.core
            (newMsg s (.reply (bitsOf t.rplyadr 0 23)) h (coreAdr s s.cur.core dst) dst (hdrNarg h) false))

/-- The record that SPAWN pushes (R40). -/
def spawnRecord (s : State) (h : Word) : Task where
  words := (BitVec.ofNat 64 (hdrClass h + 64 * hdrNarg h) :: eightArgs (argsOf s (hdrNarg h))).take 8
  src := s.cur.core
  vec := releaseVec s
  part := partNum s s.cur.core

/-- SPAWN (R330, R41). -/
def execSpawn (st : Stall) (b : Reg) (s : State) : Out :=
  let h := xr s b
  if !hdrOk h || hdrPlen h != 0 || bitsOf h 10 2 != 0 || decide (7 < hdrNarg h) then supFault s fRESFIELD 0
  else
    releasing s fun s =>
      let n := s.cur.core
      if (myCore s).deque.length < 256 then done st 4 (pushBottom s n (spawnRecord s h))
      else if sendFull (myCore s) then queueFull s 0
      else
        match overflowCore s n with
        | some m => done st 4 (pushBottom s m (spawnRecord s h))
        | none => upcall s fDQFULL 0 4

/-! ## Class enables (R339) -/

/-- Set or clear EN of every class of a mask. -/
def setMask (s : State) (n : Nat) (m : Word) (on : Bool) : State :=
  (List.range 64).foldl (fun s c => if m.getLsbD c then setEn s n c on else s) s

def execTagen (st : Stall) (a : Reg) (s : State) : Out := done st 4 (setMask s s.cur.core (xr s a) true)
def execTagdis (st : Stall) (a : Reg) (s : State) : Out := done st 4 (setMask s s.cur.core (xr s a) false)

/-- TAGPND reads %TAGPND as it stands when it is applied. -/
def execTagpnd (st : Stall) (d : Reg) (s : State) : Out :=
  done st 4 (varResult s (xCode d) .tagpnd ((tagPnd s s.cur.core).setWidth 1024) allBits)

end Sys2Proof.Machine
end

