-- ==== Sys2Proof/Machine/Sync.lean ====
section
/-! DEFINITION. Sys2Proof/Machine/Sync.lean: FENCE (R125, R128, R129, R133), BARR and BWAIT (R262) and the Crier instructions
(R163-R165, R276). -/

namespace Sys2Proof.Machine

/-! ## FENCE -/

/-- The generation a fence counts from: the one current when it was first executed (R128). -/
def fenceGen (s : State) : Nat :=
  match (me s).block with
  | .fence _ _ g => g
  | _ => (pkgAt s (pkgOf s.cur.core)).gen

/-- What a fence that completes does on a supervisor core: its caches and its translations (R19, R133). -/
def fenceCaches (s : State) (k : FKind) : State :=
  if !isSupCore s.cur.core then s
  else
    let c := myCore s
    match k with
    | .rel => s
    | .acq => setMyCore s { c with dcache := [] }
    | _ => setMyCore s { c with dcache := [], icache := [], stlb := [] }

/-- Does a completed fence release every earlier write at SYS (R129)? -/
def releasesSys (k : FKind) (c : Scope) : Bool := c == .sys && k != .acq

/-- FENCE: the context is not eligible until its condition holds; then the fence completes. -/
def execFence (k : FKind) (c : Scope) (s : State) : Out :=
  let g := fenceGen s
  if fenceMet s s.cur.core s.cur.ctx k c g then
    let t := me s
    let t := { t with block := .none, wgens := if releasesSys k c then [] else t.wgens }
    done 0 4 (fenceCaches (setMe s t) k)
  else .next (setMe s { me s with block := .fence k c g })

/-! ## The Crier's queue -/

/-- Queue a Crier message of the running context. -/
def queueCrier (s : State) (kind poff : Nat) (val : Word) (acc : Option Access) (vec : Vec16) : State :=
  crierMsg s s.cur.core kind poff val acc vec

/-- Room in the share, or the context parks. -/
def withShare (s : State) (f : State → Out) : Out :=
  if shareFull s (pkgOf s.cur.core) (partNum s s.cur.core) then .next (parkHere s .crier) else f s

/-- A Crier message whose value comes back into `d`: it holds a reply slot of kind Crier (R207). -/
def crierAsk (s : State) (st : Stall) (kind : Nat) (d : Reg) (adr val : Word) (vec : Vec16) : Out :=
  if slotsFull (me s) then .next (parkHere s .reply)
  else
    withShare s fun s =>
      let a := { newAccess s (.load .plain 8) adr 4 with dest := xCode d }
      let t := me s
      let s := setMe { s with serial := s.serial + 1 }
        { t with rslots := t.rslots ++ [⟨a.num, a.dest, noCode, 4, adr, false, 0, 0, 1, none⟩] }
      done st 4 (queueCrier s kind (bitsOf adr 0 16) val (some a) vec)

/-- The checks of a mirror address (R165). -/
def mirrorFault (a : Word) : Nat :=
  if bitsOf a 62 2 ≠ 3 ∨ bitsOf a 58 4 = 0 then fPROTECT
  else if !mbzOk a then fRESFIELD
  else if a.toNat % 8 ≠ 0 then fMISALIGN
  else 0

def execCrySt (st : Stall) (a b : Reg) (s : State) : Out :=
  let adr := xr s a
  if mirrorFault adr ≠ 0 then supFault s (mirrorFault adr) adr
  else
    releasing s fun s => withShare s fun s =>
      done st 4 (queueCrier s 0 (bitsOf adr 0 16) (xr s b) none (releaseVec s))

def execCryAdd (st : Stall) (d a b : Reg) (s : State) : Out :=
  let adr := xr s a
  if mirrorFault adr ≠ 0 then supFault s (mirrorFault adr) adr
  else releasing s fun s => crierAsk s st 1 d adr (xr s b) (releaseVec s)

def execCryMark (st : Stall) (d : Reg) (s : State) : Out := crierAsk s st 2 d 0 0 zeroVec

/-! ## Barriers -/

/-- Is the running context's member one of an enabled record's? -/
def barMine (s : State) (c : Scope) (key : Nat) : Bool :=
  let b := barAt s key
  barEn b && b.mask.contains (memberOf s.cur.core c)

/-- BARR: arrive, or stall until the phase ends, which then counts the arrival in the next one (`endPhase`). -/
def execBarr (st : Stall) (c : Scope) (i : BitVec 4) (s : State) : Out :=
  let n := s.cur.core
  let key := barKey n c i.toNat
  let m := memberOf n c
  if !barMine s c key then supFault s fBARNONMEM (barAdr s n key)
  else
    releasing s fun s =>
      let b := barAt s key
      let free (s : State) : State := setMe s { me s with block := .none }
      if arrivedNow b m then .next (setMe s { me s with block := .barr key b.phase st.toNat })
      else if c = .pod then withShare s fun s => done st 4 (issuePod (free s) n key (releaseVec s))
      else done st 4 (arrive (free s) key m (releaseVec s))

/-- What a BWAIT waits for: after a restore what it waited for when its context was saved (R263), else the phase of R47. -/
def waitOf (t : Ctx) (b : Barrier) (key m : Nat) (d : Reg) : BWait :=
  match t.bwait with
  | some w => if w.key = key ∧ w.member = m ∧ w.pc = t.pc then w else ⟨key, waitPhase b m, d, m, t.pc, none⟩
  | none => ⟨key, waitPhase b m, d, m, t.pc, none⟩

/-- A context waits in BWAIT on a gang's barrier, which the power manager credits at the interval's end (R223). -/
def noteGang (s : State) (n key : Nat) : State :=
  let g := pkgAt s (pkgOf n)
  if g.waited.contains key then s else setPkg s (pkgOf n) { g with waited := key :: g.waited }

/-- BWAIT: the outcome of the phase that the member last arrived in, or of the current one (R47). -/
def execBwait (st : Stall) (d : Reg) (c : Scope) (i : BitVec 4) (s : State) : Out :=
  let n := s.cur.core
  let key := barKey n c i.toNat
  let m := memberOf n c
  let b := barAt s key
  if !barMine s c key then supFault s fBARNONMEM (barAdr s n key)
  else
    let w := waitOf (me s) b key m d
    match (if w.ended.isSome then w.ended else phaseOver b w.member w.phase) with
    | some aborted =>
      let s := wrX s 1 d (if aborted then 1 else 0)
      done st 4 (setMe s { me s with
        bwait := none
        dep := if aborted then (me s).dep else vmax (me s).dep b.ovec })
    | none =>
      .next (setMe (noteGang s n key) { me s with
        st := .parked
        cause := .bwait
        bwait := some w })

end Sys2Proof.Machine
end

