-- ==== Sys2Proof/Machine/System.lean ====
section
/-! DEFINITION. Sys2Proof/Machine/System.lean: special registers (R107, R331), saving and restoring contexts (R277-R279),
translation invalidation (R364), modes (R287), HALT (R300) and RESUME (R202, R322, R365). -/

namespace Sys2Proof.Machine

/-! ## Special registers (R84, R86, R91, R107, R19, R287, R337) -/

/-- Energy charged to a job at its package (R224). -/
def jobEnergy (s : State) (n job : Nat) : Word := BitVec.ofNat 64 (svcWord s (pkgOf n) (0x100000 + 8 * job) 8)

/-- LIMIT of the current job (R189). -/
def myTapeLimit (s : State) : Nat := tapeLimit s (dieOf s.cur.core) (partNum s s.cur.core) (me s).job

/-- What SRD of a number returns; none for a number that names no register. -/
def srValue (s : State) (n : Nat) : Option Word :=
  let t := me s
  let k := myCore s
  let core := s.cur.core
  match n with
  | 0x000 => some (BitVec.ofNat 64 t.cls)
  | 0x001 => some t.srcadr
  | 0x002 => some t.rplyadr
  | 0x003 => some (BitVec.ofNat 64 s.cur.ctx)
  | 0x004 => some (coord s core)
  | 0x005 => some (BitVec.ofNat 64 (partNum s core))
  | 0x006 => some (t.round.setWidth 64)
  | 0x007 => some (t.sflags.setWidth 64)
  | 0x008 => some (if t.check then 1 else 0)
  | 0x009 => some (tagEn s core)
  | 0x00A => some (tagPnd s core)
  | 0x00B => some (BitVec.ofNat 64 (pkgAt s (pkgOf core)).gen)
  | 0x00C => some (jobEnergy s core t.job)
  | 0x00D => some (BitVec.ofNat 64 k.cycle)
  | 0x00E => some (BitVec.ofNat 64 (tapePos s (dieOf core) (partNum s core) t.job))
  | 0x00F => some (BitVec.ofNat 64 (myTapeLimit s))
  | 0x010 => some (BitVec.ofNat 64 t.fltcode)
  | 0x011 => some t.fltadr
  | 0x012 => some (BitVec.ofNat 64 t.fltctx)
  | 0x013 => some t.fltpc
  | 0x014 => some (t.seed.setWidth 64)
  | 0x015 => some (BitVec.ofNat 64 t.prio)
  | 0x016 => some (BitVec.ofNat 64 k.sqlim)
  | 0x017 => some (BitVec.ofNat 64 k.sqnote)
  | 0x018 => some ((laneOr t).setWidth 64)
  | 0x100 => some t.epc
  | 0x101 => some (if t.emode then 1 else 0)
  | 0x102 => some k.svec
  | 0x103 => some k.sptr
  | 0x104 => some (BitVec.ofNat 64 k.spart)
  | 0x105 => some (BitVec.ofNat 64 t.scause)
  | 0x106 => some t.stval
  | _ => none

/-- Is a number one of the supervisor-only registers, which user mode may not name (R331)? -/
def srPriv (s : State) (n : Nat) : Bool := decide (0x100 ≤ n) && decide (n < 0x200) && !(me s).sup

/-- Does %LANEF wait for the flags of vector stores that are still on their way (log 16)? -/
def lanesComing (s : State) (n : Nat) : Bool := n == 0x018 && (me s).acks.any fun u => u.vec

def execSrd (st : Stall) (d : Reg) (n : BitVec 12) (s : State) : Out :=
  if srPriv s n.toNat then supFault s fPRIV 0
  else
    match srValue s n.toNat with
    | none => supFault s fRESFIELD 0
    | some v => if lanesComing s n.toNat then .next (parkHere s .reply) else done st 4 (wrX s 1 d v)

/-- What a write of a special register comes to: the state after it, or a fault code. -/
inductive Written
  | ok (s : State)
  | bad (code : Nat)
deriving DecidableEq, Repr

/-- A checked write: RESFIELD unless the value is good. -/
def writeIf (c : Bool) (s : State) : Written := if c then .ok s else .bad fRESFIELD

/-- LIMIT of the current job: in its own record, or in the lowest free one (R189). DIE 8 has no table of limits: RESFIELD on
a supervisor core is a DESIGN CHOICE (log 77). -/
def writeTapeLimit (s : State) (v : Nat) : Written :=
  let n := s.cur.core
  let d := dieOf n
  let part := partNum s n
  let job := (me s).job
  let put (i : Nat) : Written :=
    let m := Memory.write s.mem (quotaKey d i) 8 (9223372036854775808 + 65536 * part + job)
    .ok { s with mem := Memory.write m (quotaKey d i + 8) 8 v }
  if !(me s).sup && !(me s).ldr then .bad fPROTECT
  else if isSupCore n || decide (8388608 ≤ v) then .bad fRESFIELD
  else
    match quotaRec s d part job with
    | some i => put i
    | none =>
      match quotaFree s d with
      | some i => put i
      | none => .bad fRESFIELD

/-- A write of a special register. Any frame is taken as %SPTR, beyond the in-package Granary too, and the first-level table
is then read there (DESIGN CHOICE, log 77); a nonzero bit outside [46:12] and [0] of it is RESFIELD, which R19 says of %SPART only
(DESIGN CHOICE, log 79). -/
def srWrite (s : State) (n : Nat) (w : Word) : Written :=
  let t := me s
  let k := myCore s
  let v := w.toNat
  match n with
  | 0x006 => writeIf (decide (v < 32) && decide (v % 8 ≤ 4)) (setMe s { t with round := BitVec.ofNat 5 v })
  | 0x007 => writeIf (decide (v < 4)) (setMe s { t with sflags := BitVec.ofNat 2 v })
  | 0x008 => writeIf (decide (v < 2)) (setMe s { t with check := v == 1 })
  | 0x00F => writeTapeLimit s v
  | 0x014 => writeIf (decide (v < 65536)) (setMe s { t with seed := if v = 0 then 1 else BitVec.ofNat 16 v })
  | 0x015 => writeIf (decide (v < 4)) (setMe s { t with prio := v })
  | 0x016 => writeIf (decide (1 ≤ v) && decide (v ≤ 32)) (setMyCore s { k with sqlim := v })
  | 0x017 => writeIf (decide (v < 64)) (setMyCore s { k with sqnote := v })
  | 0x100 => writeIf (v % 2 == 0) (setMe s { t with epc := w })
  | 0x101 => writeIf (decide (v < 2)) (setMe s { t with emode := v == 1 })
  | 0x102 => writeIf (v % 2 == 0) (setMyCore s { k with svec := w })
  | 0x103 => writeIf (nbits v 47 17 == 0 && nbits v 1 11 == 0) (setMyCore s { k with sptr := w, stlb := [] })
  | 0x104 => writeIf (decide (v ≤ 23)) (setMyCore s { k with spart := v })
  | _ => .bad fRESFIELD

def execSwr (st : Stall) (a : Reg) (n : BitVec 12) (s : State) : Out :=
  if srPriv s n.toNat then supFault s fPRIV 0
  else
    match srWrite s n.toNat (xr s a) with
    | .bad c => supFault s c 0
    | .ok t => done st 4 t

/-! ## Saving and restoring contexts -/

/-- Is a core's partition, in the issuer's package, bound to the issuing supervisor core (R18)? -/
def boundCore (s : State) (n : Nat) : Bool :=
  isWorker n && pkgOf n == pkgOf s.cur.core &&
    (partOf s n).any fun p => s.cur.core == supCoreOf s (pkgOf n) p

/-- The core that an absolute slice address names. -/
def sliceOf (s : State) (a : Word) : Option Nat := adrCore s s.cur.core a

/-- The target of CTXSV and CTXLD: its core and context, or the fault (R277). -/
def ctxTarget (s : State) (a : Word) : Nat ⊕ (Nat × Nat) :=
  if bitsOf a 62 2 ≠ 0 ∨ !mbzOk a ∨ bitsOf a 4 19 ≠ 0 then .inl fRESFIELD
  else
    match sliceOf s a with
    | none => .inl fPROTECT
    | some n => if boundCore s n then .inr (n, bitsOf a 0 4) else .inl fPROTECT

def execCtxsv (st : Stall) (a b : Reg) (s : State) : Out :=
  if !(me s).sup then supFault s fPRIV 0
  else if (xr s b).toNat / 2 ≠ 0 then supFault s fRESFIELD 0
  else
    match ctxTarget s (xr s a) with
    | .inl c => supFault s c (xr s a)
    | .inr (n, c) =>
      let t := ctxAt s n c
      let free (s : State) : State := if (xr s b) = 1 then freeContext s n c else s
      match t.st with
      | .held =>
        let w := tagPnd s n
        let p := BitVec.ofNat 64 (tapePos s (dieOf n) (partNum s n) t.job)
        let s := setCore s n { coreAt s n with gaussq := (coreAt s n).gaussq.filter fun x => x != c }
        done st 4 (free (wakeAll (saveCtx s n c w p) n .send))
      | .saved => done st 4 (free s)
      | _ => supFault s fRESFIELD (xr s a)

/-- May the image at `k` be restored at all (R279)? -/
def imageFits (s : State) (n k : Nat) : Bool :=
  let st := Memory.read s.mem k 1
  decide (1 ≤ st) && decide (st ≤ 3) && imageZero s.mem k &&
    (partOf s n).any fun p => Memory.read s.mem (k + 8) 2 == partInc s (pkgOf n) p

/-- An image of another place runs as nothing outstanding (R210). -/
def imageMoves (s : State) (k : Nat) : Bool :=
  Memory.read s.mem (k + 6) 1 == 0 && Memory.read s.mem (k + 1) 1 == 0 && Memory.read s.mem k 1 == 1

/-- What is known of the context that image `i` of a core was written from. -/
def pastOf (s : State) (m i : Nat) : Past := ((coreAt s m).past.find? fun p => p.slot == i).getD ⟨i, zeroVec, [], []⟩

/-- Is one of some stores not acknowledged? -/
def unacked (s : State) (nums : List Nat) : Bool :=
  let mine (b : Body) : Bool :=
    match b with
    | .access a => nums.contains a.num
    | .red r => nums.contains r.acc.num
    | .ack r => nums.contains r.acc.num
    | _ => false
  (s.flight.any fun p => mine p.body) || (s.keptReq.any fun p => mine p.body) || s.held.any fun h => nums.contains h.acc.num

/-- The context that takes image `i` of core `m`: a new activation with what its class gives at this core (log 29). It has seen what
the context of the image and the home of the save area have, and its writes count as the context's own (R118, R120, R129). -/
def movedCtx (s : State) (n m i c cls act : Nat) : Ctx :=
  let e := classWord s n cls
  let p := pastOf s m i
  { ctxAt s n c with
    act := act
    dep := if podOf m = podOf n then vmax p.dep (dieAt s (dieOf m)).merged else zeroVec
    wgens := p.wgens
    bwait := none
    job := nbits e 48 16
    win := classWin e
    pol := nbits e 43 1 == 1
    rslots := []
    acks := [] }

/-- Restore image `i` of core `m`, which stands at `k`; engines come first (R208, R279). -/
def restoreCtx (s : State) (n m i c k : Nat) (own : Bool) : State :=
  let s := restoreEngines s n
  if own then setCtx s n c (readImage s.mem k (ctxAt s n c))
  else
    let (act, s) := fresh s
    let t := readImage s.mem k (movedCtx s n m i c (Memory.read s.mem (k + 2) 1 % 64) act)
    setCtx (noteWork s n t.job) n c t

/-- The image slot that x[b] of CTXLD names: its core and number, or the fault: PROTECT for a core of another supervisor's partition
(R277), RESFIELD for one of another partition of the issuer's (R210). -/
def imageTarget (s : State) (n : Nat) (a : Word) : Nat ⊕ (Nat × Nat) :=
  if bitsOf a 62 2 ≠ 0 ∨ !mbzOk a then .inl fRESFIELD
  else
    match sliceOf s a with
    | none => .inl fPROTECT
    | some m =>
      let off := bitsOf a 0 23
      let base := saveBase s m
      if !isWorker m then .inl fPROTECT
      else if off < base ∨ (off - base) % 4608 ≠ 0 ∨ base + 4608 * 16 ≤ off then .inl fMISALIGN
      else if partOf s m ≠ partOf s n then .inl (if boundCore s m then fRESFIELD else fPROTECT)
      else .inr (m, (off - base) / 4608)

/-- CTXLD (R277, R279, R210). A context that moves waits until the stores of the context that its image was written from are
acknowledged, so that they stand before its own (R118, R125). -/
def execCtxld (st : Stall) (a b : Reg) (s : State) : Out :=
  if !(me s).sup then supFault s fPRIV 0
  else
    match ctxTarget s (xr s a) with
    | .inl f => supFault s f (xr s a)
    | .inr (n, c) =>
      match imageTarget s n (xr s b) with
      | .inl f => supFault s f (xr s b)
      | .inr (m, i) =>
        let k := imageKey s m i
        let own := m == n && i == c
        let fits := imageFits s n k &&
          (if own then (ctxAt s n c).st == .saved else (ctxAt s n c).st == .free && imageMoves s k)
        if !fits then supFault s fRESFIELD (xr s b)
        else if !own && unacked s (pastOf s m i).nums then .next (parkHere (setMe s { me s with redo := true }) .unit)
        else done st 4 (restoreCtx (setMe s { me s with redo := false }) n m i c k own)

/-! ## XINV -/

/-- Remove a partition's entries that cover an offset, or all of them, in every agent of a package. -/
def dropTlb (s : State) (pkg part voff : Nat) (all : Bool) : State :=
  (List.range 8).foldl (fun s i =>
    let d := 16 * pkg + i
    let k := dieAt s d
    setDie s d { k with
      tlb := k.tlb.filter fun t => !(t.part == part && (all || (decide (t.base ≤ voff) && decide (voff < t.base + t.size)))) }) s

/-- The accesses translated by a partition's entries of a package that cover an offset, or by any of them, and not yet applied
(R68, R364): those held for their full/empty condition, and contributions on their way to their engine. -/
def translatedBy (s : State) (pkg part voff : Nat) (all : Bool) : List Nat :=
  let covers (a : Access) : Bool := a.ptes.any fun e => all || (decide (e.1 ≤ voff) && decide (voff < e.1 + pageBytes e.2))
  (s.held.filterMap fun h =>
    if h.acc.part == part && pkgOf h.acc.home == pkg && covers h.acc then some h.acc.num else none) ++
  s.flight.filterMap fun p =>
    match p.body with | .red r => if r.acc.part == part && r.die / 16 == pkg then some r.acc.num else none | _ => none

/-- Accesses of some numbers that are still held or on their way to an engine. -/
def stillOpen (s : State) (nums : List Nat) : List Nat :=
  nums.filter fun i =>
    (s.held.any fun h => h.acc.num == i) ||
      s.flight.any fun p => match p.body with | .red r => r.acc.num == i | _ => false

/-- XINV (R364): the issuer's earlier stores first; then the entries go, once, and it waits until what used them is applied. -/
def execXinv (st : Stall) (a b : Reg) (s : State) : Out :=
  let adr := xr s a
  let w := (xr s b).toNat
  let part := w % 32
  if !(me s).sup then supFault s fPRIV 0
  else if !isGranAdr adr then supFault s fRESFIELD adr
  else if nbits w 5 3 ≠ 0 ∨ w / 512 ≠ 0 ∨ 23 < part then supFault s fRESFIELD 0
  else if !partEn s (pkgOf s.cur.core) part || s.cur.core != supCoreOf s (pkgOf s.cur.core) part then supFault s fPROTECT 0
  else
    match physPkg s (pkgOf s.cur.core) part (bitsOf adr 52 10) with
    | none => supFault s fPROTECT adr
    | some g =>
      if !loadsDone (me s) || !(me s).acks.isEmpty then .next (parkHere s .reply)
      else
        let voff := bitsOf adr 0 52
        let all := nbits w 8 1 == 1
        let (nums, s) :=
          match (me s).xinv with
          | some l => (stillOpen s l, s)
          | none => (stillOpen s (translatedBy s g part voff all), dropTlb s g part voff all)
        if nums = [] then done st 4 (setMe s { me s with xinv := none, redo := false })
        else
          .next (parkHere (setMe s { me s with
            xinv := some nums
            redo := true }) .unit)

/-! ## Modes -/

def execEret (st : Stall) (s : State) : Out := if (me s).sup then returnFrom s st else supFault s fPRIV 0

/-- HALT (R300): the context goes on at the next instruction when its core accepts something. -/
def execHalt (st : Stall) (s : State) : Out :=
  if (me s).sup then .next (parkHere (advance s st 4) .halt) else supFault s fPRIV 0

/-! ## RESUME -/

/-- The kept access is outstanding again: nothing of it has come back. -/
def Ctx.again (t : Ctx) (num parts : Nat) : Ctx :=
  { t with
    rslots := t.rslots.map fun r => if r.num = num then { r with left := parts, flt := none, data := 0, mask := 0 } else r
    acks := t.acks.map fun u => if u.num = num then { u with left := parts, flt := none } else u }

/-- Send a kept access again, unchanged (R365, R350). -/
def resend (s : State) (a : Access) : State :=
  let t := ctxAt s a.core a.ctx
  match a.op with
  | .gath ty => sendLanes (setCtx s a.core a.ctx (t.again a.num (activeLanes a.lanes).length)) a ty true (activeLanes a.lanes)
  | .scat ty => sendLanes (setCtx s a.core a.ctx (t.again a.num (activeLanes a.lanes).length)) a ty false (activeLanes a.lanes)
  | _ =>
    let s := setCtx s a.core a.ctx (t.again a.num 1)
    match placeOf s a with
    | .bad c => deliver s ⟨a, .fault c a.adr, 0, [], zeroVec⟩
    | .ok p => sendAccess s { a with home := homeOf (whoOf a) p } p

/-- The plain form of a load: what TIMEOUT's skip reads changes no full/empty bit (R202). -/
def AccOp.plain : AccOp → AccOp
  | .load _ n => .load .plain n
  | .vload _ t => .vload .plain t
  | op => op

/-- What one access reads, aborted granules included. -/
def contents (s : State) (a : Access) : VWord :=
  match placeOf s a with
  | .bad _ => 0
  | .ok p =>
    match applyAt { s with aborted := [] } { a with op := a.op.plain } zeroVec p with
    | .answer _ r => (match r.ans with | .data v => v &&& r.mask | _ => 0)
    | _ => 0

/-- The same for every lane of a gather. -/
def contentsAll (s : State) (a : Access) : VWord :=
  match a.op with
  | .gath t =>
    (activeLanes a.lanes).foldl (fun v i =>
      v ||| contents s { a with adr := laneAdr a.adr2 a.idx t i, pred := BitVec.ofNat 32 (2 ^ i) }) 0
  | _ => contents s a

/-- Bits of its destination that a kept access would have written. -/
def keptMask (a : Access) : VWord :=
  match a.op with
  | .vload .. => laneBits a.lanes
  | .gath _ => laneBits a.lanes
  | _ => allBits

/-- TIMEOUT's skip of a GET: its destination granules take what the source granules hold. -/
def skipGet (s : State) (a : Access) (n : Nat) : State :=
  match placeOf s a with
  | .bad _ => s
  | .ok p =>
    match applyAt { s with aborted := [] } a zeroVec p with
    | .answer _ r => putGranules s (getKey s a (16 * n)) r.bytes
    | _ => s

/-- The skip result of a kept access (R202): its destination is zero, or the contents after TIMEOUT; nothing else is
applied. -/
def skipKept (s : State) (a : Access) (code : Nat) : State :=
  let t := ctxAt s a.core a.ctx
  let v : VWord := if code = fTIMEOUT then contentsAll s a else 0
  let put (t : Ctx) (d : Nat) (v : VWord) : Ctx := if d = noCode then t else t.putNow d v (keptMask a)
  let s :=
    match a.op with
    | .get n => if code = fTIMEOUT then skipGet s a n else s
    | _ => s
  setCtx s a.core a.ctx (put (put (t.drop a.num) a.dest v) a.dest2 (v >>> 64))

/-- RESUME of context `c` of the issuing core, parked by an upcall. -/
def resumeCtx (s : State) (m : RMode) (c : Nat) : State :=
  let n := s.cur.core
  let t := ctxAt s n c
  if t.st ≠ .parked ∨ t.cause ≠ .upcall then s
  else
    let k := coreAt s n
    let s := setCore s n { k with upcalls := k.upcalls.filter fun u => !(u.ctx == c && u.pc != noticePc) }
    let run (t : Ctx) : Ctx :=
      { t with
        st := .running
        cause := .none
        awaits := none
        late := false
        kept := none }
    match t.kept, m with
    | some a, .retry => resend (setCtx s n c (run t)) a
    | some a, .skip => skipKept (setCtx s n c (run t)) a t.fcode
    | none, .retry => setCtx s n c (run t)
    | none, .skip => setCtx s n c ((run t).goto (t.pc + BitVec.ofNat 64 t.flen))

def execResume (st : Stall) (m : RMode) (a : Reg) (s : State) : Out :=
  let x := (xr s a).toNat
  if x / 16 ≠ 0 then supFault s fRESFIELD 0 else done st 4 (resumeCtx s m x)

end Sys2Proof.Machine
end

