-- ==== Sys2Proof/Machine/Events.lean ====
section
/-! DEFINITION. Sys2Proof/Machine/Events.lean: the remaining rows of the table's events: arrivals at cores and homes, dispatch,
the deques' traffic (R42, R43), stops and resets (R205, R219), stores to control words, and results of variable latency. An
event that is not due leaves the state as it is. -/

namespace Sys2Proof.Machine

/-! ## Arrivals -/

def execMessageArrival (k : Nat) (s : State) : Out := .next (msgArrival s k false)
def execRplyArrival (k : Nat) (s : State) : Out := .next (msgArrival s k true)
def execFullEmptyWaiterApplied (k : Nat) (s : State) : Out := .next (waiterApplied s k)
def execAccessReplyArrival (k : Nat) (s : State) : Out := .next (replyArrival s k)

/-- STORE_ACKNOWLEDGEMENT: of a context's store, or of the data of a row that an engine writes. -/
def execStoreAcknowledgement (k : Nat) (s : State) : Out :=
  .next (match (s.flight[k]?).map Packet.body with | some (.dataDone _) => doneArrival s k | _ => ackArrival s k)

def execPageWalk (k : Nat) (s : State) : Out := .next (pageWalked s k)
def execCatchupProbe (k : Nat) (s : State) : Out := .next (probeArrival s k)
def execMarker (k src : Nat) (s : State) : Out := .next (markerArrival s k src)
def execPacketDelivery (k : Nat) (s : State) : Out := .next (deliverPacket s k)

/-- REMOTE_ACCESS_ARRIVAL: of a context's access, or of the data of a row that an engine writes. -/
def execRemoteAccessArrival (k : Nat) (s : State) : Out :=
  .next (match (s.flight[k]?).map Packet.body with | some (.data _) => dataArrival s k | _ => meshArrival s k)


/-! ## Cores -/

def execDispatch (core : Nat) (s : State) : Out := .next (dispatchCore s core)

/-- PRIORITY_PROMOTION (R36). -/
def promote (s : State) (n c : Nat) : State :=
  let t := ctxAt s n c
  if t.st = .running ∧ 4096 ≤ t.waited then setCtx s n c { t with promoted := true } else s

def execPriorityPromotion (core ctx : Nat) (s : State) : Out := .next (promote s core ctx)

def execSendQueueEntryLeaves (core : Nat) (s : State) : Out := .next (if dieDead s (dieOf core) then s else leaveQueue s core)

/-- The value that an operation of variable latency writes when it is applied (R107, R339, R245). -/
def varValue (s : State) (n : Nat) (job : Nat) : VarOp → VWord
  | .value v => v
  | .tagpnd => (tagPnd s n).setWidth 1024
  | .tmark => BitVec.ofNat 1024 (tapePos s (dieOf n) (partNum s n) job)

/-- VARIABLE_LATENCY_RESULT: the oldest result that waits for no unit is written, and what waited for it goes on. -/
def varDone (s : State) (n c : Nat) : State :=
  let t := ctxAt s n c
  match t.var.findIdx? fun e => !e.unit with
  | none => s
  | some i =>
    match t.var[i]? with
    | none => s
    | some e =>
      if t.st = .free ∨ t.st = .saved then s
      else setCtx s n c (({ t with var := t.var.eraseIdx i }).putNow e.code (varValue s n t.job e.op) e.mask).replyWake

def execVariableLatencyResult (core ctx : Nat) (s : State) : Out := .next (varDone s core ctx)

/-- ILLEGAL_INSTRUCTION at the running context (R102). -/
def execIllegalInstruction (f : Fate) (s : State) : Out := .next (illegal s f)

/-! ## Deques (R42, R43) -/

/-- A packet of the steal network. -/
def stealPacket (s : State) (n m : Nat) (b : StealMsg) : State :=
  transmit s n m .steal (partNum s n) (partInc s (pkgOf n) (partNum s n)) false (.steal b)

/-- STEAL_REQUEST: after 64 cycles of the steal condition, to the next neighbour. -/
def stealAsk (s : State) (n : Nat) : State :=
  let k := coreAt s n
  if k.idle < 64 ∨ !stealIdle s n ∨ dieDead s (dieOf n) then s
  else
    match ((List.range 4).map fun i => (k.stealDir + i) % 4).find? fun d => (neighbour n d).isSome with
    | none => s
    | some d =>
      let s := setCore s n { k with idle := 0, stealDir := (d + 1) % 4 }
      match neighbour n d with
      | some m => stealPacket s n m .request
      | none => s

def execStealRequest (core : Nat) (s : State) : Out := .next (stealAsk s core)

/-- Packet `k` of the steal network, if it may arrive and is not stale. -/
def stealTake (s : State) (k : Nat) (f : State → Packet → StealMsg → Option State) : State :=
  match takeAt s k with
  | .yes p =>
    (match p.body with
     | .steal b => if stale s p then removeAt s k else (f (removeAt s k) p b).getD s
     | _ => s)
  | _ => s

/-- STEAL_REQUEST_ARRIVAL: the victim yields the upper half of its deque. -/
def stealYield (s : State) (k : Nat) : State :=
  stealTake s k fun s p b =>
    match b with
    | .request =>
      let v := coreAt s p.dst
      let h := v.deque.length / 2
      if h = 0 then some s
      else
        let keep := v.deque.length - h
        some (stealPacket (setCore s p.dst { v with deque := v.deque.take keep }) p.dst p.src (.records (v.deque.drop keep)))
    | _ => none

def execStealRequestArrival (k : Nat) (s : State) : Out := .next (stealYield s k)

/-- STOLEN_RECORDS_ARRIVAL: the thief places them on top, once its deque has room. -/
def stealPlace (s : State) (k : Nat) : State :=
  stealTake s k fun s p b =>
    match b with
    | .records rs => if dequeLen s p.dst + rs.length ≤ 256 then some (pushTop s p.dst rs) else none
    | _ => none

def execStolenRecordsArrival (k : Nat) (s : State) : Out := .next (stealPlace s k)

/-- BALINT of a core (R43). -/
def balint (s : State) (n : Nat) : Nat := Memory.read s.mem (sliceKey n 0x410200) 2

/-- LEVELLING_INTERVAL: a core ships records to its least-loaded neighbour, by its own snapshot. -/
def levelAsk (s : State) (n : Nat) : State :=
  match leastLoaded s (neighbours n) with
  | none => s
  | some m =>
    let a := dequeLen s n
    let b := dequeLen s m
    let ship := Nat.min (a - 8) ((a - b) / 2)
    if balint s n = 0 ∨ ship = 0 ∨ dieDead s (dieOf n) then s else stealPacket s n m (.shipment ship)

def execLevellingInterval (core : Nat) (s : State) : Out := .next (levelAsk s core)

/-- LEVELLING_SHIPMENT_ARRIVAL: as many records of the sender's top as fit move; the rest stay at the sender. R43 does not say
where they go in the receiver's deque: on top, in their order (DESIGN CHOICE, log 73). -/
def levelPlace (s : State) (k : Nat) : State :=
  stealTake s k fun s p b =>
    match b with
    | .shipment n =>
      let v := coreAt s p.src
      let h := Nat.min (Nat.min n v.deque.length) (256 - dequeLen s p.dst)
      let keep := v.deque.length - h
      some (pushTop (setCore s p.src { v with deque := v.deque.take keep }) p.dst (v.deque.drop keep))
    | _ => none

def execLevellingShipmentArrival (k : Nat) (s : State) : Out := .next (levelPlace s k)

/-! ## Barriers -/

/-- BARRIER_TIMEOUT of the record at an offset of a core's control space (R46). -/
def recordTimeout (s : State) (n off : Nat) : State :=
  if coreKind n off = .barWord ∧ off % 256 = 0 ∧ !dieDead s (dieOf n) then barTimeout s (sliceKey n off) else s

def execBarrierTimeout (core off : Nat) (s : State) : Out := .next (recordTimeout s core off)

/-! ## Stores to control words -/

def execCommit (k : Nat) (s : State) : Out := .next (ctlArrival s k .commit)
def execStop (k : Nat) (s : State) : Out := .next (ctlArrival s k .stop)
def execGo (k : Nat) (s : State) : Out := .next (ctlArrival s k .go)
def execPartitionReset (k : Nat) (s : State) : Out := .next (ctlArrival s k .reset)
def execPartitionEntryWrite (k : Nat) (s : State) : Out := .next (ctlArrival s k .partEntry)
def execQuadTableWrite (k : Nat) (s : State) : Out := .next (ctlArrival s k .quad)
def execClassTableWrite (k : Nat) (s : State) : Out := .next (ctlArrival s k .classTable)
def execBarrierRecordWrite (k : Nat) (s : State) : Out := .next (ctlArrival s k .barrier)
def execRegionDescriptorWrite (k : Nat) (s : State) : Out := .next (ctlArrival s k .desc)
def execTapeQuotaWrite (k : Nat) (s : State) : Out := .next (ctlArrival s k .quota)
def execSavebaseWrite (k : Nat) (s : State) : Out := .next (ctlArrival s k .savebase)
def execHostPortWrite (k : Nat) (s : State) : Out := .next (ctlArrival s k .hostPort)
def execLcommit (k : Nat) (s : State) : Out := .next (ctlArrival s k .lcommit)
def execEnergyCounterClear (k : Nat) (s : State) : Out := .next (ctlArrival s k .energy)
def execUnfreeze (k : Nat) (s : State) : Out := .next (ctlArrival s k .unfreeze)
def execControlWordWrite (k : Nat) (s : State) : Out := .next (ctlArrival s k .other)

/-! ## Stops and resets (R205, R208, R219) -/

/-- STOP_COMPLETE: when no REPLAY is left the remaining engines are saved, and the partition is stopped. -/
def stopDone (s : State) (pkg part : Nat) : State :=
  let cs := partCores s pkg part
  if stopState s pkg part ≠ 1 ∨ cs.any (replaysLeft s) then s
  else
    let s := cs.foldl (fun s n => if (coreAt s n).saved then s else saveEngines s n) s
    serviceNotice (setStop s pkg part 2) pkg part 1

def execStopComplete (pkg part : Nat) (s : State) : Out := .next (stopDone s pkg part)

/-- RESET_COMPLETE: the partition runs again. -/
def resetDone (s : State) (pkg part : Nat) : State :=
  if stopState s pkg part ≠ 3 then s else serviceNotice (setStop s pkg part 0) pkg part 2

def execResetComplete (pkg part : Nat) (s : State) : Out := .next (resetDone s pkg part)

end Sys2Proof.Machine
end

