-- ==== Sys2Proof/Machine/Gauss.lean ====
section
/-! DEFINITION. Sys2Proof/Machine/Gauss.lean: the Gaussian unit (R149-R152): blocks of one v register, their elimination and
solution, and the unit's queue. -/

namespace Sys2Proof.Machine

/-! ## Blocks (R149) -/

/-- Lane 27 of a block. -/
def gDesc (v : VWord) : Nat := elemOf 32 27 v.toNat
/-- Slots in use. -/
def gDim (v : VWord) : Nat := gDesc v % 8
/-- Is lane 27 well-formed? -/
def gOk (v : VWord) : Bool :=
  let x := gDesc v
  x % 8 != 7 && nbits x 3 1 == 0 && x / 2 ^ (4 * (x % 8) + 4) == 0

/-- The lane of Λ(i, j), i at least j. -/
def lamLane (i j : Nat) : Nat := i * (i + 1) / 2 + j

/-- Λ(i, j) of a block, symmetric; lanes of unused slots read as zero. -/
def gLam (v : VWord) (i j : Nat) : Nat :=
  if i < gDim v ∧ j < gDim v then elemOf 32 (if j ≤ i then lamLane i j else lamLane j i) v.toNat else 0
/-- η(i). -/
def gEta (v : VWord) (i : Nat) : Nat := if i < gDim v then elemOf 32 (21 + i) v.toNat else 0

/-- Lanes 0-26 from Λ and η. -/
def gLanes (lam : Nat → Nat → Nat) (eta : Nat → Nat) : List Nat :=
  ((List.range 6).flatMap fun i => (List.range (i + 1)).map (lam i)) ++ (List.range 6).map eta

/-- A block from lanes 0-26, lane 27, and lanes 28-31 of `va`. -/
def gBlock (lanes : List Nat) (desc : Nat) (va : VWord) : VWord :=
  ofElems 32 (lanes ++ [desc] ++ (List.range 4).map fun i => elemOf 32 (28 + i) va.toNat)

/-- Lanes 0-26 of a block as the unit reads them. -/
def gRead (v : VWord) : List Nat := gLanes (gLam v) (gEta v)

/-! ## Elimination (R151) -/

/-- A comparison of F32 values: `x ≤ y` for numbers and infinities. -/
def leFp (x y : Fp) : Bool := !(y.below x)

/-- Is a pivot singular? -/
def badPivot (p : Nat) (dmax : Fp) : Bool :=
  match fmtF32.unpack p with
  | .nan _ _ => true
  | v => leFp v (.fin ⟨false, 0, 0⟩) || leFp v (dmax.scale (-24))

/-- The largest of some diagonal elements; a NaN is left out (DESIGN CHOICE, log 77). -/
def maxFp : List Fp → Fp
  | [] => .fin ⟨false, 0, 0⟩
  | x :: r => r.foldl (fun m y => if y.isNan then m else if m.isNan || m.below y then y else m) x

/-- An entry of a factor kept by columns. -/
def colAt (cols : List (List Nat)) (i j : Nat) : Nat := (cols.getD j []).getD i 0

/-- Column `j` of the factor; none for a singular pivot. -/
def cholCol (a : Nat → Nat → Nat) (m : Nat) (dmax : Fp) (cols : List (List Nat)) (j : Nat) : Option (List Nat) :=
  let p := (List.range j).foldl (fun p k => fnmaRne (colAt cols j k) (colAt cols j k) p) (a j j)
  if badPivot p dmax then none
  else
    let l := sqrtRne p
    some ((List.range m).map fun i =>
      if i < j then 0
      else if i = j then l
      else divRne ((List.range j).foldl (fun q k => fnmaRne (colAt cols i k) (colAt cols j k) q) (a i j)) l)

/-- The columns from `j` on, or the index of the first singular pivot. -/
def cholGo (a : Nat → Nat → Nat) (m : Nat) (dmax : Fp) : Nat → Nat → List (List Nat) → Nat ⊕ List (List Nat)
  | 0, _, cols => .inr cols
  | n + 1, j, cols =>
    match cholCol a m dmax cols j with
    | none => .inl j
    | some c => cholGo a m dmax n (j + 1) (cols ++ [c])

/-- The Cholesky factor of an m by m matrix. -/
def cholesky (a : Nat → Nat → Nat) (m : Nat) : Nat ⊕ List (List Nat) :=
  cholGo a m (maxFp ((List.range m).map fun i => fmtF32.unpack (a i i))) m 0 []

/-- Forward substitution. -/
def forwardSub (l : List (List Nat)) (m : Nat) (b : Nat → Nat) : List Nat :=
  (List.range m).foldl (fun z j =>
    z ++ [divRne ((List.range j).foldl (fun y k => fnmaRne (colAt l j k) (z.getD k 0) y) (b j)) (colAt l j j)]) []

/-- Back substitution; the result is built from the last element. -/
def backSub (l : List (List Nat)) (m : Nat) (z : List Nat) : List Nat :=
  (List.range m).foldl (fun w i =>
    let j := m - 1 - i
    let y := ((List.range m).filter fun k => decide (j < k)).foldl
      (fun y k => fnmaRne (colAt l k j) (w.getD (k - j - 1) 0) y) (z.getD j 0)
    divRne y (colAt l j j) :: w) []

/-- Solve for one column. -/
def cholSolve (l : List (List Nat)) (m : Nat) (b : Nat → Nat) : List Nat := backSub l m (forwardSub l m b)

/-- Slots below `d` that a mask selects, or does not. -/
def gSlots (d : Nat) (mask : BitVec 6) (sel : Bool) : List Nat := (List.range d).filter fun i => mask.getLsbD i == sel

/-- GELIM: the slot of a singular pivot, or the new block. -/
def gElim (v : VWord) (mask : BitVec 6) : Nat ⊕ VWord :=
  let d := gDim v
  let e := gSlots d mask true
  let s := gSlots d mask false
  let m := e.length
  let ei (k : Nat) : Nat := e.getD k 0
  let si (k : Nat) : Nat := s.getD k 0
  if m = 0 then .inr (gBlock (gRead v) (gDesc v) v)
  else
    match cholesky (fun i j => gLam v (ei i) (ei j)) m with
    | .inl j => .inl (ei j)
    | .inr l =>
      let zs := s.map fun t => cholSolve l m fun k => gLam v (ei k) t
      let zeta := cholSolve l m fun k => gEta v (ei k)
      let n := s.length
      let sub (a : Nat) (z : List Nat) (x : Nat) : Nat :=
        (List.range m).foldl (fun y k => fnmaRne (gLam v (si a) (ei k)) (z.getD k 0) y) x
      let lam (a c : Nat) : Nat := if a < n then sub a (zs.getD c []) (gLam v (si a) (si c)) else 0
      let eta (a : Nat) : Nat := if a < n then sub a zeta (gEta v (si a)) else 0
      let ids := packElems 4 (s.map fun i => nbits (gDesc v) (4 * i + 4) 4)
      .inr (gBlock (gLanes lam eta) (n + 16 * ids) v)

/-! ## The other operations (R150) -/

def gAdd (a b : VWord) : VWord :=
  gBlock (((gRead a).zip (gRead b)).map fun e => addRne e.1 e.2) (gDesc a) a

/-- `c x` for an exact number `c` of at least zero. -/
def scaleFp (c : Dy) (x : Fp) : Fp :=
  match x with
  | .inf n => if c.man = 0 then plainNan else .inf n
  | .fin d => .fin (c.mul d)
  | x => x

/-- round_rne((1 - beta) x + beta y), the inner value exact; x itself for beta 0, and y for beta 1. -/
def dampElem (beta : Dy) (x y : Nat) : Nat :=
  if beta.man = 0 then x
  else if beta.eq dyOne then y
  else
  let f := fmtF32
  let a := f.unpack x
  let b := f.unpack y
  match nanOf f [a, b] with
  | some r => r.1
  | none =>
    match scaleFp (dyOne.add beta.negate false) a, scaleFp beta b with
    | .inf n, .inf m => if n = m then f.infinity n else f.canonNan
    | .inf n, .fin _ => f.infinity n
    | .fin _, .inf m => f.infinity m
    | .fin p, .fin q => roundRne f (p.add q false)
    | _, _ => f.canonNan

/-- β of a block, if it is a number from 0 to 1. -/
def gBeta (v : VWord) : Option Dy :=
  match fmtF32.unpack (elemOf 32 28 v.toNat) with
  | .fin d => if d.lt ⟨false, 0, 0⟩ ∨ dyOne.lt d then none else some d
  | _ => none

def gDampOf (beta : Dy) (a b : VWord) : VWord :=
  gBlock (((gRead a).zip (gRead b)).map fun e => dampElem beta e.1 e.2) (gDesc a) a

/-- GSOLVE: means and variances, canonical NaNs for a singular pivot. -/
def gSolve (v : VWord) : VWord :=
  let d := gDim v
  let lanes : List Nat :=
    match cholesky (gLam v) d with
    | .inl _ => List.replicate d fmtF32.canonNan ++ List.replicate (6 - d) 0 ++ List.replicate d fmtF32.canonNan
    | .inr l =>
      let mu := cholSolve l d (gEta v)
      let var := (List.range d).map fun i =>
        let u := forwardSub l d fun j => if j = i then 0x3f800000 else 0
        (u.drop i).foldl (fun s x => fmaRne x x s) 0
      mu ++ List.replicate (6 - d) 0 ++ var
  ofElems 32 (lanes ++ List.replicate (27 - lanes.length) 0 ++ (List.range 5).map fun i => elemOf 32 (27 + i) v.toNat)

/-- GRES: the largest absolute difference. -/
def gResOf (a b : VWord) : Nat :=
  let ds := ((gRead a).zip (gRead b)).map fun e => fmtF32.abs (addRne e.1 (if fmtF32.isNan e.2 then e.2 else fmtF32.neg e.2))
  if ds.any fmtF32.isNan then fmtF32.canonNan else ds.foldl Nat.max 0

/-! ## The unit (R131, R149) -/

/-- Results of the running context's operation: written now, or, when the step leaves them or earlier operations of the
core are still in the unit, by GAUSS_COMPLETE. -/
def gaussResult (s : State) (st : Stall) (rs : List (Nat × VWord)) : Out :=
  let t := me s
  let k := myCore s
  if s.cur.late || !k.gaussq.isEmpty then
    let s := setMyCore s { k with gaussq := k.gaussq ++ [s.cur.ctx] }
    done st 4 (setMe s { t with var := t.var ++ rs.map fun r => ⟨r.1, .value r.2, allBits, true⟩ })
  else done st 4 (setMe s (rs.foldl (fun (t : Ctx) r => t.putNow r.1 r.2 allBits) t))

def execGadd (st : Stall) (d a b : VReg) (s : State) : Out :=
  let va := vr s a
  let vb := vr s b
  if !gOk va || !gOk vb || gDesc va != gDesc vb then supFault s fRESFIELD 0
  else gaussResult s st [(vCode d, gAdd va vb)]

def execGdamp (st : Stall) (d a b : VReg) (s : State) : Out :=
  let va := vr s a
  let vb := vr s b
  if !gOk va || !gOk vb || gDesc va != gDesc vb then supFault s fRESFIELD 0
  else
    match gBeta va with
    | none => supFault s fRESFIELD 0
    | some beta => gaussResult s st [(vCode d, gDampOf beta va vb)]

def execGsolve (st : Stall) (d a : VReg) (s : State) : Out :=
  if !gOk (vr s a) then supFault s fRESFIELD 0 else gaussResult s st [(vCode d, gSolve (vr s a))]

def execGres (st : Stall) (d a b : VReg) (h : Bool) (s : State) : Out :=
  let va := vr s a
  let vb := vr s b
  if !gOk va || !gOk vb then supFault s fRESFIELD 0
  else gaussResult s st [(d.toNat + (if h then 16 else 0), BitVec.ofNat 1024 (gResOf va vb))]

/-- GELIM. A singular pivot leaves zeros; with T it parks its context as an upcall (R152), which it raises when every operation
before it in the unit has completed (R292): until then it waits at the instruction. -/
def execGelim (st : Stall) (d a : VReg) (m : BitVec 6) (t : Bool) (p : PReg) (s : State) : Out :=
  let va := vr s a
  if !gOk va || decide (2 ^ gDim va ≤ m.toNat) then supFault s fRESFIELD 0
  else
    match gElim va m with
    | .inr v => gaussResult s st [(vCode d, v), (pCode p, allBits)]
    | .inl e =>
      if t && !(myCore s).gaussq.isEmpty then .next (parkHere s .unit)
      else if t then
        let c := ((me s).putNow (vCode d) 0 allBits).putNow (pCode p) 0 allBits
        upcall (setMe s c) fSINGULAR (BitVec.ofNat 64 e) 4
      else gaussResult s st [(vCode d, 0), (pCode p, 0)]

/-- The unit's oldest operation writes its results (GAUSS_COMPLETE): GELIM writes a predicate beside its block. -/
def gaussDone (s : State) (n : Nat) : State :=
  let k := coreAt s n
  match k.gaussq with
  | [] => s
  | c :: r =>
    let t := ctxAt s n c
    let write (t : Ctx) (e : VarRes) : Ctx :=
      match e.op with
      | .value v => t.putNow e.code v e.mask
      | _ => t
    let s := setCore s n { k with gaussq := r }
    match t.var.findIdx? fun e => e.unit with
    | none => s
    | some i =>
      let rest := t.var.eraseIdx i
      let t1 := match t.var[i]? with | some e => write { t with var := rest } e | none => t
      let t2 :=
        match rest[i]? with
        | some e =>
          if e.unit ∧ 0x30 ≤ e.code ∧ e.code < 0x38 ∧ ((t.var[i]?).any fun (f : VarRes) => decide (0x20 ≤ f.code)) then
            write { t1 with var := rest.eraseIdx i } e
          else t1
        | none => t1
      wakeAll (setCtx s n c t2.replyWake) n .unit

def execGaussComplete (core : Nat) (s : State) : Out := .next (gaussDone s core)

end Sys2Proof.Machine
end

