-- ==== Sys2Proof/Machine/Auto.lean ====
section
/-! DEFINITION. Sys2Proof/Machine/Auto.lean: what moves when the schedule names nothing: one order among those that the spec
allows (log 42). Packets on their way come first, then accesses held at homes, dispatch, queues, the Crier, engines, the core
that is furthest behind, and, when nothing else moves, timers. -/

namespace Sys2Proof.Machine

/-- What the machine does next of itself. -/
inductive Move
  | state (s : State)
  | core (n : Nat)
  | idle
deriving DecidableEq, Repr

/-- The first of some indexes that makes progress. -/
def firstOf (is : List Nat) (f : Nat → Option State) : Option State := is.findSome? f

/-- A step, if it changes what `look` sees. -/
def ifMoved {α : Type} [DecidableEq α] (look : State → α) (s t : State) : Option State :=
  if look t = look s then none else some t

/-- Packet `k` arrives, by what it carries. -/
def packetStep (s : State) (k : Nat) : Option State :=
  match takeAt s k with
  | .no => none
  | .dup _ => some (deliverPacket s k)
  | .yes p =>
    let near := p.near
    let t :=
      match p.body with
      | .access a => arriveAccess s k p a
      | .msg _ => if near then msgArrival s k (p.net == .rply) else deliverPacket s k
      | .reply _ => if near then replyArrival s k else deliverPacket s k
      | .ack _ => if near then ackArrival s k else deliverPacket s k
      | .row _ => if near then rowArrival s k else deliverPacket s k
      | .red _ => contribute s k
      | .probe .. => probeArrival s k
      | .marker .. => if near then s else deliverPacket s k
      | .data _ => if near then dataArrival s k else deliverPacket s k
      | .dataDone _ => if near then doneArrival s k else deliverPacket s k
      | .steal m =>
        match m with
        | .request => stealYield s k
        | .records _ => stealPlace s k
        | .shipment _ => levelPlace s k
    ifMoved (fun s => s.flight) s t

/-- Held access `k` goes on. -/
def heldStep (s : State) (k : Nat) : Option State :=
  match s.held[k]? with
  | none => none
  | some h =>
    match h.why with
    | .full => ifMoved (fun s => s.held) s (waiterApplied s k)
    | .turn => ifMoved (fun s => s.held) s (waiterApplied s k)
    | .walk => ifMoved (fun s => s.held) s (pageWalked s k)
    | .catchup need => need.findSome? fun src => ifMoved (fun s => s.held) s (markerArrival s k src)

/-- The next Crier message at a package, by its kind. -/
def crierStep (s : State) (pkg : Nat) : Option State :=
  if (pkgAt s pkg).missing.isSome then some (resendRequest s pkg)
  else
    match nextCrier s pkg with
    | none => none
    | some m =>
      some (match m.kind with
        | 0 => crierSt s pkg
        | 1 => crierAdd s pkg
        | 2 => crierMark s pkg
        | 3 => crierBarrier s pkg
        | 4 => crierMarket s pkg
        | 5 => crierGen s pkg
        | 6 => crierDrained s pkg
        | 7 => crierMember s pkg
        | 8 => crierIntent s pkg
        | _ => crierUnknown s pkg)

/-- The token moves while a package of its pod has messages to send or has fallen silent. -/
def tokenStep (s : State) (pod : Nat) : Option State :=
  if heard s (8 * pod + (podAt s pod).holder) then
    (if (members s pod).any fun x => !heard s (8 * pod + x) || (pkgAt s (8 * pod + x)).queue != [] then some (tokenFrame s pod)
     else none)
  else ifMoved (fun s => (podAt s pod).holder) s (silentHolder s pod)

/-- Packages that the state lists, or whose dies or cores it lists. -/
def knownPkgs (s : State) : List Nat :=
  (s.pkgs.map (fun (e : Nat × Pkg) => e.1) ++ s.cores.map (fun (e : Nat × Core) => pkgOf e.1) ++
    s.pods.flatMap fun (e : Nat × Pod) => (List.range 8).map fun x => 8 * e.1 + x).eraseDups
def knownPods (s : State) : List Nat := ((knownPkgs s).map fun p => p / 8).eraseDups

/-- An engine of a core takes a step. -/
def engineStep (s : State) (n : Nat) : Option State :=
  let k := coreAt s n
  let q (s : State) : List CopyCmd × List DispCmd × Nat × List Nat :=
    ((coreAt s n).copyq, (coreAt s n).dispq, (coreAt s n).mill.inbox.length, s.cores.map fun e => e.2.grants.length)
  if k.gaussq ≠ [] then some (gaussDone s n)
  else
    match firstOf [0] fun _ => ifMoved q s (millStep s n) with
    | some t => some t
    | none =>
      match firstOf (List.range k.copyq.length) fun i => ifMoved q s (copyStep s n i) with
      | some t => some t
      | none =>
        match ifMoved (fun s => (coreAt s n).grants) s (grantServe s n) with
        | some t => some t
        | none => firstOf (List.range k.dispq.length) fun i => ifMoved q s (dispStep s n i)

/-- Results of variable latency that a core owes. -/
def varStep (s : State) (n : Nat) : Option State :=
  ((coreAt s n).ctxs.find? fun e => e.2.st != .free && e.2.st != .saved && e.2.var.any fun v => !v.unit).map fun e => varDone s n e.1

/-- Does a core have a context that may come to issue? -/
def coreLive (s : State) (n : Nat) : Bool :=
  coreExists n && !dieDead s (dieOf n) && !stopped s n && (coreAt s n).ctxs.any fun e => e.2.st == .running

/-- The live core that has run the fewest cycles. -/
def nextCore (s : State) : Option Nat :=
  match (s.cores.map fun e => e.1).filter (coreLive s) with
  | [] => none
  | n :: r => some (r.foldl (fun b x => if (coreAt s x).cycle < (coreAt s b).cycle then x else b) n)

/-- Timers, when nothing else moves. -/
def timerStep (s : State) : Option State :=
  let cores := s.cores.map fun e => e.1
  match s.bars.find? fun e => barTmo e.2 != 0 && e.2.arrived != [] with
  | some e => some (barTimeout s e.1)
  | none =>
    match s.dies.find? fun e => e.2.slots.any fun x => x.rdl != 0 with
    | some e => some (deadline s e.1 ((e.2.slots.findIdx? fun x => x.rdl != 0).getD 0))
    | none =>
      match cores.find? fun n => (coreAt s n).dispq.any fun c => c.bound < 15 with
      | some n =>
        firstOf (List.range (coreAt s n).dispq.length) fun i => ifMoved (fun s => (coreAt s n).dispq) s (grantExpire s n i)
      | none => none

/-- The parts of the machine in the order in which they move. -/
def autoParts (s : State) : List (Unit → Option State) :=
  let cores := s.cores.map fun e => e.1
  let pkgs := knownPkgs s
  let each (l : List Nat) (f : Nat → Option State) : Unit → Option State := fun _ => firstOf l f
  [each (List.range s.flight.length) (packetStep s),
   each (List.range s.held.length) (heldStep s),
   each cores fun n => if (nextWork s n).isSome then some (dispatchCore s n) else none,
   each cores fun n => if (coreAt s n).sendq = [] ∨ dieDead s (dieOf n) then none else some (leaveQueue s n),
   each pkgs (crierStep s),
   each pkgs fun p => ifMoved (fun s => (pkgAt s p).queue) s (sendDrained s p),
   each pkgs fun p => ifMoved (fun s => (pkgAt s p).intents) s (commitCheck s p),
   each (knownPods s) (tokenStep s),
   each cores (engineStep s),
   each cores (varStep s),
   each pkgs fun p => firstOf (List.range 24) fun q =>
     if stopState s p q = 1 then ifMoved (fun s => stopState s p q) s (stopDone s p q)
     else if stopState s p q = 3 then some (resetDone s p q) else none]

/-- What moves next. -/
def autoMove (s : State) : Move :=
  match (autoParts s).findSome? fun f => f () with
  | some t => .state t
  | none =>
    match nextCore s with
    | some n => .core n
    | none =>
      match timerStep s with
      | some t => .state t
      | none => .idle

end Sys2Proof.Machine
end

