-- ==== Sys2Proof/Machine/Scalar.lean ====
section
/-! DEFINITION. Sys2Proof/Machine/Scalar.lean: scalar arithmetic, shifts, comparisons and address builders. -/

namespace Sys2Proof.Machine

/-- A scalar result of latency 1 in x[d]. -/
def alu (s : State) (st : Stall) (len : Nat) (d : Reg) (v : Word) : Out := done st len (wrX s 1 d v)

/-- A product of latency 3 in x[d]. -/
def mulResult (s : State) (st : Stall) (d : Reg) (v : Word) : Out := done st 4 (wrX s 3 d v)

/-! ## Short forms (R98) -/

def execNopShort (s : State) : Out := done 0 2 s
def execMov (d a : Reg) (s : State) : Out := alu s 0 2 d (xr s a)
def execLi (d : Reg) (i : BitVec 5) (s : State) : Out := alu s 0 2 d (sext5w i)
def execAddShort (d a : Reg) (s : State) : Out := alu s 0 2 d (xr s d + xr s a)
def execSubShort (d a : Reg) (s : State) : Out := alu s 0 2 d (xr s d - xr s a)
def execAndShort (d a : Reg) (s : State) : Out := alu s 0 2 d (xr s d &&& xr s a)
def execOrShort (d a : Reg) (s : State) : Out := alu s 0 2 d (xr s d ||| xr s a)
def execXorShort (d a : Reg) (s : State) : Out := alu s 0 2 d (xr s d ^^^ xr s a)
def execAddiShort (d : Reg) (i : BitVec 5) (s : State) : Out := alu s 0 2 d (xr s d + sext5w i)
def execShliShort (d : Reg) (n : BitVec 5) (s : State) : Out := alu s 0 2 d (xr s d <<< n.toNat)
def execShriShort (d : Reg) (n : BitVec 5) (s : State) : Out := alu s 0 2 d (xr s d >>> n.toNat)
def execSraiShort (d : Reg) (n : BitVec 5) (s : State) : Out := alu s 0 2 d ((xr s d).sshiftRight n.toNat)

/-! ## Register forms -/

def execAdd (st : Stall) (d a b : Reg) (s : State) : Out := alu s st 4 d (xr s a + xr s b)
def execSub (st : Stall) (d a b : Reg) (s : State) : Out := alu s st 4 d (xr s a - xr s b)
def execAnd (st : Stall) (d a b : Reg) (s : State) : Out := alu s st 4 d (xr s a &&& xr s b)
def execOr (st : Stall) (d a b : Reg) (s : State) : Out := alu s st 4 d (xr s a ||| xr s b)
def execXor (st : Stall) (d a b : Reg) (s : State) : Out := alu s st 4 d (xr s a ^^^ xr s b)
def execAndn (st : Stall) (d a b : Reg) (s : State) : Out := alu s st 4 d (xr s a &&& ~~~(xr s b))
/-- The amount of a register shift: [5:0] (R328). -/
def shiftAmt (s : State) (b : Reg) : Nat := (xr s b).toNat % 64
def execShl (st : Stall) (d a b : Reg) (s : State) : Out := alu s st 4 d (xr s a <<< shiftAmt s b)
def execShr (st : Stall) (d a b : Reg) (s : State) : Out := alu s st 4 d (xr s a >>> shiftAmt s b)
def execSra (st : Stall) (d a b : Reg) (s : State) : Out := alu s st 4 d ((xr s a).sshiftRight (shiftAmt s b))
def execRol (st : Stall) (d a b : Reg) (s : State) : Out := alu s st 4 d ((xr s a).rotateLeft (shiftAmt s b))
def execMin (st : Stall) (d a b : Reg) (s : State) : Out := alu s st 4 d (if (xr s b).slt (xr s a) then xr s b else xr s a)
def execMax (st : Stall) (d a b : Reg) (s : State) : Out := alu s st 4 d (if (xr s a).slt (xr s b) then xr s b else xr s a)
def execMinu (st : Stall) (d a b : Reg) (s : State) : Out := alu s st 4 d (if (xr s b).ult (xr s a) then xr s b else xr s a)
def execMaxu (st : Stall) (d a b : Reg) (s : State) : Out := alu s st 4 d (if (xr s a).ult (xr s b) then xr s b else xr s a)
def execMul (st : Stall) (d a b : Reg) (s : State) : Out := mulResult s st d (xr s a * xr s b)
/-- Bits [127:64] of the signed product (R315). -/
def execMulh (st : Stall) (d a b : Reg) (s : State) : Out :=
  mulResult s st d (BitVec.ofInt 64 ((xr s a).toInt * (xr s b).toInt / 18446744073709551616))
/-- Bits [127:64] of the unsigned product (R315). -/
def execMulhu (st : Stall) (d a b : Reg) (s : State) : Out :=
  mulResult s st d (BitVec.ofNat 64 ((xr s a).toNat * (xr s b).toNat / wordMod))

/-- Quotient and remainder (R285). -/
def divide (isSigned : Bool) (n m : Word) : Word × Word :=
  if m = 0 then (BitVec.allOnes 64, n)
  else if isSigned then (n.sdiv m, n.srem m)
  else (n.udiv m, n.umod m)

/-- A division: its flags at issue, its result with variable latency. -/
def divResult (s : State) (st : Stall) (isSigned quotient : Bool) (d a b : Reg) : Out :=
  let r := divide isSigned (xr s a) (xr s b)
  done st 4 (varX (raiseSflags s (divFlags isSigned (xr s a) (xr s b))) d (if quotient then r.1 else r.2))

def execDiv (st : Stall) (d a b : Reg) (s : State) : Out := divResult s st true true d a b
def execDivu (st : Stall) (d a b : Reg) (s : State) : Out := divResult s st false true d a b
def execRem (st : Stall) (d a b : Reg) (s : State) : Out := divResult s st true false d a b
def execRemu (st : Stall) (d a b : Reg) (s : State) : Out := divResult s st false false d a b

def execClz (st : Stall) (d a : Reg) (s : State) : Out := alu s st 4 d (BitVec.ofNat 64 (64 - bitLen (xr s a).toNat))
/-- Trailing zeros, 64 for zero (R266). -/
def ctzOf (v : Word) : Nat := ((List.range 64).find? fun i => v.getLsbD i).getD 64
def execCtz (st : Stall) (d a : Reg) (s : State) : Out := alu s st 4 d (BitVec.ofNat 64 (ctzOf (xr s a)))
/-- Set bits (R266). -/
def popOf (w : Nat) (v : Nat) : Nat := ((List.range w).filter fun i => v.testBit i).length
def execPopc (st : Stall) (d a : Reg) (s : State) : Out := alu s st 4 d (BitVec.ofNat 64 (popOf 64 (xr s a).toNat))

/-! ## Immediate forms -/

def execAddi (st : Stall) (d a : Reg) (i : BitVec 13) (s : State) : Out := alu s st 4 d (xr s a + sext13w i)
def execAndi (st : Stall) (d a : Reg) (i : BitVec 13) (s : State) : Out := alu s st 4 d (xr s a &&& sext13w i)
def execOri (st : Stall) (d a : Reg) (i : BitVec 13) (s : State) : Out := alu s st 4 d (xr s a ||| sext13w i)
def execXori (st : Stall) (d a : Reg) (i : BitVec 13) (s : State) : Out := alu s st 4 d (xr s a ^^^ sext13w i)
def execShli (st : Stall) (d a : Reg) (n : BitVec 6) (s : State) : Out := alu s st 4 d (xr s a <<< n.toNat)
def execShri (st : Stall) (d a : Reg) (n : BitVec 6) (s : State) : Out := alu s st 4 d (xr s a >>> n.toNat)
def execSrai (st : Stall) (d a : Reg) (n : BitVec 6) (s : State) : Out := alu s st 4 d ((xr s a).sshiftRight n.toNat)
def execRoli (st : Stall) (d a : Reg) (n : BitVec 6) (s : State) : Out := alu s st 4 d ((xr s a).rotateLeft n.toNat)

/-- The condition of CMP (R267). -/
def cmpHolds (c : Cond) (x y : Word) : Bool :=
  match c with
  | .eq => x == y
  | .ne => x != y
  | .lt => x.slt y
  | .ge => !x.slt y
  | .ltu => x.ult y
  | .geu => !x.ult y
  | .tst => (x &&& y) != 0

def execCmp (st : Stall) (d a b : Reg) (c : Cond) (s : State) : Out :=
  alu s st 4 d (if cmpHolds c (xr s a) (xr s b) then 1 else 0)
def execLih (st : Stall) (d : Reg) (i : BitVec 18) (s : State) : Out := alu s st 4 d (i.signExtend 64 <<< 13)
def execMadd (st : Stall) (d a b : Reg) (s : State) : Out := mulResult s st d (xr s d + xr s a * xr s b)
def execMsub (st : Stall) (d a b : Reg) (s : State) : Out := mulResult s st d (xr s d - xr s a * xr s b)

/-- The mask of a field of `l + 1` bits (R264). -/
def fieldMask (l : BitVec 6) : Word := BitVec.ofNat 64 (2 ^ (l.toNat + 1) - 1)
/-- `l` is the length less one; a field beyond bit 63 is RESFIELD (R100). -/
def execBfx (st : Stall) (d a : Reg) (p l : BitVec 6) (s : State) : Out :=
  if 64 < p.toNat + l.toNat + 1 then supFault s fRESFIELD 0
  else alu s st 4 d ((xr s a >>> p.toNat) &&& fieldMask l)
def execBfi (st : Stall) (d a : Reg) (p l : BitVec 6) (s : State) : Out :=
  if 64 < p.toNat + l.toNat + 1 then supFault s fRESFIELD 0
  else alu s st 4 d ((xr s d &&& ~~~(fieldMask l <<< p.toNat)) ||| ((xr s a &&& fieldMask l) <<< p.toNat))

/-! ## Addresses (R314, R255, R299) and SEL -/

def execMkadr (st : Stall) (d a b : Reg) (s : State) : Out :=
  let n := s.cur.core
  if 31 < (xr s a).toNat ∨ 31 < (xr s b).toNat then supFault s fPROTECT 0
  else alu s st 4 d (coreAdr s n (n / 1024 * 1024 + 32 * (xr s a).toNat + (xr s b).toNat))

def execAbsa (st : Stall) (d a : Reg) (s : State) : Out :=
  let v := xr s a
  if bitsOf v 62 2 = 1 then
    if !mbzOk v then supFault s fRESFIELD v
    else
      match relCore s.cur.core v with
      | none => supFault s fPROTECT v
      | some t => alu s st 4 d (coreAdr s s.cur.core t ||| BitVec.ofNat 64 (bitsOf v 0 23))
  else alu s st 4 d v

def execGptr (st : Stall) (d a : Reg) (s : State) : Out :=
  let v := xr s a
  if isPrivAdr v then
    if bitsOf v 17 41 ≠ 0 then supFault s fRESFIELD v
    else if (me s).win ≤ bitsOf v 0 17 then supFault s fPROTECT v
    else alu s st 4 d (coord s s.cur.core ||| BitVec.ofNat 64 (0x300000 + 0x10000 * s.cur.ctx + bitsOf v 0 17))
  else alu s st 4 d v

def execSel (st : Stall) (d a b c : Reg) (s : State) : Out := alu s st 4 d (if xr s c ≠ 0 then xr s a else xr s b)

end Sys2Proof.Machine
end

