-- ==== Sys2Proof/Machine/Vector.lean ====
section
/-! DEFINITION. Sys2Proof/Machine/Vector.lean: vector arithmetic, comparisons, conversions, reductions, permutations, predicates and
the lanes' flags. -/

namespace Sys2Proof.Machine

/-! ## Shapes -/

/-- A floating-point instruction of latency 4: `f k` gives element `k` and its flags. -/
def vecFp (s : State) (st : Stall) (d : VReg) (p : PReg) (q : Bool) (t : FTy) (f : Nat → Nat × Flags) : Out :=
  let r := mapElems (mtyWidth (ftyM t)) (pr s p) f
  done st 4 (raiseLanes (wrV s 4 d r.1 (laneBits (pr s p))) q r.2)

/-- The same with variable latency (R357). -/
def vecFn (s : State) (st : Stall) (d : VReg) (p : PReg) (q : Bool) (t : FTy) (f : Nat → Nat × Flags) : Out :=
  let r := mapElems (mtyWidth (ftyM t)) (pr s p) f
  done st 4 (varResult (raiseLanes s q r.2) (vCode d) (.value r.1) r.1 (laneBits (pr s p)))

/-- An element of a register. -/
def vel (s : State) (t : FTy) (r : VReg) (k : Nat) : Nat := elemOf (mtyWidth (ftyM t)) k (vr s r).toNat

/-- Two floating-point operands. -/
def vecFp2 (s : State) (st : Stall) (d a b : VReg) (p : PReg) (q : Bool) (t : FTy)
    (f : Fmt → BitVec 5 → Nat → Nat → Nat × Flags) : Out :=
  vecFp s st d p q t fun k => f (ftyFmt t) (me s).round (vel s t a k) (vel s t b k)

/-- Three, the third the old destination. -/
def vecFma (s : State) (st : Stall) (d a b : VReg) (p : PReg) (q : Bool) (t : FTy) (np nc : Bool) : Out :=
  vecFp s st d p q t fun k => fpFma (ftyFmt t) (me s).round np nc (vel s t a k) (vel s t b k) (vel s t d k)

/-- An integer instruction of latency 4 on elements of `w` bits; it raises no flag. -/
def vecInt (s : State) (st : Stall) (d a b : VReg) (p : PReg) (t : ITy) (f : Nat → Nat → Nat → Nat) : Out :=
  let w := mtyWidth (ityM t)
  let r := mapElems w (pr s p) fun k => (f w (elemOf w k (vr s a).toNat) (elemOf w k (vr s b).toNat), 0)
  done st 4 (wrV s 4 d r.1 (laneBits (pr s p)))

/-- A bitwise instruction of latency 4 on the active lanes. -/
def vecBits (s : State) (st : Stall) (d : VReg) (p : PReg) (v : VWord) : Out := done st 4 (wrV s 4 d v (laneBits (pr s p)))

/-! ## Floating point (R347, R348, R355-R357) -/

def execVfadd (st : Stall) (d a b : VReg) (p : PReg) (q : Bool) (t : FTy) (s : State) : Out := vecFp2 s st d a b p q t fpAdd
def execVfsub (st : Stall) (d a b : VReg) (p : PReg) (q : Bool) (t : FTy) (s : State) : Out := vecFp2 s st d a b p q t fpSub
def execVfmul (st : Stall) (d a b : VReg) (p : PReg) (q : Bool) (t : FTy) (s : State) : Out := vecFp2 s st d a b p q t fpMul
def execVfmin (st : Stall) (d a b : VReg) (p : PReg) (q : Bool) (t : FTy) (s : State) : Out :=
  vecFp2 s st d a b p q t fun f r => fpMinMax f r false
def execVfmax (st : Stall) (d a b : VReg) (p : PReg) (q : Bool) (t : FTy) (s : State) : Out :=
  vecFp2 s st d a b p q t fun f r => fpMinMax f r true
def execVfabs (st : Stall) (d a : VReg) (p : PReg) (q : Bool) (t : FTy) (s : State) : Out :=
  vecFp s st d p q t fun k => ((ftyFmt t).abs (vel s t a k), 0)
def execVfneg (st : Stall) (d a : VReg) (p : PReg) (q : Bool) (t : FTy) (s : State) : Out :=
  vecFp s st d p q t fun k => ((ftyFmt t).neg (vel s t a k), 0)
def execVfcpys (st : Stall) (d a b : VReg) (p : PReg) (q : Bool) (t : FTy) (s : State) : Out :=
  vecFp s st d p q t fun k => ((ftyFmt t).copySign (vel s t a k) (vel s t b k), 0)
def execVfma (st : Stall) (d a b : VReg) (p : PReg) (q : Bool) (t : FTy) (s : State) : Out := vecFma s st d a b p q t false false
def execVfms (st : Stall) (d a b : VReg) (p : PReg) (q : Bool) (t : FTy) (s : State) : Out := vecFma s st d a b p q t false true
def execVfnma (st : Stall) (d a b : VReg) (p : PReg) (q : Bool) (t : FTy) (s : State) : Out := vecFma s st d a b p q t true false
def execVfnms (st : Stall) (d a b : VReg) (p : PReg) (q : Bool) (t : FTy) (s : State) : Out := vecFma s st d a b p q t true true

def execVrcp (st : Stall) (d a : VReg) (p : PReg) (q : Bool) (t : FTy) (s : State) : Out :=
  vecFn s st d p q t fun k => fpRcp (ftyFmt t) (me s).round (vel s t a k)
def execVrsq (st : Stall) (d a : VReg) (p : PReg) (q : Bool) (t : FTy) (s : State) : Out :=
  vecFn s st d p q t fun k => fpRsq (ftyFmt t) (me s).round (vel s t a k)
def execVexp2 (st : Stall) (d a : VReg) (p : PReg) (q : Bool) (t : FTy) (s : State) : Out :=
  vecFn s st d p q t fun k => fpExp2 (ftyFmt t) (me s).round (vel s t a k)
def execVlog2 (st : Stall) (d a : VReg) (p : PReg) (q : Bool) (t : FTy) (s : State) : Out :=
  vecFn s st d p q t fun k => fpLog2 (ftyFmt t) (me s).round (vel s t a k)

/-! ## Integers and bits (R342, R351, R360) -/

def execViadd (st : Stall) (d a b : VReg) (p : PReg) (t : ITy) (s : State) : Out :=
  vecInt s st d a b p t fun w x y => (x + y) % 2 ^ w
def execVisub (st : Stall) (d a b : VReg) (p : PReg) (t : ITy) (s : State) : Out :=
  vecInt s st d a b p t fun w x y => (x + 2 ^ w - y) % 2 ^ w
def execVimul (st : Stall) (d a b : VReg) (p : PReg) (t : ITy) (s : State) : Out :=
  vecInt s st d a b p t fun w x y => x * y % 2 ^ w
/-- Bits [2w-1:w] of the signed product. -/
def execVimulh (st : Stall) (d a b : VReg) (p : PReg) (t : ITy) (s : State) : Out :=
  vecInt s st d a b p t fun w x y => intBits w (signed w x * signed w y / (2 ^ w : Int))
def execVimin (st : Stall) (d a b : VReg) (p : PReg) (t : ITy) (s : State) : Out :=
  vecInt s st d a b p t fun w x y => if signed w y < signed w x then y else x
def execVimax (st : Stall) (d a b : VReg) (p : PReg) (t : ITy) (s : State) : Out :=
  vecInt s st d a b p t fun w x y => if signed w x < signed w y then y else x
def execViminu (st : Stall) (d a b : VReg) (p : PReg) (t : ITy) (s : State) : Out :=
  vecInt s st d a b p t fun _ x y => if y < x then y else x
def execVimaxu (st : Stall) (d a b : VReg) (p : PReg) (t : ITy) (s : State) : Out :=
  vecInt s st d a b p t fun _ x y => if x < y then y else x

def execVand (st : Stall) (d a b : VReg) (p : PReg) (_ : ITy) (s : State) : Out := vecBits s st d p (vr s a &&& vr s b)
def execVor (st : Stall) (d a b : VReg) (p : PReg) (_ : ITy) (s : State) : Out := vecBits s st d p (vr s a ||| vr s b)
def execVxor (st : Stall) (d a b : VReg) (p : PReg) (_ : ITy) (s : State) : Out := vecBits s st d p (vr s a ^^^ vr s b)
def execVandn (st : Stall) (d a b : VReg) (p : PReg) (_ : ITy) (s : State) : Out := vecBits s st d p (vr s a &&& ~~~(vr s b))

def execVshl (st : Stall) (d a b : VReg) (p : PReg) (t : ITy) (s : State) : Out :=
  vecInt s st d a b p t fun w x y => x * 2 ^ (y % w) % 2 ^ w
def execVshr (st : Stall) (d a b : VReg) (p : PReg) (t : ITy) (s : State) : Out :=
  vecInt s st d a b p t fun w x y => x / 2 ^ (y % w)
def execVsra (st : Stall) (d a b : VReg) (p : PReg) (t : ITy) (s : State) : Out :=
  vecInt s st d a b p t fun w x y => intBits w (signed w x / (2 ^ (y % w) : Int))
def execVrol (st : Stall) (d a b : VReg) (p : PReg) (t : ITy) (s : State) : Out :=
  vecInt s st d a b p t fun w x y => (x * 2 ^ (y % w) + x / 2 ^ (w - y % w)) % 2 ^ w

/-! ## Comparison, selection, dot product (R343, R359, R346) -/

/-- A condition on integers of `w` bits. -/
def intCond (c : ICond) (w x y : Nat) : Bool :=
  match c with
  | .eq => x == y
  | .ne => x != y
  | .lt => decide (signed w x < signed w y)
  | .le => decide (signed w x ≤ signed w y)
  | .ltu => decide (x < y)
  | .leu => decide (x ≤ y)

/-- Bit `i` of the result: the condition holds for every element of lane `i`. -/
def lanesAll (w : Nat) (f : Nat → Bool) : BitVec 32 :=
  BitVec.ofNat 32 (packElems 1 ((List.range 32).map fun i =>
    if (List.range (32 / w)).all fun j => f (32 / w * i + j) then 1 else 0))

def execVcmp (st : Stall) (d : PReg) (a b : VReg) (p : PReg) (k : VCmpKind) (s : State) : Out :=
  match k with
  | .flt c t q =>
    let w := mtyWidth (ftyM t)
    let f (k : Nat) : Bool × Flags := fpCmp (ftyFmt t) (me s).round c (vel s t a k) (vel s t b k)
    let fs := laneFlags w ((List.range (1024 / w)).map fun k => if laneOn (pr s p) w k then (f k).2 else 0)
    done st 4 (raiseLanes (wrP s 4 d (lanesAll w fun k => (f k).1) (pr s p)) q fs)
  | .int c t =>
    let w := mtyWidth (ityM t)
    let f (k : Nat) : Bool := intCond c w (elemOf w k (vr s a).toNat) (elemOf w k (vr s b).toNat)
    done st 4 (wrP s 4 d (lanesAll w f) (pr s p))

def execVsel (st : Stall) (d a b : VReg) (p : PReg) (s : State) : Out :=
  done st 4 (wrV s 4 d (mergeBits (vr s b) (vr s a) (laneBits (pr s p))) allBits)

/-- Width, format and count of the elements of a VDOT kind; none for the integer kind. -/
def dotFmt : DotKind → Nat × Option Fmt
  | .bf16 => (16, some fmtBF16)
  | .e4m3 => (8, some fmtE4M3)
  | .e5m2 => (8, some fmtE5M2)
  | .i8 => (8, none)

/-- One lane of VDOT: accumulator `c`, lanes `x` and `y`. -/
def dotLane (k : DotKind) (c x y : Nat) : Nat :=
  let w := (dotFmt k).1
  let ks := List.range (32 / w)
  match (dotFmt k).2 with
  | some f => blockAdd c (ks.map fun j => ⟨f.unpack (elemOf w j x), f.unpack (elemOf w j y), 0⟩) (k == .bf16)
  | none => intBits 32 (ks.foldl (fun (a : Int) j => a + signed 8 (elemOf 8 j x) * signed 8 (elemOf 8 j y)) (c : Int))

def execVdot (st : Stall) (d a b : VReg) (p : PReg) (k : DotKind) (s : State) : Out :=
  let r := mapElems 32 (pr s p) fun i =>
    (dotLane k (elemOf 32 i (vr s d).toNat) (elemOf 32 i (vr s a).toNat) (elemOf 32 i (vr s b).toNat), 0)
  done st 4 (wrV s 4 d r.1 (laneBits (pr s p)))

/-! ## Conversions (R101, R344, R345, R86) -/

/-- What one side of a conversion holds: its width, and its format, none for an integer. -/
def convFrom : Conv → Nat × Option Fmt
  | .f32ToBf16 => (32, some fmtF32) | .f32ToF16 => (32, some fmtF32)
  | .f32ToE4m3 => (32, some fmtF32) | .f32ToE5m2 => (32, some fmtF32)
  | .bf16ToF32 => (16, some fmtBF16) | .f16ToF32 => (16, some fmtF16)
  | .e4m3ToF32 => (8, some fmtE4M3) | .e5m2ToF32 => (8, some fmtE5M2)
  | .bf16ToE4m3 => (16, some fmtBF16) | .bf16ToE5m2 => (16, some fmtBF16)
  | .f16ToE4m3 => (16, some fmtF16) | .f16ToE5m2 => (16, some fmtF16)
  | .f32ToI32 => (32, some fmtF32) | .i32ToF32 => (32, none)
  | .f32ToI16 => (32, some fmtF32) | .f32ToI8 => (32, some fmtF32)
  | .i16ToF32 => (16, none) | .i8ToF32 => (8, none)
  | .bf16ToF16 => (16, some fmtBF16) | .f16ToBf16 => (16, some fmtF16)
def convTo : Conv → Nat × Option Fmt
  | .f32ToBf16 => (16, some fmtBF16) | .f32ToF16 => (16, some fmtF16)
  | .f32ToE4m3 => (8, some fmtE4M3) | .f32ToE5m2 => (8, some fmtE5M2)
  | .bf16ToF32 => (32, some fmtF32) | .f16ToF32 => (32, some fmtF32)
  | .e4m3ToF32 => (32, some fmtF32) | .e5m2ToF32 => (32, some fmtF32)
  | .bf16ToE4m3 => (8, some fmtE4M3) | .bf16ToE5m2 => (8, some fmtE5M2)
  | .f16ToE4m3 => (8, some fmtE4M3) | .f16ToE5m2 => (8, some fmtE5M2)
  | .f32ToI32 => (32, none) | .i32ToF32 => (32, some fmtF32)
  | .f32ToI16 => (16, none) | .f32ToI8 => (8, none)
  | .i16ToF32 => (32, some fmtF32) | .i8ToF32 => (32, some fmtF32)
  | .bf16ToF16 => (16, some fmtF16) | .f16ToBf16 => (16, some fmtBF16)

/-- Bits from one element to the next: 16 where both sides are 16 bits wide, else a lane. -/
def convStep (c : Conv) : Nat := if (convFrom c).1 = 16 ∧ (convTo c).1 = 16 then 16 else 32

/-- Conversions that SR governs (R86). -/
def convSr : Conv → Bool
  | .f32ToBf16 | .f32ToF16 | .f32ToE4m3 | .f32ToE5m2 | .bf16ToE4m3 | .bf16ToE5m2 | .f16ToE4m3 | .f16ToE5m2 => true
  | _ => false

/-- Is it a widening conversion between floating-point formats, which rounds nothing? -/
def convWidens (c : Conv) : Bool := (convFrom c).2.isSome && decide ((convFrom c).1 < (convTo c).1)

/-- One element; `seed` is the generator's state where SR acts. -/
def convElem (c : Conv) (round : BitVec 5) (seed : Option (BitVec 16)) (x : Nat) : Nat × Flags :=
  let v := match (convFrom c).2 with
    | some f => f.unpack (f.daz (dazOf round) x)
    | none => intFp (signed (convFrom c).1 x)
  match (convTo c).2 with
  | none => let r := toInt (convTo c).1 (rmOf round) v; (intBits (convTo c).1 r.1, r.2)
  | some g =>
    convFp g v fun d =>
      match seed with
      | some q => roundSr g (ftzOf round) q d
      | none => if convWidens c then roundFix g .rne false d false else roundMode g round d

/-- The elements of the active lanes in ascending order, each advancing the generator where SR acts. -/
def convAll (c : Conv) (round : BitVec 5) (p : BitVec 32) (v : Nat) :
    List Nat → BitVec 16 → List (Nat × Flags) → List (Nat × Flags) × BitVec 16
  | [], q, acc => (acc, q)
  | k :: r, q, acc =>
    let w := convStep c
    let x := elemOf w k v % 2 ^ (convFrom c).1
    if !laneOn p w k then convAll c round p v r q (acc ++ [(0, 0)])
    else if isSR round && convSr c then
      convAll c round p v r (seedNext q) (acc ++ [convElem c round (some (seedNext q)) x])
    else convAll c round p v r q (acc ++ [convElem c round none x])

def execVcvt (st : Stall) (d a : VReg) (p : PReg) (q : Bool) (f : Conv) (s : State) : Out :=
  let t := me s
  let w := convStep f
  let n := 1024 / w
  let r := convAll f t.round (pr s p) (vr s a).toNat (List.range n) t.seed []
  let mask := packElems w ((List.range n).map fun k => if laneOn (pr s p) w k then 2 ^ (convTo f).1 - 1 else 0)
  let s := setMe s { t with seed := r.2 }
  done st 4
    (raiseLanes (wrV s 4 d (ofElems w (r.1.map fun e => e.1)) (BitVec.ofNat 1024 mask)) q (laneFlags w (r.1.map fun e => e.2)))

/-! ## Reductions (R92, R358) -/

/-- One level of the tree: neighbours of a list combined. -/
def foldPairs (f : Nat → Nat → Nat × Flags) : List Nat → Flags → List Nat × Flags
  | x :: y :: r, fl =>
    let z := f x y
    let t := foldPairs f r (fl ||| z.2)
    (z.1 :: t.1, t.2)
  | l, fl => (l, fl)

/-- `n` levels of the tree. -/
def foldTree (f : Nat → Nat → Nat × Flags) : Nat → List Nat → Flags → Nat × Flags
  | 0, l, fl => (l.headD 0, fl)
  | n + 1, l, fl => let r := foldPairs f l fl; foldTree f n r.1 r.2

/-- A reduction with the value that an inactive element enters as. Under DAZ a subnormal partial sum is read as zero like any
input of an addition (R92; DESIGN CHOICE, log 77). -/
def vecTree (s : State) (st : Stall) (d a : VReg) (p : PReg) (q : Bool) (t : FTy) (idle : Nat)
    (f : Nat → Nat → Nat × Flags) : Out :=
  let w := mtyWidth (ftyM t)
  let es := (List.range (1024 / w)).map fun k => if laneOn (pr s p) w k then vel s t a k else idle
  let r := foldTree f (if w = 32 then 5 else 6) es 0
  let fs := if (pr s p).getLsbD 0 then [r.2] else []
  done st 4 (raiseLanes (wrV s 6 d (BitVec.ofNat 1024 (r.1 % 2 ^ w)) allBits) q fs)

def execVrsum (st : Stall) (d a : VReg) (p : PReg) (q : Bool) (t : FTy) (s : State) : Out :=
  vecTree s st d a p q t ((ftyFmt t).signBit true) (fpAdd (ftyFmt t) (me s).round)
def execVrmax (st : Stall) (d a : VReg) (p : PReg) (q : Bool) (t : FTy) (s : State) : Out :=
  vecTree s st d a p q t ((ftyFmt t).infinity true) (fpMinMax (ftyFmt t) (me s).round true)
def execVrmin (st : Stall) (d a : VReg) (p : PReg) (q : Bool) (t : FTy) (s : State) : Out :=
  vecTree s st d a p q t ((ftyFmt t).infinity false) (fpMinMax (ftyFmt t) (me s).round false)

/-! ## Permutation (R361) -/

def execVshuf (st : Stall) (d a : VReg) (s : State) : Out :=
  let es := (List.range 32).map fun i => elemOf 32 (elemOf 32 i (vr s d).toNat % 32) (vr s a).toNat
  done st 4 (wrV s 6 d (ofElems 32 es) allBits)
def execVbcast (st : Stall) (x : Reg) (d : VReg) (s : State) : Out :=
  done st 4 (wrV s 6 d (ofElems 32 (List.replicate 32 (bitsOf (xr s x) 0 32))) allBits)
def execVextr (st : Stall) (d : Reg) (a : VReg) (l : BitVec 5) (s : State) : Out :=
  done st 4 (wrX s 6 d (BitVec.ofNat 64 (elemOf 32 l.toNat (vr s a).toNat)))
def execVinsr (st : Stall) (x : Reg) (d : VReg) (l : BitVec 5) (s : State) : Out :=
  done st 4 (wrV s 6 d (ofElems 32 (List.replicate 32 (bitsOf (xr s x) 0 32))) (laneBits (BitVec.ofNat 32 (2 ^ l.toNat))))

/-! ## Predicates (R317) -/

/-- A predicate result of latency 1. -/
def predResult (s : State) (st : Stall) (d : PReg) (v : BitVec 32) : Out := done st 4 (wrP s 1 d v (BitVec.allOnes 32))

def execPand (st : Stall) (d a b : PReg) (s : State) : Out := predResult s st d (pr s a &&& pr s b)
def execPor (st : Stall) (d a b : PReg) (s : State) : Out := predResult s st d (pr s a ||| pr s b)
def execPxor (st : Stall) (d a b : PReg) (s : State) : Out := predResult s st d (pr s a ^^^ pr s b)
def execPnot (st : Stall) (d a : PReg) (s : State) : Out := predResult s st d (~~~(pr s a))
def execPcnt (st : Stall) (d : Reg) (a : PReg) (s : State) : Out :=
  alu s st 4 d (BitVec.ofNat 64 (popOf 32 (pr s a).toNat))

/-! ## The lanes' flags (R89, R291) -/

/-- Is an earlier vector instruction of the context still on its way, so that its end will wake a waiter? -/
def vectorsOut (t : Ctx) : Bool :=
  (t.rslots.any fun r => r.kind == 1) || (t.acks.any fun u => u.vec) ||
    t.var.any fun v => !v.unit && decide (0x20 ≤ v.code) && decide (v.code < 0x38)

/-- Wait for the context's earlier vector instructions, then go on (log 16). -/
def afterVectors (s : State) (f : State → Out) : Out :=
  if vectorsDone (me s) then f s else if vectorsOut (me s) then .next (parkHere s .reply) else .next s

def execFlgrd (st : Stall) (d : VReg) (s : State) : Out :=
  afterVectors s fun s => done st 4 (varResult s (vCode d) (.value (laneSets (me s))) (laneSets (me s)) allBits)
def execFlgclr (st : Stall) (p : PReg) (s : State) : Out :=
  afterVectors s fun s => done st 4 (setMe s ((me s).clearLanes (pr s p)))

end Sys2Proof.Machine
end

