-- ==== Sys2Proof/Machine/Dispatch.lean ====
section
/-! DEFINITION. Sys2Proof/Machine/Dispatch.lean: one arm for each row of the table of operations and events, each one call
of its meaning. -/

namespace Sys2Proof.Machine

def exec (i : Instr) (s : State) : Host.Outcome State Fault Refusal :=
  match i with
  | .nopShort => Sys2Proof.Machine.execNopShort s
  | .mov d a => Sys2Proof.Machine.execMov d a s
  | .li d imm => Sys2Proof.Machine.execLi d imm s
  | .addShort d a => Sys2Proof.Machine.execAddShort d a s
  | .subShort d a => Sys2Proof.Machine.execSubShort d a s
  | .andShort d a => Sys2Proof.Machine.execAndShort d a s
  | .orShort d a => Sys2Proof.Machine.execOrShort d a s
  | .xorShort d a => Sys2Proof.Machine.execXorShort d a s
  | .addiShort d imm => Sys2Proof.Machine.execAddiShort d imm s
  | .shliShort d n => Sys2Proof.Machine.execShliShort d n s
  | .shriShort d n => Sys2Proof.Machine.execShriShort d n s
  | .sraiShort d n => Sys2Proof.Machine.execSraiShort d n s
  | .ldDShort d a => Sys2Proof.Machine.execLdDShort d a s
  | .stDShort d a => Sys2Proof.Machine.execStDShort d a s
  | .jrShort a => Sys2Proof.Machine.execJrShort a s
  | .endShort => Sys2Proof.Machine.execEndShort s
  | .beqz d o => Sys2Proof.Machine.execBeqz d o s
  | .bnez d o => Sys2Proof.Machine.execBnez d o s
  | .add st d a b => Sys2Proof.Machine.execAdd st d a b s
  | .sub st d a b => Sys2Proof.Machine.execSub st d a b s
  | .and st d a b => Sys2Proof.Machine.execAnd st d a b s
  | .or st d a b => Sys2Proof.Machine.execOr st d a b s
  | .xor st d a b => Sys2Proof.Machine.execXor st d a b s
  | .andn st d a b => Sys2Proof.Machine.execAndn st d a b s
  | .shl st d a b => Sys2Proof.Machine.execShl st d a b s
  | .shr st d a b => Sys2Proof.Machine.execShr st d a b s
  | .sra st d a b => Sys2Proof.Machine.execSra st d a b s
  | .rol st d a b => Sys2Proof.Machine.execRol st d a b s
  | .min st d a b => Sys2Proof.Machine.execMin st d a b s
  | .max st d a b => Sys2Proof.Machine.execMax st d a b s
  | .minu st d a b => Sys2Proof.Machine.execMinu st d a b s
  | .maxu st d a b => Sys2Proof.Machine.execMaxu st d a b s
  | .mul st d a b => Sys2Proof.Machine.execMul st d a b s
  | .mulh st d a b => Sys2Proof.Machine.execMulh st d a b s
  | .mulhu st d a b => Sys2Proof.Machine.execMulhu st d a b s
  | .div st d a b => Sys2Proof.Machine.execDiv st d a b s
  | .divu st d a b => Sys2Proof.Machine.execDivu st d a b s
  | .rem st d a b => Sys2Proof.Machine.execRem st d a b s
  | .remu st d a b => Sys2Proof.Machine.execRemu st d a b s
  | .clz st d a => Sys2Proof.Machine.execClz st d a s
  | .ctz st d a => Sys2Proof.Machine.execCtz st d a s
  | .popc st d a => Sys2Proof.Machine.execPopc st d a s
  | .addi st d a imm => Sys2Proof.Machine.execAddi st d a imm s
  | .andi st d a imm => Sys2Proof.Machine.execAndi st d a imm s
  | .ori st d a imm => Sys2Proof.Machine.execOri st d a imm s
  | .xori st d a imm => Sys2Proof.Machine.execXori st d a imm s
  | .shli st d a n => Sys2Proof.Machine.execShli st d a n s
  | .shri st d a n => Sys2Proof.Machine.execShri st d a n s
  | .srai st d a n => Sys2Proof.Machine.execSrai st d a n s
  | .roli st d a n => Sys2Proof.Machine.execRoli st d a n s
  | .cmp st d a b c => Sys2Proof.Machine.execCmp st d a b c s
  | .lih st d imm => Sys2Proof.Machine.execLih st d imm s
  | .madd st d a b => Sys2Proof.Machine.execMadd st d a b s
  | .msub st d a b => Sys2Proof.Machine.execMsub st d a b s
  | .bfx st d a p l => Sys2Proof.Machine.execBfx st d a p l s
  | .bfi st d a p l => Sys2Proof.Machine.execBfi st d a p l s
  | .mkadr st d a b => Sys2Proof.Machine.execMkadr st d a b s
  | .absa st d a => Sys2Proof.Machine.execAbsa st d a s
  | .gptr st d a => Sys2Proof.Machine.execGptr st d a s
  | .sel st d a b c => Sys2Proof.Machine.execSel st d a b c s
  | .beq a b o => Sys2Proof.Machine.execBeq a b o s
  | .bne a b o => Sys2Proof.Machine.execBne a b o s
  | .blt a b o => Sys2Proof.Machine.execBlt a b o s
  | .bge a b o => Sys2Proof.Machine.execBge a b o s
  | .bltu a b o => Sys2Proof.Machine.execBltu a b o s
  | .bgeu a b o => Sys2Proof.Machine.execBgeu a b o s
  | .j o => Sys2Proof.Machine.execJ o s
  | .jal o => Sys2Proof.Machine.execJal o s
  | .jr st a => Sys2Proof.Machine.execJr st a s
  | .jalr st d a => Sys2Proof.Machine.execJalr st d a s
  | .loop st a imm => Sys2Proof.Machine.execLoop st a imm s
  | .nop st => Sys2Proof.Machine.execNop st s
  | .endAct st => Sys2Proof.Machine.execEndAct st s
  | .trap st a => Sys2Proof.Machine.execTrap st a s
  | .sysc st a => Sys2Proof.Machine.execSysc st a s
  | .eret st => Sys2Proof.Machine.execEret st s
  | .halt st => Sys2Proof.Machine.execHalt st s
  | .resume st m a => Sys2Proof.Machine.execResume st m a s
  | .ld st t b z o => Sys2Proof.Machine.execLd st t b z o s
  | .ldw st t b z o => Sys2Proof.Machine.execLdw st t b z o s
  | .ldc st t b z o => Sys2Proof.Machine.execLdc st t b z o s
  | .st st t b z o => Sys2Proof.Machine.execSt st t b z o s
  | .stp st t b z o => Sys2Proof.Machine.execStp st t b z o s
  | .stf st t b z o => Sys2Proof.Machine.execStf st t b z o s
  | .get st d a b => Sys2Proof.Machine.execGet st d a b s
  | .put st d a b => Sys2Proof.Machine.execPut st d a b s
  | .feqry st d a => Sys2Proof.Machine.execFeqry st d a s
  | .feset st a b => Sys2Proof.Machine.execFeset st a b s
  | .amo st d a b n z o => Sys2Proof.Machine.execAmo st d a b n z o s
  | .cas st d a b z => Sys2Proof.Machine.execCas st d a b z s
  | .enq st d a b => Sys2Proof.Machine.execEnq st d a b s
  | .deq st d a b => Sys2Proof.Machine.execDeq st d a b s
  | .vld st v b p t o => Sys2Proof.Machine.execVld st v b p t o s
  | .vldw st v b p t o => Sys2Proof.Machine.execVldw st v b p t o s
  | .vldc st v b p t o => Sys2Proof.Machine.execVldc st v b p t o s
  | .vst st v b p t o => Sys2Proof.Machine.execVst st v b p t o s
  | .vstp st v b p t o => Sys2Proof.Machine.execVstp st v b p t o s
  | .vstf st v b p t o => Sys2Proof.Machine.execVstf st v b p t o s
  | .vgath st v b imm p t => Sys2Proof.Machine.execVgath st v b imm p t s
  | .vscat st v b imm p t => Sys2Proof.Machine.execVscat st v b imm p t s
  | .vfadd st d a b p q t => Sys2Proof.Machine.execVfadd st d a b p q t s
  | .vfsub st d a b p q t => Sys2Proof.Machine.execVfsub st d a b p q t s
  | .vfmul st d a b p q t => Sys2Proof.Machine.execVfmul st d a b p q t s
  | .vfmin st d a b p q t => Sys2Proof.Machine.execVfmin st d a b p q t s
  | .vfmax st d a b p q t => Sys2Proof.Machine.execVfmax st d a b p q t s
  | .vfabs st d a p q t => Sys2Proof.Machine.execVfabs st d a p q t s
  | .vfneg st d a p q t => Sys2Proof.Machine.execVfneg st d a p q t s
  | .vfcpys st d a b p q t => Sys2Proof.Machine.execVfcpys st d a b p q t s
  | .vfma st d a b p q t => Sys2Proof.Machine.execVfma st d a b p q t s
  | .vfms st d a b p q t => Sys2Proof.Machine.execVfms st d a b p q t s
  | .vfnma st d a b p q t => Sys2Proof.Machine.execVfnma st d a b p q t s
  | .vfnms st d a b p q t => Sys2Proof.Machine.execVfnms st d a b p q t s
  | .vrcp st d a p q t => Sys2Proof.Machine.execVrcp st d a p q t s
  | .vrsq st d a p q t => Sys2Proof.Machine.execVrsq st d a p q t s
  | .vexp2 st d a p q t => Sys2Proof.Machine.execVexp2 st d a p q t s
  | .vlog2 st d a p q t => Sys2Proof.Machine.execVlog2 st d a p q t s
  | .viadd st d a b p t => Sys2Proof.Machine.execViadd st d a b p t s
  | .visub st d a b p t => Sys2Proof.Machine.execVisub st d a b p t s
  | .vimul st d a b p t => Sys2Proof.Machine.execVimul st d a b p t s
  | .vimulh st d a b p t => Sys2Proof.Machine.execVimulh st d a b p t s
  | .vimin st d a b p t => Sys2Proof.Machine.execVimin st d a b p t s
  | .vimax st d a b p t => Sys2Proof.Machine.execVimax st d a b p t s
  | .viminu st d a b p t => Sys2Proof.Machine.execViminu st d a b p t s
  | .vimaxu st d a b p t => Sys2Proof.Machine.execVimaxu st d a b p t s
  | .vand st d a b p t => Sys2Proof.Machine.execVand st d a b p t s
  | .vor st d a b p t => Sys2Proof.Machine.execVor st d a b p t s
  | .vxor st d a b p t => Sys2Proof.Machine.execVxor st d a b p t s
  | .vandn st d a b p t => Sys2Proof.Machine.execVandn st d a b p t s
  | .vshl st d a b p t => Sys2Proof.Machine.execVshl st d a b p t s
  | .vshr st d a b p t => Sys2Proof.Machine.execVshr st d a b p t s
  | .vsra st d a b p t => Sys2Proof.Machine.execVsra st d a b p t s
  | .vrol st d a b p t => Sys2Proof.Machine.execVrol st d a b p t s
  | .vcmp st d a b p k => Sys2Proof.Machine.execVcmp st d a b p k s
  | .vsel st d a b p => Sys2Proof.Machine.execVsel st d a b p s
  | .vcvt st d a p q f => Sys2Proof.Machine.execVcvt st d a p q f s
  | .vrsum st d a p q t => Sys2Proof.Machine.execVrsum st d a p q t s
  | .vrmax st d a p q t => Sys2Proof.Machine.execVrmax st d a p q t s
  | .vrmin st d a p q t => Sys2Proof.Machine.execVrmin st d a p q t s
  | .vshuf st d a => Sys2Proof.Machine.execVshuf st d a s
  | .vbcast st x d => Sys2Proof.Machine.execVbcast st x d s
  | .vextr st d a l => Sys2Proof.Machine.execVextr st d a l s
  | .vinsr st x d l => Sys2Proof.Machine.execVinsr st x d l s
  | .vdot st d a b p k => Sys2Proof.Machine.execVdot st d a b p k s
  | .pand st d a b => Sys2Proof.Machine.execPand st d a b s
  | .por st d a b => Sys2Proof.Machine.execPor st d a b s
  | .pxor st d a b => Sys2Proof.Machine.execPxor st d a b s
  | .pnot st d a => Sys2Proof.Machine.execPnot st d a s
  | .pcnt st d a => Sys2Proof.Machine.execPcnt st d a s
  | .flgrd st d => Sys2Proof.Machine.execFlgrd st d s
  | .flgclr st p => Sys2Proof.Machine.execFlgclr st p s
  | .gadd st d a b => Sys2Proof.Machine.execGadd st d a b s
  | .gdamp st d a b => Sys2Proof.Machine.execGdamp st d a b s
  | .gsolve st d a => Sys2Proof.Machine.execGsolve st d a s
  | .gres st d a b h => Sys2Proof.Machine.execGres st d a b h s
  | .gelim st d a m t p => Sys2Proof.Machine.execGelim st d a m t p s
  | .gaussComplete core => Sys2Proof.Machine.execGaussComplete core s
  | .mload st a b g t => Sys2Proof.Machine.execMload st a b g t s
  | .mflip st b g t => Sys2Proof.Machine.execMflip st b g t s
  | .mstrm st a b c g o t => Sys2Proof.Machine.execMstrm st a b c g o t s
  | .mdrain st a b c g k t => Sys2Proof.Machine.execMdrain st a b c g k t s
  | .mclr st b c g r t => Sys2Proof.Machine.execMclr st b c g r t s
  | .millExecute core => Sys2Proof.Machine.execMillExecute core s
  | .copy st a b c => Sys2Proof.Machine.execCopy st a b c s
  | .copym st a b c g o t => Sys2Proof.Machine.execCopym st a b c g o t s
  | .gather st a b c r => Sys2Proof.Machine.execGather st a b c r s
  | .scatter st a b c => Sys2Proof.Machine.execScatter st a b c s
  | .mcast st a b c r => Sys2Proof.Machine.execMcast st a b c r s
  | .copyEngineExecute core k => Sys2Proof.Machine.execCopyEngineExecute core k s
  | .tmset st a b => Sys2Proof.Machine.execTmset st a b s
  | .tmadv st a b => Sys2Proof.Machine.execTmadv st a b s
  | .disp st a b c n => Sys2Proof.Machine.execDisp st a b c n s
  | .dcur st a b => Sys2Proof.Machine.execDcur st a b s
  | .dres st a b n => Sys2Proof.Machine.execDres st a b n s
  | .comb st a b c => Sys2Proof.Machine.execComb st a b c s
  | .dispatchEngineExecute core k => Sys2Proof.Machine.execDispatchEngineExecute core k s
  | .grantServed core => Sys2Proof.Machine.execGrantServed core s
  | .grantBoundExpiry core k => Sys2Proof.Machine.execGrantBoundExpiry core k s
  | .tmark st d => Sys2Proof.Machine.execTmark st d s
  | .replay st a b c k => Sys2Proof.Machine.execReplay st a b c k s
  | .ttrim st a => Sys2Proof.Machine.execTtrim st a s
  | .rowContribution k => Sys2Proof.Machine.execRowContribution k s
  | .send st a b => Sys2Proof.Machine.execSend st a b s
  | .sendb st a b c => Sys2Proof.Machine.execSendb st a b c s
  | .reply st b => Sys2Proof.Machine.execReply st b s
  | .spawn st b => Sys2Proof.Machine.execSpawn st b s
  | .tagen st a => Sys2Proof.Machine.execTagen st a s
  | .tagdis st a => Sys2Proof.Machine.execTagdis st a s
  | .tagpnd st d => Sys2Proof.Machine.execTagpnd st d s
  | .mbput st a b c => Sys2Proof.Machine.execMbput st a b c s
  | .mbtake st a d => Sys2Proof.Machine.execMbtake st a d s
  | .mbcfg st a => Sys2Proof.Machine.execMbcfg st a s
  | .crySt st a b => Sys2Proof.Machine.execCrySt st a b s
  | .cryAdd st d a b => Sys2Proof.Machine.execCryAdd st d a b s
  | .cryMark st d => Sys2Proof.Machine.execCryMark st d s
  | .fence k c => Sys2Proof.Machine.execFence k c s
  | .publish st a => Sys2Proof.Machine.execPublish st a s
  | .barr st c imm => Sys2Proof.Machine.execBarr st c imm s
  | .bwait st d c imm => Sys2Proof.Machine.execBwait st d c imm s
  | .cntadd st a b => Sys2Proof.Machine.execCntadd st a b s
  | .cntarm st a b => Sys2Proof.Machine.execCntarm st a b s
  | .cntrd st d a => Sys2Proof.Machine.execCntrd st d a s
  | .srd st d n => Sys2Proof.Machine.execSrd st d n s
  | .swr st a n => Sys2Proof.Machine.execSwr st a n s
  | .ctxsv st a b => Sys2Proof.Machine.execCtxsv st a b s
  | .ctxld st a b => Sys2Proof.Machine.execCtxld st a b s
  | .xinv st a b => Sys2Proof.Machine.execXinv st a b s
  | .messageArrival k => Sys2Proof.Machine.execMessageArrival k s
  | .rplyArrival k => Sys2Proof.Machine.execRplyArrival k s
  | .dispatch core => Sys2Proof.Machine.execDispatch core s
  | .priorityPromotion core ctx => Sys2Proof.Machine.execPriorityPromotion core ctx s
  | .sendQueueEntryLeaves core => Sys2Proof.Machine.execSendQueueEntryLeaves core s
  | .stealRequest core => Sys2Proof.Machine.execStealRequest core s
  | .stealRequestArrival k => Sys2Proof.Machine.execStealRequestArrival k s
  | .stolenRecordsArrival k => Sys2Proof.Machine.execStolenRecordsArrival k s
  | .levellingInterval core => Sys2Proof.Machine.execLevellingInterval core s
  | .levellingShipmentArrival k => Sys2Proof.Machine.execLevellingShipmentArrival k s
  | .barrierTimeout core off => Sys2Proof.Machine.execBarrierTimeout core off s
  | .fullEmptyWaiterApplied k => Sys2Proof.Machine.execFullEmptyWaiterApplied k s
  | .accessReplyArrival k => Sys2Proof.Machine.execAccessReplyArrival k s
  | .storeAcknowledgement k => Sys2Proof.Machine.execStoreAcknowledgement k s
  | .pageWalk k => Sys2Proof.Machine.execPageWalk k s
  | .contribution k => Sys2Proof.Machine.execContribution k s
  | .reductionDeadline die slot => Sys2Proof.Machine.execReductionDeadline die slot s
  | .catchupProbe k => Sys2Proof.Machine.execCatchupProbe k s
  | .marker k src => Sys2Proof.Machine.execMarker k src s
  | .packetDelivery k => Sys2Proof.Machine.execPacketDelivery k s
  | .packetLost k => Sys2Proof.Machine.execPacketLost k s
  | .flitRetransmit k => Sys2Proof.Machine.execFlitRetransmit k s
  | .escapeChannelDivert k => Sys2Proof.Machine.execEscapeChannelDivert k s
  | .linkFailure pkg link => Sys2Proof.Machine.execLinkFailure pkg link s
  | .laneErrorWindow pkg lane count => Sys2Proof.Machine.execLaneErrorWindow pkg lane count s
  | .laneRetrainDone pkg lane pass => Sys2Proof.Machine.execLaneRetrainDone pkg lane pass s
  | .crierTokenFrame pod => Sys2Proof.Machine.execCrierTokenFrame pod s
  | .crierSilentHolder pod => Sys2Proof.Machine.execCrierSilentHolder pod s
  | .crierResendRequest pkg => Sys2Proof.Machine.execCrierResendRequest pkg s
  | .crierStApplied pkg => Sys2Proof.Machine.execCrierStApplied pkg s
  | .crierAddApplied pkg => Sys2Proof.Machine.execCrierAddApplied pkg s
  | .crierMarkApplied pkg => Sys2Proof.Machine.execCrierMarkApplied pkg s
  | .crierBarrierArrival pkg => Sys2Proof.Machine.execCrierBarrierArrival pkg s
  | .crierMarket pkg => Sys2Proof.Machine.execCrierMarket pkg s
  | .crierGen pkg => Sys2Proof.Machine.execCrierGen pkg s
  | .crierDrained pkg => Sys2Proof.Machine.execCrierDrained pkg s
  | .drainedSend pkg => Sys2Proof.Machine.execDrainedSend pkg s
  | .crierMember pkg => Sys2Proof.Machine.execCrierMember pkg s
  | .crierIntent pkg => Sys2Proof.Machine.execCrierIntent pkg s
  | .crierUnknownKind pkg => Sys2Proof.Machine.execCrierUnknownKind pkg s
  | .commit k => Sys2Proof.Machine.execCommit k s
  | .commitCheck pkg => Sys2Proof.Machine.execCommitCheck pkg s
  | .stop k => Sys2Proof.Machine.execStop k s
  | .stopComplete pkg part => Sys2Proof.Machine.execStopComplete pkg part s
  | .go k => Sys2Proof.Machine.execGo k s
  | .partitionReset k => Sys2Proof.Machine.execPartitionReset k s
  | .resetComplete pkg part => Sys2Proof.Machine.execResetComplete pkg part s
  | .partitionEntryWrite k => Sys2Proof.Machine.execPartitionEntryWrite k s
  | .quadTableWrite k => Sys2Proof.Machine.execQuadTableWrite k s
  | .classTableWrite k => Sys2Proof.Machine.execClassTableWrite k s
  | .barrierRecordWrite k => Sys2Proof.Machine.execBarrierRecordWrite k s
  | .regionDescriptorWrite k => Sys2Proof.Machine.execRegionDescriptorWrite k s
  | .tapeQuotaWrite k => Sys2Proof.Machine.execTapeQuotaWrite k s
  | .savebaseWrite k => Sys2Proof.Machine.execSavebaseWrite k s
  | .hostPortWrite k => Sys2Proof.Machine.execHostPortWrite k s
  | .lcommit k => Sys2Proof.Machine.execLcommit k s
  | .energyCounterClear k => Sys2Proof.Machine.execEnergyCounterClear k s
  | .unfreeze k => Sys2Proof.Machine.execUnfreeze k s
  | .controlWordWrite k => Sys2Proof.Machine.execControlWordWrite k s
  | .marketInterval pod => Sys2Proof.Machine.execMarketInterval pod s
  | .energyUpdate pkg => Sys2Proof.Machine.execEnergyUpdate pkg s
  | .powerOnReset => Sys2Proof.Machine.execPowerOnReset s
  | .boot pkg image => Sys2Proof.Machine.execBoot pkg image s
  | .attestationRequest core nonce => Sys2Proof.Machine.execAttestationRequest core nonce s
  | .hostWindowWrite pkg port off data => Sys2Proof.Machine.execHostWindowWrite pkg port off data s
  | .hostRetry pkg => Sys2Proof.Machine.execHostRetry pkg s
  | .sramScrub core => Sys2Proof.Machine.execSramScrub core s
  | .lpddr6Scrub pkg => Sys2Proof.Machine.execLpddr6Scrub pkg s
  | .telemetry pkg => Sys2Proof.Machine.execTelemetry pkg s
  | .ageingMonitor pkg quad => Sys2Proof.Machine.execAgeingMonitor pkg quad s
  | .marginReplan pkg => Sys2Proof.Machine.execMarginReplan pkg s
  | .memoryError k u => Sys2Proof.Machine.execMemoryError k u s
  | .sumStoreError die slot granule => Sys2Proof.Machine.execSumStoreError die slot granule s
  | .illegalInstruction f => Sys2Proof.Machine.execIllegalInstruction f s
  | .variableLatencyResult core ctx => Sys2Proof.Machine.execVariableLatencyResult core ctx s
  | .remoteAccessArrival k => Sys2Proof.Machine.execRemoteAccessArrival k s
  | .powerLoss pkg die => Sys2Proof.Machine.execPowerLoss pkg die s
  | .powerLimit pkg => Sys2Proof.Machine.execPowerLimit pkg s
  | .endToEndCheckFailure k => Sys2Proof.Machine.execEndToEndCheckFailure k s

end Sys2Proof.Machine
end

