-- ==== Sys2Proof/Machine/Step.lean ====
section
/-! DEFINITION. Sys2Proof/Machine/Step.lean: one step of the machine, and the placing of an instruction where the next step
fetches it. -/

namespace Sys2Proof.Machine

/-- One cycle of a core: an instruction, or nothing to run. -/
def coreStep (s : State) (n : Nat) (late : Bool) : Host.Outcome State Fault Refusal :=
  if !coreExists n then .fault (.noSuchCore n)
  else
    match cycleOf s n late with
    | .over t => .next t
    | .run t i => exec i t

/-- Does a schedule's event move the machine? Instructions run only where a core fetches them. -/
def isEvent (i : Instr) : Bool :=
  match i with
  | .illegalInstruction _ => false
  | i => !i.isCode

/-- One step: what the schedule names first, or what moves of itself. Free values are counted on. -/
def step (s : State) : Host.Outcome State Fault Refusal :=
  let s := { s with free := s.free + 1 }
  match s.sched with
  | .issue n late :: r => coreStep { s with sched := r } n late
  | .enrol g p :: r => .next (sendAdmit { s with sched := r } g p)
  | .ask g :: r => .next (firstAsk { s with sched := r } g)
  | .event i :: r => if isEvent i then exec i { s with sched := r } else .next { s with sched := r }
  | [] =>
    match autoMove s with
    | .state t => .next t
    | .core n => coreStep s n false
    | .idle => .next s

/-- The context of core 0 that its next cycle runs: the one that the cycle chooses, else context 0. -/
def fetchCtx (s : State) : Nat :=
  let s := readyCore s 0
  match choose s 0 (eligible s 0) with
  | some (c, _) => c
  | none => 0

/-- Context `c` of core 0 can issue at once. -/
def makeReady (s : State) (c : Nat) : State :=
  let t := ctxAt s 0 c
  setCtx s 0 c { t with
    st := .running
    cause := .none
    stall := 0
    block := .none
    queued := []
    awaits := none
    check := false
    rslots := []
    pend := []
    var := [] }

/-- Is core 0 kept from issuing by its partition's stop word or by a loss of power? -/
def openCore (s : State) : State :=
  let s := setPkg s 0 { pkgAt s 0 with dead := false }
  let s := setDie s 0 { dieAt s 0 with dead := false }
  match partOf s 0 with
  | some p => if stopState s 0 p = 0 then s else setStop s 0 p 0
  | none => s

/-- Store the instruction of a table row's word where the next step fetches: at the PC of core 0's next context (log 43). -/
def State.withFetchWord (s : State) (nbits w : Nat) : State :=
  let s := if dieDead s 0 || stopped s 0 then openCore s else s
  let cs := eligible (readyCore s 0) 0
  let c := fetchCtx s
  let s := if cs = [] then makeReady s c else s
  let pc := (ctxAt s 0 c).pc.toNat
  let p := if nbits ≤ 16 then w % 65536 else w / 65536 % 65536
  let q := if nbits ≤ 16 then 0 else w % 65536
  let m := Memory.write s.mem (sliceKey 0 (0x400000 + pc)) 2 p
  let m := Memory.write m (sliceKey 0 (0x400000 + pc + 2)) 2 q
  { s with mem := m, sched := .issue 0 false :: s.sched }

end Sys2Proof.Machine
end

