-- ==== Sys2Proof/Safety.lean ====
section
/-! DEFINITION. Sys2Proof/Safety.lean: the terms in which claims about the machine are stated: what a register reads in a
later cycle, what one instruction may leave changed, and how its context goes on. -/

namespace Sys2Proof.Machine

/-! ## What a register reads -/

/-- x[r] as an instruction of the context reads it when it issues in cycle `c` and nothing is issued before it (R108). -/
def Ctx.xAt (t : Ctx) (c : Nat) (r : Reg) : Word := (t.commit c).rx r
/-- v[r] in cycle `c`. -/
def Ctx.vAt (t : Ctx) (c : Nat) (r : VReg) : VWord := (t.commit c).rv r
/-- p[r] in cycle `c`. -/
def Ctx.pAt (t : Ctx) (c : Nat) (r : PReg) : BitVec 32 := (t.commit c).rp r

/-- v[d] in cycle `c` after the bits of `mask` have been written with latency `lat` by an instruction issued in cycle `cy`:
results of older instructions that would arrive after the write are discarded (R110), all of them where it takes effect at
once. -/
def Ctx.vAfter (t : Ctx) (cy lat : Nat) (d : VReg) (v mask : VWord) (c : Nat) : VWord :=
  if mask = 0 then t.vAt c d else mergeBits (if lat ≤ 1 then t.rv d else t.vAt (cy + lat) d) v mask
/-- The same of p[d]. -/
def Ctx.pAfter (t : Ctx) (cy lat : Nat) (d : PReg) (v mask : BitVec 32) (c : Nat) : BitVec 32 :=
  if mask = 0 then t.pAt c d else mergeBits (if lat ≤ 1 then t.rp d else t.pAt (cy + lat) d) v mask

/-! ## What an instruction leaves alone -/

/-- Every byte of memory reads as before. -/
def MemSame (s t : State) : Prop := ∀ a, Memory.get t.mem a = Memory.get s.mem a

/-- Nothing but the running context differs: no byte of memory, no full/empty bit, no other context, core, die or package,
nothing on its way. -/
def MineOnly (s t : State) : Prop := t = setMe s (me t) ∧ MemSame s t

/-- The running context stands after an instruction of `len` bytes: PC + len, checked against its loop levels (R96, R308), and
bound by the stall count (R109). -/
def WentOn (s t : State) (st : Stall) (len : Nat) : Prop :=
  (me t).pc = (loopCheck (me s).loops ((me s).pc + BitVec.ofNat 64 len)).2 ∧
  (me t).loops = (loopCheck (me s).loops ((me s).pc + BitVec.ofNat 64 len)).1 ∧
  (me t).stall = (myCore s).cycle + st.toNat + 1

/-- The x registers but `d` read as before in every cycle, and so does every v and p register. -/
def XSameBut (d : Reg) (t u : Ctx) : Prop :=
  (∀ c r, r ≠ d → u.xAt c r = t.xAt c r) ∧ (∀ c r, u.vAt c r = t.vAt c r) ∧ ∀ c r, u.pAt c r = t.pAt c r

/-- `i` completes, writing `v` into x[d] with latency `lat`, and changes nothing else. x0 reads zero (R103). -/
def WritesX (i : Instr) (s : State) (st : Stall) (len lat : Nat) (d : Reg) (v : Word) : Prop :=
  ∃ t, exec i s = .next t ∧ MineOnly s t ∧ WentOn s t st len ∧
    me t = { me s with
      x := (me t).x
      pend := (me t).pend
      pc := (me t).pc
      loops := (me t).loops
      stall := (me t).stall } ∧
    (∀ c, (myCore s).cycle + lat ≤ c → (me t).xAt c d = if d = 0 then 0 else v) ∧
    (∀ c, 1 < lat → c < (myCore s).cycle + lat → (me t).xAt c d = (me s).xAt c d) ∧
    XSameBut d (me s) (me t)

/-- Every x and p register, and every v register but `d`, reads as before in every cycle. -/
def VSameBut (d : VReg) (t u : Ctx) : Prop :=
  (∀ c r, r ≠ d → u.vAt c r = t.vAt c r) ∧ (∀ c r, u.xAt c r = t.xAt c r) ∧ ∀ c r, u.pAt c r = t.pAt c r

/-- `i` of four bytes completes, writing the bits of `mask` of v[d] with latency `lat` and leaving the lanes' flags at `fl` and
the generator at `seed`, and changes nothing else. -/
def WritesV (i : Instr) (s : State) (st : Stall) (lat : Nat) (d : VReg) (v mask : VWord) (fl : Vector (BitVec 5) 32)
    (seed : BitVec 16) : Prop :=
  ∃ t, exec i s = .next t ∧ MineOnly s t ∧ WentOn s t st 4 ∧
    me t = { me s with
      v := (me t).v
      pend := (me t).pend
      lanef := fl
      seed := seed
      pc := (me t).pc
      loops := (me t).loops
      stall := (me t).stall } ∧
    (∀ c, (myCore s).cycle + lat ≤ c → (me t).vAt c d = (me s).vAfter (myCore s).cycle lat d v mask c) ∧
    (∀ c, 1 < lat → c < (myCore s).cycle + lat → (me t).vAt c d = (me s).vAt c d) ∧
    VSameBut d (me s) (me t)

/-- Every x and v register, and every p register but `d`, reads as before in every cycle. -/
def PSameBut (d : PReg) (t u : Ctx) : Prop :=
  (∀ c r, r ≠ d → u.pAt c r = t.pAt c r) ∧ (∀ c r, u.xAt c r = t.xAt c r) ∧ ∀ c r, u.vAt c r = t.vAt c r

/-- `i` of four bytes completes, writing the bits of `mask` of p[d] with latency `lat` and leaving the lanes' flags at `fl`, and
changes nothing else. p0 reads all ones (R103). -/
def WritesP (i : Instr) (s : State) (st : Stall) (lat : Nat) (d : PReg) (v mask : BitVec 32) (fl : Vector (BitVec 5) 32) : Prop :=
  ∃ t, exec i s = .next t ∧ MineOnly s t ∧ WentOn s t st 4 ∧
    me t = { me s with
      p := (me t).p
      pend := (me t).pend
      lanef := fl
      pc := (me t).pc
      loops := (me t).loops
      stall := (me t).stall } ∧
    (∀ c, (myCore s).cycle + lat ≤ c →
      (me t).pAt c d = if d = 0 then BitVec.allOnes 32 else (me s).pAfter (myCore s).cycle lat d v mask c) ∧
    (∀ c, 1 < lat → c < (myCore s).cycle + lat → (me t).pAt c d = (me s).pAt c d) ∧
    PSameBut d (me s) (me t)

/-- The lanes' flags with those of a list added, unless Q is set (R89). -/
def lanesWith (s : State) (q : Bool) (fs : List Flags) : Vector (BitVec 5) 32 :=
  if q then (me s).lanef else Vector.ofFn fun i : Fin 32 => (me s).lanef.get i ||| fs.getD i.val 0

/-- `i` completes and does nothing but go on. -/
def DoesNothing (i : Instr) (s : State) (st : Stall) (len : Nat) : Prop :=
  ∃ t, exec i s = .next t ∧ MineOnly s t ∧ WentOn s t st len ∧
    me t = { me s with
      pc := (me t).pc
      loops := (me t).loops
      stall := (me t).stall }

/-- `i` takes a fault that goes to the supervisor (R198, R204), found before it has any other effect. -/
def TakesSup (i : Instr) (s : State) (code : Nat) (adr : Word) : Prop :=
  exec i s = .next (raiseSup s s.cur.core s.cur.ctx code adr (me s).pc)

/-- `i`, of `len` bytes, takes a fault that parks its context as an upcall (R199), found before it has any other effect. -/
def TakesUpcall (i : Instr) (s : State) (code : Nat) (adr : Word) (len : Nat) : Prop :=
  exec i s = .next (raiseUpcall s s.cur.core s.cur.ctx code adr (me s).pc len none)

/-- `i` completes, writing `v` into x[d] with variable latency (R108), leaving %SFLAGS at `fl`: the value is written in the step,
or, in a step that leaves its results for later, stands as the context's newest result to come; nothing else changes. -/
def WritesXVar (i : Instr) (s : State) (st : Stall) (d : Reg) (v : Word) (fl : BitVec 2) : Prop :=
  ∃ t, exec i s = .next t ∧ MineOnly s t ∧ WentOn s t st 4 ∧
    me t = { me s with
      x := (me t).x
      pend := (me t).pend
      var := (me t).var
      sflags := fl
      pc := (me t).pc
      loops := (me t).loops
      stall := (me t).stall } ∧
    (s.cur.late = false → (me t).var = (me s).var ∧
      (∀ c, (me t).xAt c d = if d = 0 then 0 else v) ∧ XSameBut d (me s) (me t)) ∧
    (s.cur.late = true → (me t).x = (me s).x ∧ (me t).pend = (me s).pend ∧
      (me t).var = (me s).var ++ [⟨xCode d, .value (v.setWidth 1024), allBits, false⟩])

/-- The same for the active lanes of v[d], leaving the lanes' flags at `fl`. -/
def WritesVVar (i : Instr) (s : State) (st : Stall) (d : VReg) (v mask : VWord) (fl : Vector (BitVec 5) 32) : Prop :=
  ∃ t, exec i s = .next t ∧ MineOnly s t ∧ WentOn s t st 4 ∧
    me t = { me s with
      v := (me t).v
      pend := (me t).pend
      var := (me t).var
      lanef := fl
      pc := (me t).pc
      loops := (me t).loops
      stall := (me t).stall } ∧
    (s.cur.late = false → (me t).var = (me s).var ∧
      (∀ c, (me t).vAt c d = (me s).vAfter 0 0 d v mask c) ∧ VSameBut d (me s) (me t)) ∧
    (s.cur.late = true → (me t).v = (me s).v ∧ (me t).pend = (me s).pend ∧
      (me t).var = (me s).var ++ [⟨vCode d, .value v, mask, false⟩])

/-! ## Control flow -/

/-- `i` completes and its context goes on at `n`, checked against its loop levels (R96, R308); nothing else changes. -/
def GoesTo (i : Instr) (s : State) (st : Stall) (n : Word) : Prop :=
  ∃ t, exec i s = .next t ∧ MineOnly s t ∧
    me t = { me s with
      pc := (loopCheck (me s).loops n).2
      loops := (loopCheck (me s).loops n).1
      stall := (myCore s).cycle + st.toNat + 1 }

/-- The same, with the address of the next instruction in memory written into the link register x[d] with latency 1. -/
def LinksTo (i : Instr) (s : State) (st : Stall) (n : Word) (d : Reg) : Prop :=
  ∃ t, exec i s = .next t ∧ MineOnly s t ∧
    me t = { me s with
      x := (me t).x
      pend := (me t).pend
      pc := (loopCheck (me s).loops n).2
      loops := (loopCheck (me s).loops n).1
      stall := (myCore s).cycle + st.toNat + 1 } ∧
    (∀ c, (myCore s).cycle + 1 ≤ c → (me t).xAt c d = if d = 0 then 0 else (me s).pc + 4) ∧ XSameBut d (me s) (me t)

/-- A jump to `n` (R96): an odd target is MISALIGN; on a worker core a target beyond 0xFFFF (or, on whole integers, below 0) is
PROTECT, with the target as fault address; otherwise it has its effect. -/
def JumpTakes (i : Instr) (s : State) (n : Word) (effect : Prop) : Prop :=
  (n.toNat % 2 = 1 → TakesSup i s fMISALIGN n) ∧
  (n.toNat % 2 = 0 → isWorker s.cur.core = true → 65535 < n.toNat → TakesSup i s fPROTECT n) ∧
  (n.toNat % 2 = 0 → (isWorker s.cur.core = true → n.toNat ≤ 65535) → effect)

/-- A branch of `len` bytes on the condition `c` (R261). -/
def BranchTakes (i : Instr) (s : State) (len : Nat) (c : Prop) (off : Word) : Prop :=
  (¬c → DoesNothing i s 0 len) ∧ (c → JumpTakes i s ((me s).pc + 2 * off) (GoesTo i s 0 ((me s).pc + 2 * off)))

/-- `i` parks its context at the instruction, which it executes again when it is woken (R34); nothing else changes. -/
def ParksFor (i : Instr) (s : State) (c : Cause) : Prop :=
  exec i s = .next (setMe s { me s with st := .parked, cause := c })

/-! ## Accesses of the issuing core's own places -/

/-- A worker core's running context of which nothing is on its way and which has a reply slot left, in a step that applies its own
accesses at once: no earlier access of the context waits anywhere, its dependency vector asks nothing that its die has not
seen, no access waits at a home, and the numbers in use lie below the next one. -/
structure Quiet (s : State) : Prop where
  now : s.cur.late = false
  worker : isWorker s.cur.core = true
  runs : (me s).st = .running
  room : (me s).rslots.length < 12
  slots : ∀ r ∈ (me s).rslots, r.num < s.serial
  acks : ∀ u ∈ (me s).acks, u.num < s.serial
  held : s.held = []
  alone : ∀ b ∈ unapplied s, ¬(b.core = s.cur.core ∧ b.ctx = s.cur.ctx)
  gets : pendingGets s s.cur.core s.cur.ctx = []
  seen : behind s s.cur.core (me s).dep = []
  mem : Memory.wf s.mem = true

/-- Every context but the running one is as before. -/
def OthersSame (s t : State) : Prop := ∀ n c, ¬(n = s.cur.core ∧ c = s.cur.ctx) → ctxAt t n c = ctxAt s n c

/-- The address leads to a place that the issuing core serves itself (its slice, its private window, its Crier mirror), and `v` says
where the `n` bytes there are, with the permissions asked. -/
structure OwnAt (s : State) (adr : Word) (load : Bool) (n : Nat) (rd wr : Bool) (p : Place) (v : View) : Prop where
  form : mbzOk adr = true
  leads : resolve s (whoAmI s) adr load = .ok p
  own : isOwn s.cur.core p = true
  plain : ∀ voff, p ≠ .sup voff
  view : accView s (newAccess s .cntrd adr 4) p n rd wr = .ok v

/-- `n` bytes from `key` on hold the low bytes of `v`, and every other byte of memory reads as before. -/
def Stored (s t : State) (key n v : Nat) : Prop :=
  Memory.read t.mem key n = v % 256 ^ n ∧ ∀ a, a < key ∨ key + n ≤ a → Memory.get t.mem a = Memory.get s.mem a

/-- What an own access changes beside memory and registers: nothing of another context, nothing on its way. -/
def Settled (s t : State) (st : Stall) (len : Nat) : Prop := t.flight = s.flight ∧ OthersSame s t ∧ WentOn s t st len

/-- `i` completes as an own access: its register x[d] takes `v` in the step, the full/empty bits become `f`, and `memory` tells of the
memory; nothing else of its context changes but its dependency vector and the generations of its writes. -/
def AccessX (i : Instr) (s : State) (st : Stall) (len : Nat) (d : Reg) (v : Word) (f : List Nat) (memory : State → Prop) : Prop :=
  ∃ t, exec i s = .next t ∧ Settled s t st len ∧ memory t ∧ t.full = f ∧
    me t = { me s with
      x := (me t).x
      pend := (me t).pend
      pc := (me t).pc
      loops := (me t).loops
      stall := (me t).stall
      dep := (me t).dep
      wgens := (me t).wgens } ∧
    (∀ c, (me t).xAt c d = if d = 0 then 0 else v) ∧ XSameBut d (me s) (me t)

/-- The same of an access that writes no register. -/
def AccessOnly (i : Instr) (s : State) (st : Stall) (len : Nat) (f : List Nat) (memory : State → Prop) : Prop :=
  ∃ t, exec i s = .next t ∧ Settled s t st len ∧ memory t ∧ t.full = f ∧
    me t = { me s with
      pc := (me t).pc
      loops := (me t).loops
      stall := (me t).stall
      dep := (me t).dep
      wgens := (me t).wgens }

/-- The same of an access that writes two registers, first x[d] and then x[e]. -/
def AccessXX (i : Instr) (s : State) (st : Stall) (d e : Reg) (v w : Word) (memory : State → Prop) : Prop :=
  ∃ t, exec i s = .next t ∧ Settled s t st 4 ∧ memory t ∧ t.full = s.full ∧
    me t = { me s with
      x := (me t).x
      pend := (me t).pend
      pc := (me t).pc
      loops := (me t).loops
      stall := (me t).stall
      dep := (me t).dep
      wgens := (me t).wgens } ∧
    (∀ c, (me t).xAt c e = if e = 0 then 0 else w) ∧
    (∀ c, d ≠ e → (me t).xAt c d = if d = 0 then 0 else v) ∧
    (∀ c r, r ≠ d → r ≠ e → (me t).xAt c r = (me s).xAt c r) ∧
    (∀ c r, (me t).vAt c r = (me s).vAt c r) ∧ ∀ c r, (me t).pAt c r = (me s).pAt c r

/-! ## Accesses that leave their core -/

/-- An access that no step of its issuer applies: its place is not one of the core's own, or the step leaves what it issues for
later; its home can be reached, and the context has a slot for it. -/
structure Away (s : State) (a : Access) (p : Place) : Prop where
  away : isOwn s.cur.core p = false ∨ s.cur.late = true
  plain : ∀ voff, p ≠ .sup voff
  slot : a.slotted = true → (me s).rslots.length < 12
  reach : dieOf (homeOf (whoAmI s) p) = dieOf s.cur.core ∨ unreachable s s.cur.core (dieOf (homeOf (whoAmI s) p)) = false

/-- The dependency vector with which an access goes to its home: between pods it carries none (R160). -/
def goesWith (a : Access) (home : Nat) : Vec16 := if podOf home = podOf a.core then a.vec else zeroVec

/-- `i` completes, and its access `a` leaves in a packet on its plane (R156) for the home of `p`, with every operand value it has (R56) and, within its
pod, its dependency vector (R160); no register, no byte of memory, no full/empty bit and no other context changes, and the
access stands as outstanding. -/
def Leaves (i : Instr) (s : State) (st : Stall) (len : Nat) (a : Access) (p : Place) : Prop :=
  ∃ t, exec i s = .next t ∧ MemSame s t ∧ t.full = s.full ∧ OthersSame s t ∧ WentOn s t st len ∧
    (∃ q n, t.flight = s.flight ++ [q] ∧ q.body = .access { a with
        home := homeOf (whoAmI s) p
        vec := goesWith a (homeOf (whoAmI s) p)
        net := netOf s a p
        own := none
        seq := n } ∧
      q.net = netOf s a p ∧ q.src = s.cur.core ∧ q.dst = homeOf (whoAmI s) p ∧ q.part = a.part) ∧
    (me t).outstanding a.num = true ∧
    me t = { me s with
      pc := (me t).pc
      loops := (me t).loops
      stall := (me t).stall
      rslots := (me t).rslots
      acks := (me t).acks
      wgens := (me t).wgens
      st := (me t).st
      cause := (me t).cause
      awaits := (me t).awaits }

/-- The checks that the issuing core makes of an access before it sends it: the form of its address, where it leads, what the
instruction may not reach, and the permission of the core's own places. -/
structure Reaches (s : State) (a : Access) (align n : Nat) (noPriv rd wr load : Bool) (deny : Place → Bool) (p : Place) : Prop where
  form : formFault a.adr noPriv align = 0
  leads : resolve s (whoAmI s) a.adr load = .ok p
  allowed : deny p = false
  permitted : ownFault s a p n rd wr = 0
  away : Away s a p

/-! ## The Gaussian unit -/

/-- The results `rs` of an operation of the unit, none of which the step leaves while the unit is idle: then `regs` tells of the registers;
otherwise the operation stands behind the others of its core and its results are to come. -/
def UnitWrites (i : Instr) (s : State) (st : Stall) (rs : List (Nat × VWord)) (regs : Ctx → Prop) : Prop :=
  (s.cur.late = false → (myCore s).gaussq = [] → ∃ t, exec i s = .next t ∧ MineOnly s t ∧ WentOn s t st 4 ∧ regs (me t) ∧
    me t = { me s with
      x := (me t).x
      v := (me t).v
      p := (me t).p
      pend := (me t).pend
      pc := (me t).pc
      loops := (me t).loops
      stall := (me t).stall }) ∧
  (s.cur.late = true ∨ (myCore s).gaussq ≠ [] → ∃ t, exec i s = .next t ∧ MemSame s t ∧ OthersSame s t ∧ WentOn s t st 4 ∧
    (myCore t).gaussq = (myCore s).gaussq ++ [s.cur.ctx] ∧
    me t = { me s with
      var := (me s).var ++ rs.map fun r => ⟨r.1, .value r.2, allBits, true⟩
      pc := (me t).pc
      loops := (me t).loops
      stall := (me t).stall })

/-- An operation whose one result is the block `v` in v[d]. -/
def BlockTo (i : Instr) (s : State) (st : Stall) (d : VReg) (v : VWord) : Prop :=
  UnitWrites i s st [(vCode d, v)] fun u => (∀ c, u.vAt c d = v) ∧ VSameBut d (me s) u

/-- A block whose lane 27 is `desc` and whose lanes 28 to 31 are those of `va` (R149). -/
def KeepsTail (v va : VWord) (desc : Nat) : Prop :=
  elemOf 32 27 v.toNat = desc ∧ ∀ k, 28 ≤ k → k < 32 → elemOf 32 k v.toNat = elemOf 32 k va.toNat

/-- The pivot of column `j`: the diagonal element less the squares of the row of the factor `l` before it (R151). -/
def pivotOf (a l : Nat → Nat → Nat) (j : Nat) : Nat := (List.range j).foldl (fun p k => fnmaRne (l j k) (l j k) p) (a j j)

/-- No pivot before column `n` of the m by m matrix `a` is singular, and in those columns `l` is its Cholesky factor, column by
column (R151). -/
def FactorOf (a : Nat → Nat → Nat) (m n : Nat) (l : Nat → Nat → Nat) : Prop :=
  ∀ j, j < n → badPivot (pivotOf a l j) (maxFp ((List.range m).map fun i => fmtF32.unpack (a i i))) = false ∧ l j j = sqrtRne (pivotOf a l j) ∧
    ∀ i, i < m → j < i → l i j = divRne ((List.range j).foldl (fun q k => fnmaRne (l i k) (l j k) q) (a i j)) (l j j)

/-- The first singular pivot of the m by m matrix `a` is that of column `n` (R151). -/
def SingularAt (a : Nat → Nat → Nat) (m n : Nat) (l : Nat → Nat → Nat) : Prop :=
  n < m ∧ FactorOf a m n l ∧ badPivot (pivotOf a l n) (maxFp ((List.range m).map fun i => fmtF32.unpack (a i i))) = true

/-- `z` solves L z = b from the first element on (R151). -/
def ForwardOf (l : Nat → Nat → Nat) (m : Nat) (b z : Nat → Nat) : Prop :=
  ∀ j, j < m → z j = divRne ((List.range j).foldl (fun y k => fnmaRne (l j k) (z k) y) (b j)) (l j j)

/-- `w` solves the transposed factor's equations for `z` from the last element back (R151). -/
def BackOf (l : Nat → Nat → Nat) (m : Nat) (z w : Nat → Nat) : Prop :=
  ∀ j, j < m → w j = divRne (((List.range m).filter fun k => decide (j < k)).foldl (fun y k => fnmaRne (l k j) (w k) y) (z j)) (l j j)

/-! ## Engines -/

/-- A completion granule at `key` (R112): STATUS, COUNT and SPEC, and the granule is full; every byte outside it is as in `s`. -/
def Completed (s u : State) (key status count spec : Nat) : Prop :=
  Memory.read u.mem key 4 = status % 2 ^ 32 ∧ Memory.read u.mem (key + 4) 4 = count % 2 ^ 32 ∧
  Memory.read u.mem (key + 8) 8 = spec % 2 ^ 64 ∧ isFull u key = true ∧
  ∀ a, a < key ∨ key + 16 ≤ a → Memory.get u.mem a = Memory.get s.mem a

/-- An engine may read a row of `n` elements of `b` bytes from byte address `a` on, or write it (`wr`): all of it bytes of slices, in
the scalar format `fmt`, and element `i` lies at `key + b * i`. -/
def RowAt (s : State) (e : Eng) (a b n : Nat) (wr : Bool) (fmt key : Nat) : Prop :=
  ∀ p ∈ rowPieces (8 * a) (8 * b) n, ∃ h o v,
    let q := pieceAdr (8 * a) (8 * b) p.1 p.2
    engPlace s e q.1 (!wr) = some (.slice h o, h) ∧ engView s e q.1 q.2 wr = .ok (v, h) ∧ v.key = sliceKey h o ∧
      sliceKey h o = key + b * p.1 ∧ v.fmt = fmt ∧ v.geom = 0 ∧ v.hdrs = []

/-- The same of every row of a tile that lies inside DIM0-DIM3 (R113, R134): row `r` lies at `key r`. -/
def TileAt (s : State) (e : Eng) (m : BitVec 256) (o : BitVec 64) (b : Nat) (wr : Bool) (fmt : Nat) (key : Nat → Nat) : Prop :=
  mapOk m = true ∧ eszBits (mapEsz m) = 8 * b ∧ fmtBits fmt = 8 * b ∧
    ∀ r, r < mapT1 m → rowInside m o r = true ∧ RowAt s e (rowBit m o r / 8) b (mapT0 m) wr fmt (key r)

/-- `n` bytes at key `d` are those that stood at `k`, their granules are full, and nothing else of memory and of the full/empty bits has
changed. -/
def Moves (s u : State) (k d n : Nat) : Prop :=
  (∀ j, j < n → Memory.get u.mem (d + j) = Memory.get s.mem (k + j) ∧ isFull u (d + j) = true) ∧
  (∀ a, a < d ∨ d + n ≤ a → Memory.get u.mem a = Memory.get s.mem a) ∧
  ∀ a, a / 16 < d / 16 ∨ (d + n + 15) / 16 ≤ a / 16 → isFull u a = isFull s a

/-- The engine may write the completion granule at an address: `v` says where it is. -/
def MayComplete (s : State) (e : Eng) (adr : Word) (v : View) : Prop :=
  Memory.wf s.mem = true ∧ v.key % 16 = 0 ∧ ∃ home, engView s e adr 16 true = .ok (v, home)

/-! ## Messages and records -/

/-- `b` are the `n` bytes that an instruction reads from `adr` at its issue: those an access already made for it has brought, or those of
an own place. -/
def PayloadOf (s : State) (adr : Word) (n : Nat) (b : List Byte) : Prop :=
  (me s).paybuf = some b ∨
    ((me s).paybuf = none ∧ Quiet s ∧ ∃ p v, OwnAt s adr true n true false p v ∧ b = Memory.readBytes s.mem v.key n)

/-- `b` is all that the issue of MCAST reads of the list at `l` (R274): the bytes that earlier accesses have brought, or those of an own
place: ND with the bytes after it, and then each DBASE. -/
def ListOf (s : State) (l : Word) (b : List Byte) : Prop :=
  mcastPart l b = none ∧
    ((me s).paybuf = some b ∨
      ((me s).paybuf = none ∧ Quiet s ∧
        (let nd := ofBytes (b.take 2)
        b.length = 16 + 8 * if 1 ≤ nd ∧ nd ≤ 64 then nd else 0) ∧
        ∃ p v, OwnAt s l true 16 true false p v ∧ b = Memory.readBytes s.mem v.key b.length ∧
        ∀ i, 16 + 8 * i < b.length → ∃ p w, OwnAt s (l + BitVec.ofNat 64 (16 + 8 * i)) true 8 true false p w ∧ w.key = v.key + (16 + 8 * i)))

/-- `i` completes, leaving registers, memory, other contexts and packets as they are; `effect` tells what it does to its core. -/
def Completes (i : Instr) (s : State) (st : Stall) (replied : Bool) (effect : State → Prop) : Prop :=
  ∃ t, exec i s = .next t ∧ t.mem = s.mem ∧ t.full = s.full ∧ t.flight = s.flight ∧ OthersSame s t ∧ WentOn s t st 4 ∧ effect t ∧
    me t = { me s with
      pc := (me t).pc
      loops := (me t).loops
      stall := (me t).stall
      replied := replied
      paybuf := (me t).paybuf }

/-- A request enters the send queue with a reply slot reserved for it (R27, R326). -/
def Requests (i : Instr) (s : State) (st : Stall) (is : Msg → Prop) : Prop :=
  Completes i s st (me s).replied fun t => ∃ m id, is m ∧ m.kind = .request id ∧ (myCore s).resv.contains id = false ∧
    (myCore t).resv = id :: (myCore s).resv ∧ (myCore t).sendq = (myCore s).sendq ++ [m]

/-! ## Arrivals at a home -/

/-- Packet `k`, on its way or handed over, is an access whose turn it is and which its home applies now: it belongs to a running
incarnation, no earlier access of its context stands before it, the home has seen what it depends on and holds its
translation, and nothing waits there; `t` and `r` are what the operation does at its place and what it answers. -/
structure Arrives (s : State) (k : Nat) (q : Packet) (a : Access) (p : Place) (t : State) (r : Reply) : Prop where
  turn : takeAt s k = .yes q
  body : q.body = .access a
  live : stale s q = false
  order : mayApply (moveFlow (removeAt s k) q) a = true
  seen : behind (moveFlow (removeAt s k) q) a.home a.vec = []
  leads : placeOf (moveFlow (removeAt s k) q) a = .ok p
  walked : ∀ g v, p = .gran g v → needsWalk (moveFlow (removeAt s k) q) g a.part v = false
  quiet : s.held = []
  applies : applyAt (moveFlow (removeAt s k) q) a q.stamp p = .answer t r
  of : r.acc = a
  still : t.held = []
  back : unreachable t a.home (dieOf a.core) = false

/-- `i` applies the access: memory, bits and cores become what the operation makes of them, and the answer goes back to the issuer. -/
def AppliedHome (i : Instr) (s : State) (a : Access) (t : State) (r : Reply) : Prop :=
  ∃ u q, exec i s = .next u ∧ u.mem = t.mem ∧ u.full = t.full ∧ u.cores = t.cores ∧ u.flight = t.flight ++ [q] ∧
    q.body = (if a.slotted then .reply r else .ack r) ∧ q.src = a.home ∧ q.dst = a.core ∧ q.net = .rply

/-- `i` is the event of the table that a store to a control word of a row is. -/
def IsControlEvent (k : Nat) (i : Instr) : CtlRow → Prop
  | .commit => i = .commit k
  | .stop => i = .stop k
  | .go => i = .go k
  | .reset => i = .partitionReset k
  | .partEntry => i = .partitionEntryWrite k
  | .quad => i = .quadTableWrite k
  | .classTable => i = .classTableWrite k
  | .barrier => i = .barrierRecordWrite k
  | .desc => i = .regionDescriptorWrite k
  | .quota => i = .tapeQuotaWrite k
  | .savebase => i = .savebaseWrite k
  | .hostPort => i = .hostPortWrite k
  | .lcommit => i = .lcommit k
  | .energy => i = .energyCounterClear k
  | .unfreeze => i = .unfreeze k
  | .other => i = .controlWordWrite k

/-! ## Vector results by element -/

/-- Of a register of elements `w` bits wide, the elements in lanes that `p` selects take `f k`, and the others stay. -/
def TakesElems (w : Nat) (p : BitVec 32) (f : Nat → Nat) (v mask : VWord) : Prop :=
  ∀ (old : VWord) (k : Nat), k < 1024 / w →
    elemOf w k (mergeBits old v mask).toNat = if laneOn p w k then f k % 2 ^ w else elemOf w k old.toNat

/-- The lanes' flags after each active element `k` of `w` bits has raised `g k` (R89). -/
def lanesAfter (s : State) (q : Bool) (w : Nat) (p : BitVec 32) (g : Nat → Flags) : Vector (BitVec 5) 32 :=
  lanesWith s q (laneFlags w ((List.range (1024 / w)).map fun k => if laneOn p w k then g k else 0))

/-- `i` writes `f k` into element `k` of v[d], for the elements in active lanes, with latency `lat`. -/
def WritesElems (i : Instr) (s : State) (st : Stall) (lat : Nat) (d : VReg) (w : Nat) (p : BitVec 32) (f : Nat → Nat)
    (fl : Vector (BitVec 5) 32) : Prop :=
  ∃ v mask, WritesV i s st lat d v mask fl (me s).seed ∧ TakesElems w p f v mask

/-- A floating-point vector instruction of latency 4: element `k` takes the first part of `g k` and raises the second. -/
def FloatElems (i : Instr) (s : State) (st : Stall) (d : VReg) (p : PReg) (q : Bool) (t : FTy) (g : Nat → Nat × Flags) : Prop :=
  let w := mtyWidth (ftyM t)
  WritesElems i s st 4 d w (pr s p) (fun k => (g k).1) (lanesAfter s q w (pr s p) fun k => (g k).2)

/-- The same with variable latency. -/
def FloatElemsVar (i : Instr) (s : State) (st : Stall) (d : VReg) (p : PReg) (q : Bool) (t : FTy) (g : Nat → Nat × Flags) : Prop :=
  let w := mtyWidth (ftyM t)
  ∃ v mask, WritesVVar i s st d v mask (lanesAfter s q w (pr s p) fun k => (g k).2) ∧
    TakesElems w (pr s p) (fun k => (g k).1) v mask

/-- An integer vector instruction of latency 4, which raises no flag: element `k` takes `g` of the elements of the operands. -/
def IntElems (i : Instr) (s : State) (st : Stall) (d a b : VReg) (p : PReg) (t : ITy) (g : Nat → Nat → Nat) : Prop :=
  let w := mtyWidth (ityM t)
  WritesElems i s st 4 d w (pr s p) (fun k => g (elemOf w k (vr s a).toNat) (elemOf w k (vr s b).toNat)) (me s).lanef

/-- Level `n`, node `k` of the tree of a reduction: neighbours combined pair by pair (R92). -/
def treeNode (f : Nat → Nat → Nat × Flags) (leaf : Nat → Nat) : Nat → Nat → Nat
  | 0, k => leaf k
  | n + 1, k => (f (treeNode f leaf n (2 * k)) (treeNode f leaf n (2 * k + 1))).1

end Sys2Proof.Machine
end

