-- ==== Sys2Proof/Certificates/Slice0/Obligations.lean ====
section
/-! DEFINITION. Sys2Proof/Certificates/Slice0/Obligations.lean: what the provers are asked to prove of the model. -/

open Sys2Proof Sys2Proof.Machine

/-! ## Scalar arithmetic -/

/-- R256, R335, R259: ADD, SUB, AND, OR, XOR and ANDN, long and short: the result goes to x[d] with latency 1, no carry, borrow or flag is kept, and
nothing else changes; the short forms read x[d] in place of x[a] and x[a] in place of x[b]. The rules' own words decode so. -/
def Obligations.AddSubtractBitwise : Prop :=
  (∀ (s : State) (st : Stall) (d a b : Reg),
    WritesX (.add st d a b) s st 4 1 d (xr s a + xr s b) ∧
    WritesX (.sub st d a b) s st 4 1 d (xr s a - xr s b) ∧
    WritesX (.and st d a b) s st 4 1 d (xr s a &&& xr s b) ∧
    WritesX (.or st d a b) s st 4 1 d (xr s a ||| xr s b) ∧
    WritesX (.xor st d a b) s st 4 1 d (xr s a ^^^ xr s b) ∧
    WritesX (.andn st d a b) s st 4 1 d (xr s a &&& ~~~(xr s b)) ∧
    WritesX (.addShort d a) s 0 2 1 d (xr s d + xr s a) ∧
    WritesX (.subShort d a) s 0 2 1 d (xr s d - xr s a) ∧
    WritesX (.andShort d a) s 0 2 1 d (xr s d &&& xr s a) ∧
    WritesX (.orShort d a) s 0 2 1 d (xr s d ||| xr s a) ∧
    WritesX (.xorShort d a) s 0 2 1 d (xr s d ^^^ xr s a)) ∧
  decodeTableWord 32 0x800C8500 = some (.add 0 3 4 5) ∧ decodeTableWord 16 0x0C64 = some (.addShort 3 4) ∧
  decodeTableWord 32 0x800C8501 = some (.sub 0 3 4 5) ∧ decodeTableWord 16 0x1064 = some (.subShort 3 4) ∧
  decodeTableWord 32 0x800C8502 = some (.and 0 3 4 5) ∧ decodeTableWord 32 0x800C8505 = some (.andn 0 3 4 5) ∧
  decodeTableWord 16 0x1464 = some (.andShort 3 4) ∧ decodeTableWord 32 0x800C8503 = some (.or 0 3 4 5) ∧
  decodeTableWord 32 0x800C8504 = some (.xor 0 3 4 5) ∧ decodeTableWord 16 0x1864 = some (.orShort 3 4) ∧
  decodeTableWord 16 0x1C64 = some (.xorShort 3 4)

/-- R328, R267, R313: shifts and rotates by x[b] [5:0], the comparisons, and the extremes, signed and unsigned: latency 1, no flag changes. A compare's fn
of 7 or more is ILLEGAL. The rules' own words decode so, and MIN and MINU of −1 and 1 give −1 and 1. -/
def Obligations.ShiftsComparesExtremes : Prop :=
  (∀ (s : State) (st : Stall) (d a b : Reg),
    WritesX (.shl st d a b) s st 4 1 d (xr s a <<< ((xr s b).toNat % 64)) ∧
    WritesX (.shr st d a b) s st 4 1 d (xr s a >>> ((xr s b).toNat % 64)) ∧
    WritesX (.sra st d a b) s st 4 1 d ((xr s a).sshiftRight ((xr s b).toNat % 64)) ∧
    WritesX (.rol st d a b) s st 4 1 d ((xr s a).rotateLeft ((xr s b).toNat % 64)) ∧
    WritesX (.cmp st d a b .eq) s st 4 1 d (if xr s a = xr s b then 1 else 0) ∧
    WritesX (.cmp st d a b .ne) s st 4 1 d (if xr s a ≠ xr s b then 1 else 0) ∧
    WritesX (.cmp st d a b .lt) s st 4 1 d (if (xr s a).toInt < (xr s b).toInt then 1 else 0) ∧
    WritesX (.cmp st d a b .ge) s st 4 1 d (if (xr s b).toInt ≤ (xr s a).toInt then 1 else 0) ∧
    WritesX (.cmp st d a b .ltu) s st 4 1 d (if (xr s a).toNat < (xr s b).toNat then 1 else 0) ∧
    WritesX (.cmp st d a b .geu) s st 4 1 d (if (xr s b).toNat ≤ (xr s a).toNat then 1 else 0) ∧
    WritesX (.cmp st d a b .tst) s st 4 1 d (if xr s a &&& xr s b ≠ 0 then 1 else 0) ∧
    WritesX (.min st d a b) s st 4 1 d (BitVec.ofInt 64 (Min.min (xr s a).toInt (xr s b).toInt)) ∧
    WritesX (.max st d a b) s st 4 1 d (BitVec.ofInt 64 (Max.max (xr s a).toInt (xr s b).toInt)) ∧
    WritesX (.minu st d a b) s st 4 1 d (BitVec.ofNat 64 (Min.min (xr s a).toNat (xr s b).toNat)) ∧
    WritesX (.maxu st d a b) s st 4 1 d (BitVec.ofNat 64 (Max.max (xr s a).toNat (xr s b).toNat)) ∧
    (xr s a = BitVec.ofInt 64 (-1) → xr s b = 1 →
      WritesX (.min st d a b) s st 4 1 d (BitVec.ofInt 64 (-1)) ∧ WritesX (.minu st d a b) s st 4 1 d 1)) ∧
  (∀ w : BitVec 32, fld w 25 6 = 6 → 7 ≤ fld w 0 8 → decode32 w = .illegal) ∧
  decodeTableWord 32 0x80108306 = some (.shl 0 4 4 3) ∧ decodeTableWord 32 0x80108307 = some (.shr 0 4 4 3) ∧
  decodeTableWord 32 0x80108308 = some (.sra 0 4 4 3) ∧ decodeTableWord 32 0x80108309 = some (.rol 0 4 4 3) ∧
  decodeTableWord 32 0x8C0C8504 = some (.cmp 0 3 4 5 .ltu) ∧ decodeTableWord 32 0x800C850A = some (.min 0 3 4 5) ∧
  decodeTableWord 32 0x800C850B = some (.max 0 3 4 5) ∧ decodeTableWord 32 0x800C850C = some (.minu 0 3 4 5) ∧
  decodeTableWord 32 0x800C850D = some (.maxu 0 3 4 5) ∧ decodeTableWord 32 0x8C0C8500 = some (.cmp 0 3 4 5 .eq) ∧
  decodeTableWord 32 0x8C0C8501 = some (.cmp 0 3 4 5 .ne) ∧ decodeTableWord 32 0x8C0C8502 = some (.cmp 0 3 4 5 .lt) ∧
  decodeTableWord 32 0x8C0C8503 = some (.cmp 0 3 4 5 .ge) ∧ decodeTableWord 32 0x8C0C8505 = some (.cmp 0 3 4 5 .geu) ∧
  decodeTableWord 32 0x8C0C8506 = some (.cmp 0 3 4 5 .tst)

/-- R315, R266: products of latency 3, with P the exact product: P mod 2^64, and bits [127:64] of P, signed and unsigned; counts of latency 1: leading
zero bits, trailing zero bits, 64 for zero, and set bits. The rules' own words decode so, and the products of −1 and −1 are theirs. -/
def Obligations.ProductsAndCounts : Prop :=
  (∀ (s : State) (st : Stall) (d a b : Reg),
    WritesX (.mul st d a b) s st 4 3 d (BitVec.ofInt 64 ((xr s a).toInt * (xr s b).toInt)) ∧
    WritesX (.mulh st d a b) s st 4 3 d (BitVec.ofInt 64 ((xr s a).toInt * (xr s b).toInt / 2 ^ 64)) ∧
    WritesX (.mulhu st d a b) s st 4 3 d (BitVec.ofNat 64 ((xr s a).toNat * (xr s b).toNat / 2 ^ 64)) ∧
    (xr s a = BitVec.ofInt 64 (-1) → xr s b = BitVec.ofInt 64 (-1) → WritesX (.mul st d a b) s st 4 3 d 1 ∧
      WritesX (.mulh st d a b) s st 4 3 d 0 ∧ WritesX (.mulhu st d a b) s st 4 3 d 0xFFFFFFFFFFFFFFFE) ∧
    (∃ k, k ≤ 64 ∧ WritesX (.clz st d a) s st 4 1 d (BitVec.ofNat 64 k) ∧
      (∀ j, j < k → (xr s a).getMsbD j = false) ∧ (k < 64 → (xr s a).getMsbD k = true)) ∧
    (∃ k, k ≤ 64 ∧ WritesX (.ctz st d a) s st 4 1 d (BitVec.ofNat 64 k) ∧
      (∀ j, j < k → (xr s a).getLsbD j = false) ∧ (k < 64 → (xr s a).getLsbD k = true)) ∧
    WritesX (.popc st d a) s st 4 1 d
      (BitVec.ofNat 64 (((List.range 64).filter fun j => (xr s a).getLsbD j).length))) ∧
  decodeTableWord 32 0x8118C510 = some (.mul 2 6 6 5) ∧ decodeTableWord 32 0x800C8511 = some (.mulh 0 3 4 5) ∧
  decodeTableWord 32 0x800C8512 = some (.mulhu 0 3 4 5) ∧ decodeTableWord 32 0x800C8018 = some (.clz 0 3 4) ∧
  decodeTableWord 32 0x800C8019 = some (.ctz 0 3 4) ∧   decodeTableWord 32 0x8029201A = some (.popc 0 10 9)

/-- R98, R257, R260, R305, R306, R324, R329: the immediate forms, moves and SEL, of latency 1, and NOP, which only moves on. Nothing else changes. -/
def Obligations.MovesAndImmediates : Prop :=
  ∀ (s : State) (st : Stall) (d a b c : Reg) (i n : BitVec 5) (j : BitVec 13) (h : BitVec 18) (m : BitVec 6),
    DoesNothing .nopShort s 0 2 ∧ DoesNothing (.nop st) s st 4 ∧
    WritesX (.mov d a) s 0 2 1 d (xr s a) ∧
    WritesX (.li d i) s 0 2 1 d (i.signExtend 64) ∧
    WritesX (.addiShort d i) s 0 2 1 d (xr s d + i.signExtend 64) ∧
    WritesX (.shliShort d n) s 0 2 1 d (xr s d <<< n.toNat) ∧
    WritesX (.shriShort d n) s 0 2 1 d (xr s d >>> n.toNat) ∧
    WritesX (.sraiShort d n) s 0 2 1 d ((xr s d).sshiftRight n.toNat) ∧
    WritesX (.addi st d a j) s st 4 1 d (xr s a + j.signExtend 64) ∧
    WritesX (.andi st d a j) s st 4 1 d (xr s a &&& j.signExtend 64) ∧
    WritesX (.ori st d a j) s st 4 1 d (xr s a ||| j.signExtend 64) ∧
    WritesX (.xori st d a j) s st 4 1 d (xr s a ^^^ j.signExtend 64) ∧
    WritesX (.shli st d a m) s st 4 1 d (xr s a <<< m.toNat) ∧
    WritesX (.shri st d a m) s st 4 1 d (xr s a >>> m.toNat) ∧
    WritesX (.srai st d a m) s st 4 1 d ((xr s a).sshiftRight m.toNat) ∧
    WritesX (.roli st d a m) s st 4 1 d ((xr s a).rotateLeft m.toNat) ∧
    WritesX (.lih st d h) s st 4 1 d (h.signExtend 64 <<< 13) ∧
    WritesX (.sel st d a b c) s st 4 1 d (if xr s c ≠ 0 then xr s a else xr s b)

/-- R285, R91, R310: division with its edge results and its sticky flags: the quotient truncates toward zero, and no case traps; MADD and MSUB add to x[d]
with latency 3. -/
def Obligations.DivisionsAndAccumulates : Prop :=
  ∀ (s : State) (st : Stall) (d a b : Reg),
    let n := xr s a
    let m := xr s b
    let f := (me s).sflags
    let ovf := n.toInt = -2 ^ 63 ∧ m.toInt = -1
    WritesX (.madd st d a b) s st 4 3 d (xr s d + n * m) ∧ WritesX (.msub st d a b) s st 4 3 d (xr s d - n * m) ∧
    (m = 0 →
      WritesXVar (.div st d a b) s st d (BitVec.allOnes 64) (f ||| 1) ∧
      WritesXVar (.rem st d a b) s st d n (f ||| 1) ∧
      WritesXVar (.divu st d a b) s st d (BitVec.allOnes 64) (f ||| 1) ∧
      WritesXVar (.remu st d a b) s st d n (f ||| 1)) ∧
    (m ≠ 0 → ovf →
      WritesXVar (.div st d a b) s st d (BitVec.ofInt 64 (-2 ^ 63)) (f ||| 2) ∧
      WritesXVar (.rem st d a b) s st d 0 (f ||| 2)) ∧
    (m ≠ 0 → ¬ovf →
      WritesXVar (.div st d a b) s st d (BitVec.ofInt 64 (n.toInt.tdiv m.toInt)) f ∧
      WritesXVar (.rem st d a b) s st d (BitVec.ofInt 64 (n.toInt - n.toInt.tdiv m.toInt * m.toInt)) f) ∧
    (m ≠ 0 →
      WritesXVar (.divu st d a b) s st d (BitVec.ofNat 64 (n.toNat / m.toNat)) f ∧
      WritesXVar (.remu st d a b) s st d (BitVec.ofNat 64 (n.toNat % m.toNat)) f)

/-- R264, R100: bit fields. `l` is the length less one; a field that passes bit 63 is RESFIELD. Bit by bit: BFX brings bits [pos, pos + len) down and
zeros above, BFI replaces those bits of x[d] alone. R314, R255, R299: MKADR, ABSA and GPTR, with the values they refuse. -/
def Obligations.BitFieldsAndAddresses : Prop :=
  (∀ (s : State) (st : Stall) (d a : Reg) (p l : BitVec 6),
    let len := l.toNat + 1
    (64 < p.toNat + len → TakesSup (.bfx st d a p l) s fRESFIELD 0 ∧ TakesSup (.bfi st d a p l) s fRESFIELD 0) ∧
    (p.toNat + len ≤ 64 →
      (∃ v, WritesX (.bfx st d a p l) s st 4 1 d v ∧
        ∀ j, v.getLsbD j = (decide (j < len) && (xr s a).getLsbD (p.toNat + j))) ∧
      ∃ v, WritesX (.bfi st d a p l) s st 4 1 d v ∧
        ∀ j, v.getLsbD j =
          if p.toNat ≤ j ∧ j < p.toNat + len then (xr s a).getLsbD (j - p.toNat) else (xr s d).getLsbD j)) ∧
  (∀ (s : State) (st : Stall) (d a b : Reg),
    let n := s.cur.core
    let v := xr s a
    let w := xr s b
    (31 < v.toNat ∨ 31 < w.toNat → TakesSup (.mkadr st d a b) s fPROTECT 0) ∧
    (v.toNat ≤ 31 → w.toNat ≤ 31 →
      WritesX (.mkadr st d a b) s st 4 1 d (coreAdr s n (n / 1024 * 1024 + 32 * v.toNat + w.toNat))) ∧
    (bitsOf v 62 2 ≠ 1 → WritesX (.absa st d a) s st 4 1 d v) ∧
    (bitsOf v 62 2 = 1 → bitsOf v 48 14 ≠ 0 ∨ bitsOf v 23 15 ≠ 0 → TakesSup (.absa st d a) s fRESFIELD v) ∧
    (bitsOf v 62 2 = 1 → bitsOf v 48 14 = 0 → bitsOf v 23 15 = 0 →
      let r : Int := rowOf n + sext5 (bitsOf v 43 5)
      let c : Int := colOf n + sext5 (bitsOf v 38 5)
      ((r < 0 ∨ 31 < r ∨ c < 0 ∨ 31 < c) → TakesSup (.absa st d a) s fPROTECT v) ∧
      (0 ≤ r → r ≤ 31 → 0 ≤ c → c ≤ 31 →
        WritesX (.absa st d a) s st 4 1 d
          (coreAdr s n (n / 1024 * 1024 + 32 * r.toNat + c.toNat) ||| BitVec.ofNat 64 (bitsOf v 0 23)))) ∧
    (isPrivAdr v = false → WritesX (.gptr st d a) s st 4 1 d v) ∧
    (isPrivAdr v = true → bitsOf v 17 41 ≠ 0 → TakesSup (.gptr st d a) s fRESFIELD v) ∧
    (isPrivAdr v = true → bitsOf v 17 41 = 0 → (me s).win ≤ bitsOf v 0 17 → TakesSup (.gptr st d a) s fPROTECT v) ∧
    (isPrivAdr v = true → bitsOf v 17 41 = 0 → bitsOf v 0 17 < (me s).win →
      WritesX (.gptr st d a) s st 4 1 d
        (coord s n ||| BitVec.ofNat 64 (0x300000 + 0x10000 * s.cur.ctx + bitsOf v 0 17))))

/-! ## Vector arithmetic -/

/-- R347, R348, R87, R89: floating-point vector arithmetic, element by element, under %ROUND; inactive elements stay. `vel` is an element of an operand.
The fused forms round a × b ± c once. R355, R356, R357: reciprocal, reciprocal root, exponential and logarithm, with variable latency. The model's
choices in it: log 24. -/
def Obligations.VectorFloats : Prop :=
  (∀ (s : State) (st : Stall) (d a b : VReg) (p : PReg) (q : Bool) (t : FTy),
    let f := ftyFmt t
    let r := (me s).round
    let x := vel s t a
    let y := vel s t b
    let z := vel s t d
    FloatElems (.vfadd st d a b p q t) s st d p q t (fun k => fpAdd f r (x k) (y k)) ∧
    FloatElems (.vfsub st d a b p q t) s st d p q t (fun k => fpSub f r (x k) (y k)) ∧
    FloatElems (.vfmul st d a b p q t) s st d p q t (fun k => fpMul f r (x k) (y k)) ∧
    FloatElems (.vfmin st d a b p q t) s st d p q t (fun k => fpMinMax f r false (x k) (y k)) ∧
    FloatElems (.vfmax st d a b p q t) s st d p q t (fun k => fpMinMax f r true (x k) (y k)) ∧
    FloatElems (.vfabs st d a p q t) s st d p q t (fun k => (f.abs (x k), 0)) ∧
    FloatElems (.vfneg st d a p q t) s st d p q t (fun k => (f.neg (x k), 0)) ∧
    FloatElems (.vfcpys st d a b p q t) s st d p q t (fun k => (f.copySign (x k) (y k), 0)) ∧
    FloatElems (.vfma st d a b p q t) s st d p q t (fun k => fpFma f r false false (x k) (y k) (z k)) ∧
    FloatElems (.vfms st d a b p q t) s st d p q t (fun k => fpFma f r false true (x k) (y k) (z k)) ∧
    FloatElems (.vfnma st d a b p q t) s st d p q t (fun k => fpFma f r true false (x k) (y k) (z k)) ∧
    FloatElems (.vfnms st d a b p q t) s st d p q t (fun k => fpFma f r true true (x k) (y k) (z k))) ∧
  (∀ (s : State) (st : Stall) (d a : VReg) (p : PReg) (q : Bool) (t : FTy),
    let f := ftyFmt t
    let r := (me s).round
    let x := vel s t a
    FloatElemsVar (.vrcp st d a p q t) s st d p q t (fun k => fpRcp f r (x k)) ∧
    FloatElemsVar (.vrsq st d a p q t) s st d p q t (fun k => fpRsq f r (x k)) ∧
    FloatElemsVar (.vexp2 st d a p q t) s st d p q t (fun k => fpExp2 f r (x k)) ∧
    FloatElemsVar (.vlog2 st d a p q t) s st d p q t (fun k => fpLog2 f r (x k)))

/-- R351, R360: integer vector arithmetic modulo 2^w and shifts by each element's amount modulo w. R342, R359, R346, R361: bitwise operations on active
lanes, selection, per-lane dot products, and the permutations, which write every lane they name. -/
def Obligations.VectorIntegers : Prop :=
  (∀ (s : State) (st : Stall) (d a b : VReg) (p : PReg) (t : ITy),
    let w := mtyWidth (ityM t)
    let sg := signed w
    IntElems (.viadd st d a b p t) s st d a b p t (fun x y => x + y) ∧
    IntElems (.visub st d a b p t) s st d a b p t (fun x y => intBits w ((x : Int) - y)) ∧
    IntElems (.vimul st d a b p t) s st d a b p t (fun x y => x * y) ∧
    IntElems (.vimulh st d a b p t) s st d a b p t (fun x y => intBits w (sg x * sg y / 2 ^ w)) ∧
    IntElems (.vimin st d a b p t) s st d a b p t (fun x y => if sg x ≤ sg y then x else y) ∧
    IntElems (.vimax st d a b p t) s st d a b p t (fun x y => if sg y ≤ sg x then x else y) ∧
    IntElems (.viminu st d a b p t) s st d a b p t (fun x y => Min.min x y) ∧
    IntElems (.vimaxu st d a b p t) s st d a b p t (fun x y => Max.max x y) ∧
    IntElems (.vshl st d a b p t) s st d a b p t (fun x y => x * 2 ^ (y % w)) ∧
    IntElems (.vshr st d a b p t) s st d a b p t (fun x y => x / 2 ^ (y % w)) ∧
    IntElems (.vsra st d a b p t) s st d a b p t (fun x y => intBits w (sg x / 2 ^ (y % w))) ∧
    IntElems (.vrol st d a b p t) s st d a b p t (fun x y => x * 2 ^ (y % w) + x / 2 ^ (w - y % w))) ∧
  (∀ (s : State) (st : Stall) (d a b : VReg) (p : PReg) (t : ITy) (k : DotKind) (x e : Reg) (l : BitVec 5),
    let fl := (me s).lanef
    let lane (v : VReg) (j : Nat) : Nat := elemOf 32 j (vr s v).toNat
    let all := BitVec.allOnes 32
    WritesElems (.vand st d a b p t) s st 4 d 32 (pr s p) (fun j => lane a j &&& lane b j) fl ∧
    WritesElems (.vor st d a b p t) s st 4 d 32 (pr s p) (fun j => lane a j ||| lane b j) fl ∧
    WritesElems (.vxor st d a b p t) s st 4 d 32 (pr s p) (fun j => lane a j ^^^ lane b j) fl ∧
    WritesElems (.vandn st d a b p t) s st 4 d 32 (pr s p) (fun j => lane a j &&& (2 ^ 32 - 1 - lane b j)) fl ∧
    WritesElems (.vsel st d a b p) s st 4 d 32 all (fun j => if (pr s p).getLsbD j then lane a j else lane b j) fl ∧
    WritesElems (.vdot st d a b p k) s st 4 d 32 (pr s p) (fun j => dotLane k (lane d j) (lane a j) (lane b j)) fl ∧
    WritesElems (.vshuf st d a) s st 6 d 32 all (fun j => lane a (lane d j % 32)) fl ∧
    WritesElems (.vbcast st x d) s st 6 d 32 all (fun _ => (xr s x).toNat) fl ∧
    WritesElems (.vinsr st x d l) s st 6 d 32 (BitVec.ofNat 32 (2 ^ l.toNat)) (fun _ => (xr s x).toNat) fl ∧
    WritesX (.vextr st e a l) s st 4 6 e (BitVec.ofNat 64 (lane a l.toNat)))

/-- R343: VCMP writes bit i of p[d], for each active lane i, as the condition of every element of the lane; its flags are those of the comparisons. A
write to p0 is discarded. R317: the predicate operations, of latency 1, and the count of a predicate's bits. R291, R89: once the context's earlier
vector instructions have completed, FLGRD writes each lane's set of flags to bits [4:0] of its lane, with variable latency, and FLGCLR clears the sets
of the lanes that the predicate selects. Until then FLGRD and FLGCLR leave the PC and the flags as they are. The model's choices in it: log 16. -/
def Obligations.VectorMasks : Prop :=
  (∀ (s : State) (st : Stall) (d : PReg) (a b : VReg) (p : PReg),
    (∀ (c : FCond) (t : FTy) (q : Bool),
      let w := mtyWidth (ftyM t)
      let r (k : Nat) := fpCmp (ftyFmt t) (me s).round c (vel s t a k) (vel s t b k)
      ∃ v, WritesP (.vcmp st d a b p (.flt c t q)) s st 4 d v (pr s p) (lanesAfter s q w (pr s p) fun k => (r k).2) ∧
        ∀ i, i < 32 → (v.getLsbD i = true ↔ ∀ j, j < 32 / w → (r (32 / w * i + j)).1 = true)) ∧
    ∀ (c : ICond) (t : ITy),
      let w := mtyWidth (ityM t)
      let h (k : Nat) := intCond c w (elemOf w k (vr s a).toNat) (elemOf w k (vr s b).toNat)
      ∃ v, WritesP (.vcmp st d a b p (.int c t)) s st 4 d v (pr s p) (me s).lanef ∧
        ∀ i, i < 32 → (v.getLsbD i = true ↔ ∀ j, j < 32 / w → h (32 / w * i + j) = true)) ∧
  (∀ (s : State) (st : Stall) (d a b : PReg) (x : Reg),
    let all := BitVec.allOnes 32
    let fl := (me s).lanef
    WritesP (.pand st d a b) s st 1 d (pr s a &&& pr s b) all fl ∧
    WritesP (.por st d a b) s st 1 d (pr s a ||| pr s b) all fl ∧
    WritesP (.pxor st d a b) s st 1 d (pr s a ^^^ pr s b) all fl ∧
    WritesP (.pnot st d a) s st 1 d (~~~(pr s a)) all fl ∧
    WritesX (.pcnt st x a) s st 4 1 x (BitVec.ofNat 64 (((List.range 32).filter fun j => (pr s a).getLsbD j).length))) ∧
  (∀ (s : State) (st : Stall) (d : VReg) (p : PReg),
    (vectorsDone (me s) = true →
      (∃ v, WritesVVar (.flgrd st d) s st d v allBits (me s).lanef ∧
        ∀ i : Fin 32, elemOf 32 i.val v.toNat = ((me s).lanef.get i).toNat) ∧
      ∃ t, exec (.flgclr st p) s = .next t ∧ MineOnly s t ∧ WentOn s t st 4 ∧
        me t = { me s with
          lanef := (me t).lanef
          pc := (me t).pc
          loops := (me t).loops
          stall := (me t).stall } ∧
        ∀ i : Fin 32, (me t).lanef.get i = if (pr s p).getLsbD i.val then 0 else (me s).lanef.get i) ∧
    (vectorsDone (me s) = false → ∀ i, i = Instr.flgrd st d ∨ i = Instr.flgclr st p →
      ∃ t, exec i s = .next t ∧ (t = s ∨ MineOnly s t) ∧ (me t).pc = (me s).pc ∧ (me t).lanef = (me s).lanef ∧ (me t).v = (me s).v))

/-- R344, R345, R86: VCVT converts the elements of active lanes, in ascending order. Where SR governs the conversion each takes the generator's next
state, so the k-th of them the k-th state after %SEED, and %SEED ends at the last state taken; elsewhere %SEED stays. Bits of an element's place
beyond the target's width stay. R92, R358: the reductions write element 0 of v[d] with the root of the fixed tree, inactive elements entering as -0,
-∞ or +∞, and zero the rest of the register. Not said here: the lane flags of lane 0 that a reduction raises. The model's choices in it: logs 4, 24
and 77. -/
def Obligations.VectorConvertsReduces : Prop :=
  (∀ (s : State) (st : Stall) (d a : VReg) (p : PReg) (q : Bool) (c : Conv),
    let w := convStep c
    let sr := isSR (me s).round && convSr c
    let before (k : Nat) : Nat := ((List.range k).filter fun j => laneOn (pr s p) w j).length
    let x (k : Nat) : Nat := elemOf w k (vr s a).toNat % 2 ^ (convFrom c).1
    let r (k : Nat) : Nat × Flags :=
      convElem c (me s).round (if sr then some (seedNext^[before k + 1] (me s).seed) else none) (x k)
    ∃ v mask, WritesV (.vcvt st d a p q c) s st 4 d v mask (lanesAfter s q w (pr s p) fun k => (r k).2)
        (if sr then seedNext^[before (1024 / w)] (me s).seed else (me s).seed) ∧
      ∀ (old : VWord) (k : Nat), k < 1024 / w →
        elemOf w k (mergeBits old v mask).toNat =
          if laneOn (pr s p) w k then
            elemOf w k old.toNat / 2 ^ (convTo c).1 * 2 ^ (convTo c).1 + (r k).1 % 2 ^ (convTo c).1
          else elemOf w k old.toNat) ∧
  (∀ (s : State) (st : Stall) (d a : VReg) (p : PReg) (q : Bool) (t : FTy),
    let f := ftyFmt t
    let w := mtyWidth (ftyM t)
    let leaf (idle : Nat) (k : Nat) : Nat := if laneOn (pr s p) w k then vel s t a k else idle
    let root (idle : Nat) (g : Nat → Nat → Nat × Flags) : Nat := treeNode g (leaf idle) (if w = 32 then 5 else 6) 0
    let writes (i : Instr) (v : Nat) : Prop :=
      ∃ fl, WritesElems i s st 6 d w (BitVec.allOnes 32) (fun k => if k = 0 then v else 0) fl ∧
        ((q = true ∨ (pr s p).getLsbD 0 = false) → fl = (me s).lanef) ∧
        ∀ i : Fin 32, i.val ≠ 0 → fl.get i = (me s).lanef.get i
    writes (.vrsum st d a p q t) (root (f.signBit true) (fpAdd f (me s).round)) ∧
    writes (.vrmax st d a p q t) (root (f.infinity true) (fpMinMax f (me s).round true)) ∧
    writes (.vrmin st d a p q t) (root (f.infinity false) (fpMinMax f (me s).round false)))

/-! ## Loads and stores -/

/-- R303, R304, R62, R63: a scalar load from the core's own memory brings its bytes, the first least significant and zero above; LDW and LDC find the
granule full, and LDC empties it. No byte of memory changes. R332, R333, R62, R63: a scalar store to the core's own memory writes the low bytes of
x[t], the least significant first, and no other byte. STP finds the granule empty; STP and STF leave it full. -/
def Obligations.ScalarAccesses : Prop :=
  (∀ (s : State) (st : Stall) (t b : Reg) (z : MSize) (o : BitVec 8) (p : Place) (v : View),
    Quiet s →
    (OwnAt s (memAdr s b z o) true z.bytes true false p v → (memAdr s b z o).toNat % z.bytes = 0 →
      let x := BitVec.ofNat 64 (Memory.read s.mem v.key z.bytes)
      AccessX (.ld st t b z o) s st 4 t x s.full (MemSame s) ∧
      (isFull s v.key = true → AccessX (.ldw st t b z o) s st 4 t x s.full (MemSame s)) ∧
      (isFull s v.key = true → (∀ poff, p ≠ .mirror poff) →
        AccessX (.ldc st t b z o) s st 4 t x (delMem s.full (v.key / 16)) (MemSame s))) ∧
    (OwnAt s (xr s b) true 8 true false p v → (xr s b).toNat % 8 = 0 →
      AccessX (.ldDShort t b) s 0 2 t (BitVec.ofNat 64 (Memory.read s.mem v.key 8)) s.full (MemSame s))) ∧
  (∀ (s : State) (st : Stall) (t b : Reg) (z : MSize) (o : BitVec 8) (p : Place) (v : View),
    Quiet s → (∀ poff, p ≠ .mirror poff) →
    (OwnAt s (memAdr s b z o) false z.bytes false true p v → storeForm s (memAdr s b z o) z.bytes = 0 →
      let mem := fun u => Stored s u v.key z.bytes (xr s t).toNat
      AccessOnly (.st st t b z o) s st 4 s.full mem ∧
      (isFull s v.key = false → AccessOnly (.stp st t b z o) s st 4 (addMem s.full (v.key / 16)) mem) ∧
      AccessOnly (.stf st t b z o) s st 4 (addMem s.full (v.key / 16)) mem) ∧
    (OwnAt s (xr s b) false 8 false true p v → storeForm s (xr s b) 8 = 0 →
      AccessOnly (.stDShort t b) s 0 2 s.full fun u => Stored s u v.key 8 (xr s t).toNat))

/-- R258, R265, R254: AMO and CAS on the core's own memory read the old value and write the new one at one instant; x[d] takes the old value, 32-bit ones
sign-extended but for MINU and MAXU. The form of AMO with N set returns nothing. -/
def Obligations.Atomics : Prop :=
  ∀ (s : State) (st : Stall) (d a b : Reg) (z : Bool) (o : AmoOp) (p : Place) (v : View),
    let n := if z then 8 else 4
    let old := Memory.read s.mem v.key n
    let y := (xr s b).toNat % 256 ^ n
    let new := amoNew o (8 * n) old y
    let e := (xr s d).toNat % 256 ^ n
    Quiet s → (∀ poff, p ≠ .mirror poff) → OwnAt s (xr s a) false n true true p v → (xr s a).toNat % n = 0 →
      AccessX (.amo st d a b false z o) s st 4 d (BitVec.ofNat 64 (amoOld o z old)) s.full (fun u => Stored s u v.key n new) ∧
      AccessOnly (.amo st d a b true z o) s st 4 s.full (fun u => Stored s u v.key n new) ∧
      AccessX (.cas st d a b z) s st 4 d (BitVec.ofNat 64 (if z then old else intBits 64 (signed 32 old))) s.full
        fun u => if old = e then Stored s u v.key n y else MemSame s u

/-! ## Counters, rings, transfers and full/empty bits -/

/-- R44, R268: a counter in the core's own memory. CNTADD adds to COUNT modulo 2^64, and where the counter is armed and the new COUNT is at or above
TARGET it clears ARMED and sends the continuation to WHO. CNTARM writes the target, ARM and the issuing core beside COUNT; where COUNT equals the
target it fires at once, ARMED clear; where COUNT exceeds it, CNTOVER parks the context and nothing changes. CNTRD reads COUNT. R44, R268: an armed
counter that reaches its target fires once: COUNT takes the sum, ARM is cleared, and a continuation of class CLS goes to the core that WHO names, with
the counter's address and COUNT as its arguments. -/
def Obligations.CountersCount : Prop :=
  (∀ (s : State) (st : Stall) (d a b : Reg) (p : Place) (v : View),
    let n := Memory.read s.mem v.key 8
    let x := (xr s b).toNat
    let sum := (n + x) % 2 ^ 64
    let arm := Memory.read s.mem (v.key + 12) 1
    let who := Memory.read s.mem (v.key + 13) 3
    let me' := s.cur.core % 2 ^ 24
    let fires (i : Instr) (dst cls count : Nat) (memory : State → Prop) := ∃ u q m, exec i s = .next u ∧ OthersSame s u ∧ WentOn s u st 4 ∧
      u.full = s.full ∧ u.flight = s.flight ++ [q] ∧ q.body = .msg m ∧ q.src = s.cur.core ∧ q.dst = dst ∧ q.net = .rply ∧
      m.kind = .unreserved ∧ m.cls = cls ∧ m.args.take 2 = [(absAdr s s.cur.core (xr s a)).getD (xr s a), BitVec.ofNat 64 count] ∧
      m.narg = 2 ∧ memory u
    let outside (u : State) (lo hi : Nat) := ∀ k, k < v.key + lo ∨ v.key + hi ≤ k → Memory.get u.mem k = Memory.get s.mem k
    let armed (u : State) (arm : Nat) := Memory.read u.mem (v.key + 8) 4 = x % 2 ^ 32 ∧ Memory.read u.mem (v.key + 12) 1 = arm ∧
      Memory.read u.mem (v.key + 13) 3 = me' ∧ outside u 8 16
    Quiet s → (∀ o, p ≠ .mirror o) → isPrivAdr (xr s a) = false → (xr s a).toNat % 16 = 0 →
      (OwnAt s (xr s a) false 16 true true p v →
        (arm < 128 ∨ sum < Memory.read s.mem (v.key + 8) 4 →
          AccessOnly (.cntadd st a b) s st 4 s.full fun u => Stored s u v.key 8 sum) ∧
        (128 ≤ arm → Memory.read s.mem (v.key + 8) 4 ≤ sum → coreExists who = true →
          fires (.cntadd st a b) who (arm % 64) sum fun u => Memory.read u.mem v.key 8 = sum ∧
            Memory.read u.mem (v.key + 12) 1 = arm - 128 ∧
            ∀ k, (k < v.key ∨ v.key + 8 ≤ k) → k ≠ v.key + 12 → Memory.get u.mem k = Memory.get s.mem k) ∧
        (bitsOf (xr s b) 38 26 = 0 → n < x % 2 ^ 32 →
          AccessOnly (.cntarm st a b) s st 4 s.full fun u => armed u (128 + bitsOf (xr s b) 32 6)) ∧
        (bitsOf (xr s b) 38 26 = 0 → n = x % 2 ^ 32 → coreExists me' = true →
          fires (.cntarm st a b) me' (bitsOf (xr s b) 32 6) n fun u => armed u (bitsOf (xr s b) 32 6)) ∧
        (bitsOf (xr s b) 38 26 = 0 → x % 2 ^ 32 < n → (me s).c63 = false → ∃ u, exec (.cntarm st a b) s = .next u ∧ u.mem = s.mem ∧
          u.full = s.full ∧ u.flight = s.flight ∧ (me u).st = .parked ∧ (me u).cause = .upcall ∧ (me u).fcode = fCNTOVER ∧
          (me u).fadr = xr s a ∧ (me u).fpc = (me s).pc)) ∧
      (bitsOf (xr s b) 38 26 ≠ 0 → TakesSup (.cntarm st a b) s fRESFIELD (xr s a)) ∧
      (OwnAt s (xr s a) true 16 true false p v →
        AccessX (.cntrd st d a) s st 4 d (BitVec.ofNat 64 n) s.full (MemSame s))) ∧
  (∀ (s : State) (home part : Nat) (adr : Word) (key x : Nat),
    let n := (Memory.read s.mem key 8 + x) % 2 ^ 64
    let who := Memory.read s.mem (key + 13) 3
    let arm := Memory.read s.mem (key + 12) 1
    Memory.wf s.mem = true → 128 ≤ arm → Memory.read s.mem (key + 8) 4 ≤ n → coreExists who = true →
      let t := addCounter s home part adr key x
      Memory.read t.mem key 8 = n ∧ Memory.read t.mem (key + 12) 1 = arm - 128 ∧
      (∀ k, (k < key ∨ key + 8 ≤ k) → k ≠ key + 12 → Memory.get t.mem k = Memory.get s.mem k) ∧
      ∃ q m, t.flight = s.flight ++ [q] ∧ q.body = .msg m ∧ q.src = home ∧ q.dst = who ∧ q.net = .rply ∧
        m.kind = .unreserved ∧ m.cls = arm % 64 ∧ m.args.take 2 = [adr, BitVec.ofNat 64 n] ∧ m.narg = 2)

/-- R236, R283, R284: ENQ and DEQ on a ring in the core's own memory whose control block is well-formed and whose elements lie apart from it. ENQ returns
0 and adds at TAIL, or returns 1 on a full ring; DEQ takes at HEAD and clears x[b], or sets it on an empty ring. R289, R290: FEQRY brings the bits of
the 64 granules of an aligned KiB, and FESET sets those of a run of granules. R297, R298: PUT from the core's own slice to its own slice copies n
granules, sets them full and returns n. What it copies are the bytes that it reads at its issue: those of the source, or those that a read of their
own has brought. -/
def Obligations.RingsAndBits : Prop :=
  (∀ (s : State) (st : Stall) (d a b : Reg) (p q : Place) (v e : View),
    let acc := newAccess s .enq (xr s a) 4
    let r := readRing s.mem v.key
    let z := 2 ^ r.esz
    Quiet s → (∀ o, p ≠ .mirror o) → isPrivAdr (xr s a) = false → (xr s a).toNat % 32 = 0 →
    OwnAt s (xr s a) false 32 true true p v →
    r.base.toNat % z = 0 → r.log2n ≤ 16 → r.esz ≤ 3 → r.zero = true → bitsOf r.base 62 2 = 0 → mbzOk r.base = true →
    ringPlace s acc p r = some q →
      (accView s acc (ringElem r q r.tail) z true true = .ok e → e.key + z ≤ v.key ∨ v.key + 32 ≤ e.key →
        ((r.tail + 2 ^ 64 - r.head) % 2 ^ 64 < 2 ^ r.log2n →
          AccessX (.enq st d a b) s st 4 d 0 s.full fun u =>
            Memory.read u.mem e.key z = (xr s b).toNat % 256 ^ z ∧ Memory.read u.mem (v.key + 24) 8 = (r.tail + 1) % 2 ^ 64 ∧
            ∀ k, (k < e.key ∨ e.key + z ≤ k) → (k < v.key + 24 ∨ v.key + 32 ≤ k) → Memory.get u.mem k = Memory.get s.mem k) ∧
        (2 ^ r.log2n ≤ (r.tail + 2 ^ 64 - r.head) % 2 ^ 64 → AccessX (.enq st d a b) s st 4 d 1 s.full (MemSame s))) ∧
      (accView s acc (ringElem r q r.head) z true true = .ok e →
        (r.tail ≠ r.head →
          AccessXX (.deq st d a b) s st d b (BitVec.ofNat 64 (Memory.read s.mem e.key z)) 0 fun u =>
            Stored s u (v.key + 16) 8 (r.head + 1)) ∧
        (r.tail = r.head → AccessXX (.deq st d a b) s st d b 0 1 (MemSame s)))) ∧
  (∀ (s : State) (st : Stall) (d a b : Reg) (p : Place) (v : View),
    let base := xr s a &&& ~~~(1023 : Word)
    let n := bitsOf (xr s b) 0 16
    Quiet s → (∀ o, p ≠ .mirror o) →
      (isPrivAdr base = false → OwnAt s base true 1024 true false p v →
        ∃ w, AccessX (.feqry st d a) s st 4 d w s.full (MemSame s) ∧
          ∀ i, i < 64 → w.getLsbD i = memb s.full (v.key / 16 + i)) ∧
      (isPrivAdr (xr s a) = false → bitsOf (xr s b) 16 47 = 0 → 1 ≤ n → n ≤ 4096 → (xr s a).toNat % 16 = 0 →
        crosses64k (xr s a) (16 * n) = false → OwnAt s (xr s a) false (16 * n) false true p v →
        AccessOnly (.feset st a b) s st 4 (setRun s.full (v.key / 16) ((xr s b).getLsbD 63) n) (MemSame s))) ∧
  (∀ (s : State) (st : Stall) (d a b : Reg) (p q : Place) (v w : View) (data : List Byte),
    let n := (xr s d).toNat
    PayloadOf s (xr s a) (16 * n) data → data.length = 16 * n → Quiet s → (∀ o, p ≠ .mirror o) → (∀ o, q ≠ .mirror o) → transferFault (xr s d) (xr s b) (xr s a) = (0, 0) →
    OwnAt s (xr s a) true (16 * n) true false p v → OwnAt s (xr s b) false (16 * n) false true q w →
      ∃ t, exec (.put st d a b) s = .next t ∧ Settled s t st 4 ∧ t.full = setRun s.full (w.key / 16) true n ∧
        me t = { me s with
          x := (me t).x
          pend := (me t).pend
          pc := (me t).pc
          loops := (me t).loops
          stall := (me t).stall
          dep := (me t).dep
          wgens := (me t).wgens
          paybuf := none } ∧
        (∀ c, (me t).xAt c d = if d = 0 then 0 else xr s d) ∧ XSameBut d (me s) (me t) ∧
        (∀ i, i < 16 * n → Memory.get t.mem (w.key + i) = data.getD i 0) ∧
        ((me s).paybuf = none → data = Memory.readBytes s.mem v.key (16 * n)) ∧
        ∀ k, k < w.key ∨ w.key + 16 * n ≤ k → Memory.get t.mem k = Memory.get s.mem k)

/-! ## Accesses to other homes -/

/-- R56, R303, R332, R258, R265, R268, R283: a scalar access whose place is not served in the step leaves for its home as one packet that holds every
operand value: address, size, qualifier, data and destination. The model's choices in it: log 68. -/
def Obligations.ScalarsLeave : Prop :=
  ∀ (s : State) (st : Stall) (t b d a c : Reg) (z : MSize) (o : BitVec 8) (p : Place) (n dbl : Bool) (op : AmoOp),
    let adr := memAdr s b z o
    let ld (q : Qual) : Access := { newAccess s (.load q z.bytes) adr 4 with dest := xCode t }
    let sd (q : Qual) : Access := { newAccess s (.store q z.bytes) adr 4 with val := (xr s t).setWidth 1024 }
    let w := if dbl then 8 else 4
    let amo : Access := { newAccess s (.amo op dbl) (xr s a) 4 with
      val := (xr s c).setWidth 1024
      dest := if n then noCode else xCode d }
    let cas : Access := { newAccess s (.cas dbl) (xr s a) 4 with
      val := (xr s c).setWidth 1024
      val2 := xr s d
      dest := xCode d }
    let loads (q : Qual) (deny : Place → Bool) := Reaches s (ld q) z.bytes z.bytes false true false true deny p
    let stores (q : Qual) := storeForm s adr z.bytes = 0 ∧ Reaches s (sd q) 1 z.bytes false false true false denyMirror p
    (loads .plain denyNone → Leaves (.ld st t b z o) s st 4 (ld .plain) p) ∧
    (loads .wait denyNone → Leaves (.ldw st t b z o) s st 4 (ld .wait) p) ∧
    (loads .consume denyMirror → Leaves (.ldc st t b z o) s st 4 (ld .consume) p) ∧
    (stores .plain → Leaves (.st st t b z o) s st 4 (sd .plain) p) ∧
    (stores .wait → Leaves (.stp st t b z o) s st 4 (sd .wait) p) ∧
    (stores .consume → Leaves (.stf st t b z o) s st 4 (sd .consume) p) ∧
    (Reaches s amo w w false true true false denySpecial p → Leaves (.amo st d a c n dbl op) s st 4 amo p) ∧
    (Reaches s cas w w false true true false denySpecial p → Leaves (.cas st d a c dbl) s st 4 cas p)

/-- R268, R283, R289, R290, R352, R244: the same of counters, rings, full/empty instructions, vector accesses and TMSET. R349, R350, R351, R56: VGATH and
VSCAT send one access for each active lane to its home, with the lane's address, and hold one reply slot, or one unacknowledged store, for all of
them; with no active lane they move nothing. The model's choices in it: log 68. -/
def Obligations.VectorsLeave : Prop :=
  (∀ (s : State) (st : Stall) (d a b : Reg) (x : VReg) (g : PReg) (m : TReg) (t : MTy) (o : BitVec 6) (p : Place),
    let adr := xr s a
    let new (op : AccOp) := newAccess s op adr 4
    let arg (op : AccOp) : Access := { new op with val := (xr s b).setWidth 1024 }
    let counter (c : Access) (wr load : Bool) := Reaches s c 16 16 true true wr load denySpecial p
    let ring (c : Access) := Reaches s c 32 32 true true true false denySpecial p
    let enq : Access := { arg .enq with dest := xCode d }
    let deq : Access := { new .deq with dest := xCode d, dest2 := xCode b }
    let k := bitsOf (xr s b) 0 16
    let set := new (.feset k ((xr s b).getLsbD 63))
    let qry : Access := { newAccess s .feqry (adr &&& ~~~(1023 : Word)) 4 with dest := xCode d }
    let v := vecAdr s a o
    let vl (q : Qual) : Access := { newAccess s (.vload q t) v 4 with pred := pr s g, lanes := pr s g, dest := vCode x }
    let vs (q : Qual) : Access := { newAccess s (.vstore q t) v 4 with val := vr s x, pred := pr s g, lanes := pr s g }
    let vloads (q : Qual) (deny : Place → Bool) := Reaches s (vl q) 128 128 false true false true deny p
    let vstores (q : Qual) := storeForm s v 128 = 0 ∧ Reaches s (vs q) 1 128 false false true false denyMirror p
    let tm : Access := { new .tmset with dest := tmCode m }
    (counter (arg .cntadd) true false → Leaves (.cntadd st a b) s st 4 (arg .cntadd) p) ∧
    (bitsOf (xr s b) 38 26 = 0 → counter (arg .cntarm) true false → Leaves (.cntarm st a b) s st 4 (arg .cntarm) p) ∧
    (counter { new .cntrd with dest := xCode d } false true →
      Leaves (.cntrd st d a) s st 4 { new .cntrd with dest := xCode d } p) ∧
    (ring enq → Leaves (.enq st d a b) s st 4 enq p) ∧
    (ring deq → Leaves (.deq st d a b) s st 4 deq p) ∧
    (Reaches s qry 1 1024 true true false true denyControl p → Leaves (.feqry st d a) s st 4 qry p) ∧
    (mbzOk adr = true → isPrivAdr adr = false → bitsOf (xr s b) 16 47 = 0 → 1 ≤ k → k ≤ 4096 → adr.toNat % 16 = 0 →
      crosses64k adr (16 * k) = false → Reaches s set 16 (16 * k) true false true false denySpecial p →
      Leaves (.feset st a b) s st 4 set p) ∧
    (vloads .plain denyNone → Leaves (.vld st x a g t o) s st 4 (vl .plain) p) ∧
    (vloads .wait denyNone → Leaves (.vldw st x a g t o) s st 4 (vl .wait) p) ∧
    (vloads .consume denyMirror → Leaves (.vldc st x a g t o) s st 4 (vl .consume) p) ∧
    (vstores .plain → Leaves (.vst st x a g t o) s st 4 (vs .plain) p) ∧
    (vstores .wait → Leaves (.vstp st x a g t o) s st 4 (vs .wait) p) ∧
    (vstores .consume → Leaves (.vstf st x a g t o) s st 4 (vs .consume) p) ∧
    (Reaches s tm 32 32 false true false true denyNone p → Leaves (.tmset st m a) s st 4 tm p)) ∧
  (∀ (s : State) (st : Stall) (v x : VReg) (b : Reg) (g : PReg) (t : MTy) (p : Nat → Place),
    let on := activeLanes (pr s g)
    let gath : Access := { newAccess s (.gath t) (xr s b) 4 with
      adr2 := xr s b
      idx := vr s x
      pred := pr s g
      lanes := pr s g
      dest := vCode v }
    let scat : Access := { newAccess s (.scat t) (xr s b) 4 with
      adr2 := xr s b
      idx := vr s x
      val := vr s v
      pred := pr s g
      lanes := pr s g }
    let vg := Instr.vgath st v b x g t
    let vs := Instr.vscat st v b x g t
    let leave (i : Instr) (a : Access) (load : Bool) :=
      (∀ l ∈ on, (laneFault s a t load l).1 = 0) →
      (∀ l ∈ on, resolve s (whoAmI s) (laneAdr (xr s b) (vr s x) t l) load = .ok (p l) ∧ Away s a (p l)) → on ≠ [] →
      ∃ (u : State) (ps : List Packet), exec i s = .next u ∧ MemSame s u ∧ u.full = s.full ∧ OthersSame s u ∧ u.flight = s.flight ++ ps ∧ WentOn s u st 4 ∧
        ps.length = on.length ∧ (me u).outstanding a.num = true ∧ (me u).x = (me s).x ∧ (me u).v = (me s).v ∧
        ∀ (j : Nat) (q : Packet) (l : Nat), ps[j]? = some q → on[j]? = some l → ∃ n, q.body = .access { a with
          adr := laneAdr (xr s b) (vr s x) t l
          pred := BitVec.ofNat 32 (2 ^ l)
          home := homeOf (whoAmI s) (p l)
          vec := goesWith a (homeOf (whoAmI s) (p l))
          net := .req
          own := none
          seq := n }
    leave vg gath true ∧ leave vs scat false ∧
    (on = [] → (me s).rslots.length < 12 → DoesNothing vg s st 4) ∧ (on = [] → DoesNothing vs s st 4) ∧
    ∀ l f, on.head? = some l → laneFault s gath t true l = f → f.1 ≠ 0 → exec vg s = .next (faultOf s f.1 f.2 4))

/-- R297, R298: GET whose near side is the core's own slice leaves for its far side with the number of granules and both addresses. R153, R311, R312:
MBPUT and MBTAKE name a mailbox in control space; the entry, its priority and its tag go to its core, and MBTAKE brings two words into x[d] and x[d +
1]. R318, R130: PUBLISH waits for the context's earlier loads, and leaves with what its context releases. The model's choices in it: logs 68 and 77. -/
def Obligations.TransfersLeave : Prop :=
  (∀ (s : State) (st : Stall) (d a b : Reg) (p q : Place),
    let n := (xr s d).toNat
    let acc : Access := { newAccess s (.get n) (xr s a) 4 with adr2 := xr s b, dest := xCode d }
    transferFault (xr s d) (xr s a) (xr s b) = (0, 0) → ownSide s (xr s b) false = some q →
      ownFault s { acc with adr := xr s b } q (16 * n) false true = 0 →
      Reaches s acc 16 (16 * n) true true false true denyControl p → Leaves (.get st d a b) s st 4 acc p) ∧
  (∀ (s : State) (st : Stall) (d a b c : Reg) (n : Nat),
    let p := Place.ctl n (bitsOf (xr s a) 0 23)
    let put : Access := { newAccess s .mbput (xr s a) 4 with val := (xr s b).setWidth 1024, val2 := xr s c }
    let take : Access := { newAccess s .mbtake (xr s a) 4 with dest := xCode d, dest2 := xCode (d + 1) }
    mailboxFault s (xr s a) = (0, n) →
      (fmtF32.isNan (bitsOf (xr s c) 32 32) = false →
        ((me s).sup = true ∨ n = s.cur.core ∨ partOf s n = some (partNum s s.cur.core)) → Away s put p →
        Leaves (.mbput st a b c) s st 4 put p) ∧
      (d ≠ 31 → n = s.cur.core → Away s take p → Leaves (.mbtake st a d) s st 4 take p)) ∧
  (∀ (s : State) (st : Stall) (a : Reg) (p : Place),
    let acc : Access := { newAccess s .publish (xr s a) 4 with vec := releaseVec s }
    (formFault (xr s a) true 1 = 0 → loadsDone (me s) = true → resolve s (whoAmI s) (xr s a) false = .ok p →
      denyUnshadowed s p = false → ownFault s acc p 1 false true = 0 → Away s acc p → Leaves (.publish st a) s st 4 acc p) ∧
    (formFault (xr s a) true 1 = 0 → loadsDone (me s) = false → ParksFor (.publish st a) s .reply))

/-! ## Arrivals -/

/-- R56, R158, R118: an access that reaches its home over the mesh of its die, or between dies in the order of its flow, is applied there at one instant,
and its answer goes back as a reply or an acknowledgement. A store to a control word is the event of its row of the table, whichever way it came. The
model's choices in it: log 17. -/
def Obligations.AccessesArrive : Prop :=
  ∀ (s : State) (k : Nat) (q : Packet) (a : Access) (p : Place) (t : State) (r : Reply), Arrives s k q a p t r →
    (q.near = true → ctlStoreOf s a = none → AppliedHome (.remoteAccessArrival k) s a t r) ∧
    (q.near = false → ctlStoreOf s a = none → AppliedHome (.packetDelivery k) s a t r) ∧
    ∀ n off bytes i, ctlStoreOf s a = some (n, off, bytes) → IsControlEvent k i (ctlRow n off bytes) → AppliedHome i s a t r

/-- R207, R365: a reply on the issuer's die, for a slot of an access that writes x[d] and has nothing else to wait for: the value reaches x[d] and no
other register, the slot is free, and a context that waited for it goes on. R125: the acknowledgement of a store removes it from its context's
unacknowledged stores, and changes no register. -/
def Obligations.RepliesArrive : Prop :=
  (∀ (s : State) (k : Nat) (q : Packet) (r : Reply) (v : VWord) (x : RSlot) (d : Reg),
    let a := r.acc
    let c := ctxAt s a.core a.ctx
    takeAt s k = .yes q → q.body = .reply r → q.near = true → stale s q = false → r.ans = .data v → r.mask = allBits → r.bytes = [] →
    a.slotted = true → (∀ n, a.op ≠ .payload n) → c.act = a.act → (c.st = .running ∨ c.st = .parked) →
    c.rslots.find? (fun y => y.num == a.num && !y.arr) = some x → x.num = a.num → x.left = 1 → x.flt = none → x.dest = xCode d →
    x.dest2 = noCode → (∀ u ∈ c.acks, u.num ≠ a.num) →
      ∃ t, exec (.accessReplyArrival k) s = .next t ∧ t.mem = s.mem ∧ t.full = s.full ∧ t.flight = s.flight.eraseIdx k ∧
        (∀ n m, ¬(n = a.core ∧ m = a.ctx) → ctxAt t n m = ctxAt s n m) ∧
        (∀ cy, (ctxAt t a.core a.ctx).xAt cy d = if d = 0 then 0 else v.setWidth 64) ∧
        XSameBut d c (ctxAt t a.core a.ctx) ∧
        (ctxAt t a.core a.ctx).rslots = c.rslots.filter (fun y => y.num != a.num) ∧
        (c.st = .parked → c.cause = .reply → c.awaits = some a.num → (ctxAt t a.core a.ctx).st = .running)) ∧
  (∀ (s : State) (k : Nat) (q : Packet) (r : Reply) (v : VWord) (u : Unack),
    let a := r.acc
    let c := ctxAt s a.core a.ctx
    takeAt s k = .yes q → q.body = .ack r → q.near = true → stale s q = false → r.ans = .data v → a.slotted = false →
    a.op.vector = false → c.act = a.act → c.st ≠ .free → c.acks.find? (fun x => x.num == a.num) = some u → u.left = 1 → u.flt = none →
      ∃ t, exec (.storeAcknowledgement k) s = .next t ∧ t.mem = s.mem ∧ t.full = s.full ∧ t.flight = s.flight.eraseIdx k ∧
        (∀ n m, ¬(n = a.core ∧ m = a.ctx) → ctxAt t n m = ctxAt s n m) ∧
        (ctxAt t a.core a.ctx).acks = c.acks.filter (fun x => x.num != a.num) ∧
        (ctxAt t a.core a.ctx).x = c.x ∧ (ctxAt t a.core a.ctx).v = c.v ∧ (ctxAt t a.core a.ctx).p = c.p ∧
        (ctxAt t a.core a.ctx).pc = c.pc)

/-- R26, R29, R30, R32: a request that reaches its destination, which has dispatched what it could before, is accepted into the general area when its
class's quota, the inbox and the class's window allow, in acceptance order; otherwise it goes back to class 62 of its sender with the reason, and
reaches no inbox here. R50: behind a store that came before it on its flow and is held it waits. R27, R28: on RPLY a reply into a reservation that its
destination holds is accepted outside the general area; an empty reply only frees the reservation; a message without a reservation is accepted where
none waits and fewer than sixteen are held, and where sixteen are held it takes its place behind those that wait. Not said here: a message without a
reservation where others wait while fewer than sixteen are held. The model's choices in it: logs 67, 73 and 77. -/
def Obligations.InboxesAccept : Prop :=
  (∀ (s : State) (k : Nat) (q : Packet) (m : Msg) (id : Nat),
    takeAt s k = .yes q → q.body = .msg m → q.near = true → q.net ≠ .rply → m.kind = .request id → m.dst = q.dst →
      let u := dispatchAll (removeAt s k) m.dst
      let c := coreAt u m.dst
      (codeHeld s q = true → exec (.messageArrival k) s = .next s) ∧
      (codeHeld s q = false → stale s q = false →
        (nextWork (removeAt s k) m.dst = none → u = removeAt s k) ∧
        (refusalReason u m = 0 → ∃ t, exec (.messageArrival k) s = .next t ∧ t.mem = u.mem ∧ t.flight = u.flight ∧
          (coreAt t m.dst).inbox = c.inbox ++ [⟨m, generalSlots m, c.order⟩] ∧ (coreAt t m.dst).order = c.order + 1) ∧
        (refusalReason u m ≠ 0 → ∃ t p r, exec (.messageArrival k) s = .next t ∧ t.mem = u.mem ∧
          (coreAt t m.dst).inbox = c.inbox ∧ t.flight = u.flight ++ [p] ∧ p.body = .msg r ∧ p.dst = m.src ∧ p.net = .rply ∧
          r.kind = .refusal id ∧ r.cls = 62 ∧ r.args.head? = some m.dest ∧
          (r.args.getD 1 0).toNat / 2 ^ 62 = refusalReason u m))) ∧
  (∀ (s : State) (k : Nat) (q : Packet) (m : Msg) (id : Nat),
    takeAt s k = .yes q → q.body = .msg m → q.near = true → q.net = .rply → codeHeld s q = false → stale s q = false →
      let u := dispatchAll (removeAt s k) m.dst
      let c := coreAt u m.dst
      (m.kind = .reply id → c.resv.contains id = true → ∃ t, exec (.rplyArrival k) s = .next t ∧ t.mem = u.mem ∧
        (coreAt t m.dst).inbox = c.inbox ++ [⟨m, 0, c.order⟩] ∧ (coreAt t m.dst).resv = c.resv) ∧
      (m.kind = .empty id → ∃ t, exec (.rplyArrival k) s = .next t ∧ t.mem = u.mem ∧ (coreAt t m.dst).inbox = c.inbox ∧
        (coreAt t m.dst).resv = c.resv.filter fun x => x != id) ∧
      (m.kind = .unreserved → c.rplyWait = [] → unreservedUsed c < 16 → ∃ t, exec (.rplyArrival k) s = .next t ∧ t.mem = u.mem ∧
        (coreAt t m.dst).inbox = c.inbox ++ [⟨m, 0, c.order⟩] ∧ (coreAt t m.dst).rplyWait = []) ∧
      (m.kind = .unreserved → 16 ≤ unreservedUsed c → ∃ t, exec (.rplyArrival k) s = .next t ∧ t.mem = u.mem ∧
        (coreAt t m.dst).inbox = c.inbox ∧ (coreAt t m.dst).rplyWait = c.rplyWait ++ [m]))

/-! ## Control flow -/

/-- R261, R301, R302, R97, R96: a branch whose condition holds, and every jump, goes to its target, checked; a branch whose condition does not hold goes
on. JAL and JALR link. R307: LOOP pushes a level that repeats the body x[a] times, skips the body when x[a] is 0, and with a zero offset discards the
innermost level; a third level, an offset below 3 and a register beside a zero offset are RESFIELD. R286, R27: END waits for outstanding replies; then
it makes its context free and clears the loop state. An activation of a REQ or BULK message that has not replied sends the empty reply, which names
the reservation to release; any other sends nothing. No byte of memory and no other context changes. -/
def Obligations.ControlFlow : Prop :=
  (∀ (s : State) (st : Stall) (d a b : Reg) (o5 : BitVec 5) (o12 : BitVec 12) (o25 : BitVec 25),
    let far := (me s).pc + 2 * o25.signExtend 64
    BranchTakes (.beqz d o5) s 2 (xr s d = 0) (o5.signExtend 64) ∧
    BranchTakes (.bnez d o5) s 2 (xr s d ≠ 0) (o5.signExtend 64) ∧
    BranchTakes (.beq a b o12) s 4 (xr s a = xr s b) (o12.signExtend 64) ∧
    BranchTakes (.bne a b o12) s 4 (xr s a ≠ xr s b) (o12.signExtend 64) ∧
    BranchTakes (.blt a b o12) s 4 ((xr s a).toInt < (xr s b).toInt) (o12.signExtend 64) ∧
    BranchTakes (.bge a b o12) s 4 ((xr s b).toInt ≤ (xr s a).toInt) (o12.signExtend 64) ∧
    BranchTakes (.bltu a b o12) s 4 ((xr s a).toNat < (xr s b).toNat) (o12.signExtend 64) ∧
    BranchTakes (.bgeu a b o12) s 4 ((xr s b).toNat ≤ (xr s a).toNat) (o12.signExtend 64) ∧
    JumpTakes (.j o25) s far (GoesTo (.j o25) s 0 far) ∧
    JumpTakes (.jal o25) s far (LinksTo (.jal o25) s 0 far 1) ∧
    JumpTakes (.jrShort a) s (xr s a) (GoesTo (.jrShort a) s 0 (xr s a)) ∧
    JumpTakes (.jr st a) s (xr s a) (GoesTo (.jr st a) s st (xr s a)) ∧
    JumpTakes (.jalr st d a) s (xr s a) (LinksTo (.jalr st d a) s st (xr s a) d)) ∧
  (∀ (s : State) (st : Stall) (a : Reg) (imm : BitVec 13),
    let i := Instr.loop st a imm
    let fin := (me s).pc + 2 * imm.setWidth 64
    let goesOn (l : List LoopLevel) := ∃ t, exec i s = .next t ∧ MineOnly s t ∧
      me t = { me s with
        pc := (loopCheck l ((me s).pc + 4)).2
        loops := (loopCheck l ((me s).pc + 4)).1
        stall := (myCore s).cycle + st.toNat + 1 }
    (imm = 0 → a = 0 → goesOn ((me s).loops.drop 1)) ∧
    (imm = 0 → a ≠ 0 → TakesSup i s fRESFIELD 0) ∧
    (1 ≤ imm.toNat → imm.toNat < 3 → TakesSup i s fRESFIELD 0) ∧
    (3 ≤ imm.toNat → xr s a = 0 → GoesTo i s st fin) ∧
    (3 ≤ imm.toNat → xr s a ≠ 0 → (me s).loops.length < 2 → goesOn (⟨xr s a, (me s).pc + 4, fin⟩ :: (me s).loops)) ∧
    (3 ≤ imm.toNat → xr s a ≠ 0 → 2 ≤ (me s).loops.length → TakesSup i s fRESFIELD 0)) ∧
  (∀ (s : State) (st : Stall) (i : Instr), i = .endShort ∨ i = .endAct st →
    let c := me s
    (c.rslots ≠ [] → ParksFor i s .reply) ∧
    (c.rslots = [] → c.resvAt = none → ∃ t, exec i s = .next t ∧ t.mem = s.mem ∧ t.full = s.full ∧ OthersSame s t ∧ (me t).st = .free ∧
      (me t).loops = [] ∧ (me t).x = c.x ∧ (me t).v = c.v ∧ (me t).p = c.p ∧
      ((c.owes && !c.replied) = false → t.flight = s.flight) ∧
      (∀ n, (c.owes && !c.replied) = true → adrCore s s.cur.core c.rplyadr = some n →
        ∃ q m, t.flight = s.flight ++ [q] ∧ q.src = s.cur.core ∧ q.dst = n ∧ q.net = .rply ∧ q.body = .msg m ∧
          m.kind = .empty (bitsOf c.rplyadr 0 23) ∧ m.dst = n)))

/-! ## Exceptions and modes -/

/-- R204, R198, R201: a supervisor fault holds its context, changes no other, and sends the partition's supervisor core a message in class FCLASS on RPLY:
the faulting core, the code with the context's number, the fault address and the PC. R199, R201: an upcall parks its context with CAUSE upcall and
queues one class 63 record with the code, the fault address, the context and the PC, after the records already queued; in a class 63 activation the
supervisor receives the fault instead. R341, R201: TRAP waits for the context's earlier loads and raises TRAPINSN with x[a] as fault address. -/
def Obligations.FaultsAndTraps : Prop :=
  (∀ (s : State) (n c code : Nat) (adr pc : Word), code < 256 → c < 16 →
    let t := raiseSup s n c code adr pc
    let p := partNum s n
    ctxAt t n c = { ctxAt s n c with st := .held, cause := .none } ∧
    (∀ m d, ¬(m = n ∧ d = c) → ctxAt t m d = ctxAt s m d) ∧ t.mem = s.mem ∧ t.full = s.full ∧
    ∃ q m, t.flight = s.flight ++ [q] ∧ q.body = .msg m ∧ q.net = .rply ∧ q.src = n ∧ q.dst = supCoreOf s (pkgOf n) p ∧
      m.kind = .unreserved ∧ m.cls = partFclass s (pkgOf n) p ∧ m.narg = 4 ∧
      m.args = eightArgs [coreAdr s (supCoreOf s (pkgOf n) p) n,
        BitVec.ofNat 64 (code + 256 * c + if (ctxAt s n c).c63 then 4096 else 0), adr, pc]) ∧
  (∀ (s : State) (n c code : Nat) (adr pc : Word) (len : Nat),
    let t := raiseUpcall s n c code adr pc len none
    ((ctxAt s n c).c63 = true → t = raiseSup s n c code adr pc) ∧
    ((ctxAt s n c).c63 = false → (∀ d, (ctxAt s n d).cause ≠ .halt) →
      ctxAt t n c = { ctxAt s n c with
        st := .parked
        cause := .upcall
        fcode := code
        fadr := adr
        fpc := pc
        flen := len
        late := false
        kept := none
        bwait := none
        block := .none } ∧
      (∀ m d, ¬(m = n ∧ d = c) → ctxAt t m d = ctxAt s m d) ∧ t.mem = s.mem ∧ t.full = s.full ∧ t.flight = s.flight ∧
      ∃ u, (coreAt t n).upcalls = (coreAt s n).upcalls ++ [u] ∧ u.code = code ∧ u.adr = adr ∧ u.ctx = c ∧ u.pc = pc)) ∧
  (∀ (s : State) (st : Stall) (a : Reg),
    (loadsDone (me s) = true → TakesUpcall (.trap st a) s fTRAPINSN (xr s a) 4) ∧
    (loadsDone (me s) = false → ParksFor (.trap st a) s .reply))

/-- R337, R287, R300: on a supervisor core SYSC enters supervisor mode at %SVEC, ERET restores the mode of %EMODE and goes to %EPC, and HALT parks the
context at the next instruction. An odd %SVEC or %EPC is MISALIGN; ERET and HALT in user mode are PRIV. R322, R202, R365: RESUME sets a context of its
core that an upcall parked running, at the faulting instruction or, to skip it, at the next; of a fault found after issue, to skip writes zero into
the register of the kept access (but after TIMEOUT) and the context goes on at its own PC; any other context stays as it is. A nonzero x[a] [63:4] is
RESFIELD. -/
def Obligations.ModesAndRestarts : Prop :=
  (∀ (s : State) (st : Stall) (a : Reg),
    let c := me s
    let svec := (myCore s).svec
    let enters (i : Instr) (n : Word) (sup emode : Bool) (epc : Word) := ∃ t, exec i s = .next t ∧ MineOnly s t ∧
      me t = { c with
        sup := sup
        emode := emode
        epc := epc
        pc := (loopCheck c.loops n).2
        loops := (loopCheck c.loops n).1
        stall := (myCore s).cycle + st.toNat + 1 }
    (isWorker s.cur.core = false → svec.toNat % 2 = 0 → enters (.sysc st a) svec true c.sup (c.pc + 4)) ∧
    (isWorker s.cur.core = false → svec.toNat % 2 = 1 → TakesSup (.sysc st a) s fMISALIGN svec) ∧
    (c.sup = true → c.epc.toNat % 2 = 0 → enters (.eret st) c.epc c.emode c.emode c.epc) ∧
    (c.sup = true → c.epc.toNat % 2 = 1 → TakesSup (.eret st) s fMISALIGN c.epc) ∧
    (c.sup = false → TakesSup (.eret st) s fPRIV 0 ∧ TakesSup (.halt st) s fPRIV 0) ∧
    (c.sup = true → ∃ t, exec (.halt st) s = .next t ∧ MineOnly s t ∧ WentOn s t st 4 ∧
      me t = { c with
        st := .parked
        cause := .halt
        pc := (me t).pc
        loops := (me t).loops
        stall := (me t).stall })) ∧
  (∀ (s : State) (st : Stall) (m : RMode) (a d : Reg),
    let i := Instr.resume st m a
    let k := (xr s a).toNat
    let n := s.cur.core
    let c := ctxAt s n k
    let going (t : State) := exec i s = .next t ∧ t.mem = s.mem ∧ t.full = s.full ∧ t.flight = s.flight ∧ WentOn s t st 4 ∧
      ∀ x y, ¬(x = n ∧ y = k) → ¬(x = n ∧ y = s.cur.ctx) → ctxAt t x y = ctxAt s x y
    let runs (t : State) := (ctxAt t n k).st = .running ∧ (ctxAt t n k).cause = .none ∧ (ctxAt t n k).kept = none
    (16 ≤ k → TakesSup i s fRESFIELD 0) ∧
    (k < 16 → ¬(c.st = .parked ∧ c.cause = .upcall) → DoesNothing i s st 4) ∧
    (k < 16 → (me s).st = .running → c.st = .parked → c.cause = .upcall → c.kept = none →
      ∃ t, going t ∧ runs t ∧ (ctxAt t n k).x = c.x ∧ (ctxAt t n k).v = c.v ∧ (ctxAt t n k).p = c.p ∧
        (m = .retry → (ctxAt t n k).pc = c.pc ∧ (ctxAt t n k).loops = c.loops) ∧
        (m = .skip → (ctxAt t n k).pc = (loopCheck c.loops (c.pc + BitVec.ofNat 64 c.flen)).2)) ∧
    ∀ b, k < 16 → (me s).st = .running → c.st = .parked → c.cause = .upcall → c.kept = some b → m = .skip → c.fcode ≠ fTIMEOUT →
      b.core = n → b.ctx = k → b.dest = xCode d → b.dest2 = noCode → keptMask b = allBits →
      ∃ t, going t ∧ runs t ∧ (ctxAt t n k).pc = c.pc ∧ (∀ cy, (ctxAt t n k).xAt cy d = 0) ∧ XSameBut d c (ctxAt t n k))

/-! ## Messages, records and class enables -/

/-- R325, R326, R336: SEND and SENDB, and SYSC on a worker core, reserve a reply slot and put a request into the send queue, once the context's earlier
loads have returned and its earlier stores are settled: class, priority, arguments x8 on and payload as the header says. Each of the three parks while
they have not, and with no free reservation; with a full queue it parks with the slot reserved, or raises SQFULL with the slot released, as POL says;
a slot reserved before is the one it uses. A destination that does not exist, and a payload that may not be read, are judged before all that. The
model's choices in it: logs 61 and 72. -/
def Obligations.SendsQueue : Prop :=
  ∀ (s : State) (st : Stall) (a b c : Reg) (dst : Nat) (bytes : List Byte),
    let h := xr s b
    let adr := xr s a
    let n := s.cur.core
    let k := myCore s
    let good (m : Msg) := m.cls = hdrClass h ∧ m.prio = hdrPrio h ∧ m.narg = hdrNarg h ∧ m.args = eightArgs (argsOf s (hdrNarg h)) ∧
      m.src = n ∧ m.dst = dst ∧ m.bulk = (bitsOf h 10 2 == 2)
    let sup := supCoreOf s (pkgOf n) (partNum s n)
    let sysc (m : Msg) := m.cls = (xr s a).toNat ∧ m.prio = 0 ∧ m.narg = 8 ∧ m.args = eightArgs (argsOf s 8) ∧ m.payload = [] ∧
      m.src = n ∧ m.dst = sup ∧ m.bulk = false
    let send := Instr.send st a b
    let sendb := Instr.sendb st a b c
    let long := (sendForm h adr (some (xr s c))).1 = 0
    let forms (i : Instr) (dest : Word) :=
      (i = send ∧ (sendForm h adr none).1 = 0 ∧ destCore s n adr = some dst ∧ dest = (absAdr s n adr).getD adr) ∨
      (i = sendb ∧ long ∧ destCore s n adr = some dst ∧ (hdrPlen h ≠ 0 → (payloadFault s (xr s c) (hdrPlen h)).1 = 0) ∧
        dest = (absAdr s n adr).getD adr) ∨
      (i = .sysc st a ∧ isWorker n = true ∧ (xr s a).toNat < 64 ∧ dest = coreAdr s n sup)
    let held (i : Instr) (id : Nat) (is : Msg → Prop) := ∃ t m, exec i s = .next t ∧ t.mem = s.mem ∧ t.full = s.full ∧ t.flight = s.flight ∧
      OthersSame s t ∧ WentOn s t st 4 ∧ is m ∧ m.kind = .request id ∧ (myCore t).resv = k.resv ∧ (myCore t).sendq = k.sendq ++ [m] ∧
      (me t).resvAt = none ∧ (me t).x = (me s).x
    let bare := (me s).resvAt = none
    (mayRelease s = true → sendFull k = false → ∀ id, (me s).resvAt = some id →
      ((sendForm h adr none).1 = 0 → destCore s n adr = some dst → held send id fun m => good m ∧ m.payload = []) ∧
      (long → destCore s n adr = some dst → hdrPlen h ≠ 0 → (payloadFault s (xr s c) (hdrPlen h)).1 = 0 →
        PayloadOf s (xr s c) (hdrPlen h) bytes → held sendb id fun m => good m ∧ m.payload = bytes) ∧
      (isWorker n = true → (xr s a).toNat < 64 → held (.sysc st a) id sysc)) ∧
    (mayRelease s = true → bare → k.resv.length < 48 → sendFull k = false →
      ((sendForm h adr none).1 = 0 → destCore s n adr = some dst → Requests send s st fun m => good m ∧ m.payload = []) ∧
      ((sendForm h adr (some (xr s c))).1 = 0 → destCore s n adr = some dst → hdrPlen h = 0 →
        Requests (.sendb st a b c) s st fun m => good m ∧ m.payload = []) ∧
      ((sendForm h adr (some (xr s c))).1 = 0 → destCore s n adr = some dst → hdrPlen h ≠ 0 →
        (payloadFault s (xr s c) (hdrPlen h)).1 = 0 → PayloadOf s (xr s c) (hdrPlen h) bytes →
        Requests (.sendb st a b c) s st fun m => good m ∧ m.payload = bytes) ∧
      (isWorker n = true → (xr s a).toNat < 64 → Requests (.sysc st a) s st sysc)) ∧
    (∀ (i : Instr) (dest : Word), forms i dest →
      (mayRelease s = false → ParksFor i s .reply) ∧
      (mayRelease s = true → bare → 48 ≤ k.resv.length → ParksFor i s .send) ∧
      (mayRelease s = true → bare → k.resv.length < 48 → sendFull k = true → (me s).pol = false → ∃ t id, exec i s = .next t ∧
        id ∉ k.resv ∧ (myCore t).resv = id :: k.resv ∧ (myCore t).sendq = k.sendq ∧ t.mem = s.mem ∧ t.full = s.full ∧ t.flight = s.flight ∧
        OthersSame s t ∧ me t = { me s with
          st := .parked
          cause := .send
          resvAt := some id }) ∧
      (mayRelease s = true → ¬bare → sendFull k = true → (me s).pol = false → ParksFor i s .send) ∧
      (mayRelease s = true → (bare → k.resv.length < 48) → sendFull k = true → (me s).pol = true → ∃ t,
        exec i s = .next (raiseUpcall t n s.cur.ctx fSQFULL dest (me s).pc 4 none) ∧
        t.mem = s.mem ∧ t.full = s.full ∧ t.flight = s.flight ∧ (myCore t).sqfaults = k.sqfaults + 1 ∧ (myCore t).sendq = k.sendq ∧
        (myCore t).resv = k.resv.filter fun x => some x != (me s).resvAt)) ∧
    ((sendForm h adr none).1 = 0 → destCore s n adr = none → TakesSup send s fPROTECT adr) ∧
    (long → destCore s n adr = none → TakesSup sendb s fPROTECT adr) ∧
    (long → destCore s n adr = some dst → hdrPlen h ≠ 0 → (payloadFault s (xr s c) (hdrPlen h)).1 ≠ 0 →
      exec sendb s = .next (faultOf s (payloadFault s (xr s c) (hdrPlen h)).1 (payloadFault s (xr s c) (hdrPlen h)).2 4))

/-- R321, R330, R41: REPLY queues one message to %RPLYADR, whatever POL is, and marks the activation; a second REPLY, and one with no request to answer,
is RESFIELD. SPAWN pushes a record of header and arguments at the bottom of its core's deque, or at that of its least-loaded neighbour with room; with
room in neither it raises DQFULL. R339: TAGEN and TAGDIS set and clear EN of the classes of the mask in the class table of the issuing core, and leave
every other enable and every other byte of memory; TAGPND writes %TAGPND. The model's choices in it: log 55. -/
def Obligations.RepliesSpawnsClasses : Prop :=
  (∀ (s : State) (st : Stall) (b : Reg) (dst m : Nat),
    let h := xr s b
    let c := me s
    let n := s.cur.core
    let k := myCore s
    let reply := Instr.reply st b
    let spawn := Instr.spawn st b
    let spawnOk := hdrOk h = true ∧ hdrPlen h = 0 ∧ bitsOf h 10 2 = 0 ∧ hdrNarg h ≤ 7 ∧ mayRelease s = true
    let record (t : Task) := t.words = (BitVec.ofNat 64 (hdrClass h + 64 * hdrNarg h) :: eightArgs (argsOf s (hdrNarg h))).take 8 ∧
      t.src = n
    (hdrOk h = true → hdrPlen h = 0 → c.rplyadr ≠ 0 → c.replied = false → mayRelease s = true → sendFull k = false →
      adrCore s n c.rplyadr = some dst →
      Completes reply s st true fun t => ∃ r, (myCore t).sendq = k.sendq ++ [r] ∧ r.kind = .reply (bitsOf c.rplyadr 0 23) ∧
        r.cls = hdrClass h ∧ r.prio = hdrPrio h ∧ r.narg = hdrNarg h ∧ r.args = eightArgs (argsOf s (hdrNarg h)) ∧ r.dst = dst ∧
        (myCore t).resv = k.resv) ∧
    (hdrOk h = true → hdrPlen h = 0 → c.rplyadr ≠ 0 → c.replied = false → mayRelease s = true → sendFull k = true →
      ParksFor reply s .send) ∧
    (hdrOk h = true → hdrPlen h = 0 → (c.rplyadr = 0 ∨ c.replied = true) → TakesSup reply s fRESFIELD 0) ∧
    (hdrOk h = false ∨ hdrPlen h ≠ 0 → TakesSup reply s fRESFIELD 0 ∧ TakesSup spawn s fRESFIELD 0) ∧
    (spawnOk → k.deque.length < 256 → Completes spawn s st c.replied fun t => ∃ r, record r ∧ (myCore t).deque = r :: k.deque) ∧
    (spawnOk → 256 ≤ k.deque.length → sendFull k = false → overflowCore s n = some m →
      Completes spawn s st c.replied fun t => ∃ r, record r ∧ (coreAt t m).deque = r :: (coreAt s m).deque) ∧
    (spawnOk → 256 ≤ k.deque.length → sendFull k = false → overflowCore s n = none → TakesUpcall spawn s fDQFULL 0 4)) ∧
  (∀ (s : State) (st : Stall) (a d : Reg),
    let n := s.cur.core
    let enables (i : Instr) (on : Bool) := ∃ t, exec i s = .next t ∧ t.full = s.full ∧ t.flight = s.flight ∧ OthersSame s t ∧
      WentOn s t st 4 ∧ me t = { me s with
        pc := (me t).pc
        loops := (me t).loops
        stall := (me t).stall } ∧
      (∀ c, c < 64 → classEn t n c = if (xr s a).getLsbD c then on else classEn s n c) ∧
      (∀ c j, c < 64 → j < 64 → j ≠ 42 → nbits (classWord t n c) j 1 = nbits (classWord s n c) j 1) ∧
      ∀ k, k < classKey n 0 ∨ classKey n 64 ≤ k → Memory.get t.mem k = Memory.get s.mem k
    (Memory.wf s.mem = true → enables (.tagen st a) true ∧ enables (.tagdis st a) false) ∧
    ∃ t, exec (.tagpnd st d) s = .next t ∧ MineOnly s t ∧ WentOn s t st 4 ∧
      (s.cur.late = false → (∀ c, (me t).xAt c d = if d = 0 then 0 else tagPnd s n) ∧ XSameBut d (me s) (me t)) ∧
      (s.cur.late = true → (me t).x = (me s).x ∧ (me t).var = (me s).var ++ [⟨xCode d, .tagpnd, allBits, false⟩]))

/-! ## The Gaussian unit and tensor maps -/

/-- R149, R150: GADD adds and GDAMP damps lanes 0 to 26 of two blocks, lanes of unused slots being zero, and keep the descriptor and lanes 28 to 31 of va;
GSOLVE keeps lanes 27 to 31: with l the Cholesky factor of Λ, its means solve l lᵀ μ = η forward and back, each variance is the sum of the squares of
the solution of l u = e_i from element i on, rounded once a step, and every other lane is zero; it gives the canonical NaN to every mean and variance
when a pivot is singular; GRES writes the largest difference of lanes 0 to 26 into x[d + 16 Q]. A malformed block of any operand, blocks whose
descriptors differ, and a damping factor that is no number from 0 to 1 are RESFIELD. The model's choices in it: log 77. -/
def Obligations.GaussianBlocks : Prop :=
  ∀ (s : State) (st : Stall) (d a b : VReg) (h : Bool) (l u : Nat → Nat → Nat) (z w : Nat → Nat),
    let va := vr s a
    let vb := vr s b
    let n := gDim va
    let one (i j : Nat) : Nat := if j = i then 0x3f800000 else 0
    let x (k : Nat) := (gRead va).getD k 0
    let y (k : Nat) := (gRead vb).getD k 0
    let diff (k : Nat) := fmtF32.abs (addRne (x k) (if fmtF32.isNan (y k) then y k else fmtF32.neg (y k)))
    let r : Reg := BitVec.ofNat 5 (d.toNat + if h then 16 else 0)
    let res : Nat := if (List.range 27).any fun k => fmtF32.isNan (diff k) then fmtF32.canonNan else
      (List.range 27).foldl (fun m k => Nat.max m (diff k)) 0
    (gOk va = true → gOk vb = true → gDesc va = gDesc vb →
      (∃ v, BlockTo (.gadd st d a b) s st d v ∧ KeepsTail v va (gDesc va) ∧
        ∀ k, k < 27 → elemOf 32 k v.toNat = addRne (x k) (y k) % 2 ^ 32) ∧
      (∀ beta, gBeta va = some beta → ∃ v, BlockTo (.gdamp st d a b) s st d v ∧ KeepsTail v va (gDesc va) ∧
        ∀ k, k < 27 → elemOf 32 k v.toNat = dampElem beta (x k) (y k) % 2 ^ 32) ∧
      (gBeta va = none → TakesSup (.gdamp st d a b) s fRESFIELD 0)) ∧
    (gOk va = true → ∃ v, BlockTo (.gsolve st d a) s st d v ∧ KeepsTail v va (gDesc va) ∧
      (∀ j, SingularAt (gLam va) n j l → ∀ k, k < 27 → elemOf 32 k v.toNat =
        if k < n ∨ (6 ≤ k ∧ k < 6 + n) then fmtF32.canonNan else 0) ∧
      (FactorOf (gLam va) n n l → ForwardOf l n (gEta va) z → BackOf l n z w → (∀ i, i < n → ForwardOf l n (one i) (u i)) →
        ∀ k, k < 27 → elemOf 32 k v.toNat =
          (if k < n then w k
            else if 6 ≤ k ∧ k < 6 + n then
              (List.range n).foldl (fun t m => if k - 6 ≤ m then fmaRne (u (k - 6) m) (u (k - 6) m) t else t) 0
            else 0) % 2 ^ 32)) ∧
    (gOk va = true → gOk vb = true →
      UnitWrites (.gres st d a b h) s st [(xCode r, BitVec.ofNat 1024 res)] fun u =>
        (∀ c, u.xAt c r = if r = 0 then 0 else BitVec.ofNat 64 res) ∧ XSameBut r (me s) u) ∧
    (gOk va = false → ∀ i, i = Instr.gadd st d a b ∨ i = Instr.gdamp st d a b ∨ i = Instr.gsolve st d a ∨ i = Instr.gres st d a b h →
      TakesSup i s fRESFIELD 0) ∧
    (gOk vb = false → TakesSup (.gres st d a b h) s fRESFIELD 0) ∧
    (gOk vb = false ∨ gDesc va ≠ gDesc vb → TakesSup (.gadd st d a b) s fRESFIELD 0 ∧ TakesSup (.gdamp st d a b) s fRESFIELD 0)

/-- R151, R152: GELIM eliminates the slots of its mask and writes the block of the others, their ids in order, and a predicate of all ones: with l the
Cholesky factor of the eliminated slots' matrix, and y and z the solutions of a column forward and back, a lane of the new block is the old one less,
one fused step for each eliminated slot, its Λ times the column's solution (the Schur complement), and the lanes of slots that it no longer has are
zero. A singular pivot writes zeros into both, and with T parks the context as SINGULAR with the slot. A malformed block and a mask bit at or beyond
the number of slots are RESFIELD. The model's choices in it: logs 5 and 77. -/
def Obligations.Elimination : Prop :=
  ∀ (s : State) (st : Stall) (d a : VReg) (m : BitVec 6) (tt : Bool) (p : PReg) (l y z : Nat → Nat → Nat),
    let va := vr s a
    let i (t : Bool) := Instr.gelim st d a m t p
    let kept := gSlots (gDim va) m false
    let gone := gSlots (gDim va) m true
    let ki (k : Nat) : Nat := kept.getD k 0
    let gi (k : Nat) : Nat := gone.getD k 0
    let lam (i j : Nat) : Nat := gLam va (gi i) (gi j)
    let column (c k : Nat) : Nat := if c < kept.length then gLam va (gi k) (ki c) else gEta va (gi k)
    let less (r c x : Nat) : Nat := (List.range gone.length).foldl (fun x k => fnmaRne (gLam va (ki r) (gi k)) (z c k) x) x
    let ids := packElems 4 (kept.map fun k => nbits (gDesc va) (4 * k + 4) 4)
    let both (t : Bool) (v q : VWord) (n : BitVec 32) := UnitWrites (i t) s st [(vCode d, v), (pCode p, q)] fun u =>
      (∀ c, u.vAt c d = v) ∧ (∀ c, u.pAt c p = if p = 0 then BitVec.allOnes 32 else n) ∧
      (∀ c r, u.xAt c r = (me s).xAt c r) ∧ (∀ c r, r ≠ d → u.vAt c r = (me s).vAt c r) ∧ ∀ c r, r ≠ p → u.pAt c r = (me s).pAt c r
    let ok := gOk va = true ∧ m.toNat < 2 ^ gDim va
    (ok → ∀ v, gElim va m = .inr v → both tt v allBits (BitVec.allOnes 32) ∧ KeepsTail v va (kept.length + 16 * ids)) ∧
    (ok → FactorOf lam gone.length gone.length l →
      (∀ c, c ≤ kept.length → ForwardOf l gone.length (column c) (y c) ∧ BackOf l gone.length (y c) (z c)) →
      ∃ v, both tt v allBits (BitVec.allOnes 32) ∧ KeepsTail v va (kept.length + 16 * ids) ∧
        (∀ r c, c ≤ r → r < 6 → elemOf 32 (lamLane r c) v.toNat =
          if r < kept.length then less r c (gLam va (ki r) (ki c)) % 2 ^ 32 else 0) ∧
        ∀ r, r < 6 → elemOf 32 (21 + r) v.toNat =
          if r < kept.length then less r kept.length (gEta va (ki r)) % 2 ^ 32 else 0) ∧
    (ok → ∀ j, SingularAt lam gone.length j l → gElim va m = .inl (gi j)) ∧
    (ok → m = 0 → ∃ v, gElim va m = .inr v ∧ ∀ k, k < 27 → elemOf 32 k v.toNat = (gRead va).getD k 0) ∧
    (ok → ∀ e, gElim va m = .inl e → e < gDim va ∧ m.getLsbD e = true ∧ both false 0 0 0 ∧
      ((myCore s).gaussq ≠ [] → ParksFor (i true) s .unit) ∧
      ((myCore s).gaussq = [] → ∃ t, exec (i true) s = .next (raiseUpcall t s.cur.core s.cur.ctx fSINGULAR (BitVec.ofNat 64 e) (me s).pc 4 none) ∧ MineOnly s t ∧
        (∀ c, (me t).vAt c d = 0) ∧ ∀ c, (me t).pAt c p = if p = 0 then BitVec.allOnes 32 else 0)) ∧
    (¬ok → TakesSup (i tt) s fRESFIELD 0)

/-- R131, R149: the oldest operation of a core's Gaussian unit completes, and its one result reaches its register; with nothing in the unit nothing
happens. R340: TMADV adds four deltas to the origin of tm[a], each modulo 2^16, and changes nothing else. -/
def Obligations.UnitsAndOrigins : Prop :=
  (∀ (s : State) (n c : Nat) (r : List Nat) (e : VarRes) (rest : List VarRes) (v : VWord) (d : VReg),
    let i := Instr.gaussComplete n
    ((coreAt s n).gaussq = [] → exec i s = .next s) ∧
    ((coreAt s n).gaussq = c :: r → (ctxAt s n c).var = e :: rest → e = ⟨vCode d, .value v, allBits, true⟩ →
      (∀ f ∈ rest.head?, ¬(0x30 ≤ f.code ∧ f.code < 0x38)) →
      (∀ y, ¬((ctxAt s n y).st = .parked ∧ (ctxAt s n y).cause = .unit)) →
      ∃ t, exec i s = .next t ∧ t.mem = s.mem ∧ t.full = s.full ∧ t.flight = s.flight ∧ (coreAt t n).gaussq = r ∧
        (∀ x y, ¬(x = n ∧ y = c) → ctxAt t x y = ctxAt s x y) ∧ (ctxAt t n c).var = rest ∧
        (∀ cy, (ctxAt t n c).vAt cy d = v) ∧ VSameBut d (ctxAt s n c) (ctxAt t n c))) ∧
  (∀ (s : State) (st : Stall) (a : TReg) (b : Reg),
    ∃ t, exec (.tmadv st a b) s = .next t ∧ MineOnly s t ∧ WentOn s t st 4 ∧
      me t = { me s with
        org := (me t).org
        pc := (me t).pc
        loops := (me t).loops
        stall := (me t).stall } ∧
      (∀ k, k < 4 → elemOf 16 k ((me t).rorg a).toNat =
        (elemOf 16 k ((me s).rorg a).toNat + elemOf 16 k (xr s b).toNat) % 65536) ∧
      (∀ r, r ≠ a → (me t).rorg r = (me s).rorg r) ∧ ∀ r, (me t).rtm r = (me s).rtm r)

/-! ## Engine commands -/

/-- R135, R136, R137, R144, R37, R134: a Mill command enters the inbox of its target's Mill, or of all four of the quad for a gang, at one instant, with
its operation, target, modifier, accumulator, tile (BASE resolved), origin and completion word, once the context's earlier loads have returned and its
earlier stores are settled; without room it parks; a bad completion word or a private address is RESFIELD. R271, R294, R274, R37, R52: COPY and COPYM,
and MCAST, GATHER and SCATTER that record nothing, enter the core's copy engine with their maps resolved, their origins, the list and the completion
word; MCAST once its list is read. A bad completion word, a private address or one that breaks R52, in MCAST's list too, is RESFIELD; a misaligned
list is MISALIGN; without room the context parks. The model's choices in it: logs 7 and 72. -/
def Obligations.MillAndCopyCommands : Prop :=
  (∀ (s : State) (st : Stall) (a : TReg) (b : Reg) (c : AccN) (g f : Bool) (t : BitVec 2) (w' : Word) (m : BitVec 256),
    let w := xr s b
    let n := s.cur.core
    let targets := millTargets n t.toNat g
    let word := w.getLsbD 3 = false ∧ cwAcc w = 0 ∧ isPrivAdr (cwAdr w) = false ∧ cwordAbs s w = some w' ∧ (g = true → t = 0)
    let tile := mapPrivate ((me s).rtm a) = false ∧ resolveMap s n ((me s).rtm a) ((me s).rorg a) = some m
    let base := baseAdr ((me s).rtm a)
    let refuses (i : Instr) (ps : List Word) :=
      (w.getLsbD 3 = true ∨ cwAcc w ≠ 0 ∨ (g = true ∧ t ≠ 0) ∨ ps.any isPrivAdr = true) → TakesSup i s fRESFIELD (privateOf ps)
    let fn (op : Nat) (x : Bool) := op + 16 * t.toNat + (if x then 64 else 0) + if g then 128 else 0
    let enters (i : Instr) (k acc : Nat) (map : BitVec 256) (org : BitVec 64) :=
      (mayRelease s = true → millRoom s targets = true → ∃ u cmd, exec i s = .next u ∧ u.mem = s.mem ∧ u.full = s.full ∧
        u.flight = s.flight ∧ OthersSame s u ∧ WentOn s u st 4 ∧
        me u = { me s with
          pc := (me u).pc
          loops := (me u).loops
          stall := (me u).stall } ∧
        cmd.fn.toNat = k ∧ cmd.c = acc ∧ cmd.map = map ∧ cmd.org = org ∧ cmd.core = n ∧ cmd.ctx = s.cur.ctx ∧
        cmd.t = w.getLsbD 0 ∧ cmd.cadr = cwAdr w' ∧ cmd.gang.isSome = g ∧
        (∀ x ∈ targets, (coreAt u x).mill = { (coreAt s x).mill with inbox := (coreAt s x).mill.inbox ++ [cmd] }) ∧
        ∀ x, x ∉ targets → (coreAt u x).mill = (coreAt s x).mill) ∧
      (mayRelease s = false → ParksFor i s .reply) ∧
      (mayRelease s = true → millRoom s targets = false → ParksFor i s .unit)
    (word → tile → enters (.mload st a b g t) (fn 0 false) 0 m ((me s).rorg a) ∧
      enters (.mstrm st a b c g f t) (fn 2 f) c.toNat m ((me s).rorg a) ∧
      enters (.mdrain st a b c g f t) (fn 3 f) c.toNat m ((me s).rorg a)) ∧
    (word → enters (.mflip st b g t) (fn 1 false) 0 0 0 ∧ enters (.mclr st b c g f t) (fn 4 f) c.toNat 0 0) ∧
    refuses (.mload st a b g t) [cwAdr w, base] ∧ refuses (.mstrm st a b c g f t) [cwAdr w, base] ∧
    refuses (.mdrain st a b c g f t) [cwAdr w, base] ∧ refuses (.mflip st b g t) [cwAdr w] ∧ refuses (.mclr st b c g f t) [cwAdr w]) ∧
  (∀ (s : State) (st : Stall) (a d : TReg) (b c : Reg) (g f : Bool) (t : BitVec 2) (w' l' : Word) (m md : BitVec 256) (bytes : List Byte),
    let w := xr s b
    let l := xr s c
    let n := s.cur.core
    let org (r : TReg) := (me s).rorg r
    let word := w.getLsbD 3 = false ∧ operandBad (cwAdr w) = false ∧ cwordOperand s w = some w'
    let from' := baseAdr ((me s).rtm a)
    let to' := baseAdr ((me s).rtm d)
    let source := mapOperand s n ((me s).rtm a) (org a) = some m
    let target := operandBad to' = false ∧ mapOperand s n ((me s).rtm d) (org d) = some md
    let refuses (i : Instr) (wrong : Prop) (ps : List Word) := (w.getLsbD 3 = true ∨ wrong) → TakesSup i s fRESFIELD (badOperand ps)
    let list := isPrivAdr l = false ∧ l.toNat % 16 = 0 ∧ mbzOk l = true ∧ absOperand s n l = some l'
    let enters (i : Instr) (fn : Nat) (dm : BitVec 256) (dorg : BitVec 64) (lst : Word) (kept : Option (List Byte)) :=
      (mayRelease s = true → copyRoom s n = true → ∃ u cmd, exec i s = .next u ∧ u.mem = s.mem ∧ u.full = s.full ∧
        u.flight = s.flight ∧ OthersSame s u ∧ WentOn s u st 4 ∧
        me u = { me s with
          pc := (me u).pc
          loops := (me u).loops
          stall := (me u).stall
          tapeAt := none
          paybuf := none } ∧
        (myCore u).copyq = (myCore s).copyq ++ [cmd] ∧ cmd.fn.toNat = fn ∧ cmd.ctx = s.cur.ctx ∧ cmd.cword = w' ∧ cmd.smap = m ∧
        cmd.sorg = org a ∧ cmd.dmap = dm ∧ cmd.dorg = dorg ∧ cmd.list = lst ∧ cmd.pos = none ∧ cmd.row = 0 ∧ cmd.done = 0 ∧
        cmd.supr = suprNow s) ∧
      (mayRelease s = false → ParksFor i s .reply) ∧
      (mayRelease s = true → copyRoom s n = false → exec i s = .next (setMe s { me s with
        st := .parked
        cause := .unit
        paybuf := kept }))
    let rowsOnly (i : Instr) := i = .gather st a b c false ∨ i = .scatter st a b c
    (word → cwAcc w = 0 → operandBad from' = false → source → target → enters (.copy st a b d) 0 md (org d) 0 (me s).paybuf) ∧
    (word → (g = true → t = 0) → operandBad from' = false → source → target →
      enters (.copym st a b d g f t) (1 + 16 * t.toNat + (if f then 64 else 0) + if g then 128 else 0) md (org d) 0 (me s).paybuf) ∧
    (word → cwAcc w = 0 → operandBad from' = false → source → list → ListOf s l bytes →
      ((mcastBases bytes).any operandBad = false → enters (.mcast st a b c false) 4 m (org a) l' (some bytes)) ∧
      ((mcastBases bytes).any operandBad = true → mayRelease s = true →
        let q := setMe s { me s with paybuf := none }
        exec (.mcast st a b c false) s = .next (raiseSup q n s.cur.ctx fRESFIELD (badOperand (mcastBases bytes)) (me s).pc))) ∧
    (word → cwAcc w = 0 → mbzOk from' = true → source → list →
      enters (.gather st a b c false) 2 m (org a) l' none ∧ enters (.scatter st a b c) 3 m (org a) l' none) ∧
    (∀ i, i = .mcast st a b c false ∧ operandBad from' = false ∨ rowsOnly i ∧ mbzOk from' = true →
      word → cwAcc w = 0 → isPrivAdr l = false →
        (l.toNat % 16 ≠ 0 → TakesSup i s fMISALIGN l) ∧ (l.toNat % 16 = 0 → mbzOk l = false → TakesSup i s fRESFIELD l)) ∧
    (let ps := [cwAdr w, from', to']
    refuses (.copy st a b d) (cwAcc w ≠ 0 ∨ ps.any operandBad = true) ps ∧
    refuses (.copym st a b d g f t) (g = true ∧ t ≠ 0 ∨ ps.any operandBad = true) ps) ∧
    refuses (.mcast st a b c false) (cwAcc w ≠ 0 ∨ operandBad (cwAdr w) = true ∨ isPrivAdr l = true ∨ operandBad from' = true)
      [cwAdr w, l, from'] ∧
    ∀ i, rowsOnly i → refuses i (cwAcc w ≠ 0 ∨ operandBad (cwAdr w) = true ∨ isPrivAdr l = true ∨ mbzOk from' = false)
      ([cwAdr w, l] ++ if mbzOk from' then [] else [from']))

/-- R270, R281, R284, R320, R37, R52: DISP, COMB, DRES and REPLAY that reserve nothing enter the core's dispatch engine: DISP and COMB with the header of
their table (N, FLAGS, LIST) as it is read at issue, DISP and DRES with their bound, REPLAY with its position and gradient offset. A misaligned table
is MISALIGN, and one whose address breaks R52 RESFIELD. Without room they park. The model's choices in it: logs 6, 7 and 72. -/
def Obligations.RouteCommands : Prop :=
  ∀ (s : State) (st : Stall) (a : TReg) (b c : Reg) (k : Bool) (z : BitVec 4) (w' l' k' : Word) (m : BitVec 256) (bytes : List Byte),
    let w := xr s b
    let l := xr s c
    let n := s.cur.core
    let h := ofBytes bytes
    let word := w.getLsbD 3 = false ∧ cwAcc w = 0 ∧ operandBad (cwAdr w) = false ∧ cwordOperand s w = some w'
    let source := operandBad (baseAdr ((me s).rtm a)) = false ∧ mapOperand s n ((me s).rtm a) ((me s).rorg a) = some m
    let table := isPrivAdr l = false ∧ l.toNat % 16 = 0 ∧ mbzOk l = true ∧ absOperand s n l = some l' ∧ PayloadOf s l 16 bytes
    let cursor := operandBad w = false ∧ w.toNat % 64 = 0 ∧ absOperand s n w = some k'
    let enters (i : Instr) (kind : DKind) (is : DispCmd → Prop) :=
      mayRelease s = true → dispRoom s n = true → ∃ u cmd, exec i s = .next u ∧ u.mem = s.mem ∧ u.full = s.full ∧
        u.flight = s.flight ∧ OthersSame s u ∧ WentOn s u st 4 ∧
        me u = { me s with
          pc := (me u).pc
          loops := (me u).loops
          stall := (me u).stall
          tapeAt := none
          paybuf := none } ∧
        (myCore u).dispq = (myCore s).dispq ++ [cmd] ∧ cmd.kind = kind ∧ cmd.ctx = s.cur.ctx ∧ cmd.map = m ∧
        cmd.org = (me s).rorg a ∧ cmd.pos = none ∧ cmd.next = 0 ∧ cmd.supr = suprNow s ∧ is cmd
    let header (x : DispCmd) := x.cword = w' ∧ x.table = l' ∧ x.n = h % 2 ^ 32 ∧ x.flags = h / 2 ^ 32 % 2 ^ 32 ∧
      x.list = BitVec.ofNat 64 (h / 2 ^ 64)
    (word → source → table → nbits h 32 1 = 0 → enters (.disp st a b c z) .disp fun x => header x ∧ x.bound = z.toNat) ∧
    (word → source → table → nbits h 33 1 = 0 → enters (.comb st a b c) .comb header) ∧
    (source → cursor → enters (.dres st a b z) .dres fun x => x.table = k' ∧ x.bound = z.toNat) ∧
    (word → source → c ≠ 31 → enters (.replay st a b c k) .replay fun x =>
      x.cword = w' ∧ x.table = l ∧ x.goff = xr s (c + 1) ∧ x.strict = k) ∧
    (∀ i, i = Instr.disp st a b c z ∧ nbits h 32 1 = 0 ∨ i = Instr.comb st a b c ∧ nbits h 33 1 = 0 → word → source → table →
      (mayRelease s = false → ParksFor i s .reply) ∧
      (mayRelease s = true → dispRoom s n = false → exec i s = .next (setMe s { me s with
        st := .parked
        cause := .unit
        paybuf := some bytes }))) ∧
    (∀ i, i = Instr.disp st a b c z ∨ i = Instr.comb st a b c → word → source → isPrivAdr l = false →
      (l.toNat % 16 ≠ 0 → TakesSup i s fMISALIGN l) ∧ (l.toNat % 16 = 0 → mbzOk l = false → TakesSup i s fRESFIELD l)) ∧
    (∀ i, (i = Instr.replay st a b c k ∧ word ∧ c ≠ 31) ∨ (i = Instr.dres st a b z ∧ cursor) → source →
      (mayRelease s = false → ParksFor i s .reply) ∧ (mayRelease s = true → dispRoom s n = false → ParksFor i s .unit))

/-- R188, R190, R284, R274, R294: a command that records reserves its entry on the tape of its job at the issuing die before it is queued: 32 bytes and 16
for each record, at the job's position; when the quota or the die's store has no room, TAPEFULL with the completion address. R187, R188, R192: DCUR
writes a cursor of 64 bytes and fills its granules: that of the command it stops, which stays to complete, or one with STATE 0; a completion word or
an address that R52 or R134 forbids is RESFIELD; TMARK writes the position of the job; TTRIM releases the entries of the job that end at or before
x[a], and raises RESFIELD beyond the position. The model's choices in it: log 7. -/
def Obligations.RecordingAndCursors : Prop :=
  (∀ (s : State) (st : Stall) (a : TReg) (b c : Reg) (z : BitVec 4) (w' l' : Word) (m : BitVec 256) (bytes dests : List Byte),
    let w := xr s b
    let l := xr s c
    let n := s.cur.core
    let d := dieOf n
    let part := partNum s n
    let job := (me s).job
    let tp := tapeOf s d part job
    let h := ofBytes bytes
    let records (i : Instr) (recs : Nat) (queue : State → Option Nat) :=
      let size := 32 + 16 * recs
      (tp.pos + size - tp.trim ≤ tapeLimit s d part job → tapeHeld s d + size ≤ 8388608 → ∃ u, exec i s = .next u ∧ u.mem = s.mem ∧
        OthersSame s u ∧ WentOn s u st 4 ∧ (tapeOf u d part job).pos = tp.pos + size ∧ (tapeOf u d part job).trim = tp.trim ∧
        (∃ e, (tapeOf u d part job).entries = tp.entries ++ [e] ∧ e.pos = tp.pos ∧ e.size = size ∧ e.role = 0 ∧ e.void = false ∧
          e.tid = (n, tp.pos % 2 ^ 40)) ∧ queue u = some tp.pos) ∧
      (tapeLimit s d part job < tp.pos + size - tp.trim ∨ 8388608 < tapeHeld s d + size →
        ∃ u, exec i s = .next (raiseUpcall u n s.cur.ctx fTAPEFULL (cwAdr w') (me s).pc 4 none) ∧ u.mem = s.mem ∧
          (myCore u).dispq = (myCore s).dispq ∧ (myCore u).copyq = (myCore s).copyq ∧ tapeOf u d part job = tp)
    w.getLsbD 3 = false → cwAcc w = 0 → operandBad (cwAdr w) = false → cwordOperand s w = some w' →
    operandBad (baseAdr ((me s).rtm a)) = false → mapOperand s n ((me s).rtm a) ((me s).rorg a) = some m →
    isPrivAdr l = false → l.toNat % 16 = 0 → mbzOk l = true → absOperand s n l = some l' → PayloadOf s l 16 bytes → (me s).tapeAt = none →
    mayRelease s = true → dispRoom s n = true → copyRoom s n = true →
      (nbits h 32 1 = 1 → records (.disp st a b c z) (h % 2 ^ 32) fun u => (myCore u).dispq.getLast?.bind fun x => x.pos) ∧
      (nbits h 33 1 = 1 → records (.comb st a b c) (h % 2 ^ 32) fun u => (myCore u).dispq.getLast?.bind fun x => x.pos) ∧
      records (.gather st a b c true) (h % 2 ^ 32) (fun u => (myCore u).copyq.getLast?.bind fun x => x.pos) ∧
      (ListOf s l dests → (mcastBases dests).any operandBad = false →
        records (.mcast st a b c true) (mapT1 ((me s).rtm a) * (ofBytes (dests.take 16) % 65536)) fun u =>
          (myCore u).copyq.getLast?.bind fun x => x.pos)) ∧
  (∀ (s : State) (st : Stall) (a b d : Reg) (k' : Word) (v : View) (home : Nat),
    let n := s.cur.core
    let adr := xr s a
    let x := adr.toNat
    let e := engOf n s.cur.ctx (partNum s n) (suprNow s) (releaseVec s)
    let word := xr s b
    let ps := [adr, cwAdr word]
    let good := word.getLsbD 3 = false ∧ cwAcc word = 0 ∧ ps.any operandBad = false
    let found := findCommand s e ((cwordAbs s word).getD word)
    let dcur := Instr.dcur st a b
    let tp := tapeOf s (dieOf n) (partNum s n) (me s).job
    (word.getLsbD 3 = true ∨ cwAcc word ≠ 0 ∨ ps.any operandBad = true → TakesSup dcur s fRESFIELD (badOperand ps)) ∧
    (good → x % 64 ≠ 0 → TakesSup dcur s fMISALIGN adr) ∧
    (good → x % 64 = 0 → absOperand s n adr = none → TakesSup dcur s fPROTECT adr) ∧
    (good → x % 64 = 0 → absOperand s n adr = some k' → mayRelease s = true → engView s e k' 64 true = .ok (v, home) →
      v.key % 16 = 0 → Memory.wf s.mem = true →
      (found = none → ∃ t, exec dcur s = .next t ∧ Stored s t v.key 64 (2 ^ 64 * word.toNat) ∧ OthersSame s t ∧ WentOn s t st 4 ∧
        (myCore t).dispq = (myCore s).dispq ∧ ∀ j, j < 4 → isFull t (v.key + 16 * j) = true) ∧
      ∀ i c, found = some (i, c) → ∃ t, exec dcur s = .next t ∧ Stored s t v.key 64 (ofBytes (dispCursor c)) ∧ OthersSame s t ∧
        WentOn s t st 4 ∧ (myCore t).dispq = (myCore s).dispq.set i { c with halt := true, cursor := some k' } ∧
        ∀ j, j < 4 → isFull t (v.key + 16 * j) = true) ∧
    (∃ t, exec (.tmark st d) s = .next t ∧ MineOnly s t ∧ WentOn s t st 4 ∧
      (s.cur.late = false → (∀ cy, (me t).xAt cy d = if d = 0 then 0 else BitVec.ofNat 64 tp.pos) ∧ XSameBut d (me s) (me t)) ∧
      (s.cur.late = true → (me t).x = (me s).x ∧ (me t).var = (me s).var ++ [⟨xCode d, .tmark, allBits, false⟩])) ∧
    (tp.pos < x → TakesSup (.ttrim st a) s fRESFIELD 0) ∧
    (x ≤ tp.pos → ∃ t, exec (.ttrim st a) s = .next t ∧ t.mem = s.mem ∧ t.full = s.full ∧ t.flight = s.flight ∧ OthersSame s t ∧
      WentOn s t st 4 ∧
      tapeOf t (dieOf n) (partNum s n) (me s).job = { tp with
        trim := (tapeOf t (dieOf n) (partNum s n) (me s).job).trim
        entries := tp.entries.filter fun y => decide (x < y.pos + y.size) } ∧
      ((∀ y ∈ tp.entries, x < y.pos + y.size) → (tapeOf t (dieOf n) (partNum s n) (me s).job).trim = tp.trim)))

/-! ## What engines do -/

/-- R142, R143, R144, R139: the Mill of a core executes the oldest command of its inbox, removes it and writes its completion; a gang command waits until
all four Mills have come to it; a halted Mill gives HALTED to every command but MCLR with R; MFLIP exchanges the planes; MCLR makes the accumulator +0
and valid and clears a halt; a command that fails halts the Mill. R148: the first command after an image of another version was restored fails with
code 0x08. The model's choices in it: logs 32 and 77. -/
def Obligations.MillExecutes : Prop :=
  ∀ (s : State) (n : Nat) (c : MillCmd) (rest : List MillCmd) (o : MillOut) (v : View),
    let m := (coreAt s n).mill
    let e := engOf c.core c.ctx c.part c.supr c.vec
    let i := Instr.millExecute n
    let op := c.fn.toNat % 16
    let share := millShare s e m c (rowOf n % 2) (colOf n % 2)
    let t := setCore o.s n { coreAt o.s n with mill := { o.mill with inbox := o.mill.inbox.drop 1 } }
    (m.inbox = [] ∨ engRuns s n = false → exec i s = .next s) ∧
    (m.inbox = c :: rest → c.gang.isSome = true → (∃ k ∈ quadCores n, k ≠ n ∧
      ∀ x, (coreAt s k).mill.inbox.head? = some x → x.gang ≠ c.gang) → exec i s = .next s) ∧
    (m.inbox = c :: rest → c.gang = none → engRuns s n = true →
      (share = .ok o → o.bad = none → MayComplete t e c.cadr v → ∃ u, exec i s = .next u ∧
        (coreAt u n).mill = { o.mill with inbox := o.mill.inbox.drop 1 } ∧
        Completed o.s u v.key o.status o.count (if o.status = stENGERR then o.code else 0)) ∧
      (m.alien = true → ¬(op = 4 ∧ c.fn.getLsbD 6 = true) → ∃ x, share = .ok x ∧ x.s = s ∧ x.status = stENGERR ∧ x.code = 8 ∧
        x.mill.halted = true ∧ x.mill.alien = false) ∧
      (m.alien = false → m.halted = true → ¬(op = 4 ∧ c.fn.getLsbD 6 = true) → share = .ok ⟨s, m, stHALTED, 0, 0, none⟩) ∧
      (m.alien = false → m.halted = false → op = 1 → share = .ok ⟨s, { m with
        active := m.shadow
        shadow := m.active }, stOK, 0, 0, none⟩) ∧
      (op = 4 → (m.halted = true ∨ m.alien = true → c.fn.getLsbD 6 = true) → ∃ acc bad, share = .ok ⟨s, { m with
        acc := acc
        bad := bad
        halted := false
        alien := false }, stOK, 0, 0, none⟩ ∧ bad = m.bad.filter (fun a => a != c.c % 4) ∧
        ∀ r x, r < 128 → x < 32 → accAt { m with acc := acc } (c.c % 4) r x = 0) ∧
      (share = .ok o → o.status = stENGERR ∨ o.status = stLOST → o.mill.halted = true) ∧
      (share = .ok o → o.mill.inbox = m.inbox) ∧ (share = .ok o → op = 0 ∨ op = 2 → o.s = s))

/-- R138, R139, R140, R93: what a single Mill's MLOAD, MSTRM and MDRAIN do with a tile of scalars in slices, whose row r lies at `key r`. MLOAD: element
(i, j) of the shadow plane is element i of the tile's row j, the columns beyond T1 are zero, and COUNT is the bytes read; of a tile in any format the
plane holds its elements and their headers. MSTRM: each element of the accumulator's rows below T1 takes block_add of the 32 products of its row and
its column, from +0 with OVW; with I8 on both sides that is their exact sum; every other element stays; a well-formed command with an invalid
accumulator or active plane reads no tile, changes nothing and completes INVALID, and only then. MDRAIN: element (r, j) of the target tile, here of
F32, is that of the accumulator, its granules are full and nothing else in memory changes; with CLR the accumulator is +0 afterwards; with an invalid
accumulator a well-formed command writes nothing and completes INVALID. The model's choices in it: logs 32 and 77. -/
def Obligations.MillComputes : Prop :=
  ∀ (s : State) (e : Eng) (m : Mill) (c : MillCmd) (o : MillOut) (qr qc fmt b : Nat) (key : Nat → Nat),
    let op := c.fn.toNat % 16
    let share := millShare s e m c qr qc
    let t0 := mapT0 c.map
    let t1 := mapT1 c.map
    let a := c.c % 4
    let flag := c.fn.getLsbD 6
    let elem (r i : Nat) := Memory.read s.mem (key r + b * i) b
    let others (m' : Mill) := ∀ a', a' < 4 → a' ≠ a → ∀ r j, r < 128 → j < 32 → accAt m' a' r j = accAt m a' r j
    m.alien = false → m.halted = false → c.gang = none → Memory.wf s.mem = true →
      (op = 0 → 1 ≤ t1 → t1 ≤ 32 → t0 = 32 → fmt ∈ [2, 3, 4, 5, 9] → TileAt s e c.map c.org b false fmt key →
        ∃ p, share = .ok ⟨s, { m with shadow := p }, stOK, t1 * (32 * b), 0, none⟩ ∧
          p.valid = true ∧ p.fmt = fmt ∧ p.geom = 0 ∧ p.k = 32 ∧ p.n = t1 ∧
          (∀ i j, i < 32 → j < t1 → planeCode p i j = elem j i) ∧ ∀ i j, i < 32 → t1 ≤ j → j < 32 → planeCode p i j = 0) ∧
      (op = 0 → share = .ok o → o.status = stOK → ∀ j, j < t1 → ∃ row, readTileRow s e c.map c.org j = .ok row ∧
        ∀ i x, row[i]? = some x → i < t0 → o.mill.shadow.fmt = x.fmt ∧ o.mill.shadow.geom = x.geom ∧
          planeCode o.mill.shadow i j = x.code % 65536 ∧
          ∀ y, x.geom ≠ 0 → row[i / blockElems x.fmt x.geom * blockElems x.fmt x.geom]? = some y →
            planeHead o.mill.shadow i j = y.head % 65536) ∧
      (op = 2 → 1 ≤ t1 → t1 ≤ 128 → t0 = 32 → m.active.k = 32 → m.active.valid = true → a ∉ m.bad →
        (narrowFmt fmt = true ∧ narrowFmt m.active.fmt = true ∨ halfFmt fmt = true ∧ halfFmt m.active.fmt = true) →
        TileAt s e c.map c.org b false fmt key → ∃ acc, share = .ok ⟨s, { m with acc := acc }, stOK, t1, 0, none⟩ ∧
          others { m with acc := acc } ∧ ∀ r j, r < 128 → j < 32 →
            let x := accAt { m with acc := acc } a r j
            (t1 ≤ r → x = accAt m a r j) ∧
            (r < t1 → x = blockAdd (if flag then 0 else accAt m a r j)
              ((List.range 32).map fun i => millProd ⟨fmt, 0, elem r i, 0⟩ m.active i j) (halfFmt fmt)) ∧
            (r < t1 → flag = true → fmt = 9 → m.active.fmt = 9 → m.active.geom = 0 → (∀ i, i < 32 → planeCode m.active i j < 256) → ∃ d,
              fmtF32.unpack x = .fin d ∧
              d.eq (mkDy ((List.range 32).foldl (fun z i => z + signed 8 (elem r i) * signed 8 (planeCode m.active i j)) 0) 0 false)
                = true)) ∧
      (op = 2 → 1 ≤ t1 → t1 ≤ 128 → t0 = 32 → a ∈ m.bad ∨ m.active.valid = false → narrowFmt fmt = true ∨ halfFmt fmt = true →
        TileAt s e c.map c.org b false fmt key → share = .ok ⟨s, m, stINVALID, 0, 0, none⟩) ∧
      (op = 2 → share = .ok o → o.status = stINVALID → o.mill = m ∧ o.count = 0 ∧ (a ∈ m.bad ∨ m.active.valid = false)) ∧
      (op = 3 → 1 ≤ t1 → t1 ≤ 128 → t0 ≤ 32 → a ∉ m.bad → TileAt s e c.map c.org 4 true 1 key →
        (∀ r r', r < r' → r' < t1 → key r + 4 * t0 ≤ key r' ∨ key r' + 4 * t0 ≤ key r) →
        ∃ u acc, share = .ok ⟨u, { m with acc := acc }, stOK, t1, 0, none⟩ ∧ others { m with acc := acc } ∧
          (∀ r j, r < 128 → j < 32 → accAt { m with acc := acc } a r j = if flag then 0 else accAt m a r j) ∧
          (∀ r j, r < t1 → j < t0 → isFull u (key r + 4 * j) = true ∧ (let y := Memory.read u.mem (key r + 4 * j) 4
            if (fmtF32.unpack (accAt m a r j)).isNan then (fmtF32.unpack y).isNan = true else y = accAt m a r j)) ∧
          ∀ x, (∀ r, r < t1 → x < key r ∨ key r + 4 * t0 ≤ x) → Memory.get u.mem x = Memory.get s.mem x) ∧
      (op = 3 → 1 ≤ t1 → t1 ≤ 128 → t0 ≤ 32 → a ∈ m.bad → TileAt s e c.map c.org 4 true 1 key →
        share = .ok ⟨s, m, stINVALID, 0, 0, none⟩) ∧
      (op = 3 → share = .ok o → o.status = stINVALID → o.s = s ∧ o.mill = m ∧ a ∈ m.bad)

/-- R271, R272, R273, R293, R296, R147: a command of the copy engine takes its rows one after the other: a row marked SKIP moves nothing; a moved row adds
its bytes to COUNT, and where source and destination are rows of RAW in slices the destination's bytes are the source's, its granules are full and
nothing else in memory changes; R156, R158: where the destination lies on another die its bytes go there as one packet on BULK with the command's
release, the command waits for that die's answer, and then counts the bytes; when every row is moved the command is over and its completion says OK
with COUNT, or, of COPYM, an MSTRM of the destination's tile enters its Mills' inboxes with the completion word and waits for room there; a command
refused before any data moves completes with ENGERR, COUNT 0 and its code. R156, R158, R83, R131: the data of a row reach their home: each piece's
bits are written where its page or region holds them, its granules are full, the home notes what the command's issue released, and it answers on RPLY
with the bytes written and what refused the rest; data that must wait for what that release covers stay. The answer reaches the command, whose row
then waits for that die no more. The model's choices in it: logs 8 and 32. -/
def Obligations.CopyExecutes : Prop :=
  (∀ (s : State) (n k : Nat) (c : CopyCmd) (v : View) (x : CopyRow) (nd b code sa da ks kd far : Nat) (t : State) (m : OnWay),
    let q := (coreAt s n).copyq
    let e := engOf n c.ctx c.part c.supr c.vec
    let i := Instr.copyEngineExecute n k
    let cadr := cwAdr c.cword
    let goes (t : State) (d : CopyCmd) := ∃ u, exec i s = .next u ∧ u.mem = t.mem ∧ u.full = t.full ∧
      (coreAt u n).copyq = (coreAt t n).copyq.set k d
    let mills := millTargets n (nbits c.fn.toNat 4 2) (c.fn.getLsbD 7)
    (q[k]? = none ∨ engRuns s n = false → exec i s = .next s) ∧
    (q[k]? = some c → engRuns s n = true →
      (c.started = true → mapT1 c.smap ≤ c.row → copyOp c ≠ 1 → c.gone = [] → MayComplete s e cadr v →
        ∃ u, exec i s = .next u ∧ Completed s u v.key stOK c.done (c.pos.getD 0) ∧ (coreAt u n).copyq = q.eraseIdx k) ∧
      (c.started = true → mapT1 c.smap ≤ c.row → copyOp c = 1 → c.gone = [] →
        (millRoom s mills = false → exec i s = .next s) ∧
        (millRoom s mills = true → ∃ u d, exec i s = .next u ∧ u.mem = s.mem ∧ u.full = s.full ∧ u.flight = s.flight ∧
          (coreAt u n).copyq = q.eraseIdx k ∧ d.fn = 2 ||| (c.fn &&& 0xF0) ∧ d.c = cwAcc c.cword ∧ d.core = n ∧ d.ctx = c.ctx ∧
          d.t = cwT c.cword ∧ d.map = c.dmap ∧ d.org = c.dorg ∧ d.cadr = cadr ∧ d.gang.isSome = c.fn.getLsbD 7 ∧
          (∀ x ∈ mills, (coreAt u x).mill = { (coreAt s x).mill with inbox := (coreAt s x).mill.inbox ++ [d] }) ∧
          ∀ x, x ∉ mills → (coreAt u x).mill = (coreAt s x).mill)) ∧
      (c.started = true → c.row < mapT1 c.smap → copyDests s e c = .ok nd → copyRow s e c c.row c.didx = .ok x →
        let src := rowSource s e x.src
        let t0 := mapT0 c.smap
        let raw := x.skip = false ∧ c.move = none ∧ Memory.wf s.mem = true ∧ 1 ≤ b ∧ 1 ≤ t0 ∧ x.src = 8 * sa ∧ x.sbits = 8 * b ∧ x.dst = 8 * da ∧
          x.dbits = 8 * b ∧ RowAt s e sa b t0 false 0 ks ∧ RowAt s e da b t0 true 0 kd
        (x.skip = true → c.move = none → goes s (copyNext c nd)) ∧
        (x.skip = false → c.move = none → c.pos = none → moveRow s e c x = (t, m) → m.left = [] → m.bad = none →
          goes t (copyNext { c with done := c.done + m.bytes, move := none } nd)) ∧
        (raw → c.pos = none → rowStays s e src (8 * da) (8 * b) t0 = true → ∃ u, exec i s = .next u ∧ Moves s u ks kd (b * t0) ∧ u.flight = s.flight ∧
          (coreAt u n).copyq = q.set k (copyNext { c with done := c.done + b * t0, move := none } nd)) ∧
        (raw → far ≠ dieOf src → unreachable s src far = false → (∀ j, j < b * t0 → dieOf (pieceHome s e src (BitVec.ofNat 64 (da + j))) = far) →
          ∃ u p d w, exec i s = .next u ∧ u.mem = s.mem ∧ u.full = s.full ∧ u.flight = s.flight ++ [p] ∧ p.net = .bulk ∧ p.src = src ∧
            dieOf p.dst = far ∧ p.body = .data d ∧ d.core = n ∧ d.ctx = c.ctx ∧ d.disp = false ∧ d.cmd = c.num ∧ d.part = c.part ∧ d.vec = c.vec ∧
            (∀ j, j < b * t0 → ∃ y ∈ d.pieces, ∃ o, y.adr = BitVec.ofNat 64 (da + o) ∧ o ≤ j ∧ j < o + y.len ∧
              nbits y.data (8 * (j - o)) 8 = Memory.read s.mem (ks + j) 1) ∧
            (coreAt u n).copyq = q.set k { c with move := some w } ∧ w.left = [far] ∧ w.tag = d.tag ∧ w.bytes = 0 ∧ w.bad = none) ∧
        (c.move = some m → m.left ≠ [] → exec i s = .next s) ∧
        (c.move = some m → m.left = [] → m.bad = none → c.pos = none →
          goes s (copyNext { c with done := c.done + m.bytes, move := none } nd))) ∧
      (c.started = false → copyCheck s e c = .ok 0 → copyDests s e c = .ok nd → c.pos = none → goes s { c with started := true }) ∧
      (c.started = false → copyCheck s e c = .ok code → code ≠ 0 → copyDests s e c = .ok nd → c.pos = none → c.done = 0 →
        cwT c.cword = false → MayComplete s e cadr v →
        ∃ u, exec i s = .next u ∧ Completed s u v.key stENGERR 0 code ∧ (coreAt u n).copyq = q.eraseIdx k))) ∧
  ((∀ (s t : State) (k b home : Nat) (q : Packet) (d : DataPart) (y : DataPiece) (v : View) (bad : Option EFail),
    let i := Instr.remoteAccessArrival k
    let s1 := noteWork (removeAt s k) d.home d.job
    let e := engOf d.core d.ctx d.part d.supr d.vec
    let answers (u : State) (b : Nat) (bad : Option EFail) := ∃ p r, u.flight = s.flight.eraseIdx k ++ [p] ∧ p.body = .dataDone r ∧ p.net = .rply ∧
      p.dst = d.core ∧ r.core = d.core ∧ r.disp = d.disp ∧ r.cmd = d.cmd ∧ r.tag = d.tag ∧ r.die = dieOf d.home ∧ r.bytes = b ∧ r.bad = bad
    takeAt s k = .yes q → q.body = .data d → q.near = true →
      (stale s q = true → exec i s = .next (removeAt s k)) ∧
      (stale s q = false → dieOf d.home = dieOf d.core ∨ unreachable s d.home (dieOf d.core) = false → Memory.wf s.mem = true →
        (d.pieces = [y] → engView s1 e y.adr y.len true = .ok (v, home) → v.hdrs = [] → y.mask = 2 ^ (8 * y.len) - 1 → y.data < 2 ^ (8 * y.len) →
          ∃ u, exec i s = .next u ∧ Stored s u v.key y.len y.data ∧ (1 ≤ y.len → isFull u v.key = true) ∧ answers u y.len none) ∧
        (putPieces s1 e q.src q.stamp 0 d.pieces = (t, b, bad) →
          (bad = some .wait → exec i s = .next s) ∧
          (bad ≠ some .wait → ∃ u, exec i s = .next u ∧ u.mem = t.mem ∧ u.full = t.full ∧ answers u b bad)))) ∧
  ∀ (s : State) (k : Nat) (q : Packet) (r : DataDone) (c : CopyCmd) (d : DispCmd) (m : OnWay) (a : SlotAt),
    let i := Instr.storeAcknowledgement k
    let left := m.left.filter fun x => x != r.die
    takeAt s k = .yes q → q.body = .dataDone r → q.near = true → stale s q = false → m.tag = r.tag → r.die ∈ m.left →
      ∃ u w, exec i s = .next u ∧ u.mem = s.mem ∧ u.full = s.full ∧ u.flight = s.flight.eraseIdx k ∧
        w.tag = m.tag ∧ w.left = left ∧ w.bytes = m.bytes + r.bytes ∧ (m.bad = none → w.bad = r.bad) ∧ (∀ x, m.bad = some x → w.bad = some x) ∧
        (r.disp = false → (coreAt s r.core).copyq = [c] → c.num = r.cmd → c.move = some m →
          (coreAt u r.core).copyq = [{ c with move := some w }]) ∧
        (r.disp = true → (coreAt s r.core).dispq = [d] → d.num = r.cmd → d.move = some (m, a) →
          (coreAt u r.core).dispq = [{ d with move := some (w, a) }]))

/-- R185, R187, R196, R284: a command of the dispatch engine handles its records in order: one with V = 0 is passed over; when every record is handled and
every row written its completion says OK, DEFERRED or LOST with the count; a command that DCUR has stopped completes HALTED when what it has sent has
been dealt with; one that a refused access has stopped completes ENGERR with what was done, and the cursor of such a command that DCUR has stopped too
gets STATE 0 (log 78); R208: while a stop of its partition is requested only a REPLAY goes on. R186, R216: a record of a COMB whose contribution was
lost on its way is listed as lost, and the cursor of a stopped command is written anew (log 78). R182, R183: a valid record of a DISP whose expert has
no waiting request: with a slot granted, the row of its token, here RAW in slices, stands in the slot, the slot's STATE is 2, NOTE has 1 added where
the expert has one (here of a counter that is not armed), the command counts the record and the row's bytes, and nothing else in memory has changed
since the grant; R156: where the slot lies on another die than the row, the row goes there as data on BULK, and the same follows when that die has
answered; with none, the record's request waits at the expert's home and the command stays at it. R183, R184, R185: the oldest request of a home is
granted when a slot is free, and waits when none is: a slot that the same source and token hold already is granted again, its STATE 1 and every other
byte as it was; else the lowest free slot takes TOKEN, SRC, GATE, RIDX and STATE 1. A record whose bound has run out while no request can be granted
is listed as deferred, its request is withdrawn and the next record follows. The model's choices in it: logs 32, 54 and 78. -/
def Obligations.DispatchAndGrants : Prop :=
  (∀ (s : State) (n k : Nat) (c : DispCmd) (r : RouteRec) (v : View),
    let q := (coreAt s n).dispq
    let e := engOf n c.ctx c.part c.supr c.vec
    let i := Instr.dispatchEngineExecute n k
    let ends (status : Nat) := ∃ u, exec i s = .next u ∧ Completed s u v.key status c.done (c.pos.getD 0) ∧
      (coreAt u n).dispq = q.eraseIdx k
    (q[k]? = none → exec i s = .next s) ∧ (q[k]? = some c → dispRuns s n c = false → exec i s = .next s) ∧
    (∀ p, partOf s n = some p → isSupCore n = false → 1 ≤ stopState s (pkgOf n) p → q[k]? = some c → c.kind ≠ .replay → exec i s = .next s) ∧
    (q[k]? = some c → dispRuns s n c = true → ∀ j l, c.late = j :: l → c.pos = none → Memory.wf s.mem = true →
      let d := { c with
        late := l
        nlist := c.nlist + 1
        lost := c.lost + 1 }
      (∀ w home, engView s e (c.list + BitVec.ofNat 64 (4 * c.nlist)) 4 true = .ok (w, home) → c.cursor = none →
        ∃ u, exec i s = .next u ∧ Stored s u w.key 4 (j + 2 ^ 31) ∧ (coreAt u n).dispq = q.set k d) ∧
      ∀ t adr w home, listAdd s e { c with late := l } j true = .ok (t, d) → c.cursor = some adr → engView t e adr 64 true = .ok (w, home) →
        Memory.wf t.mem = true → c.bad = none →
        ∃ u, exec i s = .next u ∧ Stored t u w.key 64 (ofBytes (dispCursor d)) ∧ (coreAt u n).dispq = q.set k d) ∧
    (q[k]? = some c → dispRuns s n c = true → c.late = [] → c.move = none → ∀ code, c.bad = some (code, 0, 0) → c.pos = none → c.strict = false →
      cwT c.cword = false → (c.rows ≠ [] → exec i s = .next s) ∧ (c.rows = [] → ∀ w,
        let spec := if c.kind = .replay then code + 2 ^ 32 * c.lost else code
        let fails (t : State) := ∃ u, exec i s = .next u ∧ Completed t u w.key stENGERR c.done spec ∧ (coreAt u n).dispq = q.eraseIdx k
        (c.cursor = none → MayComplete s e (cwAdr c.cword) w → fails s) ∧
        (∀ adr y home t, c.cursor = some adr → engView s e adr 64 true = .ok (y, home) → Memory.wf s.mem = true → t = cursorAgain s e c →
          Stored s t y.key 64 (2 ^ 64 * c.cword.toNat) ∧ (MayComplete t e (cwAdr c.cword) w → fails t)))) ∧
    (q[k]? = some c → dispRuns s n c = true → c.late = [] → c.move = none → c.bad = none →
      (c.halt = true → c.rows = [] → MayComplete s e (cwAdr c.cword) v → ends stHALTED) ∧
      (c.halt = true → c.rows ≠ [] → exec i s = .next s) ∧
      (c.halt = false → c.started = true → c.n ≤ c.next → c.rows ≠ [] → exec i s = .next s) ∧
      (c.halt = false → c.started = true → c.n ≤ c.next → c.rows = [] → c.kind ≠ .replay →
        MayComplete s e (cwAdr c.cword) v → ends (if c.lost ≠ 0 then stLOST else if c.deferred ≠ 0 then stDEFERRED else stOK)) ∧
      (c.halt = false → c.started = true → c.next < c.n → c.kind = .disp → readRec s e c.table c.next = .ok r →
        r.valid = false → ∃ u, exec i s = .next u ∧ u.mem = s.mem ∧ u.full = s.full ∧
          (coreAt u n).dispq = q.set k { c with next := c.next + 1 }))) ∧
  (∀ (s t : State) (n k : Nat) (c : DispCmd) (r : RouteRec) (x : Expert) (key slot b ks kd : Nat),
    let q := (coreAt s n).dispq
    let e := engOf n c.ctx c.part c.supr c.vec
    let i := Instr.dispatchEngineExecute n k
    let s1 := noteWork s x.core c.job
    let grant := grantSlot s1 key x.nslot r.token n r.gate c.next
    let t0 := mapT0 c.map
    let note := sliceKey x.core (bitsOf x.note 0 23)
    let apart (a n b m : Nat) := a + n ≤ b ∨ b + m ≤ a
    (q[k]? = some c → engRuns s n = true → c.late = [] → c.kind = .disp → c.pos = none → ∀ m a, c.move = some (m, a) →
      (m.left ≠ [] → exec i s = .next s) ∧
      (m.left = [] → m.bad = none → c.cursor = none → a.note = 0 → Memory.wf s.mem = true → ∃ u, exec i s = .next u ∧
        Stored s u (a.key + 16 * a.slot + 7) 1 2 ∧ u.flight = s.flight ∧ (coreAt u n).dispq = q.set k { c with
          move := none
          next := c.next + 1
          done := c.done + 1
          bytes := c.bytes + a.rb
          moved := true })) ∧
    (q[k]? = some c → engRuns s n = true → c.late = [] → c.move = none → c.halt = false → c.started = true → c.bad = none → c.next < c.n → c.kind = .disp →
    readRec s e c.table c.next = .ok r → r.valid = true → readExpert s e r.exp = .ok x → x.good = true → (coreAt s x.core).grants = [] →
    slotTable s1 e x = .ok key →
      (grant = none → ∃ u, exec i s = .next u ∧ u.mem = s.mem ∧ u.full = s.full ∧ (coreAt u n).dispq = q ∧
        (coreAt u x.core).grants = [⟨n, c.num, r.exp, r.token, BitVec.ofNat 32 r.gate, c.next, c.job⟩]) ∧
      (grant = some (slot, t) → slot < x.nslot → c.pos = none → Memory.wf t.mem = true → 1 ≤ b → eszBits (mapEsz c.map) = 8 * b →
        RowAt t e (rowBit c.map c.org r.token / 8) b t0 false 0 ks → RowAt t e (slotAdr x.inb x slot).toNat b t0 true 0 kd →
        apart kd (b * t0) key (16 * x.nslot) →
        (x.note ≠ 0 → apart note 16 key (16 * x.nslot) ∧ apart note 16 kd (b * t0) ∧ Memory.read t.mem (note + 12) 1 < 128) →
        rowStays t e (rowSource t e (rowBit c.map c.org r.token)) (8 * (slotAdr x.inb x slot).toNat) (8 * b) t0 = true → ∃ u, exec i s = .next u ∧
          (∀ j, j < b * t0 → Memory.get u.mem (kd + j) = Memory.get t.mem (ks + j) ∧ isFull u (kd + j) = true) ∧
          Memory.read u.mem (key + 16 * slot + 7) 1 = 2 ∧
          (x.note ≠ 0 → Memory.read u.mem note 8 = (Memory.read t.mem note 8 + 1) % 2 ^ 64) ∧
          (∀ a, (a < kd ∨ kd + b * t0 ≤ a) → a ≠ key + 16 * slot + 7 → (x.note = 0 ∨ a < note ∨ note + 8 ≤ a) →
            Memory.get u.mem a = Memory.get t.mem a) ∧
          (coreAt u n).dispq = q.set k { c with
            next := c.next + 1
            done := c.done + 1
            bytes := c.bytes + x.rb
            moved := true }) ∧
      (grant = some (slot, t) → ∀ (els : List Elem) (u : State) (w : OnWay), readTileRow t e c.map c.org r.token = .ok els →
        moveOut t e ⟨n, c.ctx, true, c.num, c.job, rowSource t e (rowBit c.map c.org r.token)⟩ (8 * (slotAdr x.inb x slot).toNat)
          (eszBits (mapEsz c.map)) t0 (encodeElems els) = (u, w) → w.left ≠ [] → ∃ u', exec i s = .next u' ∧ u'.mem = u.mem ∧ u'.flight = u.flight ∧
          (coreAt u' n).dispq = (coreAt u n).dispq.set k { c with move := some (w, ⟨x.core, x.note, key, slot, slotAdr x.inb x slot, x.rb⟩) }))) ∧
  (∀ (s : State) (n k : Nat) (g : Grant) (rest : List Grant) (c d : DispCmd) (x : Expert) (key slot : Nat) (t : State),
    let e := engOf g.core c.ctx c.part c.supr c.vec
    let f := engOf n d.ctx d.part d.supr d.vec
    let grant := grantSlot s key x.nslot g.token g.core g.gate.toNat g.ridx
    let at' (j : Nat) := key + 16 * j
    let state (j : Nat) := Memory.read s.mem (at' j + 7) 1
    let held (j : Nat) := Memory.read s.mem (at' j) 4 = g.token ∧ Memory.read s.mem (at' j + 4) 3 = g.core ∧ (state j = 1 ∨ state j = 2)
    let waiting := ∃ y ∈ s.cores, ∃ h ∈ y.2.grants, h.core = n ∧ h.cmd = d.num
    ((coreAt s n).grants = [] → exec (.grantServed n) s = .next s) ∧
    ((coreAt s n).grants = g :: rest → (coreAt s g.core).dispq.find? (fun y => y.num == g.cmd) = some c →
      readExpert s e g.desc = .ok x → slotTable s e x = .ok key →
      (grant = some (slot, t) → ∃ u, exec (.grantServed n) s = .next u ∧ u.mem = t.mem ∧ u.full = t.full ∧
        (coreAt u n).grants = (coreAt t n).grants.drop 1) ∧
      (grant = none → rest = [] → exec (.grantServed n) s = .next s)) ∧
    (Memory.wf s.mem = true → g.token < 2 ^ 32 → g.core < 2 ^ 24 → g.ridx < 2 ^ 32 →
      (grant = none ↔ ∀ j, j < x.nslot → ¬held j ∧ state j ≠ 0) ∧
      (grant = some (slot, t) → slot < x.nslot ∧ t.full = s.full ∧ Memory.read t.mem (at' slot + 7) 1 = 1 ∧
        ((∃ j, j < x.nslot ∧ held j) → held slot ∧ (∀ j, j < slot → ¬held j) ∧
          ∀ a, a ≠ at' slot + 7 → Memory.get t.mem a = Memory.get s.mem a) ∧
        ((∀ j, j < x.nslot → ¬held j) → state slot = 0 ∧ (∀ j, j < slot → state j ≠ 0) ∧
          Memory.read t.mem (at' slot) 4 = g.token ∧ Memory.read t.mem (at' slot + 4) 3 = g.core ∧
          Memory.read t.mem (at' slot + 8) 4 = g.gate.toNat ∧ Memory.read t.mem (at' slot + 12) 4 = g.ridx ∧
          ∀ a, a < at' slot ∨ at' slot + 16 ≤ a → Memory.get t.mem a = Memory.get s.mem a))) ∧
    ((coreAt s n).dispq[k]? = some d → d.bound < 15 → waiting → (∀ y ∈ s.cores, ∀ h ∈ y.2.grants, grantNow s h = none) →
      d.pos = none → ∀ w home, engView s f (d.list + BitVec.ofNat 64 (4 * d.nlist)) 4 true = .ok (w, home) → Memory.wf s.mem = true →
      ∃ u, exec (.grantBoundExpiry n k) s = .next u ∧ Stored s u w.key 4 d.next ∧
        (coreAt u n).dispq = (coreAt s n).dispq.set k { d with
          nlist := d.nlist + 1
          deferred := d.deferred + 1
          next := d.next + 1 } ∧
        ∀ y ∈ u.cores, ∀ h ∈ y.2.grants, ¬(h.core = n ∧ h.cmd = d.num)) ∧
    ((coreAt s n).dispq[k]? = some d → 15 ≤ d.bound ∨ ¬waiting → exec (.grantBoundExpiry n k) s = .next s))

/-- R186, R193, R194, R195: the first record of a COMB or a REPLAY to name a row sends one contribution for each record of that row that is served, from
the core that holds its value, as data of the command to the row's home, with what its issue released, where the row's own value takes part for REPLAY
and not for COMB; a later record of the row, one with V = 0 and a DEFERRED one are passed over. A COMB's contribution is GATE × the expert's result in
the slot of the record's token and source with STATE 2, rounded to F32; with no such slot the record is listed as deferred. A REPLAY's is the issuer's
row, as it is (kind 1) or by the recorded gate (kind 3), or the far gradient; a record whose far end does not serve it is lost. Not said here: a row
of a COMB with several records of which some are deferred. R194, R157: a contribution whose turn has come leaves the mesh of its die; the first to a
row takes accumulators for it at its home while 32 hold them and no earlier row waits, and one that finds none waits there; the row's own value for
REPLAY, zeros for COMB, are what the first contribution with values is added to; each is added to the accumulator of its row; while more are expected
the row keeps its value, and with the last one each element of the row is the exact sum rounded once. R185, R196: a row whose own value cannot be
read, or whose write is refused, counts none of its records as done and stops its command; one that is only to wait does so. The model's choices in
it: logs 32, 49, 50, 53 and 57. -/
def Obligations.RowsSum : Prop :=
  (∀ (s : State) (n k home : Nat) (c : DispCmd) (bf16 : Bool) (rs : List RouteRec) (row : Word) (src : Nat → Nat) (val : Nat → List ExAcc),
    let q := (coreAt s n).dispq
    let e := engOf n c.ctx c.part c.supr c.vec
    let i := Instr.dispatchEngineExecute n k
    let comb := c.kind == .comb
    let t0 := mapT0 c.map
    let passes := ∃ u, exec i s = .next u ∧ u.mem = s.mem ∧ u.full = s.full ∧ u.flight = s.flight ∧
      (coreAt u n).dispq = q.set k { c with next := c.next + 1 }
    let sends (mine : List Nat) (rerouted : Nat) := ∃ (u : State) (ps : List Packet), exec i s = .next u ∧ u.mem = s.mem ∧ u.full = s.full ∧ u.flight = s.flight ++ ps ∧
      ps.length = mine.length ∧
      (∀ (p : Packet) (m j : Nat), ps[m]? = some p → mine[m]? = some j → p.src = src j ∧ p.dst = home ∧ p.net = .bulk ∧ ∃ part, p.body = .row part ∧
        part.core = n ∧ part.ctx = c.ctx ∧ part.cmd = c.num ∧ part.row = row ∧ part.home = home ∧ part.idx = j ∧
        part.expect = mine.length ∧ part.base = !comb ∧ part.bf16 = bf16 ∧ part.n = t0 ∧ part.vals = val j ∧ part.live = true ∧
        part.vec = c.vec) ∧
      (coreAt u n).dispq = q.set k { c with
        next := c.next + 1
        done := c.done + mine.length
        rerouted := c.rerouted + rerouted
        rows := (row, mine) :: c.rows
        moved := true }
    let one (d : Nat) : TapeRec := c.recs.getD d ⟨0, 0, 0, 0, 0, 0, 0, 0, 0⟩
    let read (d : Nat) : RouteRec := rs.getD d ⟨0, false, true, 0, 0⟩
    q[k]? = some c → dispRuns s n c = true → c.late = [] → c.move = none → c.halt = false → c.started = true → c.bad = none → c.next < c.n →
    c.pos = none → Memory.wf s.mem = true →
      (comb = true → tableRows s e c = .ok rs → c.next < rs.length →
        let r := read c.next
        let mine := (List.range rs.length).filter fun j => (read j).valid && (read j).token == r.token
        let earlier := ∃ j, j < c.next ∧ j ∈ mine
        (r.valid = false ∨ earlier → passes) ∧
        (r.valid = true → ¬earlier → row = BitVec.ofNat 64 (rowBit c.map c.org r.token / 8) → rowHome s e row = .ok (home, bf16) →
          ((∀ j ∈ mine, ∃ slot adr, combRecord s e c (read j) = .ok (.live (src j) (val j) slot adr)) → sends mine 0) ∧
          (mine = [c.next] → combRecord s e c r = .ok .none → ∀ v h,
            engView s e (c.list + BitVec.ofNat 64 (4 * c.nlist)) 4 true = .ok (v, h) → ∃ u, exec i s = .next u ∧
              Stored s u v.key 4 c.next ∧ u.flight = s.flight ∧ (coreAt u n).dispq = q.set k { c with
                next := c.next + 1
                nlist := c.nlist + 1
                deferred := c.deferred + 1 }))) ∧
      (∀ r x v h, readExpert s e r.exp = .ok x → x.good = true → engView s e x.stab (16 * x.nslot) false = .ok (v, h) →
        let holds (j : Nat) := Memory.read s.mem (v.key + 16 * j) 4 = r.token ∧ Memory.read s.mem (v.key + 16 * j + 4) 3 = n ∧
          Memory.read s.mem (v.key + 16 * j + 7) 1 = 2
        ((∀ j, j < x.nslot → ¬holds j) → combRecord s e c r = .ok .none) ∧
        ∀ (j : Nat) (els : List Elem), j < x.nslot → holds j → (∀ i, i < j → ¬holds i) → readFarRow s e (slotAdr x.outb x j) t0 = .ok els →
          ∃ vals, combRecord s e c r = .ok (.live x.core vals j (slotAdr x.outb x j)) ∧ vals.length = els.length ∧
            ∀ (m : Nat) (y : Elem), els[m]? = some y → vals[m]? = some (exAdd exZero (fmtF32.unpack (fpMul fmtF32 0 r.gate (f32Of y.val)).1))) ∧
      (c.kind = .replay → c.next < c.recs.length →
        let r := one c.next
        let mine := (List.range c.recs.length).filter fun j => (one j).flags != recDEFERRED && replayRow c (one j) == replayRow c r
        let earlier := ∃ j, j < c.next ∧ j ∈ mine
        (r.flags = recDEFERRED ∨ earlier → passes) ∧
        (r.flags ≠ recDEFERRED → ¬earlier → row = replayRow c r → rowHome s e row = .ok (home, bf16) →
          ((∀ j ∈ mine, ∃ slot adr, replayRecord s e c (one j) = .ok (.live (src j) (val j) slot adr)) →
            sends mine (mine.filter fun j => (one j).gen != genNow s n && nbits (one j).path 2 1 == 0).length) ∧
          (mine = [c.next] → farServes s e c r = false → ∃ u, exec i s = .next u ∧ u.mem = s.mem ∧ u.flight = s.flight ∧
            (coreAt u n).dispq = q.set k { c with
              next := c.next + 1
              lost := c.lost + 1 }))) ∧
      (∀ (r : TapeRec) (els : List Elem), farServes s e c r = true →
        let own := readTileRow s e c.map c.org r.row = .ok els
        let at' := rowSource s e (rowBit c.map c.org r.row)
        (c.rkind = 1 → own → replayRecord s e c r = .ok (.live at' (els.map fun y => exAdd exZero y.val) 0 0)) ∧
        (c.rkind = 3 → own → ∃ vals, replayRecord s e c r = .ok (.live at' vals 0 0) ∧ ∀ (m : Nat) (y : Elem), els[m]? = some y →
          vals[m]? = some (exAdd exZero (fmtF32.unpack (fpMul fmtF32 0 r.gate.toNat (f32Of y.val)).1))) ∧
        (c.rkind = 0 ∨ c.rkind = 2 → readFarRow s e (r.adr + c.goff) t0 = .ok els →
          replayRecord s e c r = .ok (.live r.fin (els.map fun y => exAdd exZero y.val) 0 0)))) ∧
  (∀ (s : State) (k : Nat) (p : Packet) (r : RowPart) (a : RowAcc),
    let d := dieOf r.home
    let i := Instr.rowContribution k
    let s1 := noteWork s r.home r.job
    let u0 := removeAt s1 k
    let v : State := if p.here then s1 else { u0 with flight := u0.flight ++ [{ p with here := true }] }
    let at' := if p.here then k else u0.flight.length
    let new : RowAcc := ⟨r.core, r.cmd, r.row, 0, false, none, segments r.n, []⟩
    let old := (dieAt s d).rowacc
    let keeps (l : List RowAcc) := ∃ u, exec i s = .next u ∧ u.mem = s.mem ∧ u.full = s.full ∧ u.flight = u0.flight ∧ (dieAt u d).rowacc = l
    let rest := old.filter fun y => !sameRow y r
    let refused (cs : List DispCmd) (code : Nat) (adr : Word) := cs.map fun c => if c.num = r.cmd then { c with
      rows := c.rows.filter fun y => y.1 != r.row
      done := c.done - (c.rows.flatMap fun y => if y.1 = r.row then y.2 else []).length
      bad := if c.bad.isSome then c.bad else some (dispCode code, code, adr) } else c
    takeAt s k = .yes p → p.body = .row r → p.near = true → stale s p = false →
      ((∀ y ∈ old, y.row ≠ r.row) →
        (32 < accsUsed (dieAt s d) + segments r.n ∨ rowsWaiting v at' r = true → exec i s = .next v) ∧
        (accsUsed (dieAt s d) + segments r.n ≤ 32 → rowsWaiting v at' r = false → 1 < r.expect →
          (r.live = false → keeps (old ++ [{ new with got := 1 }])) ∧
          (r.live = true → ∀ x, firstValue v r = .ok x → ∃ b, keeps (old ++ [b]) ∧ b.got = 1 ∧ b.live = true ∧ b.fail = none ∧
            ∀ j, j < r.n → b.sums.getD j exZero = exMerge (x.getD j exZero) (r.vals.getD j exZero)) ∧
          (r.live = true → firstValue v r = .error .wait → exec i s = .next v) ∧
          (r.live = true → ∀ f, firstValue v r = .error f → f ≠ .wait → keeps (old ++ [{ new with got := 1, fail := some f }])) ∧
          (r.base = false → firstValue v r = .ok (List.replicate r.n exZero)))) ∧
      (old.find? (fun y => sameRow y r) = some a → ∀ b, addPart v a r = some b →
        b.got = a.got + 1 ∧
        (r.live = true → a.live = true → a.fail = none → b.live = true ∧ b.fail = none ∧
          ∀ j, j < r.n → b.sums.getD j exZero = exMerge (a.sums.getD j exZero) (r.vals.getD j exZero)) ∧
        (r.live = false → b = { a with got := a.got + 1 }) ∧
        (b.got < r.expect → keeps (rest ++ [b])) ∧
        (r.expect ≤ b.got → ∀ code adr, b.fail = some (.refused code adr) → ∃ u, exec i s = .next u ∧ u.mem = s.mem ∧ u.full = s.full ∧
          (coreAt u r.core).dispq = refused (coreAt s r.core).dispq code adr) ∧
        (r.expect ≤ b.got → b.live = true → b.fail = none → ∀ (t : State) (n : Nat) (bad : Option EFail),
          writeRow (setDie u0 d { dieAt u0 d with rowacc := rest }) (engOf r.core r.ctx r.part r.supr r.vec) (8 * r.row.toNat)
            (if r.bf16 then 16 else 32) r.n (fun _ _ => ⟨b.sums.map (exRound (if r.bf16 then fmtBF16 else fmtF32)), [], 1⟩) = (t, n, bad) →
          (bad = none → ∃ u, exec i s = .next u ∧ u.mem = t.mem ∧ u.full = t.full ∧ (coreAt u r.core).dispq = (coreAt t r.core).dispq.map fun c =>
            if c.num = r.cmd then { c with rows := c.rows.filter fun y => y.1 != r.row } else c) ∧
          (bad = some .wait → exec i s = .next v) ∧
          (∀ code adr, bad = some (.refused code adr) → ∃ u, exec i s = .next u ∧ u.mem = t.mem ∧ u.full = t.full ∧
            (coreAt u r.core).dispq = refused (coreAt t r.core).dispq code adr))))

/-! ## Fences, barriers and mailboxes -/

/-- R125, R128, R129, R133: a fence completes when the context's loads have returned, for FULL and GEN (and REL at SYS) when its stores are acknowledged,
at SYS when the generations of its writes are done and every write of the pod that its context has seen is applied (log 74's choice of what R129's
reader needs), and for GEN when the earlier generations of its pod are closed; until then its context stands at it and is not eligible. On a
supervisor core ACQ, FULL and GEN empty the data cache, and FULL and GEN what is held of code and translations. R13, R262, R45, R46, R47: at a scope
and index that R13 does not refuse, BARR of a member that has not arrived marks it; the last member of the mask ends the phase as completed; a member
that has arrived stalls until the phase ends, which counts it in the next and lets it go on; a POD arrival is queued for the Crier; a non-member and a
disabled record are BARNONMEM. BWAIT returns the outcome of the phase it waits on once that phase has ended, and parks until then. The scopes and
indices that R13 refuses are left out. R263: a BWAIT that its context's image brought back waits on the phase it waited on before. R46, R47: when the
timeout of a record runs out in a phase with arrivals the phase is aborted, the next starts with none, each member that had not arrived is told
BARTIMEOUT by a notice with the record's address, and a BWAIT that waits on the phase returns 1; without a timeout or an arrival nothing happens. The
model's choices in it: logs 65, 72, 74 and 79. -/
def Obligations.FencesAndBarriers : Prop :=
  (∀ (s : State) (k : FKind) (c : Scope),
    let t := me s
    let n := s.cur.core
    let g := fenceGen s
    let seenOpen := writeOpen s (podOf n) (ctxVec s n s.cur.ctx) = true
    let written := t.wgens.all (writeGenDone s n) = true ∧ ¬seenOpen
    let met : Prop := t.rslots = [] ∧ (k = .full ∨ k = .gen ∨ (k = .rel ∧ c = .sys) → t.acks = []) ∧
      (c = .sys → k ≠ .acq → written) ∧ (k = .gen → gensClosed s n g = true)
    let i := Instr.fence k c
    (met → ∃ u, exec i s = .next u ∧ MemSame s u ∧ u.full = s.full ∧ u.flight = s.flight ∧ OthersSame s u ∧ WentOn s u 0 4 ∧
      me u = { t with
        pc := (me u).pc
        loops := (me u).loops
        stall := (me u).stall
        block := .none
        wgens := if c = .sys ∧ k ≠ .acq then [] else t.wgens } ∧
      (myCore u).dcache = (if isSupCore n = true ∧ k ≠ .rel then [] else (myCore s).dcache) ∧
      (myCore u).icache = (if isSupCore n = true ∧ (k = .full ∨ k = .gen) then [] else (myCore s).icache) ∧
      (myCore u).stlb = (if isSupCore n = true ∧ (k = .full ∨ k = .gen) then [] else (myCore s).stlb)) ∧
    (¬met → exec i s = .next (setMe s { t with block := .fence k c g })) ∧
    (c = .sys → k ≠ .acq → seenOpen → exec i s = .next (setMe s { t with block := .fence k c g }))) ∧
  (∀ (s : State) (st : Stall) (c : Scope) (imm : BitVec 4) (d : Reg),
    let n := s.cur.core
    let key := barKey n c imm.toNat
    let m := memberOf n c
    let b := barAt s key
    let barr := Instr.barr st c imm
    let bwait := Instr.bwait st d c imm
    let mine := b.word.getLsbD 63 = true ∧ m ∈ b.mask
    let arrived := m ∈ b.arrived ∨ m ∈ b.issued
    let last := ∀ x ∈ b.mask, x = m ∨ x ∈ b.arrived
    let free := setMe s { me s with block := .none }
    let alone := stalledBarrs free key = []
    let apart := ∀ z ∈ stalledBarrs free key, ¬(z.1 = n ∧ z.2.1 = s.cur.ctx)
    let w := waitOf (me s) b key m d
    let ended := if w.ended.isSome then w.ended else phaseOver b w.member w.phase
    imm.toNat < c.barriers →
    (¬mine → TakesSup barr s fBARNONMEM (barAdr s n key) ∧ TakesSup bwait s fBARNONMEM (barAdr s n key)) ∧
    (mine → mayRelease s = false → ParksFor barr s .reply) ∧
    (mine → mayRelease s = true → arrived → exec barr s = .next (setMe s { me s with block := .barr key b.phase st.toNat })) ∧
    (mine → mayRelease s = true → ¬arrived → c ≠ .pod → (me s).bwait = none → apart → ∃ t, exec barr s = .next t ∧ MemSame s t ∧ t.full = s.full ∧
      t.flight = s.flight ∧ WentOn s t st 4 ∧ (me t).x = (me s).x ∧ (me t).block = .none ∧
      (¬last → (barAt t key).arrived = m :: b.arrived ∧ (barAt t key).phase = b.phase) ∧
      (last → alone → (barAt t key).arrived = [] ∧ (barAt t key).phase = (b.phase + 1) % 65536 ∧ (b.pending = false → phaseOver (barAt t key) m b.phase = some false)) ∧
      (∀ x y z, last → b.pending = false → stalledBarrs free key = [(x, y, b.phase, z)] → memberOf x c ∈ b.mask → memberOf x c ∉ b.issued →
        (∃ o ∈ b.mask, o ≠ memberOf x c) → (barAt t key).arrived = [memberOf x c] ∧ (barAt t key).phase = (b.phase + 1) % 65536 ∧
          (ctxAt t x y).block = .none ∧ (ctxAt t x y).stall = (coreAt s x).cycle + z + 1)) ∧
    (mine → mayRelease s = true → ¬arrived → c = .pod → shareFull s (pkgOf n) (partNum s n) = false → ∃ t q, exec barr s = .next t ∧
      MemSame s t ∧ OthersSame s t ∧ WentOn s t st 4 ∧ (barAt t key).issued = m :: b.issued ∧ (barAt t key).arrived = b.arrived ∧
      (pkgAt t (pkgOf n)).queue = (pkgAt s (pkgOf n)).queue ++ [q] ∧ q.kind = 3 ∧ q.poff = imm.toNat ∧ q.core = n ∧ q.body = [2 ^ posOf n]) ∧
    (mine → mayRelease s = true → ¬arrived → c = .pod → shareFull s (pkgOf n) (partNum s n) = true → ParksFor barr s .crier) ∧
    ((∀ v, (me s).bwait = some v → ¬(v.key = key ∧ v.member = m ∧ v.pc = (me s).pc)) → w = ⟨key, waitPhase b m, d, m, (me s).pc, none⟩) ∧
    (∀ v, (me s).bwait = some v → v.key = key → v.member = m → v.pc = (me s).pc → w = v) ∧
    (mine → ∀ a, ended = some a → ∃ t, exec bwait s = .next t ∧ MineOnly s t ∧ WentOn s t st 4 ∧
      (∀ cy, (myCore s).cycle + 1 ≤ cy → (me t).xAt cy d = if d = 0 then 0 else if a then 1 else 0) ∧ XSameBut d (me s) (me t) ∧
      (me t).dep = if a then (me s).dep else vmax (me s).dep b.ovec) ∧
    (mine → ended = none → exec bwait s = .next (setMe (noteGang s n key) { me s with
      st := .parked
      cause := .bwait
      bwait := some w }))) ∧
  (∀ (s : State) (n off : Nat),
    let key := sliceKey n off
    let b := barAt s key
    let i := Instr.barrierTimeout n off
    coreKind n off = .barWord → off % 256 = 0 → dieDead s (dieOf n) = false →
      (barTmo b = 0 ∨ b.arrived = [] → exec i s = .next s) ∧
      (barTmo b ≠ 0 → b.arrived ≠ [] → ∃ t, exec i s = .next t ∧ t.mem = s.mem ∧ t.full = s.full ∧ t.flight = s.flight ∧
        (stalledBarrs s key = [] → (barAt t key).phase = (b.phase + 1) % 65536 ∧ (barAt t key).arrived = []) ∧
        (stalledBarrs s key = [] → b.pending = false → ∀ l ∈ b.last, l.2 = (b.phase, none) → (l.1, b.phase, some true) ∈ (barAt t key).last) ∧
        (∀ x y w, stalledBarrs s key = [] → (ctxAt s x y).block = .none → (ctxAt s x y).bwait = some w → w.key = key → w.phase = b.phase → (ctxAt s x y).cause = .bwait →
          (ctxAt s x y).st = .parked → (ctxAt s x y).redo = false →
          ctxAt t x y = bwaitDone (ctxAt s x y) (coreAt s x).cycle true b.vec w.d) ∧
        ∀ m x, m ∈ b.mask → m ∉ b.arrived → timeoutCore key m = some x →
          ∃ u, u ∈ (coreAt t x).upcalls ++ (coreAt t x).noticeHeld ∧ u.code = fBARTIMEOUT ∧ u.ctx = 0 ∧ u.pc = noticePc ∧
            u.adr = barAdr s x key))

/-- R153, R154, R155: MBCFG empties every mailbox of its core and divides the entries by its code; at its home MBPUT inserts an entry behind those of its
priority or a higher one and drops what ranks beyond the depth, or drops it when the mailbox does not exist; MBTAKE removes the first entry, and finds
an empty mailbox as 0 and 0xFFFF_FFFF_0000_0000. R163, R164, R165, R276: CRY.ST queues a Crier write, CRY.ADD and CRY.MARK queue a message whose value
comes back into x[d] and hold a reply slot for it, while their partition's share has room; a full share parks. An address outside the Crier mirror is
PROTECT, one with a nonzero must-be-zero field RESFIELD, and one not of eight bytes MISALIGN. -/
def Obligations.MailboxesAndCrier : Prop :=
  (∀ (s : State) (st : Stall) (x : Reg) (a : Access) (n i : Nat) (stamp : Vec16) (l : List MbEntry) (e : MbEntry),
    let k := coreAt s n
    let p := Place.ctl n (0x418000 + 16 * i)
    let code := (xr s x).toNat
    let put := applyOp s a stamp p
    let depth := 16 * 2 ^ k.mbcfg
    let empty : VWord := BitVec.ofNat 1024 (0xFFFFFFFF00000000 * 2 ^ 64)
    (3 < code → TakesSup (.mbcfg st x) s fRESFIELD 0) ∧
    (code ≤ 3 → ∃ t, exec (.mbcfg st x) s = .next t ∧ t.mem = s.mem ∧ t.full = s.full ∧ t.flight = s.flight ∧ OthersSame s t ∧
      WentOn s t st 4 ∧ (myCore t).mbcfg = code ∧ (myCore t).mboxes = []) ∧
    (a.op = .mbput → 64 / 2 ^ k.mbcfg ≤ i → ∃ r, put = .answer s r) ∧
    (a.op = .mbput → i < 64 / 2 ^ k.mbcfg → look [] k.mboxes i = l → e = ⟨a.val.setWidth 64, a.val2.setWidth 32, (a.val2 >>> 32).setWidth 32⟩ →
      l.length ≤ depth → ∃ t r, put = .answer t r ∧ t.mem = s.mem ∧
        (l.length < depth → e ∈ look [] (coreAt t n).mboxes i ∧ (look [] (coreAt t n).mboxes i).length = l.length + 1) ∧
        (look [] (coreAt t n).mboxes i).length ≤ depth ∧
        (∀ hi lo, l = hi ++ lo → (∀ y ∈ hi, mbBefore y e.prio = true) → (∀ y, lo.head? = some y → mbBefore y e.prio = false) →
          look [] (coreAt t n).mboxes i = (hi ++ e :: lo).take depth)) ∧
    (a.op = .mbtake → (64 / 2 ^ k.mbcfg ≤ i ∨ look [] k.mboxes i = []) → ∃ r, put = .answer s r ∧ r.ans = .data empty) ∧
    (a.op = .mbtake → i < 64 / 2 ^ k.mbcfg → look [] k.mboxes i = e :: l → ∃ t r, put = .answer t r ∧
      look [] (coreAt t n).mboxes i = l ∧
      r.ans = .data (BitVec.ofNat 1024 (e.val.toNat + 2 ^ 64 * (e.tag.toNat + 2 ^ 32 * e.prio.toNat))))) ∧
  (∀ (s : State) (st : Stall) (d a b : Reg),
    let n := s.cur.core
    let adr := xr s a
    let k := pkgOf n
    let full := shareFull s k (partNum s n)
    let ok := bitsOf adr 62 2 = 3 ∧ bitsOf adr 58 4 ≠ 0 ∧ mbzOk adr = true ∧ adr.toNat % 8 = 0
    let st8 := Instr.crySt st a b
    let add := Instr.cryAdd st d a b
    let mark := Instr.cryMark st d
    let queues (i : Instr) (kind poff : Nat) (v : Word) (asks : Bool) := ∃ t q, exec i s = .next t ∧ t.mem = s.mem ∧ t.full = s.full ∧
      t.flight = s.flight ∧ OthersSame s t ∧ WentOn s t st 4 ∧ (pkgAt t k).queue = (pkgAt s k).queue ++ [q] ∧ q.kind = kind ∧
      q.poff = poff ∧ q.val = v ∧ q.core = n ∧ q.part = partNum s n ∧ (me t).x = (me s).x ∧
      (asks = false → q.acc = none ∧ (me t).rslots = (me s).rslots) ∧
      (asks = true → ∃ r y, q.acc = some y ∧ y.dest = xCode d ∧ (me t).rslots = (me s).rslots ++ [r] ∧ r.dest = xCode d ∧ r.kind = 4)
    (ok → mayRelease s = true → full = false → queues st8 0 (bitsOf adr 0 16) (xr s b) false) ∧
    (ok → mayRelease s = true → full = false → (me s).rslots.length < 12 → queues add 1 (bitsOf adr 0 16) (xr s b) true) ∧
    ((me s).rslots.length < 12 → full = false → queues mark 2 0 0 true) ∧
    (ok → mayRelease s = true → full = true → ParksFor st8 s .crier) ∧
    (ok → mayRelease s = true → (me s).rslots.length < 12 → full = true → ParksFor add s .crier) ∧
    ((me s).rslots.length < 12 → full = true → ParksFor mark s .crier) ∧
    (bitsOf adr 62 2 ≠ 3 ∨ bitsOf adr 58 4 = 0 → TakesSup st8 s fPROTECT adr ∧ TakesSup add s fPROTECT adr) ∧
    (bitsOf adr 62 2 = 3 → bitsOf adr 58 4 ≠ 0 → mbzOk adr = false → TakesSup st8 s fRESFIELD adr ∧ TakesSup add s fRESFIELD adr) ∧
    (bitsOf adr 62 2 = 3 → bitsOf adr 58 4 ≠ 0 → mbzOk adr = true → adr.toNat % 8 ≠ 0 →
      TakesSup st8 s fMISALIGN adr ∧ TakesSup add s fMISALIGN adr))

/-! ## Special registers, saved contexts and translations -/

/-- R107, R331, R19, R287, R337, R102: SRD writes the register of the number into x[d] with latency 1; a number of no register is RESFIELD, and one of
0x100 to 0x1FF in user mode PRIV. %LANEF first waits for vector stores on their way (log 16). R107, R331, R38, R84, R86, R91, R19, R287, R337: SWR
writes x[a] to a register whose layout admits it, and nothing else; a value with a nonzero must-be-zero bit, a reserved value and a read-only register
are RESFIELD; numbers 0x100 to 0x1FF in user mode are PRIV. The model's choices in it: logs 9, 69 and 77. -/
def Obligations.SpecialRegisters : Prop :=
  (∀ (s : State) (st : Stall) (d : Reg) (n : BitVec 12),
    let t := me s
    let k := myCore s
    let c := s.cur.core
    let reads (m : BitVec 12) (v : Word) := WritesX (.srd st d m) s st 4 1 d v
    reads 0x000 (BitVec.ofNat 64 t.cls) ∧ reads 0x001 t.srcadr ∧ reads 0x002 t.rplyadr ∧ reads 0x003 (BitVec.ofNat 64 s.cur.ctx) ∧
    reads 0x004 (coreAdr s c c) ∧ reads 0x005 (BitVec.ofNat 64 (partNum s c)) ∧ reads 0x006 (t.round.setWidth 64) ∧
    reads 0x007 (t.sflags.setWidth 64) ∧ reads 0x008 (if t.check then 1 else 0) ∧ reads 0x009 (tagEn s c) ∧ reads 0x00A (tagPnd s c) ∧
    reads 0x00B (BitVec.ofNat 64 (pkgAt s (pkgOf c)).gen) ∧ reads 0x00C (jobEnergy s c t.job) ∧
    reads 0x00D (BitVec.ofNat 64 k.cycle) ∧ reads 0x00E (BitVec.ofNat 64 (tapePos s (dieOf c) (partNum s c) t.job)) ∧
    reads 0x00F (BitVec.ofNat 64 (tapeLimit s (dieOf c) (partNum s c) t.job)) ∧ reads 0x010 (BitVec.ofNat 64 t.fltcode) ∧
    reads 0x011 t.fltadr ∧ reads 0x012 (BitVec.ofNat 64 t.fltctx) ∧ reads 0x013 t.fltpc ∧ reads 0x014 (t.seed.setWidth 64) ∧
    reads 0x015 (BitVec.ofNat 64 t.prio) ∧ reads 0x016 (BitVec.ofNat 64 k.sqlim) ∧ reads 0x017 (BitVec.ofNat 64 k.sqnote) ∧
    ((∀ u ∈ t.acks, u.vec = false) → ∃ v, reads 0x018 v ∧
      ∀ j, v.getLsbD j = decide (∃ i : Fin 32, (t.lanef.get i).getLsbD j = true)) ∧
    (t.sup = true → reads 0x100 t.epc ∧ reads 0x101 (if t.emode then 1 else 0) ∧ reads 0x102 k.svec ∧ reads 0x103 k.sptr ∧
      reads 0x104 (BitVec.ofNat 64 k.spart) ∧ reads 0x105 (BitVec.ofNat 64 t.scause) ∧ reads 0x106 t.stval) ∧
    (0x019 ≤ n.toNat → n.toNat < 0x100 ∨ 0x200 ≤ n.toNat → TakesSup (.srd st d n) s fRESFIELD 0) ∧
    (0x100 ≤ n.toNat → n.toNat < 0x200 → t.sup = false → TakesSup (.srd st d n) s fPRIV 0) ∧
    (0x107 ≤ n.toNat → n.toNat < 0x200 → t.sup = true → TakesSup (.srd st d n) s fRESFIELD 0)) ∧
  (∀ (s : State) (st : Stall) (a : Reg) (n : BitVec 12),
    let t := me s
    let k := myCore s
    let w := xr s a
    let v := w.toNat
    let i (m : BitVec 12) := Instr.swr st a m
    let bad (m : BitVec 12) := TakesSup (i m) s fRESFIELD 0
    let sets (m : BitVec 12) (u : Ctx) := ∃ r, exec (i m) s = .next r ∧ MineOnly s r ∧ WentOn s r st 4 ∧
      me r = { u with
        pc := (me r).pc
        loops := (me r).loops
        stall := (me r).stall }
    let core (m : BitVec 12) (is : Core → Prop) := ∃ r, exec (i m) s = .next r ∧ r.mem = s.mem ∧ r.full = s.full ∧
      r.flight = s.flight ∧ OthersSame s r ∧ WentOn s r st 4 ∧ is (myCore r) ∧
      me r = { t with
        pc := (me r).pc
        loops := (me r).loops
        stall := (me r).stall }
    (v < 32 → v % 8 ≤ 4 → sets 0x006 { t with round := BitVec.ofNat 5 v }) ∧ (32 ≤ v ∨ 4 < v % 8 → bad 0x006) ∧
    (v < 4 → sets 0x007 { t with sflags := BitVec.ofNat 2 v }) ∧ (4 ≤ v → bad 0x007) ∧
    (v < 2 → sets 0x008 { t with check := v == 1 }) ∧ (2 ≤ v → bad 0x008) ∧
    (v < 65536 → sets 0x014 { t with seed := if v = 0 then 1 else BitVec.ofNat 16 v }) ∧ (65536 ≤ v → bad 0x014) ∧
    (v < 4 → sets 0x015 { t with prio := v }) ∧ (4 ≤ v → bad 0x015) ∧
    (1 ≤ v → v ≤ 32 → core 0x016 fun c => c.sqlim = v ∧ c.sqnote = k.sqnote ∧ c.sendq = k.sendq) ∧ (v = 0 ∨ 32 < v → bad 0x016) ∧
    (v < 64 → core 0x017 fun c => c.sqnote = v ∧ c.sqlim = k.sqlim) ∧ (64 ≤ v → bad 0x017) ∧
    (t.sup = false → t.ldr = false → TakesSup (i 0x00F) s fPROTECT 0) ∧
    (t.sup = true → (v % 2 = 0 → sets 0x100 { t with epc := w }) ∧ (v % 2 = 1 → bad 0x100) ∧
      (v < 2 → sets 0x101 { t with emode := v == 1 }) ∧ (2 ≤ v → bad 0x101) ∧
      (v % 2 = 0 → core 0x102 fun c => c.svec = w) ∧ (v % 2 = 1 → bad 0x102) ∧
      (nbits v 1 11 = 0 → nbits v 47 17 = 0 → core 0x103 fun c => c.sptr = w ∧ c.stlb = []) ∧
      (v ≤ 23 → core 0x104 fun c => c.spart = v) ∧ (23 < v → bad 0x104) ∧ bad 0x105 ∧ bad 0x106) ∧
    (0x100 ≤ n.toNat → n.toNat < 0x200 → t.sup = false → TakesSup (i n) s fPRIV 0) ∧
    (n.toNat < 6 ∨ (8 < n.toNat ∧ n.toNat < 0x0F) ∨ (0x0F < n.toNat ∧ n.toNat < 0x14) ∨ (0x17 < n.toNat ∧ n.toNat < 0x100) ∨
      0x200 ≤ n.toNat → bad n))

/-- R277, R278, R205: CTXSV in supervisor mode writes the image of a held context of a core of a partition bound to the issuer, and leaves it saved, or
with FREE = 1 free, and gives back a reply slot that the context had reserved for a request; of a saved context FREE = 1 frees it; any other is
RESFIELD with the context's address. In user mode CTXSV, CTXLD and XINV are PRIV. R279, R208, R210: CTXLD in supervisor mode restores a context from
an image that fits: its PC, its registers, its priority and its state come from the image, parked with its cause where it was parked, and it has no
delayed result to come; other contexts and memory stay. An image of another place goes into a free context as one that runs with nothing outstanding,
once the stores of the context it was written from are acknowledged (log 29); until then the CTXLD waits. An image that does not fit is RESFIELD with
its address. R364, R68: XINV in supervisor mode removes, in the agents of every die of the package named, the partition's translations that cover the
offset, or all of the partition's, and no other translation; it waits for the issuer's earlier loads and stores, and, once the entries are gone, for
the accesses translated by them that are held or on their way to an engine. An address outside the Granary is RESFIELD. The model's choices in it:
logs 29, 30 and 62. -/
def Obligations.ImagesMove : Prop :=
  (∀ (s : State) (st : Stall) (a b : Reg) (n c : Nat),
    let i := Instr.ctxsv st a b
    let t := ctxAt s n c
    let free := xr s b = 1
    let key := imageKey s n c
    let others (u : State) (woken : Bool) := ∀ x y, ¬(x = n ∧ y = c) → ¬(x = s.cur.core ∧ y = s.cur.ctx) →
      ¬(woken = true ∧ x = n ∧ (ctxAt s x y).st = .parked ∧ (ctxAt s x y).cause = .send) → ctxAt u x y = ctxAt s x y
    ((me s).sup = false → TakesSup i s fPRIV 0 ∧ TakesSup (.ctxld st a b) s fPRIV 0 ∧ TakesSup (.xinv st a b) s fPRIV 0) ∧
    ((me s).sup = true → 2 ≤ (xr s b).toNat → TakesSup i s fRESFIELD 0) ∧
    ((me s).sup = true → (xr s b).toNat < 2 → ctxTarget s (xr s a) = .inr (n, c) → n ≠ s.cur.core →
      (t.st ≠ .held → t.st ≠ .saved → TakesSup i s fRESFIELD (xr s a)) ∧
      (t.st = .saved → t.resvAt = none → ∃ u, exec i s = .next u ∧ u.mem = s.mem ∧ u.full = s.full ∧ u.flight = s.flight ∧ WentOn s u st 4 ∧
        others u false ∧
        (ctxAt u n c).st = (if free then .free else .saved)) ∧
      (t.st = .held → Memory.wf s.mem = true → ∃ u, exec i s = .next u ∧ u.flight = s.flight ∧ WentOn s u st 4 ∧ others u true ∧
        (ctxAt u n c).st = (if free then .free else .saved) ∧ (ctxAt u n c).resvAt = none ∧ (∀ id, t.resvAt = some id → id ∉ (coreAt u n).resv) ∧
        (∀ x, x < key ∨ key + 4608 ≤ x → Memory.get u.mem x = Memory.get s.mem x) ∧
        Memory.read u.mem key 1 = 3 ∧ Memory.read u.mem (key + 4) 2 = t.pc.toNat % 65536 ∧
        (t.pend = [] → t.var = [] → ∀ r : Reg, r ≠ 0 → Memory.read u.mem (key + 64 + 8 * r.toNat) 8 = (t.rx r).toNat)))) ∧
  (∀ (s : State) (st : Stall) (a b d : Reg) (n c : Nat),
    let i := Instr.ctxld st a b
    let key := imageKey s n c
    let kind := Memory.read s.mem key 1
    let why := causeOf (Memory.read s.mem (key + 1) 1)
    (me s).sup = true → ctxTarget s (xr s a) = .inr (n, c) → imageTarget s n (xr s b) = .inr (n, c) → n ≠ s.cur.core →
      ((ctxAt s n c).st = .saved → imageFits s n key = true → kind ≠ 2 ∨ (why ≠ .reply ∧ why ≠ .fullEmpty) →
        (∀ j, j < 12 → Memory.read s.mem (key + 2880 + 144 * j) 1 = 0) → ∃ u, exec i s = .next u ∧ u.mem = s.mem ∧ u.full = s.full ∧
        u.flight = s.flight ∧ WentOn s u st 4 ∧
        (∀ x y, ¬(x = n ∧ y = c) → ¬(x = s.cur.core ∧ y = s.cur.ctx) → ctxAt u x y = ctxAt s x y) ∧
        let t := ctxAt u n c
        t.st = (match kind with | 2 => .parked | 3 => .held | _ => .running) ∧ t.cause = (if kind = 2 then why else .none) ∧
        (kind = 2 → t.redo = decide (why ≠ .upcall ∧ why ≠ .halt ∧ why ≠ .none)) ∧
        t.pc = BitVec.ofNat 64 (Memory.read s.mem (key + 4) 2) ∧ t.prio = Memory.read s.mem (key + 3) 1 % 4 ∧ t.pend = [] ∧ t.var = [] ∧
        (∀ r : Reg, r ≠ 0 → t.rx r = BitVec.ofNat 64 (Memory.read s.mem (key + 64 + 8 * r.toNat) 8)) ∧
        (∀ r : VReg, t.rv r = BitVec.ofNat 1024 (Memory.read s.mem (key + 320 + 128 * r.toNat) 128)) ∧
        (coreAt u n).saved = false) ∧
      ((ctxAt s n c).st ≠ .saved ∨ imageFits s n key = false → TakesSup i s fRESFIELD (xr s b)) ∧
      ∀ m j, ¬(m = n ∧ j = c) → imageTarget s n (xr s d) = .inr (m, j) →
        let from' := imageKey s m j
        let moves := Instr.ctxld st a d
        ((ctxAt s n c).st ≠ .free ∨ imageFits s n from' = false ∨ imageMoves s from' = false → TakesSup moves s fRESFIELD (xr s d)) ∧
        ((ctxAt s n c).st = .free → imageFits s n from' = true → imageMoves s from' = true →
          (unacked s (pastOf s m j).nums = true → exec moves s = .next (setMe s { me s with
            st := .parked
            cause := .unit
            redo := true })) ∧
          (unacked s (pastOf s m j).nums = false → (∀ k, k < 12 → Memory.read s.mem (from' + 2880 + 144 * k) 1 = 0) → ∃ u,
            exec moves s = .next u ∧ u.mem = s.mem ∧ u.full = s.full ∧ u.flight = s.flight ∧ WentOn s u st 4 ∧
            let t := ctxAt u n c
            t.st = .running ∧ t.acks = [] ∧ t.rslots = [] ∧ t.wgens = (pastOf s m j).wgens ∧
            t.pc = BitVec.ofNat 64 (Memory.read s.mem (from' + 4) 2) ∧
            ∀ r : Reg, r ≠ 0 → t.rx r = BitVec.ofNat 64 (Memory.read s.mem (from' + 64 + 8 * r.toNat) 8)))) ∧
  (∀ (s : State) (st : Stall) (a b : Reg) (g : Nat),
    let i := Instr.xinv st a b
    let adr := xr s a
    let w := (xr s b).toNat
    let part := w % 32
    let mine := pkgOf s.cur.core
    let voff := bitsOf adr 0 52
    let gone (t : Tlb) := t.part = part ∧ (256 ≤ w ∨ (t.base ≤ voff ∧ voff < t.base + t.size))
    let removed (u : State) := ∀ d t, 16 * g ≤ d → d < 16 * g + 8 → (t ∈ (dieAt u d).tlb ↔ t ∈ (dieAt s d).tlb ∧ ¬gone t)
    let good := (me s).sup = true ∧ isGranAdr adr = true ∧ nbits w 5 3 = 0 ∧ w < 512 ∧ part ≤ 23 ∧ partEn s mine part = true ∧
      s.cur.core = supCoreOf s mine part ∧ physPkg s mine part (bitsOf adr 52 10) = some g ∧ (me s).rslots = [] ∧ (me s).acks = []
    let used := stillOpen s (translatedBy s g part voff (decide (256 ≤ w)))
    let goneOn (u : State) := u.mem = s.mem ∧ u.full = s.full ∧ u.flight = s.flight ∧ OthersSame s u ∧ WentOn s u st 4 ∧ (me u).xinv = none
    let waits (u : State) (l : List Nat) := u.mem = s.mem ∧ u.full = s.full ∧ u.flight = s.flight ∧ OthersSame s u ∧
      (me u).st = .parked ∧ (me u).cause = .unit ∧ (me u).pc = (me s).pc ∧ (me u).xinv = some l
    ((me s).sup = true → isGranAdr adr = false → TakesSup i s fRESFIELD adr) ∧
    ((me s).sup = true → isGranAdr adr = true → nbits w 5 3 = 0 → w < 512 → part ≤ 23 → partEn s mine part = true →
      s.cur.core = supCoreOf s mine part → physPkg s mine part (bitsOf adr 52 10) = some g → (me s).rslots ≠ [] ∨ (me s).acks ≠ [] →
      ParksFor i s .reply) ∧
    (good → (me s).xinv = none → used = [] → ∃ u, exec i s = .next u ∧ goneOn u ∧ removed u) ∧
    (good → (me s).xinv = none → used ≠ [] → ∃ u, exec i s = .next u ∧ waits u used ∧ removed u) ∧
    (∀ h ∈ s.held, h.acc.part = part → pkgOf h.acc.home = g →
      (∃ x ∈ h.acc.ptes, 256 ≤ w ∨ (x.1 ≤ voff ∧ voff < x.1 + pageBytes x.2)) → h.acc.num ∈ used) ∧
    (good → ∀ l, (me s).xinv = some l → (stillOpen s l = [] → ∃ u, exec i s = .next u ∧ goneOn u ∧ u.dies = s.dies) ∧
      (stillOpen s l ≠ [] → ∃ u, exec i s = .next u ∧ waits u (stillOpen s l) ∧ u.dies = s.dies)))

/-! ## Waiting at homes, and reductions -/

/-- R63, R65, R207: a held access whose full/empty condition holds, and before which none waits, is applied and answered; one whose condition does not
hold stays. A page walk that finds a leaf enters the translation at the agent and applies the access that waited for it. R124, R123: a probe that has
reached its source's interface is answered with a marker that carries the number of the held access and the source's counter, unless something sent
earlier is outstanding; the marker travels on the flow between the dies and is kept until it is known to have arrived. A marker takes its source from
those that a held access waits for, and brings the home's clock of a die of its package up to the counter; where the source cannot be reached the
home's interface supplies it. The model's choices in it: logs 44 and 72. -/
def Obligations.HeldAndProbed : Prop :=
  (∀ (s : State) (k : Nat) (h : Held) (p : Place) (t : State) (r : Reply) (g voff pte x : Nat),
    let a := h.acc
    let s1 := { s with held := [] }
    let s2 := enterTlb s1 g a.part voff pte
    let answered := t.held = [] ∧ r.acc = a ∧ unreachable t a.home (dieOf a.core) = false
    (s.held[k]? = some h → heldStale s h = false → h.why ≠ .full ∨ ready s h = false → exec (.fullEmptyWaiterApplied k) s = .next s) ∧
    (s.held = [h] → heldStale s h = false → h.why = .full → ready s h = true → mayApply s1 a = true → placeOf s1 a = .ok p →
      applyAt s1 a h.stamp p = .answer t r → answered → AppliedHome (.fullEmptyWaiterApplied 0) s a t r) ∧
    (s.held = [h] → heldStale s h = false → h.why = .walk → placeOf s a = .ok (.gran g voff) → walkPart s g a.part voff = .leaf pte x →
      needsWalk s g a.part voff = true → 0 < pageBytes pte → placeOf s2 a = .ok (.gran g voff) →
      applyAt s2 a h.stamp (.gran g voff) = .answer t r → answered →
      AppliedHome (.pageWalk 0) s a t r ∧ (findTlb (dieAt s2 (dieOf (agentOf g voff))).tlb a.part voff).isSome = true)) ∧
  (∀ (s : State) (k num d src i count : Nat) (p q : Packet) (h : Held) (need : List Nat),
    let home := dieOf h.acc.home
    let still := need.filter fun y => y != src
    let waits (u : State) := u.mem = s.mem ∧ u.full = s.full ∧ u.cores = s.cores ∧ u.held = s.held.set k { h with why := .catchup still }
    let here (z : Packet) := z.here = true ∧ dieOf z.dst = home ∧ ∃ c, z.body = .marker h.acc.num src c
    (takeAt s k = .yes p → p.body = .probe num d → p.here = true →
      (markerWaits s (dieOf p.dst) d num = true → exec (.catchupProbe k) s = .next s) ∧
      (markerWaits s (dieOf p.dst) d num = false → ∃ u m, exec (.catchupProbe k) s = .next u ∧ u.mem = s.mem ∧ u.cores = s.cores ∧
        u.flight = s.flight.eraseIdx k ++ [m] ∧ m.src = p.dst ∧ m.dst = p.src ∧ u.keptRep = s.keptRep ++ [m] ∧
        m.body = .marker num (dieOf p.dst) (if pkgOf p.src = pkgOf p.dst then (dieAt s (dieOf p.dst)).wctr
          else (pkgAt s (pkgOf p.dst)).egress))) ∧
    (s.held[k]? = some h → h.why = .catchup need → heldStale s h = false → src ∈ need → (∃ y ∈ need, y ≠ src) →
      (s.flight[i]? = some q → (∀ j z, j < i → s.flight[j]? = some z → ¬here z) → q.here = true → dieOf q.dst = home →
        q.body = .marker h.acc.num src count →
        ∃ u, exec (.marker k src) s = .next u ∧ waits u ∧ u.flight = s.flight.eraseIdx i ∧
          (src / 16 = pkgOf h.acc.home → (dieAt u home).clock = vraise (dieAt s home).clock (src % 16) count)) ∧
      ((∀ z ∈ s.flight, ¬here z) → unreachable s h.acc.home src = true →
        ∃ u, exec (.marker k src) s = .next u ∧ waits u ∧ u.flight = s.flight ∧ u.dies = s.dies) ∧
      ((∀ z ∈ s.flight, ¬here z) → unreachable s h.acc.home src = false → exec (.marker k src) s = .next s)))

/-- R72, R176, R94: a contribution to an open granule of its round raises the granule's count and adds each element exactly; the one that brings the count
to RCNT writes the rounded sums and sets the granule full; one for a granule that has ended, or of another round, raises LATE. R73: at the deadline
every granule that has not completed is written with the abort pattern, set full and aborted, and ABT is set; a granule that has ended keeps its
bytes; without a deadline nothing happens. The model's choices in it: log 15. -/
def Obligations.ReductionsRound : Prop :=
  (∀ (s : State) (k : Nat) (p : Packet) (r : RedPart) (x : RedSlot),
    let i := Instr.contribution k
    let slots := (dieAt s r.die).slots
    let found := slots.find? fun y => y.page == r.page && y.round == r.round
    let g := granAt x r.idx
    let sums := (g.sums.zip (granElems x.bf16 r.val.toNat)).map fun e => exAdd e.1 e.2
    let late := ∃ u, exec i s = .next u ∧ u.full = s.full ∧ u.flight = s.flight.eraseIdx k ∧
      Stored s u (r.attr + 30) 2 (Nat.min 65535 (Memory.read s.mem (r.attr + 30) 2 + 1))
    takeAt s k = .yes p → p.body = .red r → stale s p = false → r.last = false → Memory.wf s.mem = true →
      (found = none → late) ∧
      (found = some x → g.ended = true → late) ∧
      (found = some x → g.ended = false → g.count + 1 < x.rcnt → x.opens ≠ 0 → ∃ u, exec i s = .next u ∧ u.mem = s.mem ∧
        u.full = s.full ∧ u.flight = s.flight.eraseIdx k ∧ ∃ y ∈ (dieAt u r.die).slots, y.page = x.page ∧
          granAt y r.idx = { g with
            count := g.count + 1
            sums := sums }) ∧
      (found = some x → g.ended = false → x.rcnt ≤ g.count + 1 → 2 ≤ x.opens → r.page % 16 = 0 → ∃ u, exec i s = .next u ∧
        Stored s u (r.page + 16 * r.idx) 16 (granResult x.bf16 sums) ∧ isFull u (r.page + 16 * r.idx) = true ∧
        ∃ y ∈ (dieAt u r.die).slots, y.page = x.page ∧ y.opens = x.opens - 1 ∧ (granAt y r.idx).ended = true)) ∧
  (∀ (s : State) (d i : Nat) (x : RedSlot),
    let e := Instr.reductionDeadline d i
    (dieAt s d).slots[i]? = some x →
      (x.rdl = 0 → exec e s = .next s) ∧
      (x.rdl ≠ 0 → Memory.wf s.mem = true → x.page % 65536 = 0 → (x.attr + 32 ≤ x.page ∨ x.page + 65536 ≤ x.attr) → ∃ u, exec e s = .next u ∧
        u.flight = s.flight ∧ u.cores = s.cores ∧ Memory.read u.mem (x.attr + 24) 1 / 2 % 2 = 1 ∧
        ∀ j, j < 4096 →
          ((granAt x j).ended = false → Memory.read u.mem (x.page + 16 * j) 16 =
            (if x.bf16 then packElems 16 (List.replicate 8 0x7FC0) else packElems 32 (List.replicate 4 0x7FC0DEAD)) ∧
            isFull u (x.page + 16 * j) = true ∧ memb u.aborted (x.page / 16 + j) = true) ∧
          ((granAt x j).ended = true → ∀ b, b < 16 → Memory.get u.mem (x.page + 16 * j + b) = Memory.get s.mem (x.page + 16 * j + b))))

/-! ## Cores -/

/-- R32, R33, R27, R199, R200, R40: a dispatch starts the work that R32 chooses in the free context of lowest number: of a message its class, priority,
entry PC, arguments, sender and reply address, with the payload in the context's private window; of an upcall record its code, address, context and PC
in the fault registers; of a task its arguments. x2 is the top of the window, every other x register reads zero. R28: the slot of a RPLY message
without a reservation goes to the originator that has waited longest. R32, R24, R199: what a dispatch takes: nothing without a free context; the
candidate of highest effective priority, the earliest accepted of equals, where the messages of enabled classes and, with class 63 enabled, the oldest
upcall record at class 63's priority are candidates; the bottom of the deque, if its class is enabled, only when there is no candidate; and where
there is a candidate, something. With fifteen contexts taken by other classes only class 63 is one. The model's choices in it: log 70. -/
def Obligations.CoresDispatch : Prop :=
  (∀ (s : State) (n c i : Nat) (e : InMsg) (id : Nat) (u : Upcall) (us : List Upcall) (tk : Task) (tks : List Task),
    let k := coreAt s n
    let run := Instr.dispatch n
    let starts (cls prio : Nat) (args : Nat → Word) (src rply : Word) (t : State) :=
      let w := classWord s n cls
      let x := ctxAt t n c
      x.st = .running ∧ x.cls = cls ∧ x.prio = prio ∧ x.pc = BitVec.ofNat 64 (2 * nbits w 0 15) ∧ x.job = nbits w 48 16 ∧
      x.win = classWin w ∧ x.c63 = (cls == 63) ∧ x.srcadr = src ∧ x.rplyadr = rply ∧ x.replied = false ∧ x.loops = [] ∧ x.round = 0 ∧
      x.sflags = 0 ∧ x.rslots = [] ∧ x.acks = [] ∧ x.seed = (ctxAt s n c).seed ∧
      (∀ r : Reg, x.rx r = if r = 2 then BitVec.ofNat 64 (0xC000000000000000 + classWin w)
        else if 8 ≤ r.toNat ∧ r.toNat < 16 then args (r.toNat - 8) else 0) ∧
      (∀ r, x.rv r = 0) ∧ x.check = false ∧ x.lanef = Vector.replicate 32 0 ∧
      (∀ m d, ¬(m = n ∧ d = c) → ctxAt t m d = ctxAt s m d) ∧ t.full = s.full ∧ t.flight = s.flight
    (nextWork s n = none → exec run s = .next s) ∧
    (nextWork s n = some (.msg i) → freeCtx s n = some c → k.inbox[i]? = some e → e.msg.kind = .request id → ∃ t, exec run s = .next t ∧
      starts e.msg.cls (effPrio s n e.msg) (fun j => (e.msg.args.take e.msg.narg).getD j 0) (coreAdr s n e.msg.src)
        (replyAdr s n e.msg id) t ∧ (ctxAt t n c).owes = true ∧ (coreAt t n).inbox = k.inbox.eraseIdx i ∧ (coreAt t n).resv = k.resv ∧
      t.mem = Memory.putBytes s.mem (sliceKey n (0x300000 + 0x10000 * c)) e.msg.payload) ∧
    (nextWork s n = some (.msg i) → freeCtx s n = some c → k.inbox[i]? = some e → (e.msg.kind = .reply id ∨ e.msg.kind = .refusal id) →
      (∀ y, (ctxAt s n y).cause ≠ .send) → ∃ t, exec run s = .next t ∧
      starts e.msg.cls (effPrio s n e.msg) (fun j => (e.msg.args.take e.msg.narg).getD j 0) (coreAdr s n e.msg.src) 0 t ∧
      (ctxAt t n c).owes = false ∧ (coreAt t n).inbox = k.inbox.eraseIdx i ∧ (coreAt t n).resv = k.resv.filter fun y => y != id) ∧
    (nextWork s n = some (.msg i) → freeCtx s n = some c → k.inbox[i]? = some e →
      (e.msg.kind = .unreserved ∧ k.rplyWait = []) ∨ e.msg.kind = .host id → ∃ t, exec run s = .next t ∧
      starts e.msg.cls (effPrio s n e.msg) (fun j => (e.msg.args.take e.msg.narg).getD j 0) (coreAdr s n e.msg.src) 0 t ∧
      (ctxAt t n c).owes = false ∧ (coreAt t n).inbox = k.inbox.eraseIdx i ∧ (coreAt t n).resv = k.resv) ∧
    (∀ w, nextWork s n = some (.msg i) → freeCtx s n = some c → k.inbox[i]? = some e → e.msg.kind = .unreserved → k.rplyWait = [w] →
      w.dst = n → unreservedUsed { k with inbox := k.inbox.eraseIdx i } < 16 → ∃ t, exec run s = .next t ∧ (coreAt t n).rplyWait = [] ∧
      (coreAt t n).inbox = k.inbox.eraseIdx i ++ [⟨w, 0, k.order⟩]) ∧
    (nextWork s n = some (.upc 0) → freeCtx s n = some c → k.upcalls = u :: us → k.noticeHeld = [] → ∃ t, exec run s = .next t ∧
      starts 63 (nbits (classWord s n 63) 40 2) (fun _ => 0) (coreAdr s n n) 0 t ∧ t.mem = s.mem ∧ (coreAt t n).upcalls = us ∧
      (ctxAt t n c).fltcode = u.code ∧ (ctxAt t n c).fltadr = u.adr ∧ (ctxAt t n c).fltctx = u.ctx ∧ (ctxAt t n c).fltpc = u.pc) ∧
    (nextWork s n = some .task → freeCtx s n = some c → k.deque = tk :: tks → ∃ t, exec run s = .next t ∧
      let h := (tk.words.headD 0).toNat
      starts (h % 64) (nbits (classWord s n (h % 64)) 40 2) (fun j => (tk.words.tail.take (h / 64 % 8)).getD j 0) (coreAdr s n tk.src) 0 t ∧
      t.mem = s.mem ∧ (coreAt t n).deque = tks)) ∧
  (∀ (s : State) (n : Nat),
    let k := coreAt s n
    let room (cls : Nat) := classEn s n cls = true ∧ (othersUsed s n < 15 ∨ cls = 63)
    let mine (f : InMsg) := room f.msg.cls
    let up := nbits (classWord s n 63) 40 2
    let candidate (prio order : Nat) := (∃ f ∈ k.inbox, mine f ∧ prio = effPrio s n f.msg ∧ order = f.order) ∨
      (∃ u us, k.upcalls = u :: us ∧ room 63 ∧ prio = up ∧ order = u.order)
    let best (prio order : Nat) := ∀ p o, candidate p o → p < prio ∨ (p = prio ∧ order ≤ o)
    (freeCtx s n = none → nextWork s n = none) ∧
    (mayDispatch s n = false → nextWork s n = none) ∧
    (∀ i, nextWork s n = some (.msg i) → ∃ e, k.inbox[i]? = some e ∧ mine e ∧ best (effPrio s n e.msg) e.order) ∧
    (∀ i, nextWork s n = some (.upc i) → i = 0 ∧ ∃ u us, k.upcalls = u :: us ∧ room 63 ∧ best up u.order) ∧
    (nextWork s n = some .task → (∀ p o, ¬candidate p o) ∧ ∃ t ts, k.deque = t :: ts ∧ room ((t.words.headD 0).toNat % 64)) ∧
    (freeCtx s n ≠ none → mayDispatch s n = true → dieDead s (dieOf n) = false →
      ((∃ p o, candidate p o) → nextWork s n ≠ none ∧ nextWork s n ≠ some .task) ∧
      (∀ t ts, k.deque = t :: ts → room ((t.words.headD 0).toNat % 64) → nextWork s n ≠ none)))

/-- R36, R38, R39, R108, R102: a context that has waited 4,096 cycles is promoted; the oldest entry of a send queue leaves for its destination, and
contexts that waited for room go on; the oldest result of variable latency reaches its register; an encoding that is no instruction is ILLEGAL, PRIV
or RESFIELD at the running context, which is held. The model's choices in it: log 68. -/
def Obligations.CoreEvents : Prop :=
  ∀ (s : State) (n c : Nat) (m : Msg) (ms : List Msg) (e : VarRes) (es : List VarRes) (v : Word) (d : Reg),
    let k := coreAt s n
    let t := ctxAt s n c
    (t.st = .running → 4096 ≤ t.waited → ∃ u, exec (.priorityPromotion n c) s = .next u ∧ u.mem = s.mem ∧
      ctxAt u n c = { t with promoted := true } ∧ ∀ x y, ¬(x = n ∧ y = c) → ctxAt u x y = ctxAt s x y) ∧
    (t.waited < 4096 → exec (.priorityPromotion n c) s = .next s) ∧
    (k.sendq = [] → exec (.sendQueueEntryLeaves n) s = .next s) ∧
    (k.sendq = m :: ms → dieDead s (dieOf n) = false → (dieOf m.dst = dieOf n ∨ unreachable s n (dieOf m.dst) = false) → (ms ≠ [] ∨ k.sqfaults = 0) →
      ∃ u q, exec (.sendQueueEntryLeaves n) s = .next u ∧ u.mem = s.mem ∧ u.full = s.full ∧ (coreAt u n).sendq = ms ∧
        u.flight = s.flight ++ [q] ∧ q.body = .msg m ∧ q.src = n ∧ q.dst = m.dst ∧
        (t.st = .parked → t.cause = .send → (ctxAt u n c).st = .running)) ∧
    (t.var = e :: es → e = ⟨xCode d, .value (v.setWidth 1024), allBits, false⟩ → t.st ≠ .free → t.st ≠ .saved →
      ∃ u, exec (.variableLatencyResult n c) s = .next u ∧ u.mem = s.mem ∧ u.flight = s.flight ∧
        (∀ x y, ¬(x = n ∧ y = c) → ctxAt u x y = ctxAt s x y) ∧ (ctxAt u n c).var = es ∧
        (∀ cy, (ctxAt u n c).xAt cy d = if d = 0 then 0 else v) ∧ XSameBut d t (ctxAt u n c)) ∧
    exec (.illegalInstruction .illegal) s = .next (raiseSup s s.cur.core s.cur.ctx fILLEGAL 0 (me s).pc) ∧
    exec (.illegalInstruction .priv) s = .next (raiseSup s s.cur.core s.cur.ctx fPRIV 0 (me s).pc) ∧
    exec (.illegalInstruction .resfield) s = .next (raiseSup s s.cur.core s.cur.ctx fRESFIELD 0 (me s).pc)

/-- R42, R43: an idle core asks a neighbour for work after 64 cycles; a victim yields the upper half of its deque, which the thief puts on top of its own
when it has room; at a levelling interval a core ships records of its top to its least-loaded neighbour, as many as fit. The model's choices in it:
log 58. -/
def Obligations.DequesLevel : Prop :=
  ∀ (s : State) (n m k h : Nat) (p : Packet) (rs : List Task),
    let a := coreAt s n
    (a.idle < 64 → exec (.stealRequest n) s = .next s) ∧
    (64 ≤ a.idle → stealIdle s n = true → dieDead s (dieOf n) = false → neighbour n (a.stealDir % 4) = some m → a.stealDir < 4 →
      ∃ u q, exec (.stealRequest n) s = .next u ∧ u.mem = s.mem ∧ u.flight = s.flight ++ [q] ∧ q.src = n ∧ q.dst = m ∧
        q.body = .steal .request ∧ (coreAt u n).idle = 0 ∧ (coreAt u n).stealDir = (a.stealDir + 1) % 4) ∧
    (takeAt s k = .yes p → stale s p = false → p.body = .steal .request → dieOf p.src = dieOf p.dst → 2 ≤ (coreAt s p.dst).deque.length →
      let v := (coreAt s p.dst).deque
      let keep := v.length - v.length / 2
      ∃ u q, exec (.stealRequestArrival k) s = .next u ∧ u.mem = s.mem ∧ (coreAt u p.dst).deque = v.take keep ∧
        u.flight = s.flight.eraseIdx k ++ [q] ∧ q.dst = p.src ∧ q.body = .steal (.records (v.drop keep))) ∧
    (takeAt s k = .yes p → stale s p = false → p.body = .steal (.records rs) →
      ((coreAt s p.dst).deque.length + rs.length ≤ 256 → ∃ u, exec (.stolenRecordsArrival k) s = .next u ∧ u.mem = s.mem ∧
        u.flight = s.flight.eraseIdx k ∧ (coreAt u p.dst).deque = (coreAt s p.dst).deque ++ rs) ∧
      (256 < (coreAt s p.dst).deque.length + rs.length → exec (.stolenRecordsArrival k) s = .next s)) ∧
    (leastLoaded s (neighbours n) = some m → balint s n ≠ 0 → dieDead s (dieOf n) = false →
      let ship := Nat.min (a.deque.length - 8) ((a.deque.length - (coreAt s m).deque.length) / 2)
      (ship = 0 → exec (.levellingInterval n) s = .next s) ∧
      (ship ≠ 0 → ∃ u q, exec (.levellingInterval n) s = .next u ∧ u.mem = s.mem ∧ u.flight = s.flight ++ [q] ∧ q.dst = m ∧
        q.body = .steal (.shipment ship))) ∧
    (takeAt s k = .yes p → stale s p = false → p.body = .steal (.shipment h) → p.src ≠ p.dst →
      let v := (coreAt s p.src).deque
      let w := (coreAt s p.dst).deque
      let move := Nat.min (Nat.min h v.length) (256 - w.length)
      ∃ u, exec (.levellingShipmentArrival k) s = .next u ∧ u.mem = s.mem ∧ u.flight = s.flight.eraseIdx k ∧
        (coreAt u p.src).deque = v.take (v.length - move) ∧ (coreAt u p.dst).deque = w ++ v.drop (v.length - move))

/-! ## Fabric -/

/-- R173, R174, R167: a bridge, rail or fibre that fails is marked at both ends, and a generation with cause 0 is opened; one that has failed already
changes nothing. A live lane whose window exceeds ERRMAX is removed while fewer than two of its rail retrain, and else waits for one of them to
return, unless ERRMAX is 0 by then; a pass hands it back, and the third failure in a row disables it, of which the supervisor is told. R159, R214,
R172, R173, R123, R168: a flit sent again and a packet that failed its end-to-end check change no order: the packet stays in its place. A packet
between dies may take the escape channel; one that no hop is left to stays on its way. A packet of a draining generation that is declared lost is on
its way no more, and what its sender keeps of it counts with the current generation. The model's choices in it: logs 38, 39 and 75. -/
def Obligations.FabricFares : Prop :=
  (∀ (s : State) (pkg link lane count : Nat),
    let g := pkgAt s pkg
    let told (u : State) := ∃ m : CMsg, (pkgAt u pkg).queue = g.queue ++ [m] ∧ m.kind = 5 ∧ m.pos = pkg % 8 ∧ m.body = [0, 0]
    let fails := exec (.linkFailure pkg link) s
    let far := pkg / 8 * 8 + link % 8
    let key := sliceKey (fabricCore pkg) (laneOff lane)
    let w := fabWord s pkg (laneOff lane)
    let max := nbits (fabWord s pkg 0x410100) 0 32
    let busy := ((laneMates lane).filter fun l => laneState s pkg l == 1).length
    let real := lane < 256 ∧ lane % 8 ≠ 0 ∧ g.dead = false ∧ Memory.wf s.mem = true
    let writes (i : Instr) (v : Nat) (failed : List Nat) := ∃ u, exec i s = .next u ∧ Stored s u key 8 v ∧ u.cores = s.cores ∧
      u.flight = s.flight ∧ (pkgAt u pkg).failed = failed ∧ (pkgAt u pkg).queue = g.queue
    (link ∈ g.failed → fails = .next s) ∧
    (g.dead = false → link ∉ g.failed → link < 27 → ∃ u, fails = .next u ∧ u.mem = s.mem ∧ u.flight = s.flight ∧ u.cores = s.cores ∧
      (pkgAt u pkg).failed = link :: g.failed ∧ told u ∧ ∀ q, q ≠ pkg → pkgAt u q = pkgAt s q) ∧
    (g.dead = false → link ∉ g.failed → 32 ≤ link → link < 64 → link % 8 ≠ pkg % 8 → ∃ u, fails = .next u ∧ u.mem = s.mem ∧
      u.flight = s.flight ∧ u.cores = s.cores ∧ (pkgAt u pkg).failed = link :: g.failed ∧ told u ∧
      railLink ((link - 32) / 8) (pkg % 8) ∈ (pkgAt u far).failed ∧ ∀ q, q ≠ pkg → q ≠ far → pkgAt u q = pkgAt s q) ∧
    (g.dead = false → link ∉ g.failed → 64 ≤ link → link < 80 → ∃ u, fails = .next u ∧ u.mem = s.mem ∧ u.flight = s.flight ∧ u.cores = s.cores ∧
      (pkgAt u pkg).failed = link :: g.failed ∧ told u ∧ ∀ q, q ≠ pkg → pkgAt u q = pkgAt s q) ∧
    (real → laneState s pkg lane = 0 → max ≠ 0 → max < count → ∃ u, exec (.laneErrorWindow pkg lane count) s = .next u ∧
      (busy < 2 → lane ∉ (pkgAt u pkg).laneWait) ∧ (2 ≤ busy → lane ∈ (pkgAt u pkg).laneWait)) ∧
    (real → writes (.laneErrorWindow pkg lane count) (Nat.min count 65535 * 2 ^ 48 + nbits w 40 8 * 2 ^ 40 +
      if laneState s pkg lane = 0 ∧ max ≠ 0 ∧ max < count ∧ busy < 2 then 1 else laneState s pkg lane) g.failed) ∧
    (laneState s pkg lane ≠ 1 → ∀ pass, exec (.laneRetrainDone pkg lane pass) s = .next s) ∧
    (∀ l, real → max ≠ 0 → laneState s pkg lane = 1 → g.laneWait = [l] → l ∈ laneMates lane → l ≠ lane → laneState s pkg l = 0 →
      ∃ u, exec (.laneRetrainDone pkg lane true) s = .next u ∧ laneState u pkg lane = 0 ∧ laneState u pkg l = 1 ∧ (pkgAt u pkg).laneWait = []) ∧
    (real → laneState s pkg lane = 1 → max = 0 ∨ (∀ l ∈ g.laneWait, l ∉ laneMates lane) → writes (.laneRetrainDone pkg lane true) 0 g.failed ∧
      (nbits w 40 8 < 2 → writes (.laneRetrainDone pkg lane false) (nbits w 48 16 * 2 ^ 48 + (nbits w 40 8 + 1) * 2 ^ 40 + 1) g.failed) ∧
      (2 = nbits w 40 8 → (∃ l ∈ laneMates lane, l ≠ lane ∧ laneState s pkg l ≠ 2) →
        writes (.laneRetrainDone pkg lane false) (nbits w 48 16 * 2 ^ 48 + 3 * 2 ^ 40 + 2) g.failed ∧
        ∃ u, exec (.laneRetrainDone pkg lane false) s = .next u ∧ (pkgAt u pkg).laneNotes = g.laneNotes ++ [lane]))) ∧
  (∀ (s : State) (k : Nat) (p : Packet),
    let g := pkgAt s (pkgOf p.src)
    let draining := ∃ e ∈ g.gens, e.gen = p.gen
    exec (.flitRetransmit k) s = .next s ∧ exec (.endToEndCheckFailure k) s = .next s ∧
    (s.flight[k]? = some p → p.near = false → ∃ u, exec (.escapeChannelDivert k) s = .next u ∧ u.mem = s.mem ∧
      u.cores = s.cores ∧ u.flight[k]? = some { p with esc := true } ∧ ∀ j : Nat, j ≠ k → u.flight[j]? = s.flight[j]?) ∧
    (s.flight[k]? = some p → p.near = true → exec (.escapeChannelDivert k) s = .next s ∧ exec (.packetLost k) s = .next s) ∧
    (s.flight[k]? = some p → p.near = false → p.hasWay s = false → exec (.packetDelivery k) s = .next s) ∧
    (s.flight[k]? = some p → ¬draining → exec (.packetLost k) s = .next s) ∧
    (s.flight[k]? = some p → p.near = false → draining → ∃ u, exec (.packetLost k) s = .next u ∧ u.mem = s.mem ∧
      u.cores = s.cores ∧ u.flight = s.flight.eraseIdx k ∧ u.keptReq.length = s.keptReq.length ∧
      ∀ (j : Nat) (q : Packet), s.keptReq[j]? = some q → ∃ x, u.keptReq[j]? = some { q with gen := x } ∧ (x = q.gen ∨ x = g.gen) ∧ (q = p → x = g.gen)))

/-- R171: an INTENT takes its place in crier order. Once no earlier commit is open, staged tables that the checker refuses leave STATUS 3 with the reason
and no GEN message; tables that it accepts send GEN with cause 1. An earlier commit is open until its package, heard, has applied its INTENT and has
installed or refused it. -/
def Obligations.CommitsAreChecked : Prop :=
  ∀ (s : State) (pkg : Nat) (m : CMsg),
    let g := pkgAt s pkg
    let i := Instr.commitCheck pkg
    let due := heard s pkg = true ∧ fabStatus s pkg = 1 ∧ hasIntent s pkg = true ∧ g.commitBy = none ∧ openBefore s pkg = []
    (nextCrier s pkg = some m → m.kind = 8 → ∃ u, exec (.crierIntent pkg) s = .next u ∧ u.mem = s.mem ∧ u.cores = s.cores ∧
      pkgAt u pkg = { g with
        applied := g.applied + 1
        intents := g.intents ++ [(8 * (pkg / 8) + m.pos, m.seq)] }) ∧
    (¬due → exec i s = .next s) ∧
    (due → refuseReason s pkg ≠ 0 → Memory.wf s.mem = true → ∃ u, exec i s = .next u ∧ u.cores = s.cores ∧
      Stored s u (sliceKey (fabricCore pkg) 0x410008) 8 (3 + 256 * refuseReason s pkg) ∧ (pkgAt u pkg).queue = g.queue ∧
      hasIntent u pkg = false) ∧
    (due → refuseReason s pkg = 0 → ∃ u n, exec i s = .next u ∧ u.mem = s.mem ∧ u.cores = s.cores ∧ (pkgAt u pkg).commitBy = some pkg ∧
      (pkgAt u pkg).queue = g.queue ++ [n] ∧ n.kind = 5 ∧ n.body = [1, 0]) ∧
    openBefore s pkg = (g.intents.takeWhile fun e => e.1 != pkg).filter (fun e => heard s e.1 &&
      (decide ((pkgAt s e.1).applied ≤ e.2) || (pkgAt s e.1).intents.contains e))

/-! ## Crier -/

/-- R161, R163, R167: R162: the holder of the token sends its first four messages, or as many fewer as it has sent on this visit, numbered in crier order,
a GEN naming the generation that it will open, and passes the token to the next member; a GEN message that must wait lets the later ones pass. A
silent holder is skipped: the next live position takes the token, marks it absent with a MEMBER message and opens a generation. A message with a check
error holds back the later ones until it has come again. The model's choices in it: log 59. -/
def Obligations.CrierToken : Prop :=
  ∀ (s : State) (pod pkg x : Nat) (m : CMsg) (q : List CMsg),
    let t := podAt s pod
    let h := 8 * pod + t.holder
    let n := 4 - t.visit
    let i := Instr.crierTokenFrame pod
    let sends (out rest : List CMsg) := ∃ u, exec i s = .next u ∧ u.mem = s.mem ∧ u.flight = s.flight ∧ (pkgAt u h).queue = rest ∧
      podAt u pod = { t with
        seq := t.seq + out.length
        sent := t.sent ++ numberMsgs (nextGen s h) t.seq out
        holder := nextPos t.members t.holder
        visit := 0 }
    (heard s h = false → exec i s = .next s) ∧
    (heard s h = true → (pkgAt s h).queue = q → (∀ y ∈ q, y.kind ≠ 5) → sends (q.take n) (q.drop n)) ∧
    (heard s h = true → (pkgAt s h).queue = m :: q → m.kind = 5 → (∀ y ∈ q, y.kind ≠ 5) →
      (genWaits s h = true → sends (q.take n) (m :: q.drop n)) ∧
      (genWaits s h = false → 1 ≤ n → sends (m :: q.take (n - 1)) (q.drop (n - 1)))) ∧
    (∀ y : CMsg, y.kind = 5 → nameGen x y = { y with
      val := BitVec.ofNat 64 x
      body := [y.body.headD 0, x] }) ∧
    nextGen s pkg = ((pkgAt s pkg).gen + (((podAt s (pkg / 8)).sent.drop (pkgAt s pkg).applied).filter fun y => y.kind == 5).length + 1) % 65536 ∧
    (heard s h = true → exec (.crierSilentHolder pod) s = .next s) ∧
    (heard s h = false → (((List.range 8).map fun y => (t.holder + 1 + y) % 8).find? fun y => heard s (8 * pod + y)) = some x →
      ∃ u n g, exec (.crierSilentHolder pod) s = .next u ∧ u.mem = s.mem ∧ u.cores = s.cores ∧ (podAt u pod).sent = t.sent ++ [n] ∧
        n.seq = t.seq ∧ n.kind = 7 ∧ n.pos = x ∧ n.body = [t.holder, 0] ∧ (podAt u pod).seq = t.seq + 1 ∧ (podAt u pod).holder = x ∧ (podAt u pod).visit = 1 ∧
        (podAt u pod).members = (t.members.filter fun y => y != t.holder) ∧
        (pkgAt u (8 * pod + x)).queue = (pkgAt s (8 * pod + x)).queue ++ [g] ∧ g.kind = 5 ∧ g.body.head? = some 2) ∧
    ((pkgAt s pkg).missing = none → nextCrier s pkg = some m → ∃ u, exec (.crierResendRequest pkg) s = .next u ∧ u.mem = s.mem ∧
      u.pods = s.pods ∧ nextCrier u pkg = none ∧ exec (.crierResendRequest pkg) u = .next (setPkg u pkg (pkgAt s pkg)))

/-- R164, R162, R46, R222: what a package does with the next message in crier order: a CRY.ST or CRY.ADD of the current incarnation writes its mirror word
and sets the granule full, and CRY.ADD and CRY.MARK answer their issuer; a stale one has no effect; a barrier arrival marks its member and ends the
phase when it is the last; a market message is kept for the interval; a kind of 9 or more is recorded in the black box. The model's choices in it:
logs 60, 73 and 77. -/
def Obligations.CrierApplies : Prop :=
  ∀ (s : State) (pkg : Nat) (m : CMsg),
    let g := pkgAt s pkg
    let key := mirrorKey pkg m.part m.poff
    let w := Memory.read s.mem key 8
    let now := curInc s pkg m = true
    let next (u : State) := (pkgAt u pkg).applied = g.applied + 1
    let none_ (i : Instr) := ∃ u, exec i s = .next u ∧ next u ∧ u.mem = s.mem ∧ u.full = s.full ∧ u.cores = s.cores ∧ u.bars = s.bars
    let there (a : Access) := m.acc = some a ∧ pkgOf a.core = pkg
    let bk := barKey (16384 * pkg) .pod m.poff
    let b := barAt s bk
    let counts := now ∧ barEn b = true ∧ m.pos ∈ b.mask ∧ m.pos ∉ b.arrived
    let bar (P : Barrier → Prop) := ∃ u, exec (.crierBarrierArrival pkg) s = .next u ∧ next u ∧ u.mem = s.mem ∧ P (barAt u bk)
    let box := svcWord s pkg 0x30000 8 % 32768
    nextCrier s pkg = some m → Memory.wf s.mem = true →
      (m.kind = 0 → now → ∃ u, exec (.crierStApplied pkg) s = .next u ∧ next u ∧ Stored s u key 8 m.val.toNat ∧ isFull u key = true ∧ u.cores = s.cores) ∧
      (m.kind = 0 → ¬now → none_ (.crierStApplied pkg)) ∧ (m.kind = 1 → ¬now → none_ (.crierAddApplied pkg)) ∧
      (m.kind = 2 → ¬now → none_ (.crierMarkApplied pkg)) ∧
      (m.kind = 1 → now → ∃ u, next u ∧ Stored s u key 8 (w + m.val.toNat) ∧ isFull u key = true ∧ u.cores = s.cores ∧
        (∀ a, there a → exec (.crierAddApplied pkg) s = .next (deliver u ⟨a, .data (BitVec.ofNat 1024 w), allBits, [], g.mvec⟩)) ∧
        ((∀ a, ¬there a) → exec (.crierAddApplied pkg) s = .next u)) ∧
      (m.kind = 2 → now → ∃ u, next u ∧ u.mem = s.mem ∧ u.full = s.full ∧ u.cores = s.cores ∧
        (∀ a, there a → exec (.crierMarkApplied pkg) s = .next (deliver u ⟨a, .data (BitVec.ofNat 1024 m.seq), allBits, [], g.mvec⟩)) ∧
        ((∀ a, ¬there a) → exec (.crierMarkApplied pkg) s = .next u)) ∧
      (m.kind = 3 → ¬counts → bar fun c => c.phase = b.phase ∧ c.arrived = b.arrived) ∧
      (m.kind = 3 → counts → (∃ x ∈ b.mask, x ≠ m.pos ∧ x ∉ b.arrived) → bar fun c => c.phase = b.phase ∧ c.arrived = m.pos :: b.arrived) ∧
      (m.kind = 3 → counts → (∀ x ∈ b.mask, x = m.pos ∨ x ∈ b.arrived) → b.pending = false → stalledBarrs s bk = [] →
        bar fun c => c.phase = (b.phase + 1) % 65536 ∧ c.arrived = []) ∧
      (m.kind = 4 → ∃ u, exec (.crierMarket pkg) s = .next u ∧ u.mem = s.mem ∧ u.cores = s.cores ∧ pkgAt u pkg = { g with
        applied := g.applied + 1
        market := g.market ++ [(m.pos, m.body.getD 0 0, Nat.min 15000 (m.body.getD 1 0), m.body.getD 2 0, m.body.getD 3 0)] }) ∧
      (9 ≤ m.kind → svcWord s pkg 0x30008 8 % 2 = 0 → ∃ u, exec (.crierUnknownKind pkg) s = .next u ∧ next u ∧ u.cores = s.cores ∧
        svcWord u pkg 0x30000 8 = (box + 1) % 32768 ∧ svcWord u pkg (0x200000 + 32 * box + 8) 8 = 0x0103 + 65536 * 4 ∧
        svcWord u pkg (0x200000 + 32 * box + 16) 8 = m.kind % wordMod ∧ svcWord u pkg (0x200000 + 32 * box + 24) 8 = m.seq % wordMod)

/-- R166, R167, R168, R123, R171: a GEN message takes its package to the next generation, which sends again what it keeps under it, and the committing
package installs its tables at that instant; a generation that has drained is told of once; it closes when every live member's DRAINED has been
applied, or when a MEMBER message marks absent the last one awaited; a MEMBER message that admits a package lets it go on from the sender's
generation, interval, market messages and open commits, and the service die of a live package sends such a message and opens a generation with cause
2. The model's choices in it: logs 40 and 59. -/
def Obligations.GenerationsGo : Prop :=
  ∀ (s : State) (pkg p : Nat) (m : CMsg) (e : GenSt),
    let g := pkgAt s pkg
    let new := (g.gen + 1) % 65536
    let mine := m.pos = pkg % 8 ∧ m.body.headD 0 = 1
    let kept := s.keptReq.filter fun q => pkgOf q.src == pkg && !dieDead s (dieOf q.src)
    let next := nextCrier s pkg = some m
    let t := setPkg s pkg { g with applied := g.applied + 1 }
    let closed (u : State) (x : Nat) := ∀ f ∈ (pkgAt u pkg).gens, f.gen ≠ x
    (next → m.kind = 5 → Memory.wf s.mem = true → ∃ u, exec (.crierGen pkg) s = .next u ∧ u.cores = s.cores ∧ (pkgAt u pkg).gen = new ∧
      (pkgAt u pkg).applied = g.applied + 1 ∧ (pkgAt u pkg).gens = g.gens ++ [⟨g.gen, [], false⟩] ∧
      u.flight = s.flight ++ (kept.map fun q => { q with gen := new }) ∧ (¬mine → u.mem = s.mem) ∧
      (mine → fabWord u pkg 0x410008 = 2 + 2 ^ 48 * new ∧ ∀ off, off < 0xCF8 → fabWord u pkg (0x10000 + off) = fabWord s pkg off)) ∧
    ((∀ x ∈ g.gens, x.sent = true ∨ drainedNow s pkg x.gen = false) → exec (.drainedSend pkg) s = .next s) ∧
    ((g.gens.find? fun x => !x.sent && drainedNow s pkg x.gen) = some e → heard s pkg = true → ∃ u n, exec (.drainedSend pkg) s = .next u ∧
      u.mem = s.mem ∧ u.cores = s.cores ∧ (pkgAt u pkg).queue = g.queue ++ [n] ∧ n.kind = 6 ∧ n.val = BitVec.ofNat 64 e.gen ∧
      ∀ x ∈ (pkgAt u pkg).gens, x.gen = e.gen → x.sent = true) ∧
    (next → m.kind = 6 → e ∈ g.gens → e.gen = m.val.toNat → (∀ x ∈ membersSeen s pkg, x = m.pos ∨ x ∈ e.drained) →
      ∃ u, exec (.crierDrained pkg) s = .next u ∧ closed u e.gen) ∧
    (next → m.kind = 6 → (∀ x ∈ g.gens, ∃ y ∈ membersSeen s pkg, y ≠ m.pos ∧ y ∉ x.drained) → ∃ u, exec (.crierDrained pkg) s = .next u ∧
      u.mem = s.mem ∧ u.cores = s.cores ∧ u.flight = s.flight ∧ (pkgAt u pkg).gens.map (fun x => x.gen) = g.gens.map (fun x => x.gen) ∧
      ∀ x ∈ (pkgAt u pkg).gens, x.gen = m.val.toNat → m.pos ∈ x.drained) ∧
    (next → m.kind = 7 → m.body = [p, 0] → e ∈ g.gens → (∀ x ∈ membersSeen t pkg, x ∈ e.drained) → ∃ u, exec (.crierMember pkg) s = .next u ∧
      closed u e.gen) ∧
    (next → m.kind = 7 → m.body = [p, 1] → p ∉ members s (pkg / 8) → g.gens = [] → Memory.wf s.mem = true → ∃ u, exec (.crierMember pkg) s = .next u ∧
      Stored s u (sliceKey (serviceCore (pkg / 8 * 8 + p)) 0xE010) 8 (svcWord s pkg 0xE010 8) ∧
      u.cores = s.cores ∧ members u (pkg / 8) = p :: members s (pkg / 8) ∧ (pkgAt u (pkg / 8 * 8 + p)).gen = g.gen ∧
      (pkgAt u (pkg / 8 * 8 + p)).applied = g.applied + 1 ∧ (pkgAt u (pkg / 8 * 8 + p)).market = g.market ∧
      (pkgAt u (pkg / 8 * 8 + p)).intents = g.intents.filter fun e => e.1 != pkg / 8 * 8 + p) ∧
    (heard s pkg = true → p < 8 → p ∉ members s (pkg / 8) → dieDead s (16 * (pkg / 8 * 8 + p) + 8) = false →
      ∃ a b, (pkgAt (sendAdmit s pkg p) pkg).queue = g.queue ++ [a, b] ∧ a.kind = 7 ∧ a.body = [p, 1] ∧ b.kind = 5 ∧ b.body.head? = some 2)

/-! ## Control words, stops and resets -/

/-- R219, R45, R43, R60, R209, R220, R221, R224, R171, R229, R212: what an 8-byte store of the supervisor to a control word does: a word that keeps its
rule takes the value, one that breaks it raises RESFIELD and changes nothing; the incarnation of a partition is ignored on write; the stop word takes
STOP, GO and RESET as R219's table says. The model's choices in it: logs 27 and 28. -/
def Obligations.ControlStoresAct : Prop :=
  ∀ (s : State) (n p v : Nat),
    let st (off : Nat) := ctlStore s true 0 n off (toBytes 8 v)
    let takes (off w : Nat) := (st off).1 = 0 ∧ Stored s (st off).2 (sliceKey n off) 8 w ∧ (st off).2.cores = s.cores ∧ (st off).2.bars = s.bars
    let refuses (off : Nat) := st off = (fRESFIELD, s)
    let rule (off : Nat) (ok : Prop) := (ok → takes off v) ∧ (¬ok → refuses off)
    let pkg := pkgOf n
    let stp := 0x40 * p + 8
    v < wordMod → Memory.wf s.mem = true →
      (isWorker n = true →
        (∀ c, c < 64 → rule (0x410000 + 8 * c) (nbits v 15 16 = 0 ∧ nbits v 44 4 ≤ 8)) ∧ rule 0x410200 (v < 65536) ∧
        rule 0x410300 (v % 4096 = 0 ∧ v + 146944 ≤ 0x300000)) ∧
      (n % 16384 = 8256 → p < 24 →
        (nbits v 46 17 = 0 ∧ nbits v 38 2 = 0 ∧ nbits v 5 11 = 0 → takes (0x40 * p) (v / 2 ^ 32 * 2 ^ 32 + partInc s pkg p * 65536 + v % 65536)) ∧
        (nbits v 46 17 ≠ 0 ∨ nbits v 38 2 ≠ 0 ∨ nbits v 5 11 ≠ 0 → refuses (0x40 * p)) ∧
        (∀ i, 2 ≤ i → i < 8 → rule (0x40 * p + 8 * i) (v = 0)) ∧
        (4 ≤ v → refuses stp) ∧ (v = 2 → stopState s pkg p ≠ 2 → refuses stp) ∧
        (v = 0 → st stp = (0, s)) ∧ (v = 1 → stopState s pkg p ≠ 0 → st stp = (0, s)) ∧ (v = 3 → stopState s pkg p = 3 → st stp = (0, s)) ∧
        (v = 1 → stopState s pkg p = 0 → st stp = (0, stopPart s pkg p)) ∧
        (v = 2 → stopState s pkg p = 2 → (st stp).1 = 0 ∧ stopState (st stp).2 pkg p = 0) ∧
        (v = 3 → stopState s pkg p ≠ 3 → st stp = (0, resetPart s pkg p))) ∧
      (n % 16384 = 8256 → (v ≠ 1 → refuses 0xE018 ∧ refuses 0x30010) ∧
        (v = 1 → (st 0x30010).1 = 0 ∧ Stored s (st 0x30010).2 (sliceKey n 0x30008) 8 0) ∧
        (∀ j, j < 65536 → rule (0x100000 + 8 * j) (v = 0))) ∧
      (n % 16384 = 8224 → rule 0x410100 (v < 2 ^ 32) ∧ rule 0x410010 (v < 128) ∧ (v ≠ 1 ∨ fabStatus s pkg = 1 → refuses 0x410000) ∧
        (v = 1 → fabStatus s pkg ≠ 1 → (st 0x410000).1 = 0 ∧ fabStatus (st 0x410000).2 pkg = 1 ∧
          ∃ m, (pkgAt (st 0x410000).2 pkg).queue = (pkgAt s pkg).queue ++ [m] ∧ m.kind = 8))

/-- R205, R219, R320, R212: a stop is complete once no REPLAY is left in a dispatch engine of the partition: it is stopped, and one RPLY message tells
SUPCORE, with the stop word's address and 1; a reset that is complete makes it running, and tells SUPCORE with 2; of a partition with EN = 0 no notice
arises. R211, R212: what the reset of a partition leaves in each of its cores: every context free, no accepted message, task, mailbox entry, upcall or
notice, no reply reservation, no engine command, every accumulator and both planes of the Mill invalid, %SQLIM 32, %SQNOTE 0, every %SEED loaded; the
registers of a context keep their values, and its incarnation has moved on. -/
def Obligations.StopsAndResets : Prop :=
  (∀ (s : State) (pkg p : Nat),
    let cs := partCores s pkg p
    let quietly (i : Instr) (state : Nat) := ∃ u, exec i s = .next u ∧ stopState u pkg p = state ∧ u.flight = s.flight
    let tells (i : Instr) (state what : Nat) := ∃ u q m, exec i s = .next u ∧ stopState u pkg p = state ∧ u.flight = s.flight ++ [q] ∧
      q.body = .msg m ∧ q.net = .rply ∧ q.src = serviceCore pkg ∧ q.dst = supCoreOf s pkg p ∧ m.kind = .unreserved ∧ m.cls = partNclass s pkg p ∧
      m.narg = 2 ∧ m.args = [coreAdr s (supCoreOf s pkg p) (serviceCore pkg) ||| BitVec.ofNat 64 (0x40 * p + 8), BitVec.ofNat 64 what, 0, 0, 0, 0, 0, 0]
    Memory.wf s.mem = true → p < 24 →
      (stopState s pkg p ≠ 1 → exec (.stopComplete pkg p) s = .next s) ∧
      ((∃ n ∈ cs, replaysLeft s n = true) → exec (.stopComplete pkg p) s = .next s) ∧
      (stopState s pkg p = 1 → (∀ n ∈ cs, replaysLeft s n = false ∧ (coreAt s n).saved = true) →
        if partEn s pkg p = true then tells (.stopComplete pkg p) 2 1 else quietly (.stopComplete pkg p) 2) ∧
      (stopState s pkg p ≠ 3 → exec (.resetComplete pkg p) s = .next s) ∧
      (stopState s pkg p = 3 → if partEn s pkg p = true then tells (.resetComplete pkg p) 0 2 else quietly (.resetComplete pkg p) 0)) ∧
  (∀ (s : State) (pkg p n c : Nat),
    let u := resetPart s pkg p
    Memory.wf s.mem = true → p < 24 → n ∈ partCores s pkg p →
      let k := coreAt u n
      let t := ctxAt u n c
      partInc u pkg p = (partInc s pkg p + 1) % 65536 ∧ stopState u pkg p = 3 ∧
      t.st = .free ∧ (∀ r, t.rx r = (ctxAt s n c).rx r) ∧ (∀ r, t.rv r = (ctxAt s n c).rv r) ∧ (∀ r, t.rp r = (ctxAt s n c).rp r) ∧
      t.seed = (Ctx.reset n c).seed ∧ k.inbox = [] ∧ k.deque = [] ∧ k.upcalls = [] ∧ k.noticeHeld = [] ∧ k.mboxes = [] ∧ k.resv = [] ∧
      k.copyq = [] ∧ k.dispq = [] ∧ k.mill.inbox = [] ∧ k.mill.bad = [0, 1, 2, 3] ∧ k.mill.active.valid = false ∧ k.mill.shadow.valid = false ∧
      k.sqlim = 32 ∧ k.sqnote = 0)

/-! ## Service die -/

/-- R222: grants. When the asks do not exceed the limit, each gets what it asks; else the grants sum to the limit, none exceeds its ask, and at one whole
level each is the ask or the level, a watt more for the first of those below their asks; at the end of an interval each live package's GRANT is its
grant, INTERVAL goes on, and its message of kind 4 carries the interval, an ask of at most 15,000 W and a draw of at most that and of at most the
grant; messages of the interval that begins stay. R11, R223: settings are lowered, as far as they go, until what the package would draw fits its grant
and 15 kW. An interval ends only when the live members have the same messages of the same interval. The model's choices in it: log 77. -/
def Obligations.MarketGrants : Prop :=
  (∀ (asks : List Nat) (limit : Nat), asks.length ≤ 8 → (∀ a ∈ asks, a ≤ 15000) →
    (asks.sum ≤ limit → grants asks limit = asks) ∧
    (limit < asks.sum → (grants asks limit).sum = limit ∧ (grants asks limit).length = asks.length ∧
      ∃ l, (∀ (i a g : Nat), asks[i]? = some a → (grants asks limit)[i]? = some g → g ≤ a ∧ (g = Nat.min a l ∨ g = l + 1)) ∧
        ∀ (i j a : Nat), i < j → asks[i]? = some a → l < a → (grants asks limit)[j]? = some (l + 1) → (grants asks limit)[i]? = some (l + 1))) ∧
  ∀ (s : State) (pod x : Nat),
    (∀ y z, y ∈ liveMembers s pod → z ∈ liveMembers s pod → interval s (8 * pod + y) ≠ interval s (8 * pod + z) ∨
      marketNow s (8 * pod + y) ≠ marketNow s (8 * pod + z) → exec (.marketInterval pod) s = .next s) ∧
    (marketAgrees s pod = true → x ∈ liveMembers s pod → Memory.wf s.mem = true → ∃ u m,
    let pkg := 8 * pod + x
    let n := svcWord s pkg 0xE010 8 + 1
    exec (.marketInterval pod) s = .next u ∧ u.cores = s.cores ∧ u.flight = s.flight ∧ svcWord u pkg 0xE008 8 = grantOf s pkg % wordMod ∧
      svcWord u pkg 0xE010 8 = n % wordMod ∧ (pkgAt u pkg).market = (pkgAt s pkg).market.filter (fun y => y.2.1 == n % 4294967296) ∧ (pkgAt u pkg).queue = (pkgAt s pkg).queue ++ [m] ∧ m.kind = 4 ∧
      m.body.headD 0 = n % 4294967296 ∧ m.body.getD 1 0 ≤ 15000 ∧ m.body.getD 2 0 ≤ 15000 ∧
      (svcWord s pkg 0xE010 8 ≠ 0 → m.body.getD 2 0 ≤ svcWord s pkg 0xE008 8) ∧
      ∀ f t, lowering s pkg (grantOf s pkg) f = t → t < 84 + 84 * (gangsOf s pkg).length →
        Config.wouldDraw pkg f (quadSettings s pkg (grantOf s pkg) f t) ≤ Nat.min 15000 (grantOf s pkg))

/-- R224, R225, R226, R228: the service die's work. An energy update changes the counters of the jobs that had work and no other byte of memory. A boot
whose image checks places it in the Granary, starts every supervisor core at its entry and extends the measurement log, once; one whose image does not
check counts a failure and starts none. An attestation answers with the log signed over the nonce. A whole aligned host write becomes one message, any
other is discarded and counted; a host read of the upper window gives bytes of the port's response area. Scrubs change nothing; telemetry and monitors
make reports, which change nothing else; a margin replan raises no quad's highest setting. The model's choices in it: logs 20 and 21. -/
def Obligations.ServiceWorks : Prop :=
  ∀ (s : State) (pkg image c k off core quad : Nat) (nonce : BitVec 512) (data : List Byte) (m : Msg),
    let g := pkgAt s pkg
    let host := exec (.hostWindowWrite pkg k off data) s
    let open_ := k < 16 ∧ nbits (hostWord s pkg k) 63 1 = 1 ∧ off < 32768 ∧ dieDead s (16 * pkg + 8) = false
    let bytes := Config.bootImage image
    let d := Config.shake256 bytes
    let log := toBytes 64 (pkgAt s (pkgOf core)).mlog.toNat ++ ((pkgAt s (pkgOf core)).digests.flatMap fun d => toBytes 64 d.toNat) ++
      toBytes 64 nonce.toNat
    let base := Config.bootBase image % 8796093022208
    let place := granKey pkg base
    let tried := g.booted = true ∨ g.bootHeld = some image
    let counter (j : Nat) := sliceKey (serviceCore pkg) (0x100000 + 8 * j)
    let quiet (i : Instr) (telem : List (BitVec 64)) := ∃ u, exec i s = .next u ∧ u.mem = s.mem ∧ u.full = s.full ∧ u.cores = s.cores ∧ u.flight = s.flight ∧
      (pkgAt u pkg).telem = telem
    (Memory.wf s.mem = true → (∀ j ∈ jobsOf s pkg, j < 65536) → ∃ u, exec (.energyUpdate pkg) s = .next u ∧ u.full = s.full ∧
      u.flight = s.flight ∧ (∀ n, coreAt u n = { coreAt s n with work := (coreAt u n).work }) ∧
      (∀ j ∈ jobsOf s pkg, ∃ f, svcWord u pkg (0x100000 + 8 * j) 8 = (svcWord s pkg (0x100000 + 8 * j) 8 + (Config.energy pkg j f).toNat) % wordMod) ∧
      ∀ x, (∀ j ∈ jobsOf s pkg, x < counter j ∨ counter j + 8 ≤ x) → Memory.get u.mem x = Memory.get s.mem x) ∧
    (tried → exec (.boot pkg image) s = .next s) ∧
    (dieDead s (16 * pkg + 8) = false → ¬tried → Memory.wf s.mem = true → c < 32 → ∃ u, exec (.boot pkg image) s = .next u ∧ u.flight = s.flight ∧
      if Config.falconOk 0 bytes = true ∧ Config.fuseOk image = true then (pkgAt u pkg).booted = true ∧
        (base + bytes.length ≤ 8796093022208 → Memory.readBytes u.mem place bytes.length = bytes) ∧
        (∀ x, x < place ∨ place + bytes.length ≤ x → Memory.get u.mem x = Memory.get s.mem x) ∧
        (let t := ctxAt u (16384 * pkg + 8192 + c) 0
         t.st = .running ∧ t.sup = true ∧ t.pc = Config.bootEntry image) ∧
        (pkgAt u pkg).mlog = Config.shake256 (toBytes 64 g.mlog.toNat ++ toBytes 64 d.toNat) ∧ (pkgAt u pkg).digests = g.digests ++ [d]
      else u.cores = s.cores ∧ (pkgAt u pkg).mlog = g.mlog ∧ (pkgAt u pkg).digests = g.digests ∧
        (pkgAt u pkg).bootFails = g.bootFails % 3 + 1 ∧ (pkgAt u pkg).bootHeld = (if g.bootFails % 3 = 2 then some image else none)) ∧
    (isSupCore core = true → coreExists core = true → dieDead s (dieOf core) = false → ∃ u, exec (.attestationRequest core nonce) s = .next u ∧
      u.mem = s.mem ∧ u.cores = s.cores ∧
      (pkgAt u (pkgOf core)).attests = (pkgAt s (pkgOf core)).attests ++ [log ++ Config.falconSign (pkgOf core) log]) ∧
    (open_ → off % 256 = 0 → data.length = 256 → ∃ u q h, host = .next u ∧ u.mem = s.mem ∧ u.cores = s.cores ∧ u.flight = s.flight ++ [q] ∧
      q.body = .msg h ∧ h.kind = .host k ∧ h.cls = nbits (hostWord s pkg k) 56 6 ∧ h.dst = 16384 * pkg + 8192 + nbits (hostWord s pkg k) 48 5 ∧
      h.narg = 2 ∧ h.args.take 2 = [BitVec.ofNat 64 k, BitVec.ofNat 64 off] ∧ h.payload = data) ∧
    (open_ → off % 256 ≠ 0 ∨ data.length ≠ 256 → host = .next (setPkg s pkg { g with hostBad := g.hostBad + 1 })) ∧ (¬open_ → host = .next s) ∧
    (∀ w l, k < 16 → nbits (hostWord s pkg k) 63 1 = 1 → dieDead s (16 * pkg + 8) = false → 32768 ≤ w → w + l ≤ 65536 →
      hostRead s pkg k w l = some (Memory.readBytes s.mem (sliceKey (serviceCore pkg) (0x300000 + 0x8000 * k + (w - 32768))) l)) ∧
    (hostComing s pkg = true → exec (.hostRetry pkg) s = .next s) ∧
    (hostComing s pkg = false → g.hostHeld = [m] → ∃ u q, exec (.hostRetry pkg) s = .next u ∧ u.mem = s.mem ∧ u.cores = s.cores ∧
      u.flight = s.flight ++ [q] ∧ q.src = m.src ∧ q.dst = m.dst ∧ (pkgAt u pkg).hostHeld = []) ∧
    exec (.sramScrub core) s = .next s ∧ exec (.lpddr6Scrub pkg) s = .next s ∧
    quiet (.telemetry pkg) [Config.telemetry pkg s.free] ∧ quiet (.ageingMonitor pkg quad) (g.telem ++ [Config.telemetry pkg s.free]) ∧
    quiet (.marginReplan pkg) g.telem ∧ ∀ u q, exec (.marginReplan pkg) s = .next u → q < 2048 → quadTop u pkg q ≤ quadTop s pkg q

/-- R214, R215, R216, R229, R177, R204: errors and losses. An uncorrectable error in data that an access reads answers it with MCHECK and changes no
memory but the black box; in a dispatch engine it fails the command and tells the supervisor core; a sum that cannot be stored aborts its granule; a
draw beyond the limit, and an error in the service die's own state, freeze the black box; a die that loses its power loses its cores and what it keeps
but for contributions to rows of other dies' commands, and memory elsewhere stays. The model's choices in it: logs 41, 60 and 63. -/
def Obligations.ErrorsAndLosses : Prop :=
  ∀ (s : State) (pkg d k n i gran : Nat) (p : Packet) (a : Access) (c : DispCmd) (cs : List DispCmd) (x : RedSlot),
    let g := pkgAt s pkg
    let box := svcWord s pkg 0x30000 8 % 32768
    let die := 16 * pkg + d
    let boxOnly (u : State) (g : Nat) := ∀ y, ¬(sliceKey (serviceCore g) 0x30000 ≤ y ∧ y < sliceKey (serviceCore g) 0x30010) →
      ¬(sliceKey (serviceCore g) 0x200000 ≤ y ∧ y < sliceKey (serviceCore g) 0x300000) → Memory.get u.mem y = Memory.get s.mem y
    let msg (u : State) (src code : Nat) := ∃ q m, u.flight = s.flight ++ [q] ∧ q.body = .msg m ∧ q.src = src ∧ m.kind = .unreserved ∧ m.narg = 4 ∧
      m.args[1]? = some (BitVec.ofNat 64 code)
    (takeAt s k = .yes p → p.body = .access a → a.op.reads = true → stale s p = false → p.near = true → Memory.wf s.mem = true → mayApply (removeAt s k) a = true →
      dieOf a.home = dieOf a.core → unreachable s a.home (dieOf a.core) = false → a.slotted = true →
      ∃ u q r adr, exec (.memoryError k .data) s = .next u ∧ boxOnly u (pkgOf a.home) ∧ u.full = s.full ∧ u.cores = s.cores ∧ u.flight = s.flight.eraseIdx k ++ [q] ∧
        q.body = .reply r ∧ r.acc = a ∧ r.ans = .fault fMCHECK adr) ∧
    ((coreAt s n).dispq = c :: cs → c.bad = none → Memory.wf s.mem = true → ∃ u, exec (.memoryError n .dispatch) s = .next u ∧ boxOnly u (pkgOf n) ∧
      msg u n (fMCHECK + 256 * c.ctx + 8192) ∧ ∃ e ∈ (coreAt u n).dispq, e.bad.isSome = true ∧ e.started = true) ∧
    ((dieAt s d).slots[i]? = some x → d < 16384 → 4611686018427387904 ≤ x.page → gran < 4096 → (granAt x gran).ended = false → Memory.wf s.mem = true → x.page % 65536 = 0 →
      (x.attr + 32 ≤ x.page ∨ x.page + 65536 ≤ x.attr) → ∃ u, exec (.sumStoreError d i gran) s = .next u ∧ u.cores = s.cores ∧
      Memory.read u.mem (x.page + 16 * gran) 16 =
        (if x.bf16 then packElems 16 (List.replicate 8 0x7FC0) else packElems 32 (List.replicate 4 0x7FC0DEAD)) ∧
      memb u.aborted (x.page / 16 + gran) = true ∧ msg u (1024 * d) (fMCHECK + 8192)) ∧
    (g.dead = false → svcWord s pkg 0x30008 8 % 2 = 0 → Memory.wf s.mem = true → ∃ u, exec (.powerLimit pkg) s = .next u ∧ u.cores = s.cores ∧
      u.flight = s.flight ∧ svcWord u pkg 0x30008 8 = 1 ∧ svcWord u pkg 0x30000 8 = (box + 1) % 32768 ∧
      svcWord u pkg (0x200000 + 32 * box + 8) 8 = 0x0102 + 65536 * 4 + 16777216) ∧
    (g.dead = false → svcWord s pkg 0x30008 8 % 2 = 0 → Memory.wf s.mem = true → ∃ u, exec (.memoryError pkg .service) s = .next u ∧
      u.cores = s.cores ∧ u.flight = s.flight ∧ svcWord u pkg 0x30008 8 = 1 ∧ svcWord u pkg 0x30000 8 = (box + 1) % 32768 ∧
      svcWord u pkg (0x200000 + 32 * box + 8) 8 = fMCHECK + 65536 * 4 + 16777216 + 4294967296 * unitOf (serviceCore pkg)) ∧
    (d < 9 → ∃ u, exec (.powerLoss pkg d) s = .next u ∧ u.mem = s.mem ∧ u.full = s.full ∧ dieDead u die = true ∧
      (∀ e ∈ u.cores, dieOf e.1 ≠ die) ∧ (∀ e ∈ s.cores, dieOf e.1 ≠ die → e ∈ u.cores) ∧ (∀ h ∈ u.held, dieOf h.acc.home ≠ die) ∧
      ∀ q ∈ u.keptReq, dieOf q.src = die → ∃ r, q.body = .row r ∧ dieOf r.core ≠ die) ∧
    (9 ≤ d → ∃ u, exec (.powerLoss pkg d) s = .next u ∧ u.mem = s.mem ∧ (pkgAt u pkg).dead = true ∧ ∀ e, e < 9 → dieDead u (16 * pkg + e) = true)

/-! ## The machine as a whole -/

/-- R4, R31, R32, R35, R36, R96, R102, R110: one step of a core. The cycle begins, what can be dispatched is, contexts park that cannot go on, and the
context that R35 and R36 choose issues: when the parcels at the PC of a worker core decode to an instruction, the step is `exec` of it, in that
context; the two parcels of a 32-bit instruction lie one after the other, bits [31:16] at the lower address. A supervisor core fetches through its own
translation. A step that its schedule gives an event is `exec` of the event; one that it gives the service die's choice to take a package into the
Crier, or to send its first market message, is that. The model's choices in it: logs 42 and 59. -/
def Obligations.StepRunsDecoded : Prop :=
  ∀ (s : State) (n c q g p : Nat) (late : Bool) (r : List Pick) (i e : Instr) (len : Nat),
    let s0 := { s with
      free := s.free + 1
      sched := r }
    let s1 := (List.range 16).foldl (fun u c => parkDue (wakeRedo u n c) n c) (dispatchAll (beginCycle s0 n) n)
    let s2 := { noteIssue s1 n (eligible s1 n) c q with cur := ⟨n, c, late⟩ }
    let t := ctxAt s2 n c
    let parcel (k : Nat) : BitVec 16 := BitVec.ofNat 16 (Memory.read s2.mem (sliceKey n (0x400000 + t.pc.toNat + k)) 2)
    let clear := privStops t.sup i = true ∨ earlyRead t i = none
    let issues := coreExists n = true ∧ dieDead s (dieOf n) = false ∧ choose s1 n (eligible s1 n) = some (c, q) ∧
      (s.sched = .issue n late :: r ∨ (s.sched = [] ∧ r = [] ∧ late = false ∧ autoMove s0 = .core n))
    (issues → isSupCore n = false → (parcel 0).getLsbD 15 = false → t.pc.toNat ≤ 65534 → decode (parcel 0) 0 = .ok i → clear →
      step s = exec i s2) ∧
    (issues → isSupCore n = false → (parcel 0).getLsbD 15 = true → t.pc.toNat ≤ 65532 → decode (parcel 0) (parcel 2) = .ok i → clear →
      step s = exec i s2) ∧
    (issues → isSupCore n = true → fetchSup s2 n t.sup t.pc = .ok (.ok i) len → clear →
      step s = exec i (fetchKeep s2 n t.sup t.pc)) ∧
    (s.sched = .event e :: r → isEvent e = true → step s = exec e s0) ∧
    (s.sched = .enrol g p :: r → step s = .next (sendAdmit s0 g p)) ∧ (s.sched = .ask g :: r → step s = .next (firstAsk s0 g))

/-- R4, R98, R99, R100: words of the spec's entries decode to the instructions they stand for, some of each family. -/
def Obligations.DecodeWords : Prop :=
  decodeTableWord 32 0x8218C123 = some (.addi 0 6 6 0x123) ∧ decodeTableWord 32 0x92148984 = some (.bfx 0 5 4 38 4) ∧
  decodeTableWord 32 0x960C8506 = some (.sel 0 3 4 5 6) ∧ decodeTableWord 16 0x449E = some (.bnez 4 0x1E) ∧
  decodeTableWord 32 0x98485FFA = some (.bne 4 5 0xFFA) ∧ decodeTableWord 32 0x9DFFFFF8 = some (.jal 0x1FFFFF8) ∧
  decodeTableWord 32 0xA40C80FF = some (.ld 0 3 4 .b 0xFF) ∧ decodeTableWord 32 0xAE18A810 = some (.cas 0 6 5 8 true) ∧
  decodeTableWord 32 0xCE190740 = some (.gelim 0 3 2 3 true 2) ∧ decodeTableWord 32 0xD000E242 = some (.mstrm 0 0 7 2 false true 0) ∧
  decodeTableWord 32 0xD600C740 = some (.disp 0 0 6 7 4) ∧ decodeTableWord 32 0xE2000011 = some (.fence .full .core) ∧
  decodeTableWord 32 0xEA009016 = some (.swr 0 4 0x016) ∧ decodeTableWord 32 0xA2050006 = some (.resume 0 .skip 8)

/-- R4, R98, R99, R100, R102: decode and encode agree: every well-formed instruction, with every operand at every value that its encoding admits, is the
instruction that its parcels decode to. -/
def Obligations.DecodeInvertsEncode : Prop :=
  ∀ i : Instr, i.isCode = true → i.wf = true → decodeParcels (encode i) = .ok i

/-- R62, R67, R71: memory keeps its canonical form: if a step answers a next state from a canonical one, that state is canonical: addresses rise strictly,
and no byte is listed that reads as an unlisted one does. -/
def Obligations.StepsKeepMemory : Prop :=
  ∀ s t : State, Memory.wf s.mem = true → step s = .next t → Memory.wf t.mem = true

/-- R62, R43, R174, R219, R166, R31, R212, R38: what reset leaves, and what POWER_ON_RESET leaves from any state: memory canonical, every granule empty,
zero in every byte of every slice, BALINT 16, ERRMAX 100,000, no partition, every stop word running, %GEN 0, every context free, %SQLIM 32; Granary
data stays. The model's choices in it: log 1. -/
def Obligations.ResetLeaves : Prop :=
  let clean (u : State) := u.full = [] ∧ u.flight = [] ∧ (∀ n c, (ctxAt u n c).st = .free) ∧ (∀ n, (coreAt u n).sqlim = 32) ∧
    (∀ p, (pkgAt u p).gen = 0) ∧ (∀ n off, n < 16777216 → isWorker n = true → off < 0x400000 → Memory.get u.mem (sliceKey n off) = 0) ∧
    (∀ n, n < 16777216 → isWorker n = true → Memory.read u.mem (sliceKey n 0x410200) 8 = 16) ∧
    (∀ p, p < 1024 → fabWord u p 0x410100 = 100000) ∧
    ∀ p k, p < 1024 → k < 24 → partEn u p k = false ∧ stopState u p k = 0 ∧ partSup u p k = 0 ∧ partInc u p k = 0
  Memory.wf State.reset.mem = true ∧ clean State.reset ∧
  ∀ s : State, Memory.wf s.mem = true → ∃ u, exec .powerOnReset s = .next u ∧ Memory.wf u.mem = true ∧ clean u ∧
    ∀ a, 2 ^ 62 ≤ a → a < 2 ^ 63 → Memory.get u.mem a = Memory.get s.mem a
end

