-- ==== Sys2Proof/Laws/Memory.lean ====
section
/-! SUPPORT. Sys2Proof/Laws/Memory.lean: memory reads back what was written, a write leaves every other byte alone, and every
memory operation keeps the canonical form. -/

namespace Sys2Proof.Machine

/-- A byte below every listed address is unlisted. -/
theorem Memory.get_of_wfFrom {m : List Host.Cell} {lo a : Nat} (h : Memory.wfFrom lo m = true) (ha : a < lo) :
    Memory.get m a = unlisted a := by
  cases m with
  | nil => rfl
  | cons e r =>
    obtain ⟨k, b⟩ := e
    simp only [Memory.wfFrom, Bool.and_eq_true, decide_eq_true_eq] at h
    have h1 : k ≠ a := by omega
    have h2 : a < k := by omega
    simp [Memory.get, h1, h2]

theorem Memory.wfFrom_mono {m : List Host.Cell} {lo lo' : Nat} (h : Memory.wfFrom lo m = true) (hl : lo' ≤ lo) :
    Memory.wfFrom lo' m = true := by
  cases m with
  | nil => rfl
  | cons e r =>
    obtain ⟨k, b⟩ := e
    simp only [Memory.wfFrom, Bool.and_eq_true, decide_eq_true_eq] at h ⊢
    exact ⟨⟨by omega, h.1.2⟩, h.2⟩

theorem Memory.wfFrom_put {m : List Host.Cell} {lo a : Nat} (v : Byte) (h : Memory.wfFrom lo m = true) (ha : lo ≤ a) :
    Memory.wfFrom lo (Memory.put m a v) = true := by
  induction m generalizing lo with
  | nil =>
    unfold Memory.put
    split
    · rfl
    · next hv => simp [Memory.wfFrom, ha, hv]
  | cons e r ih =>
    obtain ⟨k, b⟩ := e
    simp only [Memory.wfFrom, Bool.and_eq_true, decide_eq_true_eq] at h
    unfold Memory.put
    split
    · next hk =>
      subst hk
      split
      · exact Memory.wfFrom_mono h.2 (by omega)
      · next hv => simp [Memory.wfFrom, ha, hv, h.2]
    · split
      · split
        · simp [Memory.wfFrom, h.1.1, h.1.2, h.2]
        · next hak hv =>
          simp only [Memory.wfFrom, Bool.and_eq_true, decide_eq_true_eq]
          exact ⟨⟨ha, by simpa using hv⟩, ⟨by omega, h.1.2⟩, h.2⟩
      · simp only [Memory.wfFrom, Bool.and_eq_true, decide_eq_true_eq]
        exact ⟨⟨h.1.1, h.1.2⟩, ih h.2 (by omega)⟩

/-- A write keeps the canonical form. -/
theorem Memory.wf_put {m : List Host.Cell} (a : Nat) (v : Byte) (h : Memory.wf m = true) : Memory.wf (Memory.put m a v) = true :=
  Memory.wfFrom_put v h (Nat.zero_le a)

theorem Memory.wf_putBytes {m : List Host.Cell} (a : Nat) (bs : List Byte) (h : Memory.wf m = true) :
    Memory.wf (Memory.putBytes m a bs) = true := by
  induction bs generalizing m a with
  | nil => exact h
  | cons b r ih => exact ih (a + 1) (Memory.wf_put a b h)

theorem Memory.wf_write {m : List Host.Cell} (a n v : Nat) (h : Memory.wf m = true) : Memory.wf (Memory.write m a n v) = true :=
  Memory.wf_putBytes a _ h

/-- Power-on memory lists nothing, and so has the form. -/
theorem Memory.wf_nil : Memory.wf [] = true := rfl

theorem Memory.get_put_same' {m : List Host.Cell} {lo : Nat} (a : Nat) (v : Byte) (h : Memory.wfFrom lo m = true) :
    Memory.get (Memory.put m a v) a = v := by
  induction m generalizing lo with
  | nil =>
    unfold Memory.put
    split
    · next hv => simp [Memory.get, hv]
    · simp [Memory.get]
  | cons e r ih =>
    obtain ⟨k, b⟩ := e
    simp only [Memory.wfFrom, Bool.and_eq_true, decide_eq_true_eq] at h
    unfold Memory.put
    split
    · next hk =>
      subst hk
      split
      · next hv => rw [Memory.get_of_wfFrom h.2 (by omega), hv]
      · simp [Memory.get]
    · next hk =>
      split
      · next hak =>
        split
        · next hv => simp [Memory.get, hk, hak, hv]
        · simp [Memory.get]
      · next hak => simp [Memory.get, hk, hak, ih h.2]

/-- A byte reads back as it was written. -/
theorem Memory.get_put_same {m : List Host.Cell} (a : Nat) (v : Byte) (h : Memory.wf m = true) :
    Memory.get (Memory.put m a v) a = v :=
  Memory.get_put_same' a v h

theorem Memory.get_put_other' {m : List Host.Cell} {lo a x : Nat} (v : Byte) (h : Memory.wfFrom lo m = true) (hx : x ≠ a) :
    Memory.get (Memory.put m a v) x = Memory.get m x := by
  induction m generalizing lo with
  | nil =>
    unfold Memory.put
    split
    · rfl
    · simp [Memory.get, Ne.symm hx]
  | cons e r ih =>
    obtain ⟨k, b⟩ := e
    simp only [Memory.wfFrom, Bool.and_eq_true, decide_eq_true_eq] at h
    unfold Memory.put
    split
    · next hk =>
      subst hk
      split
      · by_cases hlt : x < k
        · rw [Memory.get_of_wfFrom h.2 (by omega)]; simp [Memory.get, Ne.symm hx, hlt]
        · simp [Memory.get, Ne.symm hx, hlt]
      · simp [Memory.get, Ne.symm hx]
    · next hk =>
      split
      · next hak =>
        split
        · rfl
        · by_cases hxa : x < a
          · have h1 : k ≠ x := by omega
            have h2 : x < k := by omega
            simp [Memory.get, Ne.symm hx, hxa, h1, h2]
          · simp [Memory.get, Ne.symm hx, hxa]
      · simp only [Memory.get]
        split
        · rfl
        · split
          · rfl
          · exact ih h.2

/-- A write leaves every other byte alone. -/
theorem Memory.get_put_other {m : List Host.Cell} {a x : Nat} (v : Byte) (h : Memory.wf m = true) (hx : x ≠ a) :
    Memory.get (Memory.put m a v) x = Memory.get m x :=
  Memory.get_put_other' v h hx

theorem Memory.get_putBytes_outside {m : List Host.Cell} {a x : Nat} (bs : List Byte) (h : Memory.wf m = true)
    (hx : x < a ∨ a + bs.length ≤ x) : Memory.get (Memory.putBytes m a bs) x = Memory.get m x := by
  induction bs generalizing m a with
  | nil => rfl
  | cons b r ih =>
    simp only [List.length_cons] at hx
    simp only [Memory.putBytes]
    rw [ih (Memory.wf_put a b h) (by omega), Memory.get_put_other b h (by omega)]

theorem Memory.get_putBytes_inside {m : List Host.Cell} {a : Nat} (bs : List Byte) (h : Memory.wf m = true) (i : Nat)
    (hi : i < bs.length) : Memory.get (Memory.putBytes m a bs) (a + i) = bs[i] := by
  induction bs generalizing m a i with
  | nil => simp at hi
  | cons b r ih =>
    simp only [Memory.putBytes]
    cases i with
    | zero =>
      rw [Memory.get_putBytes_outside r (Memory.wf_put a b h) (by omega)]
      simpa using Memory.get_put_same a b h
    | succ i =>
      have := ih (a := a + 1) (Memory.wf_put a b h) i (by simpa using hi)
      rw [show a + (i + 1) = a + 1 + i by omega]
      simpa using this

@[simp] theorem toBytes_length (n v : Nat) : (toBytes n v).length = n := by
  induction n generalizing v with
  | zero => rfl
  | succ n ih => simp [toBytes, ih]

/-- A write of a number leaves every byte outside its own alone. -/
theorem Memory.get_write_outside {m : List Host.Cell} {a n x : Nat} (v : Nat) (h : Memory.wf m = true) (hx : x < a ∨ a + n ≤ x) :
    Memory.get (Memory.write m a n v) x = Memory.get m x :=
  Memory.get_putBytes_outside _ h (by simpa using hx)

/-- A number reads back as it was written, modulo its width. -/
theorem Memory.read_write_same {m : List Host.Cell} (a n v : Nat) (h : Memory.wf m = true) :
    Memory.read (Memory.write m a n v) a n = v % 256 ^ n := by
  induction n generalizing m a v with
  | zero => simp [Memory.read, Nat.mod_one]
  | succ n ih =>
    simp only [Memory.write, toBytes, Memory.putBytes, Memory.read]
    rw [Memory.get_putBytes_outside _ (Memory.wf_put a _ h) (by omega), Memory.get_put_same a _ h]
    have := ih (a := a + 1) (v := v / 256) (Memory.wf_put a (BitVec.ofNat 8 v) h)
    unfold Memory.write at this
    rw [this]
    rw [BitVec.toNat_ofNat, show (256 : Nat) ^ (n + 1) = 256 * 256 ^ n by rw [Nat.pow_succ, Nat.mul_comm], Nat.mod_mul]

/-- Canonical memories that read the same everywhere are equal. -/
theorem Memory.ext_from {m n : List Host.Cell} {lo : Nat} (hm : Memory.wfFrom lo m = true) (hn : Memory.wfFrom lo n = true)
    (h : ∀ a, lo ≤ a → Memory.get m a = Memory.get n a) : m = n := by
  induction m generalizing lo n with
  | nil =>
    cases n with
    | nil => rfl
    | cons e r =>
      obtain ⟨k, b⟩ := e
      simp only [Memory.wfFrom, Bool.and_eq_true, decide_eq_true_eq, bne_iff_ne] at hn
      have := h k hn.1.1
      simp [Memory.get] at this
      exact absurd this.symm hn.1.2
  | cons e r ih =>
    obtain ⟨k, b⟩ := e
    have hm' := hm
    simp only [Memory.wfFrom, Bool.and_eq_true, decide_eq_true_eq, bne_iff_ne] at hm
    cases n with
    | nil =>
      have := h k hm.1.1
      simp [Memory.get] at this
      exact absurd this hm.1.2
    | cons e' r' =>
      obtain ⟨k', b'⟩ := e'
      have hn' := hn
      simp only [Memory.wfFrom, Bool.and_eq_true, decide_eq_true_eq, bne_iff_ne] at hn
      have hk : k = k' := by
        rcases Nat.lt_trichotomy k k' with hlt | he | hlt
        · have := h k hm.1.1
          simp [Memory.get, show k' ≠ k by omega, hlt] at this
          exact absurd this hm.1.2
        · exact he
        · have := h k' hn.1.1
          simp [Memory.get, show k ≠ k' by omega, hlt] at this
          exact absurd this.symm hn.1.2
      subst hk
      have hb := h k hm.1.1
      simp [Memory.get] at hb
      subst hb
      congr 1
      refine ih hm.2 hn.2 fun a ha => ?_
      have := h a (by omega)
      simpa [Memory.get, show k ≠ a by omega, show ¬ a < k by omega] using this

theorem Memory.ext_get {m n : List Host.Cell} (hm : Memory.wf m = true) (hn : Memory.wf n = true)
    (h : ∀ a, Memory.get m a = Memory.get n a) : m = n := Memory.ext_from hm hn fun a _ => h a

end Sys2Proof.Machine
end

