-- ==== Sys2Proof/Laws/State.lean ====
section
/-! SUPPORT. Sys2Proof/Laws/State.lean: what the parts' updates leave alone, one lemma a field, and how a part that was set
reads back. -/

namespace Sys2Proof.Machine

@[simp] theorem setCore_sched (s : State) (n : Nat) (k : Core) : (setCore s n k).sched = s.sched := rfl
@[simp] theorem setCore_cur (s : State) (n : Nat) (k : Core) : (setCore s n k).cur = s.cur := rfl
@[simp] theorem setCore_serial (s : State) (n : Nat) (k : Core) : (setCore s n k).serial = s.serial := rfl
@[simp] theorem setCore_free (s : State) (n : Nat) (k : Core) : (setCore s n k).free = s.free := rfl
@[simp] theorem setCore_mem (s : State) (n : Nat) (k : Core) : (setCore s n k).mem = s.mem := rfl
@[simp] theorem setCore_full (s : State) (n : Nat) (k : Core) : (setCore s n k).full = s.full := rfl
@[simp] theorem setCore_dies (s : State) (n : Nat) (k : Core) : (setCore s n k).dies = s.dies := rfl
@[simp] theorem setCore_pkgs (s : State) (n : Nat) (k : Core) : (setCore s n k).pkgs = s.pkgs := rfl
@[simp] theorem setCore_pods (s : State) (n : Nat) (k : Core) : (setCore s n k).pods = s.pods := rfl
@[simp] theorem setCore_bars (s : State) (n : Nat) (k : Core) : (setCore s n k).bars = s.bars := rfl
@[simp] theorem setCore_roots (s : State) (n : Nat) (k : Core) : (setCore s n k).roots = s.roots := rfl
@[simp] theorem setCore_flows (s : State) (n : Nat) (k : Core) : (setCore s n k).flows = s.flows := rfl
@[simp] theorem setCore_flight (s : State) (n : Nat) (k : Core) : (setCore s n k).flight = s.flight := rfl
@[simp] theorem setCore_held (s : State) (n : Nat) (k : Core) : (setCore s n k).held = s.held := rfl
@[simp] theorem setCore_keptReq (s : State) (n : Nat) (k : Core) : (setCore s n k).keptReq = s.keptReq := rfl
@[simp] theorem setCore_keptRep (s : State) (n : Nat) (k : Core) : (setCore s n k).keptRep = s.keptRep := rfl
@[simp] theorem setCore_aborted (s : State) (n : Nat) (k : Core) : (setCore s n k).aborted = s.aborted := rfl

@[simp] theorem setCtx_sched (s : State) (n c : Nat) (t : Ctx) : (setCtx s n c t).sched = s.sched := rfl
@[simp] theorem setCtx_cur (s : State) (n c : Nat) (t : Ctx) : (setCtx s n c t).cur = s.cur := rfl
@[simp] theorem setCtx_serial (s : State) (n c : Nat) (t : Ctx) : (setCtx s n c t).serial = s.serial := rfl
@[simp] theorem setCtx_free (s : State) (n c : Nat) (t : Ctx) : (setCtx s n c t).free = s.free := rfl
@[simp] theorem setCtx_mem (s : State) (n c : Nat) (t : Ctx) : (setCtx s n c t).mem = s.mem := rfl
@[simp] theorem setCtx_full (s : State) (n c : Nat) (t : Ctx) : (setCtx s n c t).full = s.full := rfl
@[simp] theorem setCtx_dies (s : State) (n c : Nat) (t : Ctx) : (setCtx s n c t).dies = s.dies := rfl
@[simp] theorem setCtx_pkgs (s : State) (n c : Nat) (t : Ctx) : (setCtx s n c t).pkgs = s.pkgs := rfl
@[simp] theorem setCtx_pods (s : State) (n c : Nat) (t : Ctx) : (setCtx s n c t).pods = s.pods := rfl
@[simp] theorem setCtx_bars (s : State) (n c : Nat) (t : Ctx) : (setCtx s n c t).bars = s.bars := rfl
@[simp] theorem setCtx_roots (s : State) (n c : Nat) (t : Ctx) : (setCtx s n c t).roots = s.roots := rfl
@[simp] theorem setCtx_flows (s : State) (n c : Nat) (t : Ctx) : (setCtx s n c t).flows = s.flows := rfl
@[simp] theorem setCtx_flight (s : State) (n c : Nat) (t : Ctx) : (setCtx s n c t).flight = s.flight := rfl
@[simp] theorem setCtx_held (s : State) (n c : Nat) (t : Ctx) : (setCtx s n c t).held = s.held := rfl
@[simp] theorem setCtx_keptReq (s : State) (n c : Nat) (t : Ctx) : (setCtx s n c t).keptReq = s.keptReq := rfl
@[simp] theorem setCtx_keptRep (s : State) (n c : Nat) (t : Ctx) : (setCtx s n c t).keptRep = s.keptRep := rfl
@[simp] theorem setCtx_aborted (s : State) (n c : Nat) (t : Ctx) : (setCtx s n c t).aborted = s.aborted := rfl

@[simp] theorem setMe_sched (s : State) (t : Ctx) : (setMe s t).sched = s.sched := rfl
@[simp] theorem setMe_cur (s : State) (t : Ctx) : (setMe s t).cur = s.cur := rfl
@[simp] theorem setMe_serial (s : State) (t : Ctx) : (setMe s t).serial = s.serial := rfl
@[simp] theorem setMe_free (s : State) (t : Ctx) : (setMe s t).free = s.free := rfl
@[simp] theorem setMe_mem (s : State) (t : Ctx) : (setMe s t).mem = s.mem := rfl
@[simp] theorem setMe_full (s : State) (t : Ctx) : (setMe s t).full = s.full := rfl
@[simp] theorem setMe_dies (s : State) (t : Ctx) : (setMe s t).dies = s.dies := rfl
@[simp] theorem setMe_pkgs (s : State) (t : Ctx) : (setMe s t).pkgs = s.pkgs := rfl
@[simp] theorem setMe_pods (s : State) (t : Ctx) : (setMe s t).pods = s.pods := rfl
@[simp] theorem setMe_bars (s : State) (t : Ctx) : (setMe s t).bars = s.bars := rfl
@[simp] theorem setMe_roots (s : State) (t : Ctx) : (setMe s t).roots = s.roots := rfl
@[simp] theorem setMe_flows (s : State) (t : Ctx) : (setMe s t).flows = s.flows := rfl
@[simp] theorem setMe_flight (s : State) (t : Ctx) : (setMe s t).flight = s.flight := rfl
@[simp] theorem setMe_held (s : State) (t : Ctx) : (setMe s t).held = s.held := rfl
@[simp] theorem setMe_keptReq (s : State) (t : Ctx) : (setMe s t).keptReq = s.keptReq := rfl
@[simp] theorem setMe_keptRep (s : State) (t : Ctx) : (setMe s t).keptRep = s.keptRep := rfl
@[simp] theorem setMe_aborted (s : State) (t : Ctx) : (setMe s t).aborted = s.aborted := rfl

@[simp] theorem setMyCore_sched (s : State) (k : Core) : (setMyCore s k).sched = s.sched := rfl
@[simp] theorem setMyCore_cur (s : State) (k : Core) : (setMyCore s k).cur = s.cur := rfl
@[simp] theorem setMyCore_serial (s : State) (k : Core) : (setMyCore s k).serial = s.serial := rfl
@[simp] theorem setMyCore_free (s : State) (k : Core) : (setMyCore s k).free = s.free := rfl
@[simp] theorem setMyCore_mem (s : State) (k : Core) : (setMyCore s k).mem = s.mem := rfl
@[simp] theorem setMyCore_full (s : State) (k : Core) : (setMyCore s k).full = s.full := rfl
@[simp] theorem setMyCore_dies (s : State) (k : Core) : (setMyCore s k).dies = s.dies := rfl
@[simp] theorem setMyCore_pkgs (s : State) (k : Core) : (setMyCore s k).pkgs = s.pkgs := rfl
@[simp] theorem setMyCore_pods (s : State) (k : Core) : (setMyCore s k).pods = s.pods := rfl
@[simp] theorem setMyCore_bars (s : State) (k : Core) : (setMyCore s k).bars = s.bars := rfl
@[simp] theorem setMyCore_roots (s : State) (k : Core) : (setMyCore s k).roots = s.roots := rfl
@[simp] theorem setMyCore_flows (s : State) (k : Core) : (setMyCore s k).flows = s.flows := rfl
@[simp] theorem setMyCore_flight (s : State) (k : Core) : (setMyCore s k).flight = s.flight := rfl
@[simp] theorem setMyCore_held (s : State) (k : Core) : (setMyCore s k).held = s.held := rfl
@[simp] theorem setMyCore_keptReq (s : State) (k : Core) : (setMyCore s k).keptReq = s.keptReq := rfl
@[simp] theorem setMyCore_keptRep (s : State) (k : Core) : (setMyCore s k).keptRep = s.keptRep := rfl
@[simp] theorem setMyCore_aborted (s : State) (k : Core) : (setMyCore s k).aborted = s.aborted := rfl

@[simp] theorem setDie_sched (s : State) (d : Nat) (k : Die) : (setDie s d k).sched = s.sched := rfl
@[simp] theorem setDie_cur (s : State) (d : Nat) (k : Die) : (setDie s d k).cur = s.cur := rfl
@[simp] theorem setDie_serial (s : State) (d : Nat) (k : Die) : (setDie s d k).serial = s.serial := rfl
@[simp] theorem setDie_free (s : State) (d : Nat) (k : Die) : (setDie s d k).free = s.free := rfl
@[simp] theorem setDie_mem (s : State) (d : Nat) (k : Die) : (setDie s d k).mem = s.mem := rfl
@[simp] theorem setDie_full (s : State) (d : Nat) (k : Die) : (setDie s d k).full = s.full := rfl
@[simp] theorem setDie_cores (s : State) (d : Nat) (k : Die) : (setDie s d k).cores = s.cores := rfl
@[simp] theorem setDie_pkgs (s : State) (d : Nat) (k : Die) : (setDie s d k).pkgs = s.pkgs := rfl
@[simp] theorem setDie_pods (s : State) (d : Nat) (k : Die) : (setDie s d k).pods = s.pods := rfl
@[simp] theorem setDie_bars (s : State) (d : Nat) (k : Die) : (setDie s d k).bars = s.bars := rfl
@[simp] theorem setDie_roots (s : State) (d : Nat) (k : Die) : (setDie s d k).roots = s.roots := rfl
@[simp] theorem setDie_flows (s : State) (d : Nat) (k : Die) : (setDie s d k).flows = s.flows := rfl
@[simp] theorem setDie_flight (s : State) (d : Nat) (k : Die) : (setDie s d k).flight = s.flight := rfl
@[simp] theorem setDie_held (s : State) (d : Nat) (k : Die) : (setDie s d k).held = s.held := rfl
@[simp] theorem setDie_keptReq (s : State) (d : Nat) (k : Die) : (setDie s d k).keptReq = s.keptReq := rfl
@[simp] theorem setDie_keptRep (s : State) (d : Nat) (k : Die) : (setDie s d k).keptRep = s.keptRep := rfl
@[simp] theorem setDie_aborted (s : State) (d : Nat) (k : Die) : (setDie s d k).aborted = s.aborted := rfl

@[simp] theorem setPkg_sched (s : State) (p : Nat) (k : Pkg) : (setPkg s p k).sched = s.sched := rfl
@[simp] theorem setPkg_cur (s : State) (p : Nat) (k : Pkg) : (setPkg s p k).cur = s.cur := rfl
@[simp] theorem setPkg_serial (s : State) (p : Nat) (k : Pkg) : (setPkg s p k).serial = s.serial := rfl
@[simp] theorem setPkg_free (s : State) (p : Nat) (k : Pkg) : (setPkg s p k).free = s.free := rfl
@[simp] theorem setPkg_mem (s : State) (p : Nat) (k : Pkg) : (setPkg s p k).mem = s.mem := rfl
@[simp] theorem setPkg_full (s : State) (p : Nat) (k : Pkg) : (setPkg s p k).full = s.full := rfl
@[simp] theorem setPkg_cores (s : State) (p : Nat) (k : Pkg) : (setPkg s p k).cores = s.cores := rfl
@[simp] theorem setPkg_dies (s : State) (p : Nat) (k : Pkg) : (setPkg s p k).dies = s.dies := rfl
@[simp] theorem setPkg_pods (s : State) (p : Nat) (k : Pkg) : (setPkg s p k).pods = s.pods := rfl
@[simp] theorem setPkg_bars (s : State) (p : Nat) (k : Pkg) : (setPkg s p k).bars = s.bars := rfl
@[simp] theorem setPkg_roots (s : State) (p : Nat) (k : Pkg) : (setPkg s p k).roots = s.roots := rfl
@[simp] theorem setPkg_flows (s : State) (p : Nat) (k : Pkg) : (setPkg s p k).flows = s.flows := rfl
@[simp] theorem setPkg_flight (s : State) (p : Nat) (k : Pkg) : (setPkg s p k).flight = s.flight := rfl
@[simp] theorem setPkg_held (s : State) (p : Nat) (k : Pkg) : (setPkg s p k).held = s.held := rfl
@[simp] theorem setPkg_keptReq (s : State) (p : Nat) (k : Pkg) : (setPkg s p k).keptReq = s.keptReq := rfl
@[simp] theorem setPkg_keptRep (s : State) (p : Nat) (k : Pkg) : (setPkg s p k).keptRep = s.keptRep := rfl
@[simp] theorem setPkg_aborted (s : State) (p : Nat) (k : Pkg) : (setPkg s p k).aborted = s.aborted := rfl

@[simp] theorem setPod_sched (s : State) (p : Nat) (k : Pod) : (setPod s p k).sched = s.sched := rfl
@[simp] theorem setPod_cur (s : State) (p : Nat) (k : Pod) : (setPod s p k).cur = s.cur := rfl
@[simp] theorem setPod_serial (s : State) (p : Nat) (k : Pod) : (setPod s p k).serial = s.serial := rfl
@[simp] theorem setPod_free (s : State) (p : Nat) (k : Pod) : (setPod s p k).free = s.free := rfl
@[simp] theorem setPod_mem (s : State) (p : Nat) (k : Pod) : (setPod s p k).mem = s.mem := rfl
@[simp] theorem setPod_full (s : State) (p : Nat) (k : Pod) : (setPod s p k).full = s.full := rfl
@[simp] theorem setPod_cores (s : State) (p : Nat) (k : Pod) : (setPod s p k).cores = s.cores := rfl
@[simp] theorem setPod_dies (s : State) (p : Nat) (k : Pod) : (setPod s p k).dies = s.dies := rfl
@[simp] theorem setPod_pkgs (s : State) (p : Nat) (k : Pod) : (setPod s p k).pkgs = s.pkgs := rfl
@[simp] theorem setPod_bars (s : State) (p : Nat) (k : Pod) : (setPod s p k).bars = s.bars := rfl
@[simp] theorem setPod_roots (s : State) (p : Nat) (k : Pod) : (setPod s p k).roots = s.roots := rfl
@[simp] theorem setPod_flows (s : State) (p : Nat) (k : Pod) : (setPod s p k).flows = s.flows := rfl
@[simp] theorem setPod_flight (s : State) (p : Nat) (k : Pod) : (setPod s p k).flight = s.flight := rfl
@[simp] theorem setPod_held (s : State) (p : Nat) (k : Pod) : (setPod s p k).held = s.held := rfl
@[simp] theorem setPod_keptReq (s : State) (p : Nat) (k : Pod) : (setPod s p k).keptReq = s.keptReq := rfl
@[simp] theorem setPod_keptRep (s : State) (p : Nat) (k : Pod) : (setPod s p k).keptRep = s.keptRep := rfl
@[simp] theorem setPod_aborted (s : State) (p : Nat) (k : Pod) : (setPod s p k).aborted = s.aborted := rfl

@[simp] theorem setBar_sched (s : State) (b : Nat) (k : Barrier) : (setBar s b k).sched = s.sched := rfl
@[simp] theorem setBar_cur (s : State) (b : Nat) (k : Barrier) : (setBar s b k).cur = s.cur := rfl
@[simp] theorem setBar_serial (s : State) (b : Nat) (k : Barrier) : (setBar s b k).serial = s.serial := rfl
@[simp] theorem setBar_free (s : State) (b : Nat) (k : Barrier) : (setBar s b k).free = s.free := rfl
@[simp] theorem setBar_mem (s : State) (b : Nat) (k : Barrier) : (setBar s b k).mem = s.mem := rfl
@[simp] theorem setBar_full (s : State) (b : Nat) (k : Barrier) : (setBar s b k).full = s.full := rfl
@[simp] theorem setBar_cores (s : State) (b : Nat) (k : Barrier) : (setBar s b k).cores = s.cores := rfl
@[simp] theorem setBar_dies (s : State) (b : Nat) (k : Barrier) : (setBar s b k).dies = s.dies := rfl
@[simp] theorem setBar_pkgs (s : State) (b : Nat) (k : Barrier) : (setBar s b k).pkgs = s.pkgs := rfl
@[simp] theorem setBar_pods (s : State) (b : Nat) (k : Barrier) : (setBar s b k).pods = s.pods := rfl
@[simp] theorem setBar_roots (s : State) (b : Nat) (k : Barrier) : (setBar s b k).roots = s.roots := rfl
@[simp] theorem setBar_flows (s : State) (b : Nat) (k : Barrier) : (setBar s b k).flows = s.flows := rfl
@[simp] theorem setBar_flight (s : State) (b : Nat) (k : Barrier) : (setBar s b k).flight = s.flight := rfl
@[simp] theorem setBar_held (s : State) (b : Nat) (k : Barrier) : (setBar s b k).held = s.held := rfl
@[simp] theorem setBar_keptReq (s : State) (b : Nat) (k : Barrier) : (setBar s b k).keptReq = s.keptReq := rfl
@[simp] theorem setBar_keptRep (s : State) (b : Nat) (k : Barrier) : (setBar s b k).keptRep = s.keptRep := rfl
@[simp] theorem setBar_aborted (s : State) (b : Nat) (k : Barrier) : (setBar s b k).aborted = s.aborted := rfl

/-! ## Lists of parts -/

@[simp] theorem look_upd_same {α : Type} (x : α) (l : List (Nat × α)) (n : Nat) (a : α) : look x (upd l n a) n = a := by
  induction l with
  | nil => simp [upd, look]
  | cons e r ih =>
    obtain ⟨k, b⟩ := e
    unfold upd
    split
    · simp [look]
    · split
      · simp [look]
      · have h : k ≠ n := fun h => by simp_all
        simp [look, h, ih]

theorem look_upd_other {α : Type} (x : α) (l : List (Nat × α)) {n m : Nat} (a : α) (h : m ≠ n) :
    look x (upd l n a) m = look x l m := by
  induction l with
  | nil => simp [upd, look, Ne.symm h]
  | cons e r ih =>
    obtain ⟨k, b⟩ := e
    unfold upd
    split
    · next hk => subst hk; simp [look, Ne.symm h]
    · split
      · simp [look, Ne.symm h]
      · simp [look, ih]

@[simp] theorem upd_upd {α : Type} (l : List (Nat × α)) (n : Nat) (a b : α) : upd (upd l n a) n b = upd l n b := by
  induction l with
  | nil => simp [upd]
  | cons e r ih =>
    obtain ⟨k, c⟩ := e
    by_cases h : n = k
    · subst h; simp [upd]
    · by_cases h2 : n < k
      · simp [upd, h, h2]
      · simp [upd, h, h2, ih]

@[simp] theorem coreAt_setCore_same (s : State) (n : Nat) (k : Core) : coreAt (setCore s n k) n = k := by
  simp [coreAt, setCore]
theorem coreAt_setCore_other (s : State) {n m : Nat} (k : Core) (h : m ≠ n) : coreAt (setCore s n k) m = coreAt s m := by
  simp [coreAt, setCore, look_upd_other _ _ _ h]
@[simp] theorem dieAt_setDie_same (s : State) (n : Nat) (k : Die) : dieAt (setDie s n k) n = k := by simp [dieAt, setDie]
theorem dieAt_setDie_other (s : State) {n m : Nat} (k : Die) (h : m ≠ n) : dieAt (setDie s n k) m = dieAt s m := by
  simp [dieAt, setDie, look_upd_other _ _ _ h]
@[simp] theorem pkgAt_setPkg_same (s : State) (n : Nat) (k : Pkg) : pkgAt (setPkg s n k) n = k := by simp [pkgAt, setPkg]
theorem pkgAt_setPkg_other (s : State) {n m : Nat} (k : Pkg) (h : m ≠ n) : pkgAt (setPkg s n k) m = pkgAt s m := by
  simp [pkgAt, setPkg, look_upd_other _ _ _ h]
@[simp] theorem barAt_setBar_same (s : State) (n : Nat) (k : Barrier) : barAt (setBar s n k) n = k := by simp [barAt, setBar]
theorem barAt_setBar_other (s : State) {n m : Nat} (k : Barrier) (h : m ≠ n) : barAt (setBar s n k) m = barAt s m := by
  simp [barAt, setBar, look_upd_other _ _ _ h]

@[simp] theorem ctxAt_setCtx_same (s : State) (n c : Nat) (t : Ctx) : ctxAt (setCtx s n c t) n c = t := by
  simp [ctxAt, setCtx]
theorem ctxAt_setCtx_other (s : State) {n c m d : Nat} (t : Ctx) (h : ¬(m = n ∧ d = c)) :
    ctxAt (setCtx s n c t) m d = ctxAt s m d := by
  by_cases hm : m = n
  · subst hm
    simp only [ctxAt, setCtx, coreAt_setCore_same]
    rw [look_upd_other]
    simpa using h
  · simp [ctxAt, setCtx, coreAt_setCore_other _ _ hm]

@[simp] theorem setCore_setCore (s : State) (n : Nat) (k k' : Core) : setCore (setCore s n k) n k' = setCore s n k' := by
  simp [setCore]
@[simp] theorem setCtx_setCtx (s : State) (n c : Nat) (t t' : Ctx) : setCtx (setCtx s n c t) n c t' = setCtx s n c t' := by
  simp [setCtx]

@[simp] theorem me_setMe (s : State) (t : Ctx) : me (setMe s t) = t := by simp [me, setMe]
@[simp] theorem setMe_setMe (s : State) (t t' : Ctx) : setMe (setMe s t) t' = setMe s t' := by
  show setCtx (setCtx _ _ _ _) _ _ _ = _
  simp [setMe]
@[simp] theorem myCore_setMyCore (s : State) (k : Core) : myCore (setMyCore s k) = k := by simp [myCore, setMyCore]

/-- Setting the running context leaves every other field of its core alone. -/
theorem myCore_setMe (s : State) (t : Ctx) :
    myCore (setMe s t) = { myCore s with ctxs := upd (myCore s).ctxs s.cur.ctx t } := by
  simp [myCore, setMe, setCtx]
@[simp] theorem myCore_setMe_cycle (s : State) (t : Ctx) : (myCore (setMe s t)).cycle = (myCore s).cycle := by
  rw [myCore_setMe]

end Sys2Proof.Machine
end

