-- ==== Sys2Proof/Laws/Regs.lean ====
section
/-! SUPPORT. Sys2Proof/Laws/Regs.lean: what each register reads after a write, now or with a latency, and what a scalar result
leaves alone. -/

namespace Sys2Proof.Machine

/-! ## One write -/

@[simp] theorem Ctx.rx_pend (c : Ctx) (l : List Pend) (r : Reg) : ({ c with pend := l } : Ctx).rx r = c.rx r := rfl
@[simp] theorem Ctx.rv_pend (c : Ctx) (l : List Pend) (r : VReg) : ({ c with pend := l } : Ctx).rv r = c.rv r := rfl
@[simp] theorem Ctx.rp_pend (c : Ctx) (l : List Pend) (r : PReg) : ({ c with pend := l } : Ctx).rp r = c.rp r := rfl

@[simp] theorem Ctx.wx_pend (c : Ctx) (r : Reg) (v : Word) : (c.wx r v).pend = c.pend := by unfold Ctx.wx; split <;> rfl
@[simp] theorem Ctx.wv_pend (c : Ctx) (r : VReg) (v m : VWord) : (c.wv r v m).pend = c.pend := rfl
@[simp] theorem Ctx.wp_pend (c : Ctx) (r : PReg) (v : BitVec 32) : (c.wp r v).pend = c.pend := by unfold Ctx.wp; split <;> rfl
@[simp] theorem Ctx.wcode_pend (c : Ctx) (k : Nat) (v m : VWord) : (c.wcode k v m).pend = c.pend := by
  unfold Ctx.wcode
  split
  · simp
  · split
    · rfl
    · split
      · simp
      · split <;> rfl

theorem Ctx.rx_wx (c : Ctx) (r d : Reg) (v : Word) : (c.wx d v).rx r = if r = d ∧ d ≠ 0 then v else c.rx r := by
  unfold Ctx.wx Ctx.rx
  by_cases hd : d = 0
  · simp [hd]
  · simp only [hd, ↓reduceIte, ne_eq, not_false_eq_true, and_true]
    by_cases hr : r = d
    · subst hr
      rw [if_neg hd]
      simp [Vector.get_eq_getElem]
    · have : d.toNat ≠ r.toNat := fun h => hr (BitVec.eq_of_toNat_eq h).symm
      simp [hr, Vector.get_eq_getElem, Vector.getElem_set_ne _ _ this]

theorem Ctx.rv_wv (c : Ctx) (r d : VReg) (v m : VWord) :
    (c.wv d v m).rv r = if r = d then mergeBits (c.rv d) v m else c.rv r := by
  unfold Ctx.wv Ctx.rv
  by_cases hr : r = d
  · subst hr; simp [Vector.get_eq_getElem]
  · have : d.toNat ≠ r.toNat := fun h => hr (BitVec.eq_of_toNat_eq h).symm
    simp [hr, Vector.get_eq_getElem, Vector.getElem_set_ne _ _ this]

theorem Ctx.rp_wp (c : Ctx) (r d : PReg) (v : BitVec 32) : (c.wp d v).rp r = if r = d ∧ d ≠ 0 then v else c.rp r := by
  unfold Ctx.wp Ctx.rp
  by_cases hd : d = 0
  · simp [hd]
  · simp only [hd, ↓reduceIte, ne_eq, not_false_eq_true, and_true]
    by_cases hr : r = d
    · subst hr
      rw [if_neg hd]
      simp [Vector.get_eq_getElem]
    · have : d.toNat ≠ r.toNat := fun h => hr (BitVec.eq_of_toNat_eq h).symm
      simp [hr, Vector.get_eq_getElem, Vector.getElem_set_ne _ _ this]

@[simp] theorem Ctx.rx_wv (c : Ctx) (r : Reg) (d : VReg) (v m : VWord) : (c.wv d v m).rx r = c.rx r := rfl
@[simp] theorem Ctx.rp_wv (c : Ctx) (r : PReg) (d : VReg) (v m : VWord) : (c.wv d v m).rp r = c.rp r := rfl
@[simp] theorem Ctx.rv_wx (c : Ctx) (r : VReg) (d : Reg) (v : Word) : (c.wx d v).rv r = c.rv r := by unfold Ctx.wx; split <;> rfl
@[simp] theorem Ctx.rp_wx (c : Ctx) (r : PReg) (d : Reg) (v : Word) : (c.wx d v).rp r = c.rp r := by unfold Ctx.wx; split <;> rfl
@[simp] theorem Ctx.rx_wp (c : Ctx) (r : Reg) (d : PReg) (v : BitVec 32) : (c.wp d v).rx r = c.rx r := by unfold Ctx.wp; split <;> rfl
@[simp] theorem Ctx.rv_wp (c : Ctx) (r : VReg) (d : PReg) (v : BitVec 32) : (c.wp d v).rv r = c.rv r := by unfold Ctx.wp; split <;> rfl
@[simp] theorem Ctx.rx_wtm (c : Ctx) (r : Reg) (d : TReg) (m : BitVec 256) (o : BitVec 64) : (c.wtm d m o).rx r = c.rx r := rfl
@[simp] theorem Ctx.rv_wtm (c : Ctx) (r : VReg) (d : TReg) (m : BitVec 256) (o : BitVec 64) : (c.wtm d m o).rv r = c.rv r := rfl
@[simp] theorem Ctx.rp_wtm (c : Ctx) (r : PReg) (d : TReg) (m : BitVec 256) (o : BitVec 64) : (c.wtm d m o).rp r = c.rp r := rfl

theorem Ctx.rx_wcode (c : Ctx) (k : Nat) (v m : VWord) (r : Reg) :
    (c.wcode k v m).rx r =
      if k = r.toNat ∧ r ≠ 0 then mergeBits (c.rx r) (v.setWidth 64) (m.setWidth 64) else c.rx r := by
  have hr := r.isLt
  unfold Ctx.wcode
  by_cases h1 : k < 0x20
  · have hk : r = BitVec.ofNat 5 k ↔ k = r.toNat := by
      constructor
      · intro h; rw [h, BitVec.toNat_ofNat]; omega
      · intro h; subst h; simp
    simp only [h1, ↓reduceIte, Ctx.rx_wx]
    by_cases he : k = r.toNat
    · have := hk.2 he
      simp [he]
    · have : ¬ r = BitVec.ofNat 5 k := fun h => he (hk.1 h)
      simp [he, this]
  · have he : k ≠ r.toNat := by omega
    simp only [h1, ↓reduceIte, he, false_and]
    split
    · rfl
    · split
      · simp
      · split <;> simp

theorem Ctx.rv_wcode (c : Ctx) (k : Nat) (v m : VWord) (r : VReg) :
    (c.wcode k v m).rv r = if k = 0x20 + r.toNat then mergeBits (c.rv r) v m else c.rv r := by
  have hr := r.isLt
  unfold Ctx.wcode
  by_cases h1 : k < 0x20
  · have he : k ≠ 0x20 + r.toNat := by omega
    simp [h1, he]
  · by_cases h2 : k < 0x30
    · have hk : r = BitVec.ofNat 4 k ↔ k = 0x20 + r.toNat := by
        constructor
        · intro h; rw [h, BitVec.toNat_ofNat]; omega
        · intro h; apply BitVec.eq_of_toNat_eq; rw [BitVec.toNat_ofNat]; omega
      simp only [h1, h2, ↓reduceIte, Ctx.rv_wv]
      by_cases he : k = 0x20 + r.toNat
      · have := hk.2 he
        rw [if_pos this, if_pos he, ← this]
      · have : ¬ r = BitVec.ofNat 4 k := fun h => he (hk.1 h)
        rw [if_neg this, if_neg he]
    · have he : k ≠ 0x20 + r.toNat := by omega
      simp only [h1, h2, ↓reduceIte, he]
      split
      · simp
      · split <;> simp

theorem Ctx.rp_wcode (c : Ctx) (k : Nat) (v m : VWord) (r : PReg) :
    (c.wcode k v m).rp r =
      if k = 0x30 + r.toNat ∧ r ≠ 0 then mergeBits (c.rp r) (v.setWidth 32) (m.setWidth 32) else c.rp r := by
  have hr := r.isLt
  unfold Ctx.wcode
  by_cases h1 : k < 0x20
  · have he : k ≠ 0x30 + r.toNat := by omega
    simp [h1, he]
  · by_cases h2 : k < 0x30
    · have he : k ≠ 0x30 + r.toNat := by omega
      simp [h1, h2, he]
    · by_cases h3 : k < 0x38
      · have hk : r = BitVec.ofNat 3 k ↔ k = 0x30 + r.toNat := by
          constructor
          · intro h; rw [h, BitVec.toNat_ofNat]; omega
          · intro h; apply BitVec.eq_of_toNat_eq; rw [BitVec.toNat_ofNat]; omega
        simp only [h1, h2, h3, ↓reduceIte, Ctx.rp_wp]
        by_cases he : k = 0x30 + r.toNat
        · have := hk.2 he
          rw [← this]
          simp [he]
        · have : ¬ r = BitVec.ofNat 3 k := fun h => he (hk.1 h)
          simp [he, this]
      · have he : k ≠ 0x30 + r.toNat := by omega
        simp only [h1, h2, h3, ↓reduceIte, he, false_and]
        split <;> simp

/-! ## Results that fall due -/

/-- One pending result, if it is due. -/
def Ctx.due (cy : Nat) (c : Ctx) (e : Pend) : Ctx := if e.ready ≤ cy then c.wcode e.code e.val e.mask else c

theorem commitPend_eq (cy : Nat) (l kept : List Pend) (c : Ctx) :
    ∃ k, commitPend cy l kept c = { l.foldl (Ctx.due cy) c with pend := k } := by
  induction l generalizing kept c with
  | nil => exact ⟨kept, rfl⟩
  | cons e r ih =>
    simp only [commitPend, List.foldl_cons, Ctx.due]
    split
    · exact ih _ _
    · exact ih _ _

theorem Ctx.xAt_eq (t : Ctx) (cy : Nat) (r : Reg) : t.xAt cy r = (t.pend.foldl (Ctx.due cy) t).rx r := by
  obtain ⟨k, h⟩ := commitPend_eq cy t.pend [] t
  unfold Ctx.xAt Ctx.commit; rw [h]; rfl
theorem Ctx.vAt_eq (t : Ctx) (cy : Nat) (r : VReg) : t.vAt cy r = (t.pend.foldl (Ctx.due cy) t).rv r := by
  obtain ⟨k, h⟩ := commitPend_eq cy t.pend [] t
  unfold Ctx.vAt Ctx.commit; rw [h]; rfl
theorem Ctx.pAt_eq (t : Ctx) (cy : Nat) (r : PReg) : t.pAt cy r = (t.pend.foldl (Ctx.due cy) t).rp r := by
  obtain ⟨k, h⟩ := commitPend_eq cy t.pend [] t
  unfold Ctx.pAt Ctx.commit; rw [h]; rfl

/-- What pending results make of a value of x[r]. -/
def xDue (cy : Nat) (r : Reg) (x : Word) (e : Pend) : Word :=
  if e.ready ≤ cy ∧ e.code = r.toNat ∧ r ≠ 0 then mergeBits x (e.val.setWidth 64) (e.mask.setWidth 64) else x
/-- The same of v[r]. -/
def vDue (cy : Nat) (r : VReg) (x : VWord) (e : Pend) : VWord :=
  if e.ready ≤ cy ∧ e.code = 0x20 + r.toNat then mergeBits x e.val e.mask else x
/-- The same of p[r]. -/
def pDue (cy : Nat) (r : PReg) (x : BitVec 32) (e : Pend) : BitVec 32 :=
  if e.ready ≤ cy ∧ e.code = 0x30 + r.toNat ∧ r ≠ 0 then mergeBits x (e.val.setWidth 32) (e.mask.setWidth 32) else x

theorem rx_dues (cy : Nat) (l : List Pend) (c : Ctx) (r : Reg) :
    (l.foldl (Ctx.due cy) c).rx r = l.foldl (xDue cy r) (c.rx r) := by
  induction l generalizing c with
  | nil => rfl
  | cons e l ih =>
    simp only [List.foldl_cons, ih]
    congr 1
    unfold Ctx.due xDue
    by_cases h : e.ready ≤ cy <;> simp [h, Ctx.rx_wcode]
theorem rv_dues (cy : Nat) (l : List Pend) (c : Ctx) (r : VReg) :
    (l.foldl (Ctx.due cy) c).rv r = l.foldl (vDue cy r) (c.rv r) := by
  induction l generalizing c with
  | nil => rfl
  | cons e l ih =>
    simp only [List.foldl_cons, ih]
    congr 1
    unfold Ctx.due vDue
    by_cases h : e.ready ≤ cy <;> simp [h, Ctx.rv_wcode]
theorem rp_dues (cy : Nat) (l : List Pend) (c : Ctx) (r : PReg) :
    (l.foldl (Ctx.due cy) c).rp r = l.foldl (pDue cy r) (c.rp r) := by
  induction l generalizing c with
  | nil => rfl
  | cons e l ih =>
    simp only [List.foldl_cons, ih]
    congr 1
    unfold Ctx.due pDue
    by_cases h : e.ready ≤ cy <;> simp [h, Ctx.rp_wcode]

theorem xAt_dues (t : Ctx) (cy : Nat) (r : Reg) : t.xAt cy r = t.pend.foldl (xDue cy r) (t.rx r) := by
  rw [Ctx.xAt_eq, rx_dues]
theorem vAt_dues (t : Ctx) (cy : Nat) (r : VReg) : t.vAt cy r = t.pend.foldl (vDue cy r) (t.rv r) := by
  rw [Ctx.vAt_eq, rv_dues]
theorem pAt_dues (t : Ctx) (cy : Nat) (r : PReg) : t.pAt cy r = t.pend.foldl (pDue cy r) (t.rp r) := by
  rw [Ctx.pAt_eq, rp_dues]

/-! ## Older results lose what a later write takes (R110) -/

@[simp] theorem mergeBits_zero {w : Nat} (x v : BitVec w) : mergeBits x v (0#w) = x := by simp [mergeBits]
@[simp] theorem mergeBits_all {w : Nat} (x v : BitVec w) : mergeBits x v (BitVec.allOnes w) = v := by simp [mergeBits]
theorem allBits_setWidth (w : Nat) (h : w ≤ 1024) : (allBits.setWidth w : BitVec w) = BitVec.allOnes w := by
  ext i hi
  unfold allBits
  rw [BitVec.getElem_setWidth, BitVec.getLsbD_allOnes, BitVec.getElem_allOnes]
  exact decide_eq_true (by omega)
@[simp] theorem and_not_allBits (m : VWord) : m &&& ~~~allBits = 0#1024 := by
  unfold allBits
  rw [BitVec.not_allOnes]
  exact BitVec.and_zero

/-- A fold over a filtered list, where what is filtered out would change nothing. -/
theorem foldl_skip {α β : Type} (g : α → β → α) (p : β → Bool) (l : List β) (h : ∀ x e, p e = false → g x e = x) (x : α) :
    (l.filter p).foldl g x = l.foldl g x := by
  induction l generalizing x with
  | nil => rfl
  | cons e l ih =>
    by_cases hp : p e = true
    · simp [hp, ih]
    · simp [hp, ih, h x e (by simpa using hp)]

theorem xDue_strip_other (cy : Nat) (r : Reg) (l : List Pend) (k : Nat) (m : VWord) (x : Word) (h : k ≠ r.toNat ∨ r = 0) :
    (stripPend l k m).foldl (xDue cy r) x = l.foldl (xDue cy r) x := by
  unfold stripPend
  split
  · rfl
  · refine foldl_skip _ _ l (fun x e he => ?_) x
    have hk : e.code = k := by simpa using he
    rcases h with h | h <;> simp [xDue, hk, h]
theorem vDue_strip_other (cy : Nat) (r : VReg) (l : List Pend) (k : Nat) (m : VWord) (x : VWord) (h : k ≠ 0x20 + r.toNat) :
    (stripPend l k m).foldl (vDue cy r) x = l.foldl (vDue cy r) x := by
  unfold stripPend
  split
  · rfl
  · refine foldl_skip _ _ l (fun x e he => ?_) x
    have hk : e.code = k := by simpa using he
    simp [vDue, hk, h]
theorem pDue_strip_other (cy : Nat) (r : PReg) (l : List Pend) (k : Nat) (m : VWord) (x : BitVec 32)
    (h : k ≠ 0x30 + r.toNat ∨ r = 0) :
    (stripPend l k m).foldl (pDue cy r) x = l.foldl (pDue cy r) x := by
  unfold stripPend
  split
  · rfl
  · refine foldl_skip _ _ l (fun x e he => ?_) x
    have hk : e.code = k := by simpa using he
    rcases h with h | h <;> simp [pDue, hk, h]

theorem pDue_zero (cy : Nat) (l : List Pend) (x : BitVec 32) : l.foldl (pDue cy 0) x = x := by
  induction l generalizing x with
  | nil => rfl
  | cons e l ih => rw [List.foldl_cons, ih]; simp [pDue]

/-- Once its own pending results are gone, a register keeps its value. -/
theorem vDue_strip_same (cy : Nat) (r : VReg) (l : List Pend) (m x : VWord) (hm : m ≠ 0) :
    (stripPend l (0x20 + r.toNat) m).foldl (vDue cy r) x = x := by
  unfold stripPend
  rw [if_neg hm]
  induction l generalizing x with
  | nil => rfl
  | cons e l ih => by_cases hk : e.code = 0x20 + r.toNat <;> simp [hk, vDue, ih]
theorem pDue_strip_same (cy : Nat) (r : PReg) (l : List Pend) (m : VWord) (x : BitVec 32) (hm : m ≠ 0) :
    (stripPend l (0x30 + r.toNat) m).foldl (pDue cy r) x = x := by
  unfold stripPend
  rw [if_neg hm]
  induction l generalizing x with
  | nil => rfl
  | cons e l ih => by_cases hk : e.code = 0x30 + r.toNat <;> simp [hk, pDue, ih]
theorem xDue_strip_all (cy : Nat) (r : Reg) (l : List Pend) (m : VWord) (x : Word) (hm : m ≠ 0) :
    (stripPend l r.toNat m).foldl (xDue cy r) x = x := by
  unfold stripPend
  rw [if_neg hm]
  induction l generalizing x with
  | nil => rfl
  | cons e l ih => by_cases hk : e.code = r.toNat <;> simp [hk, xDue, ih]

theorem allBits_ne : (allBits : VWord) ≠ 0 := by
  intro h
  have := congrArg (fun b : VWord => b.getLsbD 0) h
  unfold allBits at this
  rw [BitVec.getLsbD_allOnes] at this
  simp at this

/-- A result that a later write overtakes falls due after it, so that up to the later write nothing is missing. -/
theorem xDue_overtake (cy : Nat) (r : Reg) (l : List Pend) (k n : Nat) (m : VWord) (x : Word)
    (h : cy ≤ n ∨ k ≠ r.toNat ∨ r = 0) : (overtake l k n m).foldl (xDue cy r) x = l.foldl (xDue cy r) x := by
  unfold overtake
  split
  · rfl
  · refine foldl_skip _ _ l (fun x e he => ?_) x
    have he : e.code = k ∧ n < e.ready := by simpa using he
    unfold xDue
    rw [if_neg]
    rintro ⟨h1, h2, h3⟩
    rcases h with h | h | h
    · omega
    · exact h (he.1.symm.trans h2)
    · exact h3 h
theorem vDue_overtake (cy : Nat) (r : VReg) (l : List Pend) (k n : Nat) (m : VWord) (x : VWord)
    (h : cy ≤ n ∨ k ≠ 0x20 + r.toNat) : (overtake l k n m).foldl (vDue cy r) x = l.foldl (vDue cy r) x := by
  unfold overtake
  split
  · rfl
  · refine foldl_skip _ _ l (fun x e he => ?_) x
    have he : e.code = k ∧ n < e.ready := by simpa using he
    unfold vDue
    rw [if_neg]
    rintro ⟨h1, h2⟩
    rcases h with h | h
    · omega
    · exact h (he.1.symm.trans h2)
theorem pDue_overtake (cy : Nat) (r : PReg) (l : List Pend) (k n : Nat) (m : VWord) (x : BitVec 32)
    (h : cy ≤ n ∨ k ≠ 0x30 + r.toNat) : (overtake l k n m).foldl (pDue cy r) x = l.foldl (pDue cy r) x := by
  unfold overtake
  split
  · rfl
  · refine foldl_skip _ _ l (fun x e he => ?_) x
    have he : e.code = k ∧ n < e.ready := by simpa using he
    unfold pDue
    rw [if_neg]
    rintro ⟨h1, h2, h3⟩
    rcases h with h | h
    · omega
    · exact h (he.1.symm.trans h2)

/-- From a later write on, what it has overtaken is missing for good. -/
theorem vDue_overtaken (cy n : Nat) (r : VReg) (l : List Pend) (m x : VWord) (hm : m ≠ 0) (h : n ≤ cy) :
    (overtake l (0x20 + r.toNat) n m).foldl (vDue cy r) x = l.foldl (vDue n r) x := by
  unfold overtake
  rw [if_neg hm]
  induction l generalizing x with
  | nil => rfl
  | cons e l ih =>
    by_cases hk : e.code = 0x20 + r.toNat
    · by_cases hr : e.ready ≤ n
      · have : e.ready ≤ cy := by omega
        simp [hk, hr, this, vDue, ih]
      · simp [hk, hr, vDue, ih]
    · simp [hk, vDue, ih]
theorem pDue_overtaken (cy n : Nat) (r : PReg) (l : List Pend) (m : VWord) (x : BitVec 32) (hm : m ≠ 0) (h : n ≤ cy) :
    (overtake l (0x30 + r.toNat) n m).foldl (pDue cy r) x = l.foldl (pDue n r) x := by
  unfold overtake
  rw [if_neg hm]
  induction l generalizing x with
  | nil => rfl
  | cons e l ih =>
    by_cases hk : e.code = 0x30 + r.toNat
    · by_cases hr : e.ready ≤ n
      · have : e.ready ≤ cy := by omega
        simp [hk, hr, this, pDue, ih]
      · simp [hk, hr, pDue, ih]
    · simp [hk, pDue, ih]

/-! ## A write with a latency -/

@[simp] theorem Ctx.putNow_pend (c : Ctx) (k : Nat) (v m : VWord) : (c.putNow k v m).pend = stripPend c.pend k m := by
  simp [Ctx.putNow]

theorem Ctx.xAt_put_same (c : Ctx) (cy lat : Nat) (d : Reg) (v : Word) (n : Nat) (h : cy + lat ≤ n) :
    (c.put cy lat (xCode d) (v.setWidth 1024) allBits).xAt n d = if d = 0 then 0 else v := by
  by_cases hd : d = 0
  · subst hd
    rw [xAt_dues]
    have : ∀ (l : List Pend) (x : Word), l.foldl (xDue n 0) x = x := by
      intro l; induction l with
      | nil => intro x; rfl
      | cons e l ih => intro x; rw [List.foldl_cons, ih]; simp [xDue]
    rw [this]; simp [Ctx.rx]
  · unfold Ctx.put
    have hc : xCode d ≠ 0 := fun h0 => hd (BitVec.eq_of_toNat_eq h0)
    have hc' : xCode d ≠ 0x30 := by have := d.isLt; unfold xCode; omega
    simp only [hc, hc', or_false, hd, ↓reduceIte]
    split
    · rw [xAt_dues, Ctx.putNow_pend]
      unfold xCode
      rw [xDue_strip_all _ _ _ _ _ allBits_ne]
      simp only [Ctx.putNow, Ctx.rx_wcode, hd, ne_eq, not_false_eq_true, and_self, ↓reduceIte]
      rw [allBits_setWidth 64 (by omega), mergeBits_all]
      simp
    · rw [xAt_dues]
      simp only [List.foldl_append, List.foldl_cons, List.foldl_nil, xDue, h, xCode, hd, ne_eq, not_false_eq_true, and_self, ↓reduceIte]
      rw [allBits_setWidth 64 (by omega), mergeBits_all]
      simp

theorem Ctx.xAt_put_before (c : Ctx) (cy lat : Nat) (d : Reg) (v : Word) (n : Nat) (h1 : 1 < lat) (h : n < cy + lat) :
    (c.put cy lat (xCode d) (v.setWidth 1024) allBits).xAt n d = c.xAt n d := by
  unfold Ctx.put
  by_cases hd : d = 0
  · subst hd
    rw [xAt_dues, xAt_dues]
    have : ∀ (l : List Pend) (x : Word), l.foldl (xDue n 0) x = x := by
      intro l; induction l with
      | nil => intro x; rfl
      | cons e l ih => intro x; rw [List.foldl_cons, ih]; simp [xDue]
    rw [this, this]; simp [Ctx.rx]
  · have hc : xCode d ≠ 0 := fun h0 => hd (BitVec.eq_of_toNat_eq h0)
    have hc' : xCode d ≠ 0x30 := by have := d.isLt; unfold xCode; omega
    have h2 : ¬ lat ≤ 1 := by omega
    simp only [hc, hc', or_false, h2, ↓reduceIte]
    rw [xAt_dues, xAt_dues]
    have h3 : ¬ cy + lat ≤ n := by omega
    simp only [List.foldl_append, List.foldl_cons, List.foldl_nil]
    rw [xDue, if_neg (fun h => h3 h.1), xDue_overtake _ _ _ _ _ _ _ (.inl (by omega))]
    simp only [Ctx.rx]

theorem Ctx.xAt_put_other (c : Ctx) (cy lat k : Nat) (v m : VWord) (n : Nat) (r : Reg) (h : k ≠ r.toNat) :
    (c.put cy lat k v m).xAt n r = c.xAt n r := by
  unfold Ctx.put
  split
  · rw [xAt_dues, Ctx.putNow_pend, xDue_strip_other _ _ _ _ _ _ (.inl h), xAt_dues]
    congr 1
    simp [Ctx.putNow, Ctx.rx_wcode, h]
  · rw [xAt_dues, xAt_dues]
    simp only [List.foldl_append, List.foldl_cons, List.foldl_nil]
    rw [xDue_overtake _ _ _ _ _ _ _ (.inr (.inl h))]
    simp [xDue, h]
theorem Ctx.vAt_put_other (c : Ctx) (cy lat k : Nat) (v m : VWord) (n : Nat) (r : VReg) (h : k ≠ 0x20 + r.toNat) :
    (c.put cy lat k v m).vAt n r = c.vAt n r := by
  unfold Ctx.put
  split
  · rw [vAt_dues, Ctx.putNow_pend, vDue_strip_other _ _ _ _ _ _ h, vAt_dues]
    congr 1
    simp [Ctx.putNow, Ctx.rv_wcode, h]
  · rw [vAt_dues, vAt_dues]
    simp only [List.foldl_append, List.foldl_cons, List.foldl_nil]
    rw [vDue_overtake _ _ _ _ _ _ _ (.inr h)]
    simp [vDue, h]
theorem Ctx.pAt_put_other (c : Ctx) (cy lat k : Nat) (v m : VWord) (n : Nat) (r : PReg) (h : k ≠ 0x30 + r.toNat) :
    (c.put cy lat k v m).pAt n r = c.pAt n r := by
  unfold Ctx.put
  split
  · rw [pAt_dues, Ctx.putNow_pend, pDue_strip_other _ _ _ _ _ _ (.inl h), pAt_dues]
    congr 1
    simp [Ctx.putNow, Ctx.rp_wcode, h]
  · rw [pAt_dues, pAt_dues]
    simp only [List.foldl_append, List.foldl_cons, List.foldl_nil]
    rw [pDue_overtake _ _ _ _ _ _ _ (.inr h)]
    simp [pDue, h]

theorem Ctx.vAt_put_same (c : Ctx) (cy lat : Nat) (d : VReg) (v m : VWord) (n : Nat) (h : cy + lat ≤ n) :
    (c.put cy lat (vCode d) v m).vAt n d = c.vAfter cy lat d v m n := by
  have hc : vCode d ≠ 0 := by unfold vCode; omega
  have hc' : vCode d ≠ 0x30 := by have := d.isLt; unfold vCode; omega
  unfold Ctx.put Ctx.vAfter
  simp only [hc, hc', or_false]
  split
  · rw [vAt_dues, Ctx.putNow_pend]
    have e : (c.putNow (vCode d) v m).rv d = mergeBits (c.rv d) v m := by simp [Ctx.putNow, Ctx.rv_wcode, vCode]
    rw [e]
    by_cases hm : m = 0
    · subst hm
      rw [if_pos rfl, vAt_dues]
      simp [stripPend]
    · rw [if_neg hm]
      exact vDue_strip_same _ _ _ _ _ hm
  · rw [vAt_dues]
    simp only [List.foldl_append, List.foldl_cons, List.foldl_nil]
    rw [vDue, if_pos ⟨h, rfl⟩]
    by_cases hm : m = 0
    · subst hm
      rw [if_pos rfl, vAt_dues]
      simp [overtake]
    · rw [if_neg hm, vAt_dues]
      exact congrArg (fun z => mergeBits z v m) (vDue_overtaken n (cy + lat) d c.pend m (c.rv d) hm h)
theorem Ctx.vAt_put_before (c : Ctx) (cy lat : Nat) (d : VReg) (v m : VWord) (n : Nat) (h1 : 1 < lat) (h : n < cy + lat) :
    (c.put cy lat (vCode d) v m).vAt n d = c.vAt n d := by
  have hc : vCode d ≠ 0 := by unfold vCode; omega
  have hc' : vCode d ≠ 0x30 := by have := d.isLt; unfold vCode; omega
  have h2 : ¬ lat ≤ 1 := by omega
  have h3 : ¬ cy + lat ≤ n := by omega
  unfold Ctx.put
  simp only [hc, hc', or_false, h2, ↓reduceIte]
  rw [vAt_dues, vAt_dues]
  simp only [List.foldl_append, List.foldl_cons, List.foldl_nil]
  rw [vDue, if_neg (fun h => h3 h.1), vDue_overtake _ _ _ _ _ _ _ (.inl (by omega))]
  rfl

theorem Ctx.pAt_zero (c : Ctx) (n : Nat) : c.pAt n 0 = BitVec.allOnes 32 := by
  rw [pAt_dues, pDue_zero]; rfl
theorem setWidth_ne {m : BitVec 32} (h : m ≠ 0) : (m.setWidth 1024 : VWord) ≠ 0 := by
  intro h1
  apply h
  have := congrArg (fun b : VWord => b.setWidth 32) h1
  simpa using this
theorem Ctx.pAt_put_same (c : Ctx) (cy lat : Nat) (d : PReg) (v m : BitVec 32) (n : Nat) (h : cy + lat ≤ n) :
    (c.put cy lat (pCode d) (v.setWidth 1024) (m.setWidth 1024)).pAt n d =
      if d = 0 then BitVec.allOnes 32 else c.pAfter cy lat d v m n := by
  by_cases hd : d = 0
  · subst hd; rw [Ctx.pAt_zero]; rfl
  · rw [if_neg hd]
    have hc : pCode d ≠ 0 := by unfold pCode; omega
    have hc' : pCode d ≠ 0x30 := by
      intro h; apply hd; apply BitVec.eq_of_toNat_eq; unfold pCode at h; simp; omega
    have e : ∀ x : BitVec 32, (x.setWidth 1024).setWidth 32 = x := fun x => by simp
    unfold Ctx.put Ctx.pAfter
    simp only [hc, hc', or_false]
    split
    · rw [pAt_dues, Ctx.putNow_pend]
      have e2 : (c.putNow (pCode d) (v.setWidth 1024) (m.setWidth 1024)).rp d = mergeBits (c.rp d) v m := by
        rw [Ctx.putNow, Ctx.rp_wcode, if_pos ⟨rfl, hd⟩, e, e]; rfl
      rw [e2]
      by_cases hm : m = 0
      · subst hm
        rw [if_pos rfl, pAt_dues]
        simp [stripPend]
      · rw [if_neg hm]
        exact pDue_strip_same _ _ _ _ _ (setWidth_ne hm)
    · rw [pAt_dues]
      simp only [List.foldl_append, List.foldl_cons, List.foldl_nil]
      rw [pDue, if_pos ⟨h, rfl, hd⟩, e, e]
      by_cases hm : m = 0
      · subst hm
        rw [if_pos rfl, pAt_dues]
        simp [overtake]
      · rw [if_neg hm, pAt_dues]
        exact congrArg (fun z => mergeBits z v m) (pDue_overtaken n (cy + lat) d c.pend _ (c.rp d) (setWidth_ne hm) h)
theorem Ctx.pAt_put_before (c : Ctx) (cy lat : Nat) (d : PReg) (v m : VWord) (n : Nat) (h1 : 1 < lat) (h : n < cy + lat) :
    (c.put cy lat (pCode d) v m).pAt n d = c.pAt n d := by
  by_cases hd : d = 0
  · subst hd; rw [Ctx.pAt_zero, Ctx.pAt_zero]
  · have hc : pCode d ≠ 0 := by unfold pCode; omega
    have hc' : pCode d ≠ 0x30 := by
      intro h; apply hd; apply BitVec.eq_of_toNat_eq; unfold pCode at h; simp; omega
    have h2 : ¬ lat ≤ 1 := by omega
    have h3 : ¬ cy + lat ≤ n := by omega
    unfold Ctx.put
    simp only [hc, hc', or_false, h2, ↓reduceIte]
    rw [pAt_dues, pAt_dues]
    simp only [List.foldl_append, List.foldl_cons, List.foldl_nil]
    rw [pDue, if_neg (fun h => h3 h.1), pDue_overtake _ _ _ _ _ _ _ (.inl (by omega))]
    rfl

end Sys2Proof.Machine
end

