-- ==== Sys2Proof/Laws/Results.lean ====
section
/-! SUPPORT. Sys2Proof/Laws/Results.lean: what the shared result operations can do: a scalar, vector or predicate result, and the
PC's advance. -/

namespace Sys2Proof.Machine

/-! ## Writes keep every field but registers -/

theorem Ctx.wx_only (c : Ctx) (r : Reg) (v : Word) : c.wx r v = { c with x := (c.wx r v).x } := by unfold Ctx.wx; split <;> rfl
theorem Ctx.wp_only (c : Ctx) (r : PReg) (v : BitVec 32) : c.wp r v = { c with p := (c.wp r v).p } := by
  unfold Ctx.wp; split <;> rfl

theorem Ctx.putX_only (c : Ctx) (cy lat : Nat) (d : Reg) (v m : VWord) :
    c.put cy lat (xCode d) v m = { c with
      x := (c.put cy lat (xCode d) v m).x
      pend := (c.put cy lat (xCode d) v m).pend } := by
  have hd : xCode d < 0x20 := d.isLt
  unfold Ctx.put
  split
  · unfold Ctx.putNow Ctx.wcode
    rw [if_pos hd]
    rw [Ctx.wx_only]
  · rfl
theorem Ctx.putV_only (c : Ctx) (cy lat : Nat) (d : VReg) (v m : VWord) :
    c.put cy lat (vCode d) v m = { c with
      v := (c.put cy lat (vCode d) v m).v
      pend := (c.put cy lat (vCode d) v m).pend } := by
  have hd := d.isLt
  have h1 : ¬ vCode d < 0x20 := by unfold vCode; omega
  have h2 : vCode d < 0x30 := by unfold vCode; omega
  unfold Ctx.put
  split
  · unfold Ctx.putNow Ctx.wcode
    rw [if_neg h1, if_pos h2]
    rfl
  · rfl
theorem Ctx.putP_only (c : Ctx) (cy lat : Nat) (d : PReg) (v m : VWord) :
    c.put cy lat (pCode d) v m = { c with
      p := (c.put cy lat (pCode d) v m).p
      pend := (c.put cy lat (pCode d) v m).pend } := by
  have hd := d.isLt
  have h1 : ¬ pCode d < 0x20 := by unfold pCode; omega
  have h2 : ¬ pCode d < 0x30 := by unfold pCode; omega
  have h3 : pCode d < 0x38 := by unfold pCode; omega
  unfold Ctx.put
  split
  · unfold Ctx.putNow Ctx.wcode
    rw [if_neg h1, if_neg h2, if_pos h3]
    rw [Ctx.wp_only]
  · rfl

/-! ## The PC -/

@[simp] theorem Ctx.goto_pc (c : Ctx) (n : Word) : (c.goto n).pc = (loopCheck c.loops n).2 := rfl
@[simp] theorem Ctx.goto_loops (c : Ctx) (n : Word) : (c.goto n).loops = (loopCheck c.loops n).1 := rfl

@[simp] theorem me_jumpTo (s : State) (st : Stall) (n : Word) :
    me (jumpTo s st n) = { (me s).goto n with stall := (myCore s).cycle + st.toNat + 1 } := by simp [jumpTo]

/-- A context's registers as read in a cycle do not depend on its PC, its loops or its stall. -/
theorem Ctx.xAt_goto (c : Ctx) (n : Word) (k cy : Nat) (r : Reg) : ({ c.goto n with stall := k } : Ctx).xAt cy r = c.xAt cy r := by
  rw [xAt_dues, xAt_dues]; rfl
theorem Ctx.vAt_goto (c : Ctx) (n : Word) (k cy : Nat) (r : VReg) : ({ c.goto n with stall := k } : Ctx).vAt cy r = c.vAt cy r := by
  rw [vAt_dues, vAt_dues]; rfl
theorem Ctx.pAt_goto (c : Ctx) (n : Word) (k cy : Nat) (r : PReg) : ({ c.goto n with stall := k } : Ctx).pAt cy r = c.pAt cy r := by
  rw [pAt_dues, pAt_dues]; rfl

/-- Setting the running context, and going on after it, changes nothing else. -/
theorem mineOnly_setMe (s : State) (t : Ctx) : MineOnly s (setMe s t) := ⟨by simp, fun _ => by simp⟩
theorem jumpTo_setMe (s : State) (t : Ctx) (st : Stall) (n : Word) :
    jumpTo (setMe s t) st n = setMe s { t.goto n with stall := (myCore s).cycle + st.toNat + 1 } := by simp [jumpTo]
theorem advance_setMe (s : State) (t : Ctx) (st : Stall) (len : Nat) :
    advance (setMe s t) st len =
      setMe s { t.goto (t.pc + BitVec.ofNat 64 len) with stall := (myCore s).cycle + st.toNat + 1 } := by
  simp [advance, jumpTo_setMe]

/-! ## A scalar result -/

/-- All that a scalar result can do. -/
theorem writesX_of {i : Instr} {s : State} {st : Stall} {len lat : Nat} {d : Reg} {v : Word}
    (h : exec i s = done st len (wrX s lat d v)) : WritesX i s st len lat d v := by
  have hd := d.isLt
  have e := advance_setMe s ((me s).put (myCore s).cycle lat (xCode d) (v.setWidth 1024) allBits) st len
  have hp := Ctx.putX_only (me s) (myCore s).cycle lat d (v.setWidth 1024) allBits
  have h1 := fun c => Ctx.xAt_put_same (me s) (myCore s).cycle lat d v c
  have h2 := fun c => Ctx.xAt_put_before (me s) (myCore s).cycle lat d v c
  have h3 := fun c r => Ctx.xAt_put_other (me s) (myCore s).cycle lat (xCode d) (v.setWidth 1024) allBits c r
  have h4 := fun c r => Ctx.vAt_put_other (me s) (myCore s).cycle lat (xCode d) (v.setWidth 1024) allBits c r
  have h5 := fun c r => Ctx.pAt_put_other (me s) (myCore s).cycle lat (xCode d) (v.setWidth 1024) allBits c r
  have hm : me (advance (wrX s lat d v) st len) = _ := (congrArg me e).trans (me_setMe ..)
  refine ⟨_, h, ?_, ?_, ?_, ?_, ?_, ?_, ?_, ?_⟩
  · rw [show advance (wrX s lat d v) st len = _ from e]
    exact mineOnly_setMe ..
  · rw [WentOn, hm, hp]
    exact ⟨rfl, rfl, rfl⟩
  · rw [hm, hp]
    rfl
  · intro c hc
    rw [hm, Ctx.xAt_goto]
    exact h1 c hc
  · intro c hl hc
    rw [hm, Ctx.xAt_goto]
    exact h2 c hl hc
  · intro c r hr
    rw [hm, Ctx.xAt_goto]
    exact h3 c r fun h => hr (BitVec.eq_of_toNat_eq h.symm)
  · intro c r
    rw [hm, Ctx.vAt_goto]
    exact h4 c r (by unfold xCode; omega)
  · intro c r
    rw [hm, Ctx.pAt_goto]
    exact h5 c r (by unfold xCode; omega)

/-- An instruction that only goes on. -/
theorem doesNothing_of {i : Instr} {s : State} {st : Stall} {len : Nat} (h : exec i s = done st len s) :
    DoesNothing i s st len := by
  refine ⟨_, h, ?_, ?_, ?_⟩
  · show MineOnly s (setMe s _)
    exact mineOnly_setMe ..
  · unfold WentOn
    rw [show me (advance s st len) = _ from me_jumpTo ..]
    exact ⟨rfl, rfl, rfl⟩
  · rw [show me (advance s st len) = _ from me_jumpTo ..]
    rfl

/-! ## Results of variable latency -/

/-- A write in the same step is a write of latency 0. -/
theorem Ctx.putNow_eq (t : Ctx) (k : Nat) (v m : VWord) : t.putNow k v m = t.put 0 0 k v m := by
  unfold Ctx.put; simp

/-- The running context after a result of variable latency. -/
def varCtx (late : Bool) (t : Ctx) (k : Nat) (op : VarOp) (v m : VWord) : Ctx :=
  if late then { t with var := t.var ++ [⟨k, op, m, false⟩] } else t.put 0 0 k v m

theorem varResult_setMe (s : State) (t : Ctx) (k : Nat) (op : VarOp) (v m : VWord) :
    varResult (setMe s t) k op v m = setMe s (varCtx s.cur.late t k op v m) := by
  unfold varResult varCtx
  rw [show (setMe s t).cur.late = s.cur.late from rfl, me_setMe]
  cases s.cur.late <;> simp [Ctx.putNow_eq]

/-- All that a scalar result of variable latency can do, of a context that first takes `f` as its %SFLAGS. -/
theorem writesXVar_of {i : Instr} {s : State} {st : Stall} {d : Reg} {v : Word} {f : BitVec 2}
    (h : exec i s = done st 4 (varX (setMe s { me s with sflags := f }) d v)) : WritesXVar i s st d v f := by
  have hd := d.isLt
  let t0 : Ctx := { me s with sflags := f }
  replace h := h.trans (congrArg Host.Outcome.next ((congrArg (fun u => advance u st 4)
    (varResult_setMe s t0 (xCode d) (.value (v.setWidth 1024)) (v.setWidth 1024) allBits)).trans (advance_setMe ..)))
  cases hl : s.cur.late with
  | true =>
    simp only [hl, varCtx, if_true] at h
    refine ⟨_, h, ?_, ?_, ?_, ?_, ?_⟩
    · exact mineOnly_setMe ..
    · rw [WentOn, me_setMe]; exact ⟨rfl, rfl, rfl⟩
    · rw [me_setMe]; rfl
    · intro h; simp [hl] at h
    · intro _; rw [me_setMe]; exact ⟨rfl, rfl, rfl⟩
  | false =>
    simp only [hl, varCtx, Bool.false_eq_true, if_false] at h
    have hp := Ctx.putX_only t0 0 0 d (v.setWidth 1024) allBits
    have h1 := fun c => Ctx.xAt_put_same t0 0 0 d v c
    have h3 := fun c r => Ctx.xAt_put_other t0 0 0 (xCode d) (v.setWidth 1024) allBits c r
    have h4 := fun c r => Ctx.vAt_put_other t0 0 0 (xCode d) (v.setWidth 1024) allBits c r
    have h5 := fun c r => Ctx.pAt_put_other t0 0 0 (xCode d) (v.setWidth 1024) allBits c r
    have g2 : ∀ (c : Nat) (r : Reg), t0.xAt c r = (me s).xAt c r := fun c r => by rw [xAt_dues, xAt_dues]; rfl
    have g1 : ∀ (c : Nat) (r : VReg), t0.vAt c r = (me s).vAt c r := fun c r => by rw [vAt_dues, vAt_dues]; rfl
    have g3 : ∀ (c : Nat) (r : PReg), t0.pAt c r = (me s).pAt c r := fun c r => by rw [pAt_dues, pAt_dues]; rfl
    generalize t0.put 0 0 (xCode d) (v.setWidth 1024) allBits = p at *
    refine ⟨_, h, ?_, ?_, ?_, ?_, ?_⟩
    · exact mineOnly_setMe ..
    · rw [WentOn, me_setMe, hp]; exact ⟨rfl, rfl, rfl⟩
    · rw [me_setMe, hp]; rfl
    · intro _
      refine ⟨by rw [me_setMe, hp]; rfl, ?_, ?_, ?_, ?_⟩
      · intro c
        rw [me_setMe, Ctx.xAt_goto]
        exact h1 c (Nat.zero_le c)
      · intro c r hr
        rw [me_setMe, Ctx.xAt_goto, h3 c r fun h => hr (BitVec.eq_of_toNat_eq h.symm), g2]
      · intro c r
        rw [me_setMe, Ctx.vAt_goto, h4 c r (by unfold xCode; omega), g1]
      · intro c r
        rw [me_setMe, Ctx.pAt_goto, h5 c r (by unfold xCode; omega), g3]
    · intro h; simp [hl] at h

/-- The same of a vector register, of a context that first takes `f` as its lanes' flags. -/
theorem writesVVar_of {i : Instr} {s : State} {st : Stall} {d : VReg} {v m : VWord} {f : Vector (BitVec 5) 32}
    (h : exec i s = done st 4 (varResult (setMe s { me s with lanef := f }) (vCode d) (.value v) v m)) :
    WritesVVar i s st d v m f := by
  have hd := d.isLt
  let t0 : Ctx := { me s with lanef := f }
  replace h := h.trans (congrArg Host.Outcome.next ((congrArg (fun u => advance u st 4) (varResult_setMe s t0 (vCode d) (.value v) v m)).trans (advance_setMe ..)))
  cases hl : s.cur.late with
  | true =>
    simp only [hl, varCtx, if_true] at h
    refine ⟨_, h, ?_, ?_, ?_, ?_, ?_⟩
    · exact mineOnly_setMe ..
    · rw [WentOn, me_setMe]; exact ⟨rfl, rfl, rfl⟩
    · rw [me_setMe]; rfl
    · intro h; simp [hl] at h
    · intro _; rw [me_setMe]; exact ⟨rfl, rfl, rfl⟩
  | false =>
    simp only [hl, varCtx, Bool.false_eq_true, if_false] at h
    have hp := Ctx.putV_only t0 0 0 d v m
    have h1 := fun c => Ctx.vAt_put_same t0 0 0 d v m c
    have h3 := fun c r => Ctx.vAt_put_other t0 0 0 (vCode d) v m c r
    have h4 := fun c r => Ctx.xAt_put_other t0 0 0 (vCode d) v m c r
    have h5 := fun c r => Ctx.pAt_put_other t0 0 0 (vCode d) v m c r
    have g2 : ∀ (c : Nat) (r : Reg), t0.xAt c r = (me s).xAt c r := fun c r => by rw [xAt_dues, xAt_dues]; rfl
    have g1 : ∀ (c : Nat) (r : VReg), t0.vAt c r = (me s).vAt c r := fun c r => by rw [vAt_dues, vAt_dues]; rfl
    have g3 : ∀ (c : Nat) (r : PReg), t0.pAt c r = (me s).pAt c r := fun c r => by rw [pAt_dues, pAt_dues]; rfl
    generalize t0.put 0 0 (vCode d) v m = p at *
    refine ⟨_, h, ?_, ?_, ?_, ?_, ?_⟩
    · exact mineOnly_setMe ..
    · rw [WentOn, me_setMe, hp]; exact ⟨rfl, rfl, rfl⟩
    · rw [me_setMe, hp]; rfl
    · intro _
      refine ⟨by rw [me_setMe, hp]; rfl, ?_, ?_, ?_, ?_⟩
      · intro c
        rw [me_setMe, Ctx.vAt_goto, h1 c (Nat.zero_le c)]
        unfold Ctx.vAfter
        rw [g1]
        rfl
      · intro c r hr
        rw [me_setMe, Ctx.vAt_goto, h3 c r fun h => hr (BitVec.eq_of_toNat_eq (by unfold vCode at h; omega)), g1]
      · intro c r
        have := r.isLt
        rw [me_setMe, Ctx.xAt_goto, h4 c r (by unfold vCode; omega), g2]
      · intro c r
        rw [me_setMe, Ctx.pAt_goto, h5 c r (by unfold vCode; omega), g3]
    · intro h; simp [hl] at h

/-! ## Vector and predicate results -/

/-- All that a vector result can do, of a context that first takes `fl` as its lanes' flags and `q` as its generator. -/
theorem writesV_of {i : Instr} {s : State} {st : Stall} {lat : Nat} {d : VReg} {v m : VWord} {fl : Vector (BitVec 5) 32}
    {q : BitVec 16} (h : exec i s = .next (advance (setMe s { (me s).put (myCore s).cycle lat (vCode d) v m with
      lanef := fl
      seed := q }) st 4)) : WritesV i s st lat d v m fl q := by
  have hd := d.isLt
  have hp := Ctx.putV_only (me s) (myCore s).cycle lat d v m
  have h1 := fun c => Ctx.vAt_put_same (me s) (myCore s).cycle lat d v m c
  have h2 := fun c => Ctx.vAt_put_before (me s) (myCore s).cycle lat d v m c
  have h3 := fun c r => Ctx.vAt_put_other (me s) (myCore s).cycle lat (vCode d) v m c r
  have h4 := fun c r => Ctx.xAt_put_other (me s) (myCore s).cycle lat (vCode d) v m c r
  have h5 := fun c r => Ctx.pAt_put_other (me s) (myCore s).cycle lat (vCode d) v m c r
  generalize (me s).put (myCore s).cycle lat (vCode d) v m = p at *
  have g1 : ∀ (c : Nat) (r : VReg), ({ p with lanef := fl, seed := q } : Ctx).vAt c r = p.vAt c r := fun c r => by
    rw [vAt_dues, vAt_dues]; rfl
  have g2 : ∀ (c : Nat) (r : Reg), ({ p with lanef := fl, seed := q } : Ctx).xAt c r = p.xAt c r := fun c r => by
    rw [xAt_dues, xAt_dues]; rfl
  have g3 : ∀ (c : Nat) (r : PReg), ({ p with lanef := fl, seed := q } : Ctx).pAt c r = p.pAt c r := fun c r => by
    rw [pAt_dues, pAt_dues]; rfl
  have e := advance_setMe s { p with lanef := fl, seed := q } st 4
  have hm : me (advance (setMe s { p with lanef := fl, seed := q }) st 4) = _ := (congrArg me e).trans (me_setMe ..)
  refine ⟨_, h, ?_, ?_, ?_, ?_, ?_, ?_, ?_, ?_⟩
  · rw [e]
    exact mineOnly_setMe ..
  · rw [WentOn, hm, hp]
    exact ⟨rfl, rfl, rfl⟩
  · rw [hm, hp]
    rfl
  · intro c hc
    rw [hm, Ctx.vAt_goto, g1]
    exact h1 c hc
  · intro c hl hc
    rw [hm, Ctx.vAt_goto, g1]
    exact h2 c hl hc
  · intro c r hr
    rw [hm, Ctx.vAt_goto, g1]
    exact h3 c r fun h => hr (BitVec.eq_of_toNat_eq (by unfold vCode at h; omega))
  · intro c r
    have := r.isLt
    rw [hm, Ctx.xAt_goto, g2]
    exact h4 c r (by unfold vCode; omega)
  · intro c r
    rw [hm, Ctx.pAt_goto, g3]
    exact h5 c r (by unfold vCode; omega)

/-- All that a predicate result can do. -/
theorem writesP_of {i : Instr} {s : State} {st : Stall} {lat : Nat} {d : PReg} {v m : BitVec 32} {fl : Vector (BitVec 5) 32}
    (h : exec i s = .next (advance (setMe s
      { (me s).put (myCore s).cycle lat (pCode d) (v.setWidth 1024) (m.setWidth 1024) with lanef := fl }) st 4)) :
    WritesP i s st lat d v m fl := by
  have hd := d.isLt
  have hp := Ctx.putP_only (me s) (myCore s).cycle lat d (v.setWidth 1024) (m.setWidth 1024)
  have h1 := fun c => Ctx.pAt_put_same (me s) (myCore s).cycle lat d v m c
  have h2 := fun c => Ctx.pAt_put_before (me s) (myCore s).cycle lat d (v.setWidth 1024) (m.setWidth 1024) c
  have h3 := fun c r => Ctx.pAt_put_other (me s) (myCore s).cycle lat (pCode d) (v.setWidth 1024) (m.setWidth 1024) c r
  have h4 := fun c r => Ctx.xAt_put_other (me s) (myCore s).cycle lat (pCode d) (v.setWidth 1024) (m.setWidth 1024) c r
  have h5 := fun c r => Ctx.vAt_put_other (me s) (myCore s).cycle lat (pCode d) (v.setWidth 1024) (m.setWidth 1024) c r
  generalize (me s).put (myCore s).cycle lat (pCode d) (v.setWidth 1024) (m.setWidth 1024) = p at *
  have g1 : ∀ (c : Nat) (r : PReg), ({ p with lanef := fl } : Ctx).pAt c r = p.pAt c r := fun c r => by
    rw [pAt_dues, pAt_dues]; rfl
  have g2 : ∀ (c : Nat) (r : Reg), ({ p with lanef := fl } : Ctx).xAt c r = p.xAt c r := fun c r => by
    rw [xAt_dues, xAt_dues]; rfl
  have g3 : ∀ (c : Nat) (r : VReg), ({ p with lanef := fl } : Ctx).vAt c r = p.vAt c r := fun c r => by
    rw [vAt_dues, vAt_dues]; rfl
  have e := advance_setMe s { p with lanef := fl } st 4
  have hm : me (advance (setMe s { p with lanef := fl }) st 4) = _ := (congrArg me e).trans (me_setMe ..)
  refine ⟨_, h, ?_, ?_, ?_, ?_, ?_, ?_, ?_, ?_⟩
  · rw [e]
    exact mineOnly_setMe ..
  · rw [WentOn, hm, hp]
    exact ⟨rfl, rfl, rfl⟩
  · rw [hm, hp]
    rfl
  · intro c hc
    rw [hm, Ctx.pAt_goto, g1]
    exact h1 c hc
  · intro c hl hc
    rw [hm, Ctx.pAt_goto, g1]
    exact h2 c hl hc
  · intro c r hr
    rw [hm, Ctx.pAt_goto, g1]
    exact h3 c r fun h => hr (BitVec.eq_of_toNat_eq (by unfold pCode at h; omega))
  · intro c r
    have := r.isLt
    rw [hm, Ctx.xAt_goto, g2]
    exact h4 c r (by unfold pCode; omega)
  · intro c r
    have := r.isLt
    rw [hm, Ctx.vAt_goto, g3]
    exact h5 c r (by unfold pCode; omega)

end Sys2Proof.Machine
end

