-- ==== Sys2Proof/Laws/Access.lean ====
section
/-! SUPPORT. Sys2Proof/Laws/Access.lean: all that an access to a place of its own core can do when nothing of its context is on
its way: it is applied in the step that issues it, and its answer reaches its registers. -/

namespace Sys2Proof.Machine

/-! ## Slots -/

theorem noCode_ne {n : Nat} (h : n < 255) : n ≠ noCode := by unfold noCode; omega

/-- The slot of an access that is newer than every other. -/
theorem find_new {l : List RSlot} {n : Nat} (h : ∀ r ∈ l, r.num < n) (x : RSlot) (hx : x.num = n) (ha : x.arr = false) :
    (l ++ [x]).find? (fun y => y.num == n && !y.arr) = some x := by
  rw [List.find?_append]
  have : l.find? (fun y => y.num == n && !y.arr) = none := by
    rw [List.find?_eq_none]
    intro y hy
    have := h y hy
    simp; omega
  simp [this, hx, ha]

theorem map_old {l : List RSlot} {n : Nat} (h : ∀ r ∈ l, r.num < n) (x x' : RSlot) (hx : x.num = n) :
    (l ++ [x]).map (fun y => if y.num = n then x' else y) = l ++ [x'] := by
  rw [List.map_append]
  congr 1
  · rw [List.map_congr_left (g := id)]
    · simp
    · intro y hy; have := h y hy; rw [if_neg (by omega)]; rfl
  · simp [hx]

theorem filter_old {l : List RSlot} {n : Nat} (h : ∀ r ∈ l, r.num < n) (x : RSlot) (hx : x.num = n) :
    (l ++ [x]).filter (fun y => y.num != n) = l := by
  rw [List.filter_append]
  have : l.filter (fun y => y.num != n) = l := by
    rw [List.filter_eq_self]; intro y hy; have := h y hy; simp; omega
  simp [this, hx]

theorem findAck_new {l : List Unack} {n : Nat} (h : ∀ r ∈ l, r.num < n) (x : Unack) (hx : x.num = n) :
    (l ++ [x]).find? (fun y => y.num == n) = some x := by
  rw [List.find?_append]
  have : l.find? (fun y => y.num == n) = none := by
    rw [List.find?_eq_none]
    intro y hy
    have := h y hy
    simp; omega
  simp [this, hx]

theorem filterAck_old {l : List Unack} {n : Nat} (h : ∀ r ∈ l, r.num < n) (x : Unack) (hx : x.num = n) :
    (l ++ [x]).filter (fun y => y.num != n) = l := by
  rw [List.filter_append]
  have : l.filter (fun y => y.num != n) = l := by
    rw [List.filter_eq_self]; intro y hy; have := h y hy; simp; omega
  simp [this, hx]

theorem filterR_old {l : List RSlot} {n : Nat} (h : ∀ r ∈ l, r.num < n) : l.filter (fun y => y.num != n) = l := by
  rw [List.filter_eq_self]; intro y hy; have := h y hy; simp; omega

/-! ## From issue to the answer -/

/-- The state in which an access is applied: its instruction has gone on, and the access is noted. -/
def issued (s : State) (st : Stall) (len : Nat) (a : Access) : State :=
  setMe { s with serial := s.serial + 1 }
    (noteAccess { (me s).goto ((me s).pc + BitVec.ofNat 64 len) with stall := (myCore s).cycle + st.toNat + 1 } a 1)

/-- The stamp of an access that stays on its die. -/
def ownStamp (s : State) : Vec16 :=
  if isWorker s.cur.core then vraise zeroVec (dieField s.cur.core) (dieAt s (dieOf s.cur.core)).wctr else zeroVec

theorem issue_eq (s : State) (st : Stall) (len : Nat) (a : Access) (p : Place) (wait : Option Cause)
    (hs : (me s).rslots.length < 12) (hh : a.home = homeOf (whoOf a) p) :
    issue s st len a p wait =
      .next (match wait with
        | none => sendAccess (issued s st len a) a p
        | some c => parkFor (sendAccess (issued s st len a) a p) a.num c) := by
  unfold issue
  have h1 : (a.slotted && slotsFull (me s)) = false := by
    unfold slotsFull; rw [Bool.and_eq_false_iff]; right; simpa using hs
  have h2 : ({ a with home := homeOf (whoOf a) p } : Access) = a := by rw [← hh]
  simp only [h1, Bool.false_eq_true, if_false, h2]
  have h3 : setMe (advance { s with serial := s.serial + 1 } st len)
      (noteAccess (me (advance { s with serial := s.serial + 1 } st len)) a 1) = issued s st len a := by
    rw [show me (advance { s with serial := s.serial + 1 } st len) = _ from me_jumpTo _ _ _]
    show setMe (setMe _ _) _ = _
    rw [setMe_setMe]
    rfl
  rw [h3]
  cases wait <;> rfl

@[simp] theorem me_issued (s : State) (st : Stall) (len : Nat) (a : Access) : me (issued s st len a) =
    noteAccess { (me s).goto ((me s).pc + BitVec.ofNat 64 len) with stall := (myCore s).cycle + st.toNat + 1 } a 1 :=
  me_setMe ..

theorem unapplied_issued (s : State) (st : Stall) (len : Nat) (a : Access) : unapplied (issued s st len a) = unapplied s := rfl
theorem pendingGets_issued (s : State) (st : Stall) (len : Nat) (a : Access) (n c : Nat) :
    pendingGets (issued s st len a) n c = pendingGets s n c := rfl
theorem behind_issued (s : State) (st : Stall) (len : Nat) (a : Access) (n : Nat) (v : Vec16) :
    behind (issued s st len a) n v = behind s n v := rfl
theorem dieAt_issued (s : State) (st : Stall) (len : Nat) (a : Access) (d : Nat) : dieAt (issued s st len a) d = dieAt s d := rfl

theorem mayApply_quiet {s : State} (h : Quiet s) (st : Stall) (len : Nat) (a : Access) (hc : a.core = s.cur.core)
    (hx : a.ctx = s.cur.ctx) : mayApply (issued s st len a) a = true := by
  have alone (b : Access) (hb : b ∈ unapplied s) : (b.core == a.core && b.ctx == a.ctx) = false := by
    rw [hc, hx]
    exact Bool.eq_false_iff.mpr fun h1 => h.alone b hb (by simpa using h1)
  have none (f : Access → Bool) (hf : ∀ b, f b = true → (b.core == a.core && b.ctx == a.ctx) = true) :
      (unapplied s).any f = false := by
    rw [List.any_eq_false]
    intro b hb h1
    have := (alone b hb).symm.trans (hf b h1)
    exact absurd this (by simp)
  unfold mayApply mayTouch lowerLane supStoreBefore
  rw [pendingGets_issued, unapplied_issued, hc, hx, h.gets]
  rw [none _ (fun b hb => ?_), none _ (fun b hb => ?_), none _ (fun b hb => ?_)]
  · simp
  all_goals simp only [hc, hx, Bool.and_eq_true] at hb ⊢
  all_goals first | exact hb.1.1.1 | exact hb.1.1

/-- The stamp that an own access carries. -/
theorem stamp_issued {s : State} (h : Quiet s) (st : Stall) (len : Nat) (a : Access) (hc : a.core = s.cur.core)
    (hh : a.home = s.cur.core) : (stampOf (issued s st len a) a.core a.home a.op.storeLike).1 = ownStamp s := by
  unfold stampOf ownStamp
  rw [hc, hh, h.worker]
  simp [dieAt_issued]

theorem waiterBefore_quiet {s : State} (h : Quiet s) (st : Stall) (len : Nat) (a : Access) (ord : Nat) :
    waiterBefore (issued s st len a) a ord = false := by
  unfold waiterBefore
  rw [show (issued s st len a).held = s.held from rfl, h.held]
  rfl

theorem serveWaiters_none {s : State} (h : s.held = []) (n : Nat) : serveWaiters s n = s := by
  cases n with
  | zero => rfl
  | succ n => unfold serveWaiters; simp [h]

/-- An access of an own place, and no one waits for it. -/
structure OwnAccess (s : State) (a : Access) (p : Place) : Prop where
  core : a.core = s.cur.core
  ctx : a.ctx = s.cur.ctx
  num : a.num = s.serial
  act : a.act = (me s).act
  vec : a.vec = (me s).dep
  home : a.home = s.cur.core
  who : homeOf (whoOf a) p = s.cur.core
  own : isOwn s.cur.core p = true
  gran : ∀ g v, p ≠ .gran g v
  sup : ∀ v, p ≠ .sup v
  net : ∀ t, a.net = netOf t a p
  bare : a.own = none

/-- An own access is applied in the step that issues it. -/
theorem sendAccess_own {s : State} (h : Quiet s) {a : Access} {p : Place} (ha : OwnAccess s a p) (st : Stall) (len : Nat)
    (hp : placeOf (issued s st len a) a = .ok p) :
    sendAccess (issued s st len a) a p =
      afterServe (settle (issued s st len a) a (ownStamp s) (s.serial + 1) (applyOp (issued s st len a) a (ownStamp s) p) true) a := by
  have hw : ¬ isSupCore a.core := by
    rw [ha.core]; have := h.worker; unfold isWorker at this; unfold isSupCore; simp at *; omega
  have h2 : (isOwn a.core p && !(issued s st len a).cur.late && mayApply (issued s st len a) a) = true := by
    rw [ha.core, ha.own, mayApply_quiet h st len a ha.core ha.ctx, show (issued s st len a).cur.late = s.cur.late from rfl, h.now]
    rfl
  have h3 : serveHere (issued s st len a) a (ownStamp s) (issued s st len a).serial true =
      settle (issued s st len a) a (ownStamp s) (s.serial + 1) (applyOp (issued s st len a) a (ownStamp s) p) true := by
    unfold serveHere
    rw [hp]
    dsimp only
    rw [waiterBefore_quiet h, Bool.and_false, if_neg (by simp)]
    congr 1
    unfold applyAt
    cases applyOp (issued s st len a) a (ownStamp s) p <;> simp [hw]
  have h4 : serve (issued s st len a) a (ownStamp s) true =
      settle (issued s st len a) a (ownStamp s) (s.serial + 1) (applyOp (issued s st len a) a (ownStamp s) p) true := by
    unfold serve serveAs
    rw [ha.home, ha.vec, behind_issued, h.seen]
    dsimp only
    unfold serveWalk
    rw [hp]
    cases p <;> first | exact h3 | exact absurd rfl (ha.gran _ _)
  rw [← h4]
  unfold sendAccess
  simp only [show podOf a.home = podOf a.core from by rw [ha.home, ha.core], if_true]
  have h5 : ({ a with net := netOf (issued s st len a) a p, own := none } : Access) = a := by rw [← ha.net, ← ha.bare]
  cases p with
  | sup v => exact absurd rfl (ha.sup v)
  | _ =>
    dsimp only
    rw [h5, if_pos h2, stamp_issued h st len a ha.core ha.home]

/-! ## The answer -/

theorem Ctx.wcode_dep (c : Ctx) (l : List RSlot) (d : Vec16) (k : Nat) (v m : VWord) :
    ({ c with rslots := l, dep := d } : Ctx).wcode k v m = { c.wcode k v m with rslots := l, dep := d } := by
  unfold Ctx.wcode Ctx.wx Ctx.wp
  split
  · dsimp only; split <;> rfl
  split
  · rfl
  split
  · dsimp only; split <;> rfl
  split <;> rfl
theorem Ctx.putNow_dep (c : Ctx) (l : List RSlot) (d : Vec16) (k : Nat) (v m : VWord) :
    ({ c with rslots := l, dep := d } : Ctx).putNow k v m = { c.putNow k v m with rslots := l, dep := d } :=
  Ctx.wcode_dep { c with pend := stripPend c.pend k m } l d k v m

/-- The registers, and nothing else but results still to come. -/
theorem Ctx.wcode_only (c : Ctx) (k : Nat) (v m : VWord) : c.wcode k v m = { c with
    x := (c.wcode k v m).x
    v := (c.wcode k v m).v
    p := (c.wcode k v m).p
    tm := (c.wcode k v m).tm
    org := (c.wcode k v m).org } := by
  unfold Ctx.wcode Ctx.wx Ctx.wp
  split
  · dsimp only; split <;> rfl
  split
  · rfl
  split
  · dsimp only; split <;> rfl
  split <;> rfl
theorem Ctx.putNow_only (c : Ctx) (k : Nat) (v m : VWord) : c.putNow k v m = { c with
    x := (c.putNow k v m).x
    v := (c.putNow k v m).v
    p := (c.putNow k v m).p
    tm := (c.putNow k v m).tm
    org := (c.putNow k v m).org
    pend := (c.putNow k v m).pend } := by
  unfold Ctx.putNow
  rw [Ctx.wcode_only]

/-- What a reply writes: one register, or two. -/
def Ctx.answered (c : Ctx) (dest dest2 : Nat) (v mask : VWord) : Ctx :=
  let c := if dest = noCode then c else c.putNow dest v mask
  if dest2 = noCode then c else c.putNow dest2 (v >>> 64) allBits

theorem Ctx.answered_only (c : Ctx) (d e : Nat) (v m : VWord) : c.answered d e v m = { c with
    x := (c.answered d e v m).x
    v := (c.answered d e v m).v
    p := (c.answered d e v m).p
    tm := (c.answered d e v m).tm
    org := (c.answered d e v m).org
    pend := (c.answered d e v m).pend } := by
  unfold Ctx.answered
  by_cases hd : d = noCode <;> by_cases he : e = noCode <;> simp only [hd, he, if_true, if_false]
  · exact Ctx.putNow_only ..
  · exact Ctx.putNow_only ..
  · rw [Ctx.putNow_only (c.putNow d v m), Ctx.putNow_only c]

theorem Ctx.answered_dep (c : Ctx) (l : List RSlot) (dp : Vec16) (d e : Nat) (v m : VWord) :
    ({ c with rslots := l, dep := dp } : Ctx).answered d e v m = { c.answered d e v m with rslots := l, dep := dp } := by
  unfold Ctx.answered
  by_cases hd : d = noCode <;> by_cases he : e = noCode <;> simp only [hd, he, if_true, if_false, Ctx.putNow_dep]

theorem Ctx.wcode_slots (c : Ctx) (l : List RSlot) (w : List Nat) (k : Nat) (v m : VWord) :
    ({ c with rslots := l, wgens := w } : Ctx).wcode k v m = { c.wcode k v m with rslots := l, wgens := w } := by
  unfold Ctx.wcode Ctx.wx Ctx.wp
  split
  · dsimp only; split <;> rfl
  split
  · rfl
  split
  · dsimp only; split <;> rfl
  split <;> rfl
theorem Ctx.answered_slots (c : Ctx) (l : List RSlot) (w : List Nat) (d e : Nat) (v m : VWord) :
    ({ c with rslots := l, wgens := w } : Ctx).answered d e v m = { c.answered d e v m with rslots := l, wgens := w } := by
  have hn : ∀ (c : Ctx) (k : Nat) (v m : VWord), ({ c with rslots := l, wgens := w } : Ctx).putNow k v m =
      { c.putNow k v m with rslots := l, wgens := w } :=
    fun c k v m => Ctx.wcode_slots { c with pend := stripPend c.pend k m } l w k v m
  unfold Ctx.answered
  by_cases hd : d = noCode <;> by_cases he : e = noCode <;> simp only [hd, he, if_true, if_false, hn]

theorem Ctx.replyWake_running (c : Ctx) (h : c.st = .running) : c.replyWake = c := by
  unfold Ctx.replyWake; rw [if_neg]; rw [h]; simp

/-- A context after the reply to its newest access; `old` are its other slots. -/
def Ctx.replied' (c : Ctx) (old : List RSlot) (a : Access) (v mask : VWord) (vec : Vec16) : Ctx :=
  { c.answered a.dest a.dest2 (mergeBits 0 v mask) mask with
    rslots := old
    dep := vmax c.dep vec }

/-- All that the reply to the newest access of a running context can do. -/
theorem deliver_data (t : State) (a : Access) (v mask : VWord) (vec : Vec16) (old : List RSlot) (adr : Word)
    (hc : a.core = t.cur.core) (hx : a.ctx = t.cur.ctx) (hs : a.slotted = true) (hpay : ∀ n, a.op ≠ .payload n)
    (hslots : (me t).rslots = old ++ [⟨a.num, a.dest, a.dest2, a.op.kind, adr, false, 0, 0, 1, none⟩])
    (hold : ∀ r ∈ old, r.num < a.num) (hact : (me t).act = a.act) (hrun : (me t).st = .running)
    (hflags : a.dest = noCode → a.op.kind ≠ 1) :
    deliver t ⟨a, .data v, mask, [], vec⟩ = setMe (forgetAnswered t a) ((me t).replied' old a v mask vec) := by
  unfold Ctx.replied'
  unfold deliver
  dsimp only
  have hm : ctxAt (forgetAnswered t a) a.core a.ctx = me t := by rw [hc, hx]; rfl
  have h1 : ¬(¬(me t).act = a.act ∨ (me t).st = .free) := by rw [hact, hrun]; simp
  show (if ¬(ctxAt (forgetAnswered t a) a.core a.ctx).act = a.act ∨ (ctxAt (forgetAnswered t a) a.core a.ctx).st = .free then _
    else if a.slotted = true then deliverSlotted (forgetAnswered t a) _ else _) = _
  rw [hm, if_neg h1, if_pos hs]
  unfold deliverSlotted
  dsimp only
  rw [hm, hslots, find_new hold _ rfl rfl]
  dsimp only
  rw [map_old hold _ _ rfl]
  have hcm : ∀ u : Ctx, setCtx (forgetAnswered t a) a.core a.ctx u = setMe (forgetAnswered t a) u := by intro u; rw [hc, hx]; rfl
  have h2 : ¬ 0 < 1 - 1 := by omega
  have fin : ∀ X : Ctx, X.st = .running → X.rslots = old ++ [⟨a.num, a.dest, a.dest2, a.op.kind, adr, false,
      mergeBits 0 v mask, 0 ||| mask, 0, none⟩] → X = { me t with rslots := X.rslots, dep := vmax (me t).dep vec } →
      finishSlot (setMe (forgetAnswered t a) X) a.core a.ctx ⟨a.num, a.dest, a.dest2, a.op.kind, adr, false,
        mergeBits 0 v mask, 0 ||| mask, 0, none⟩ (mergeBits 0 v mask) (0 ||| mask) = setMe (forgetAnswered t a)
      { (me t).answered a.dest a.dest2 (mergeBits 0 v mask) mask with
        rslots := old
        dep := vmax (me t).dep vec } := by
    intro X hX1 hX2 hX3
    unfold finishSlot
    have hm2 : ctxAt (setMe (forgetAnswered t a) X) a.core a.ctx = X := by rw [hc, hx]; exact me_setMe ..
    rw [hm2, if_neg (by rw [hX1]; simp)]
    have hz : (0 ||| mask : VWord) = mask := by simp
    rw [hz]
    have hd : X.deliverSlot ⟨a.num, a.dest, a.dest2, a.op.kind, adr, false, mergeBits 0 v mask, mask, 0, none⟩ =
        X.answered a.dest a.dest2 (mergeBits 0 v mask) mask := by
      unfold Ctx.deliverSlot Ctx.answered
      dsimp only
      by_cases h : a.dest = noCode
      · rw [if_pos h, if_neg (hflags h)]
        simp only [h, if_true]
      · simp only [h, if_false]
    have hst : ((me t).answered a.dest a.dest2 (mergeBits 0 v mask) mask).st = .running := by
      rw [Ctx.answered_only]; exact hrun
    dsimp only
    have hans := (congrArg (fun Y : Ctx => Y.answered a.dest a.dest2 (mergeBits 0 v mask) mask) hX3).trans
      (Ctx.answered_dep (me t) X.rslots (vmax (me t).dep vec) a.dest a.dest2 (mergeBits 0 v mask) mask)
    dsimp only at hans
    rw [hd, hans]
    have wk : ∀ Y : Ctx, Y.st = ((me t).answered a.dest a.dest2 (mergeBits 0 v mask) mask).st → Y.replyWake = Y :=
      fun Y h => Ctx.replyWake_running Y (h.trans hst)
    refine (congrArg (setCtx _ a.core a.ctx) (wk _ ?_)).trans ?_
    · rfl
    rw [hc, hx]
    refine (setMe_setMe (forgetAnswered t a) X _).trans ?_
    rw [hX2]
    dsimp only
    rw [filter_old hold _ rfl]
  have key := fin { me t with
      rslots := old ++ [⟨a.num, a.dest, a.dest2, a.op.kind, adr, false, mergeBits 0 v mask, 0 ||| mask, 0, none⟩]
      dep := vmax (me t).dep vec } hrun rfl rfl
  rw [← key]
  cases h : a.op with
  | payload n => exact absurd h (hpay n)
  | _ =>
    simp only [lowestFlt, if_true]
    rw [hcm]
    rfl

/-- The lanes' flags after a store's answer. -/
def ackFlags (t : Ctx) (a : Access) (v : VWord) : Vector (BitVec 5) 32 :=
  if a.op.vector then Vector.ofFn fun i : Fin 32 => t.lanef.get i ||| flagsAt v i.val else t.lanef

/-- The flags of a vector store land in the registers of a context that is not saved. -/
theorem landFlags_running (s : State) (n c : Nat) (v : VWord) (h : (ctxAt s n c).st = .running) :
    landFlags s n c v = setCtx s n c { ctxAt s n c with
      lanef := Vector.ofFn fun i : Fin 32 => (ctxAt s n c).lanef.get i ||| flagsAt v i.val } := by
  unfold landFlags
  dsimp only
  rw [if_neg (by rw [h]; decide)]

/-- All that the acknowledgement of the newest access of a running context does to that context. -/
theorem deliverAck_newest (s : State) (a : Access) (v mask : VWord) (bytes : List Byte) (vec : Vec16) (old : List Unack)
    (hacks : (ctxAt s a.core a.ctx).acks = old ++ [⟨a.num, a.gen, a.home, a.op.vector, 1, none⟩])
    (hold : ∀ r ∈ old, r.num < a.num) (hslots : ∀ r ∈ (ctxAt s a.core a.ctx).rslots, r.num < a.num)
    (hrun : (ctxAt s a.core a.ctx).st = .running) :
    deliverAck s ⟨a, .data v, mask, bytes, vec⟩ = setCtx s a.core a.ctx
      { ctxAt s a.core a.ctx with
        acks := old
        lanef := ackFlags (ctxAt s a.core a.ctx) a v } := by
  have key : ∀ Y : Ctx, Y.acks = old ++ [⟨a.num, a.gen, a.home, a.op.vector, 1, none⟩] →
      (∀ r ∈ Y.rslots, r.num < a.num) → Y.st = .running → (Y.drop a.num).replyWake = { Y with acks := old } := by
    intro Y h1 h2 h3
    refine (Ctx.replyWake_running (Y.drop a.num) h3).trans ?_
    unfold Ctx.drop
    rw [h1, filterAck_old hold _ rfl, filterR_old h2]
  unfold deliverAck
  dsimp only
  rw [hacks, findAck_new hold _ rfl]
  dsimp only
  rw [if_neg (by omega)]
  simp only [lowestFlt]
  unfold ackFlags
  cases hv : a.op.vector with
  | false =>
    rw [if_neg (by decide), if_neg (by decide), key _ (hacks.trans (by rw [hv])) hslots hrun]
  | true =>
    rw [if_pos rfl, if_pos rfl, landFlags_running s a.core a.ctx v hrun, ctxAt_setCtx_same,
      key { ctxAt s a.core a.ctx with
        lanef := Vector.ofFn fun i : Fin 32 => (ctxAt s a.core a.ctx).lanef.get i ||| flagsAt v i.val }
        (hacks.trans (by rw [hv])) hslots hrun, setCtx_setCtx]

/-- All that the acknowledgement of the newest access of a running context can do. -/
theorem deliver_ack (t : State) (a : Access) (v mask : VWord) (bytes : List Byte) (vec : Vec16) (old : List Unack)
    (hc : a.core = t.cur.core) (hx : a.ctx = t.cur.ctx) (hs : a.slotted = false)
    (hacks : (me t).acks = old ++ [⟨a.num, a.gen, a.home, a.op.vector, 1, none⟩])
    (hold : ∀ r ∈ old, r.num < a.num) (hslots : ∀ r ∈ (me t).rslots, r.num < a.num) (hact : (me t).act = a.act)
    (hrun : (me t).st = .running) :
    deliver t ⟨a, .data v, mask, bytes, vec⟩ = setMe (forgetAnswered t a)
      { me t with
        acks := old
        lanef := ackFlags (me t) a v } := by
  unfold deliver
  dsimp only
  have hm : ctxAt (forgetAnswered t a) a.core a.ctx = me t := by rw [hc, hx]; rfl
  have h1 : ¬(¬(me t).act = a.act ∨ (me t).st = .free) := by rw [hact, hrun]; simp
  show (if ¬(ctxAt (forgetAnswered t a) a.core a.ctx).act = a.act ∨ (ctxAt (forgetAnswered t a) a.core a.ctx).st = .free then _
    else if a.slotted = true then _ else deliverAck (forgetAnswered t a) _) = _
  rw [hm, if_neg h1, if_neg (by simp [hs]), deliverAck_newest _ a v mask bytes vec old (by rw [hm]; exact hacks) hold
    (by rw [hm]; exact hslots) (by rw [hm]; exact hrun), hm, hc, hx]
  rfl

/-! ## Issue, application and answer in one step -/

/-- The running context after its instruction has gone on. -/
def wentOn (s : State) (st : Stall) (len : Nat) : Ctx :=
  { (me s).goto ((me s).pc + BitVec.ofNat 64 len) with stall := (myCore s).cycle + st.toNat + 1 }

theorem noteWrite_only (s : State) (src home : Nat) (x y : Vec16) :
    noteWrite s src home x y = { s with dies := (noteWrite s src home x y).dies } := by
  unfold noteWrite; split <;> rfl

/-- A home's memory and bits change, and the stamps it has seen. -/
def wrote (s : State) (m : List Host.Cell) (f : List Nat) (d : List (Nat × Die)) : State :=
  { s with
    mem := m
    full := f
    dies := d }

theorem settle_data (s : State) (a : Access) (x : Vec16) (ord : Nat) (m : List Host.Cell) (f : List Nat) (v mask : VWord)
    (b : List Byte) (vec : Vec16) :
    ∃ d, settle s a x ord (.answer { s with mem := m, full := f } ⟨a, .data v, mask, b, vec⟩) true =
      deliver (wrote s m f d) ⟨a, .data v, mask, b, vec⟩ := by
  unfold settle
  dsimp only
  cases a.op.storeLike
  · exact ⟨s.dies, rfl⟩
  · exact ⟨_, by rw [if_pos rfl, if_pos rfl, noteWrite_only]; rfl⟩

theorem afterServe_quiet {s : State} (h : s.held = []) (a : Access) : afterServe s a = s := by
  unfold afterServe
  split
  · rw [h]; rfl
  · rfl

theorem not_outstanding {t : Ctx} {n : Nat} (h1 : ∀ r ∈ t.rslots, r.num < n) (h2 : ∀ u ∈ t.acks, u.num < n) :
    t.outstanding n = false := by
  unfold Ctx.outstanding
  simp only [Bool.or_eq_false_iff, List.any_eq_false]
  refine ⟨fun r hr => ?_, fun u hu => ?_⟩
  · have := h1 r hr; simp; omega
  · have := h2 u hu; simp; omega

theorem parkFor_answered (s : State) (n : Nat) (c : Cause) (h : (me s).outstanding n = false) : parkFor s n c = s := by
  unfold parkFor; dsimp only; rw [h]; simp

theorem others_setMe (s u : State) (t : Ctx) (hc : u.cur = s.cur)
    (h : ∀ n c, ¬(n = s.cur.core ∧ c = s.cur.ctx) → ctxAt u n c = ctxAt s n c) : OthersSame s (setMe u t) := by
  intro n c hn
  unfold setMe
  rw [hc, ctxAt_setCtx_other _ _ hn]
  exact h n c hn

theorem others_issued (s : State) (st : Stall) (len : Nat) (a : Access) : OthersSame s (issued s st len a) :=
  others_setMe s { s with serial := s.serial + 1 } _ rfl fun _ _ _ => rfl

/-- All that an own access which answers with data can do, when it holds a reply slot. -/
theorem issue_own_data {s : State} (h : Quiet s) {a : Access} {p : Place} (ha : OwnAccess s a p) (st : Stall) (len : Nat)
    (wait : Option Cause) (hs : a.slotted = true) (hpay : ∀ n, a.op ≠ .payload n) (hflags : a.dest = noCode → a.op.kind ≠ 1)
    (hp : placeOf (issued s st len a) a = .ok p) (m : List Host.Cell) (f : List Nat) (v mask : VWord)
    (hap : applyOp (issued s st len a) a (ownStamp s) p =
      okReply { issued s st len a with mem := m, full := f } a v mask []) :
    ∃ t, issue s st len a p wait = .next t ∧ t.mem = m ∧ t.full = f ∧ t.flight = s.flight ∧ OthersSame s t ∧
      me t = { (wentOn s st len).answered a.dest a.dest2 (mergeBits 0 v mask) mask with
        wgens := (me t).wgens
        dep := (me t).dep } := by
  obtain ⟨d, hd⟩ := settle_data (issued s st len a) a (ownStamp s) (s.serial + 1) m f v mask []
    (replyVec { issued s st len a with mem := m, full := f } a)
  have hme : me (wrote (issued s st len a) m f d) = noteAccess (wentOn s st len) a 1 := me_issued s st len a
  have hg : (wentOn s st len).rslots = (me s).rslots := rfl
  have hnote : ∃ w, noteAccess (wentOn s st len) a 1 = { wentOn s st len with
      rslots := (me s).rslots ++ [⟨a.num, a.dest, a.dest2, a.op.kind, if a.op.lanewise then a.adr2 else a.adr, false, 0, 0, 1, none⟩]
      wgens := w } := by
    unfold noteAccess
    dsimp only
    rw [if_pos hs]
    generalize (if a.op.lanewise = true then a.adr2 else a.adr) = adr
    split
    · exact ⟨_, rfl⟩
    · exact ⟨(wentOn s st len).wgens, rfl⟩
  obtain ⟨w, hw⟩ := hnote
  rw [hw] at hme
  have hold : ∀ r ∈ (me s).rslots, r.num < a.num := by rw [ha.num]; exact h.slots
  have hdel := deliver_data (wrote (issued s st len a) m f d) a v mask (replyVec { issued s st len a with mem := m, full := f } a)
    (me s).rslots (if a.op.lanewise then a.adr2 else a.adr) ha.core ha.ctx hs hpay (by rw [hme]) hold
    (by rw [hme, ha.act]; rfl) (by rw [hme]; exact h.runs) hflags
  have hsend := sendAccess_own h ha st len hp
  rw [hap] at hsend
  unfold okReply at hsend
  rw [hd, hdel] at hsend
  generalize hR : Ctx.replied' _ (me s).rslots a v mask _ = R at hsend
  rw [hme] at hR
  unfold Ctx.replied' at hR
  rw [Ctx.answered_slots] at hR
  have hfin := me_setMe (forgetAnswered (wrote (issued s st len a) m f d) a) R
  have hoth := others_setMe s (forgetAnswered (wrote (issued s st len a) m f d) a) R rfl (others_issued s st len a)
  generalize hX : setMe (forgetAnswered (wrote (issued s st len a) m f d) a) R = X at hsend hfin hoth
  rw [← hR] at hfin
  have hold2 : ∀ u ∈ (me s).acks, u.num < a.num := by rw [ha.num]; exact h.acks
  have hX2 : X.held = [] := by rw [← hX]; exact h.held
  rw [issue_eq s st len a p wait h.room (by rw [ha.home, ha.who]), hsend, afterServe_quiet hX2]
  have hr : ((wentOn s st len).answered a.dest a.dest2 (mergeBits 0 v mask) mask).rslots = (me s).rslots := by
    rw [Ctx.answered_only]; rfl
  have hk : ((wentOn s st len).answered a.dest a.dest2 (mergeBits 0 v mask) mask).acks = (me s).acks := by
    rw [Ctx.answered_only]; rfl
  have hout : (me X).outstanding a.num = false := by
    rw [hfin]
    apply not_outstanding
    · exact hold
    · dsimp only; rw [hk]; exact hold2
  refine ⟨X, ?_, ?_, ?_, ?_, ?_, ?_⟩
  · cases wait with
    | none => rfl
    | some c => exact congrArg Host.Outcome.next (parkFor_answered _ _ _ hout)
  · rw [← hX]; rfl
  · rw [← hX]; rfl
  · rw [← hX]; rfl
  · exact hoth
  · rw [hfin, ← hr]

/-- All that an own access which answers with data can do, when it is only acknowledged. -/
theorem issue_own_ack {s : State} (h : Quiet s) {a : Access} {p : Place} (ha : OwnAccess s a p) (st : Stall) (len : Nat)
    (wait : Option Cause) (hs : a.slotted = false)
    (hp : placeOf (issued s st len a) a = .ok p) (m : List Host.Cell) (f : List Nat) (v mask : VWord)
    (hap : applyOp (issued s st len a) a (ownStamp s) p =
      okReply { issued s st len a with mem := m, full := f } a v mask []) :
    ∃ t, issue s st len a p wait = .next t ∧ t.mem = m ∧ t.full = f ∧ t.flight = s.flight ∧ OthersSame s t ∧
      me t = { wentOn s st len with
        lanef := ackFlags (me s) a v
        wgens := (me t).wgens } := by
  obtain ⟨d, hd⟩ := settle_data (issued s st len a) a (ownStamp s) (s.serial + 1) m f v mask []
    (replyVec { issued s st len a with mem := m, full := f } a)
  have hme : me (wrote (issued s st len a) m f d) = noteAccess (wentOn s st len) a 1 := me_issued s st len a
  have hnote : ∃ w, noteAccess (wentOn s st len) a 1 = { wentOn s st len with
      acks := (me s).acks ++ [⟨a.num, a.gen, a.home, a.op.vector, 1, none⟩]
      wgens := w } := by
    unfold noteAccess
    dsimp only
    rw [if_neg (show ¬ a.slotted = true by simp [hs])]
    split
    · exact ⟨_, rfl⟩
    · exact ⟨(wentOn s st len).wgens, rfl⟩
  obtain ⟨w, hw⟩ := hnote
  rw [hw] at hme
  have hold : ∀ r ∈ (me s).rslots, r.num < a.num := by rw [ha.num]; exact h.slots
  have hold2 : ∀ u ∈ (me s).acks, u.num < a.num := by rw [ha.num]; exact h.acks
  have hdel := deliver_ack (wrote (issued s st len a) m f d) a v mask []
    (replyVec { issued s st len a with mem := m, full := f } a) (me s).acks ha.core ha.ctx hs (by rw [hme]) hold2
    (by rw [hme]; exact hold) (by rw [hme, ha.act]; rfl) (by rw [hme]; exact h.runs)
  have hsend := sendAccess_own h ha st len hp
  rw [hap] at hsend
  unfold okReply at hsend
  rw [hd, hdel, hme] at hsend
  generalize hR : ({ ({ wentOn s st len with
      acks := (me s).acks ++ [⟨a.num, a.gen, a.home, a.op.vector, 1, none⟩]
      wgens := w } : Ctx) with
        acks := (me s).acks
        lanef := ackFlags _ a v } : Ctx) = R at hsend
  have hfin := me_setMe (forgetAnswered (wrote (issued s st len a) m f d) a) R
  have hoth := others_setMe s (forgetAnswered (wrote (issued s st len a) m f d) a) R rfl (others_issued s st len a)
  generalize hX : setMe (forgetAnswered (wrote (issued s st len a) m f d) a) R = X at hsend hfin hoth
  rw [← hR] at hfin
  have hX2 : X.held = [] := by rw [← hX]; exact h.held
  rw [issue_eq s st len a p wait h.room (by rw [ha.home, ha.who]), hsend, afterServe_quiet hX2]
  have hout : (me X).outstanding a.num = false := by
    rw [hfin]
    exact not_outstanding hold hold2
  refine ⟨X, ?_, ?_, ?_, ?_, ?_, ?_⟩
  · cases wait with
    | none => rfl
    | some c => exact congrArg Host.Outcome.next (parkFor_answered _ _ _ hout)
  · rw [← hX]; rfl
  · rw [← hX]; rfl
  · rw [← hX]; rfl
  · exact hoth
  · rw [hfin]; rfl

/-! ## Own places -/

theorem accView_congr (s : State) (a b : Access) (p : Place) (n : Nat) (rd wr : Bool) (h1 : a.core = b.core) (h2 : a.part = b.part)
    (h3 : a.supr = b.supr) {k : Nat} (h4 : isOwn k p = true) (h5 : ∀ v, p ≠ .sup v) :
    accView s a p n rd wr = accView s b p n rd wr := by
  unfold accView
  cases p with
  | gran g v => simp [isOwn] at h4
  | sup v => exact absurd rfl (h5 v)
  | _ => simp only [h1, h2, h3]

/-- A fault that comes before a page's record is needed is none of an own place. -/
theorem accView_early (s : State) (a : Access) (p : Place) (n : Nat) (rd wr : Bool) (e : View → Nat) {k : Nat}
    (ho : isOwn k p = true) : accView s a p n rd wr e = accView s a p n rd wr := by
  cases p with
  | gran g v => simp [isOwn] at ho
  | _ => rfl

/-- The state of an issued access shows its own places as before. -/
theorem accView_issued (s : State) (st : Stall) (len : Nat) (b a : Access) (p : Place) (n : Nat) (rd wr : Bool)
    (ho : isOwn s.cur.core p = true) (hs : ∀ v, p ≠ .sup v) : accView (issued s st len b) a p n rd wr = accView s a p n rd wr := by
  cases p with
  | sup v => exact absurd rfl (hs v)
  | gran g v => simp [isOwn] at ho
  | _ => rfl

theorem resolve_issued (s : State) (st : Stall) (len : Nat) (b : Access) (w : Who) (adr : Word) (load : Bool) :
    resolve (issued s st len b) w adr load = resolve s w adr load := rfl

theorem descView_red {s : State} {n off len i : Nat} {e f : Bool} {v : View} (h : descView s n off len i e f = .ok v) :
    v.red = false := by
  unfold descView at h
  dsimp only at h
  generalize (if nbits (descWord s n i 0) 52 2 = 0 then [] else _) = hs at h
  split at h
  · cases h
  · cases h; rfl

/-- Own memory holds no reduction page. -/
theorem own_red {s : State} {a : Access} {p : Place} {n : Nat} {rd wr : Bool} {v : View} {k : Nat} (ho : isOwn k p = true)
    (hs : ∀ v, p ≠ .sup v) (h : accView s a p n rd wr = .ok v) : v.red = false := by
  cases p with
  | sup v => exact absurd rfl (hs v)
  | gran g v => simp [isOwn] at ho
  | istore g v => simp [isOwn] at ho
  | ctl g v => simp [isOwn] at ho
  | mirror o => cases h; rfl
  | priv off =>
    simp only [accView, privView] at h
    split at h
    · cases h; rfl
    · split at h
      · next w hw => cases h; exact descView_red (v := w) hw
      · next w hw => exact absurd h (hw _)
  | slice m off =>
    simp only [accView, sliceView] at h
    repeat' split at h
    all_goals first | exact descView_red h | cases h

/-- An access of an own place is issued when its address leads there. -/
theorem accessAt_own {s : State} {p : Place} {v : View} {load rd wr : Bool} {n : Nat} (a : Access)
    (h : OwnAt s a.adr load n rd wr p v) (hc : a.core = s.cur.core) (hp : a.part = partNum s s.cur.core) (hs : a.supr = (me s).sup)
    (st : Stall) (len : Nat) (deny : Place → Bool) (hd : deny p = false) (wait : Option Cause) :
    accessAt s st len n rd wr load deny a wait = issue s st len a p wait := by
  unfold accessAt
  rw [h.leads]
  dsimp only
  have hf : ownFault s a p n rd wr = 0 := by
    unfold ownFault
    rw [hc, h.own, accView_congr s a (newAccess s .cntrd a.adr 4) p n rd wr hc hp hs h.own h.plain, h.view]
    rfl
  rw [if_neg (by simp [hd]), hf]
  rfl

theorem access_own {s : State} {p : Place} {v : View} {load rd wr : Bool} {n : Nat} (a : Access)
    (h : OwnAt s a.adr load n rd wr p v) (hc : a.core = s.cur.core) (hp : a.part = partNum s s.cur.core) (hs : a.supr = (me s).sup)
    (st : Stall) (len align : Nat) (noPriv : Bool) (hpriv : (noPriv && isPrivAdr a.adr) = false) (hal : a.adr.toNat % align = 0)
    (deny : Place → Bool) (hd : deny p = false) (wait : Option Cause) :
    access s st len align n noPriv rd wr load deny a wait = issue s st len a p wait := by
  unfold access
  have hf : formFault a.adr noPriv align = 0 := by
    unfold formFault
    rw [h.form, hpriv, hal]
    rfl
  rw [hf]
  exact accessAt_own a h hc hp hs st len deny hd wait

/-- Its home is the issuing core. -/
theorem homeOf_own {s : State} {p : Place} (w : Who) (hw : w.core = s.cur.core) (ho : isOwn s.cur.core p = true) :
    homeOf w p = s.cur.core := by
  cases p with
  | gran g v => simp [isOwn] at ho
  | istore g v => simp [isOwn] at ho
  | ctl g v => simp [isOwn] at ho
  | slice m off => simpa [isOwn, homeOf] using ho
  | _ => exact hw

/-! ## What the instruction leaves -/

theorem word_of_wide (n : Nat) :
    (BitVec.ofNat 1024 n).setWidth 64 = ((BitVec.ofNat 64 n).setWidth 1024 : VWord).setWidth 64 := by
  apply BitVec.eq_of_getLsbD_eq
  intro i hi
  simp only [BitVec.getLsbD_setWidth, BitVec.getLsbD_ofNat]
  have h1 : i < 1024 := by omega
  simp [hi, h1]

theorem xCode_ne (d : Reg) : xCode d ≠ noCode := by
  have := d.isLt; unfold xCode noCode; omega

theorem putNow_word (c : Ctx) (d : Reg) (n : Nat) :
    c.putNow (xCode d) (BitVec.ofNat 1024 n) allBits = c.put 0 0 (xCode d) ((BitVec.ofNat 64 n).setWidth 1024) allBits := by
  rw [← Ctx.putNow_eq]
  have hd : xCode d < 0x20 := d.isLt
  unfold Ctx.putNow Ctx.wcode
  rw [if_pos hd, if_pos hd, word_of_wide]

theorem answered_word (c : Ctx) (d : Reg) (n : Nat) :
    c.answered (xCode d) noCode (mergeBits 0 (BitVec.ofNat 1024 n) allBits) allBits =
      c.put 0 0 (xCode d) ((BitVec.ofNat 64 n).setWidth 1024) allBits := by
  have hm : mergeBits 0 (BitVec.ofNat 1024 n) allBits = BitVec.ofNat 1024 n := mergeBits_all 0 _
  unfold Ctx.answered
  dsimp only
  rw [if_neg (xCode_ne d), if_pos rfl, hm, putNow_word]

/-- An own access that brings a word into x[d]. -/
theorem accessX_of {i : Instr} {s : State} {st : Stall} {len : Nat} {d : Reg} {a : Access} {p : Place} {wait : Option Cause}
    (h : Quiet s) (he : exec i s = issue s st len a p wait) (ha : OwnAccess s a p) (hs : a.slotted = true)
    (hpay : ∀ n, a.op ≠ .payload n) (hd : a.dest = xCode d) (hd2 : a.dest2 = noCode)
    (hp : placeOf (issued s st len a) a = .ok p) {m : List Host.Cell} {f : List Nat} {w : Nat}
    (hap : applyOp (issued s st len a) a (ownStamp s) p = okWord { issued s st len a with mem := m, full := f } a w)
    {memory : State → Prop} (hm : ∀ t, t.mem = m → memory t) : AccessX i s st len d (BitVec.ofNat 64 w) f memory := by
  have hne : a.dest ≠ noCode := by rw [hd]; exact xCode_ne d
  obtain ⟨t, h1, h2, h3, h4, h5, h6⟩ := issue_own_data h ha st len wait hs hpay (fun h => absurd h hne) hp m f _ _ hap
  rw [hd, hd2, answered_word] at h6
  generalize hc : (wentOn s st len).put 0 0 (xCode d) ((BitVec.ofNat 64 w).setWidth 1024) allBits = c at h6
  have hfr := Ctx.putX_only (wentOn s st len) 0 0 d ((BitVec.ofNat 64 w).setWidth 1024) allBits
  rw [hc] at hfr
  have e1 : ∀ k r, (me t).xAt k r = c.xAt k r := fun k r => by rw [xAt_dues, xAt_dues, h6]; rfl
  have e2 : ∀ k r, (me t).vAt k r = c.vAt k r := fun k r => by rw [vAt_dues, vAt_dues, h6]; rfl
  have e3 : ∀ k r, (me t).pAt k r = c.pAt k r := fun k r => by rw [pAt_dues, pAt_dues, h6]; rfl
  have g1 : ∀ k r, (wentOn s st len).xAt k r = (me s).xAt k r := fun k r => Ctx.xAt_goto ..
  have g2 : ∀ k r, (wentOn s st len).vAt k r = (me s).vAt k r := fun k r => Ctx.vAt_goto ..
  have g3 : ∀ k r, (wentOn s st len).pAt k r = (me s).pAt k r := fun k r => Ctx.pAt_goto ..
  refine ⟨t, he.trans h1, ⟨h4, h5, ?_⟩, hm t h2, h3, ?_, ?_, ?_, ?_, ?_⟩
  · rw [WentOn, h6, hfr]; exact ⟨rfl, rfl, rfl⟩
  · rw [h6, hfr]; rfl
  · intro k
    rw [e1, ← hc]
    exact Ctx.xAt_put_same (wentOn s st len) 0 0 d (BitVec.ofNat 64 w) k (Nat.zero_le _)
  · intro k r hr
    rw [e1, ← hc, Ctx.xAt_put_other _ _ _ (xCode d) _ _ _ _ fun h => hr (BitVec.eq_of_toNat_eq h.symm), g1]
  · intro k r
    rw [e2, ← hc, Ctx.vAt_put_other _ _ _ _ _ _ _ _ (by unfold xCode; omega), g2]
  · intro k r
    rw [e3, ← hc, Ctx.pAt_put_other _ _ _ _ _ _ _ _ (by unfold xCode; omega), g3]

/-- An own access that brings two words. -/
theorem accessXX_of {i : Instr} {s : State} {st : Stall} {d e : Reg} {a : Access} {p : Place} {wait : Option Cause}
    (h : Quiet s) (he : exec i s = issue s st 4 a p wait) (ha : OwnAccess s a p) (hs : a.slotted = true)
    (hpay : ∀ n, a.op ≠ .payload n) (hd : a.dest = xCode d) (hd2 : a.dest2 = xCode e)
    (hp : placeOf (issued s st 4 a) a = .ok p) {m : List Host.Cell} {v : Nat} {w : Word}
    (hap : applyOp (issued s st 4 a) a (ownStamp s) p = okWord { issued s st 4 a with mem := m, full := s.full } a v)
    (hw : (BitVec.ofNat 1024 v >>> 64).setWidth 64 = w)
    {memory : State → Prop} (hm : ∀ t, t.mem = m → memory t) : AccessXX i s st d e (BitVec.ofNat 64 v) w memory := by
  have hne : a.dest ≠ noCode := by rw [hd]; exact xCode_ne d
  obtain ⟨t, h1, h2, h3, h4, h5, h6⟩ := issue_own_data h ha st 4 wait hs hpay (fun h => absurd h hne) hp m s.full _ _ hap
  have hmer : mergeBits 0 (BitVec.ofNat 1024 v) allBits = BitVec.ofNat 1024 v := mergeBits_all 0 _
  have hans : (wentOn s st 4).answered (xCode d) (xCode e) (BitVec.ofNat 1024 v) allBits =
      ((wentOn s st 4).put 0 0 (xCode d) ((BitVec.ofNat 64 v).setWidth 1024) allBits).put 0 0 (xCode e) (w.setWidth 1024) allBits := by
    unfold Ctx.answered
    dsimp only
    rw [if_neg (xCode_ne d), if_neg (xCode_ne e), putNow_word]
    generalize (wentOn s st 4).put 0 0 (xCode d) _ allBits = c
    rw [← Ctx.putNow_eq]
    have hx : xCode e < 0x20 := e.isLt
    unfold Ctx.putNow Ctx.wcode
    rw [if_pos hx, if_pos hx, hw]
    rw [show (w.setWidth 1024 : VWord).setWidth 64 = w by simp]
  rw [hd, hd2, hmer, hans] at h6
  generalize hc1 : (wentOn s st 4).put 0 0 (xCode d) ((BitVec.ofNat 64 v).setWidth 1024) allBits = c1 at h6
  generalize hc : c1.put 0 0 (xCode e) (w.setWidth 1024) allBits = c at h6
  have hfr1 := Ctx.putX_only (wentOn s st 4) 0 0 d ((BitVec.ofNat 64 v).setWidth 1024) allBits
  rw [hc1] at hfr1
  have hfr := Ctx.putX_only c1 0 0 e (w.setWidth 1024) allBits
  rw [hc] at hfr
  rw [hfr1] at hfr
  have e1 : ∀ k r, (me t).xAt k r = c.xAt k r := fun k r => by rw [xAt_dues, xAt_dues, h6]; rfl
  have e2 : ∀ k r, (me t).vAt k r = c.vAt k r := fun k r => by rw [vAt_dues, vAt_dues, h6]; rfl
  have e3 : ∀ k r, (me t).pAt k r = c.pAt k r := fun k r => by rw [pAt_dues, pAt_dues, h6]; rfl
  have g1 : ∀ k r, (wentOn s st 4).xAt k r = (me s).xAt k r := fun k r => Ctx.xAt_goto ..
  have g2 : ∀ k r, (wentOn s st 4).vAt k r = (me s).vAt k r := fun k r => Ctx.vAt_goto ..
  have g3 : ∀ k r, (wentOn s st 4).pAt k r = (me s).pAt k r := fun k r => Ctx.pAt_goto ..
  have ne : ∀ {r q : Reg}, r ≠ q → xCode q ≠ r.toNat := fun h h' => h (BitVec.eq_of_toNat_eq h'.symm)
  refine ⟨t, he.trans h1, ⟨h4, h5, ?_⟩, hm t h2, h3, ?_, ?_, ?_, ?_, ?_, ?_⟩
  · rw [WentOn, h6, hfr]; exact ⟨rfl, rfl, rfl⟩
  · rw [h6, hfr]; rfl
  · intro k
    rw [e1, ← hc]
    exact Ctx.xAt_put_same c1 0 0 e w k (Nat.zero_le _)
  · intro k hde
    rw [e1, ← hc, Ctx.xAt_put_other _ _ _ (xCode e) _ _ _ _ (ne hde), ← hc1]
    exact Ctx.xAt_put_same (wentOn s st 4) 0 0 d (BitVec.ofNat 64 v) k (Nat.zero_le _)
  · intro k r hr hr2
    rw [e1, ← hc, Ctx.xAt_put_other _ _ _ (xCode e) _ _ _ _ (ne hr2), ← hc1,
      Ctx.xAt_put_other _ _ _ (xCode d) _ _ _ _ (ne hr), g1]
  · intro k r
    rw [e2, ← hc, Ctx.vAt_put_other _ _ _ _ _ _ _ _ (by unfold xCode; omega), ← hc1,
      Ctx.vAt_put_other _ _ _ _ _ _ _ _ (by unfold xCode; omega), g2]
  · intro k r
    rw [e3, ← hc, Ctx.pAt_put_other _ _ _ _ _ _ _ _ (by unfold xCode; omega), ← hc1,
      Ctx.pAt_put_other _ _ _ _ _ _ _ _ (by unfold xCode; omega), g3]

/-- An own access that brings nothing, and holds no slot. -/
theorem accessOnly_of {i : Instr} {s : State} {st : Stall} {len : Nat} {a : Access} {p : Place} {wait : Option Cause}
    (h : Quiet s) (he : exec i s = issue s st len a p wait) (ha : OwnAccess s a p) (hs : a.slotted = false)
    (hv : a.op.vector = false) (hp : placeOf (issued s st len a) a = .ok p) {m : List Host.Cell} {f : List Nat} {w : Nat}
    (hap : applyOp (issued s st len a) a (ownStamp s) p = okWord { issued s st len a with mem := m, full := f } a w)
    {memory : State → Prop} (hm : ∀ t, t.mem = m → memory t) : AccessOnly i s st len f memory := by
  obtain ⟨t, h1, h2, h3, h4, h5, h6⟩ := issue_own_ack h ha st len wait hs hp m f _ _ hap
  refine ⟨t, he.trans h1, ⟨h4, h5, ?_⟩, hm t h2, h3, ?_⟩
  · rw [WentOn, h6]; exact ⟨rfl, rfl, rfl⟩
  · rw [h6]; unfold ackFlags; rw [hv]; rfl

/-- The same with a slot but no destination (a waiting store). -/
theorem accessOnly_slot {i : Instr} {s : State} {st : Stall} {len : Nat} {a : Access} {p : Place} {wait : Option Cause}
    (h : Quiet s) (he : exec i s = issue s st len a p wait) (ha : OwnAccess s a p) (hs : a.slotted = true)
    (hpay : ∀ n, a.op ≠ .payload n) (hd : a.dest = noCode) (hd2 : a.dest2 = noCode) (hk : a.op.kind ≠ 1)
    (hp : placeOf (issued s st len a) a = .ok p) {m : List Host.Cell} {f : List Nat} {w : Nat}
    (hap : applyOp (issued s st len a) a (ownStamp s) p = okWord { issued s st len a with mem := m, full := f } a w)
    {memory : State → Prop} (hm : ∀ t, t.mem = m → memory t) : AccessOnly i s st len f memory := by
  obtain ⟨t, h1, h2, h3, h4, h5, h6⟩ := issue_own_data h ha st len wait hs hpay (fun _ => hk) hp m f _ _ hap
  have hn : ∀ v m, (wentOn s st len).answered a.dest a.dest2 v m = wentOn s st len := by
    intro v m; unfold Ctx.answered; rw [hd, hd2]; rfl
  rw [hn] at h6
  refine ⟨t, he.trans h1, ⟨h4, h5, ?_⟩, hm t h2, h3, ?_⟩
  · rw [WentOn, h6]; exact ⟨rfl, rfl, rfl⟩
  · rw [h6]; rfl

/-- An access that the running context issues now. -/
structure Fresh (s : State) (a : Access) : Prop where
  core : a.core = s.cur.core
  ctx : a.ctx = s.cur.ctx
  num : a.num = s.serial
  act : a.act = (me s).act
  vec : a.vec = (me s).dep
  home : a.home = s.cur.core
  part : a.part = partNum s s.cur.core
  supr : a.supr = (me s).sup
  who : whoOf a = whoAmI s
  net : a.net = .req
  bare : a.own = none
  moves : ∀ n, a.op ≠ .get n ∧ a.op ≠ .put n

/-- An access of an own place travels on REQ, were it to travel. -/
theorem netOf_own {a : Access} {p : Place} {k : Nat} (ho : isOwn k p = true) (h : ∀ n, a.op ≠ .get n ∧ a.op ≠ .put n) (t : State) :
    netOf t a p = .req := by
  unfold netOf
  split
  · next n e => exact absurd e (h n).1
  · next n e => exact absurd e (h n).2
  · simp [isOwn] at ho
  · rfl

theorem OwnAccess.of {s : State} {a : Access} {p : Place} {v : View} {load rd wr : Bool} {n : Nat} {adr : Word} (hf : Fresh s a)
    (h : OwnAt s adr load n rd wr p v) : OwnAccess s a p where
  core := hf.core
  ctx := hf.ctx
  num := hf.num
  act := hf.act
  vec := hf.vec
  home := hf.home
  who := homeOf_own _ (by rw [hf.who]; rfl) h.own
  own := h.own
  gran := by rintro g v rfl; have := h.own; simp [isOwn] at this
  sup := h.plain
  net t := hf.net.trans (netOf_own h.own hf.moves t).symm
  bare := hf.bare

/-- What the home sees of a fresh access. -/
theorem OwnAt.seen {s : State} {a b : Access} {p : Place} {v : View} {load rd wr : Bool} {n : Nat} {adr : Word} (hf : Fresh s a)
    (h : OwnAt s adr load n rd wr p v) (st : Stall) (len : Nat) : accView (issued s st len b) a p n rd wr = .ok v := by
  rw [accView_issued s st len b a p n rd wr h.own h.plain, ← h.view]
  exact accView_congr s a _ p n rd wr hf.core hf.part hf.supr h.own h.plain

/-! ## What the home does for itself -/

/-- An own place is no control word, instruction store or Granary page. -/
theorem not_ctl {s : State} {p : Place} (h : isOwn s.cur.core p = true) : (∀ n o, p ≠ .ctl n o) ∧ (∀ n o, p ≠ .istore n o) ∧ ∀ g v, p ≠ .gran g v := by
  refine ⟨?_, ?_, ?_⟩ <;> rintro x y rfl <;> simp [isOwn] at h

/-- A load of an own place. -/
theorem applyLoad_own {s u : State} {a : Access} {p : Place} {v : View} {q : Qual} {n : Nat} (hw : isWorker s.cur.core = true)
    (ho : isOwn s.cur.core p = true) (hs : ∀ v, p ≠ .sup v) (hc : a.core = s.cur.core) (hv : accView u a p n true false = .ok v)
    (hq : q = .plain ∨ isFull u v.key = true) (f : List Nat) (hf : f = if q = .consume then delMem u.full (v.key / 16) else u.full) :
    applyLoad u a p q n = okWord { u with full := f } a (Memory.read u.mem v.key n) := by
  subst hf
  have hred := own_red ho hs hv
  have hb : ∀ (f : View → Applied), withView u a (accView u a p n true false) f = f v := by intro f; rw [hv]; rfl
  have hx : isSupCore a.core = false := by
    rw [hc]; unfold isWorker at hw; unfold isSupCore; simp at *; omega
  have ht : timedOut u v n = false := by unfold timedOut; rw [hred]; rfl
  have hcr : cachedRead u a v.key n = (Memory.read u.mem v.key n, u) := by
    unfold cachedRead isCached; rw [hx]; rfl
  obtain ⟨h1, h2, h3⟩ := not_ctl ho
  unfold applyLoad
  cases p with
  | ctl n o => exact absurd rfl (h1 n o)
  | _ =>
    dsimp only
    rw [hb, ht, if_neg (by simp)]
    cases q with
    | plain => rw [hcr]; rfl
    | wait =>
      rw [if_pos (hq.resolve_left (by simp))]
      rfl
    | consume =>
      dsimp only
      rw [if_pos (show isFull u v.key = true from hq.resolve_left (by simp))]
      rfl

/-- A store to an own place. -/
theorem applyStore_own {u : State} {a : Access} {p : Place} {v : View} {q : Qual} {n k : Nat}
    (ho : isOwn k p = true) (hs : ∀ v, p ≠ .sup v) (hv : accView u a p n false true = .ok v)
    (hq : q = .wait → isFull u v.key = false) :
    applyStore u a p q n = okWord (putQual u q v.key n (a.val.toNat % 256 ^ n)) a 0 := by
  have hred := own_red ho hs hv
  have hb : ∀ (f : View → Applied), withView u a (accView u a p n false true) f = f v := by intro f; rw [hv]; rfl
  have h2 : ¬(q = .wait ∧ isFull u v.key = true) := by rintro ⟨h1, h2⟩; rw [hq h1] at h2; cases h2
  unfold applyStore
  cases p with
  | ctl n o => simp [isOwn] at ho
  | istore n o => simp [isOwn] at ho
  | gran n o => simp [isOwn] at ho
  | _ =>
    dsimp only
    rw [hb, hred, if_neg (by simp)]
    unfold attrGuard
    dsimp only
    rw [if_neg (by simp), if_neg h2]

/-- Memory after a write. -/
theorem stored_of {s t : State} (hw : Memory.wf s.mem = true) (k n v : Nat) (h : t.mem = Memory.write s.mem k n (v % 256 ^ n)) :
    Stored s t k n v := by
  refine ⟨?_, fun a ha => ?_⟩
  · rw [h, Memory.read_write_same _ _ _ hw, Nat.mod_mod]
  · rw [h, Memory.get_write_outside _ hw ha]

/-- A read and a write of an own place at one instant. -/
theorem withBoth_own {u : State} {a : Access} {p : Place} {v : View} {n k : Nat} (ho : isOwn k p = true) (hs : ∀ v, p ≠ .sup v)
    (hm : ∀ o, p ≠ .mirror o) (hv : accView u a p n true true = .ok v) (f : View → Applied) : withBoth u a p n f = f v := by
  have hred := own_red ho hs hv
  have hb : ∀ (f : View → Applied), withView u a (accView u a p n true true redDeny) f = f v := by
    intro f; rw [accView_early u a p n true true redDeny ho, hv]; rfl
  unfold withBoth
  cases p with
  | ctl n o => simp [isOwn] at ho
  | istore n o => simp [isOwn] at ho
  | gran n o => simp [isOwn] at ho
  | mirror o => exact absurd rfl (hm o)
  | _ =>
    dsimp only
    rw [hb, hred, if_neg (by simp)]
    unfold attrGuard
    dsimp only
    rw [if_neg (by simp)]

/-! ## Accesses that leave -/

/-- What a packet on its way leaves as it was. -/
theorem stampOf_only (s : State) (src dst : Nat) (w : Bool) :
    (stampOf s src dst w).2 = { s with
      dies := (stampOf s src dst w).2.dies
      pkgs := (stampOf s src dst w).2.pkgs } := by
  unfold stampOf
  dsimp only
  split_ifs <;> rfl

theorem transmit_access (s : State) (src dst : Nat) (net : Net) (part inc : Nat) (w : Bool) (a : Access) :
    ∃ q n, transmit s src dst net part inc w (.access a) = { s with
        flight := s.flight ++ [q]
        dies := (transmit s src dst net part inc w (.access a)).dies
        pkgs := (transmit s src dst net part inc w (.access a)).pkgs
        flows := (transmit s src dst net part inc w (.access a)).flows
        keptReq := (transmit s src dst net part inc w (.access a)).keptReq } ∧
      q.body = .access { a with seq := n } ∧ q.net = net ∧ q.src = src ∧ q.dst = dst ∧ q.part = part := by
  unfold transmit
  dsimp only
  rw [stampOf_only]
  split
  · exact ⟨_, a.seq, rfl, rfl, rfl, rfl, rfl, rfl⟩
  · exact ⟨_, _, rfl, rfl, rfl, rfl, rfl, rfl⟩

theorem outstanding_note (t : Ctx) (a : Access) (n : Nat) : (noteAccess t a n).outstanding a.num = true := by
  unfold noteAccess
  dsimp only
  generalize (if a.op.lanewise = true then a.adr2 else a.adr) = adr
  by_cases h : a.slotted = true
  · rw [if_pos h]
    split <;> simp [Ctx.outstanding]
  · rw [if_neg h]
    split <;> simp [Ctx.outstanding]

theorem note_only (t : Ctx) (a : Access) (n : Nat) : noteAccess t a n = { t with
    rslots := (noteAccess t a n).rslots
    acks := (noteAccess t a n).acks
    wgens := (noteAccess t a n).wgens } := by
  unfold noteAccess
  dsimp only
  generalize (if a.op.lanewise = true then a.adr2 else a.adr) = adr
  by_cases h : a.slotted = true
  · rw [if_pos h]
    split <;> rfl
  · rw [if_neg h]
    split <;> rfl

theorem parkFor_only (s : State) (n : Nat) (c : Cause) :
    parkFor s n c = s ∨ parkFor s n c = setMe s { me s with
      st := .parked
      cause := c
      awaits := some n } := by
  unfold parkFor
  dsimp only
  split
  · exact .inr rfl
  · exact .inl rfl

/-- All that an access which leaves its core can do in the step that issues it. -/
theorem leaves_of {i : Instr} {s : State} {st : Stall} {len : Nat} {a : Access} {p : Place} {wait : Option Cause}
    (he : exec i s = issue s st len a p wait) (hw : whoOf a = whoAmI s) (h : Away s a p) : Leaves i s st len a p := by
  have hf : a.core = s.cur.core := congrArg Who.core hw
  generalize hb : ({ a with home := homeOf (whoOf a) p } : Access) = b
  have hbs : b.slotted = a.slotted := by rw [← hb]; rfl
  have hbn : b.num = a.num := by rw [← hb]
  have hbc : b.core = s.cur.core := by rw [← hb]; exact hf
  have hbp : b.part = a.part := by rw [← hb]
  have hbh : b.home = homeOf (whoAmI s) p := by rw [← hb, ← hw]
  have h1 : (a.slotted && slotsFull (me s)) = false := by
    unfold slotsFull
    cases hs : a.slotted
    · rfl
    · have := h.slot hs; simpa using this
  have h3 : setMe (advance { s with serial := s.serial + 1 } st len)
      (noteAccess (me (advance { s with serial := s.serial + 1 } st len)) b 1) = issued s st len b := by
    rw [show me (advance { s with serial := s.serial + 1 } st len) = _ from me_jumpTo _ _ _]
    show setMe (setMe _ _) _ = _
    rw [setMe_setMe]
    rfl
  generalize hv : ({ b with
    vec := goesWith b b.home
    net := netOf (issued s st len b) b p
    own := none } : Access) = c
  have hsend : sendAccess (issued s st len b) b p = transmit (issued s st len b) b.core b.home (netOf (issued s st len b) c p)
      b.part b.inc b.op.storeLike (.access c) := by
    have h4 : ¬(isOwn c.core p && !(issued s st len b).cur.late && mayApply (issued s st len b) c) = true := by
      rw [show c.core = b.core from by rw [← hv], hbc, show (issued s st len b).cur.late = s.cur.late from rfl]
      rcases h.away with h | h <;> rw [h] <;> simp
    have h5 : ¬(dieOf b.home ≠ dieOf b.core ∧ unreachable (issued s st len b) b.core (dieOf b.home) = true) := by
      rw [hbc, hbh]
      rintro ⟨h6, h7⟩
      rcases h.reach with h | h
      · exact h6 h
      · have h7' : unreachable s s.cur.core (dieOf (homeOf (whoAmI s) p)) = true := h7
        rw [h] at h7'
        cases h7'
    have hc : (if podOf b.home = podOf b.core then b else { b with vec := zeroVec }) = { b with vec := goesWith b b.home } := by
      unfold goesWith; split <;> rfl
    unfold sendAccess
    rw [hc]
    cases p with
    | sup v => exact absurd rfl (h.plain v)
    | _ => subst hv; exact (if_neg h4).trans (if_neg h5)
  obtain ⟨q, n, hq, hq1, hq5, hq2, hq3, hq4⟩ := transmit_access (issued s st len b) b.core b.home (netOf (issued s st len b) c p)
      b.part b.inc b.op.storeLike c
  rw [hq] at hsend
  generalize hX : sendAccess (issued s st len b) b p = X at hsend
  have hXm : me X = noteAccess (wentOn s st len) b 1 := by rw [hsend]; exact me_issued s st len b
  have hXo : OthersSame s X := by
    intro n c hn
    rw [hsend]
    exact others_issued s st len b n c hn
  have hXmem : X.mem = s.mem := by rw [hsend]; rfl
  have hXfull : X.full = s.full := by rw [hsend]; rfl
  have hXfl : X.flight = s.flight ++ [q] := by rw [hsend]; rfl
  have hXcur : X.cur = s.cur := by rw [hsend]; rfl
  have hiss : ∀ w : Option Cause, issue s st len a p w = .next (w.elim X fun c => parkFor X b.num c) := by
    intro w
    unfold issue
    rw [h1, if_neg (by simp)]
    dsimp only
    rw [hb, h3, hX]
    cases w
    · rfl
    · rw [hbn]; rfl
  have hex := he.trans (hiss wait)
  have key : ∀ T : State, T = X ∨ (∃ c, T = setMe X { me X with st := .parked, cause := c, awaits := some b.num }) →
      exec i s = .next T → Leaves i s st len a p := by
    intro T hT hexT
    have hTm : ∃ x y z, me T = { noteAccess (wentOn s st len) b 1 with st := x, cause := y, awaits := z } := by
      rcases hT with rfl | ⟨c, rfl⟩
      · exact ⟨_, _, _, by rw [hXm]⟩
      · exact ⟨_, _, _, by rw [me_setMe, hXm]⟩
    have hTo : OthersSame s T := by
      rcases hT with rfl | ⟨c, rfl⟩
      · exact hXo
      · exact others_setMe s X _ hXcur hXo
    have hT1 : T.mem = s.mem ∧ T.full = s.full ∧ T.flight = s.flight ++ [q] := by
      rcases hT with rfl | ⟨c, rfl⟩
      · exact ⟨hXmem, hXfull, hXfl⟩
      · exact ⟨hXmem, hXfull, hXfl⟩
    obtain ⟨x, y, z, hm⟩ := hTm
    have hno := note_only (wentOn s st len) b 1
    refine ⟨T, hexT, fun k => by rw [hT1.1], hT1.2.1, hTo, ?_, ⟨q, n, hT1.2.2, ?_, ?_, ?_, ?_, ?_⟩, ?_, ?_⟩
    · rw [WentOn, hm, hno]; exact ⟨rfl, rfl, rfl⟩
    · rw [hq1, ← hv, ← hb, hw]; rfl
    · rw [hq5, ← hv, ← hb]; rfl
    · rw [hq2, hbc]
    · rw [hq3, hbh]
    · rw [hq4, hbp]
    · have := outstanding_note (wentOn s st len) b 1
      rw [hbn] at this
      rw [hm]
      exact this
    · rw [hm, hno]; rfl
  cases wait with
  | none => exact key X (.inl rfl) hex
  | some c =>
    rcases parkFor_only X b.num c with h | h
    · exact key _ (.inl h) hex
    · exact key _ (.inr ⟨c, h⟩) hex

theorem leaves_accessAt {i : Instr} {s : State} {st : Stall} {len n : Nat} {rd wr load : Bool} {deny : Place → Bool} {a : Access}
    {p : Place} {wait : Option Cause} (he : exec i s = accessAt s st len n rd wr load deny a wait) (hf : whoOf a = whoAmI s)
    (h1 : resolve s (whoAmI s) a.adr load = .ok p) (h2 : deny p = false) (h3 : ownFault s a p n rd wr = 0) (h4 : Away s a p) :
    Leaves i s st len a p := by
  refine leaves_of (wait := wait) ?_ hf h4
  rw [he]
  unfold accessAt
  rw [h1]
  dsimp only
  rw [h2, if_neg (by simp), h3]
  rfl

theorem leaves_access {i : Instr} {s : State} {st : Stall} {len align n : Nat} {noPriv rd wr load : Bool} {deny : Place → Bool}
    {a : Access} {p : Place} {wait : Option Cause} (he : exec i s = access s st len align n noPriv rd wr load deny a wait)
    (hf : whoOf a = whoAmI s) (h : Reaches s a align n noPriv rd wr load deny p) : Leaves i s st len a p := by
  refine leaves_accessAt (wait := wait) ?_ hf h.leads h.allowed h.permitted h.away
  rw [he]
  unfold access
  rw [h.form]
  rfl

end Sys2Proof.Machine
end

