-- ==== Sys2Proof/Laws/Elems.lean ====
section
/-! SUPPORT. Sys2Proof/Laws/Elems.lean: the bits of packed elements, and the elements of a vector register after a write of its
active lanes. -/

namespace Sys2Proof.Machine

theorem testBit_elemOf (w k n j : Nat) : (elemOf w k n).testBit j = (decide (j < w) && n.testBit (w * k + j)) := by
  unfold elemOf
  rw [Nat.testBit_mod_two_pow, Nat.testBit_div_two_pow, Nat.add_comm]

theorem testBit_packElems (w : Nat) (hw : 0 < w) (es : List Nat) (i : Nat) :
    (packElems w es).testBit i = (es.getD (i / w) 0).testBit (i % w) := by
  induction es generalizing i with
  | nil => simp [packElems]
  | cons e r ih =>
    have h : packElems w (e :: r) = 2 ^ w * packElems w r + e % 2 ^ w := by rw [packElems]; omega
    rw [h, Nat.testBit_two_pow_mul_add _ (Nat.mod_lt _ (Nat.two_pow_pos w))]
    by_cases hi : i < w
    · simp [hi, Nat.div_eq_of_lt hi, Nat.mod_eq_of_lt hi, Nat.testBit_mod_two_pow]
    · have h1 : i / w = (i - w) / w + 1 := by
        rw [← Nat.add_div_right _ hw]; congr 1; omega
      have h2 : i % w = (i - w) % w := by
        rw [Nat.mod_eq_sub_mod (by omega)]
      simp [hi, h1, h2, ih]

theorem testBit_ofElems (w : Nat) (hw : 0 < w) (es : List Nat) (i : Nat) :
    (ofElems w es).toNat.testBit i = (decide (i < 1024) && (es.getD (i / w) 0).testBit (i % w)) := by
  unfold ofElems
  rw [BitVec.testBit_toNat, BitVec.getLsbD_ofNat, testBit_packElems w hw]

theorem getD_map_range (n : Nat) (f : Nat → Nat) (i : Nat) : ((List.range n).map f).getD i 0 = if i < n then f i else 0 := by
  by_cases h : i < n <;> simp [h]

theorem testBit_laneBits (p : BitVec 32) (i : Nat) : (laneBits p).toNat.testBit i = (decide (i < 1024) && p.getLsbD (i / 32)) := by
  unfold laneBits
  rw [BitVec.testBit_toNat, BitVec.getLsbD_ofNat, testBit_packElems 32 (by omega), getD_map_range]
  by_cases h : i < 1024
  · have h1 : i / 32 < 32 := by omega
    have h2 : i % 32 < 32 := Nat.mod_lt _ (by omega)
    simp only [h, decide_true, Bool.true_and, h1, ↓reduceIte]
    cases p.getLsbD (i / 32)
    · simp
    · rw [if_pos rfl, show (4294967295 : Nat) = 2 ^ 32 - 1 from rfl, Nat.testBit_two_pow_sub_one]
      simpa using h2
  · simp [h]

theorem testBit_mergeBits (old v m : VWord) (i : Nat) :
    (mergeBits old v m).toNat.testBit i = if m.toNat.testBit i then v.toNat.testBit i else old.toNat.testBit i := by
  by_cases h : i < 1024
  · have e : ∀ x : VWord, x.toNat.testBit i = x[i] := fun x => BitVec.testBit_toNat x
    rw [e, e, e, e]
    simp only [mergeBits, BitVec.getElem_or, BitVec.getElem_and, BitVec.getElem_not]
    cases m[i] <;> simp
  · have e : ∀ x : VWord, x.toNat.testBit i = false := fun x => by
      rw [BitVec.testBit_toNat]; exact BitVec.getLsbD_of_ge x i (by omega)
    simp [e]

/-- The elements of a register of which the active lanes have taken new elements. -/
theorem elemOf_merge_lanes (w : Nat) (hw : w = 8 ∨ w = 16 ∨ w = 32) (old : VWord) (es : List Nat) (p : BitVec 32) (k : Nat)
    (hk : k < 1024 / w) :
    elemOf w k (mergeBits old (ofElems w es) (laneBits p)).toNat =
      if laneOn p w k then es.getD k 0 % 2 ^ w else elemOf w k old.toNat := by
  have hpos : 0 < w := by omega
  apply Nat.eq_of_testBit_eq
  intro j
  rw [testBit_elemOf, testBit_mergeBits, testBit_laneBits, testBit_ofElems w hpos]
  by_cases hj : j < w
  · have hlt : w * k + j < 1024 := by
      have : w * (k + 1) ≤ 1024 := Nat.le_trans (Nat.mul_le_mul_left w hk) (Nat.mul_div_le 1024 w)
      rw [Nat.mul_succ] at this; omega
    have h1 : (w * k + j) / w = k := by
      rw [Nat.add_comm, Nat.add_mul_div_left _ _ hpos, Nat.div_eq_of_lt hj, Nat.zero_add]
    have h2 : (w * k + j) % w = j := by rw [Nat.mul_add_mod, Nat.mod_eq_of_lt hj]
    have h3 : (w * k + j) / 32 = w * k / 32 := by rcases hw with h | h | h <;> subst h <;> omega
    simp only [hj, hlt, h1, h2, h3, decide_true, Bool.true_and]
    rw [show p.getLsbD (w * k / 32) = laneOn p w k from rfl]
    split
    · rw [Nat.testBit_mod_two_pow]; simp [hj]
    · rw [testBit_elemOf]; simp [hj]
  · simp only [hj, decide_false, Bool.false_and]
    split
    · rw [Nat.testBit_mod_two_pow]; simp [hj]
    · rw [testBit_elemOf]; simp [hj]

/-- The elements of a register that is written whole. -/
theorem elemOf_ofElems (w : Nat) (hw : 0 < w) (es : List Nat) (k : Nat) (hk : k < 1024 / w) :
    elemOf w k (ofElems w es).toNat = es.getD k 0 % 2 ^ w := by
  apply Nat.eq_of_testBit_eq
  intro j
  rw [testBit_elemOf, testBit_ofElems w hw, Nat.testBit_mod_two_pow]
  by_cases hj : j < w
  · have hlt : w * k + j < 1024 := by
      have : w * (k + 1) ≤ 1024 := Nat.le_trans (Nat.mul_le_mul_left w hk) (Nat.mul_div_le 1024 w)
      rw [Nat.mul_succ] at this; omega
    have h1 : (w * k + j) / w = k := by
      rw [Nat.add_comm, Nat.add_mul_div_left _ _ hw, Nat.div_eq_of_lt hj, Nat.zero_add]
    have h2 : (w * k + j) % w = j := by rw [Nat.mul_add_mod, Nat.mod_eq_of_lt hj]
    simp [hj, hlt, h1, h2]
  · simp [hj]

/-- The elements of a register of which the active lanes have taken the bits of another. -/
theorem elemOf_merge (w : Nat) (hw : w = 8 ∨ w = 16 ∨ w = 32) (old v : VWord) (p : BitVec 32) (k : Nat) (hk : k < 1024 / w) :
    elemOf w k (mergeBits old v (laneBits p)).toNat = if laneOn p w k then elemOf w k v.toNat else elemOf w k old.toNat := by
  have hpos : 0 < w := by omega
  apply Nat.eq_of_testBit_eq
  intro j
  rw [testBit_elemOf, testBit_mergeBits, testBit_laneBits]
  by_cases hj : j < w
  · have hlt : w * k + j < 1024 := by
      have : w * (k + 1) ≤ 1024 := Nat.le_trans (Nat.mul_le_mul_left w hk) (Nat.mul_div_le 1024 w)
      rw [Nat.mul_succ] at this; omega
    have h3 : (w * k + j) / 32 = w * k / 32 := by rcases hw with h | h | h <;> subst h <;> omega
    simp only [hj, hlt, h3, decide_true, Bool.true_and]
    rw [show p.getLsbD (w * k / 32) = laneOn p w k from rfl]
    split <;> rw [testBit_elemOf] <;> simp [hj]
  · simp only [hj, decide_false, Bool.false_and]
    split <;> rw [testBit_elemOf] <;> simp [hj]

theorem elemOf_lt (w k n : Nat) : elemOf w k n < 2 ^ w := Nat.mod_lt _ (Nat.two_pow_pos w)

end Sys2Proof.Machine
end

