-- ==== Sys2Proof/Laws/Vector.lean ====
section
/-! SUPPORT. Sys2Proof/Laws/Vector.lean: what the shared vector operations can do: a result of latency 4, element by element, with
the flags its lanes raise, and the same with variable latency. -/

namespace Sys2Proof.Machine

/-- A vector result that raises no flag. -/
theorem writesV_wrV {i : Instr} {s : State} {st : Stall} {lat : Nat} {d : VReg} {v m : VWord}
    (h : exec i s = done st 4 (wrV s lat d v m)) : WritesV i s st lat d v m (me s).lanef (me s).seed := by
  apply writesV_of
  rw [h]
  show Host.Outcome.next (advance (setMe s _) st 4) = _
  congr 2
  rw [Ctx.putV_only]

/-- A vector result whose lanes raise flags. -/
theorem writesV_raiseLanes {i : Instr} {s : State} {st : Stall} {lat : Nat} {d : VReg} {v m : VWord} {q : Bool} {fs : List Flags}
    (h : exec i s = done st 4 (raiseLanes (wrV s lat d v m) q fs)) : WritesV i s st lat d v m (lanesWith s q fs) (me s).seed := by
  apply writesV_of
  rw [h]
  unfold raiseLanes lanesWith wrV
  show Host.Outcome.next (advance _ st 4) = _
  congr 1
  cases q
  · simp only [Bool.false_eq_true, if_false, setMe_setMe, me_setMe]
    congr 2
    rw [Ctx.putV_only]; rfl
  · simp only [if_true]
    congr 2
    rw [Ctx.putV_only]

/-- A predicate result that raises no flag. -/
theorem writesP_wrP {i : Instr} {s : State} {st : Stall} {lat : Nat} {d : PReg} {v m : BitVec 32}
    (h : exec i s = done st 4 (wrP s lat d v m)) : WritesP i s st lat d v m (me s).lanef := by
  apply writesP_of
  rw [h]
  show Host.Outcome.next (advance (setMe s _) st 4) = _
  congr 2
  rw [Ctx.putP_only]

/-- A predicate result whose lanes raise flags. -/
theorem writesP_raiseLanes {i : Instr} {s : State} {st : Stall} {lat : Nat} {d : PReg} {v m : BitVec 32} {q : Bool}
    {fs : List Flags} (h : exec i s = done st 4 (raiseLanes (wrP s lat d v m) q fs)) :
    WritesP i s st lat d v m (lanesWith s q fs) := by
  apply writesP_of
  rw [h]
  have hp := Ctx.putP_only (me s) (myCore s).cycle lat d (v.setWidth 1024) (m.setWidth 1024)
  unfold raiseLanes lanesWith wrP done
  generalize (me s).put (myCore s).cycle lat (pCode d) (v.setWidth 1024) (m.setWidth 1024) = t at *
  cases q
  · simp only [Bool.false_eq_true, if_false, setMe_setMe, me_setMe]
    rw [hp]; rfl
  · simp only [if_true]
    rw [hp]

/-- The elements a per-element operation leaves. -/
theorem takes_mapElems (w : Nat) (hw : w = 8 ∨ w = 16 ∨ w = 32) (p : BitVec 32) (f : Nat → Nat × Flags) :
    TakesElems w p (fun k => (f k).1) (mapElems w p f).1 (laneBits p) := by
  intro old k hk
  unfold mapElems
  dsimp only
  rw [elemOf_merge_lanes w hw _ _ _ _ hk]
  split
  · next h =>
    congr 1
    simp [hk, h]
  · rfl

/-- The flags it raises. -/
theorem flags_mapElems (w : Nat) (p : BitVec 32) (f : Nat → Nat × Flags) :
    (mapElems w p f).2 = laneFlags w ((List.range (1024 / w)).map fun k => if laneOn p w k then (f k).2 else 0) := by
  unfold mapElems
  dsimp only
  congr 1
  rw [List.map_map]
  congr 1
  funext k
  simp only [Function.comp]
  split <;> rfl

theorem ftyWidth_cases (t : FTy) : mtyWidth (ftyM t) = 8 ∨ mtyWidth (ftyM t) = 16 ∨ mtyWidth (ftyM t) = 32 := by
  cases t <;> simp [ftyM, mtyWidth]
theorem ityWidth_cases (t : ITy) : mtyWidth (ityM t) = 8 ∨ mtyWidth (ityM t) = 16 ∨ mtyWidth (ityM t) = 32 := by
  cases t <;> simp [ityM, mtyWidth]

theorem floatElems_of {i : Instr} {s : State} {st : Stall} {d : VReg} {p : PReg} {q : Bool} {t : FTy} {g : Nat → Nat × Flags}
    (h : exec i s = vecFp s st d p q t g) : FloatElems i s st d p q t g := by
  refine ⟨_, _, ?_, takes_mapElems _ (ftyWidth_cases t) _ _⟩
  unfold lanesAfter
  rw [← flags_mapElems]
  exact writesV_raiseLanes h

/-- A result of variable latency is one update of the running context. -/
theorem varResult_eq (s : State) (k : Nat) (op : VarOp) (v m : VWord) :
    varResult s k op v m = setMe s (varCtx s.cur.late (me s) k op v m) := by
  unfold varResult varCtx
  cases s.cur.late <;> simp [Ctx.putNow_eq]

theorem floatElemsVar_of {i : Instr} {s : State} {st : Stall} {d : VReg} {p : PReg} {q : Bool} {t : FTy} {g : Nat → Nat × Flags}
    (h : exec i s = vecFn s st d p q t g) : FloatElemsVar i s st d p q t g := by
  refine ⟨_, _, ?_, takes_mapElems _ (ftyWidth_cases t) _ _⟩
  unfold lanesAfter
  rw [← flags_mapElems]
  apply writesVVar_of
  rw [h]
  unfold vecFn raiseLanes lanesWith
  dsimp only
  cases q
  · rfl
  · simp only [if_true]
    rw [varResult_eq, varResult_setMe]

theorem intElems_of {i : Instr} {s : State} {st : Stall} {d a b : VReg} {p : PReg} {t : ITy} {g : Nat → Nat → Nat → Nat}
    {f : Nat → Nat → Nat} (h : exec i s = vecInt s st d a b p t g)
    (hf : ∀ x y, x < 2 ^ mtyWidth (ityM t) → y < 2 ^ mtyWidth (ityM t) →
      g (mtyWidth (ityM t)) x y % 2 ^ mtyWidth (ityM t) = f x y % 2 ^ mtyWidth (ityM t)) : IntElems i s st d a b p t f := by
  refine ⟨_, _, writesV_wrV h, ?_⟩
  intro old k hk
  have := takes_mapElems (mtyWidth (ityM t)) (ityWidth_cases t) (pr s p) (fun k => (g (mtyWidth (ityM t)) (elemOf (mtyWidth (ityM t)) k (vr s a).toNat) (elemOf (mtyWidth (ityM t)) k (vr s b).toNat), 0)) old k hk
  rw [this]
  split
  · exact hf _ _ (Nat.mod_lt _ (Nat.two_pow_pos _)) (Nat.mod_lt _ (Nat.two_pow_pos _))
  · rfl

end Sys2Proof.Machine
end

