-- ==== Sys2Proof/Tests/Slice0.lean ====
section
/-! SUPPORT. Sys2Proof/Tests/Slice0.lean: the model's own tests: an ill-formed term for each check of WellFormed, a word for
every encoded instruction, results worked in the spec, and a state that meets the hypotheses of each statement. -/

namespace Sys2Proof.Tests

set_option Elab.async false

open Sys2Proof.Machine

/-! ## Ill-formed terms -/

/-- One term for each check of `Instr.wf`, just outside what it admits. -/
theorem test_wf_refuses : [Instr.bfx 0 1 2 63 1, .bfi 0 1 2 1 63, .amo 0 1 2 3 true true .add, .deq 0 3 4 3,
    .deq 0 3 4 0, .loop 0 1 0, .loop 0 1 2, .mload 0 1 2 true 1, .mflip 0 2 true 1, .mstrm 0 1 2 0 true false 1,
    .mdrain 0 1 2 0 true false 3, .mclr 0 2 0 true false 2, .copym 0 1 2 3 true false 1, .replay 0 1 2 31 false, .mbtake 0 4 31,
    .vgath 0 1 2 3 0 .raw, .vscat 0 1 2 3 0 .raw, .fence .gen .die, .barr 0 .quad 4, .barr 0 .core 0, .bwait 0 3 .pod 8, .srd 0 3 0x019,
    .srd 0 3 0x107, .swr 0 3 0x0FF].all (fun i => !i.wf) = true := by decide

/-- Beside each of them, a term that the check admits. -/
theorem test_wf_admits : [Instr.bfx 0 1 2 63 0, .bfi 0 1 2 0 63, .amo 0 0 2 3 true true .add, .deq 0 3 4 5, .loop 0 0 0, .loop 0 1 3,
    .mload 0 1 2 true 0, .mload 0 1 2 false 3, .replay 0 1 2 30 false, .mbtake 0 4 30, .vgath 0 1 2 3 0 .f32, .fence .gen .pod,
    .fence .gen .sys, .barr 0 .quad 3, .bwait 0 3 .pod 7, .srd 0 3 0x018, .srd 0 3 0x106].all (fun i => i.wf) = true := by decide

/-- The decoder refuses words of such terms (BFX, LOOP, DEQ, SRD), and a word and a parcel of no instruction. -/
theorem test_decode_refuses : [0x92148FC1, 0xA0008000, 0xA0008002, 0xB0146501, 0xB0246001, 0xEA0C0019, 0x8C0C8507, 0xFE000000].all
    (fun w => (decodeTableWord 32 w).isNone) = true ∧ decodeTableWord 16 0x4800 = none := by decide

/-! ## Words of the spec -/

/-- Each word decodes to the instruction beside it, which is well-formed. -/
abbrev Decodes (l : List (Nat × Nat × Instr)) : Prop := ∀ e ∈ l, decodeTableWord e.1 e.2.1 = some e.2.2 ∧ e.2.2.wf = true

theorem test_decode_short : Decodes [
    (16, 0x0000, .nopShort), (16, 0x0468, .mov 3 8), (16, 0x0885, .li 4 5), (16, 0x0C64, .addShort 3 4), (16, 0x1064, .subShort 3 4),
    (16, 0x1464, .andShort 3 4), (16, 0x1864, .orShort 3 4), (16, 0x1C64, .xorShort 3 4), (16, 0x209F, .addiShort 4 31),
    (16, 0x2467, .shliShort 3 7), (16, 0x2867, .shriShort 3 7), (16, 0x2D22, .sraiShort 9 2), (16, 0x3134, .ldDShort 9 20),
    (16, 0x3465, .stDShort 3 5), (16, 0x3801, .jrShort 1), (16, 0x3C00, .endShort), (16, 0x409E, .beqz 4 0x1E), (16, 0x449E, .bnez 4 30)] := by decide

theorem test_decode_long_1 : Decodes [
    (32, 0x800C8500, .add 0 3 4 5), (32, 0x800C8501, .sub 0 3 4 5), (32, 0x800C8502, .and 0 3 4 5), (32, 0x800C8503, .or 0 3 4 5),
    (32, 0x800C8504, .xor 0 3 4 5), (32, 0x800C8505, .andn 0 3 4 5), (32, 0x80108306, .shl 0 4 4 3), (32, 0x80108307, .shr 0 4 4 3),
    (32, 0x80108308, .sra 0 4 4 3), (32, 0x80108309, .rol 0 4 4 3), (32, 0x800C850A, .min 0 3 4 5), (32, 0x800C850B, .max 0 3 4 5),
    (32, 0x800C850C, .minu 0 3 4 5), (32, 0x800C850D, .maxu 0 3 4 5), (32, 0x8118C510, .mul 2 6 6 5), (32, 0x800C8511, .mulh 0 3 4 5)] := by decide

theorem test_decode_long_2 : Decodes [
    (32, 0x800C8512, .mulhu 0 3 4 5), (32, 0x800C8514, .div 0 3 4 5), (32, 0x800C8515, .divu 0 3 4 5), (32, 0x800C8516, .rem 0 3 4 5),
    (32, 0x800C8517, .remu 0 3 4 5), (32, 0x800C8018, .clz 0 3 4), (32, 0x800C8019, .ctz 0 3 4), (32, 0x8029201A, .popc 0 10 9),
    (32, 0x8218C123, .addi 0 6 6 0x0123), (32, 0x8410800F, .andi 0 4 4 15), (32, 0x8614A100, .ori 0 5 5 0x0100),
    (32, 0x880C7FFF, .xori 0 3 3 0x1fff), (32, 0x8A0C8007, .shli 0 3 4 7), (32, 0x8A0C8828, .shri 0 3 4 0x28),
    (32, 0x8A0C9028, .srai 0 3 4 40), (32, 0x8A0C9808, .roli 0 3 4 8)] := by decide

theorem test_decode_long_3 : Decodes [
    (32, 0x8C0C8504, .cmp 0 3 4 5 .ltu), (32, 0x8E192345, .lih 0 6 0x12345), (32, 0x900C8500, .madd 0 3 4 5),
    (32, 0x910C8501, .msub 2 3 4 5), (32, 0x92148984, .bfx 0 5 4 0x26 4), (32, 0x920C9203, .bfi 0 3 4 8 3),
    (32, 0x9418A400, .mkadr 0 6 5 4), (32, 0x9414C001, .absa 0 5 6), (32, 0x94144002, .gptr 0 5 2), (32, 0x960C8506, .sel 0 3 4 5 6),
    (32, 0x9806000A, .beq 3 0 10), (32, 0x98485FFA, .bne 4 5 0xffa), (32, 0x98885FFA, .blt 4 5 0xFFA), (32, 0x98C85FFA, .bge 4 5 0xFFA),
    (32, 0x99085FFA, .bltu 4 5 0xFFA), (32, 0x99485FFA, .bgeu 4 5 0xFFA)] := by decide

theorem test_decode_long_4 : Decodes [
    (32, 0x9A000004, .j 4), (32, 0x9DFFFFF8, .jal 0x1fffff8), (32, 0x9E002000, .jr 0 1), (32, 0x9E04A001, .jalr 0 1 5),
    (32, 0xA0008004, .loop 0 4 4), (32, 0xA2000000, .nop 0), (32, 0xA2000001, .endAct 0), (32, 0xA200A002, .trap 0 5),
    (32, 0xA200A003, .sysc 0 5), (32, 0xA2000004, .eret 0), (32, 0xA2000005, .halt 0), (32, 0xA2050006, .resume 0 .skip 8),
    (32, 0xA40C80FF, .ld 0 3 4 .b 0xff), (32, 0xA41CC700, .ldw 0 7 6 .d 0), (32, 0xA41D2A03, .ldc 0 7 9 .s 3),
    (32, 0xA61CC200, .st 0 7 6 .s 0)] := by decide

theorem test_decode_long_5 : Decodes [
    (32, 0xA60E8702, .stp 0 3 20 .d 2), (32, 0xA64CCB01, .stf 0 19 6 .d 1), (32, 0xA814C700, .get 0 5 6 7), (32, 0xA814E601, .put 0 5 7 6),
    (32, 0xAA14C000, .feqry 0 5 6), (32, 0xAA00C701, .feset 0 6 7), (32, 0xAC14C710, .amo 0 5 6 7 false true .add),
    (32, 0xAE18A810, .cas 0 6 5 8 true), (32, 0xB0147000, .enq 0 5 3 16), (32, 0xB0246501, .deq 0 9 3 5),
    (32, 0xB2118040, .vld 0 2 6 0 .f32 0), (32, 0xB229D242, .vldw 0 5 7 2 .f32 2), (32, 0xB21DC440, .vldc 0 3 23 0 .f32 0),
    (32, 0xB415C040, .vst 0 2 23 0 .f32 0), (32, 0xB4090281, .vstp 0 1 4 0 .bf16 1), (32, 0xB4198400, .vstf 0 3 6 0 .raw 0)] := by decide

theorem test_decode_long_6 : Decodes [
    (32, 0xB6118C90, .vgath 0 2 6 3 1 .f32), (32, 0xB6118C91, .vscat 0 2 6 3 1 .f32), (32, 0xB8091800, .vfadd 0 1 2 3 0 false .f32),
    (32, 0xB8091A01, .vfsub 0 1 2 3 2 false .f32), (32, 0xB80918A2, .vfmul 0 1 2 3 0 true .bf16),
    (32, 0xB8091A03, .vfmin 0 1 2 3 2 false .f32), (32, 0xB8091A04, .vfmax 0 1 2 3 2 false .f32),
    (32, 0xB8090205, .vfabs 0 1 2 2 false .f32), (32, 0xB8090206, .vfneg 0 1 2 2 false .f32),
    (32, 0xB8091A07, .vfcpys 0 1 2 3 2 false .f32), (32, 0xB911A128, .vfma 2 2 3 4 1 false .bf16),
    (32, 0xB8091A09, .vfms 0 1 2 3 2 false .f32), (32, 0xB8091A0A, .vfnma 0 1 2 3 2 false .f32),
    (32, 0xB8091A0B, .vfnms 0 1 2 3 2 false .f32), (32, 0xB809000C, .vrcp 0 1 2 0 false .f32), (32, 0xB809020D, .vrsq 0 1 2 2 false .f32)] := by decide

theorem test_decode_long_7 : Decodes [
    (32, 0xB809020E, .vexp2 0 1 2 2 false .f32), (32, 0xB809020F, .vlog2 0 1 2 2 false .f32), (32, 0xBA091800, .viadd 0 1 2 3 0 .i32),
    (32, 0xBA091A01, .visub 0 1 2 3 2 .i32), (32, 0xBA091A02, .vimul 0 1 2 3 2 .i32), (32, 0xBA22B243, .vimulh 0 4 5 6 2 .i8),
    (32, 0xBA091A04, .vimin 0 1 2 3 2 .i32), (32, 0xBA091A05, .vimax 0 1 2 3 2 .i32), (32, 0xBA091A06, .viminu 0 1 2 3 2 .i32),
    (32, 0xBA091A07, .vimaxu 0 1 2 3 2 .i32), (32, 0xBA091808, .vand 0 1 2 3 0 .i32), (32, 0xBA091A09, .vor 0 1 2 3 2 .i32),
    (32, 0xBA091A0A, .vxor 0 1 2 3 2 .i32), (32, 0xBA09180B, .vandn 0 1 2 3 0 .i32), (32, 0xBA09182C, .vshl 0 1 2 3 0 .i16),
    (32, 0xBA091A0D, .vshr 0 1 2 3 2 .i32)] := by decide

theorem test_decode_long_8 : Decodes [
    (32, 0xBA09180E, .vsra 0 1 2 3 0 .i32), (32, 0xBA091A0F, .vrol 0 1 2 3 2 .i32),
    (32, 0xBC091802, .vcmp 0 1 2 3 0 (.flt .lt .f32 false)), (32, 0xBE091900, .vsel 0 1 2 3 1),
    (32, 0xC0118000, .vcvt 0 2 3 0 false .f32ToBf16), (32, 0xC2090000, .vrsum 0 1 2 0 false .f32),
    (32, 0xC2090121, .vrmax 0 1 2 1 false .bf16), (32, 0xC2090202, .vrmin 0 1 2 2 false .f32), (32, 0xC4004040, .vshuf 0 1 2),
    (32, 0xC41CC001, .vbcast 0 7 3), (32, 0xC4148E02, .vextr 0 5 2 7), (32, 0xC4148E03, .vinsr 0 5 2 7),
    (32, 0xC6091800, .vdot 0 1 2 3 0 .bf16), (32, 0xC8044300, .pand 0 1 2 3), (32, 0xC8044301, .por 0 1 2 3),
    (32, 0xC8044302, .pxor 0 1 2 3)] := by decide

theorem test_decode_long_9 : Decodes [
    (32, 0xC8044003, .pnot 0 1 2), (32, 0xC8182004, .pcnt 0 6 1), (32, 0xCA180000, .flgrd 0 3), (32, 0xCA000201, .flgclr 0 2),
    (32, 0xCC111800, .gadd 0 2 2 3), (32, 0xCC2A1001, .gdamp 0 5 4 2), (32, 0xCC290002, .gsolve 0 5 2),
    (32, 0xCC2AA003, .gres 0 5 5 4 false), (32, 0xCE190740, .gelim 0 3 2 3 true 2), (32, 0xD004C080, .mload 0 1 6 true 0),
    (32, 0xD000C001, .mflip 0 6 false 0), (32, 0xD000E242, .mstrm 0 0 7 2 false true 0), (32, 0xD008C003, .mdrain 0 2 6 0 false false 0),
    (32, 0xD000C144, .mclr 0 6 1 false true 0), (32, 0xD200C100, .copy 0 0 6 1), (32, 0xD200C141, .copym 0 0 6 1 false true 0)] := by decide

theorem test_decode_long_10 : Decodes [
    (32, 0xD204C982, .gather 0 1 6 9 true), (32, 0xD204C903, .scatter 0 1 6 9), (32, 0xD208C984, .mcast 0 2 6 9 true),
    (32, 0xD4006000, .tmset 0 0 3), (32, 0xD4008001, .tmadv 0 0 4), (32, 0xD600C740, .disp 0 0 6 7 4), (32, 0xD614C001, .dcur 0 5 6),
    (32, 0xD600A042, .dres 0 0 5 4), (32, 0xD604D603, .comb 0 1 6 22), (32, 0xD8140000, .tmark 0 5),
    (32, 0xD808C801, .replay 0 2 6 8 false), (32, 0xD80C0002, .ttrim 0 3), (32, 0xDA1A4000, .send 0 6 18),
    (32, 0xDA1A4701, .sendb 0 6 18 7), (32, 0xDA024002, .reply 0 18), (32, 0xDA024003, .spawn 0 18)] := by decide

theorem test_decode_long_11 : Decodes [
    (32, 0xDC0C0000, .tagen 0 3), (32, 0xDC0C0001, .tagdis 0 3), (32, 0xDC140002, .tagpnd 0 5), (32, 0xDE10A600, .mbput 0 4 5 6),
    (32, 0xDE110001, .mbtake 0 4 8), (32, 0xDE0C0002, .mbcfg 0 3), (32, 0xE000C700, .crySt 0 6 7), (32, 0xE014C701, .cryAdd 0 5 6 7),
    (32, 0xE0140002, .cryMark 0 5), (32, 0xE2000004, .fence .rel .pkg), (32, 0xE400A000, .publish 0 5), (32, 0xE6000801, .barr 0 .quad 1),
    (32, 0xE6142801, .bwait 0 5 .quad 1), (32, 0xE800E600, .cntadd 0 7 6), (32, 0xE8008601, .cntarm 0 4 6), (32, 0xE81CC002, .cntrd 0 7 6)] := by decide

theorem test_decode_long_12 : Decodes [
    (32, 0xEA240006, .srd 0 9 6), (32, 0xEA009016, .swr 0 4 22), (32, 0xEC00A600, .ctxsv 0 5 6), (32, 0xEC00A601, .ctxld 0 5 6),
    (32, 0xEE00A600, .xinv 0 5 6)] := by decide
/-! ## Small states -/

/-- Registers x[r] with values. -/
def regs (l : List (Nat × Word)) (t : Ctx) : Ctx := l.foldl (fun t e => t.wx (BitVec.ofNat 5 e.1) e.2) t

/-- The memory of a package 0 whose quad 0 belongs to partition 0, which exists and sees the package as its 0, and whose core 0 has one region descriptor over its whole slice. -/
def mem0 : List Host.Cell :=
  let m := Memory.write [] (sliceKey 0 0x410400) 8 0xFC02C00000000000
  let m := Memory.write m (sliceKey 8256 7) 1 0x80
  let m := Memory.write m (sliceKey 8256 0x1000) 2 0x8000
  Memory.write m (sliceKey 8256 0x40000) 1 0x80

/-- Context `c` of core `n` runs at 0x100 with a private window of 64 KiB; `f` changes it. -/
def at_ (n c : Nat) (f : Ctx → Ctx) : State :=
  setCtx { State.reset with mem := mem0, cur := ⟨n, c, false⟩ } n c (f { Ctx.reset n c with st := .running, pc := 0x100, win := 65536 })

/-- Core 0, context 0. -/
def on0 (l : List (Nat × Word)) : State := at_ 0 0 (regs l)

/-- The instruction answers a next state of which `f` holds. -/
def leads (i : Instr) (s : State) (f : State → Bool) : Bool := match exec i s with | .next t => f t | _ => false
/-- It leaves `v` in x[d]. -/
def gives (i : Instr) (s : State) (d : Reg) (v : Word) : Bool := leads i s fun t => (me t).xAt 1000 d == v

/-! ## Results worked in the spec -/

/-- R285's table: DIV and REM of −7 and 2, DIVU and REMU of 9 and 0 with IDZ, DIV of −2^63 and −1 with IOV. -/
theorem test_divisions : (let s := on0 [(4, BitVec.ofInt 64 (-7)), (5, 2)]
    gives (.div 0 3 4 5) s 3 (BitVec.ofInt 64 (-3)) && gives (.rem 0 3 4 5) s 3 (BitVec.ofInt 64 (-1)) &&
    leads (.divu 0 3 4 5) (on0 [(4, 9)]) (fun t => (me t).xAt 1000 3 == BitVec.allOnes 64 && (me t).sflags == 1) &&
    gives (.remu 0 3 4 5) (on0 [(4, 9)]) 3 9 &&
    leads (.div 0 3 4 5) (on0 [(4, 0x8000000000000000), (5, BitVec.allOnes 64)])
      (fun t => (me t).xAt 1000 3 == 0x8000000000000000 && (me t).sflags == 2)) = true := by decide +kernel

/-- R264's BFI, R328's shift by 65, R306's LIH, R315's products of −1 and −1, R313's MIN and MINU. -/
theorem test_scalars : (let s := on0 [(4, BitVec.allOnes 64), (5, BitVec.allOnes 64)]
    gives (.bfi 0 3 4 8 3) (on0 [(3, 0xFFFF), (4, 5)]) 3 0xF5FF && gives (.shl 0 4 4 3) (on0 [(4, 3), (3, 65)]) 4 6 &&
    gives (.lih 0 3 0x10) s 3 0x20000 && gives (.mul 0 3 4 5) s 3 1 && gives (.mulh 0 3 4 5) s 3 0 &&
    gives (.mulhu 0 3 4 5) s 3 0xFFFFFFFFFFFFFFFE && gives (.min 0 3 4 5) (on0 [(4, BitVec.allOnes 64), (5, 1)]) 3 (BitVec.allOnes 64) &&
    gives (.minu 0 3 4 5) (on0 [(4, BitVec.allOnes 64), (5, 1)]) 3 1) = true := by decide +kernel

/-- R255's and R299's tables: ABSA at die 3, (5, 9), and its PROTECT at row 31; GPTR in context 7. -/
theorem test_addresses : (let n := 3 * 1024 + 5 * 32 + 9
    gives (.absa 0 5 6) (at_ n 0 (regs [(6, 0x4000F88000000080)])) 5 0x000322C000000080 &&
    leads (.absa 0 5 6) (at_ (3 * 1024 + 31 * 32 + 9) 0 (regs [(6, 0x4000088000000080)])) (fun t => (me t).st == .held) &&
    gives (.gptr 0 5 2) (at_ n 7 (regs [(2, 0xC000000000000100)])) 5 0x00032A4000370100) = true := by decide +kernel

/-- R340's origin (0, 2, 0, 0) with x4 = 0xFFFF_0020. -/
theorem test_tmadv : leads (.tmadv 0 0 4) (at_ 0 0 fun t => { regs [(4, 0xFFFF0020)] t with org := t.org.set 0 0x20000 })
    (fun t => (me t).rorg 0 == 0x10020) = true := by decide +kernel

/-- R341: TRAP parks its context and queues the upcall 0x13 with x5 and the PC. -/
theorem test_trap : leads (.trap 0 5) (on0 [(5, 77)]) (fun t => (me t).st == .parked && (me t).cause == .upcall &&
    (myCore t).upcalls.map (fun u => (u.code, u.adr, u.ctx, u.pc)) == [(0x13, 77, 0, 0x100)]) = true := by decide +kernel

/-- R222's market: L = 96,000 W, asks 15,000, six of 13,000, and 9,000. -/
theorem test_market : grants [15000, 13000, 13000, 13000, 13000, 13000, 13000, 9000] 96000 =
    [12429, 12429, 12429, 12429, 12428, 12428, 12428, 9000] := by decide +kernel

/-- R73's table, elements 0 and 1: 2^24 + 1 − 2^24 is 1.0 and 1.5 + 2.25 − 0.75 is 3.0, whatever the order. -/
theorem test_exact_sums : ([[0x4B800000, 0x3F800000, 0xCB800000], [0xCB800000, 0x4B800000, 0x3F800000]].all fun l =>
      exRound fmtF32 (l.foldl (fun e x => exAdd e (fmtF32.unpack x)) exZero) == 0x3F800000) &&
    exRound fmtF32 ([0x3FC00000, 0x40100000, 0xBF400000].foldl (fun e x => exAdd e (fmtF32.unpack x)) exZero) == 0x40400000 := by decide +kernel
/-! ## The hypotheses of the statements can be met, clause by clause -/

/-- ShiftsComparesExtremes, ProductsAndCounts. -/
theorem witness_scalars : (xr (on0 [(4, BitVec.ofInt 64 (-1)), (5, 1)]) 4 = BitVec.ofInt 64 (-1) ∧ xr (on0 [(4, BitVec.ofInt 64 (-1)), (5, 1)]) 5 = 1) ∧
    (fld 0x8C0C8507 25 6 = 6 ∧ 7 ≤ fld 0x8C0C8507 0 8) ∧
    (let s := on0 [(4, BitVec.ofInt 64 (-1))]; xr s 4 = BitVec.ofInt 64 (-1) ∧ xr s 4 = BitVec.ofInt 64 (-1)) := by decide +kernel

/-- DivisionsAndAccumulates: a zero divisor, −2^63 by −1, and −2^63 by 1. -/
theorem witness_divisions : (let s := on0 [(4, 0x8000000000000000), (5, BitVec.allOnes 64), (6, 1)]
    xr s 7 = 0 ∧ (xr s 5 ≠ 0 ∧ (xr s 4).toInt = -2 ^ 63 ∧ (xr s 5).toInt = -1) ∧ (xr s 6 ≠ 0 ∧ ¬((xr s 4).toInt = -2 ^ 63 ∧ (xr s 6).toInt = -1))) := by
  decide +kernel

/-- BitFieldsAndAddresses: fields that end at bit 63 and pass it; coordinates 31 and 32; a place on the edge of the die and one
beyond it; each form of address. -/
theorem witness_addresses : (63 + 1 ≤ 64 ∧ 64 < 63 + 2) ∧
    (let s := on0 [(4, 31), (5, 32), (6, 0x4000000000000080), (7, 0x4000F80000000000), (8, 0x4001000000000000), (9, 0xC00000000000FFFF),
       (10, 0xC000000000010000), (11, 0xC000000000020000)]
     ((xr s 4).toNat ≤ 31 ∧ 31 < (xr s 5).toNat) ∧ bitsOf (xr s 4) 62 2 ≠ 1 ∧
     (bitsOf (xr s 8) 62 2 = 1 ∧ (bitsOf (xr s 8) 48 14 ≠ 0 ∨ bitsOf (xr s 8) 23 15 ≠ 0)) ∧
     (bitsOf (xr s 7) 62 2 = 1 ∧ bitsOf (xr s 7) 48 14 = 0 ∧ bitsOf (xr s 7) 23 15 = 0 ∧ (rowOf 0 : Int) + sext5 (bitsOf (xr s 7) 43 5) < 0) ∧
     (bitsOf (xr s 6) 62 2 = 1 ∧ bitsOf (xr s 6) 48 14 = 0 ∧ bitsOf (xr s 6) 23 15 = 0 ∧ 0 ≤ (rowOf 0 : Int) + sext5 (bitsOf (xr s 6) 43 5) ∧
       (rowOf 0 : Int) + sext5 (bitsOf (xr s 6) 43 5) ≤ 31 ∧ 0 ≤ (colOf 0 : Int) + sext5 (bitsOf (xr s 6) 38 5) ∧
       (colOf 0 : Int) + sext5 (bitsOf (xr s 6) 38 5) ≤ 31) ∧
     isPrivAdr (xr s 4) = false ∧ (isPrivAdr (xr s 11) = true ∧ bitsOf (xr s 11) 17 41 ≠ 0) ∧
     (isPrivAdr (xr s 10) = true ∧ bitsOf (xr s 10) 17 41 = 0 ∧ (me s).win ≤ bitsOf (xr s 10) 0 17) ∧
     (isPrivAdr (xr s 9) = true ∧ bitsOf (xr s 9) 17 41 = 0 ∧ bitsOf (xr s 9) 0 17 < (me s).win)) := by decide +kernel

/-- VectorMasks. -/
theorem witness_lane_flags : vectorsDone (me (on0 [])) = true ∧
    vectorsDone (me (at_ 0 0 fun t => { t with acks := [⟨1, 1, 0, true, 1, none⟩] })) = false := by decide +kernel

/-- The own slice of core 0 from 0x1000 on. -/
abbrev adr0 : Word := 0x4000000000001000
/-- Core 0 with addresses of its own slice in x4, x5, x6, a granule count in x7, a full granule at 0x1040, and a ring at 0x1080 whose elements of 8
bytes stand from 0x2000 on. -/
def own0 : State :=
  let s := on0 [(4, adr0), (5, adr0 + 0x20), (6, adr0 + 0x200), (7, 1), (8, adr0 + 0x40), (9, adr0 + 0x80), (10, 0xC000000000000100)]
  let m := Memory.write (Memory.write s.mem (sliceKey 0 0x1080) 8 0x2000) (sliceKey 0 0x1088) 8 (4 + 256 * 3)
  { s with mem := m, full := [0x104] }

/-- Checks that a kernel evaluates, for the structures of Safety. -/
def notSup : Place → Bool | .sup _ => false | _ => true

theorem notSup_ne {p : Place} (h : notSup p = true) (v : Nat) : p ≠ .sup v := fun e => by subst e; simp [notSup] at h

def quietB (s : State) : Bool :=
  !s.cur.late && isWorker s.cur.core && ((me s).st == .running) && decide ((me s).rslots.length < 12) && (me s).rslots.all (fun r => decide (r.num < s.serial)) &&
    (me s).acks.all (fun u => decide (u.num < s.serial)) && (s.held == []) && (unapplied s).all (fun b => !(b.core == s.cur.core && b.ctx == s.cur.ctx)) &&
    (pendingGets s s.cur.core s.cur.ctx == []) && (behind s s.cur.core (me s).dep == []) && Memory.wf s.mem

theorem quiet_of {s : State} (h : quietB s = true) : Quiet s := by
  simp only [quietB, Bool.and_eq_true, Bool.not_eq_true', beq_iff_eq, List.all_eq_true, decide_eq_true_eq] at h
  obtain ⟨⟨⟨⟨⟨⟨⟨⟨⟨⟨h1, h2⟩, h3⟩, h4⟩, h5⟩, h6⟩, h7⟩, h8⟩, h9⟩, h10⟩, h11⟩ := h
  exact ⟨h1, h2, h3, h4, h5, h6, h7, fun b hb e => by have := h8 b hb; simp [e.1, e.2] at this, h9, h10, h11⟩

def ownB (s : State) (adr : Word) (load : Bool) (n : Nat) (rd wr : Bool) (p : Place) (v : View) : Bool :=
  mbzOk adr && (resolve s (whoAmI s) adr load == .ok p) && isOwn s.cur.core p && notSup p && (accView s (newAccess s .cntrd adr 4) p n rd wr == .ok v)

theorem own_of {s : State} {adr : Word} {load : Bool} {n : Nat} {rd wr : Bool} {p : Place} {v : View} (h : ownB s adr load n rd wr p v = true) :
    OwnAt s adr load n rd wr p v := by
  simp only [ownB, Bool.and_eq_true, beq_iff_eq] at h
  exact ⟨h.1.1.1.1, h.1.1.1.2, h.1.1.2, notSup_ne h.1.2, h.2⟩

def awayB (s : State) (a : Access) (p : Place) : Bool :=
  (!isOwn s.cur.core p || s.cur.late) && notSup p && (!a.slotted || decide ((me s).rslots.length < 12)) &&
    (dieOf (homeOf (whoAmI s) p) == dieOf s.cur.core || !unreachable s s.cur.core (dieOf (homeOf (whoAmI s) p)))

theorem away_of {s : State} {a : Access} {p : Place} (h : awayB s a p = true) : Away s a p := by
  simp only [awayB, Bool.and_eq_true, Bool.or_eq_true, Bool.not_eq_true', beq_iff_eq, decide_eq_true_eq] at h
  exact ⟨h.1.1.1, notSup_ne h.1.1.2, fun e => by simpa [e] using h.1.2, h.2⟩

def reachB (s : State) (a : Access) (align n : Nat) (noPriv rd wr load : Bool) (deny : Place → Bool) (p : Place) : Bool :=
  (formFault a.adr noPriv align == 0) && (resolve s (whoAmI s) a.adr load == .ok p) && !deny p && (ownFault s a p n rd wr == 0) && awayB s a p

theorem reach_of {s : State} {a : Access} {align n : Nat} {noPriv rd wr load : Bool} {deny : Place → Bool} {p : Place}
    (h : reachB s a align n noPriv rd wr load deny p = true) : Reaches s a align n noPriv rd wr load deny p := by
  simp only [reachB, Bool.and_eq_true, Bool.not_eq_true', beq_iff_eq] at h
  exact ⟨h.1.1.1.1, h.1.1.1.2, h.1.1.2, h.1.2, away_of h.2⟩

/-- The view of core 0's slice at an offset. -/
def view0 (off : Nat) : View := ⟨off, 0, 0, [], 0, false, 0x410406, false, 0, 0⟩

/-- ScalarAccesses, Atomics: a load of every size and qualifier, stores that find their granule empty, an atomic of 8 and of 4 bytes. -/
theorem witness_scalar_accesses : Quiet own0 ∧ OwnAt own0 (memAdr own0 4 .d 0) true 8 true false (.slice 0 0x1000) (view0 0x1000) ∧
    OwnAt own0 (memAdr own0 8 .b 0) true 1 true false (.slice 0 0x1040) (view0 0x1040) ∧ isFull own0 (view0 0x1040).key = true ∧
    (∀ poff, Place.slice 0 0x1040 ≠ .mirror poff) ∧ (memAdr own0 4 .d 0).toNat % 8 = 0 ∧
    OwnAt own0 (xr own0 4) true 8 true false (.slice 0 0x1000) (view0 0x1000) ∧
    OwnAt own0 (memAdr own0 4 .d 0) false 8 false true (.slice 0 0x1000) (view0 0x1000) ∧ storeForm own0 (memAdr own0 4 .d 0) 8 = 0 ∧
    isFull own0 (view0 0x1000).key = false ∧ OwnAt own0 (xr own0 4) false 8 false true (.slice 0 0x1000) (view0 0x1000) ∧
    storeForm own0 (xr own0 4) 8 = 0 ∧ OwnAt own0 (xr own0 4) false 8 true true (.slice 0 0x1000) (view0 0x1000) ∧
    OwnAt own0 (xr own0 4) false 4 true true (.slice 0 0x1000) (view0 0x1000) :=
  ⟨quiet_of (by decide +kernel), own_of (by decide +kernel), own_of (by decide +kernel), by decide +kernel, nofun, by decide +kernel,
   own_of (by decide +kernel), own_of (by decide +kernel), by decide +kernel, by decide +kernel, own_of (by decide +kernel), by decide +kernel,
   own_of (by decide +kernel), own_of (by decide +kernel)⟩

/-- A counter at 0x10C0 of core 0's slice, armed for 1. -/
def armed0 : State := { own0 with mem := Memory.write own0.mem (sliceKey 0 0x10C8) 8 (1 + 0x80 * 2 ^ 32) }

/-- CountersCount: a counter that is not armed, a value above COUNT, and an armed counter that an addend of 1 brings to its target. -/
theorem witness_counters : Quiet own0 ∧ (∀ o, Place.slice 0 0x1000 ≠ .mirror o) ∧ isPrivAdr (xr own0 4) = false ∧ (xr own0 4).toNat % 16 = 0 ∧
    OwnAt own0 (xr own0 4) false 16 true true (.slice 0 0x1000) (view0 0x1000) ∧ Memory.read own0.mem (0x1000 + 12) 1 < 128 ∧
    (bitsOf (xr own0 7) 38 26 = 0 ∧ Memory.read own0.mem 0x1000 8 < (xr own0 7).toNat % 2 ^ 32) ∧
    OwnAt own0 (xr own0 4) true 16 true false (.slice 0 0x1000) (view0 0x1000) ∧
    (Memory.wf armed0.mem = true ∧ 128 ≤ Memory.read armed0.mem (0x10C0 + 12) 1 ∧
      Memory.read armed0.mem (0x10C0 + 8) 4 ≤ (Memory.read armed0.mem 0x10C0 8 + 1) % 2 ^ 64 ∧ coreExists (Memory.read armed0.mem (0x10C0 + 13) 3) = true) :=
  ⟨quiet_of (by decide +kernel), nofun, by decide +kernel, by decide +kernel, own_of (by decide +kernel), by decide +kernel, by decide +kernel,
   own_of (by decide +kernel), by decide +kernel⟩

/-- The same counter, whose address is in x4, with its COUNT at `n` and armed or not. -/
def count0 (n : Nat) (armed : Bool) : State :=
  let s := setMe (if armed then armed0 else own0) (regs [(4, adr0 + 0xC0)] (me own0))
  { s with mem := Memory.write s.mem (sliceKey 0 0x10C0) 8 n }

/-- CountersCount: CNTADD that brings an armed counter to its target, CNTARM with COUNT at its target and above it. -/
theorem witness_counters_fire : (∀ s ∈ [count0 0 true, count0 1 false, count0 2 false], isPrivAdr (xr s 4) = false ∧ (xr s 4).toNat % 16 = 0) ∧
    (let s := count0 0 true
     Quiet s ∧ OwnAt s (xr s 4) false 16 true true (.slice 0 0x10C0) (view0 0x10C0) ∧ 128 ≤ Memory.read s.mem (0x10C0 + 12) 1 ∧
       Memory.read s.mem (0x10C0 + 8) 4 ≤ (Memory.read s.mem 0x10C0 8 + (xr s 7).toNat) % 2 ^ 64 ∧ coreExists (Memory.read s.mem (0x10C0 + 13) 3) = true) ∧
    (let s := count0 1 false
     Quiet s ∧ OwnAt s (xr s 4) false 16 true true (.slice 0 0x10C0) (view0 0x10C0) ∧ bitsOf (xr s 7) 38 26 = 0 ∧
       Memory.read s.mem 0x10C0 8 = (xr s 7).toNat % 2 ^ 32 ∧ coreExists (s.cur.core % 2 ^ 24) = true) ∧
    (let s := count0 2 false
     Quiet s ∧ OwnAt s (xr s 4) false 16 true true (.slice 0 0x10C0) (view0 0x10C0) ∧ (xr s 7).toNat % 2 ^ 32 < Memory.read s.mem 0x10C0 8 ∧ (me s).c63 = false) :=
  ⟨by decide +kernel, ⟨quiet_of (by decide +kernel), own_of (by decide +kernel), by decide +kernel⟩,
   ⟨quiet_of (by decide +kernel), own_of (by decide +kernel), by decide +kernel⟩, ⟨quiet_of (by decide +kernel), own_of (by decide +kernel), by decide +kernel⟩⟩

/-- RingsAndBits: what a PUT copies, read of the own slice, and brought by a read of its own. -/
theorem witness_put_bytes : (let b := Memory.readBytes own0.mem (sliceKey 0 0x1000) 16
    PayloadOf own0 (xr own0 4) 16 b ∧ b.length = 16 ∧ PayloadOf (setMe own0 { me own0 with paybuf := some b }) (xr own0 4) 16 b) :=
  ⟨.inr ⟨by decide +kernel, quiet_of (by decide +kernel), .slice 0 0x1000, view0 (sliceKey 0 0x1000), own_of (by decide +kernel), rfl⟩,
   by decide +kernel, .inl (by decide +kernel)⟩

/-- The ring of `own0` with 16 elements, all of them in use. -/
def ringFull0 : State := { own0 with mem := Memory.write own0.mem (sliceKey 0 0x1098) 8 16 }

/-- RingsAndBits: an empty and a full ring; the granules of a KiB; runs of 1 and of 4,096 granules; a PUT of one granule. -/
theorem witness_rings : Quiet own0 ∧ Quiet ringFull0 ∧
    (∀ s ∈ [own0, ringFull0], let r := readRing s.mem (sliceKey 0 0x1080)
      isPrivAdr (xr s 9) = false ∧ (xr s 9).toNat % 32 = 0 ∧ r.base.toNat % 2 ^ r.esz = 0 ∧ r.log2n ≤ 16 ∧ r.esz ≤ 3 ∧ r.zero = true ∧
      bitsOf r.base 62 2 = 0 ∧ mbzOk r.base = true ∧ ringPlace s (newAccess s .enq (xr s 9) 4) (.slice 0 0x1080) r = some (.slice 0 0x2000)) ∧
    OwnAt own0 (xr own0 9) false 32 true true (.slice 0 0x1080) (view0 0x1080) ∧
    OwnAt ringFull0 (xr ringFull0 9) false 32 true true (.slice 0 0x1080) (view0 0x1080) ∧
    (let r := readRing own0.mem (sliceKey 0 0x1080)
     let f := readRing ringFull0.mem (sliceKey 0 0x1080)
     let e (s : State) (r : Ring) (k : Nat) := accView s (newAccess s .enq (xr s 9) 4) (ringElem r (.slice 0 0x2000) k) (2 ^ r.esz) true true
     (e own0 r r.tail = .ok (view0 0x2000) ∧ (r.tail + 2 ^ 64 - r.head) % 2 ^ 64 < 2 ^ r.log2n ∧ r.tail = r.head) ∧
     (e ringFull0 f f.tail = .ok (view0 0x2000) ∧ 2 ^ f.log2n ≤ (f.tail + 2 ^ 64 - f.head) % 2 ^ 64) ∧
     (e ringFull0 f f.head = .ok (view0 0x2000) ∧ f.tail ≠ f.head)) ∧
    (isPrivAdr (xr own0 4 &&& ~~~(1023 : Word)) = false ∧
      OwnAt own0 (xr own0 4 &&& ~~~(1023 : Word)) true 1024 true false (.slice 0 0x1000) (view0 0x1000)) ∧
    (bitsOf (xr own0 7) 16 47 = 0 ∧ bitsOf (xr own0 7) 0 16 = 1 ∧ crosses64k (xr own0 4) 16 = false ∧
      OwnAt own0 (xr own0 4) false 16 false true (.slice 0 0x1000) (view0 0x1000)) ∧
    (crosses64k (0x4000000000010000) (16 * 4096) = false ∧
      OwnAt own0 0x4000000000010000 false (16 * 4096) false true (.slice 0 0x10000) (view0 0x10000)) ∧
    (transferFault (xr own0 7) (xr own0 6) (xr own0 4) = (0, 0) ∧ OwnAt own0 (xr own0 4) true 16 true false (.slice 0 0x1000) (view0 0x1000) ∧
      OwnAt own0 (xr own0 6) false 16 false true (.slice 0 0x1200) (view0 0x1200)) :=
  ⟨quiet_of (by decide +kernel), quiet_of (by decide +kernel), by decide +kernel, own_of (by decide +kernel), own_of (by decide +kernel),
   by decide +kernel, ⟨by decide +kernel, own_of (by decide +kernel)⟩, ⟨by decide +kernel, by decide +kernel, by decide +kernel, own_of (by decide +kernel)⟩,
   ⟨by decide +kernel, own_of (by decide +kernel)⟩, ⟨by decide +kernel, own_of (by decide +kernel), own_of (by decide +kernel)⟩⟩

/-! ### Accesses that leave, and what arrives -/

/-- `own0` and a region descriptor of core 1, with an address of core 1's slice in x11, one of die 1 in x12, mailboxes of cores 1 and 0 in x13 and x14, BALINT in x15, a Granary address
in x16, an address beside a word in x17, and the lane 0 in p1. -/
def far0 : State :=
  let s := { own0 with mem := Memory.write own0.mem (sliceKey 1 0x410400) 8 0xFC02C00000000000 }
  let t := regs [(11, 0x4000004000001000), (12, 0x0001000000001000), (13, 0x4000004000418000), (14, 0x4000000000418000),
    (15, 0x4000000000410200), (16, 0x8000000000000100), (17, 0x4000004000001001)] (me s)
  setMe s { t with p := t.p.set 1 1 }

/-- ScalarsLeave: loads, stores, an atomic and a compare of core 1's slice. -/
theorem witness_scalars_leave : (let s := far0
    let adr := memAdr s 11 .d 0
    let ld (q : Qual) : Access := { newAccess s (.load q 8) adr 4 with dest := xCode 3 }
    let sd (q : Qual) : Access := { newAccess s (.store q 8) adr 4 with val := (xr s 7).setWidth 1024 }
    let amo : Access := { newAccess s (.amo .add true) (xr s 11) 4 with
      val := (xr s 7).setWidth 1024
      dest := xCode 3 }
    let cas : Access := { newAccess s (.cas true) (xr s 11) 4 with
      val := (xr s 7).setWidth 1024
      val2 := xr s 3
      dest := xCode 3 }
    let p := Place.slice 1 0x1000
    Reaches s (ld .plain) 8 8 false true false true denyNone p ∧ Reaches s (ld .wait) 8 8 false true false true denyNone p ∧
    Reaches s (ld .consume) 8 8 false true false true denyMirror p ∧ storeForm s adr 8 = 0 ∧ Reaches s (sd .plain) 1 8 false false true false denyMirror p ∧
    Reaches s (sd .wait) 1 8 false false true false denyMirror p ∧ Reaches s (sd .consume) 1 8 false false true false denyMirror p ∧
    Reaches s amo 8 8 false true true false denySpecial p ∧ Reaches s cas 8 8 false true true false denySpecial p) :=
  ⟨reach_of (by decide +kernel), reach_of (by decide +kernel), reach_of (by decide +kernel), by decide +kernel, reach_of (by decide +kernel),
   reach_of (by decide +kernel), reach_of (by decide +kernel), reach_of (by decide +kernel), reach_of (by decide +kernel)⟩

/-- VectorsLeave: the same of counters, rings, full/empty instructions, vectors and TMSET; lanes with one active, none, and a misaligned one. -/
theorem witness_vectors_leave : (let s := far0
    let adr := xr s 11
    let new (op : AccOp) := newAccess s op adr 4
    let arg (op : AccOp) : Access := { new op with val := (xr s 7).setWidth 1024 }
    let p := Place.slice 1 0x1000
    let vl (q : Qual) : Access := { newAccess s (.vload q .f32) (vecAdr s 11 0) 4 with pred := pr s 0, lanes := pr s 0, dest := vCode 2 }
    let vs (q : Qual) : Access := { newAccess s (.vstore q .f32) (vecAdr s 11 0) 4 with val := vr s 2, pred := pr s 0, lanes := pr s 0 }
    let gath : Access := { newAccess s (.gath .f32) adr 4 with
      adr2 := adr
      idx := vr s 3
      pred := pr s 1
      lanes := pr s 1
      dest := vCode 2 }
    let scat : Access := { newAccess s (.scat .f32) adr 4 with
      adr2 := adr
      idx := vr s 3
      val := vr s 2
      pred := pr s 1
      lanes := pr s 1 }
    Reaches s (arg .cntadd) 16 16 true true true false denySpecial p ∧ bitsOf (xr s 7) 38 26 = 0 ∧
    Reaches s (arg .cntarm) 16 16 true true true false denySpecial p ∧
    Reaches s { new .cntrd with dest := xCode 3 } 16 16 true true false true denySpecial p ∧
    Reaches s { arg .enq with dest := xCode 3 } 32 32 true true true false denySpecial p ∧
    Reaches s { new .deq with dest := xCode 3, dest2 := xCode 7 } 32 32 true true true false denySpecial p ∧
    Reaches s { newAccess s .feqry (adr &&& ~~~(1023 : Word)) 4 with dest := xCode 3 } 1 1024 true true false true denyControl p ∧
    (mbzOk adr = true ∧ isPrivAdr adr = false ∧ bitsOf (xr s 7) 16 47 = 0 ∧ bitsOf (xr s 7) 0 16 = 1 ∧ adr.toNat % 16 = 0 ∧ crosses64k adr 16 = false) ∧
    Reaches s (new (.feset 1 false)) 16 16 true false true false denySpecial p ∧
    Reaches s (vl .plain) 128 128 false true false true denyNone p ∧ Reaches s (vl .consume) 128 128 false true false true denyMirror p ∧
    (storeForm s (vecAdr s 11 0) 128 = 0 ∧ Reaches s (vs .plain) 1 128 false false true false denyMirror p) ∧
    Reaches s { new .tmset with dest := tmCode 0 } 32 32 false true false true denyNone p ∧
    (activeLanes (pr s 1) = [0] ∧ (laneFault s gath .f32 true 0).1 = 0 ∧ resolve s (whoAmI s) (laneAdr adr (vr s 3) .f32 0) true = .ok p ∧
      Away s gath p ∧ (laneFault s scat .f32 false 0).1 = 0 ∧ resolve s (whoAmI s) (laneAdr adr (vr s 3) .f32 0) false = .ok p ∧ Away s scat p) ∧
    (activeLanes (pr s 2) = [] ∧ (me s).rslots.length < 12) ∧
    ((activeLanes (pr s 0)).head? = some 0 ∧ (laneFault s { gath with adr2 := xr s 17 } .f32 true 0).1 ≠ 0)) :=
  ⟨reach_of (by decide +kernel), by decide +kernel, reach_of (by decide +kernel), reach_of (by decide +kernel), reach_of (by decide +kernel),
   reach_of (by decide +kernel), reach_of (by decide +kernel), by decide +kernel, reach_of (by decide +kernel), reach_of (by decide +kernel),
   reach_of (by decide +kernel), ⟨by decide +kernel, reach_of (by decide +kernel)⟩, reach_of (by decide +kernel),
   ⟨by decide +kernel, by decide +kernel, by decide +kernel, away_of (by decide +kernel), by decide +kernel, by decide +kernel, away_of (by decide +kernel)⟩,
   by decide +kernel, by decide +kernel⟩

/-- TransfersLeave: GET of one granule of core 1 into the own slice, MBPUT to core 1, MBTAKE of an own mailbox, PUBLISH of a Granary page. -/
theorem witness_transfers_leave : (let s := far0
    let acc : Access := { newAccess s (.get 1) (xr s 11) 4 with adr2 := xr s 6, dest := xCode 7 }
    let put : Access := { newAccess s .mbput (xr s 13) 4 with val := (xr s 7).setWidth 1024, val2 := xr s 7 }
    let take : Access := { newAccess s .mbtake (xr s 14) 4 with dest := xCode 8, dest2 := xCode 9 }
    let pub : Access := { newAccess s .publish (xr s 16) 4 with vec := releaseVec s }
    transferFault (xr s 7) (xr s 11) (xr s 6) = (0, 0) ∧ ownSide s (xr s 6) false = some (.slice 0 0x1200) ∧
    ownFault s { acc with adr := xr s 6 } (.slice 0 0x1200) 16 false true = 0 ∧ Reaches s acc 16 16 true true false true denyControl (.slice 1 0x1000) ∧
    (mailboxFault s (xr s 13) = (0, 1) ∧ fmtF32.isNan (bitsOf (xr s 7) 32 32) = false ∧ partOf s 1 = some (partNum s s.cur.core)) ∧
    Away s put (.ctl 1 0x418000) ∧ mailboxFault s (xr s 14) = (0, s.cur.core) ∧ Away s take (.ctl 0 0x418000) ∧
    (formFault (xr s 16) true 1 = 0 ∧ loadsDone (me s) = true ∧ resolve s (whoAmI s) (xr s 16) false = .ok (.gran 0 0x100) ∧
      denyUnshadowed s (.gran 0 0x100) = false ∧ ownFault s pub (.gran 0 0x100) 1 false true = 0) ∧ Away s pub (.gran 0 0x100)) :=
  ⟨by decide +kernel, by decide +kernel, by decide +kernel, reach_of (by decide +kernel), by decide +kernel, away_of (by decide +kernel),
   by decide +kernel, away_of (by decide +kernel), by decide +kernel, away_of (by decide +kernel)⟩

/-- The state after an instruction, for building others. -/
def after (i : Instr) (s : State) : State := match exec i s with | .next t => t | _ => s

def arrB (s : State) (k : Nat) (p : Place) (f : Packet → Access → Bool) : Bool :=
  match takeAt s k with
  | .yes q => match q.body with
    | .access a =>
      let m := moveFlow (removeAt s k) q
      !stale s q && mayApply m a && (behind m a.home a.vec == []) && (placeOf m a == .ok p) &&
        (match p with | .gran g v => !needsWalk m g a.part v | _ => true) && (s.held == []) &&
        (match applyAt m a q.stamp p with | .answer t r => (r.acc == a) && (t.held == []) && !unreachable t a.home (dieOf a.core) | _ => false) && f q a
    | _ => false
  | _ => false

theorem arrives_of {s : State} {k : Nat} {p : Place} {f : Packet → Access → Bool} (h : arrB s k p f = true) :
    ∃ q a t r, Arrives s k q a p t r ∧ f q a = true := by
  unfold arrB at h
  split at h <;> try contradiction
  rename_i q hq
  split at h <;> try contradiction
  rename_i a ha
  simp only [Bool.and_eq_true, Bool.not_eq_true', beq_iff_eq] at h
  obtain ⟨⟨⟨⟨⟨⟨⟨h1, h2⟩, h3⟩, h4⟩, h5⟩, h6⟩, h7⟩, h8⟩ := h
  split at h7 <;> try contradiction
  rename_i t r hr
  simp only [Bool.and_eq_true, Bool.not_eq_true', beq_iff_eq] at h7
  exact ⟨q, a, t, r, ⟨hq, ha, h1, h2, h3, h4, fun g v e => by subst e; simpa using h5, h6, hr, h7.1.1, h7.1.2, h7.2⟩, h8⟩

/-- `far0` with loader permission. -/
abbrev ldr0 : State := setMe far0 { me far0 with ldr := true }

/-- AccessesArrive: an access of one die, one between dies, and a store to a control word. -/
theorem witness_arrivals :
    (∃ q a t r, Arrives (after (.ld 0 3 11 .d 0) far0) 0 q a (.slice 1 0x1000) t r ∧ (q.near && ctlStoreOf (after (.ld 0 3 11 .d 0) far0) a == none) = true) ∧
    (∃ q a t r, Arrives (after (.ld 0 3 12 .d 0) far0) 0 q a (.slice 1024 0x1000) t r ∧
      (!q.near && q.seq != 0 && ctlStoreOf (after (.ld 0 3 12 .d 0) far0) a == none) = true) ∧
    (∃ q a t r, Arrives (after (.st 0 7 15 .d 0) ldr0) 0 q a (.ctl 0 0x410200) t r ∧
      (match ctlStoreOf (after (.st 0 7 15 .d 0) ldr0) a with | some e => e.1 == 0 && ctlRow 0 e.2.1 e.2.2 == .other | none => false) = true) :=
  ⟨arrives_of (by decide +kernel), arrives_of (by decide +kernel), arrives_of (by decide +kernel)⟩

/-- A packet of one die, of partition 0. -/
def pk (src dst : Nat) (net : Net) (body : Body) : Packet := ⟨src, dst, net, 0, 0, 0, 0, zeroVec, body, false, 0, false⟩
/-- Core 0 with packets on their way. -/
def coming (l : List Packet) : State := { own0 with flight := l }

/-- The reply to a load into x3 that core 1 has served, and the acknowledgement of a store; the context runs, or waits for the reply. -/
def ld0 : Access := { newAccess own0 (.load .plain 8) adr0 4 with num := 7, dest := xCode 3 }
def st0 : Access := { newAccess own0 (.store .plain 8) adr0 4 with num := 8 }
def rep0 : Reply := ⟨ld0, .data 5, allBits, [], zeroVec⟩
def rep1 : Reply := ⟨st0, .data 0, 0, [], zeroVec⟩
def slot0 : RSlot := ⟨7, xCode 3, noCode, 0, adr0, false, 0, 0, 1, none⟩
def unack0 : Unack := ⟨8, 0, 1, false, 1, none⟩
def back0 : State := let s := coming [pk 1 0 .rply (.reply rep0)]
  setMe s { me s with rslots := [slot0], acks := [unack0] }
def back2 : State := { back0 with flight := [pk 1 0 .rply (.ack rep1)] }
def back1 : State := setMe back0 { me back0 with st := .parked, cause := .reply, awaits := some 7 }

/-- RepliesArrive: a reply for a running context and for one that waits for it, and an acknowledgement. -/
theorem witness_replies : (∀ s ∈ [back0, back1], let c := ctxAt s 0 0;
      takeAt s 0 = .yes (pk 1 0 .rply (.reply rep0)) ∧ (pk 1 0 .rply (.reply rep0)).near = true ∧ stale s (pk 1 0 .rply (.reply rep0)) = false ∧ rep0.ans = .data 5 ∧ rep0.mask = allBits ∧ rep0.bytes = [] ∧ ld0.slotted = true ∧ ld0.core = 0 ∧
      ld0.ctx = 0 ∧ c.act = ld0.act ∧ (c.st = .running ∨ c.st = .parked) ∧ c.rslots.find? (fun y => y.num == ld0.num && !y.arr) = some slot0 ∧
      slot0.num = ld0.num ∧ slot0.left = 1 ∧ slot0.flt = none ∧ slot0.dest = xCode 3 ∧ slot0.dest2 = noCode ∧ (∀ u ∈ c.acks, u.num ≠ ld0.num)) ∧
    (∀ n, ld0.op ≠ .payload n) ∧
    ((ctxAt back1 0 0).st = .parked ∧ (ctxAt back1 0 0).cause = .reply ∧ (ctxAt back1 0 0).awaits = some ld0.num) ∧
    (let c := ctxAt back2 0 0;
      takeAt back2 0 = .yes (pk 1 0 .rply (.ack rep1)) ∧ (pk 1 0 .rply (.ack rep1)).near = true ∧ stale back2 (pk 1 0 .rply (.ack rep1)) = false ∧ rep1.ans = .data 0 ∧ st0.slotted = false ∧ st0.op.vector = false ∧
      c.act = st0.act ∧ c.st ≠ .free ∧ c.acks.find? (fun x => x.num == st0.num) = some unack0 ∧ unack0.left = 1 ∧ unack0.flt = none) :=
  ⟨by decide +kernel, fun n => by simp [ld0, newAccess], by decide +kernel, by decide +kernel⟩

/-- A message of a kind from core 1 to core 0 in class 0, of partition 0. -/
def msg0 (k : MsgKind) : Msg := ⟨k, 0, 0, 0, List.replicate 8 0, [], 0, adr0, 1, 0, 0, 0, false, 0, 0, zeroVec⟩

/-- A store of core 1 to core 0's instruction store, held at its home for a marker. -/
def code0 : Held := ⟨{ newAccess own0 (.store .plain 4) 0x0000000000400000 4 with core := 1, ldr := true }, zeroVec, .catchup [1], 0⟩
def req0 : Msg := msg0 (.request 5)

/-- InboxesAccept: a request that class 0 accepts, one that it refuses, and one behind a held store to the instruction store; nothing to dispatch; a
reply into a reservation, an empty reply, and a message without a reservation while fifteen and while sixteen are held. -/
theorem witness_inboxes : (let p (b : MsgKind) (net : Net) := pk 1 0 net (.msg (msg0 b))
    let s := coming [p (.request 5) .req]
    let full (n : Nat) : Core := { coreAt s 0 with inbox := List.replicate n ⟨msg0 .unreserved, 0, 0⟩ }
    let wants := setCore s 0 { coreAt s 0 with resv := [5] }
    (takeAt s 0 = .yes (p (.request 5) .req) ∧ (p (.request 5) .req).near = true ∧ codeHeld s (p (.request 5) .req) = false ∧
      stale s (p (.request 5) .req) = false ∧ nextWork (removeAt s 0) 0 = none) ∧
    refusalReason (dispatchAll (removeAt s 0) 0) req0 = 0 ∧ refusalReason (dispatchAll (removeAt s 0) 0) { req0 with payload := [1] } ≠ 0 ∧
    takeAt (coming [pk 1 0 .req (.msg { req0 with payload := [1] })]) 0 = .yes (pk 1 0 .req (.msg { req0 with payload := [1] })) ∧
    (takeAt { s with held := [code0] } 0 = .yes (p (.request 5) .req) ∧ codeHeld { s with held := [code0] } (p (.request 5) .req) = true) ∧
    (∀ k ∈ [MsgKind.reply 5, .empty 5, .unreserved], let t := coming [p k .rply]
      takeAt t 0 = .yes (p k .rply) ∧ codeHeld t (p k .rply) = false ∧ stale t (p k .rply) = false) ∧
    (coreAt (dispatchAll wants 0) 0).resv.contains 5 = true ∧
    (∀ n ∈ [15, 16], let t := setCore (coming [p .unreserved .rply]) 0 (full n)
      takeAt t 0 = .yes (p .unreserved .rply)) ∧
    (let u := dispatchAll (setCore s 0 (full 15)) 0; (coreAt u 0).rplyWait = [] ∧ unreservedUsed (coreAt u 0) < 16) ∧
    16 ≤ unreservedUsed (coreAt (dispatchAll (setCore s 0 (full 16)) 0) 0)) := by decide +kernel

/-! ### Control flow, exceptions and modes -/

/-- A core and context of a kind, at a place of the supervisor core's die. -/
def sup0 (f : Ctx → Ctx) : State := at_ (8 * 1024) 0 fun t => f { t with sup := true }

/-- ControlFlow: a condition that holds and one that does not; targets 0xFFFE, 0xFFFF and 0x10000 on a worker core and on a supervisor core; LOOP with
offsets 0, 1, 2 and 3, the count register 0 or not, and one or two levels; END with and without replies to come, owing a reply and not. -/
theorem witness_control_flow : (let s := on0 [(4, 0xFFFE), (5, 0xFFFF), (6, 0x10000)]
    let two := { me s with loops := [⟨2, 0x104, 0x110⟩, ⟨2, 0x104, 0x110⟩] }
    let owing := { me s with owes := true, rplyadr := 0x0000004000000005 }
    xr s 0 = 0 ∧ xr s 4 ≠ 0 ∧ isWorker s.cur.core = true ∧ isWorker (sup0 id).cur.core = false ∧
    ((xr s 4).toNat % 2 = 0 ∧ (xr s 4).toNat ≤ 65535) ∧ (xr s 5).toNat % 2 = 1 ∧ ((xr s 6).toNat % 2 = 0 ∧ 65535 < (xr s 6).toNat) ∧
    (1 ≤ (1 : BitVec 13).toNat ∧ (2 : BitVec 13).toNat < 3 ∧ 3 ≤ (3 : BitVec 13).toNat ∧ (4 : Reg) ≠ 0) ∧
    ((me s).loops.length < 2 ∧ 2 ≤ two.loops.length) ∧
    ((me s).rslots = [] ∧ (me back0).rslots ≠ [] ∧ ((me s).owes && !(me s).replied) = false) ∧
    ((owing.owes && !owing.replied) = true ∧ adrCore s s.cur.core owing.rplyadr = some 1)) := by decide +kernel

/-- FaultsAndTraps: the last context and the largest code; a class 63 activation and another; loads to come and none. -/
theorem witness_faults : ((255 : Nat) < 256 ∧ (15 : Nat) < 16) ∧ (ctxAt (at_ 0 0 fun t => { t with c63 := true }) 0 0).c63 = true ∧
    (ctxAt (on0 []) 0 0).c63 = false ∧ (∀ d, (ctxAt (State.reset) 0 d).cause ≠ .halt) ∧ loadsDone (me (on0 [])) = true ∧
    loadsDone (me back0) = false := by
  refine ⟨by decide, by decide +kernel, by decide +kernel, fun d => ?_, by decide +kernel, by decide +kernel⟩
  simp [ctxAt, coreAt, State.reset, Core.reset, Ctx.reset, look]

/-- An upcall's context beside the running one: 15, at 0x200, with the access of a fault found after issue or with none. -/
def upc0 (b : Option Access) : State := setCtx (on0 [(4, 15), (5, 16), (6, 14)]) 0 15
  { Ctx.reset 0 15 with st := .parked, cause := .upcall, pc := 0x200, flen := 4, kept := b, fcode := 0x10 }

/-- ModesAndRestarts: %SVEC and %EPC even and odd, both modes; contexts 15 and 16, one that no upcall parked, one with no kept access and one with the
access that loads x3. -/
theorem witness_modes : (let s := sup0 fun t => { t with epc := 0x202 }
    let odd := sup0 fun t => { t with epc := 0x203 }
    isWorker s.cur.core = false ∧ (myCore s).svec.toNat % 2 = 0 ∧ ({ myCore s with svec := 1 } : Core).svec.toNat % 2 = 1 ∧ (me s).sup = true ∧
    (me s).epc.toNat % 2 = 0 ∧ (me odd).epc.toNat % 2 = 1 ∧ (me (on0 [])).sup = false) ∧
    (let s := upc0 none
    let b : Access := { ld0 with ctx := 15 }
    let c := ctxAt (upc0 (some b)) 0 15
    (16 ≤ (xr s 5).toNat ∧ (xr s 6).toNat < 16 ∧ ¬((ctxAt s 0 14).st = .parked ∧ (ctxAt s 0 14).cause = .upcall)) ∧
    ((xr s 4).toNat < 16 ∧ (me s).st = .running ∧ (ctxAt s 0 15).st = .parked ∧ (ctxAt s 0 15).cause = .upcall ∧ (ctxAt s 0 15).kept = none) ∧
    (c.st = .parked ∧ c.cause = .upcall ∧ c.kept = some b ∧ c.fcode ≠ fTIMEOUT ∧ b.core = 0 ∧ b.ctx = 15 ∧ b.dest = xCode 3 ∧ b.dest2 = noCode ∧
      keptMask b = allBits)) := by decide +kernel

/-! ### Messages -/

/-- `own0` with a header of class 5, two arguments and no payload in x20, of 16 bytes of payload in x21, on VC 1 in x22, and with the bit above the header
set in x23; the address of core 1 in x24, a class number in x25, an address beyond the pod in x26, a header for SPAWN in x27,
and an address that no payload may have in x28. -/
def snd0 : State := setMe own0 (regs [(20, 0x85), (21, 0x40085), (22, 0x485), (23, 0x800085), (24, 0x4000004000000000), (25, 63), (26, 0x00F0000000000000),
  (27, 0x1C5), (28, 0x4000004000410000)] (me own0))
/-- The same with a core changed. -/
def sndWith (f : Core → Core) : State := setCore snd0 0 (f (coreAt snd0 0))

/-- SendsQueue: each condition of R325 and R326, at 47 and 48 reservations and 31 and 32 queued messages. -/
theorem witness_sends : (let s := snd0
    let h := xr s 20
    let adr := xr s 24
    let full := sndWith fun k => { k with sendq := List.replicate 32 (msg0 .unreserved) }
    let resv := sndWith fun k => { k with resv := List.range 48 }
    (mayRelease s = true ∧ ({ myCore s with resv := List.range 47 } : Core).resv.length < 48 ∧
      sendFull { myCore s with sendq := List.replicate 31 (msg0 .unreserved) } = false) ∧
    ((sendForm h adr none).1 = 0 ∧ destCore s 0 adr = some 1) ∧ ((sendForm h adr (some (xr s 4))).1 = 0 ∧ hdrPlen h = 0) ∧
    ((sendForm (xr s 21) adr (some (xr s 4))).1 = 0 ∧ hdrPlen (xr s 21) ≠ 0 ∧ (payloadFault s (xr s 4) (hdrPlen (xr s 21))).1 = 0 ∧
      (payloadFault s (xr s 28) (hdrPlen (xr s 21))).1 ≠ 0) ∧
    (isWorker 0 = true ∧ (xr s 25).toNat < 64) ∧
    (∀ t ∈ [setMe s { me s with rslots := [slot0] }, resv, full], (sendForm (xr t 20) (xr t 24) none).1 = 0 ∧ destCore t 0 (xr t 24) = some 1 ∧
      (sendForm (xr t 20) (xr t 24) (some (xr t 4))).1 = 0 ∧ hdrPlen (xr t 20) = 0 ∧ (xr t 25).toNat < 64) ∧
    mayRelease (setMe s { me s with rslots := [slot0] }) = false ∧ (mayRelease resv = true ∧ 48 ≤ (myCore resv).resv.length) ∧
    (sendFull (myCore full) = true ∧ (me full).pol = false ∧ mayRelease full = true ∧ (myCore full).resv.length < 48) ∧
    (let t := setMe full { me full with pol := true }; sendFull (myCore t) = true ∧ (me t).pol = true) ∧
    ((sendForm h (xr s 26) none).1 = 0 ∧ (sendForm h (xr s 26) (some (xr s 4))).1 = 0 ∧ destCore s 0 (xr s 26) = none)) := by decide +kernel

/-- SendsQueue: a context that has reserved its reply slot, with room in the queue, and with a full one under both policies. -/
theorem witness_held_slots : (let held (f : Core → Core) (pol : Bool) := setMe (sndWith f) { me (sndWith f) with resvAt := some 3, pol := pol }
    let full (k : Core) := { k with sendq := List.replicate 32 (msg0 .unreserved) }
    (mayRelease (held id false) = true ∧ sendFull (myCore (held id false)) = false ∧ (me (held id false)).resvAt = some 3) ∧
    ∀ p ∈ [false, true], mayRelease (held full p) = true ∧ ¬(me (held full p)).resvAt = none ∧ sendFull (myCore (held full p)) = true ∧ (me (held full p)).pol = p) := by
  decide +kernel

/-- SendsQueue: a payload that an access has brought, and one of the own slice. -/
theorem witness_payloads : PayloadOf (setMe snd0 { me snd0 with paybuf := some [1, 2] }) (xr snd0 4) 2 [1, 2] ∧
    PayloadOf snd0 (xr snd0 4) 16 (Memory.readBytes snd0.mem (sliceKey 0 0x1000) 16) :=
  ⟨.inl (by decide +kernel), .inr ⟨by decide +kernel, quiet_of (by decide +kernel), .slice 0 0x1000, view0 (sliceKey 0 0x1000),
    own_of (by decide +kernel), rfl⟩⟩

/-- RepliesSpawnsClasses: a request to answer, none, and one answered; 255 and 256 records; a neighbour with room and none; a memory in its canonical form. -/
theorem witness_records : (let s := snd0
    let h := xr s 20
    let asked := setMe s { me s with owes := true, rplyadr := 0x0000004000000005 }
    let deep := sndWith fun k => { k with deque := List.replicate 256 ⟨[], 0, zeroVec, 0⟩ }
    let all := (neighbours 0).foldl (fun t m => setCore t m { coreAt t m with deque := List.replicate 256 ⟨[], 0, zeroVec, 0⟩ }) deep
    (hdrOk h = true ∧ hdrPlen h = 0 ∧ (me asked).rplyadr ≠ 0 ∧ (me asked).replied = false ∧ mayRelease asked = true ∧ sendFull (myCore asked) = false ∧
      adrCore asked 0 (me asked).rplyadr = some 1) ∧
    sendFull { myCore s with sendq := List.replicate 32 (msg0 .unreserved) } = true ∧ (me s).rplyadr = 0 ∧
    (hdrOk (xr s 23) = false ∧ hdrOk (xr s 21) = true ∧ hdrPlen (xr s 21) ≠ 0) ∧
    (hdrOk (xr s 27) = true ∧ hdrPlen (xr s 27) = 0 ∧ bitsOf (xr s 27) 10 2 = 0 ∧ hdrNarg (xr s 27) ≤ 7 ∧ mayRelease s = true) ∧
    ({ myCore s with deque := List.replicate 255 ⟨[], 0, zeroVec, 0⟩ } : Core).deque.length < 256 ∧
    (256 ≤ (myCore deep).deque.length ∧ sendFull (myCore deep) = false ∧ (overflowCore deep 0).isSome = true) ∧
    (256 ≤ (myCore all).deque.length ∧ sendFull (myCore all) = false ∧ overflowCore all 0 = none) ∧
    Memory.wf s.mem = true) := by decide +kernel

/-! ### The Gaussian unit -/

/-- GaussianBlocks, Elimination, UnitsAndOrigins. -/
theorem witness_gaussian : (let a := BitVec.ofNat 1024 (packElems 32 (List.replicate 27 0x40000000 ++ [0x21, 0x3F000000, 0, 0, 0]))
    let z := BitVec.ofNat 1024 (packElems 32 (List.replicate 27 0 ++ [0x21, 0x7FC00000, 0, 0, 0]))
    let bad := BitVec.ofNat 1024 (packElems 32 (List.replicate 27 0 ++ [7, 0, 0, 0, 0]))
    let other := BitVec.ofNat 1024 (packElems 32 (List.replicate 27 0 ++ [0x31, 0, 0, 0, 0]))
    (gOk a = true ∧ gOk z = true ∧ gDesc a = gDesc z ∧ (gBeta a).isSome = true ∧ gBeta z = none) ∧
    (gOk bad = false ∧ gOk other = true ∧ gDesc a ≠ gDesc other) ∧
    (∃ j, cholesky (gLam z) (gDim z) = .inl j) ∧ ((1 : BitVec 6).toNat < 2 ^ gDim a ∧ ¬(2 : BitVec 6).toNat < 2 ^ gDim a) ∧
    ((gElim a 0).isRight = true ∧ (gElim a 1).isRight = true ∧ (gElim z 1).isLeft = true)) :=
  ⟨by decide +kernel, by decide +kernel, ⟨0, by decide +kernel⟩, by decide +kernel, by decide +kernel⟩
/-- The block of R152's worked example, whose slot 0 is eliminated, with the factor and the solutions that the rule works out. -/
def block0 : VWord := BitVec.ofNat 1024 (packElems 32 ([0x40800000, 0x40000000, 0x40400000] ++ List.replicate 18 0 ++ [0x41000000, 0x40A00000] ++
  List.replicate 4 0 ++ [0x652]))
/-- Elimination: 4.0 = 2.0 × 2.0; columns 2.0 and 8.0 give 1.0 and 4.0 forward, and 0.5 and 2.0 back; a singular pivot of the first column. -/
theorem witness_elimination : (let y (c _ : Nat) : Nat := if c = 0 then 0x3F800000 else 0x40800000
    let z (c _ : Nat) : Nat := if c = 0 then 0x3F000000 else 0x40000000
    let l (_ _ : Nat) : Nat := 0x40000000
    let kept := gSlots (gDim block0) 1 false
    let gone := gSlots (gDim block0) 1 true
    let column (c k : Nat) : Nat := if c < kept.length then gLam block0 (gone.getD k 0) (kept.getD c 0) else gEta block0 (gone.getD k 0)
    gOk block0 = true ∧ (1 : BitVec 6).toNat < 2 ^ gDim block0 ∧ kept = [1] ∧ gone = [0] ∧
    FactorOf (fun i j => gLam block0 (gone.getD i 0) (gone.getD j 0)) gone.length gone.length l ∧
    (∀ c, c ≤ kept.length → ForwardOf l gone.length (column c) (y c) ∧ BackOf l gone.length (y c) (z c)) ∧
    SingularAt (fun _ _ => 0) 1 0 l) := by
  unfold SingularAt FactorOf ForwardOf BackOf
  decide +kernel
/-- GaussianBlocks: the same of a block of one slot, Λ = 4.0 and η = 8.0: its mean is 2.0, and u = 0.5 gives its variance. -/
theorem witness_solution : (let b : VWord := BitVec.ofNat 1024 (packElems 32 ([0x40800000] ++ List.replicate 20 0 ++ [0x41000000] ++ List.replicate 5 0 ++ [0x51]))
    let l (_ _ : Nat) : Nat := 0x40000000
    gOk b = true ∧ gDim b = 1 ∧ FactorOf (gLam b) 1 1 l ∧ ForwardOf l 1 (gEta b) (fun _ => 0x40800000) ∧
    BackOf l 1 (fun _ => 0x40800000) (fun _ => 0x40000000) ∧ ∀ i, i < 1 → ForwardOf l 1 (fun j => if j = i then 0x3F800000 else 0) (fun _ => 0x3F000000)) := by
  unfold FactorOf ForwardOf BackOf
  decide +kernel
theorem witness_units : (let s := on0 []
    let t := setMe s { me s with var := [⟨vCode 2, .value 5, allBits, true⟩] }
    let busy := setCore t 0 { coreAt t 0 with gaussq := [0] }
    (coreAt s 0).gaussq = [] ∧ (coreAt busy 0).gaussq = 0 :: [] ∧ (ctxAt busy 0 0).var = [⟨vCode 2, .value 5, allBits, true⟩]) := by decide +kernel

/-! ### Engine commands and what engines do -/

/-- A map of 4 by 2 elements of 4 bytes in rows of 16, at an address of the own slice. -/
def map0 (off : Nat) : BitVec 256 := BitVec.ofNat 256 ((2 ^ 62 + off) + 2 ^ 64 * 16 + 2 ^ 80 * 16 + 2 ^ 96 + 2 ^ 112 + 2 ^ 128 * 16 + 2 ^ 200 * 4 + 2 ^ 212 * 2 + 2 ^ 224 * 3)

/-- `own0` with maps in tm1 and tm2, a completion address in x20, lists (of a table that does not record, of one that does, and of MCAST) in x21, x22
and x23, one misaligned in x24, a private address in x25, a cursor's address in x26 and a misaligned one in x27, an address of DIE 14 in x28, one whose
must-be-zero bits are not zero in x29, and a tape of 64 KiB for job 0. -/
def eng0 : State :=
  let s := setMe own0 (let t := regs [(20, adr0 + 0x40), (21, adr0 + 0x400), (22, adr0 + 0x440), (23, adr0 + 0x480), (24, adr0 + 0x401), (25, 0xC000000000000100),
      (26, adr0 + 0x800), (27, adr0 + 0x820), (28, 0x000E000000000400), (29, adr0 + 0x800400)] (me own0)
    { t with tm := (t.tm.set 1 (map0 0x2000)).set 2 (map0 0x3000) })
  let m := Memory.write s.mem (sliceKey 0 0x1400) 8 2
  let m := Memory.write m (sliceKey 0 0x1440) 8 (2 + 2 ^ 32 * 3)
  let m := Memory.write (Memory.write m (sliceKey 0 0x1480) 8 2) (sliceKey 0 0x1490) 16 (0x4000000000003000 + 2 ^ 64 * 0x4000000000005000)
  { s with mem := Memory.write (Memory.write m (sliceKey 0 0x416000) 8 (2 ^ 63)) (sliceKey 0 0x416008) 8 65536 }

/-- The running context has an outstanding reply, so it may not release. -/
def waits0 (s : State) : State := setMe s { me s with rslots := [slot0] }
/-- A queue of sixteen commands. -/
def copy0 : CopyCmd := ⟨0, 0, 0, 0, 0, 0, 0, 0, 0, 0, 0, 0, none, 0, false, [], none, 0, 0, false, zeroVec⟩
def disp0 : DispCmd := ⟨0, .disp, 0, 0, 0, 0, 0, 0, false, 0, 0, 0, 0, 0, 0, 0, 0, none, false, false, none, 0, 0, 0, [], 0, (0, 0), [], [], none, false, none, 0, 0, false, zeroVec⟩
def mill0 : MillCmd := ⟨0, 0, 0, 0, false, 0, 0, 0, none, 0, 0, 0, false, zeroVec⟩
def full0 : State := setCore eng0 0 (let k := coreAt eng0 0
  { k with copyq := List.replicate 16 copy0, dispq := List.replicate 16 disp0, mill := { k.mill with inbox := List.replicate 16 mill0 } })

/-- MillAndCopyCommands: words, tiles and lists that are in order; one command to a single Mill and one to a gang; with room and without, before and
after earlier replies; a private completion address; a misaligned list. -/
theorem witness_engine_commands : (let s := eng0
    let w := xr s 20
    (w.getLsbD 3 = false ∧ cwAcc w = 0 ∧ isPrivAdr (cwAdr w) = false ∧ (cwordAbs s w).isSome = true) ∧
    (∀ r ∈ [(1 : TReg), 2], mapPrivate ((me s).rtm r) = false ∧ (resolveMap s 0 ((me s).rtm r) ((me s).rorg r)).isSome = true) ∧
    (mayRelease s = true ∧ millRoom s (millTargets 0 3 false) = true ∧ millRoom s (millTargets 0 0 true) = true) ∧
    (mayRelease (waits0 s) = false ∧ (mayRelease full0 = true ∧ millRoom full0 (millTargets 0 0 false) = false ∧ copyRoom full0 0 = false)) ∧
    (isPrivAdr (cwAdr (xr s 25)) = true ∧ (8 : Word).getLsbD 3 = true ∧ cwAcc 2 ≠ 0 ∧ (1 : BitVec 2) ≠ 0) ∧
    (w.getLsbD 3 = false ∧ operandBad (cwAdr w) = false ∧ (cwordOperand s w).isSome = true ∧ ∀ r ∈ [(1 : TReg), 2],
      operandBad (baseAdr ((me s).rtm r)) = false ∧ mbzOk (baseAdr ((me s).rtm r)) = true ∧ (mapOperand s 0 ((me s).rtm r) ((me s).rorg r)).isSome = true) ∧
    (∀ r ∈ [(21 : Reg), 22, 23], isPrivAdr (xr s r) = false ∧ (xr s r).toNat % 16 = 0 ∧ mbzOk (xr s r) = true ∧ (absOperand s 0 (xr s r)).isSome = true) ∧
    copyRoom s 0 = true ∧ (operandBad (xr s 25) = true ∧ operandBad (xr s 29) = true ∧ isPrivAdr (xr s 29) = false ∧ mbzOk (xr s 29) = false ∧
      (xr s 29).toNat % 64 = 0) ∧
    (isPrivAdr (xr s 24) = false ∧ (xr s 24).toNat % 16 ≠ 0)) := by decide +kernel

/-- RouteCommands, RecordingAndCursors: the headers of two tables and of a list of MCAST, as they are read. -/
theorem witness_headers : (let b (off : Nat) := Memory.readBytes eng0.mem (sliceKey 0 off) 16
    PayloadOf eng0 (xr eng0 21) 16 (b 0x1400) ∧ PayloadOf eng0 (xr eng0 22) 16 (b 0x1440) ∧ PayloadOf eng0 (xr eng0 23) 16 (b 0x1480)) := by
  have key : ∀ (r : Reg) (off : Nat), ownB eng0 (xr eng0 r) true 16 true false (.slice 0 off) (view0 (sliceKey 0 off)) = true →
      PayloadOf eng0 (xr eng0 r) 16 (Memory.readBytes eng0.mem (sliceKey 0 off) 16) :=
    fun r off h => .inr ⟨by decide +kernel, quiet_of (by decide +kernel), _, _, own_of h, rfl⟩
  exact ⟨key 21 0x1400 (by decide +kernel), key 22 0x1440 (by decide +kernel), key 23 0x1480 (by decide +kernel)⟩
/-- CopyCommands, RecordingReserves: MCAST's list of two destinations in the own slice, and one that accesses have brought, whose second is private. -/
theorem witness_lists : (let b := Memory.readBytes eng0.mem (sliceKey 0 0x1480) 32
    let bad := b.take 24 ++ [0, 0, 0, 0, 0, 0, 0, 0xC0]
    let brought := setMe eng0 { me eng0 with paybuf := some bad }
    ListOf eng0 (xr eng0 23) b ∧ (mcastBases b).any operandBad = false ∧ ListOf brought (xr brought 23) bad ∧ (mcastBases bad).any operandBad = true ∧
    mayRelease brought = true) := by
  refine ⟨⟨by decide +kernel, .inr ⟨by decide +kernel, quiet_of (by decide +kernel), by decide +kernel, .slice 0 0x1480, view0 (sliceKey 0 0x1480),
    own_of (by decide +kernel), by decide +kernel, fun i hi => ?_⟩⟩, by decide +kernel, ⟨by decide +kernel, .inl (by decide +kernel)⟩, by decide +kernel, by decide +kernel⟩
  have h2 : (Memory.readBytes eng0.mem (sliceKey 0 0x1480) 32).length = 32 := by decide +kernel
  have h3 : i = 0 ∨ i = 1 := by rw [h2] at hi; omega
  rcases h3 with rfl | rfl
  · exact ⟨.slice 0 0x1490, view0 (sliceKey 0 0x1490), own_of (by decide +kernel), by decide +kernel⟩
  · exact ⟨.slice 0 0x1498, { view0 (sliceKey 0 0x1498) with blkOff := 8 }, own_of (by decide +kernel), by decide +kernel⟩
theorem witness_route_commands : (let s := eng0
    let h (r : Reg) := ofBytes (Memory.readBytes s.mem (sliceKey 0 (0x1400 + 0x40 * (r.toNat - 21))) 16)
    let w := xr s 26
    nbits (h 21) 32 1 = 0 ∧ nbits (h 21) 33 1 = 0 ∧ nbits (h 22) 32 1 = 1 ∧ nbits (h 22) 33 1 = 1 ∧ mayRelease s = true ∧ dispRoom s 0 = true ∧
    (operandBad w = false ∧ w.toNat % 64 = 0 ∧ (absOperand s 0 w).isSome = true) ∧
    (operandBad (xr s 28) = false ∧ (xr s 28).toNat % 64 = 0 ∧ absOperand s 0 (xr s 28) = none) ∧ (30 : Reg) ≠ 31 ∧ (mayRelease full0 = true ∧ dispRoom full0 0 = false)) := by
  decide +kernel

/-- RecordingAndCursors: an entry that the quota has room for, to its last byte, and one a byte too large for it and one for the die's store; cursors at
private, misaligned and aligned addresses, with the command of a completion word and without; TTRIM at the position and beyond it. -/
theorem witness_recording : (let s := eng0
    let tp := tapeOf s 0 0 0
    let near := setDie s 0 { dieAt s 0 with tapes := [⟨0, 0, 65472, 0, []⟩] }
    let past := setDie s 0 { dieAt s 0 with tapes := [⟨0, 0, 65473, 0, []⟩] }
    let crowd := setDie s 0 { dieAt s 0 with tapes := [⟨1, 0, 8388608, 0, []⟩] }
    (tp.pos + 64 - tp.trim ≤ tapeLimit s 0 0 0 ∧ tapeHeld s 0 + 64 ≤ 8388608) ∧
    ((tapeOf near 0 0 0).pos + 64 - (tapeOf near 0 0 0).trim = tapeLimit near 0 0 0) ∧
    tapeLimit past 0 0 0 < (tapeOf past 0 0 0).pos + 64 - (tapeOf past 0 0 0).trim ∧ 8388608 < tapeHeld crowd 0 + 64 ∧
    ((me s).tapeAt = none ∧ mayRelease s = true ∧ dispRoom s 0 = true ∧ copyRoom s 0 = true) ∧
    (isPrivAdr (xr s 25) = true ∧ operandBad (xr s 27) = false ∧ (xr s 27).toNat % 64 ≠ 0) ∧ tp.pos < (xr s 26).toNat ∧ (xr s 0).toNat ≤ tp.pos) := by
  decide +kernel
/-- The engine that context 0 of core 0 gives commands, and the address of a completion granule. -/
def e0 : Eng := engOf 0 0 0 false zeroVec
def cadr0 : Word := 0x1040
theorem witness_cursors : (let s := eng0
    let e := engOf 0 0 (partNum s 0) (suprNow s) (releaseVec s)
    let k := (absAdr s 0 (xr s 26)).getD 0
    let busy := setCore s 0 { coreAt s 0 with dispq := [{ disp0 with cword := cadr0 }] }
    engView s e k 64 true = .ok (view0 (sliceKey 0 0x1800), 0) ∧ sliceKey 0 0x1800 % 16 = 0 ∧ Memory.wf s.mem = true ∧
    findCommand s e ((cwordAbs s (xr s 20)).getD (xr s 20)) = none ∧
    findCommand busy e ((cwordAbs busy (xr busy 20)).getD (xr busy 20)) = some (0, { disp0 with cword := cadr0 })) := by decide +kernel

def mayB (s : State) (e : Eng) (adr : Word) (v : View) : Bool :=
  Memory.wf s.mem && v.key % 16 == 0 && match engView s e adr 16 true with | .ok w => w.1 == v | .error _ => false

theorem may_of {s : State} {e : Eng} {adr : Word} {v : View} (h : mayB s e adr v = true) : MayComplete s e adr v := by
  simp only [mayB, Bool.and_eq_true, beq_iff_eq] at h
  refine ⟨h.1.1, h.1.2, ?_⟩
  have h2 := h.2
  split at h2
  · rename_i w hw
    exact ⟨w.2, by rw [hw, ← eq_of_beq h2]⟩
  · contradiction

/-- A result that is none of the failures, with a property. -/
def okWith {ε α : Type} (x : Except ε α) (f : α → Bool) : Bool := match x with | .ok a => f a | .error _ => false

/-- Core 0 with commands in its Mill's inbox, in its copy engine, in its dispatch engine. -/
def mills (cs : List MillCmd) (f : Mill → Mill) : State := setCore eng0 0 (let k := coreAt eng0 0
  { k with mill := f { k.mill with inbox := cs } })
def copies (c : CopyCmd) : State := setCore eng0 0 { coreAt eng0 0 with copyq := [c] }
def disps (c : DispCmd) : State := setCore eng0 0 { coreAt eng0 0 with dispq := [c] }

/-- MillExecutes: no command; a command while the partition runs, and on a core whose engines are saved; a gang that is not complete; a halted Mill with
another command than MCLR with R, and with that one; MFLIP; a command that fails; a Mill from another version's image. -/
theorem witness_mill : (let s := mills [mill0] id
    let flip : MillCmd := { mill0 with fn := 1, cadr := cadr0 }
    let share (m : Mill) (c : MillCmd) := millShare s e0 m c 0 0
    let m := (coreAt s 0).mill
    let halted := { m with halted := true }
    (coreAt eng0 0).mill.inbox = [] ∧ engRuns s 0 = true ∧ engRuns (setCore s 0 { coreAt s 0 with saved := true }) 0 = false ∧ m.inbox = mill0 :: [] ∧
    mill0.gang = none ∧
    ((∃ k ∈ quadCores 0, k ≠ 0 ∧ ∀ x, (coreAt (mills [{ mill0 with gang := some 5 }] id) k).mill.inbox.head? = some x → x.gang ≠ some 5)) ∧
    okWith (share m flip) (fun o => o.bad == none && o.status == stOK) = true ∧
    ((mill0.fn.toNat % 16 ≠ 4 ∧ halted.halted = true) ∧ (({ mill0 with fn := 0x44 } : MillCmd).fn.getLsbD 6 = true)) ∧
    okWith (share halted mill0) (fun o => o.status == stHALTED) = true ∧ m.halted = false ∧
    okWith (share m mill0) (fun o => o.status == stENGERR) = true ∧ m.alien = false ∧
    (okWith (share { m with alien := true } flip) (fun o => o.code == 8) && okWith (share { m with alien := true } { mill0 with fn := 0x44 }) (fun o => o.status == stOK)) = true) := by
  refine ⟨?_, ?_, ?_, ?_, ?_, ⟨1, ?_, ?_, ?_⟩, ?_, ?_, ?_, ?_, ?_, ?_, ?_⟩
  case refine_8 =>
    have : ((coreAt (mills [{ mill0 with gang := some 5 }] id) 1).mill.inbox.head?) = none := by decide +kernel
    intro x hx
    rw [this] at hx
    contradiction
  all_goals decide +kernel
def rowB (s : State) (e : Eng) (a b n : Nat) (wr : Bool) (fmt key : Nat) : Bool :=
  (rowPieces (8 * a) (8 * b) n).all fun p =>
    let q := pieceAdr (8 * a) (8 * b) p.1 p.2
    match engPlace s e q.1 (!wr), engView s e q.1 q.2 wr with
    | some (.slice h o, h'), .ok (v, h'') => h' == h && h'' == h && v.key == sliceKey h o && sliceKey h o == key + b * p.1 && v.fmt == fmt &&
        v.geom == 0 && v.hdrs == []
    | _, _ => false

theorem row_of {s : State} {e : Eng} {a b n : Nat} {wr : Bool} {fmt key : Nat} (h : rowB s e a b n wr fmt key = true) : RowAt s e a b n wr fmt key := by
  intro p hp
  have hq := List.all_eq_true.mp h p hp
  dsimp only at hq
  split at hq
  · rename_i h1 o h2 v h3 h4 h5
    simp only [Bool.and_eq_true, beq_iff_eq] at hq
    obtain ⟨⟨⟨⟨⟨⟨rfl, rfl⟩, h6⟩, h7⟩, h8⟩, h9⟩, h10⟩ := hq
    exact ⟨_, _, _, h4, h5, h6, h7, h8, h9, h10⟩
  · contradiction

def tileB (s : State) (e : Eng) (m : BitVec 256) (o : BitVec 64) (b : Nat) (wr : Bool) (fmt : Nat) (key : Nat → Nat) : Bool :=
  mapOk m && eszBits (mapEsz m) == 8 * b && fmtBits fmt == 8 * b &&
    (List.range (mapT1 m)).all fun r => rowInside m o r && rowB s e (rowBit m o r / 8) b (mapT0 m) wr fmt (key r)

theorem tile_of {s : State} {e : Eng} {m : BitVec 256} {o : BitVec 64} {b : Nat} {wr : Bool} {fmt : Nat} {key : Nat → Nat}
    (h : tileB s e m o b wr fmt key = true) : TileAt s e m o b wr fmt key := by
  simp only [tileB, Bool.and_eq_true, beq_iff_eq, List.all_eq_true, List.mem_range] at h
  exact ⟨h.1.1.1, h.1.1.2, h.1.2, fun r hr => ⟨(h.2 r hr).1, row_of (h.2 r hr).2⟩⟩

/-- `eng0` with regions of RAW, of I8 from 0x8000 and of F32 from 0xA000 on, and rows of an I8 tile there. -/
def tiles0 : State :=
  let d (m : List Host.Cell) (i w : Nat) := Memory.write m (sliceKey 0 (0x410400 + 16 * i)) 8 (0xFC00000000000000 + w)
  let m := d (d (d eng0.mem 0 (15 * 2 ^ 45)) 1 (9 * 2 ^ 54 + 13 * 2 ^ 45 + 0x8000)) 2 (2 ^ 54 + 13 * 2 ^ 45 + 0xA000)
  { eng0 with mem := Memory.write (Memory.write m (sliceKey 0 0x8000) 2 0x0203) (sliceKey 0 0x8040) 1 0xFF }
/-- Maps of 32 by 2 elements of I8 and of 4 by 2 elements of F32. -/
def mapI8 : BitVec 256 := BitVec.ofNat 256 ((2 ^ 62 + 0x8000) + 2 ^ 64 * 64 + 2 ^ 80 * 16 + 2 ^ 96 + 2 ^ 112 + 2 ^ 128 * 64 + 2 ^ 200 * 32 + 2 ^ 212 * 2 + 2 ^ 224)
def mapF32 : BitVec 256 := BitVec.ofNat 256 ((2 ^ 62 + 0xA000) + 2 ^ 64 * 32 + 2 ^ 80 * 16 + 2 ^ 96 + 2 ^ 112 + 2 ^ 128 * 32 + 2 ^ 200 * 4 + 2 ^ 212 * 2 + 2 ^ 224 * 3)
def ready0 : Mill := { (coreAt eng0 0).mill with bad := [], active := ⟨true, 9, 0, 32, 32, List.replicate 1024 2, []⟩ }

/-- MillComputes: tiles of I8 to load and to stream, and one of F32 to drain into; an accumulator that is valid and one that is not. -/
theorem witness_tiles : TileAt tiles0 e0 mapI8 0 1 false 9 (fun r => sliceKey 0 (0x8000 + 64 * r)) ∧
    TileAt tiles0 e0 mapF32 0 4 true 1 (fun r => sliceKey 0 (0xA000 + 128 * r)) ∧
    (∀ r r', r < r' → r' < mapT1 mapF32 → sliceKey 0 (0xA000 + 128 * r) + 4 * mapT0 mapF32 ≤ sliceKey 0 (0xA000 + 128 * r')) := by
  refine ⟨tile_of (by decide +kernel), tile_of (by decide +kernel), fun r r' h1 h2 => ?_⟩
  rw [show mapT1 mapF32 = 2 by decide +kernel] at h2
  obtain ⟨rfl, rfl⟩ : r = 0 ∧ r' = 1 := by omega
  decide +kernel
theorem witness_codes (i j : Nat) : planeCode ready0.active i j < 256 := by
  simp only [planeCode, ready0, List.getD_eq_getElem?_getD, List.getElem?_replicate]
  by_cases h : 32 * (i % 32) + j < 1024 <;> simp [h]
theorem witness_computes : (let share (m : Mill) (fn : BitVec 8) := millShare tiles0 e0 m { mill0 with fn := fn, map := if fn = 3 then mapF32 else mapI8, c := 1 } 0 0
    let m := ready0
    m.alien = false ∧ m.halted = false ∧ mill0.gang = none ∧ Memory.wf tiles0.mem = true ∧
    (mapT1 mapI8 = 2 ∧ mapT0 mapI8 = 32 ∧ mapT1 mapF32 = 2 ∧ mapT0 mapF32 = 4 ∧ (mill0.c + 1) % 4 ∉ m.bad) ∧
    (m.active.k = 32 ∧ m.active.valid = true ∧ narrowFmt 9 = true ∧ narrowFmt m.active.fmt = true ∧ m.active.geom = 0) ∧
    okWith (share m 0) (fun o => o.status == stOK && o.mill.shadow.valid) = true ∧
    (okWith (share (coreAt eng0 0).mill 2) (fun o => o.status == stINVALID) = true ∧ (coreAt eng0 0).mill.active.valid = false ∧ 1 ∈ ({ ready0 with bad := [1] } : Mill).bad) ∧
    okWith (share { ready0 with bad := [1] } 3) (fun o => o.status == stINVALID) = true) := by decide +kernel

theorem witness_completions : MayComplete eng0 e0 cadr0 (view0 (sliceKey 0 0x1040)) := may_of (by decide +kernel)

/-- A command that copies tm1's tile to tm2's, and one that gathers it from rows of a map by a list at 0x1500 whose second row is marked SKIP. -/
def cp0 : CopyCmd := { copy0 with cword := cadr0, smap := mapWithBase (map0 0x2000) 0x2000, dmap := mapWithBase (map0 0x3000) 0x3000 }
def ga0 : CopyCmd := { cp0 with fn := 2, list := 0x1500 }
def gath0 : State :=
  let s := copies ga0
  let m := Memory.write s.mem (sliceKey 0 0x1500) 8 2
  let m := Memory.write m (sliceKey 0 0x1510) 32 (map0 0x4000).toNat
  { s with mem := Memory.write m (sliceKey 0 0x1530) 8 (1 + 2 ^ 32 * 2 ^ 31) }

/-- CopyExecutes: no command; every row moved; a row to move and one to pass over; checks that pass and checks that fail. -/
theorem witness_copy : (let s := copies cp0
    let last := { cp0 with started := true, row := 2 }
    (coreAt eng0 0).copyq[0]? = none ∧ (coreAt s 0).copyq[0]? = some cp0 ∧ engRuns s 0 = true ∧
    (last.started = true ∧ mapT1 last.smap ≤ last.row ∧ copyOp last ≠ 1 ∧ last.gone = []) ∧
    (0 < mapT1 cp0.smap ∧ okWith (copyDests s e0 cp0) (fun n => n == 1) = true ∧
      okWith (copyRow s e0 cp0 0 0) (fun x => !x.skip && (moveRow s e0 cp0 x).2 == ⟨0, [], 16, none⟩) = true ∧ cp0.move = none ∧
      rowStays s e0 (rowSource s e0 (8 * 0x2000)) (8 * 0x3000) (8 * 4) (mapT0 cp0.smap) = true) ∧
    (1 < mapT1 ga0.smap ∧ okWith (copyRow gath0 e0 { ga0 with started := true, row := 1 } 1 0) (fun x => x.skip) = true) ∧
    (copyCheck s e0 cp0 = .ok 0 ∧ cp0.pos = none ∧ cp0.started = false) ∧
    (copyCheck s e0 { cp0 with dmap := cp0.smap } = .ok 0x31 ∧ cp0.done = 0 ∧ cwT cp0.cword = false)) := by decide +kernel

/-- CopyExecutes: a row of RAW that goes from 0x2000 to 0x3000; COPYM when every row is moved, with room in the Mill and with none. -/
theorem witness_copy_raw : (let s := copies cp0
    okWith (copyRow s e0 { cp0 with started := true } 0 0) (fun x => !x.skip && x.src == 8 * 0x2000 && x.sbits == 8 * 4 && x.dst == 8 * 0x3000 && x.dbits == 8 * 4) = true ∧
    Memory.wf s.mem = true ∧ RowAt s e0 0x2000 4 (mapT0 cp0.smap) false 0 (sliceKey 0 0x2000) ∧ RowAt s e0 0x3000 4 (mapT0 cp0.smap) true 0 (sliceKey 0 0x3000)) :=
  ⟨by decide +kernel, by decide +kernel, row_of (by decide +kernel), row_of (by decide +kernel)⟩
theorem witness_follow_on : (let c := { cp0 with fn := 1, started := true, row := 2 }
    let s := copies c
    let full := setCore s 0 (let k := coreAt s 0
      { k with mill := { k.mill with inbox := List.replicate 16 mill0 } })
    let mills := millTargets 0 (nbits c.fn.toNat 4 2) (c.fn.getLsbD 7)
    copyOp c = 1 ∧ mapT1 c.smap ≤ c.row ∧ c.gone = [] ∧ millRoom s mills = true ∧ millRoom full mills = false) := by decide +kernel

/-- An expert of core 0 with two slots at 0x1700. -/
def ex0 : Expert := ⟨0, 0x3000, 0x4000, 0x1700, 0x1740, 2, 16, true⟩
/-- `disp0` started, with two records in the table at 0x1600, of which the first is not valid, and core 0 with a request of it. -/
def di0 : DispCmd := { disp0 with num := 3, cword := cadr0, table := 0x1600, n := 2, started := true, bound := 14, list := 0x1680 }
def granting : State := setCore (disps di0) 0 { coreAt (disps di0) 0 with grants := [⟨0, 3, 0x1580, 77, 0, 5, 0⟩] }

/-- DispatchExecutes, GrantsServe: commands stopped, over and with a record to pass over, with and without rows to come; a request with free slots and with none. -/
theorem witness_dispatch : (let s := disps di0
    (coreAt eng0 0).dispq[0]? = none ∧ (coreAt s 0).dispq[0]? = some di0 ∧ dispRuns s 0 di0 = true ∧ (di0.move = none ∧ di0.halt = false ∧ di0.bad = none ∧ di0.next < di0.n) ∧
    okWith (readRec s e0 di0.table 0) (fun r => !r.valid) = true ∧ ({ di0 with next := 2 } : DispCmd).n ≤ 2 ∧ di0.rows = [] ∧ di0.kind ≠ .replay ∧
    ({ di0 with rows := [(adr0, [0])] } : DispCmd).rows ≠ []) ∧
    (let late := { di0 with late := [1] }; late.late = 1 :: [] ∧ late.pos = none ∧ Memory.wf (disps late).mem = true ∧
      engView (disps late) e0 (late.list + BitVec.ofNat 64 (4 * late.nlist)) 4 true = .ok (view0 (sliceKey 0 0x1680), 0)) ∧
    (let stopped := { di0 with late := [1], cursor := some 0x1800 }
     okWith (listAdd (disps stopped) e0 { stopped with late := [] } 1 true) (fun x => x.2 == { stopped with late := [], nlist := 1, lost := 1 } &&
       x.2.bad.isNone && Memory.wf x.1.mem && okWith (engView x.1 e0 0x1800 64 true) fun v => v.1 == view0 (sliceKey 0 0x1800)) = true) ∧
    ((coreAt eng0 0).grants = [] ∧ (coreAt granting 0).grants = ⟨0, 3, 0x1580, 77, 0, 5, 0⟩ :: [] ∧
      (coreAt granting 0).dispq.find? (fun y => y.num == 3) = some di0 ∧ okWith (readExpert granting e0 0x1580) (fun _ => true) = true ∧
      slotTable granting e0 ex0 = .ok (sliceKey 0 0x1700) ∧ (grantSlot granting (sliceKey 0 0x1700) 2 77 0 0 5).map (fun e => e.1) = some 0) ∧
    (Memory.wf granting.mem = true ∧ (77 : Nat) < 2 ^ 32) ∧
    (di0.bound < 15 ∧ (granting.cores.any fun y => y.2.grants.any fun h => h.core == 0 && h.cmd == di0.num) = true ∧ di0.pos = none ∧
      engView granting e0 0x1680 4 true = .ok (view0 (sliceKey 0 0x1680), 0)) ∧
    15 ≤ ({ di0 with bound := 15 } : DispCmd).bound := by decide +kernel
/-- The same with the expert's descriptor in memory, and the words of its two slots. -/
def slots0 (a b : Nat) : State :=
  let m := Memory.write granting.mem (sliceKey 0 0x1580) 32 (0x3000 + 2 ^ 64 * 0x4000 + 2 ^ 128 * 0x1700 + 2 ^ 192 * 0x1740)
  let m := Memory.write m (sliceKey 0 0x15A0) 8 (2 + 2 ^ 16 * 16)
  { granting with mem := Memory.write (Memory.write m (sliceKey 0 0x1700) 8 a) (sliceKey 0 0x1710) 8 b }
/-- A slot that another token holds, and one that the request's own does. -/
abbrev other0 : Nat := 78 + 2 ^ 56
abbrev mine0 : Nat := 77 + 2 ^ 57

/-- DispatchAndGrants: both slots free, the second free, the second held by the request's own token, and none: then nothing is granted, and the bound may
run out. -/
theorem witness_grant : (let g : Grant := ⟨0, 3, 0x1580, 77, 0, 5, 0⟩
    let slot (s : State) := okWith (readExpert s e0 0x1580) fun x => x.nslot == 2 && slotTable s e0 x == .ok (sliceKey 0 0x1700)
    let gives (s : State) := (grantSlot s (sliceKey 0 0x1700) 2 77 0 0 5).map fun e => e.1
    (∀ s ∈ [slots0 0 0, slots0 other0 0, slots0 other0 mine0, slots0 other0 other0], slot s = true ∧ Memory.wf s.mem = true ∧ (coreAt s 0).grants = [g]) ∧
    (gives (slots0 0 0) = some 0 ∧ gives (slots0 other0 0) = some 1 ∧ gives (slots0 other0 mine0) = some 1 ∧ gives (slots0 other0 other0) = none) ∧
    (let s := slots0 other0 other0
     (s.cores.all fun y => y.2.grants.all fun h => (grantNow s h).isNone) = true ∧ (s.cores.any fun y => y.2.grants.any fun h => h.core == 0 && h.cmd == di0.num) = true ∧
      (coreAt s 0).dispq[0]? = some di0 ∧ engView s e0 0x1680 4 true = .ok (view0 (sliceKey 0 0x1680), 0))) := by decide +kernel

/-- A command on a table at 0x1600 of two records of token 5, the second of them with the V bit `second`, for an expert whose slot 0 has the word `a`, whose
rows come in at 0x6000 and lie at 0xA800 (F32) when they are worked out, and far ends of the command on the die. -/
def route0 (second a : Nat) (c : DispCmd) : State :=
  let w (k n v : Nat) (m : List Host.Cell) := Memory.write m (sliceKey 0 k) n v
  let m := w 0x1580 32 (0x6000 + 2 ^ 64 * 0xA800 + 2 ^ 128 * 0x1700 + 2 ^ 192 * 0x1740) tiles0.mem
  let m := w 0x1700 8 a (w 0x15A0 8 (2 + 2 ^ 16 * 16) m)
  let m := w 0x1610 16 (0x1580 + 1 + 2 ^ 64 * 5 + 2 ^ 96 * 0x3F800000) m
  let m := w 0x1620 16 (0x1580 + second + 2 ^ 64 * 5 + 2 ^ 96 * 0x3F800000) m
  let m := w 0xA800 16 0x40400000 (w 0xA280 16 0x40000000 m)
  let s := setDie { tiles0 with mem := m } 0 { dieAt tiles0 0 with tapes := [⟨0, 0, 64, 0, [⟨0, 48, false, (0, 0), 1, 1, 0, 0, 1, []⟩]⟩] }
  setCore s 0 { coreAt s 0 with dispq := [c] }

/-- DispDelivers: a valid record of an expert with no request waiting; a slot granted, the token's row and the slot's in RAW, and NOTE's counter not armed;
both slots held by other tokens. -/
def dl0 : DispCmd := { di0 with map := mapWithBase (map0 0x2000) 0x2000 }
theorem witness_delivery : (let s := route0 1 0 dl0
    let held := { s with mem := Memory.write (Memory.write s.mem (sliceKey 0 0x1700) 8 (6 + 2 ^ 56)) (sliceKey 0 0x1710) 8 (6 + 2 ^ 57) }
    let grant (s : State) := grantSlot (noteWork s 0 0) (sliceKey 0 0x1700) 2 5 0 0x3F800000 0
    let expert (x : Expert) := x.core == 0 && x.good && x.inb == 0x6000 && x.stab == 0x1700 && x.note == 0x1740 && x.nslot == 2 && x.rb == 16
    (∀ t ∈ [s, held], (coreAt t 0).dispq[0]? = some dl0 ∧ engRuns t 0 = true ∧ okWith (readRec t e0 dl0.table 0) (fun r => r.valid && r.token == 5 && r.exp == 0x1580) = true ∧
      okWith (readExpert t e0 0x1580) expert = true ∧ (coreAt t 0).grants = []) ∧
    (dl0.late = [] ∧ dl0.move = none ∧ dl0.halt = false ∧ dl0.started = true ∧ dl0.bad = none ∧ dl0.next < dl0.n ∧ dl0.kind = .disp ∧ dl0.pos = none) ∧
    grant held = none ∧ (grant s).any (fun x => x.1 == 0 && Memory.wf x.2.mem && rowB x.2 e0 (rowBit dl0.map dl0.org 5 / 8) 4 (mapT0 dl0.map) false 0 (sliceKey 0 0x2140) &&
      rowB x.2 e0 0x6000 4 (mapT0 dl0.map) true 0 (sliceKey 0 0x6000) && decide (Memory.read x.2.mem (sliceKey 0 0x1740 + 12) 1 < 128) &&
      rowStays x.2 e0 (rowSource x.2 e0 (rowBit dl0.map dl0.org 5)) (8 * 0x6000) (8 * 4) (mapT0 dl0.map)) = true ∧
    eszBits (mapEsz dl0.map) = 8 * 4) := by decide +kernel

/-- SumsDepart: a COMB of two records of one row, with a slot in STATE 2 and with none, and at its second record; a REPLAY of each kind of two records of one
row, and of one whose far end is not served, and a DEFERRED one. -/
def cb0 : DispCmd := { di0 with kind := .comb, map := mapWithBase mapF32 0xA000 }
def tr0 : TapeRec := ⟨0, 0xA400, 5, 0, 0, 0, 0, 0, 0x3F800000⟩
def rp1 (k : Nat) (l : List TapeRec) : DispCmd := { cb0 with kind := .replay, rkind := k, recs := l, n := l.length }
def isLive (m : Moved) : Bool := match m with | .live 0 v _ _ => v.length == 4 | _ => false
theorem witness_sums : (let live := route0 1 (5 + 2 ^ 57) cb0
    let dead := route0 0 0 cb0
    let r : RouteRec := ⟨0x1580, true, true, 5, 0x3F800000⟩
    (okWith (tableRows live e0 cb0) (fun l => l == [r, r]) = true ∧ okWith (combRecord live e0 cb0 r) isLive = true ∧
      okWith (rowHome live e0 (BitVec.ofNat 64 (rowBit cb0.map cb0.org 5 / 8))) (fun x => x.1 == 0 && !x.2) = true) ∧
    (okWith (tableRows dead e0 cb0) (fun l => l.length == 2 && l.head? == some r && l.getLast?.any fun y => !y.valid) = true ∧
      okWith (combRecord dead e0 cb0 r) (fun m => m == .none) = true ∧ okWith (engView dead e0 cb0.list 4 true) (fun v => v.1 == view0 (sliceKey 0 0x1680)) = true) ∧
    okWith (readExpert live e0 0x1580) (fun x => x.good && okWith (engView live e0 x.stab (16 * x.nslot) false) (fun v => v.1.key == sliceKey 0 0x1700) &&
      okWith (readFarRow live e0 (slotAdr x.outb x 0) 4) fun l => l.length == 4) = true ∧
    (Memory.read live.mem (sliceKey 0 0x1700) 4 = 5 ∧ Memory.read live.mem (sliceKey 0 0x1704) 3 = 0 ∧ Memory.read live.mem (sliceKey 0 0x1707) 1 = 2) ∧
    (∀ k ∈ [0, 1, 2, 3], let c := rp1 k [tr0, tr0]
      farServes (route0 1 0 c) e0 c tr0 = true ∧ okWith (replayRecord (route0 1 0 c) e0 c tr0) isLive = true ∧
      okWith (rowHome (route0 1 0 c) e0 (replayRow c tr0)) (fun x => x.1 == 0) = true ∧ okWith (readTileRow (route0 1 0 c) e0 c.map c.org tr0.row) (fun l => l.length == 4) = true ∧
      okWith (readFarRow (route0 1 0 c) e0 (tr0.adr + c.goff) 4) (fun l => l.length == 4) = true) ∧
    (let c := rp1 1 [{ tr0 with flags := recLOST }]; farServes (route0 1 0 c) e0 c { tr0 with flags := recLOST } = false) ∧ ({ tr0 with flags := 2 } : TapeRec).flags = recDEFERRED) := by
  decide +kernel

/-- RowsAdd: a row that expects two contributions, and its first and its last; parts with values and without; a row of its die that is still to leave the
mesh, and one that waits at the engine; a last part of a row that could not be read. -/
def rp0 : RowPart := ⟨0, 0, 3, 0x2000, 0, 5, 2, false, false, 4, [], true, 0, 0, 0, false, zeroVec⟩
theorem witness_rows : (let a : RowAcc := ⟨0, 3, 0x2000, 0, true, none, 1, []⟩
    let s (h : Bool) (r : RowPart) := setDie (coming [{ pk 1 0 .bulk (.row r) with here := h }]) 0 { dieAt own0 0 with rowacc := [a] }
    let lost : RowPart := { rp0 with live := false }
    (∀ h ∈ [true, false], takeAt (s h rp0) 0 = .yes { pk 1 0 .bulk (.row rp0) with here := h } ∧ stale (s h rp0) { pk 1 0 .bulk (.row rp0) with here := h } = false ∧
      (dieAt (s h rp0) (dieOf rp0.home)).rowacc.find? (fun y => sameRow y rp0) = some a) ∧
    (rp0.live = true ∧ (addPart (s true rp0) a rp0).any (fun b => decide (b.got < rp0.expect)) = true ∧
      (addPart (s true rp0) { a with got := 1 } rp0).any (fun b => decide (rp0.expect ≤ b.got) && b.live && b.fail.isNone) = true) ∧
    (addPart (s true lost) { a with got := 1, fail := some (.refused 6 5) } lost).any (fun b => b.fail == some (.refused 6 5) && decide (rp0.expect ≤ b.got)) = true) := by
  decide +kernel

/-- RowsAdd: the first contribution to a row, with and without accumulators left, of a row whose own value is needed and can be read, or cannot, and one behind
a row that waits; a row that is written when its last part comes, and one whose page refuses the write. -/
theorem witness_row_starts : (let r (b : Bool) (row : Word) : RowPart := { rp0 with base := b, row := row }
    let at' (q : RowPart) : Packet := { pk 1 0 .bulk (.row q) with here := true }
    let s (q : RowPart) := coming [at' q]
    let ok (x : Except EFail (List ExAcc)) := okWith x fun _ => true
    let full := setDie (s rp0) 0 { dieAt own0 0 with rowacc := List.replicate 32 ⟨0, 4, 0x2400, 0, false, none, 1, []⟩ }
    let behind := { coming [at' { rp0 with row := 0x2400 }, at' rp0] with flows := (s rp0).flows }
    let writes (row : Word) := (writeRow (s rp0) (engOf 0 0 0 false zeroVec) (8 * row.toNat) 32 4 fun _ _ => ⟨[0, 0, 0, 0], [], 1⟩).2.2
    (∀ q ∈ [r false 0x2000, r true 0x2000, r true 0xA00000], takeAt (s q) 0 = .yes (at' q) ∧ (dieAt (s q) 0).rowacc = [] ∧
      accsUsed (dieAt (s q) 0) + segments q.n ≤ 32 ∧ rowsWaiting (noteWork (s q) q.home q.job) 0 q = false ∧ 1 < q.expect) ∧
    (ok (firstValue (s (r false 0x2000)) (r false 0x2000)) = true ∧ ok (firstValue (s (r true 0x2000)) (r true 0x2000)) = true ∧
      firstValue (s (r true 0xA00000)) (r true 0xA00000) = .error (.refused fPROTECT 0xA00000)) ∧
    (32 < accsUsed (dieAt full 0) + segments rp0.n ∧ ∀ y ∈ (dieAt full 0).rowacc, y.row ≠ rp0.row) ∧
    rowsWaiting behind 1 rp0 = true ∧ writes 0x2000 = none ∧ writes 0xA00000 = some (.refused fPROTECT 0xA00000)) := by decide +kernel

/-- RowsTravel: data of one piece that reach core 0, where they may be written, and where not; the answer for a command's row that waits for die 0. -/
def dt0 : DataPart := ⟨0, 0, false, 3, 9, 0, [⟨0x3000, 16, 5, 2 ^ 128 - 1, []⟩], 0, 0, 0, false, zeroVec⟩
theorem witness_data : (let p (d : DataPart) : Packet := { pk 1024 0 .bulk (.data d) with here := true }
    let s (d : DataPart) : State := { eng0 with flight := [p d] }
    let bad : DataPart := { dt0 with pieces := [⟨0xA00000, 16, 5, 2 ^ 128 - 1, []⟩] }
    let puts (d : DataPart) := (putPieces (removeAt (s d) 0) e0 1024 zeroVec 0 d.pieces).2
    (∀ d ∈ [dt0, bad], takeAt (s d) 0 = .yes (p d) ∧ (p d).near = true ∧ stale (s d) (p d) = false ∧ dieOf d.home = dieOf d.core) ∧ Memory.wf (s dt0).mem = true ∧
    engView (noteWork (removeAt (s dt0) 0) 0 0) e0 0x3000 16 true = .ok (view0 (sliceKey 0 0x3000), 0) ∧
    puts dt0 = (16, none) ∧ puts bad = (0, some (.refused fPROTECT 0xA00000))) := by decide +kernel
theorem witness_data_done : (let r : DataDone := ⟨0, false, 3, 9, 8, 16, none⟩
    let p (r : DataDone) : Packet := { pk 1024 0 .rply (.dataDone r) with here := true }
    let m : OnWay := ⟨9, [8], 0, none⟩
    let c : CopyCmd := { cp0 with num := 3, move := some m }
    let d : DispCmd := { di0 with move := some (m, ⟨0, 0, sliceKey 0 0x1700, 0, 0x3000, 16⟩) }
    (∀ x ∈ [r, { r with disp := true }], takeAt { eng0 with flight := [p x] } 0 = .yes (p x) ∧ (p x).near = true ∧ stale { eng0 with flight := [p x] } (p x) = false) ∧
    m.tag = r.tag ∧ r.die ∈ m.left ∧ (coreAt (copies c) 0).copyq = [c] ∧ c.num = r.cmd ∧ (coreAt (disps d) 0).dispq = [d] ∧ d.num = r.cmd ∧
    engRuns (disps d) 0 = true ∧ d.late = [] ∧ d.cursor = none) := by decide +kernel

/-- DispatchExecutes: a command that a refused access has stopped, with rows to come and none, with a cursor and none; a stop of the partition. -/
theorem witness_dispatch_fails : (let bad := { di0 with bad := some (0x22, 0, 0) }
    let stopped := { bad with cursor := some 0x1800 }
    let stop := setStop (disps di0) 0 0 1
    dispRuns (disps bad) 0 bad = true ∧ bad.strict = false ∧ cwT bad.cword = false ∧ bad.pos = none ∧ MayComplete (disps bad) e0 (cwAdr bad.cword) (view0 (sliceKey 0 0x1040)) ∧
    engView (disps stopped) e0 0x1800 64 true = .ok (view0 (sliceKey 0 0x1800), 0) ∧
    MayComplete (cursorAgain (disps stopped) e0 stopped) e0 (cwAdr bad.cword) (view0 (sliceKey 0 0x1040)) ∧
    partOf stop 0 = some 0 ∧ isSupCore 0 = false ∧ 1 ≤ stopState stop 0 0 ∧ (coreAt stop 0).dispq[0]? = some di0 ∧ di0.kind ≠ .replay) := by
  refine ⟨?_, ?_, ?_, ?_, may_of ?_, ?_, may_of ?_, ?_, ?_, ?_, ?_, ?_⟩ <;> decide +kernel

/-- `s` with core 1024, of die 1, in partition 0 and a region of RAW there. -/
def wide (s : State) : State :=
  setSvc { s with mem := Memory.write s.mem (sliceKey 1024 0x410400) 8 (0xFC00000000000000 + 15 * 2 ^ 45) } 0 (0x40000 + quadIdx 1024) 1 128
def cpf : CopyCmd := { cp0 with started := true, dmap := mapWithBase (map0 0x3000) 0x0001000000003000 }
/-- CopyExecutes: a row of RAW that goes from 0x2000 of core 0 to 0x3000 of core 1024, on another die. -/
theorem witness_copy_far : (let s := wide (copies cpf)
    okWith (copyRow s e0 cpf 0 0) (fun x => !x.skip && x.src == 8 * 0x2000 && x.sbits == 8 * 4 && x.dst == 8 * 0x0001000000003000 && x.dbits == 8 * 4) = true ∧
    Memory.wf s.mem = true ∧ RowAt s e0 0x2000 4 (mapT0 cpf.smap) false 0 (sliceKey 0 0x2000) ∧
    RowAt s e0 0x0001000000003000 4 (mapT0 cpf.smap) true 0 (sliceKey 1024 0x3000) ∧ rowSource s e0 (8 * 0x2000) = 0 ∧ unreachable s 0 1 = false ∧
    (∀ j, j < 4 * mapT0 cpf.smap → dieOf (pieceHome s e0 0 (BitVec.ofNat 64 (0x0001000000003000 + j))) = 1)) :=
  ⟨by decide +kernel, by decide +kernel, row_of (by decide +kernel), row_of (by decide +kernel), by decide +kernel, by decide +kernel, by decide +kernel⟩

/-! ### Fences, barriers, mailboxes and the Crier -/

/-- FencesAndBarriers: a fence of each kind that is met; loads, stores, writes of generations and generations that are not. -/
theorem witness_fences : (let s := on0 []
    let t := me s
    let open7 := setPkg s 0 { pkgAt s 0 with gen := 8, gens := [⟨7, [], false⟩] }
    (t.rslots = [] ∧ t.acks = [] ∧ t.wgens.all (writeGenDone s 0) = true ∧ gensClosed s 0 (fenceGen s) = true) ∧ (me back0).rslots ≠ [] ∧ (me back0).acks ≠ [] ∧
    ([7].all (writeGenDone open7 0) = false ∧ gensClosed open7 0 (fenceGen open7) = false) ∧ isSupCore 8192 = true ∧ isSupCore 0 = false) := by decide +kernel

/-- FencesAndBarriers: a write of core 1024 to core 0 is still to be applied, of which the context has seen, and one of which it has not. -/
theorem witness_seen_write : (let seen (v : Nat) := setMe (on0 []) { me (on0 []) with dep := vraise zeroVec 1 v }
    let open' (s : State) : State := { s with held := [⟨{ newAccess s (.store .plain 8) adr0 4 with core := 1024, home := 0 }, vraise zeroVec 1 2, .catchup [2], 1⟩] }
    writeOpen (open' (seen 2)) (podOf 0) (ctxVec (open' (seen 2)) 0 0) = true ∧ writeOpen (open' (seen 1)) (podOf 0) (ctxVec (open' (seen 1)) 0 0) = false ∧
    (me (open' (seen 2))).rslots = [] ∧ (me (open' (seen 2))).wgens.all (writeGenDone (open' (seen 2)) 0) = true) := by decide +kernel

/-- Core 0 with a barrier record of quad scope in force, whose members are 0 and 1; its mask, arrivals and phases as `f` says. -/
def bar0 (c : Scope) (f : Barrier → Barrier) : State := setBar (on0 []) (barKey 0 c 2) (f { Barrier.reset with word := 0x8000000500000000, mask := [0, 1] })

/-- FencesAndBarriers: no member, a disabled record, an arrival that is not the last, the last, a second; POD scope with room in the share and without; a
phase that has ended either way and one that runs; a timeout and none. -/
theorem witness_barriers : (let b (f : Barrier → Barrier) := barAt (bar0 .quad f) (barKey 0 .quad 2)
    let s := bar0 .quad id
    (2 < Scope.quad.barriers ∧ ¬2 < Scope.core.barriers ∧ 2 < Scope.pod.barriers) ∧ memberOf 0 .quad = 0 ∧ (b id).word.getLsbD 63 = true ∧ 0 ∈ (b id).mask ∧ ¬(0 ∈ (b fun b => { b with mask := [1] }).mask) ∧
    (b fun b => { b with word := 0 }).word.getLsbD 63 = false ∧ (mayRelease s = true ∧ (me s).bwait = none ∧ mayRelease back0 = false) ∧
    (¬(0 ∈ (b id).arrived ∨ 0 ∈ (b id).issued) ∧ ¬(∀ x ∈ (b id).mask, x = 0 ∨ x ∈ (b id).arrived)) ∧
    (∀ x ∈ (b fun b => { b with arrived := [1] }).mask, x = 0 ∨ x ∈ (b fun b => { b with arrived := [1] }).arrived) ∧
    0 ∈ (b fun b => { b with arrived := [0] }).arrived ∧ 0 ∈ (b fun b => { b with issued := [0] }).issued ∧
    (phaseOver (b id) 0 (waitPhase (b id) 0) = none ∧
      (let e := b fun b => { b with phase := 2, last := [(0, 1, some true)] }; phaseOver e 0 (waitPhase e 0) = some true) ∧
      (let e := b fun b => { b with phase := 2, last := [(0, 1, some false)] }; phaseOver e 0 (waitPhase e 0) = some false)) ∧
    (coreKind 0 (barOff .quad 2) = .barWord ∧ barOff .quad 2 % 256 = 0 ∧ dieDead s 0 = false ∧ sliceKey 0 (barOff .quad 2) = barKey 0 .quad 2) ∧
    (barTmo (b fun b => { b with word := 0x8000000000000000 }) = 0 ∧ (b id).arrived = [] ∧
      (barTmo (b id) ≠ 0 ∧ (let e := b fun b => { b with arrived := [0] }; e.arrived ≠ [] ∧ 1 ∈ e.mask ∧ ¬1 ∈ e.arrived ∧ timeoutCore (barKey 0 .quad 2) 1 = some 1)))) := by
  decide +kernel
/-- FencesAndBarriers: core 1 has arrived, and its context 2 stalls at a second BARR with a stall count of 3, when core 0 arrives last; nobody stalls. -/
theorem witness_stalled : (let key := barKey 0 .quad 2
    let s := setCtx (bar0 .quad fun b => { b with arrived := [1] }) 1 2 { Ctx.reset 1 2 with st := .running, block := .barr key 0 3 }
    let b := barAt s key
    let free := setMe s { me s with block := .none }
    stalledBarrs free key = [(1, 2, b.phase, 3)] ∧ (∀ z ∈ stalledBarrs free key, ¬(z.1 = 0 ∧ z.2.1 = 0)) ∧ b.pending = false ∧ memberOf 1 .quad ∈ b.mask ∧
    memberOf 1 .quad ∉ b.issued ∧ (∃ o ∈ b.mask, o ≠ memberOf 1 .quad) ∧ ¬(0 ∈ b.arrived ∨ 0 ∈ b.issued) ∧ (∀ x ∈ b.mask, x = 0 ∨ x ∈ b.arrived) ∧
    (me s).bwait = none ∧ stalledBarrs (bar0 .quad id) key = []) := by decide +kernel
theorem witness_pod_barriers : (let s := bar0 .pod id
    let b := barAt s (barKey 0 .pod 2)
    let q : CMsg := ⟨0, 0, 0, 0, 0, 0, 0, [], 0, none, zeroVec⟩
    memberOf 0 .pod = 0 ∧ b.word.getLsbD 63 = true ∧ 0 ∈ b.mask ∧ ¬(0 ∈ b.arrived ∨ 0 ∈ b.issued) ∧ shareFull s 0 (partNum s 0) = false ∧
    shareFull (setPkg s 0 { pkgAt s 0 with queue := List.replicate 31 q }) 0 (partNum s 0) = false ∧
    shareFull (setPkg s 0 { pkgAt s 0 with queue := List.replicate 32 q }) 0 (partNum s 0) = true) := by decide +kernel

/-- FencesAndBarriers: what a BWAIT at the PC of its context has been brought back with, for a phase that ended meanwhile and for one that runs, and at
another PC; the context that the end of the phase reaches. -/
theorem witness_restored_wait : (let v (p : Word) (e : Option Bool) : BWait := ⟨barKey 0 .quad 2, 1, 3, 0, p, e⟩
    let t (p : Word) (e : Option Bool) : Ctx := { me (bar0 .quad id) with bwait := some (v p e) }
    let ended (w : BWait) (b : Barrier) := if w.ended.isSome then w.ended else phaseOver b w.member w.phase
    let b := barAt (bar0 .quad id) (barKey 0 .quad 2)
    let wait (u : Ctx) := waitOf u b (barKey 0 .quad 2) 0 3
    wait (t 0x100 (some true)) = v 0x100 (some true) ∧ ended (wait (t 0x100 (some true))) b = some true ∧
    wait (t 0x100 none) = v 0x100 none ∧ ended (wait (t 0x100 none)) b = none ∧ wait (t 0x102 none) = ⟨barKey 0 .quad 2, waitPhase b 0, 3, 0, 0x100, none⟩ ∧
    (let e := { b with phase := 1, arrived := [0], last := [(0, 1, none)] }
     let u : Ctx := { t 0x100 none with st := .parked, cause := .bwait }
     e.pending = false ∧ (∃ l ∈ e.last, l.2 = (e.phase, none)) ∧ u.bwait = some (v 0x100 none) ∧ u.cause = .bwait ∧ u.st = .parked ∧ u.redo = false)) := by
  decide +kernel

/-- MailboxesAndCrier: codes 3 and 4; a mailbox that exists and the first that does not; with room, full and empty; entries that rank before and behind. -/
theorem witness_mailboxes : (let k := Core.reset
    let e : MbEntry := ⟨5, 0, 0x3F800000⟩
    let put : Access := { newAccess (on0 []) .mbput adr0 4 with val := 5, val2 := 0x3F80000000000000 }
    ((3 : Word).toNat ≤ 3 ∧ 3 < (4 : Word).toNat) ∧ (put.op = .mbput ∧ (63 : Nat) < 64 / 2 ^ k.mbcfg ∧ 64 / 2 ^ k.mbcfg ≤ 64) ∧
    ({ k with mboxes := [(63, [e])] } : Core).mboxes = [(63, [e])] ∧
    e = ⟨put.val.setWidth 64, put.val2.setWidth 32, (put.val2 >>> 32).setWidth 32⟩ ∧
    ((List.replicate 15 e).length < 16 * 2 ^ k.mbcfg ∧ (List.replicate 16 e).length ≤ 16 * 2 ^ k.mbcfg) ∧
    ((∀ y ∈ [e], mbBefore y e.prio = true) ∧ ∀ y ∈ [({ e with prio := 0 } : MbEntry)], mbBefore y e.prio = false) ∧ k.mboxes = [] ∧
    (let low : MbEntry := { e with prio := 0 }; ([e, low] = [e] ++ [low] ∧ ([low].head?.all fun y => !mbBefore y e.prio) = true))) := by decide +kernel

/-- MailboxesAndCrier: an address in the mirror, outside it, with a must-be-zero bit, and misaligned; room in the share and none; eleven slots in use. -/
theorem witness_crier : (let s := on0 [(4, 0xC40000000000FFF8), (5, 0xC000000000000008), (6, 0xC404000000000008), (7, 0xC400000000000004)]
    let q : CMsg := ⟨0, 0, 0, 0, 0, 0, 0, [], 0, none, zeroVec⟩
    let full := setPkg s 0 { pkgAt s 0 with queue := List.replicate 32 q }
    (bitsOf (xr s 4) 62 2 = 3 ∧ bitsOf (xr s 4) 58 4 ≠ 0 ∧ mbzOk (xr s 4) = true ∧ (xr s 4).toNat % 8 = 0 ∧ mayRelease s = true ∧
      shareFull s 0 (partNum s 0) = false) ∧
    (mayRelease full = true ∧ shareFull full 0 (partNum full 0) = true) ∧ (List.replicate 11 slot0).length < 12 ∧ bitsOf (xr s 5) 58 4 = 0 ∧
    (bitsOf (xr s 6) 62 2 = 3 ∧ bitsOf (xr s 6) 58 4 ≠ 0 ∧ mbzOk (xr s 6) = false) ∧
    (bitsOf (xr s 7) 62 2 = 3 ∧ bitsOf (xr s 7) 58 4 ≠ 0 ∧ mbzOk (xr s 7) = true ∧ (xr s 7).toNat % 8 ≠ 0)) := by decide +kernel

/-! ### Special registers, images and translations -/

/-- SpecialRegisters: vector stores on their way and none; both modes; numbers on the edges; values on the edges of every layout. -/
theorem witness_special : (let s := on0 [(4, 31), (5, 32), (6, 5), (7, 4), (8, 65535), (9, 65536), (10, 63), (11, 64), (12, 23), (13, 24), (14, 0x7FFFFFFFF000), (15, 33)]
    let v (r : Reg) := (xr s r).toNat
    (∀ u ∈ (me s).acks, u.vec = false) ∧ (me (sup0 id)).sup = true ∧ ((me s).sup = false ∧ (me s).ldr = false) ∧
    (0x019 ≤ (0x0FF : BitVec 12).toNat ∧ (0x0FF : BitVec 12).toNat < 0x100 ∧ 0x200 ≤ (0x200 : BitVec 12).toNat ∧
      (0x100 ≤ (0x1FF : BitVec 12).toNat ∧ (0x1FF : BitVec 12).toNat < 0x200) ∧ 0x107 ≤ (0x107 : BitVec 12).toNat) ∧
    (v 4 < 32 ∧ ¬v 4 % 8 ≤ 4 ∧ (v 7 < 32 ∧ v 7 % 8 ≤ 4) ∧ 32 ≤ v 5 ∧ 4 < v 6 % 8) ∧ (v 0 < 2 ∧ v 0 < 4 ∧ 4 ≤ v 7 ∧ 2 ≤ v 7) ∧ (v 8 < 65536 ∧ 65536 ≤ v 9) ∧
    (1 ≤ v 5 ∧ v 5 ≤ 32 ∧ v 0 = 0 ∧ 32 < v 15) ∧ (v 10 < 64 ∧ 64 ≤ v 11) ∧ (v 12 ≤ 23 ∧ 23 < v 13) ∧ (v 7 % 2 = 0 ∧ v 4 % 2 = 1) ∧
    (nbits (v 14) 1 11 = 0 ∧ nbits (v 14) 47 17 = 0)) := by decide +kernel

/-- The supervisor core of partition 0 in supervisor mode: context 3 of core 1 in x4, one beyond the package in x7, the image slot of that context in x5,
1 in x6, a Granary address in x8, XINV's operands in x9 and x10; `f` changes the context named. -/
def img0 (f : Ctx → Ctx) : State :=
  let s := at_ 8192 0 fun t => { regs [(4, 0x0000004000000003), (5, 0x0000004000000000 + 0x23000 + 3 * 4608), (6, 1), (7, 2), (8, 0x8000000000010000), (9, 0x100), (10, 0)] t with sup := true }
  let m := Memory.write (Memory.write s.mem (sliceKey 8256 0) 8 0x8000000000000000) (sliceKey 1 0x410300) 8 0x23000
  setCtx { s with mem := Memory.write m (sliceKey 1 (0x23000 + 3 * 4608)) 1 1 } 1 3 (f (Ctx.reset 1 3))

/-- ImagesMove: in user mode and in supervisor mode; FREE 0, 1 and 2; a context that is held, saved and neither; an image that fits and one that does not;
XINV with nothing to wait for, a reply to wait for, a contribution on its way and a held access; what it waited for is gone, or not. -/
theorem witness_images : (let held := img0 fun t => { t with st := .held, pc := 0x120 }
    let s := img0 fun t => { t with st := .saved }
    (me (on0 [])).sup = false ∧ (me s).sup = true ∧ 2 ≤ (xr s 7).toNat ∧ ((xr s 6).toNat < 2 ∧ xr s 6 = 1 ∧ xr s 10 ≠ 1) ∧
    (ctxTarget s (xr s 4) = .inr (1, 3) ∧ (1 : Nat) ≠ s.cur.core ∧ (ctxAt s 1 3).st = .saved) ∧
    (ctxTarget held (xr held 4) = .inr (1, 3) ∧ (ctxAt held 1 3).st = .held ∧ Memory.wf held.mem = true ∧ (ctxAt held 1 3).pend = [] ∧ (ctxAt held 1 3).var = []) ∧
    ((ctxAt (img0 id) 1 3).st ≠ .held ∧ (ctxAt (img0 id) 1 3).st ≠ .saved) ∧
    (imageTarget s 1 (xr s 5) = .inr (1, 3) ∧ imageFits s 1 (imageKey s 1 3) = true ∧ Memory.read s.mem (imageKey s 1 3 + 1) 1 = 0 ∧
      ∀ j, j < 12 → Memory.read s.mem (imageKey s 1 3 + 2880 + 144 * j) 1 = 0) ∧
    imageFits { s with mem := Memory.write s.mem (imageKey s 1 3) 1 4 } 1 (imageKey s 1 3) = false ∧
    (∀ k ∈ [3, 6], let t := { s with mem := Memory.write (Memory.write s.mem (imageKey s 1 3) 1 2) (imageKey s 1 3 + 1) 1 k }
      imageFits t 1 (imageKey t 1 3) = true ∧ causeOf k ≠ .reply ∧ causeOf k ≠ .fullEmpty)) := by decide +kernel
/-- ImagesMove: an image of context 4 goes into context 3 of its core, which is free, with a store of the context it was written from not yet acknowledged,
and with all of them; a held context with a reply slot reserved. -/
theorem witness_moves : (let s := img0 id
    let m := Memory.write s.mem (sliceKey 1 (0x23000 + 4 * 4608)) 1 1
    let s : State := setCore { setMe s (regs [(5, 0x0000004000000000 + 0x23000 + 4 * 4608)] (me s)) with mem := m } 1 { coreAt s 1 with past := [⟨4, zeroVec, [], [7]⟩] }
    let late : State := { s with held := [⟨{ newAccess s (.store .plain 8) adr0 4 with num := 7 }, zeroVec, .full, 1⟩] }
    let held := img0 fun t => { t with st := .held, resvAt := some 5 }
    ctxTarget s (xr s 4) = .inr (1, 3) ∧ imageTarget s 1 (xr s 5) = .inr (1, 4) ∧ (ctxAt s 1 3).st = .free ∧ imageFits s 1 (imageKey s 1 4) = true ∧
    imageMoves s (imageKey s 1 4) = true ∧ unacked late (pastOf late 1 4).nums = true ∧ unacked s (pastOf s 1 4).nums = false ∧
    (List.range 12).all (fun k => decide (Memory.read s.mem (imageKey s 1 4 + 2880 + 144 * k) 1 = 0)) = true ∧
    (ctxAt held 1 3).st = .held ∧ (ctxAt held 1 3).resvAt = some 5) := by decide +kernel
theorem witness_xinv : (let s := img0 id
    let red : RedPart := ⟨{ ld0 with part := 0 }, 0, 0, 0, 0, false, 0, 0, false⟩
    let waiter : Held := ⟨{ newAccess own0 (.load .wait 8) 0x8000000000010100 4 with home := 0, num := 9, ptes := [(0x10000, 0)] }, zeroVec, .full, 1⟩
    let used (u : State) := stillOpen u (translatedBy u 0 0 0x10000 false)
    isGranAdr (xr s 4) = false ∧
    (∀ r ∈ [(9 : Reg), 10], (me s).sup = true ∧ isGranAdr (xr s 8) = true ∧ nbits (xr s r).toNat 5 3 = 0 ∧ (xr s r).toNat < 512 ∧ (xr s r).toNat % 32 ≤ 23 ∧
      partEn s 0 ((xr s r).toNat % 32) = true ∧ s.cur.core = supCoreOf s 0 ((xr s r).toNat % 32) ∧ physPkg s 0 ((xr s r).toNat % 32) (bitsOf (xr s 8) 52 10) = some 0) ∧
    ((me s).rslots = [] ∧ (me s).acks = [] ∧ (me s).xinv = none ∧ used s = [] ∧
      used { s with flight := [pk 0 0 .req (.red red)] } = [7] ∧ used { s with held := [waiter] } = [9] ∧ pkgOf waiter.acc.home = 0 ∧
      stillOpen s [9] = [] ∧ stillOpen { s with held := [waiter] } [9] = [9]) ∧
    ({ me s with rslots := [slot0] } : Ctx).rslots ≠ []) := by decide +kernel

/-! ### Waiting at homes and reductions -/

/-- A load of the full granule at 0x1040 that waited for it, and one of an empty granule. -/
def hld0 (adr : Word) : Held := ⟨{ newAccess own0 (.load .wait 8) adr 4 with home := 0, num := 9, dest := xCode 3 }, zeroVec, .full, 1⟩
/-- Partition 0 with a page at offset 0x10000, in memory of frame 7 with tables in frames 1 to 3, and a held access that waits for its walk. -/
def pte0 : Nat := 0x8000000000000000 + 4096 * 7
def wlk0 : Held := ⟨{ newAccess own0 (.load .plain 8) 0x8000000000010100 4 with home := 0, num := 9, dest := xCode 3 }, zeroVec, .walk, 1⟩
def walk0 : State :=
  let m := Memory.write own0.mem (granKey 0 0x10000) 8 (0x8000000000000000 + 4096 * 2)
  let m := Memory.write m (granKey 0 0x20000) 8 (0x8000000000000000 + 4096 * 3)
  { own0 with mem := Memory.write m (granKey 0 0x30008) 8 pte0, roots := [(0, 1, 0)], held := [wlk0] }

def answers (s : State) (a : Access) (p : Place) : Bool :=
  match applyAt s a zeroVec p with | .answer t r => t.held == [] && r.acc == a && !unreachable t a.home (dieOf a.core) | _ => false

/-- HeldAndProbed: an access whose granule is full, one whose granule is empty, and one that waits for a walk that finds a leaf; a probe with nothing of
its source outstanding and one with; a marker for an access that waits for two sources. -/
theorem witness_held : (let h := hld0 (adr0 + 0x40)
    let s := { own0 with held := [h] }
    let e := hld0 (adr0 + 0x80)
    let w := walk0
    (s.held[0]? = some h ∧ heldStale s h = false ∧ h.why = .full ∧ ready s h = true ∧ mayApply { s with held := [] } h.acc = true ∧
      placeOf { s with held := [] } h.acc = .ok (.slice 0 0x1040) ∧ answers { s with held := [] } h.acc (.slice 0 0x1040) = true) ∧
    (({ own0 with held := [e] } : State).held[0]? = some e ∧ heldStale { own0 with held := [e] } e = false ∧ ready { own0 with held := [e] } e = false) ∧
    wlk0.why ≠ .full ∧
    (w.held = [wlk0] ∧ heldStale w wlk0 = false ∧ wlk0.why = .walk ∧ placeOf w wlk0.acc = .ok (.gran 0 0x10100) ∧
      walkPart w 0 0 0x10100 = .leaf pte0 (granKey 0 0x30008) ∧ needsWalk w 0 0 0x10100 = true ∧ 0 < pageBytes pte0 ∧
      placeOf (enterTlb { w with held := [] } 0 0 0x10100 pte0) wlk0.acc = .ok (.gran 0 0x10100) ∧
      answers (enterTlb { w with held := [] } 0 0 0x10100 pte0) wlk0.acc (.gran 0 0x10100) = true)) := by decide +kernel
theorem witness_probes : (let p : Packet := { pk 1024 0 .req (.probe 10 1) with here := true }
    let s := coming [p]
    let late := { s with keptReq := [pk 0 1024 .req (.access { st0 with num := 9 })] }
    let h : Held := { hld0 adr0 with why := .catchup [1, 2] }
    let m : Packet := { pk 1024 0 .req (.marker 9 1 5) with here := true }
    let t := { coming [pk 1024 0 .rply (.ack rep1), m] with held := [h] }
    (takeAt s 0 = .yes p ∧ p.here = true ∧ markerWaits s (dieOf p.dst) 1 10 = false) ∧ (takeAt late 0 = .yes p ∧ markerWaits late (dieOf p.dst) 1 10 = true) ∧
    (t.held[0]? = some h ∧ h.why = .catchup [1, 2] ∧ heldStale t h = false ∧ 1 ∈ [1, 2] ∧ (∃ y ∈ [1, 2], y ≠ 1) ∧ t.flight[1]? = some m ∧ m.here = true ∧
      m.body = .marker h.acc.num 1 5 ∧ dieOf m.dst = dieOf h.acc.home) ∧
    (let u := { setPkg t 0 { pkgAt t 0 with unreach := [(0, 1)] } with flight := [] }; unreachable u h.acc.home 1 = true ∧ unreachable t h.acc.home 1 = false)) ∧
    ∀ (j : Nat) (z : Packet), j < 1 → ([pk 1024 0 .rply (.ack rep1), { pk 1024 0 .req (.marker 9 1 5) with here := true }] : List Packet)[j]? = some z → ∀ a b c, z.body ≠ .marker a b c := by
  refine ⟨by decide +kernel, fun j z hj hz a b c => ?_⟩
  obtain rfl : j = 0 := by omega
  obtain rfl : pk 1024 0 .rply (.ack rep1) = z := by simpa using hz
  simp [pk]

/-- A reduction slot of three contributions a granule, of which granule 1 has two and granule 2 has ended, with its attribute record in another page. -/
def red0 (i : Nat) : RedPart := ⟨{ ld0 with part := 0 }, 0x10000, 0x90000, i, 5, false, 1, 0, false⟩
def rslot0 : RedSlot := ⟨0x10000, 0x90000, 0, false, 3, 100, 1, [⟨1, 2, false, []⟩, ⟨2, 3, true, []⟩], 4095⟩
/-- ReductionsRound: a contribution of no slot, for a granule that has ended, an open one, and one that it completes; a deadline and none. -/
theorem witness_reductions : (let s (i : Nat) := setDie (coming [pk 1 0 .req (.red (red0 i))]) 0 { dieAt own0 0 with slots := [rslot0] }
    let found (i : Nat) := (dieAt (s i) 0).slots.find? fun y => y.page == (red0 i).page && y.round == (red0 i).round
    (∀ i ∈ [0, 1, 2], takeAt (s i) 0 = .yes (pk 1 0 .req (.red (red0 i))) ∧ stale (s i) (pk 1 0 .req (.red (red0 i))) = false ∧ (red0 i).last = false ∧
      Memory.wf (s i).mem = true ∧ found i = some rslot0) ∧
    (dieAt own0 0).slots.find? (fun y => y.page == 0x10000 && y.round == 1) = none ∧
    ((granAt rslot0 0).ended = false ∧ (granAt rslot0 0).count + 1 < rslot0.rcnt ∧ rslot0.opens ≠ 0) ∧
    ((granAt rslot0 1).ended = false ∧ rslot0.rcnt ≤ (granAt rslot0 1).count + 1 ∧ 2 ≤ rslot0.opens ∧ (red0 1).page % 16 = 0) ∧
    (granAt rslot0 2).ended = true ∧ ((dieAt (s 0) 0).slots[0]? = some rslot0 ∧ ({ rslot0 with rdl := 0 } : RedSlot).rdl = 0 ∧ rslot0.rdl ≠ 0 ∧
      rslot0.page % 65536 = 0 ∧ rslot0.page + 65536 ≤ rslot0.attr)) := by decide +kernel

/-! ### Cores -/

/-- Core 0 with all contexts free, class 0 of 256 bytes of window and class 63 enabled. -/
def idle0 (f : Core → Core) : State :=
  let s := at_ 0 0 fun t => { t with st := .free }
  let m := Memory.write (Memory.write s.mem (classKey 0 0) 8 (2 ^ 42 + 0x80)) (classKey 0 63) 8 (2 ^ 42 + 0x90)
  let s := { s with mem := Memory.write m (sliceKey 8256 0) 8 0x8000000000000000 }
  setCore s 0 (f (coreAt s 0))
/-- CoresDispatch: no work; a request, a reply, a message without a reservation; an upcall; a task; no free context; a core that may not dispatch. -/
theorem witness_dispatches : (let msg (k : MsgKind) := idle0 fun c => { c with inbox := [⟨msg0 k, 1, 0⟩] }
    let up := idle0 fun c => { c with upcalls := [⟨0x13, 0, 1, 0x100, 0, 0, none⟩] }
    let task := idle0 fun c => { c with deque := [⟨[0], 0, zeroVec, 0⟩] }
    let full := (List.range 16).foldl (fun s c => setCtx s 0 c { ctxAt s 0 c with st := .running }) (idle0 id)
    nextWork (idle0 id) 0 = none ∧
    (∀ k ∈ [MsgKind.request 5, .reply 5, .refusal 5, .unreserved, .host 0], nextWork (msg k) 0 = some (.msg 0) ∧ freeCtx (msg k) 0 = some 0 ∧
      (coreAt (msg k) 0).inbox[0]? = some ⟨msg0 k, 1, 0⟩ ∧ classEn (msg k) 0 0 = true ∧ othersUsed (msg k) 0 < 15) ∧
    (nextWork up 0 = some (.upc 0) ∧ freeCtx up 0 = some 0 ∧ (coreAt up 0).upcalls = [⟨0x13, 0, 1, 0x100, 0, 0, none⟩] ∧ (coreAt up 0).noticeHeld = []) ∧
    (nextWork task 0 = some .task ∧ freeCtx task 0 = some 0 ∧ (coreAt task 0).deque = [⟨[0], 0, zeroVec, 0⟩]) ∧
    freeCtx full 0 = none ∧ mayDispatch State.reset 0 = false ∧
    (let w : Msg := msg0 .unreserved
     let s := idle0 fun c => { c with inbox := List.replicate 16 ⟨w, 0, 0⟩, rplyWait := [w] }
     nextWork s 0 = some (.msg 0) ∧ freeCtx s 0 = some 0 ∧ (coreAt s 0).inbox[0]? = some ⟨w, 0, 0⟩ ∧ w.kind = .unreserved ∧ (coreAt s 0).rplyWait = [w] ∧ w.dst = 0 ∧
       unreservedUsed { coreAt s 0 with inbox := (coreAt s 0).inbox.eraseIdx 0 } < 16) ∧
    (let s := idle0 id; mayDispatch s 0 = true ∧ dieDead s 0 = false ∧ freeCtx s 0 ≠ none) ∧
    (classEn task 0 ((([0] : List Word).headD 0).toNat % 64) = true ∧ othersUsed task 0 < 15 ∧ classEn up 0 63 = true)) := by decide +kernel
theorem witness_no_send : ∀ y, (ctxAt (idle0 fun c => { c with inbox := [⟨msg0 (.reply 5), 1, 0⟩] }) 0 y).cause ≠ .send := by
  intro y
  simp only [ctxAt, coreAt, idle0, at_, setCtx, setCore, upd, look, Core.reset, State.reset, ↓reduceIte]
  split <;> simp [Ctx.reset]

/-- CoreEvents: a context that has waited 4,095 and 4,096 cycles; a send queue with one message, with two and with none; a result to come. -/
theorem witness_core_events : (let s := on0 []
    let t := { me s with waited := 4096 }
    let q := setCore s 0 { coreAt s 0 with sendq := [msg0 .unreserved, msg0 .unreserved] }
    let send := { me s with st := .parked, cause := .send }
    ((4095 : Nat) < 4096 ∧ t.st = .running ∧ 4096 ≤ t.waited) ∧ (coreAt s 0).sendq = [] ∧
    ((coreAt q 0).sendq = msg0 .unreserved :: [msg0 .unreserved] ∧ dieDead q 0 = false ∧ dieOf (msg0 .unreserved).dst = 0 ∧ [msg0 .unreserved] ≠ [] ∧
      (coreAt q 0).sqfaults = 0) ∧ (send.st = .parked ∧ send.cause = .send) ∧
    (({ t with var := [⟨xCode 3, .value ((7 : Word).setWidth 1024), allBits, false⟩] } : Ctx).var = [⟨xCode 3, .value ((7 : Word).setWidth 1024), allBits, false⟩] ∧
      t.st ≠ .free ∧ t.st ≠ .saved)) := by decide +kernel

/-- DequesLevel: 63 and 64 idle cycles; a victim with two records and one with one; records that fit and that do not; a shipment and none. -/
theorem witness_deques : (let tk : Task := ⟨[0], 0, zeroVec, 0⟩
    let s := idle0 fun c => { c with idle := 64 }
    let ask := setCore { s with flight := [pk 1 0 .steal (.steal .request)] } 0 { coreAt s 0 with deque := [tk, tk] }
    let got := { s with flight := [pk 1 0 .steal (.steal (.records [tk]))] }
    let deep256 := setCore got 0 { coreAt s 0 with deque := List.replicate 256 tk }
    let deep := setCore { s with mem := Memory.write s.mem (sliceKey 0 0x410200) 2 9 } 0 { coreAt s 0 with deque := List.replicate 10 tk }
    let ship := { deep with flight := [pk 0 1 .steal (.steal (.shipment 2))] }
    ((63 : Nat) < 64 ∧ 64 ≤ (coreAt s 0).idle ∧ stealIdle s 0 = true ∧ dieDead s 0 = false ∧ (coreAt s 0).stealDir < 4 ∧
      (∃ d ∈ List.range 4, (neighbour 0 d).isSome = true)) ∧
    (takeAt ask 0 = .yes (pk 1 0 .steal (.steal .request)) ∧ stale ask (pk 1 0 .steal (.steal .request)) = false ∧ 2 ≤ (coreAt ask 0).deque.length) ∧
    (takeAt got 0 = .yes (pk 1 0 .steal (.steal (.records [tk]))) ∧ stale got (pk 1 0 .steal (.steal (.records [tk]))) = false ∧
      (coreAt got 0).deque.length + [tk].length ≤ 256 ∧ 256 < (coreAt deep256 0).deque.length + [tk].length) ∧
    (leastLoaded deep (neighbours 0) = some 1 ∧ balint deep 0 ≠ 0 ∧ dieDead deep 0 = false ∧
      Nat.min ((coreAt deep 0).deque.length - 8) (((coreAt deep 0).deque.length - (coreAt deep 1).deque.length) / 2) ≠ 0) ∧
    Nat.min ((coreAt s 0).deque.length - 8) 0 = 0 ∧
    (takeAt ship 0 = .yes (pk 0 1 .steal (.steal (.shipment 2))) ∧ stale ship (pk 0 1 .steal (.steal (.shipment 2))) = false)) := by decide +kernel

/-! ### Fabric, Crier, control words and the service die -/

/-- The word of a control-space offset of package 0's fabric core or service die set to `v`. -/
def fab (off v : Nat) (s : State) : State := { s with mem := Memory.write s.mem (sliceKey 8224 off) 8 v }
def svc (off v : Nat) (s : State) : State := { s with mem := Memory.write s.mem (sliceKey 8256 off) 8 v }
/-- A Crier message of position 1 of pod 0, of partition 0. -/
def cry0 (kind : Nat) (body : List Nat) : CMsg := ⟨0, kind, 1, 0, 0, 8, 5, body, 16384, none, zeroVec⟩
/-- Package 0 with a message to apply, and `f` of the package. -/
def hears (m : CMsg) (f : Pkg → Pkg) : State :=
  let s := setPkg (on0 []) 0 (f (pkgAt (on0 []) 0))
  { s with pods := [(0, { Pod.reset with seq := 1, sent := [m] })] }

/-- FabricFares: links that have failed and that have not, of both kinds; a lane that is live, retraining for the first and the third time; a packet
between dies and one of a die; a draining generation and none. -/
theorem witness_fabric : (let s := on0 []
    let p := { pk 0 1024 .req (.ack rep1) with gen := 7, seq := 1 }
    let t := { setPkg (coming [p]) 0 { pkgAt s 0 with gen := 8, gens := [⟨7, [], false⟩] } with keptReq := [p] }
    (26 ∉ (pkgAt s 0).failed ∧ (26 : Nat) < 27 ∧ (pkgAt s 0).dead = false ∧ 26 ∈ ({ pkgAt s 0 with failed := [26] } : Pkg).failed ∧
      (32 ≤ 63 ∧ 63 < 64 ∧ 63 % 8 ≠ 0 % 8)) ∧
    ((255 : Nat) < 256 ∧ 255 % 8 ≠ 0 ∧ Memory.wf s.mem = true ∧ laneState s 0 255 ≠ 1 ∧ laneState (fab (laneOff 255) 1 s) 0 255 = 1 ∧
      nbits (fabWord (fab (laneOff 255) (1 + 2 ^ 40) s) 0 (laneOff 255)) 40 8 < 2 ∧ 2 = nbits (fabWord (fab (laneOff 255) (1 + 2 * 2 ^ 40) s) 0 (laneOff 255)) 40 8 ∧
      ∃ l ∈ laneMates 255, l ≠ 255 ∧ laneState s 0 l ≠ 2) ∧
    (t.flight[0]? = some p ∧ dieOf p.src ≠ dieOf p.dst ∧ (∃ e ∈ (pkgAt t (pkgOf p.src)).gens, e.gen = p.gen) ∧ t.keptReq[0]? = some p) ∧
    ((coming [pk 1 0 .req (.ack rep1)]).flight[0]? = some (pk 1 0 .req (.ack rep1)) ∧ dieOf (pk 1 0 .req (.ack rep1)).src = dieOf (pk 1 0 .req (.ack rep1)).dst ∧
      ¬∃ e ∈ (pkgAt (coming [p]) 0).gens, e.gen = p.gen) ∧ p.near = false ∧ (pk 1 0 .req (.ack rep1)).near = true ∧
    (let cut := setPkg (coming [p]) 0 { pkgAt s 0 with failed := List.range 80 }; cut.flight[0]? = some p ∧ p.hasWay cut = false)) := by decide +kernel
theorem witness_lanes : (let s := on0 []
    let busy := fab (laneOff 247) 1 (fab (laneOff 239) 1 s)
    let one := fab (laneOff 255) 1 (setPkg s 0 { pkgAt s 0 with laneWait := [247] })
    let max (u : State) := nbits (fabWord u 0 0x410100) 0 32
    (laneState s 0 255 = 0 ∧ max s ≠ 0 ∧ max s < 100001 ∧ ((laneMates 255).filter fun l => laneState s 0 l == 1).length < 2) ∧
    (laneState busy 0 255 = 0 ∧ max busy ≠ 0 ∧ 2 ≤ ((laneMates 255).filter fun l => laneState busy 0 l == 1).length) ∧
    (laneState one 0 255 = 1 ∧ (pkgAt one 0).laneWait = [247] ∧ 247 ∈ laneMates 255 ∧ laneState one 0 247 = 0) ∧ (pkgAt s 0).laneWait = [] ∧
    (64 ≤ 79 ∧ 79 ∉ (pkgAt s 0).failed)) := by decide +kernel

/-- CommitsAreChecked: an INTENT to apply; a commit that is due with tables that are well-formed and with one entry that is not, and one that is not due. -/
def due0 : State := fab 0x410008 1 (setPkg { on0 [] with pods := [(0, { Pod.reset with members := [0] })] } 0 { pkgAt (on0 []) 0 with intents := [(0, 0)] })
def due1 : State := fab 0 (2 ^ 62) due0
theorem witness_commits : nextCrier (hears (cry0 8 []) id) 0 = some (cry0 8 []) ∧
    (∀ s ∈ [due0, due1], heard s 0 = true ∧ fabStatus s 0 = 1 ∧ hasIntent s 0 = true ∧ (pkgAt s 0).commitBy = none ∧ openBefore s 0 = [] ∧
      Memory.wf s.mem = true) ∧ ¬fabStatus (on0 []) 0 = 1 := by decide +kernel
/-- CommitsAreChecked, CrierToken: an earlier commit that its package has still to apply, and one that it has installed; a holder that has sent four messages. -/
theorem witness_order : (let s (a : Nat) := setPkg (setPkg due0 0 { pkgAt due0 0 with intents := [(1, 3), (0, 4)] }) 1 { pkgAt due0 1 with applied := a }
    (heard due0 1 = true → openBefore (s 3) 0 = [(1, 3)]) ∧ openBefore (s 4) 0 = [] ∧ 4 - ({ Pod.reset with visit := 4 } : Pod).visit = 0 ∧
    4 - ({ Pod.reset with visit := 1 } : Pod).visit = 3) := by decide +kernel
theorem witness_tables : malformed due0 0 = false ∧ cyclic due0 0 = false ∧ noTree due0 0 = false ∧ malformed due1 0 = true :=
  ⟨by decide +kernel, by decide +kernel, by decide +kernel, by decide +kernel⟩
theorem witness_reasons : refuseReason due0 0 = 0 ∧ refuseReason due1 0 ≠ 0 := by
  obtain ⟨h1, h2, h3, h4⟩ := witness_tables
  simp only [refuseReason, h1, h2, h3, h4, Bool.false_eq_true, ↓reduceIte, ne_eq, Nat.one_ne_zero, not_false_eq_true, and_self]

/-- CrierToken: a holder that is heard, with messages of which none, and of which the first, is a GEN message, that need wait and must; one that is not
heard, and the next live position; a message with a check error. -/
theorem witness_token : (let s := on0 []
    let q := [cry0 0 [], cry0 1 []]
    let held := setPkg s 0 { pkgAt s 0 with queue := q }
    let gen := setPkg s 0 { pkgAt s 0 with queue := cry0 5 [0, 1] :: q }
    let wait := setPkg gen 0 { pkgAt gen 0 with gens := [⟨0, [], false⟩, ⟨1, [], false⟩, ⟨2, [], false⟩] }
    let silent := setDie s 8 { Die.reset with dead := true }
    (heard held 0 = true ∧ (pkgAt held 0).queue = q ∧ ∀ y ∈ q, y.kind ≠ 5) ∧
    (heard gen 0 = true ∧ (pkgAt gen 0).queue = cry0 5 [0, 1] :: q ∧ genWaits gen 0 = false ∧ genWaits wait 0 = true ∧ (pkgAt wait 0).queue = cry0 5 [0, 1] :: q) ∧
    (heard silent 0 = false ∧ (((List.range 8).map fun y => ((podAt silent 0).holder + 1 + y) % 8).find? fun y => heard silent (8 * 0 + y)) = some 1) ∧
    ((pkgAt (hears (cry0 0 []) id) 0).missing = none ∧ nextCrier (hears (cry0 0 []) id) 0 = some (cry0 0 []))) := by decide +kernel

/-- CrierApplies: a message of the current incarnation and a stale one, with and without an instruction of this package that waits; an arrival that does
not count, one that does, and the last; kind 9 with the black box running. -/
theorem witness_crier_applies : (let s (k : Nat) := hears (cry0 k [1, 15000, 0, 0]) id
    let b (f : Barrier → Barrier) := setBar (s 3) (barKey 0 .pod 8) (f { Barrier.reset with word := 0x8000000000000000, mask := [0, 1] })
    let bar (f : Barrier → Barrier) := barAt (b f) (barKey 0 .pod 8)
    (∀ k ∈ [0, 1, 2, 3, 4, 9], nextCrier (s k) 0 = some (cry0 k [1, 15000, 0, 0]) ∧ Memory.wf (s k).mem = true ∧ curInc (s k) 0 (cry0 k [1, 15000, 0, 0]) = true) ∧
    curInc (s 0) 0 { cry0 0 [] with inc := 1 } = false ∧ (pkgOf ld0.core = 0 ∧ (cry0 1 []).acc = none) ∧
    (curInc (b id) 0 (cry0 3 []) = true ∧ barEn (bar id) = true ∧ 1 ∈ (bar id).mask ∧ 1 ∉ (bar id).arrived ∧ (∃ x ∈ (bar id).mask, x ≠ 1 ∧ x ∉ (bar id).arrived)) ∧
    ((∀ x ∈ (bar fun c => { c with arrived := [0] }).mask, x = 1 ∨ x ∈ (bar fun c => { c with arrived := [0] }).arrived) ∧ (bar id).pending = false ∧
      barEn (bar fun c => { c with word := 0 }) = false) ∧
    svcWord (s 9) 0 0x30008 8 % 2 = 0) := by decide +kernel
theorem witness_no_asker : ∀ a : Access, ¬((cry0 1 []).acc = some a ∧ pkgOf a.core = 0) := fun a h => by simp [cry0] at h

/-- GenerationsGo: a GEN message of another package and one of the own commit; a generation that has drained, one that is told, and none; a DRAINED that
is the last awaited and one that is not; a MEMBER message that removes and one that admits. -/
theorem witness_generations : (let g (d : List Nat) : Pkg → Pkg := fun p => { p with gens := [⟨0, d, false⟩], gen := 1 }
    let gen := hears (cry0 5 [0, 1]) id
    let own := hears { cry0 5 [1, 1] with pos := 0 } id
    let open0 := setPkg (on0 []) 0 (g [] Pkg.reset)
    let kept := { open0 with keptReq := [pk 0 1024 .req (.ack rep1)] }
    let last := hears { cry0 6 [] with val := 0 } (g [0, 2, 3, 4, 5, 6, 7])
    let more := hears { cry0 6 [] with val := 0 } (g [])
    let out (d : List Nat) := hears (cry0 7 [7, 0]) (g d)
    let enter1 := { hears (cry0 7 [7, 1]) id with pods := [(0, { Pod.reset with seq := 1, sent := [cry0 7 [7, 1]], members := [0, 1, 2, 3, 4, 5, 6] })] }
    (nextCrier gen 0 = some (cry0 5 [0, 1]) ∧ Memory.wf gen.mem = true ∧ ¬((cry0 5 [0, 1]).pos = 0 % 8 ∧ (cry0 5 [0, 1]).body.headD 0 = 1) ∧
      nextCrier own 0 = some { cry0 5 [1, 1] with pos := 0 }) ∧
    ((pkgAt (on0 []) 0).gens = [] ∧ (pkgAt open0 0).gens.find? (fun x => !x.sent && drainedNow open0 0 x.gen) = some ⟨0, [], false⟩ ∧ heard open0 0 = true ∧
      drainedNow kept 0 0 = false) ∧
    (nextCrier last 0 = some { cry0 6 [] with val := 0 } ∧ (⟨0, [0, 2, 3, 4, 5, 6, 7], false⟩ : GenSt) ∈ (pkgAt last 0).gens ∧
      ∀ x ∈ membersSeen last 0, x = 1 ∨ x ∈ [0, 2, 3, 4, 5, 6, 7]) ∧
    (nextCrier more 0 = some { cry0 6 [] with val := 0 } ∧ ∀ x ∈ (pkgAt more 0).gens, ∃ y ∈ membersSeen more 0, y ≠ 1 ∧ y ∉ x.drained) ∧
    (let s := out [0, 1, 2, 3, 4, 5, 6]
      let s := { s with pods := [(0, { Pod.reset with seq := 1, sent := [cry0 7 [7, 0]], members := [0, 1, 2, 3, 4, 5, 6] })] }
      nextCrier s 0 = some (cry0 7 [7, 0]) ∧ (⟨0, [0, 1, 2, 3, 4, 5, 6], false⟩ : GenSt) ∈ (pkgAt s 0).gens ∧
      ∀ x ∈ membersSeen (setPkg s 0 { pkgAt s 0 with applied := (pkgAt s 0).applied + 1 }) 0, x ∈ [0, 1, 2, 3, 4, 5, 6]) ∧
    (nextCrier enter1 0 = some (cry0 7 [7, 1]) ∧ 7 ∉ members enter1 (0 / 8) ∧ (pkgAt enter1 0).gens = []) ∧
    (heard enter1 0 = true ∧ dieDead enter1 (16 * 7 + 8) = false)) := by decide +kernel

/-- ControlStoresAct: values that keep each layout's rule and break it, at their edges; stop words in every state. -/
theorem witness_control_stores : (let s := on0 []
    (isWorker 0 = true ∧ 8256 % 16384 = 8256 ∧ 8224 % 16384 = 8224 ∧ Memory.wf s.mem = true ∧ (23 : Nat) < 24) ∧
    (nbits (2 ^ 47) 15 16 = 0 ∧ nbits (2 ^ 47) 44 4 ≤ 8 ∧ ¬nbits (9 * 2 ^ 44) 44 4 ≤ 8 ∧ nbits (2 ^ 15) 15 16 ≠ 0) ∧
    (65535 < 65536 ∧ ¬65536 < 65536 ∧ (0x2DC000 % 4096 = 0 ∧ 0x2DC000 + 146944 ≤ 0x300000 ∧ ¬0x2DD000 + 146944 ≤ 0x300000)) ∧
    (nbits (2 ^ 63) 46 17 = 0 ∧ nbits (2 ^ 63) 38 2 = 0 ∧ nbits (2 ^ 63) 5 11 = 0 ∧ nbits (2 ^ 62) 46 17 ≠ 0 ∧ nbits (2 ^ 38) 38 2 ≠ 0 ∧ nbits (2 ^ 5) 5 11 ≠ 0) ∧
    (∀ k ∈ [0, 1, 2, 3], stopState (svc 0x48 k s) 0 1 = k) ∧ (fabStatus s 0 ≠ 1 ∧ fabStatus (fab 0x410008 1 s) 0 = 1)) := by decide +kernel

/-- A partition of one quad whose stop word is `k`, its cores with a REPLAY or with none. -/
def stops0 (k : Nat) (replay : Bool) : State := svc 0x8 k { State.reset with
  mem := Memory.write [] (sliceKey 8256 0x40000) 1 0x80
  cores := [0, 1, 32, 33].map fun n => (n, { Core.reset with saved := true, dispq := if replay then [{ disp0 with kind := .replay }] else [] }) }
theorem parts_eq {s t : State} (h : s.mem = t.mem) : partCores s 0 0 = partCores t 0 0 := by
  show partCores { State.reset with mem := s.mem } 0 0 = partCores { State.reset with mem := t.mem } 0 0
  rw [h]
theorem parts_stopping : partCores (stops0 1 false) 0 0 = [0, 1, 32, 33] := by decide +kernel
/-- StopsAndResets: a partition that runs, one that stops with a REPLAY left and with none, and one that resets; a core of it. -/
theorem witness_stops : Memory.wf (stops0 1 true).mem = true ∧ stopState (stops0 0 false) 0 0 = 0 ∧ stopState (stops0 3 false) 0 0 = 3 ∧
    stopState (stops0 1 false) 0 0 = 1 ∧ (∃ n ∈ partCores (stops0 1 true) 0 0, replaysLeft (stops0 1 true) n = true) ∧
    (∀ n ∈ partCores (stops0 1 false) 0 0, replaysLeft (stops0 1 false) n = false ∧ (coreAt (stops0 1 false) n).saved = true) ∧
    0 ∈ partCores (stops0 1 false) 0 0 ∧ partEn (stops0 1 false) 0 0 = false ∧ partEn (svc 0 (2 ^ 63) (stops0 1 false)) 0 0 = true := by
  rw [parts_eq (show (stops0 1 true).mem = (stops0 1 false).mem from rfl), parts_stopping]
  decide +kernel

/-- MarketGrants: asks that the limit meets and that exceed it; a live member. -/
theorem witness_grants : ([15000, 0].length ≤ 8 ∧ (∀ a ∈ [15000, 0], a ≤ 15000) ∧ [15000, 0].sum ≤ 15000 ∧ 14999 < [15000, 0].sum) ∧ 0 ∈ liveMembers (on0 []) 0 ∧
    (let s := on0 []
     let other := setPkg s 1 { pkgAt s 1 with market := [(0, 0, 1, 1, 1)] }
     marketAgrees s 0 = true ∧ marketAgrees other 0 = false ∧ 1 ∈ liveMembers other 0 ∧ marketNow other 0 ≠ marketNow other 1) ∧
    Memory.wf (on0 []).mem = true := by decide +kernel

/-- ServiceWorks: jobs at work; a live service die; ports that are open and closed, writes that are whole and that are not; a held write. -/
theorem witness_service : (let s := on0 []
    let port := svc 0xD000 (2 ^ 63) s
    (Memory.wf s.mem = true ∧ 0 ∈ jobsOf s 0 ∧ 1 ∉ jobsOf s 0 ∧ ∀ j ∈ jobsOf s 0, j < 65536) ∧
    (dieDead s (16 * 0 + 8) = false ∧ (31 : Nat) < 32 ∧ isSupCore 8192 = true ∧ coreExists 8192 = true ∧ dieDead s (dieOf 8192) = false) ∧
    (nbits (hostWord port 0 0) 63 1 = 1 ∧ nbits (hostWord s 0 0) 63 1 = 0 ∧ 0x7F00 < 32768 ∧ 0x7F00 % 256 = 0 ∧ (List.replicate 256 (0 : Byte)).length = 256 ∧
      (List.replicate 255 (0 : Byte)).length ≠ 256 ∧ 0x7F01 % 256 ≠ 0) ∧
    (hostComing s 0 = false ∧ hostComing (coming [pk 8256 8192 .rply (.msg { msg0 (.host 0) with src := 8256, dst := 8192 })]) 0 = true ∧
      ({ pkgAt s 0 with hostHeld := [msg0 (.host 0)] } : Pkg).hostHeld = [msg0 (.host 0)]) ∧
    ((pkgAt s 0).booted = false ∧ (pkgAt s 0).bootHeld = none ∧ ({ pkgAt s 0 with bootHeld := some 4 } : Pkg).bootHeld = some 4) ∧
    (32768 ≤ 0xFFFF ∧ 0xFFFF + 1 ≤ 65536)) := by decide +kernel

/-- ErrorsAndLosses: an access that reads, a dispatch engine with a command, an open granule, a black box that runs, a worker die and the ninth. -/
theorem witness_errors : (let p := pk 1 0 .req (.access { ld0 with core := 1, home := 0 })
    let s := coming [p]
    (takeAt s 0 = .yes p ∧ p.near = true ∧ ld0.op.reads = true ∧ stale s p = false ∧ mayApply (removeAt s 0) { ld0 with core := 1, home := 0 } = true ∧
      unreachable s 0 0 = false ∧ ld0.slotted = true) ∧
    ((coreAt (disps di0) 0).dispq = di0 :: [] ∧ di0.bad = none) ∧
    (let x := { rslot0 with page := granKey 0 0x10000, attr := granKey 0 0x90000 }
     (dieAt (setDie s 0 { dieAt s 0 with slots := [x] }) 0).slots[0]? = some x ∧ 4611686018427387904 ≤ x.page ∧ (granAt x 1).ended = false ∧
       Memory.wf s.mem = true ∧ x.page % 65536 = 0 ∧ x.page + 65536 ≤ x.attr) ∧
    ((pkgAt s 0).dead = false ∧ svcWord s 0 0x30008 8 % 2 = 0) ∧ ((8 : Nat) < 9 ∧ 9 ≤ 9)) := by decide +kernel

/-! ### The machine as a whole -/

/-- Core 0 next, with a word at its context's PC. -/
def fetch0 (nbits w : Nat) : State := (at_ 0 0 id).withFetchWord nbits w
/-- The supervisor core next, with ADD SHORT x3, x4 where its context's PC leads. -/
def fetchS : State :=
  let s := sup0 id
  match supView s 8192 true 0x100 60 with
  | .ok v => { s with sched := [.issue 8192 false], mem := Memory.write s.mem v.key 2 0x0C64 }
  | .bad .. => s

/-- StepRunsDecoded: what a step of core `n` sees of a state, as the statement names it. -/
def sees (s : State) (n : Nat) (late : Bool) (r : List Pick) : Option (State × Nat) :=
  let s0 := { s with free := s.free + 1, sched := r }
  let s1 := (List.range 16).foldl (fun u c => parkDue (wakeRedo u n c) n c) (dispatchAll (beginCycle s0 n) n)
  if coreExists n && !dieDead s (dieOf n) then
    (choose s1 n (eligible s1 n)).map fun e => ({ noteIssue s1 n (eligible s1 n) e.1 e.2 with cur := ⟨n, e.1, late⟩ }, e.1)
  else none

/-- StepRunsDecoded: a 16-bit and a 32-bit instruction of a worker core, one of a supervisor core, one that its mode stops, and an event. -/
theorem witness_step_short : (match sees (fetch0 16 0x0C64) 0 false [] with
    | some (s2, c) => (ctxAt s2 0 c).pc == 0x100 && decode (BitVec.ofNat 16 (Memory.read s2.mem (sliceKey 0 0x400100) 2)) 0 == .ok (.addShort 3 4) &&
        earlyRead (ctxAt s2 0 c) (.addShort 3 4) == none && (BitVec.ofNat 16 (Memory.read s2.mem (sliceKey 0 0x400100) 2)).getLsbD 15 == false
    | none => false) = true ∧ (fetch0 16 0x0C64).sched = .issue 0 false :: [] := by decide +kernel
theorem witness_step_long : (match sees (fetch0 32 0x800C8500) 0 false [] with
    | some (s2, c) => decode (BitVec.ofNat 16 (Memory.read s2.mem (sliceKey 0 0x400100) 2)) (BitVec.ofNat 16 (Memory.read s2.mem (sliceKey 0 0x400102) 2)) ==
        .ok (.add 0 3 4 5) && earlyRead (ctxAt s2 0 c) (.add 0 3 4 5) == none
    | none => false) = true := by decide +kernel
theorem witness_step_supervisor : (match sees fetchS 8192 false [] with
    | some (s2, c) => (match fetchSup s2 8192 (ctxAt s2 8192 c).sup (ctxAt s2 8192 c).pc with | .ok d n => d == .ok (.addShort 3 4) && n == 2 | .bad .. => false) &&
        earlyRead (ctxAt s2 8192 c) (.addShort 3 4) == none
    | none => false) = true ∧ fetchS.sched = .issue 8192 false :: [] := by decide +kernel
theorem witness_step_priv : privStops false (.ctxsv 0 4 5) = true ∧ privStops true (.ctxsv 0 4 5) = false := by decide
theorem witness_step_event : isEvent (.dispatch 0) = true ∧ isEvent (.illegalInstruction .priv) = false := by decide +kernel
/-- A state with nothing scheduled moves of itself: the core that has something to run. -/
theorem witness_step_alone : (match autoMove { on0 [] with free := 1 } with | .core n => n == 0 | _ => false) = true := by decide +kernel

/-- A step from reset runs the word that is placed where it fetches: ADDI x3, x0, 5, which leaves the PC 4 bytes on. -/
theorem test_first_step : (match step (State.reset.withFetchWord 32 0x820C0005) with
    | .next t => (ctxAt t 0 0).xAt 1000 3 == 5 && (ctxAt t 0 0).pc == 4
    | _ => false) = true ∧ decodeTableWord 32 0x820C0005 = some (.addi 0 3 0 5) := by decide +kernel

/-- DecodeInvertsEncode, StepsKeepMemory: an encoded instruction that is well-formed; a state in canonical form from which a step answers a next state. -/
theorem witness_whole : ((Instr.add 15 31 31 31).isCode = true ∧ (Instr.add 15 31 31 31).wf = true) ∧ Memory.wf (fetch0 16 0x0C64).mem = true ∧
    (match step (fetch0 16 0x0C64) with | .next _ => true | _ => false) = true := by decide +kernel
/-- ResetLeaves: a state in canonical form, and boundary places of its clauses. -/
theorem witness_reset : Memory.wf State.reset.mem = true ∧ (isWorker 16769023 = true ∧ 16769023 < 16777216 ∧ 0x3FFFFF < 0x400000) := by decide +kernel

end Sys2Proof.Tests
end

/-! ## Decode and encode

The long instructions are read part by part: a word is its parts one after the other, and each field that the decoder reads
lies within one part (`word_parts`). The opcode map then needs one line for each major opcode (`row32_encode32`). -/

namespace Sys2Proof

/-! ### Codes of the enumerated operands -/

@[simp] theorem MSize.ofBits_toBits (x : MSize) : MSize.ofBits x.toBits = x := by cases x <;> rfl
@[simp] theorem DotKind.ofBits_toBits (x : DotKind) : DotKind.ofBits x.toBits = x := by cases x <;> rfl
@[simp] theorem FKind.ofBits_toBits (x : FKind) : FKind.ofBits x.toBits = x := by cases x <;> rfl
@[simp] theorem MTy.ofBits_toBits (x : MTy) : MTy.ofBits x.toBits = some x := by cases x <;> rfl
@[simp] theorem FTy.ofBits_toBits (x : FTy) : FTy.ofBits x.toBits = some x := by cases x <;> rfl
@[simp] theorem ITy.ofBits_toBits (x : ITy) : ITy.ofBits x.toBits = some x := by cases x <;> rfl
@[simp] theorem Cond.ofBits_toBits (x : Cond) : Cond.ofBits x.toBits = some x := by cases x <;> rfl
@[simp] theorem AmoOp.ofBits_toBits (x : AmoOp) : AmoOp.ofBits x.toBits = some x := by cases x <;> rfl
@[simp] theorem Conv.ofBits_toBits (x : Conv) : Conv.ofBits x.toBits = some x := by cases x <;> rfl
@[simp] theorem Scope.ofBits_toBits (x : Scope) : Scope.ofBits x.toBits = some x := by cases x <;> rfl
@[simp] theorem RMode.ofBits_toBits (x : RMode) : RMode.ofBits x.toBits = some x := by cases x <;> rfl

/-- VCMP's three fields as the decoder reads them from bits 7 to 0 of the word. -/
@[simp] theorem VCmpKind.ofBits_toBits (k : VCmpKind) :
    VCmpKind.ofBits (k.toBits.extractLsb' 0 5) (k.toBits.extractLsb' 5 2) (k.toBits.getLsbD 7) = .ok k := by
  cases k with
  | flt c t q => cases c <;> cases t <;> cases q <;> rfl
  | int c t => cases c <;> cases t <;> rfl

/-! ### Fields of a word that is written as its parts -/

/-- A field that lies within one part of a word is read from that part, and a field that is a whole part is that part: the rules,
for `simp`, that read an encoding's fields. -/
theorem word_parts :
    (∀ (w : BitVec 32) (lo n : Nat), fld w lo n = (w.extractLsb' lo n).toNat) ∧
    (∀ (w : BitVec 16) (lo n : Nat), fld16 w lo n = (w.extractLsb' lo n).toNat) ∧
    (∀ {v w lo n : Nat} (x : BitVec v) (y : BitVec w), w ≤ lo → (x ++ y).extractLsb' lo n = x.extractLsb' (lo - w) n) ∧
    (∀ {v w lo n : Nat} (x : BitVec v) (y : BitVec w), lo + n ≤ w → (x ++ y).extractLsb' lo n = y.extractLsb' lo n) ∧
    (∀ {w : Nat} (x : BitVec w), x.extractLsb' 0 w = x) ∧
    (∀ {v w i : Nat} (x : BitVec v) (y : BitVec w), w ≤ i → (x ++ y).getLsbD i = x.getLsbD (i - w)) ∧
    (∀ {v w i : Nat} (x : BitVec v) (y : BitVec w), i < w → (x ++ y).getLsbD i = y.getLsbD i) ∧
    (∀ b : Bool, (BitVec.ofBool b).getLsbD 0 = b) :=
  ⟨fun _ _ _ => rfl, fun _ _ _ => rfl, fun _ _ => BitVec.extractLsb'_append_eq_of_le,
    fun _ _ => BitVec.extractLsb'_append_eq_of_add_le, fun _ => BitVec.extractLsb'_eq_self,
    fun _ _ h => by simp [BitVec.getLsbD_append, Nat.not_lt.2 h], fun _ _ h => by simp [BitVec.getLsbD_append, h],
    fun b => by cases b <;> rfl⟩

/-- A word is its two parcels one after the other (R4). -/
theorem parcels_append (w : BitVec 32) : w.extractLsb' 16 16 ++ w.extractLsb' 0 16 = w :=
  BitVec.extractLsb'_append_extractLsb' (w := 16) (len := 16)

/-! ### The long instructions (R99, R100) -/

/-- The decoders of the major opcodes, in the order of the opcode map (R100). -/
def majorDecoders : List (BitVec 32 → RowRes) := [
  decMajor00, decMajor01, decMajor02, decMajor03, decMajor04, decMajor05, decMajor06, decMajor07, decMajor08, decMajor09,
  decMajor0A, decMajor0B, decMajor0C, decMajor0D, decMajor0E, decMajor0F, decMajor10, decMajor11, decMajor12, decMajor13,
  decMajor14, decMajor15, decMajor16, decMajor17, decMajor18, decMajor19, decMajor1A, decMajor1B, decMajor1C, decMajor1D,
  decMajor1E, decMajor1F, decMajor20, decMajor21, decMajor22, decMajor23, decMajor24, decMajor25, decMajor26, decMajor27,
  decMajor28, decMajor29, decMajor2A, decMajor2B, decMajor2C, decMajor2D, decMajor2E, decMajor2F, decMajor30, decMajor31,
  decMajor32, decMajor33, decMajor34, decMajor35, decMajor36, decMajor37]

/-- The opcode map sends a word to the decoder of its major opcode. -/
theorem row32_of_major {w : BitVec 32} {d : BitVec 32 → RowRes} (hd : majorDecoders[fld w 25 6]? = some d) : row32 w = d w := by
  obtain ⟨hlt, rfl⟩ := List.getElem?_eq_some_iff.1 hd
  unfold row32
  generalize fld w 25 6 = m at hlt ⊢
  change m < 56 at hlt
  interval_cases m <;> rfl

/-- The topmost of bits 31 to 25 is bit 31, which says that the word is a long instruction (R96). -/
theorem getLsbD_top (w : BitVec 32) : (w.extractLsb' 25 7).getLsbD 6 = w.getLsbD 31 := by simp

/-- The others of bits 31 to 25 are the major opcode (R99). -/
theorem fld_top (w : BitVec 32) : fld w 25 6 = ((w.extractLsb' 25 7).extractLsb' 0 6).toNat := by
  have h : (w.extractLsb' 25 7).extractLsb' 0 6 = w.extractLsb' 25 6 := by
    ext k hk; simp [show k < 7 by omega]
  rw [fld, h]

/-- An instruction of a major opcode: bits 31 to 25 of its word are `m`, a set bit above that opcode, and the opcode's decoder reads
the instruction back. Both are shown, unless a proof is given, by reading the parts of the instruction's word. -/
theorem row32_encode32_of_major {i : Instr} (m : BitVec 7) {d : BitVec 32 → RowRes} (hm : m.getLsbD 6 = true)
    (hd : majorDecoders[(m.extractLsb' 0 6).toNat]? = some d)
    (h : (encode32 i).extractLsb' 25 7 = m ∧ d (encode32 i) = .ok i := by
      unfold encode32
      simp (disch := decide) only [word_parts, Nat.reduceSub, BitVec.reduceExtractLsb', BitVec.reduceToNat,
        and_self, if_true, if_false, reduceCtorEq, MSize.ofBits_toBits, MTy.ofBits_toBits, FTy.ofBits_toBits,
        ITy.ofBits_toBits, Cond.ofBits_toBits, AmoOp.ofBits_toBits,
        Conv.ofBits_toBits, DotKind.ofBits_toBits, FKind.ofBits_toBits, Scope.ofBits_toBits, RMode.ofBits_toBits,
        VCmpKind.ofBits_toBits, decMajor00, decMajor01, decMajor02, decMajor03, decMajor04, decMajor05, decMajor06, decMajor07,
        decMajor08, decMajor09, decMajor0A, decMajor0B, decMajor0C, decMajor0D, decMajor0E, decMajor0F, decMajor10, decMajor11,
        decMajor12, decMajor13, decMajor14, decMajor15, decMajor16, decMajor17, decMajor18, decMajor19, decMajor1A, decMajor1B,
        decMajor1C, decMajor1D, decMajor1E, decMajor1F, decMajor20, decMajor21, decMajor22, decMajor23, decMajor24, decMajor25,
        decMajor26, decMajor27, decMajor28, decMajor29, decMajor2A, decMajor2B, decMajor2C, decMajor2D, decMajor2E, decMajor2F,
        decMajor30, decMajor31, decMajor32, decMajor33, decMajor34, decMajor35, decMajor36, decMajor37]) :
    (encode32 i).getLsbD 31 = true ∧ row32 (encode32 i) = .ok i := by
  obtain ⟨rfl, hread⟩ := h
  rw [getLsbD_top] at hm
  rw [← fld_top] at hd
  exact ⟨hm, (row32_of_major hd).trans hread⟩

/-- The opcode map, a line for each major opcode (R100). -/
theorem row32_encode32 {i : Instr} (hc : i.isCode = true) (hl : i.isShort = false) :
    (encode32 i).getLsbD 31 = true ∧ row32 (encode32 i) = .ok i := by
  cases i with
  | nopShort | mov | li | addShort | subShort | andShort | orShort | xorShort | addiShort | shliShort | shriShort | sraiShort |
    ldDShort | stDShort | jrShort | endShort | beqz | bnez =>
    cases hl
  | add | sub | and | or | xor | andn | shl | shr | sra | rol | min | max | minu | maxu | mul | mulh | mulhu | div | divu | rem |
    remu | clz | ctz | popc =>
    exact row32_encode32_of_major 0x40#7 rfl rfl
  | addi => exact row32_encode32_of_major 0x41#7 rfl rfl
  | andi => exact row32_encode32_of_major 0x42#7 rfl rfl
  | ori => exact row32_encode32_of_major 0x43#7 rfl rfl
  | xori => exact row32_encode32_of_major 0x44#7 rfl rfl
  | shli | shri | srai | roli => exact row32_encode32_of_major 0x45#7 rfl rfl
  | cmp => exact row32_encode32_of_major 0x46#7 rfl rfl
  | lih => exact row32_encode32_of_major 0x47#7 rfl rfl
  | madd | msub => exact row32_encode32_of_major 0x48#7 rfl rfl
  | bfx | bfi => exact row32_encode32_of_major 0x49#7 rfl rfl
  | mkadr | absa | gptr => exact row32_encode32_of_major 0x4a#7 rfl rfl
  | sel => exact row32_encode32_of_major 0x4b#7 rfl rfl
  | beq | bne | blt | bge | bltu | bgeu => exact row32_encode32_of_major 0x4c#7 rfl rfl
  | j => exact row32_encode32_of_major 0x4d#7 rfl rfl
  | jal => exact row32_encode32_of_major 0x4e#7 rfl rfl
  | jr | jalr => exact row32_encode32_of_major 0x4f#7 rfl rfl
  | loop => exact row32_encode32_of_major 0x50#7 rfl rfl
  | nop | endAct | trap | sysc | eret | halt | resume => exact row32_encode32_of_major 0x51#7 rfl rfl
  | ld | ldw | ldc => exact row32_encode32_of_major 0x52#7 rfl rfl
  | st | stp | stf => exact row32_encode32_of_major 0x53#7 rfl rfl
  | get | put => exact row32_encode32_of_major 0x54#7 rfl rfl
  | feqry | feset => exact row32_encode32_of_major 0x55#7 rfl rfl
  | amo => exact row32_encode32_of_major 0x56#7 rfl rfl
  | cas => exact row32_encode32_of_major 0x57#7 rfl rfl
  | enq | deq => exact row32_encode32_of_major 0x58#7 rfl rfl
  | vld | vldw | vldc => exact row32_encode32_of_major 0x59#7 rfl rfl
  | vst | vstp | vstf => exact row32_encode32_of_major 0x5a#7 rfl rfl
  | vgath | vscat => exact row32_encode32_of_major 0x5b#7 rfl rfl
  | vfadd | vfsub | vfmul | vfmin | vfmax | vfabs | vfneg | vfcpys | vfma | vfms | vfnma | vfnms | vrcp | vrsq | vexp2 | vlog2 =>
    exact row32_encode32_of_major 0x5c#7 rfl rfl
  | viadd | visub | vimul | vimulh | vimin | vimax | viminu | vimaxu | vand | vor | vxor | vandn | vshl | vshr | vsra | vrol =>
    exact row32_encode32_of_major 0x5d#7 rfl rfl
  | vcmp => exact row32_encode32_of_major 0x5e#7 rfl rfl
  | vsel => exact row32_encode32_of_major 0x5f#7 rfl rfl
  | vcvt => exact row32_encode32_of_major 0x60#7 rfl rfl
  | vrsum | vrmax | vrmin => exact row32_encode32_of_major 0x61#7 rfl rfl
  | vshuf | vbcast | vextr | vinsr => exact row32_encode32_of_major 0x62#7 rfl rfl
  | vdot => exact row32_encode32_of_major 0x63#7 rfl rfl
  | pand | por | pxor | pnot | pcnt => exact row32_encode32_of_major 0x64#7 rfl rfl
  | flgrd | flgclr => exact row32_encode32_of_major 0x65#7 rfl rfl
  | gadd | gdamp | gsolve | gres => exact row32_encode32_of_major 0x66#7 rfl rfl
  | gelim => exact row32_encode32_of_major 0x67#7 rfl rfl
  | mload | mflip | mstrm | mdrain | mclr => exact row32_encode32_of_major 0x68#7 rfl rfl
  | copy | copym | gather | scatter | mcast => exact row32_encode32_of_major 0x69#7 rfl rfl
  | tmset | tmadv => exact row32_encode32_of_major 0x6a#7 rfl rfl
  | disp | dcur | dres | comb => exact row32_encode32_of_major 0x6b#7 rfl rfl
  | tmark | replay | ttrim => exact row32_encode32_of_major 0x6c#7 rfl rfl
  | send | sendb | reply | spawn => exact row32_encode32_of_major 0x6d#7 rfl rfl
  | tagen | tagdis | tagpnd => exact row32_encode32_of_major 0x6e#7 rfl rfl
  | mbput | mbtake | mbcfg => exact row32_encode32_of_major 0x6f#7 rfl rfl
  | crySt | cryAdd | cryMark => exact row32_encode32_of_major 0x70#7 rfl rfl
  | fence => exact row32_encode32_of_major 0x71#7 rfl rfl
  | publish => exact row32_encode32_of_major 0x72#7 rfl rfl
  | barr | bwait => exact row32_encode32_of_major 0x73#7 rfl rfl
  | cntadd | cntarm | cntrd => exact row32_encode32_of_major 0x74#7 rfl rfl
  | srd | swr => exact row32_encode32_of_major 0x75#7 rfl rfl
  | ctxsv | ctxld => exact row32_encode32_of_major 0x76#7 rfl rfl
  | xinv => exact row32_encode32_of_major 0x77#7 rfl rfl
  | _ => cases hc

/-! ### The short instructions (R98) -/

/-- The opcode of a parcel is its bits 15 to 10. -/
theorem toNat_div_1024 (p : BitVec 16) : p.toNat / 1024 = (p.extractLsb' 10 6).toNat := by
  have hp := p.isLt
  simp only [BitVec.extractLsb'_toNat, Nat.shiftRight_eq_div_pow]
  omega

/-- The short forms, a line of R98's table each. -/
theorem row16_encode16 {i : Instr} (hs : i.isShort = true) : row16 (encode16 i) = .ok i := by
  cases i with
  | nopShort | endShort => rfl
  | mov | li | addShort | subShort | andShort | orShort | xorShort | addiShort | shliShort | shriShort | sraiShort | ldDShort |
    stDShort | jrShort | beqz | bnez =>
    unfold encode16 row16
    simp (disch := decide) only [toNat_div_1024, word_parts, Nat.reduceSub, BitVec.reduceExtractLsb', BitVec.reduceToNat, if_true]
  | _ => cases hs

/-- A parcel that holds a short instruction has bit 15 clear (R96). -/
theorem getLsbD_of_row16 {p : BitVec 16} {i : Instr} (h : row16 p = .ok i) : p.getLsbD 15 = false := by
  have hlt : p.toNat / 1024 < 18 := by
    by_contra hge
    unfold row16 at h
    split at h
    case h_19 => cases h
    all_goals omega
  rw [BitVec.getLsbD, Nat.testBit_eq_decide_div_mod_eq, decide_eq_false_iff_not]
  omega

/-! ### Both directions together -/

/-- A well-formed instruction that a row gives is what decodes. -/
theorem RowRes.refine_ok {i : Instr} (h : i.wf = true) (priv : Bool) : (RowRes.ok i).refine priv = .ok i := by
  simp [RowRes.refine, h]

theorem decode_encode16 {i : Instr} (hs : i.isShort = true) (hw : i.wf = true) (q : BitVec 16) : decode (encode16 i) q = .ok i := by
  have hrow := row16_encode16 hs
  rw [decode, if_neg (Bool.eq_false_iff.1 (getLsbD_of_row16 hrow)), hrow, RowRes.refine_ok hw]

theorem decode_encode32 {i : Instr} (hc : i.isCode = true) (hl : i.isShort = false) (hw : i.wf = true) :
    decode ((encode32 i).extractLsb' 16 16) ((encode32 i).extractLsb' 0 16) = .ok i := by
  obtain ⟨hbit, hrow⟩ := row32_encode32 hc hl
  have hlong : ((encode32 i).extractLsb' 16 16).getLsbD 15 = true := by simpa using hbit
  rw [decode, if_pos hlong, parcels_append, decode32, hrow, RowRes.refine_ok hw]

/-- Settles O58: a short instruction's parcel has bit 15 clear and reads back by `row16_encode16`, a long one's two parcels are its
word, which reads back by `row32_encode32`. -/
theorem decodeInvertsEncode : Obligations.DecodeInvertsEncode := by
  intro i hc hw
  rw [encode, if_pos hc]
  cases hs : i.isShort with
  | true => exact decode_encode16 hs hw 0
  | false => exact decode_encode32 hc hs hw

/-! ### Words of the spec -/

/-- Settles O57: the decoder evaluated on each of the fixed words. -/
theorem decodeWords : Obligations.DecodeWords := by
  unfold Obligations.DecodeWords
  decide

end Sys2Proof

/-! ## A step runs what it fetches -/

namespace Sys2Proof.Machine

/-! ### What a fetch gives -/

/-- A 16-bit instruction of a worker core (R96). -/
theorem fetchStore_short {s : State} {n pc : Nat} (hpc : pc ≤ 65534) (hbit : (storeParcel s n pc).getLsbD 15 = false) :
    fetchStore s n pc = .ok (decode (storeParcel s n pc) 0) 2 := by
  simp only [fetchStore, if_neg (Nat.not_lt.2 hpc), hbit, Bool.false_eq_true, if_false]

/-- A 32-bit instruction of a worker core: its second parcel lies 2 bytes on (R4, R96). -/
theorem fetchStore_long {s : State} {n pc : Nat} (hpc : pc ≤ 65532) (hbit : (storeParcel s n pc).getLsbD 15 = true) :
    fetchStore s n pc = .ok (decode (storeParcel s n pc) (storeParcel s n (pc + 2))) 4 := by
  simp only [fetchStore, if_neg (show ¬65534 < pc by omega), if_neg (Nat.not_lt.2 hpc), hbit, if_true]

theorem fetchAt_worker {s : State} {n : Nat} (c : Nat) (hn : isSupCore n = false) :
    fetchAt s n c = fetchStore s n (ctxAt s n c).pc.toNat := by
  simp [fetchAt, hn]

theorem fetchAt_sup {s : State} {n : Nat} (c : Nat) (hn : isSupCore n = true) :
    fetchAt s n c = fetchSup s n (ctxAt s n c).sup (ctxAt s n c).pc := by
  simp [fetchAt, hn]

/-- A fetched instruction runs if PRIV stops it, which its meaning answers, or if it reads no register early (R102, R110). -/
theorem fetchRun_of_fetchAt {s : State} {n c len : Nat} {i : Instr} (hf : fetchAt s n c = .ok (.ok i) len)
    (hclear : privStops (ctxAt s n c).sup i = true ∨ earlyRead (ctxAt s n c) i = none) :
    fetchRun s n c = .run (if isSupCore n then fetchKeep s n (ctxAt s n c).sup (ctxAt s n c).pc else s) i := by
  have hgo : (if privStops (ctxAt s n c).sup i then none else earlyRead (ctxAt s n c) i) = none := by
    rcases hclear with h | h <;> simp [h]
  simp only [fetchRun, hf, hgo]

/-! ### The step of a core -/

/-- The cycle of a core whose die has power is the fetch of the context that it chooses (R35, R36). -/
theorem cycleOf_of_choose {s : State} {n c q : Nat} (late : Bool) (hdie : dieDead s (dieOf n) = false)
    (hch : choose (readyCore s n) n (eligible (readyCore s n) n) = some (c, q)) :
    cycleOf s n late = fetchRun { noteIssue (readyCore s n) n (eligible (readyCore s n) n) c q with cur := ⟨n, c, late⟩ } n c := by
  simp [cycleOf, hdie, hch]

theorem coreStep_of_run {s t : State} {n : Nat} {late : Bool} {i : Instr} (hex : coreExists n = true)
    (hrun : cycleOf s n late = .run t i) : coreStep s n late = exec i t := by
  simp [coreStep, hex, hrun]

/-- A step is the cycle of the core that its schedule names, or, with an empty schedule, of the core that moves of itself. -/
theorem step_eq_coreStep {s : State} {n : Nat} {late : Bool} {r : List Pick}
    (h : s.sched = .issue n late :: r ∨
      (s.sched = [] ∧ r = [] ∧ late = false ∧ autoMove { s with free := s.free + 1, sched := r } = .core n)) :
    step s = coreStep { s with free := s.free + 1, sched := r } n late := by
  rcases h with hs | ⟨hs, rfl, rfl, hauto⟩
  · simp [step, hs]
  · simp only [step, hs, hauto]

theorem step_of_event {s : State} {e : Instr} {r : List Pick} (hs : s.sched = .event e :: r) (he : isEvent e = true) :
    step s = exec e { s with free := s.free + 1, sched := r } := by
  simp [step, hs, he]

/-- Settles O56: the core's cycle comes to the fetch of the chosen context, and each kind of fetch to `exec` of what it decodes. -/

theorem stepRunsDecoded : Obligations.StepRunsDecoded := by
  intro s n c q g p late r i e len s0 s1 s2 t parcel clear issues
  have hstep (hi : issues) (l : Nat) (hf : fetchAt s2 n c = .ok (.ok i) l) (hclear : clear) :
      step s = exec i (if isSupCore n then fetchKeep s2 n t.sup t.pc else s2) := by
    obtain ⟨hex, hdie, hch, hsched⟩ := hi
    have hready : readyCore s0 n = s1 := rfl
    have hcycle : cycleOf s0 n late = fetchRun s2 n c := cycleOf_of_choose late hdie (by rw [hready]; exact hch)
    rw [step_eq_coreStep hsched]
    exact coreStep_of_run hex (hcycle.trans (fetchRun_of_fetchAt hf hclear))
  have hparcel (k : Nat) : parcel k = storeParcel s2 n (t.pc.toNat + k) := by
    simp only [parcel, storeParcel, Nat.add_assoc]
  have hparcel0 : parcel 0 = storeParcel s2 n t.pc.toNat := by rw [hparcel, Nat.add_zero]
  refine ⟨fun hi hn hbit hpc hdec hclear => ?_, fun hi hn hbit hpc hdec hclear => ?_, fun hi hn hf hclear => ?_,
    step_of_event, fun hs => ?_, fun hs => ?_⟩
  · rw [hparcel0] at hbit hdec
    have hf : fetchAt s2 n c = .ok (.ok i) 2 := by rw [fetchAt_worker c hn, fetchStore_short hpc hbit, hdec]
    simpa [hn] using hstep hi 2 hf hclear
  · rw [hparcel0] at hbit hdec
    rw [hparcel] at hdec
    have hf : fetchAt s2 n c = .ok (.ok i) 4 := by rw [fetchAt_worker c hn, fetchStore_long hpc hbit, hdec]
    simpa [hn] using hstep hi 4 hf hclear
  · simpa [hn] using hstep hi len ((fetchAt_sup c hn).trans hf) hclear
  · simp [step, hs, s0]
  · simp [step, hs, s0]

end Sys2Proof.Machine

/-! ## What packets and wakes leave alone

A packet sent and contexts woken change few parts of the machine. Each frame is shown once here; the sections on inboxes,
dispatches, core events, deques and counters use it. -/

namespace Sys2Proof.Machine

/-- An event comes to what its equation says. -/
theorem next_congr {t u : State} (h : t = u) : (Host.Outcome.next t : Out) = .next u := by rw [h]

/-! ### A packet on its way (R158) -/

/-- A packet sent changes what is on its way, the counters it takes, and what its sender keeps. -/
theorem transmit_only (s : State) (src dst : Nat) (net : Net) (part inc : Nat) (w : Bool) (b : Body) :
    transmit s src dst net part inc w b = { s with
      flight := (transmit s src dst net part inc w b).flight
      dies := (transmit s src dst net part inc w b).dies
      pkgs := (transmit s src dst net part inc w b).pkgs
      flows := (transmit s src dst net part inc w b).flows
      keptReq := (transmit s src dst net part inc w b).keptReq } := by
  unfold transmit
  dsimp only
  rw [stampOf_only]
  split <;> rfl

@[simp] theorem transmit_cur (s : State) (src dst : Nat) (net : Net) (part inc : Nat) (w : Bool) (b : Body) :
    (transmit s src dst net part inc w b).cur = s.cur := by rw [transmit_only]
@[simp] theorem transmit_mem (s : State) (src dst : Nat) (net : Net) (part inc : Nat) (w : Bool) (b : Body) :
    (transmit s src dst net part inc w b).mem = s.mem := by rw [transmit_only]
@[simp] theorem transmit_full (s : State) (src dst : Nat) (net : Net) (part inc : Nat) (w : Bool) (b : Body) :
    (transmit s src dst net part inc w b).full = s.full := by rw [transmit_only]
@[simp] theorem transmit_cores (s : State) (src dst : Nat) (net : Net) (part inc : Nat) (w : Bool) (b : Body) :
    (transmit s src dst net part inc w b).cores = s.cores := by rw [transmit_only]
@[simp] theorem transmit_held (s : State) (src dst : Nat) (net : Net) (part inc : Nat) (w : Bool) (b : Body) :
    (transmit s src dst net part inc w b).held = s.held := by rw [transmit_only]

/-- A body that its flow's sequence number does not enter goes as it is, in one packet behind those on their way. -/
theorem transmit_packet (s : State) (src dst : Nat) (net : Net) (part inc : Nat) (w : Bool) {b : Body}
    (hb : ∀ n, b.withSeq n = b) :
    ∃ q, (transmit s src dst net part inc w b).flight = s.flight ++ [q] ∧ q.body = b ∧ q.src = src ∧ q.dst = dst ∧ q.net = net := by
  unfold transmit
  dsimp only
  rw [stampOf_only]
  split
  · exact ⟨_, rfl, rfl, rfl, rfl, rfl⟩
  · exact ⟨_, rfl, hb _, rfl, rfl, rfl⟩

theorem coreAt_congr {s t : State} (h : t.cores = s.cores) (n : Nat) : coreAt t n = coreAt s n := by rw [coreAt, h, coreAt]
theorem ctxAt_congr {s t : State} (h : t.cores = s.cores) (n c : Nat) : ctxAt t n c = ctxAt s n c := by
  rw [ctxAt, coreAt_congr h, ctxAt]

@[simp] theorem coreAt_transmit (s : State) (src dst : Nat) (net : Net) (part inc : Nat) (w : Bool) (b : Body) (n : Nat) :
    coreAt (transmit s src dst net part inc w b) n = coreAt s n := coreAt_congr (transmit_cores ..) n
@[simp] theorem ctxAt_transmit (s : State) (src dst : Nat) (net : Net) (part inc : Nat) (w : Bool) (b : Body) (n c : Nat) :
    ctxAt (transmit s src dst net part inc w b) n c = ctxAt s n c := ctxAt_congr (transmit_cores ..) n c

/-- A message without a reservation (R28) goes on RPLY with its class and arguments. -/
theorem sendUnreserved_packet (s : State) (src dst cls : Nat) (args : List Word) (part : Nat) :
    ∃ q m, (sendUnreserved s src dst cls args part).flight = s.flight ++ [q] ∧ q.body = .msg m ∧ q.src = src ∧ q.dst = dst ∧
      q.net = .rply ∧ m.kind = .unreserved ∧ m.cls = cls ∧ m.args = eightArgs args ∧ m.narg = args.length := by
  obtain ⟨q, hflight, hbody, hsrc, hdst, hnet⟩ := transmit_packet s src dst .rply part (partInc s (pkgOf src) part) false
    (b := .msg ⟨.unreserved, cls, 0, args.length, eightArgs args, [], 0, coreAdr s dst dst, src, 0, 0, dst, false, part,
      partInc s (pkgOf src) part, passVec s src dst⟩) fun _ => rfl
  exact ⟨q, _, hflight, hbody, hsrc, hdst, hnet, rfl, rfl, rfl, rfl⟩

/-- A message without a reservation is one packet sent. -/
theorem sendUnreserved_only (s : State) (src dst cls : Nat) (args : List Word) (part : Nat) :
    sendUnreserved s src dst cls args part = { s with
      flight := (sendUnreserved s src dst cls args part).flight
      dies := (sendUnreserved s src dst cls args part).dies
      pkgs := (sendUnreserved s src dst cls args part).pkgs
      flows := (sendUnreserved s src dst cls args part).flows
      keptReq := (sendUnreserved s src dst cls args part).keptReq } := transmit_only ..

/-! ### Contexts woken (R34, R300) -/

/-- `t` differs from `s` at most in contexts of its cores and in the jobs that have had work there: all that a wake changes. -/
structure WakesOnly (s t : State) : Prop where
  rest : t = { s with cores := t.cores }
  core : ∀ m, coreAt t m = { coreAt s m with
    ctxs := (coreAt t m).ctxs
    work := (coreAt t m).work }

namespace WakesOnly

variable {s t u : State}

theorem refl (s : State) : WakesOnly s s := ⟨rfl, fun _ => rfl⟩

theorem trans (h : WakesOnly s t) (h' : WakesOnly t u) : WakesOnly s u :=
  ⟨by rw [h'.rest, h.rest], fun m => by rw [h'.core, h.core]⟩

theorem cur (h : WakesOnly s t) : t.cur = s.cur := by rw [h.rest]
theorem mem (h : WakesOnly s t) : t.mem = s.mem := by rw [h.rest]
theorem full (h : WakesOnly s t) : t.full = s.full := by rw [h.rest]
theorem flight (h : WakesOnly s t) : t.flight = s.flight := by rw [h.rest]
theorem held (h : WakesOnly s t) : t.held = s.held := by rw [h.rest]
theorem pkgs (h : WakesOnly s t) : t.pkgs = s.pkgs := by rw [h.rest]
theorem inbox (h : WakesOnly s t) (m : Nat) : (coreAt t m).inbox = (coreAt s m).inbox := by rw [h.core]
theorem order (h : WakesOnly s t) (m : Nat) : (coreAt t m).order = (coreAt s m).order := by rw [h.core]
theorem resv (h : WakesOnly s t) (m : Nat) : (coreAt t m).resv = (coreAt s m).resv := by rw [h.core]
theorem rplyWait (h : WakesOnly s t) (m : Nat) : (coreAt t m).rplyWait = (coreAt s m).rplyWait := by rw [h.core]
theorem sendq (h : WakesOnly s t) (m : Nat) : (coreAt t m).sendq = (coreAt s m).sendq := by rw [h.core]
theorem deque (h : WakesOnly s t) (m : Nat) : (coreAt t m).deque = (coreAt s m).deque := by rw [h.core]
theorem upcalls (h : WakesOnly s t) (m : Nat) : (coreAt t m).upcalls = (coreAt s m).upcalls := by rw [h.core]

end WakesOnly

/-- A core of which only contexts and work are set. -/
theorem wakesOnly_setCore (s : State) (n : Nat) (ctxs : List (Nat × Ctx)) (work : List Nat) :
    WakesOnly s (setCore s n { coreAt s n with ctxs := ctxs, work := work }) := by
  refine ⟨rfl, fun m => ?_⟩
  by_cases hm : m = n
  · subst hm; rw [coreAt_setCore_same]
  · rw [coreAt_setCore_other _ _ hm]

theorem wakesOnly_wakeAll (s : State) (n : Nat) (c : Cause) : WakesOnly s (wakeAll s n c) :=
  wakesOnly_setCore s n _ (coreAt s n).work

theorem wakesOnly_noteWork (s : State) (n job : Nat) : WakesOnly s (noteWork s n job) := by
  unfold noteWork
  dsimp only
  split
  · exact .refl s
  · exact wakesOnly_setCore s n (coreAt s n).ctxs _

theorem wakesOnly_noteWorks (s : State) (n : Nat) (jobs : List Nat) :
    WakesOnly s (jobs.foldl (fun s j => noteWork s n j) s) := by
  induction jobs generalizing s with
  | nil => exact .refl s
  | cons j js ih => exact (wakesOnly_noteWork s n j).trans (ih _)

theorem wakesOnly_wakeHalted (s : State) (n : Nat) : WakesOnly s (wakeHalted s n) :=
  (wakesOnly_noteWorks ..).trans (wakesOnly_wakeAll ..)

/-- A context as a wake for `c` leaves it. -/
def Ctx.woken (t : Ctx) (c : Cause) : Ctx :=
  if t.st = .parked ∧ t.cause = c then
    { t with
      st := .running
      cause := .none
      redo := false }
  else t

theorem Ctx.woken_of_cause {t : Ctx} {c : Cause} (h : t.cause ≠ c) : t.woken c = t := if_neg fun h' => h h'.2
theorem Ctx.woken_of_st {t : Ctx} (c : Cause) (h : t.st ≠ .parked) : t.woken c = t := if_neg fun h' => h h'.1

/-- A lookup in a list of which every part has been changed alike. -/
theorem look_map {α : Type} (f : α → α) (l : List (Nat × α)) (x : α) (n : Nat) (hx : f x = x) :
    look x (l.map fun e => (e.1, f e.2)) n = f (look x l n) := by
  induction l with
  | nil => exact hx.symm
  | cons e r ih =>
    obtain ⟨k, b⟩ := e
    simp only [List.map_cons, look, ih]
    split <;> rfl

theorem ctxAt_wakeAll (s : State) (n m d : Nat) (c : Cause) :
    ctxAt (wakeAll s n c) m d = if m = n then (ctxAt s m d).woken c else ctxAt s m d := by
  have hwake : (fun e : Nat × Ctx => if e.2.st = .parked ∧ e.2.cause = c then
      (e.1, { e.2 with st := .running, cause := .none, redo := false }) else e) = fun e => (e.1, e.2.woken c) := by
    funext e
    simp only [Ctx.woken]
    split <;> rfl
  by_cases hm : m = n
  · subst hm
    rw [if_pos rfl]
    simp only [ctxAt, wakeAll, coreAt_setCore_same, hwake]
    exact look_map (fun t : Ctx => t.woken c) _ _ d (Ctx.woken_of_st c (by simp [Ctx.reset]))
  · rw [if_neg hm, ctxAt, wakeAll, coreAt_setCore_other _ _ hm, ctxAt]

/-- A wake for a cause that no context of the core has wakes none. -/
theorem ctxAt_wakeAll_none {s : State} {n : Nat} {c : Cause} (h : ∀ d, (ctxAt s n d).cause ≠ c) (m d : Nat) :
    ctxAt (wakeAll s n c) m d = ctxAt s m d := by
  rw [ctxAt_wakeAll]
  split
  · next hm => subst hm; exact Ctx.woken_of_cause (h d)
  · rfl

/-- Setting a core without touching its contexts. -/
theorem ctxAt_setCore {s : State} {n : Nat} {k : Core} (h : k.ctxs = (coreAt s n).ctxs) (m d : Nat) :
    ctxAt (setCore s n k) m d = ctxAt s m d := by
  by_cases hm : m = n
  · subst hm; rw [ctxAt, coreAt_setCore_same, h, ctxAt]
  · rw [ctxAt, coreAt_setCore_other _ _ hm, ctxAt]

@[simp] theorem ctxAt_noteWork (s : State) (n job m d : Nat) : ctxAt (noteWork s n job) m d = ctxAt s m d := by
  unfold noteWork
  dsimp only
  split
  · rfl
  · exact ctxAt_setCore (by rfl) m d

theorem ctxAt_noteWorks (s : State) (n : Nat) (jobs : List Nat) (m d : Nat) :
    ctxAt (jobs.foldl (fun s j => noteWork s n j) s) m d = ctxAt s m d := by
  induction jobs generalizing s with
  | nil => rfl
  | cons j js ih => exact (ih _).trans (ctxAt_noteWork ..)

theorem ctxAt_wakeHalted (s : State) (n m d : Nat) :
    ctxAt (wakeHalted s n) m d = if m = n then (ctxAt s m d).woken .halt else ctxAt s m d := by
  rw [wakeHalted, ctxAt_wakeAll, ctxAt_noteWorks]

end Sys2Proof.Machine

/-! ## Stealing and levelling (R42, R43) -/

namespace Sys2Proof.Machine

/-! ### Packets of the steal network -/

@[simp] theorem removeAt_mem (s : State) (k : Nat) : (removeAt s k).mem = s.mem := rfl
@[simp] theorem removeAt_flight (s : State) (k : Nat) : (removeAt s k).flight = s.flight.eraseIdx k := rfl
@[simp] theorem coreAt_removeAt (s : State) (k n : Nat) : coreAt (removeAt s k) n = coreAt s n := rfl

@[simp] theorem stealPacket_mem (s : State) (n m : Nat) (b : StealMsg) : (stealPacket s n m b).mem = s.mem := transmit_mem ..
@[simp] theorem coreAt_stealPacket (s : State) (n m : Nat) (b : StealMsg) (k : Nat) :
    coreAt (stealPacket s n m b) k = coreAt s k := coreAt_transmit ..
theorem stealPacket_packet (s : State) (n m : Nat) (b : StealMsg) :
    ∃ q, (stealPacket s n m b).flight = s.flight ++ [q] ∧ q.src = n ∧ q.dst = m ∧ q.body = .steal b := by
  obtain ⟨q, hflight, hbody, hsrc, hdst, -⟩ := transmit_packet s n m .steal (partNum s n) (partInc s (pkgOf n) (partNum s n))
    false (b := .steal b) fun _ => rfl
  exact ⟨q, hflight, hsrc, hdst, hbody⟩

/-- A packet of the steal network that may arrive and is not stale has its effect. -/
theorem stealTake_of {s : State} {k : Nat} {p : Packet} {b : StealMsg} (htake : takeAt s k = .yes p) (hlive : stale s p = false)
    (hbody : p.body = .steal b) (f : State → Packet → StealMsg → Option State) :
    stealTake s k f = (f (removeAt s k) p b).getD s := by
  simp [stealTake, htake, hbody, hlive]

@[simp] theorem pushTop_mem (s : State) (n : Nat) (ts : List Task) : (pushTop s n ts).mem = s.mem := rfl
@[simp] theorem pushTop_flight (s : State) (n : Nat) (ts : List Task) : (pushTop s n ts).flight = s.flight := rfl
theorem coreAt_pushTop_other (s : State) {n m : Nat} (ts : List Task) (h : m ≠ n) : coreAt (pushTop s n ts) m = coreAt s m :=
  coreAt_setCore_other s _ h
@[simp] theorem pushTop_deque (s : State) (n : Nat) (ts : List Task) :
    (coreAt (pushTop s n ts) n).deque = (coreAt s n).deque ++ ts := by simp [pushTop]

/-! ### The thief asks -/

theorem stealAsk_early {s : State} {n : Nat} (h : (coreAt s n).idle < 64) : stealAsk s n = s := by
  simp [stealAsk, h]

/-- The first direction that is tried is the next one. -/
theorem stealAsk_of {s : State} {n m : Nat} (hidle : 64 ≤ (coreAt s n).idle) (hcond : stealIdle s n = true)
    (hdie : dieDead s (dieOf n) = false) (hdir : (coreAt s n).stealDir < 4)
    (hm : neighbour n ((coreAt s n).stealDir % 4) = some m) :
    stealAsk s n = stealPacket
      (setCore s n { coreAt s n with idle := 0, stealDir := ((coreAt s n).stealDir + 1) % 4 }) n m .request := by
  have hmod : (coreAt s n).stealDir % 4 = (coreAt s n).stealDir := Nat.mod_eq_of_lt hdir
  rw [hmod] at hm
  have hfirst : (((List.range 4).map fun i => ((coreAt s n).stealDir + i) % 4).find? fun d => (neighbour n d).isSome) =
      some (coreAt s n).stealDir := by
    simp [List.range_succ, hmod, hm]
  simp [stealAsk, hcond, hdie, Nat.not_lt.2 hidle, hfirst, hm]

/-! ### The victim yields, the thief places -/

theorem stealYield_of {s : State} {k : Nat} {p : Packet} (htake : takeAt s k = .yes p) (hlive : stale s p = false)
    (hbody : p.body = .steal .request) (hlen : 2 ≤ (coreAt s p.dst).deque.length) :
    let v := coreAt s p.dst
    let keep := v.deque.length - v.deque.length / 2
    stealYield s k = stealPacket (setCore (removeAt s k) p.dst { v with deque := v.deque.take keep }) p.dst p.src
      (.records (v.deque.drop keep)) := by
  have hhalf : ¬(coreAt s p.dst).deque.length / 2 = 0 := by omega
  exact (stealTake_of htake hlive hbody _).trans (congrArg (fun o : Option State => o.getD s) (if_neg hhalf))

theorem stealPlace_of {s : State} {k : Nat} {p : Packet} {rs : List Task} (htake : takeAt s k = .yes p)
    (hlive : stale s p = false) (hbody : p.body = .steal (.records rs)) :
    stealPlace s k = if (coreAt s p.dst).deque.length + rs.length ≤ 256 then pushTop (removeAt s k) p.dst rs else s :=
  (stealTake_of htake hlive hbody _).trans (apply_ite (fun o : Option State => o.getD s) _ _ _)

/-! ### Levelling -/

/-- The records that a core ships to a neighbour at a levelling interval (R43). -/
def shipmentTo (s : State) (n m : Nat) : Nat :=
  Nat.min ((coreAt s n).deque.length - 8) (((coreAt s n).deque.length - (coreAt s m).deque.length) / 2)

theorem levelAsk_of {s : State} {n m : Nat} (hm : leastLoaded s (neighbours n) = some m) (hbal : balint s n ≠ 0)
    (hdie : dieDead s (dieOf n) = false) :
    levelAsk s n = if shipmentTo s n m = 0 then s else stealPacket s n m (.shipment (shipmentTo s n m)) := by
  simp [levelAsk, hm, hbal, hdie, shipmentTo, dequeLen]

/-- The records of a shipment that move: as many as the sender still has and the receiver has room for (R43). -/
def shipped (s : State) (p : Packet) (h : Nat) : Nat :=
  Nat.min (Nat.min h (coreAt s p.src).deque.length) (256 - (coreAt s p.dst).deque.length)

theorem levelPlace_of {s : State} {k h : Nat} {p : Packet} (htake : takeAt s k = .yes p) (hlive : stale s p = false)
    (hbody : p.body = .steal (.shipment h)) :
    let v := coreAt s p.src
    let keep := v.deque.length - shipped s p h
    levelPlace s k = pushTop (setCore (removeAt s k) p.src { v with deque := v.deque.take keep }) p.dst (v.deque.drop keep) := by
  simp only [levelPlace, stealTake_of htake hlive hbody, dequeLen, coreAt_removeAt, Option.getD_some, shipped]

/-- Settles O45: each event of the steal network by the equation above that says what it comes to. -/
theorem dequesLevel : Obligations.DequesLevel := by
  intro s n m k h p rs a
  refine ⟨fun hidle => next_congr (stealAsk_early hidle), fun hidle hcond hdie hm hdir => ?_,
    fun htake hlive hbody _ hlen => ?_, fun htake hlive hbody => ⟨fun hroom => ?_, fun hroom => ?_⟩,
    fun hm hbal hdie => ⟨fun hship => ?_, fun hship => ?_⟩, fun htake hlive hbody hne => ?_⟩
  · have hask := next_congr (stealAsk_of hidle hcond hdie hdir hm)
    obtain ⟨q, hflight, hsrc, hdst, hb⟩ := stealPacket_packet
      (setCore s n { a with idle := 0, stealDir := (a.stealDir + 1) % 4 }) n m .request
    exact ⟨_, q, hask, by simp, hflight, hsrc, hdst, hb, by simp, by simp [a]⟩
  · intro v keep
    have hyield := next_congr (stealYield_of htake hlive hbody hlen)
    obtain ⟨q, hflight, -, hdst, hb⟩ := stealPacket_packet
      (setCore (removeAt s k) p.dst { coreAt s p.dst with deque := v.take keep }) p.dst p.src (.records (v.drop keep))
    exact ⟨_, q, hyield, by simp, by simp [v, keep], hflight, hdst, hb⟩
  · have hplace := (stealPlace_of htake hlive hbody).trans (if_pos hroom)
    exact ⟨_, next_congr hplace, rfl, rfl, by simp⟩
  · exact next_congr ((stealPlace_of htake hlive hbody).trans (if_neg (Nat.not_le.2 hroom)))
  · exact next_congr ((levelAsk_of hm hbal hdie).trans (if_pos hship))
  · have hask := (levelAsk_of hm hbal hdie).trans (if_neg hship)
    obtain ⟨q, hflight, -, hdst, hb⟩ := stealPacket_packet s n m (.shipment (shipmentTo s n m))
    exact ⟨_, q, next_congr hask, by simp, hflight, hdst, hb⟩
  · refine ⟨_, next_congr (levelPlace_of htake hlive hbody), rfl, rfl, ?_, ?_⟩
    · rw [coreAt_pushTop_other _ _ hne, coreAt_setCore_same]; rfl
    · rw [pushTop_deque, coreAt_setCore_other _ _ hne.symm]; rfl

end Sys2Proof.Machine

/-! ## Events of a core (R36, R38, R39, R102, R108) -/

namespace Sys2Proof.Machine

/-! ### Promotion -/

theorem promote_of {s : State} {n c : Nat} (hrun : (ctxAt s n c).st = .running) (hwait : 4096 ≤ (ctxAt s n c).waited) :
    promote s n c = setCtx s n c { ctxAt s n c with promoted := true } := if_pos ⟨hrun, hwait⟩

theorem promote_early {s : State} {n c : Nat} (hwait : (ctxAt s n c).waited < 4096) : promote s n c = s :=
  if_neg fun h => Nat.not_le.2 hwait h.2

/-! ### The send queue -/

theorem leaveQueue_empty {s : State} {n : Nat} (h : (coreAt s n).sendq = []) : leaveQueue s n = s := by
  simp [leaveQueue, h]

/-- The core after its oldest entry has left, and the contexts that waited for room go on. -/
def queueLeft (s : State) (n : Nat) (ms : List Msg) : State :=
  wakeAll (setCore s n { coreAt s n with
    sendq := ms
    sqfaults := if ms.isEmpty then 0 else (coreAt s n).sqfaults }) n .send

/-- With no SQFULL faults to report, the entry is sent and nothing else. -/
theorem leaveQueue_of {s : State} {n : Nat} {m : Msg} {ms : List Msg} (hq : (coreAt s n).sendq = m :: ms)
    (hreach : dieOf m.dst = dieOf n ∨ unreachable s n (dieOf m.dst) = false) (hnote : ms ≠ [] ∨ (coreAt s n).sqfaults = 0) :
    leaveQueue s n = transmit (queueLeft s n ms) n m.dst (msgNet m) m.part m.inc false (.msg m) := by
  have hquiet : (ms.isEmpty && (coreAt s n).sqfaults != 0 && (coreAt s n).sqnote != 0) = false := by
    rcases hnote with h | h <;> simp [h]
  have hway : ¬(dieOf m.dst ≠ dieOf n ∧ unreachable (queueLeft s n ms) n (dieOf m.dst) = true) := by
    rintro ⟨haway, hlost⟩
    exact Bool.false_ne_true ((hreach.resolve_left haway).symm.trans hlost)
  simp only [leaveQueue, hq, hquiet, Bool.false_eq_true, if_false]
  exact if_neg hway

@[simp] theorem queueLeft_sendq (s : State) (n : Nat) (ms : List Msg) : (coreAt (queueLeft s n ms) n).sendq = ms := by
  rw [queueLeft, (wakesOnly_wakeAll ..).sendq, coreAt_setCore_same]

theorem ctxAt_queueLeft (s : State) (n c : Nat) (ms : List Msg) : ctxAt (queueLeft s n ms) n c = (ctxAt s n c).woken .send := by
  rw [queueLeft, ctxAt_wakeAll, if_pos rfl]
  exact congrArg (fun t : Ctx => t.woken .send) (ctxAt_setCore (by rfl) n c)

/-! ### Late results -/

theorem Ctx.xAt_congr {t u : Ctx} (hx : u.x = t.x) (hp : u.pend = t.pend) (cy : Nat) (r : Reg) : u.xAt cy r = t.xAt cy r := by
  rw [xAt_dues, xAt_dues, hp, Ctx.rx, hx, Ctx.rx]
theorem Ctx.vAt_congr {t u : Ctx} (hv : u.v = t.v) (hp : u.pend = t.pend) (cy : Nat) (r : VReg) : u.vAt cy r = t.vAt cy r := by
  rw [vAt_dues, vAt_dues, hp, Ctx.rv, hv, Ctx.rv]
theorem Ctx.pAt_congr {t u : Ctx} (hv : u.p = t.p) (hp : u.pend = t.pend) (cy : Nat) (r : PReg) : u.pAt cy r = t.pAt cy r := by
  rw [pAt_dues, pAt_dues, hp, Ctx.rp, hv, Ctx.rp]

theorem Ctx.replyWake_only (t : Ctx) : t.replyWake = { t with
    st := t.replyWake.st
    cause := t.replyWake.cause
    awaits := t.replyWake.awaits } := by
  unfold Ctx.replyWake
  split <;> rfl

/-- The oldest result, which waits for no unit, is written. -/
theorem varDone_of {s : State} {n c code : Nat} {v mask : VWord} {es : List VarRes}
    (hvar : (ctxAt s n c).var = ⟨code, .value v, mask, false⟩ :: es) (hfree : (ctxAt s n c).st ≠ .free)
    (hsaved : (ctxAt s n c).st ≠ .saved) :
    varDone s n c = setCtx s n c (({ ctxAt s n c with var := es } : Ctx).put 0 0 code v mask).replyWake := by
  simp [varDone, hvar, hfree, hsaved, List.findIdx?_cons, varValue, Ctx.putNow_eq]

/-- A write of x[d] and the list of results to come do not meet. -/
theorem Ctx.putX_var (t : Ctx) (es : List VarRes) (d : Reg) (v m : VWord) :
    ({ t with var := es } : Ctx).put 0 0 (xCode d) v m = { t.put 0 0 (xCode d) v m with var := es } := by
  have hd : xCode d < 0x20 := d.isLt
  rw [← Ctx.putNow_eq, ← Ctx.putNow_eq]
  unfold Ctx.putNow Ctx.wcode Ctx.wx
  rw [if_pos hd, if_pos hd]
  dsimp only
  split <;> rfl

/-- A word written into x[d] at once, whatever of the context but its registers differs. -/
theorem xSameBut_put {t u : Ctx} {d : Reg} {v : Word} (hx : u.x = (t.put 0 0 (xCode d) (v.setWidth 1024) allBits).x)
    (hp : u.pend = (t.put 0 0 (xCode d) (v.setWidth 1024) allBits).pend) (hv : u.v = t.v) (hpr : u.p = t.p) :
    (∀ cy, u.xAt cy d = if d = 0 then 0 else v) ∧ XSameBut d t u := by
  have hd := d.isLt
  have honly := Ctx.putX_only t 0 0 d (v.setWidth 1024) allBits
  refine ⟨fun cy => ?_, fun cy r hr => ?_, fun cy r => ?_, fun cy r => ?_⟩
  · rw [Ctx.xAt_congr hx hp]
    exact Ctx.xAt_put_same t 0 0 d v cy (Nat.zero_le cy)
  · rw [Ctx.xAt_congr hx hp]
    exact Ctx.xAt_put_other t 0 0 (xCode d) _ _ cy r fun h => hr (BitVec.eq_of_toNat_eq h.symm)
  · rw [Ctx.vAt_congr (hv.trans (by rw [honly])) hp]
    exact Ctx.vAt_put_other t 0 0 (xCode d) _ _ cy r (by unfold xCode; omega)
  · rw [Ctx.pAt_congr (hpr.trans (by rw [honly])) hp]
    exact Ctx.pAt_put_other t 0 0 (xCode d) _ _ cy r (by unfold xCode; omega)

/-- Settles O44: promotion, send queue and late result by the equations above; an illegal encoding is its fault by definition. -/
theorem coreEvents : Obligations.CoreEvents := by
  intro s n c m ms e es v d k t
  refine ⟨fun hrun hwait => ?_, fun hwait => next_congr (promote_early hwait), fun hq => ?_,
    fun hq hdie hreach hnote => ?_, fun hvar he hfree hsaved => ?_, rfl, rfl, rfl⟩
  · exact ⟨_, next_congr (promote_of hrun hwait), rfl, ctxAt_setCtx_same .., fun x y hxy => ctxAt_setCtx_other _ _ hxy⟩
  · show Host.Outcome.next (if dieDead s (dieOf n) then s else leaveQueue s n) = _
    rw [leaveQueue_empty hq, ite_self]
  · have hleave : exec (.sendQueueEntryLeaves n) s =
        .next (transmit (queueLeft s n ms) n m.dst (msgNet m) m.part m.inc false (.msg m)) := by
      show Host.Outcome.next (if dieDead s (dieOf n) then s else leaveQueue s n) = _
      rw [hdie, leaveQueue_of hq hreach hnote]
      rfl
    obtain ⟨q, hflight, hbody, hsrc, hdst, -⟩ := transmit_packet (queueLeft s n ms) n m.dst (msgNet m) m.part m.inc false
      (b := .msg m) fun _ => rfl
    refine ⟨_, q, hleave, transmit_mem .., transmit_full .., ?_, hflight, hbody, hsrc, hdst, fun hst hcause => ?_⟩
    · rw [coreAt_transmit, queueLeft_sendq]
    · rw [ctxAt_transmit, ctxAt_queueLeft, Ctx.woken, if_pos ⟨hst, hcause⟩]
  · subst he
    have hdone := varDone_of hvar hfree hsaved
    rw [Ctx.putX_var] at hdone
    generalize hw : t.put 0 0 (xCode d) (v.setWidth 1024) allBits = w at hdone
    have hput := Ctx.putX_only t 0 0 d (v.setWidth 1024) allBits
    have hwake := Ctx.replyWake_only { w with var := es }
    rw [hw] at hput
    refine ⟨_, next_congr hdone, rfl, rfl, fun x y hxy => ctxAt_setCtx_other _ _ hxy, ?_⟩
    rw [ctxAt_setCtx_same]
    exact ⟨by rw [hwake], xSameBut_put (by rw [hwake, hw]) (by rw [hwake, hw]) (by rw [hwake, hput]) (by rw [hwake, hput])⟩

end Sys2Proof.Machine

/-! ## Acceptance and refusal (R26-R30, R50) -/

namespace Sys2Proof.Machine

/-! ### A message accepted -/

/-- An inbox with one message more, and a wake. -/
theorem wakesOnly_acceptMsg (s : State) (m : Msg) (slots : Nat) :
    WakesOnly (setCore s m.dst { coreAt s m.dst with
      inbox := (coreAt s m.dst).inbox ++ [⟨m, slots, (coreAt s m.dst).order⟩]
      order := (coreAt s m.dst).order + 1 }) (acceptMsg s m slots) := wakesOnly_wakeHalted ..

@[simp] theorem acceptMsg_mem (s : State) (m : Msg) (slots : Nat) : (acceptMsg s m slots).mem = s.mem :=
  (wakesOnly_acceptMsg s m slots).mem
@[simp] theorem acceptMsg_flight (s : State) (m : Msg) (slots : Nat) : (acceptMsg s m slots).flight = s.flight :=
  (wakesOnly_acceptMsg s m slots).flight
@[simp] theorem acceptMsg_inbox (s : State) (m : Msg) (slots : Nat) : (coreAt (acceptMsg s m slots) m.dst).inbox =
    (coreAt s m.dst).inbox ++ [⟨m, slots, (coreAt s m.dst).order⟩] := by
  rw [(wakesOnly_acceptMsg s m slots).inbox, coreAt_setCore_same]
@[simp] theorem acceptMsg_order (s : State) (m : Msg) (slots : Nat) :
    (coreAt (acceptMsg s m slots) m.dst).order = (coreAt s m.dst).order + 1 := by
  rw [(wakesOnly_acceptMsg s m slots).order, coreAt_setCore_same]
@[simp] theorem acceptMsg_resv (s : State) (m : Msg) (slots : Nat) :
    (coreAt (acceptMsg s m slots) m.dst).resv = (coreAt s m.dst).resv := by
  rw [(wakesOnly_acceptMsg s m slots).resv, coreAt_setCore_same]
@[simp] theorem acceptMsg_rplyWait (s : State) (m : Msg) (slots : Nat) :
    (coreAt (acceptMsg s m slots) m.dst).rplyWait = (coreAt s m.dst).rplyWait := by
  rw [(wakesOnly_acceptMsg s m slots).rplyWait, coreAt_setCore_same]

/-! ### A reservation freed, unreserved slots granted -/

theorem wakesOnly_releaseResv (s : State) (n id : Nat) :
    WakesOnly (setCore s n { coreAt s n with resv := (coreAt s n).resv.filter fun x => x != id }) (releaseResv s n id) :=
  wakesOnly_wakeAll ..

theorem grantSlots_none {s : State} {n : Nat} (h : (coreAt s n).rplyWait = []) (count : Nat) : grantSlots s n count = s := by
  cases count with
  | zero => rfl
  | succ count => simp [grantSlots, h]

theorem grantSlots_full {s : State} {n : Nat} (h : 16 ≤ unreservedUsed (coreAt s n)) (count : Nat) : grantSlots s n count = s := by
  cases count with
  | zero => rfl
  | succ count =>
    unfold grantSlots
    dsimp only
    split
    · rfl
    · exact if_neg (Nat.not_lt.2 h)

/-- The one message that waits for a slot takes it. -/
theorem grantSlots_one {s : State} {n : Nat} {w : Msg} (hwait : (coreAt s n).rplyWait = [w]) (hdst : w.dst = n)
    (hroom : unreservedUsed (coreAt s n) < 16) (count : Nat) :
    grantSlots s n (count + 1) = acceptMsg (setCore s n { coreAt s n with rplyWait := [] }) w 0 := by
  subst hdst
  simp only [grantSlots, hwait, if_pos hroom]
  exact grantSlots_none (by simp) count

/-! ### A message refused -/

theorem refusalReason_lt (s : State) (m : Msg) : refusalReason s m < 4 := by
  unfold refusalReason
  dsimp only
  split_ifs <;> omega

/-- The reason stands in the two top bits of the header (R30). -/
theorem reason_of_header (h : Word) {r : Nat} (hr : r < 4) :
    ((h &&& BitVec.ofNat 64 0x3FFFFFFFFFFFFFFF) ||| BitVec.ofNat 64 (r * 2 ^ 62)).toNat / 2 ^ 62 = r := by
  have hlow : (h.toNat &&& 0x3FFFFFFFFFFFFFFF) >>> 62 = 0 := by
    rw [Nat.shiftRight_and_distrib]
    exact Nat.and_zero _
  have hhigh : r * 2 ^ 62 % 2 ^ 64 / 2 ^ 62 = r := by omega
  rw [BitVec.toNat_or, BitVec.toNat_and, BitVec.toNat_ofNat, BitVec.toNat_ofNat, ← Nat.shiftRight_eq_div_pow,
    Nat.shiftRight_or_distrib, Nat.shiftRight_eq_div_pow (r * 2 ^ 62 % 2 ^ 64), hhigh]
  exact (congrArg (· ||| r) hlow).trans (Nat.zero_or r)

theorem refuseMsg_packet (s : State) (m : Msg) (id : Nat) {reason : Nat} (hr : reason < 4) :
    ∃ p r, (refuseMsg s m id reason).flight = s.flight ++ [p] ∧ p.body = .msg r ∧ p.dst = m.src ∧ p.net = .rply ∧
      r.kind = .refusal id ∧ r.cls = 62 ∧ r.args.head? = some m.dest ∧ (r.args.getD 1 0).toNat / 2 ^ 62 = reason := by
  unfold refuseMsg answerMsg
  obtain ⟨p, hflight, hbody, -, hdst, hnet⟩ := transmit_packet s m.dst m.src .rply m.part m.inc false (b := .msg _) fun _ => rfl
  exact ⟨p, _, hflight, hbody, hdst, hnet, rfl, rfl, rfl, reason_of_header m.hdr hr⟩

/-! ### Arrivals -/

theorem dispatchAll_none {s : State} {n : Nat} (h : nextWork s n = none) : dispatchAll s n = s := by
  simp [dispatchAll, dispatchMany, h]

theorem msgArrival_held {s : State} {k : Nat} {q : Packet} (htake : takeAt s k = .yes q) (hheld : codeHeld s q = true)
    (rply : Bool) : msgArrival s k rply = s := by
  simp only [msgArrival, htake]
  split
  · exact if_pos (.inr (.inr hheld))
  · rfl

/-- A message whose turn it is, on its own network, reaches the inbox after what could be dispatched (R32). -/
theorem msgArrival_of {s : State} {k : Nat} {q : Packet} {m : Msg} (htake : takeAt s k = .yes q) (hbody : q.body = .msg m)
    (hnear : q.near = true) (hheld : codeHeld s q = false) (hlive : stale s q = false) {rply : Bool}
    (hnet : (q.net == .rply) = rply) : msgArrival s k rply = arriveMsg (dispatchAll (removeAt s k) m.dst) m := by
  simp [msgArrival, htake, hbody, hnear, hheld, hlive, hnet]

theorem arriveMsg_request {s : State} {m : Msg} {id : Nat} (h : m.kind = .request id) : arriveMsg s m =
    if refusalReason s m = 0 then acceptMsg s m (generalSlots m) else refuseMsg s m id (refusalReason s m) := by
  simp [arriveMsg, h]

theorem arriveMsg_reply {s : State} {m : Msg} {id : Nat} (h : m.kind = .reply id) (hres : (coreAt s m.dst).resv.contains id = true) :
    arriveMsg s m = acceptMsg s m 0 := by
  simp only [arriveMsg, h]
  exact if_pos hres

theorem arriveMsg_empty {s : State} {m : Msg} {id : Nat} (h : m.kind = .empty id) : arriveMsg s m = releaseResv s m.dst id := by
  simp [arriveMsg, h]

theorem arriveMsg_unreserved {s : State} {m : Msg} (h : m.kind = .unreserved) : arriveMsg s m =
    grantSlots (setCore s m.dst { coreAt s m.dst with rplyWait := (coreAt s m.dst).rplyWait ++ [m] }) m.dst 16 := by
  simp [arriveMsg, h]

/-- Settles O20: an arrival is that of `arriveMsg` after the dispatches, and each kind of message has its equation there. -/
theorem inboxesAccept : Obligations.InboxesAccept := by
  refine ⟨?_, ?_⟩
  · intro s k q m id htake hbody hnear hnet hkind _ u c
    refine ⟨fun hheld => next_congr (msgArrival_held htake hheld false),
      fun hheld hlive => ⟨dispatchAll_none, fun hok => ?_, fun hbad => ?_⟩⟩
    all_goals
      have harrive := (msgArrival_of htake hbody hnear hheld hlive (rply := false) (by simpa using hnet)).trans
        (arriveMsg_request hkind)
    · exact ⟨_, next_congr (harrive.trans (if_pos hok)), acceptMsg_mem .., acceptMsg_flight .., acceptMsg_inbox ..,
        acceptMsg_order ..⟩
    · obtain ⟨p, r, hflight, hrest⟩ := refuseMsg_packet u m id (refusalReason_lt u m)
      exact ⟨_, p, r, next_congr (harrive.trans (if_neg hbad)), transmit_mem .., congrArg Core.inbox (coreAt_transmit ..),
        hflight, hrest⟩
  · intro s k q m id htake hbody hnear hnet hheld hlive u c
    have harrive := msgArrival_of htake hbody hnear hheld hlive (rply := true) (by simpa using hnet)
    refine ⟨fun hkind hres => ?_, fun hkind => ?_, fun hkind hwait hroom => ?_, fun hkind hfull => ?_⟩
    · exact ⟨_, next_congr (harrive.trans (arriveMsg_reply hkind hres)), acceptMsg_mem .., acceptMsg_inbox .., acceptMsg_resv ..⟩
    · have hwake := wakesOnly_releaseResv u m.dst id
      refine ⟨_, next_congr (harrive.trans (arriveMsg_empty hkind)), hwake.mem, ?_, ?_⟩
      · rw [hwake.inbox, coreAt_setCore_same]
      · rw [hwake.resv, coreAt_setCore_same]
    all_goals
      have hturn := harrive.trans (arriveMsg_unreserved hkind)
    · have hgrant := grantSlots_one (s := setCore u m.dst { c with rplyWait := c.rplyWait ++ [m] }) (n := m.dst) (w := m)
        (by simp [hwait]) rfl (by rw [coreAt_setCore_same]; exact hroom) 15
      exact ⟨_, next_congr (hturn.trans hgrant), acceptMsg_mem .., by simp [c], by simp⟩
    · have hgrant := grantSlots_full (s := setCore u m.dst { c with rplyWait := c.rplyWait ++ [m] }) (n := m.dst)
        (by rw [coreAt_setCore_same]; exact hfull) 16
      exact ⟨_, next_congr (hturn.trans hgrant), rfl, by simp [c], by simp⟩

end Sys2Proof.Machine

/-! ## Dispatch (R24, R27, R28, R32, R33, R40, R199, R200) -/

namespace Sys2Proof.Machine

/-! ### What a core's own name and class table depend on -/

theorem findVirt_congr {s t : State} (pkg part phys : Nat) (h : ∀ v, physPkg t pkg part v = physPkg s pkg part v) (count : Nat) :
    findVirt t pkg part phys count = findVirt s pkg part phys count := by
  induction count with
  | zero => rfl
  | succ count ih => simp only [findVirt, ih, h]

/-- The names of cores depend on the service block of the package alone: on its bytes, and on which of them are listed. -/
theorem coreAdr_congr_service {s t : State} {n : Nat}
    (hget : ∀ off, Memory.get t.mem (sliceKey (serviceCore (pkgOf n)) off) = Memory.get s.mem (sliceKey (serviceCore (pkgOf n)) off))
    (hcells : ∀ c : Host.Cell, sliceKey (serviceCore (pkgOf n)) 0 ≤ c.1 → (c ∈ t.mem ↔ c ∈ s.mem)) (m : Nat) :
    coreAdr t n m = coreAdr s n m := by
  have hphys (part v : Nat) : physPkg t (pkgOf n) part v = physPkg s (pkgOf n) part v := by
    have hnext (off : Nat) : sliceKey (serviceCore (pkgOf n)) off + 1 = sliceKey (serviceCore (pkgOf n)) (off + 1) := Nat.add_assoc ..
    simp only [physPkg, svcWord, Memory.read, hnext, hget]
  have hany : (t.mem.any fun c => decide (sliceKey (serviceCore (pkgOf n)) 0x1000 ≤ c.1) &&
      decide (c.1 < sliceKey (serviceCore (pkgOf n)) 0xD000)) =
      (s.mem.any fun c => decide (sliceKey (serviceCore (pkgOf n)) 0x1000 ≤ c.1) &&
        decide (c.1 < sliceKey (serviceCore (pkgOf n)) 0xD000)) := by
    rw [Bool.eq_iff_iff, List.any_eq_true, List.any_eq_true]
    refine exists_congr fun c => and_congr_left fun hc => hcells c ?_
    have hlow := of_decide_eq_true ((Bool.and_eq_true _ _).mp hc).1
    exact Nat.le_trans (Nat.le_add_right _ 0x1000) hlow
  have hpart : isSupCore n = false → partNum t n = partNum s n := fun hn => by simp [partNum, hn, svcByte, hget]
  unfold coreAdr virtPkg
  cases hn : isSupCore n with
  | true => rfl
  | false => simp only [hpart hn, hphys, hany, findVirt_congr _ _ _ (hphys _)]

theorem coreAdr_congr {s t : State} (h : t.mem = s.mem) (n m : Nat) : coreAdr t n m = coreAdr s n m :=
  coreAdr_congr_service (fun _ => by rw [h]) (fun _ _ => by rw [h]) m

theorem classWord_congr {s t : State} (h : t.mem = s.mem) (n cls : Nat) : classWord t n cls = classWord s n cls := by
  rw [classWord, h, classWord]

theorem replyAdr_congr {s t : State} (h : t.mem = s.mem) (n : Nat) (m : Msg) (id : Nat) : replyAdr t n m id = replyAdr s n m id := by
  rw [replyAdr, coreAdr_congr h, replyAdr]

/-! ### Activation (R33) -/

/-- The context that an activation starts. -/
def activation (s : State) (n c cls prio : Nat) (args : List Word) (src rply : Word) (owes c63 : Bool) (vec : Vec16) : Ctx :=
  let old := ctxAt s n c
  let e := classWord s n cls
  { Ctx.reset n c with
    st := .running
    act := s.serial
    cls := cls
    prio := prio
    c63 := c63
    ldr := nbits e 31 1 == 1
    owes := owes
    job := nbits e 48 16
    win := classWin e
    pol := nbits e 43 1 == 1
    pc := BitVec.ofNat 64 (2 * nbits e 0 15)
    x := Vector.ofFn fun i : Fin 32 =>
      if i.val = 2 then BitVec.ofNat 64 (0xC000000000000000 + classWin e)
      else if 8 ≤ i.val ∧ i.val < 16 then args.getD (i.val - 8) 0 else 0
    srcadr := src
    rplyadr := rply
    seed := old.seed
    dep := vec
    epc := old.epc
    emode := old.emode
    scause := old.scause
    stval := old.stval }

/-- An activation sets its context, once its job has had work. -/
theorem activate_eq (s : State) (n c cls prio : Nat) (args : List Word) (src rply : Word) (owes c63 : Bool) (vec : Vec16) :
    activate s n c cls prio args src rply owes c63 vec =
      setCtx (noteWork { s with serial := s.serial + 1 } n (nbits (classWord s n cls) 48 16)) n c
        (activation s n c cls prio args src rply owes c63 vec) := rfl

@[simp] theorem ctxAt_activate_same (s : State) (n c cls prio : Nat) (args : List Word) (src rply : Word) (owes c63 : Bool)
    (vec : Vec16) : ctxAt (activate s n c cls prio args src rply owes c63 vec) n c =
      activation s n c cls prio args src rply owes c63 vec := by
  rw [activate_eq, ctxAt_setCtx_same]

theorem ctxAt_activate_other (s : State) (n c cls prio : Nat) (args : List Word) (src rply : Word) (owes c63 : Bool)
    (vec : Vec16) {m d : Nat} (h : ¬(m = n ∧ d = c)) :
    ctxAt (activate s n c cls prio args src rply owes c63 vec) m d = ctxAt s m d := by
  rw [activate_eq, ctxAt_setCtx_other _ _ h, ctxAt_noteWork]
  rfl

/-- Beside the number that it takes, an activation changes contexts and work alone. -/
theorem wakesOnly_activate (s : State) (n c cls prio : Nat) (args : List Word) (src rply : Word) (owes c63 : Bool) (vec : Vec16) :
    WakesOnly { s with serial := s.serial + 1 } (activate s n c cls prio args src rply owes c63 vec) := by
  rw [activate_eq]
  exact (wakesOnly_noteWork ..).trans (wakesOnly_setCore _ n _ _)

/-- x2 is the top of the window, x8 to x15 the arguments, and every other x register reads zero. -/
theorem activation_rx (s : State) (n c cls prio : Nat) (args : List Word) (src rply : Word) (owes c63 : Bool) (vec : Vec16) (r : Reg) :
    (activation s n c cls prio args src rply owes c63 vec).rx r =
      if r = 2 then BitVec.ofNat 64 (0xC000000000000000 + classWin (classWord s n cls))
      else if 8 ≤ r.toNat ∧ r.toNat < 16 then args.getD (r.toNat - 8) 0 else 0 := by
  have htwo : r.toNat = 2 ↔ r = 2 := ⟨fun h => BitVec.eq_of_toNat_eq h, fun h => by rw [h]; rfl⟩
  by_cases hr : r = 0
  · subst hr; simp [Ctx.rx]
  · rw [Ctx.rx, if_neg hr]
    simp [activation, Vector.get_eq_getElem, htwo]

theorem activation_rv (s : State) (n c cls prio : Nat) (args : List Word) (src rply : Word) (owes c63 : Bool) (vec : Vec16) (r : VReg) :
    (activation s n c cls prio args src rply owes c63 vec).rv r = 0 := by
  simp [Ctx.rv, activation, Ctx.reset, Vector.get_eq_getElem]

/-- In `t`, context `c` of core `n` of `s` has been started on work of a class, with a priority, arguments, sender and reply
address, and no other context, bit or packet has changed (R33). -/
def Started (s : State) (n c cls prio : Nat) (args : Nat → Word) (src rply : Word) (t : State) : Prop :=
  let w := classWord s n cls
  let x := ctxAt t n c
  x.st = .running ∧ x.cls = cls ∧ x.prio = prio ∧ x.pc = BitVec.ofNat 64 (2 * nbits w 0 15) ∧ x.job = nbits w 48 16 ∧
  x.win = classWin w ∧ x.c63 = (cls == 63) ∧ x.srcadr = src ∧ x.rplyadr = rply ∧ x.replied = false ∧ x.loops = [] ∧ x.round = 0 ∧
  x.sflags = 0 ∧ x.rslots = [] ∧ x.acks = [] ∧ x.seed = (ctxAt s n c).seed ∧
  (∀ r : Reg, x.rx r = if r = 2 then BitVec.ofNat 64 (0xC000000000000000 + classWin w)
    else if 8 ≤ r.toNat ∧ r.toNat < 16 then args (r.toNat - 8) else 0) ∧
  (∀ r, x.rv r = 0) ∧ x.check = false ∧ x.lanef = Vector.replicate 32 0 ∧
  (∀ m d, ¬(m = n ∧ d = c) → ctxAt t m d = ctxAt s m d) ∧ t.full = s.full ∧ t.flight = s.flight

/-- What was done before an activation: the core's queues have changed, but no byte, bit, packet or context. -/
structure Readied (s t : State) : Prop where
  mem : t.mem = s.mem
  full : t.full = s.full
  flight : t.flight = s.flight
  ctx : ∀ m d, ctxAt t m d = ctxAt s m d

theorem readied_setCore {s : State} {n : Nat} {k : Core} (h : k.ctxs = (coreAt s n).ctxs) : Readied s (setCore s n k) :=
  ⟨rfl, rfl, rfl, ctxAt_setCore h⟩

/-- A context that stands as its activation left it, but for the registers of a fault, has been started. -/
theorem started_of {s t u : State} (h : Readied s t) {n c cls prio : Nat} {args : List Word} {src rply : Word} {owes : Bool} {vec : Vec16}
    (hx : ctxAt u n c = { activation t n c cls prio args src rply owes (cls == 63) vec with
      fltcode := (ctxAt u n c).fltcode
      fltadr := (ctxAt u n c).fltadr
      fltctx := (ctxAt u n c).fltctx
      fltpc := (ctxAt u n c).fltpc })
    (hother : ∀ m d, ¬(m = n ∧ d = c) → ctxAt u m d = ctxAt t m d) (hfull : u.full = t.full) (hflight : u.flight = t.flight) :
    Started s n c cls prio (fun j => args.getD j 0) src rply u := by
  unfold Started
  rw [hx, ← classWord_congr h.mem n cls, ← h.ctx n c]
  exact ⟨rfl, rfl, rfl, rfl, rfl, rfl, rfl, rfl, rfl, rfl, rfl, rfl, rfl, rfl, rfl, rfl,
    fun r => activation_rx t n c cls prio args src rply owes (cls == 63) vec r,
    fun r => activation_rv t n c cls prio args src rply owes (cls == 63) vec r, rfl, rfl,
    fun m d hmd => (hother m d hmd).trans (h.ctx m d), hfull.trans h.full, hflight.trans h.flight⟩

theorem started_activate {s t : State} (h : Readied s t) (n c cls prio : Nat) (args : List Word) (src rply : Word) (owes : Bool)
    (vec : Vec16) : Started s n c cls prio (fun j => args.getD j 0) src rply
      (activate t n c cls prio args src rply owes (cls == 63) vec) := by
  have hw := wakesOnly_activate t n c cls prio args src rply owes (cls == 63) vec
  exact started_of h (by rw [ctxAt_activate_same]) (fun m d hmd => ctxAt_activate_other _ _ _ _ _ _ _ _ _ _ _ hmd) hw.full hw.flight

/-! ### The three kinds of work -/

/-- What the slot of a dispatched message does: a reply's reservation is freed, and an unreserved slot is granted anew. -/
def freeSlot (s : State) (n : Nat) : MsgKind → State
  | .reply id => releaseResv s n id
  | .refusal id => releaseResv s n id
  | .unreserved => grantSlots s n 16
  | _ => s

/-- %RPLYADR of the activation of a message. -/
def replyTo (s : State) (n : Nat) (m : Msg) : MsgKind → Word
  | .request id => replyAdr s n m id
  | _ => 0

theorem replyTo_congr {s t : State} (h : t.mem = s.mem) (n : Nat) (m : Msg) (kind : MsgKind) :
    replyTo t n m kind = replyTo s n m kind := by
  cases kind <;> simp only [replyTo, replyAdr_congr h]

/-- Does the activation of a message owe its sender an answer (R27)? -/
def owesAnswer : MsgKind → Bool
  | .request _ => true
  | _ => false

/-- A core whose message at place `i` has been taken, with what its slot does. -/
def msgTaken (s : State) (n i : Nat) (kind : MsgKind) : State :=
  freeSlot (setCore s n { coreAt s n with inbox := (coreAt s n).inbox.eraseIdx i }) n kind

/-- The activation of a message, before its payload is written. -/
def msgStarted (s : State) (n c i : Nat) (e : InMsg) : State :=
  let t := msgTaken s n i e.msg.kind
  activate t n c e.msg.cls (effPrio s n e.msg) (e.msg.args.take e.msg.narg) (coreAdr t n e.msg.src)
    (replyTo t n e.msg e.msg.kind) (owesAnswer e.msg.kind) (e.msg.cls == 63) e.msg.vec

theorem startMsg_of {s : State} {n i : Nat} {e : InMsg} (h : (coreAt s n).inbox[i]? = some e) (c : Nat) :
    startMsg s n c i = { msgStarted s n c i e with
      mem := Memory.putBytes (msgStarted s n c i e).mem (sliceKey n (0x300000 + 0x10000 * c)) e.msg.payload } := by
  simp only [startMsg, h, msgStarted, msgTaken]
  cases e.msg.kind <;> simp only [freeSlot, replyTo, owesAnswer]

/-- Of its core, a message that starts changes what its slot does, beside contexts and work. -/
theorem startMsg_core {s : State} {n i : Nat} {e : InMsg} (h : (coreAt s n).inbox[i]? = some e) (c m : Nat) :
    coreAt (startMsg s n c i) m = { coreAt (msgTaken s n i e.msg.kind) m with
      ctxs := (coreAt (startMsg s n c i) m).ctxs
      work := (coreAt (startMsg s n c i) m).work } := by
  rw [startMsg_of h]
  exact (wakesOnly_activate ..).core m

/-- A message whose slot changes nothing but queues starts its context, with its payload in the window. -/
theorem startMsg_started {s : State} {n i : Nat} {e : InMsg} (h : (coreAt s n).inbox[i]? = some e)
    (hready : Readied s (msgTaken s n i e.msg.kind)) (c : Nat) :
    Started s n c e.msg.cls (effPrio s n e.msg) (fun j => (e.msg.args.take e.msg.narg).getD j 0) (coreAdr s n e.msg.src)
        (replyTo s n e.msg e.msg.kind) (startMsg s n c i) ∧
      (ctxAt (startMsg s n c i) n c).owes = owesAnswer e.msg.kind ∧
      (startMsg s n c i).mem = Memory.putBytes s.mem (sliceKey n (0x300000 + 0x10000 * c)) e.msg.payload := by
  have hmem : (msgStarted s n c i e).mem = s.mem := (wakesOnly_activate ..).mem.trans hready.mem
  have hstarted : Started s n c e.msg.cls (effPrio s n e.msg) (fun j => (e.msg.args.take e.msg.narg).getD j 0)
      (coreAdr s n e.msg.src) (replyTo s n e.msg e.msg.kind) (msgStarted s n c i e) := by
    rw [← coreAdr_congr hready.mem, ← replyTo_congr hready.mem]
    exact started_activate hready ..
  have howes : (ctxAt (msgStarted s n c i e) n c).owes = owesAnswer e.msg.kind := congrArg Ctx.owes (ctxAt_activate_same ..)
  rw [startMsg_of h, hmem]
  exact ⟨hstarted, howes, rfl⟩

theorem Readied.trans {s t u : State} (h : Readied s t) (h' : Readied t u) : Readied s u :=
  ⟨h'.mem.trans h.mem, h'.full.trans h.full, h'.flight.trans h.flight, fun m d => (h'.ctx m d).trans (h.ctx m d)⟩

/-- A reservation is freed where no context waits to send. -/
theorem readied_releaseResv {s : State} {n : Nat} (h : ∀ d, (ctxAt s n d).cause ≠ .send) (id : Nat) :
    Readied s (releaseResv s n id) := by
  have hset : Readied s (setCore s n { coreAt s n with resv := (coreAt s n).resv.filter fun x => x != id }) :=
    readied_setCore (by rfl)
  have hwake := wakesOnly_wakeAll (setCore s n { coreAt s n with resv := (coreAt s n).resv.filter fun x => x != id }) n .send
  exact hset.trans ⟨hwake.mem, hwake.full, hwake.flight, ctxAt_wakeAll_none fun d => by rw [hset.ctx]; exact h d⟩

/-- The activation of an upcall, whose notices none waits to follow: class 63, with the fault in its registers (R199). -/
theorem startUpcall_of {s : State} {n : Nat} {u : Upcall} {us : List Upcall} (hup : (coreAt s n).upcalls = u :: us)
    (hheld : (coreAt s n).noticeHeld = []) (c : Nat) :
    let r := setCore s n { coreAt s n with upcalls := us }
    let t := activate r n c 63 (nbits (classWord r n 63) 40 2) [] (coreAdr r n n) 0 false (63 == 63) zeroVec
    startUpcall s n c = setCtx t n c { ctxAt t n c with fltcode := u.code, fltadr := u.adr, fltctx := u.ctx, fltpc := u.pc } := by
  simp only [startUpcall, hup, hheld]
  rfl

/-- The activation of the record at the bottom of the deque (R40). -/
theorem startTask_of {s : State} {n : Nat} {tk : Task} {tks : List Task} (hdeque : (coreAt s n).deque = tk :: tks) (c : Nat) :
    let h := (tk.words.headD 0).toNat
    let r := setCore s n { coreAt s n with deque := tks }
    startTask s n c = activate r n c (h % 64) (nbits (classWord r n (h % 64)) 40 2) (tk.words.tail.take (h / 64 % 8))
      (coreAdr r n tk.src) 0 false (h % 64 == 63) tk.vec := by
  simp only [startTask, hdeque]

end Sys2Proof.Machine

/-! ### What a dispatch takes (R32) -/

namespace Sys2Proof.Machine

/-- May a core start work of a class: is it enabled, and is a context left that class 63 does not keep (R24)? -/
def HasRoom (s : State) (n cls : Nat) : Prop := classEn s n cls = true ∧ (othersUsed s n < 15 ∨ cls = 63)

/-- A candidate by its priority and acceptance number: a message of a class with room, or the oldest upcall record. -/
def Candidate (s : State) (n prio order : Nat) : Prop :=
  (∃ f ∈ (coreAt s n).inbox, HasRoom s n f.msg.cls ∧ prio = effPrio s n f.msg ∧ order = f.order) ∨
    ∃ u us, (coreAt s n).upcalls = u :: us ∧ HasRoom s n 63 ∧ prio = nbits (classWord s n 63) 40 2 ∧ order = u.order

/-- The candidates as the model lists them. -/
def candidates (s : State) (n : Nat) : List (Nat × Nat × Work) := workList s n (decide (othersUsed s n < 15))

theorem mem_zip_range {α : Type} (l : List α) (i : Nat) (a : α) : (i, a) ∈ (List.range l.length).zip l ↔ l[i]? = some a := by
  simp only [List.mem_iff_getElem?, List.getElem?_zip_eq_some]
  refine ⟨fun ⟨j, hj, ha⟩ => ?_, fun h => ?_⟩
  · obtain ⟨hlt, rfl⟩ := List.getElem?_eq_some_iff.1 hj
    simpa using ha
  · obtain ⟨hlt, -⟩ := List.getElem?_eq_some_iff.1 h
    exact ⟨i, by simp [hlt], h⟩

theorem hasRoom_iff (s : State) (n cls : Nat) :
    HasRoom s n cls ↔ (classEn s n cls && (decide (othersUsed s n < 15) || cls == 63)) = true := by
  simp [HasRoom]

/-- Each candidate is a message at its place in the inbox, or the first upcall record. -/
theorem mem_candidates {s : State} {n p o : Nat} {w : Work} : (p, o, w) ∈ candidates s n ↔
    (∃ i e, (coreAt s n).inbox[i]? = some e ∧ HasRoom s n e.msg.cls ∧ p = effPrio s n e.msg ∧ o = e.order ∧ w = .msg i) ∨
      ∃ u us, (coreAt s n).upcalls = u :: us ∧ HasRoom s n 63 ∧ p = nbits (classWord s n 63) 40 2 ∧ o = u.order ∧ w = .upc 0 := by
  unfold candidates workList
  rw [List.mem_append]
  refine or_congr ?_ ?_
  · simp only [List.mem_filterMap, Prod.exists, mem_zip_range, hasRoom_iff]
    refine exists_congr fun i => exists_congr fun e => and_congr_right fun _ => ?_
    split
    · next h => simp [h, eq_comm]
    · next h => simp [h]
  · cases h : (coreAt s n).upcalls with
    | nil => simp
    | cons u us =>
      dsimp only
      constructor
      · intro hmem
        split at hmem
        · next hen =>
          obtain ⟨rfl, rfl, rfl⟩ : p = nbits (classWord s n 63) 40 2 ∧ o = u.order ∧ w = .upc 0 := by simpa using hmem
          exact ⟨u, us, rfl, ⟨hen, .inr rfl⟩, rfl, rfl, rfl⟩
        · cases hmem
      · rintro ⟨u', us', heq, ⟨hen, -⟩, rfl, rfl, rfl⟩
        obtain ⟨rfl, rfl⟩ := List.cons.inj heq
        simp [hen]

theorem candidate_iff {s : State} {n p o : Nat} : Candidate s n p o ↔ ∃ w, (p, o, w) ∈ candidates s n := by
  constructor
  · rintro (⟨f, hf, hroom, hp, ho⟩ | ⟨u, us, hup, hroom, hp, ho⟩)
    · obtain ⟨i, hi⟩ := List.getElem?_of_mem hf
      exact ⟨.msg i, mem_candidates.2 (.inl ⟨i, f, hi, hroom, hp, ho, rfl⟩)⟩
    · exact ⟨.upc 0, mem_candidates.2 (.inr ⟨u, us, hup, hroom, hp, ho, rfl⟩)⟩
  · rintro ⟨w, hw⟩
    rcases mem_candidates.1 hw with ⟨i, e, hi, hroom, hp, ho, -⟩ | ⟨u, us, hup, hroom, hp, ho, -⟩
    · exact .inl ⟨e, List.mem_of_getElem? hi, hroom, hp, ho⟩
    · exact .inr ⟨u, us, hup, hroom, hp, ho⟩

/-- One candidate yields to another: of lower priority, or of the same and accepted no earlier. -/
def Yields (x w : Nat × Nat × Work) : Prop := x.1 < w.1 ∨ (x.1 = w.1 ∧ w.2.1 ≤ x.2.1)

theorem Yields.trans {x y z : Nat × Nat × Work} (h : Yields x y) (h' : Yields y z) : Yields x z := by
  unfold Yields at *
  omega

/-- The fold of `bestWork` ends at an element to which every other yields. -/
theorem foldl_best (l : List (Nat × Nat × Work)) (b : Nat × Nat × Work) :
    let w := l.foldl (fun b x => if b.1 < x.1 ∨ (b.1 = x.1 ∧ x.2.1 < b.2.1) then x else b) b
    w ∈ b :: l ∧ ∀ x ∈ b :: l, Yields x w := by
  induction l generalizing b with
  | nil => simp [Yields]
  | cons y l ih =>
    have hstep : ∃ c, (if b.1 < y.1 ∨ (b.1 = y.1 ∧ y.2.1 < b.2.1) then y else b) = c ∧ (c = y ∨ c = b) ∧ Yields b c ∧ Yields y c := by
      refine ⟨_, rfl, ?_⟩
      unfold Yields
      split
      · exact ⟨.inl rfl, by omega, by omega⟩
      · exact ⟨.inr rfl, by omega, by omega⟩
    obtain ⟨c, hc, hor, hb, hy⟩ := hstep
    obtain ⟨hmem, hall⟩ := ih c
    have htop := hall c List.mem_cons_self
    simp only [List.foldl_cons, hc]
    refine ⟨?_, fun x hx => ?_⟩
    · rcases List.mem_cons.1 hmem with h | h
      · rw [h]; rcases hor with rfl | rfl <;> simp
      · simp [h]
    · rcases List.mem_cons.1 hx with rfl | hx
      · exact hb.trans htop
      · rcases List.mem_cons.1 hx with rfl | hx
        · exact hy.trans htop
        · exact hall x (List.mem_cons_of_mem _ hx)

theorem bestWork_some {l : List (Nat × Nat × Work)} {w : Work} (h : bestWork l = some w) :
    ∃ p o, (p, o, w) ∈ l ∧ ∀ x ∈ l, Yields x (p, o, w) := by
  cases l with
  | nil => cases h
  | cons b l =>
    obtain ⟨hmem, hall⟩ := foldl_best l b
    obtain rfl := Option.some.inj h
    exact ⟨_, _, hmem, hall⟩

theorem bestWork_none {l : List (Nat × Nat × Work)} (h : bestWork l = none) : l = [] := by
  cases l with
  | nil => rfl
  | cons b l => cases h

/-- A core that may not dispatch, is out of power, or has no free context takes nothing. -/
theorem nextWork_idle {s : State} {n : Nat} (h : mayDispatch s n = false ∨ dieDead s (dieOf n) = true ∨ freeCtx s n = none) :
    nextWork s n = none := by
  unfold nextWork
  rw [if_pos]
  rcases h with h | h | h <;> simp [h]

/-- The record at the bottom of the deque, if its class has room (R40). -/
def taskWork (s : State) (n : Nat) : Option Work :=
  match (coreAt s n).deque with
  | t :: _ =>
    let cls := (t.words.headD 0).toNat % 64
    if classEn s n cls && (decide (othersUsed s n < 15) || cls == 63) then some .task else none
  | [] => none

theorem taskWork_some {s : State} {n : Nat} {w : Work} : taskWork s n = some w ↔
    w = .task ∧ ∃ t ts, (coreAt s n).deque = t :: ts ∧ HasRoom s n ((t.words.headD 0).toNat % 64) := by
  unfold taskWork
  cases (coreAt s n).deque with
  | nil => simp
  | cons t ts =>
    dsimp only
    constructor
    · intro hw
      split at hw
      · next hen => exact ⟨(Option.some.inj hw).symm, t, ts, rfl, (hasRoom_iff ..).2 hen⟩
      · cases hw
    · rintro ⟨rfl, t', ts', heq, hroom⟩
      obtain ⟨rfl, rfl⟩ := List.cons.inj heq
      rw [if_pos ((hasRoom_iff ..).1 hroom)]

/-- Else it takes the best candidate, and with no candidate a record of its deque. -/
theorem nextWork_ready {s : State} {n : Nat} (hmay : mayDispatch s n = true) (hdie : dieDead s (dieOf n) = false)
    (hfree : freeCtx s n ≠ none) : nextWork s n = (bestWork (candidates s n)).or (taskWork s n) := by
  have hidle : ¬(!mayDispatch s n || dieDead s (dieOf n) || (freeCtx s n).isNone) = true := by
    simp [hmay, hdie, hfree]
  unfold nextWork
  rw [if_neg hidle]
  show (match bestWork (candidates s n) with | some w => some w | none => _) = _
  cases bestWork (candidates s n) <;> rfl

/-- No candidate comes before one of a priority and an acceptance number. -/
def Best (s : State) (n prio order : Nat) : Prop := ∀ p o, Candidate s n p o → p < prio ∨ (p = prio ∧ order ≤ o)

/-- What a core takes is the best candidate, or there is none and it is a record of its deque. -/
theorem nextWork_some {s : State} {n : Nat} {w : Work} (h : nextWork s n = some w) :
    (∃ p o, (p, o, w) ∈ candidates s n ∧ Best s n p o) ∨
      ((∀ p o, ¬Candidate s n p o) ∧ w = .task ∧
        ∃ t ts, (coreAt s n).deque = t :: ts ∧ HasRoom s n ((t.words.headD 0).toNat % 64)) := by
  have hidle (hi : mayDispatch s n = false ∨ dieDead s (dieOf n) = true ∨ freeCtx s n = none) : False := by
    rw [nextWork_idle hi] at h; cases h
  rw [nextWork_ready (Bool.of_not_eq_false fun hm => hidle (.inl hm)) (Bool.of_not_eq_true fun hd => hidle (.inr (.inl hd)))
    fun hf => hidle (.inr (.inr hf))] at h
  cases hbest : bestWork (candidates s n) with
  | some w' =>
    obtain rfl : w' = w := by simpa [hbest] using h
    obtain ⟨p, o, hmem, hall⟩ := bestWork_some hbest
    refine .inl ⟨p, o, hmem, fun p' o' hc => ?_⟩
    obtain ⟨w', hw'⟩ := candidate_iff.1 hc
    exact hall _ hw'
  | none =>
    have hnone := bestWork_none hbest
    refine .inr ⟨fun p o hc => ?_, taskWork_some.1 (by simpa [hbest] using h)⟩
    obtain ⟨w', hw'⟩ := candidate_iff.1 hc
    rw [hnone] at hw'
    cases hw'

/-- A ready core with a candidate takes one; a ready core with a record whose class has room takes something. -/
theorem nextWork_takes {s : State} {n : Nat} (hmay : mayDispatch s n = true) (hdie : dieDead s (dieOf n) = false)
    (hfree : freeCtx s n ≠ none) :
    ((∃ p o, Candidate s n p o) → nextWork s n ≠ none ∧ nextWork s n ≠ some .task) ∧
      ∀ t ts, (coreAt s n).deque = t :: ts → HasRoom s n ((t.words.headD 0).toNat % 64) → nextWork s n ≠ none := by
  have hready := nextWork_ready hmay hdie hfree
  constructor
  · rintro ⟨p, o, hc⟩
    refine ⟨fun hnone => ?_, fun htask => ?_⟩
    · rw [hready, Option.or_eq_none_iff] at hnone
      obtain ⟨w, hw⟩ := candidate_iff.1 hc
      rw [bestWork_none hnone.1] at hw
      cases hw
    · rcases nextWork_some htask with ⟨p', o', hmem, -⟩ | ⟨hno, -⟩
      · rcases mem_candidates.1 hmem with ⟨_, _, _, _, _, _, hw⟩ | ⟨_, _, _, _, _, _, hw⟩ <;> cases hw
      · exact hno p o hc
  · intro t ts hdeque hroom hnone
    rw [hready, Option.or_eq_none_iff] at hnone
    have htask := taskWork_some.2 ⟨rfl, t, ts, hdeque, hroom⟩
    rw [hnone.2] at htask
    cases htask

/-! ### The dispatch itself -/

theorem dispatchCore_none {s : State} {n : Nat} (h : nextWork s n = none) : dispatchCore s n = s := by
  simp [dispatchCore, h]
theorem dispatchCore_msg {s : State} {n c i : Nat} (h : nextWork s n = some (.msg i)) (hfree : freeCtx s n = some c) :
    dispatchCore s n = startMsg s n c i := by simp [dispatchCore, h, hfree]
theorem dispatchCore_upc {s : State} {n c i : Nat} (h : nextWork s n = some (.upc i)) (hfree : freeCtx s n = some c) :
    dispatchCore s n = startUpcall s n c := by simp [dispatchCore, h, hfree]
theorem dispatchCore_task {s : State} {n c : Nat} (h : nextWork s n = some .task) (hfree : freeCtx s n = some c) :
    dispatchCore s n = startTask s n c := by simp [dispatchCore, h, hfree]

/-- A message whose slot does nothing starts, and its place in the inbox is free. -/
theorem startMsg_plain {s : State} {n i : Nat} {e : InMsg} (hi : (coreAt s n).inbox[i]? = some e)
    (htaken : msgTaken s n i e.msg.kind = setCore s n { coreAt s n with inbox := (coreAt s n).inbox.eraseIdx i }) (c : Nat) :
    Started s n c e.msg.cls (effPrio s n e.msg) (fun j => (e.msg.args.take e.msg.narg).getD j 0) (coreAdr s n e.msg.src)
        (replyTo s n e.msg e.msg.kind) (startMsg s n c i) ∧
      (ctxAt (startMsg s n c i) n c).owes = owesAnswer e.msg.kind ∧
      (coreAt (startMsg s n c i) n).inbox = (coreAt s n).inbox.eraseIdx i ∧
      (coreAt (startMsg s n c i) n).resv = (coreAt s n).resv ∧
      (startMsg s n c i).mem = Memory.putBytes s.mem (sliceKey n (0x300000 + 0x10000 * c)) e.msg.payload := by
  obtain ⟨hstart, howes, hmem⟩ := startMsg_started hi (by rw [htaken]; exact readied_setCore (by rfl)) c
  have hcore := startMsg_core hi c n
  rw [htaken, coreAt_setCore_same] at hcore
  exact ⟨hstart, howes, by rw [hcore], by rw [hcore], hmem⟩

/-- An answer starts where no context waits to send: its place in the inbox and its reservation are free. -/
theorem startMsg_answer {s : State} {n i id : Nat} {e : InMsg} (hi : (coreAt s n).inbox[i]? = some e)
    (hkind : e.msg.kind = .reply id ∨ e.msg.kind = .refusal id) (hsend : ∀ y, (ctxAt s n y).cause ≠ .send) (c : Nat) :
    Started s n c e.msg.cls (effPrio s n e.msg) (fun j => (e.msg.args.take e.msg.narg).getD j 0) (coreAdr s n e.msg.src) 0
        (startMsg s n c i) ∧
      (ctxAt (startMsg s n c i) n c).owes = false ∧
      (coreAt (startMsg s n c i) n).inbox = (coreAt s n).inbox.eraseIdx i ∧
      (coreAt (startMsg s n c i) n).resv = (coreAt s n).resv.filter fun y => y != id := by
  have hset : Readied s (setCore s n { coreAt s n with inbox := (coreAt s n).inbox.eraseIdx i }) := readied_setCore (by rfl)
  have htaken : msgTaken s n i e.msg.kind =
      releaseResv (setCore s n { coreAt s n with inbox := (coreAt s n).inbox.eraseIdx i }) n id := by
    rcases hkind with h | h <;> rw [h] <;> rfl
  have hreply : replyTo s n e.msg e.msg.kind = 0 ∧ owesAnswer e.msg.kind = false := by
    rcases hkind with h | h <;> rw [h] <;> exact ⟨rfl, rfl⟩
  have hready := hset.trans (readied_releaseResv (fun d => by rw [hset.ctx]; exact hsend d) id)
  obtain ⟨hstart, howes, -⟩ := startMsg_started hi (by rw [htaken]; exact hready) c
  have hcore := startMsg_core hi c n
  have hwake := wakesOnly_releaseResv (setCore s n { coreAt s n with inbox := (coreAt s n).inbox.eraseIdx i }) n id
  rw [htaken] at hcore
  rw [hreply.1] at hstart
  refine ⟨hstart, howes.trans hreply.2, ?_, ?_⟩
  · rw [congrArg Core.inbox hcore]
    exact (hwake.inbox n).trans (by simp)
  · rw [congrArg Core.resv hcore]
    exact (hwake.resv n).trans (by simp)

/-- The slot of a message without a reservation goes to the one originator that waits (R28). -/
theorem startMsg_grants {s : State} {n i : Nat} {e : InMsg} {w : Msg} (hi : (coreAt s n).inbox[i]? = some e)
    (hkind : e.msg.kind = .unreserved) (hwait : (coreAt s n).rplyWait = [w]) (hdst : w.dst = n)
    (hroom : unreservedUsed { coreAt s n with inbox := (coreAt s n).inbox.eraseIdx i } < 16) (c : Nat) :
    (coreAt (startMsg s n c i) n).rplyWait = [] ∧
      (coreAt (startMsg s n c i) n).inbox = (coreAt s n).inbox.eraseIdx i ++ [⟨w, 0, (coreAt s n).order⟩] := by
  have hgrant := grantSlots_one (s := setCore s n { coreAt s n with inbox := (coreAt s n).inbox.eraseIdx i }) (n := n)
    (by simp [hwait]) hdst (by rw [coreAt_setCore_same]; exact hroom) 15
  have hcore := startMsg_core hi c n
  rw [hkind, show msgTaken s n i .unreserved = _ from hgrant] at hcore
  subst hdst
  exact ⟨(congrArg Core.rplyWait hcore).trans (by simp), (congrArg Core.inbox hcore).trans (by simp)⟩

/-- The oldest upcall record starts in class 63, and the next one is the oldest. -/
theorem startUpcall_started {s : State} {n : Nat} {u : Upcall} {us : List Upcall} (hup : (coreAt s n).upcalls = u :: us)
    (hheld : (coreAt s n).noticeHeld = []) (c : Nat) :
    Started s n c 63 (nbits (classWord s n 63) 40 2) (fun _ => 0) (coreAdr s n n) 0 (startUpcall s n c) ∧
      (startUpcall s n c).mem = s.mem ∧ (coreAt (startUpcall s n c) n).upcalls = us ∧
      (ctxAt (startUpcall s n c) n c).fltcode = u.code ∧ (ctxAt (startUpcall s n c) n c).fltadr = u.adr ∧
      (ctxAt (startUpcall s n c) n c).fltctx = u.ctx ∧ (ctxAt (startUpcall s n c) n c).fltpc = u.pc := by
  have hset : Readied s (setCore s n { coreAt s n with upcalls := us }) := readied_setCore (by rfl)
  have hwakes := (wakesOnly_activate (setCore s n { coreAt s n with upcalls := us }) n c 63 (nbits (classWord s n 63) 40 2) []
    (coreAdr s n n) 0 false (63 == 63) zeroVec)
  have hstart := startUpcall_of hup hheld c
  dsimp only at hstart
  rw [classWord_congr hset.mem, coreAdr_congr hset.mem] at hstart
  rw [hstart, ctxAt_setCtx_same]
  refine ⟨started_of (args := []) (owes := false) (vec := zeroVec) hset ?_ ?_ hwakes.full hwakes.flight, hwakes.mem, ?_, rfl, rfl, rfl, rfl⟩
  · rw [ctxAt_setCtx_same, ctxAt_activate_same]
  · intro m d hmd
    rw [ctxAt_setCtx_other _ _ hmd, ctxAt_activate_other _ _ _ _ _ _ _ _ _ _ _ hmd]
  · rw [setCtx, coreAt_setCore_same]
    exact (hwakes.upcalls n).trans (congrArg Core.upcalls (coreAt_setCore_same ..))

/-- The record at the bottom of the deque starts, and the next one is at the bottom. -/
theorem startTask_started {s : State} {n : Nat} {tk : Task} {tks : List Task} (hdeque : (coreAt s n).deque = tk :: tks) (c : Nat) :
    let h := (tk.words.headD 0).toNat
    Started s n c (h % 64) (nbits (classWord s n (h % 64)) 40 2) (fun j => (tk.words.tail.take (h / 64 % 8)).getD j 0)
        (coreAdr s n tk.src) 0 (startTask s n c) ∧
      (startTask s n c).mem = s.mem ∧ (coreAt (startTask s n c) n).deque = tks := by
  intro h
  have hset : Readied s (setCore s n { coreAt s n with deque := tks }) := readied_setCore (by rfl)
  have hstart := startTask_of hdeque c
  dsimp only at hstart
  rw [classWord_congr hset.mem, coreAdr_congr hset.mem] at hstart
  rw [hstart]
  refine ⟨started_activate hset .., (wakesOnly_activate ..).mem, ((wakesOnly_activate ..).deque n).trans ?_⟩
  exact congrArg Core.deque (coreAt_setCore_same ..)

/-- Settles O43: a dispatch is the start of what `nextWork` names, and each kind of start leaves its context `Started`; what it
names is the best candidate by `nextWork_some` and `nextWork_takes`. -/
theorem coresDispatch : Obligations.CoresDispatch := by
  refine ⟨?_, ?_⟩
  · intro s n c i e id u us tk tks k run starts
    refine ⟨fun hnone => next_congr (dispatchCore_none hnone), fun hwork hfree hi hkind => ?_,
      fun hwork hfree hi hkind hsend => ⟨_, next_congr (dispatchCore_msg hwork hfree), startMsg_answer hi hkind hsend c⟩,
      fun hwork hfree hi hkind => ?_,
      fun w hwork hfree hi hkind hwait hdst hroom =>
        ⟨_, next_congr (dispatchCore_msg hwork hfree), startMsg_grants hi hkind hwait hdst hroom c⟩,
      fun hwork hfree hup hheld => ⟨_, next_congr (dispatchCore_upc hwork hfree), startUpcall_started hup hheld c⟩,
      fun hwork hfree hdeque => ⟨_, next_congr (dispatchCore_task hwork hfree), startTask_started hdeque c⟩⟩
    · have hplain := startMsg_plain hi (by rw [hkind]; rfl) c
      rw [hkind] at hplain
      exact ⟨_, next_congr (dispatchCore_msg hwork hfree), hplain⟩
    · have hplain : msgTaken s n i e.msg.kind = setCore s n { k with inbox := k.inbox.eraseIdx i } ∧
          replyTo s n e.msg e.msg.kind = 0 ∧ owesAnswer e.msg.kind = false := by
        rcases hkind with ⟨h, hwait⟩ | h <;> rw [h]
        · exact ⟨grantSlots_none (by rw [coreAt_setCore_same]; exact hwait) 16, rfl, rfl⟩
        · exact ⟨rfl, rfl, rfl⟩
      obtain ⟨hstart, howes, hinbox, hresv, -⟩ := startMsg_plain hi hplain.1 c
      rw [hplain.2.1] at hstart
      exact ⟨_, next_congr (dispatchCore_msg hwork hfree), hstart, howes.trans hplain.2.2, hinbox, hresv⟩
  · intro s n k room mine up candidate best
    refine ⟨fun hfree => nextWork_idle (.inr (.inr hfree)), fun hmay => nextWork_idle (.inl hmay), fun i h => ?_, fun i h => ?_,
      fun h => ?_, fun hfree hmay hdie => nextWork_takes hmay hdie hfree⟩
    · rcases nextWork_some h with ⟨p, o, hmem, hbest⟩ | ⟨-, hw, -⟩
      · rcases mem_candidates.1 hmem with ⟨j, e, hj, hroom, rfl, rfl, hw⟩ | ⟨_, _, _, _, _, _, hw⟩
        · obtain rfl := Work.msg.inj hw
          exact ⟨e, hj, hroom, hbest⟩
        · cases hw
      · cases hw
    · rcases nextWork_some h with ⟨p, o, hmem, hbest⟩ | ⟨-, hw, -⟩
      · rcases mem_candidates.1 hmem with ⟨_, _, _, _, _, _, hw⟩ | ⟨u, us, hup, hroom, rfl, rfl, hw⟩
        · cases hw
        · exact ⟨Work.upc.inj hw, u, us, hup, hroom, hbest⟩
      · cases hw
    · rcases nextWork_some h with ⟨p, o, hmem, hbest⟩ | ⟨hno, -, hdeque⟩
      · rcases mem_candidates.1 hmem with ⟨_, _, _, _, _, _, hw⟩ | ⟨_, _, _, _, _, _, hw⟩ <;> cases hw
      · exact ⟨hno, hdeque⟩

end Sys2Proof.Machine

/-! ## Counters (R44, R268) -/

namespace Sys2Proof.Machine

/-! ### Numbers in memory -/

theorem Memory.read_congr {m m' : List Host.Cell} {a n : Nat} (h : ∀ x, a ≤ x → x < a + n → Memory.get m' x = Memory.get m x) :
    Memory.read m' a n = Memory.read m a n := by
  induction n generalizing a with
  | zero => rfl
  | succ n ih =>
    simp only [Memory.read]
    rw [h a (Nat.le_refl a) (by omega), ih fun x hx hlt => h x (by omega) (by omega)]

/-- A number apart from the bytes that are written reads as before. -/
theorem Memory.read_write_other {m : List Host.Cell} (hw : Memory.wf m = true) {a n b k : Nat} (v : Nat)
    (h : b + k ≤ a ∨ a + n ≤ b) : Memory.read (Memory.write m a n v) b k = Memory.read m b k :=
  Memory.read_congr fun _ hx hlt => Memory.get_write_outside v hw (by omega)

theorem Memory.read_lt (m : List Host.Cell) (a n : Nat) : Memory.read m a n < 256 ^ n := by
  induction n generalizing a with
  | zero => simp [Memory.read]
  | succ n ih =>
    have hbyte := (Memory.get m a).isLt
    have hrest := ih (a + 1)
    simp only [Memory.read, Nat.pow_succ]
    omega

/-- A write leaves the list of cells elsewhere alone. -/
theorem Memory.mem_put {m : List Host.Cell} {a : Nat} (v : Byte) {c : Host.Cell} (h : c.1 ≠ a) : c ∈ Memory.put m a v ↔ c ∈ m := by
  have hne (b : Byte) : c ≠ (a, b) := fun he => h (by rw [he])
  induction m with
  | nil => simp only [Memory.put]; split <;> simp [hne]
  | cons e r ih =>
    obtain ⟨k, b⟩ := e
    simp only [Memory.put]
    split
    · next hk => subst hk; split <;> simp [hne]
    · split
      · split <;> simp [hne]
      · simp [ih]

theorem Memory.mem_putBytes {m : List Host.Cell} {a : Nat} (bs : List Byte) {c : Host.Cell} (h : a + bs.length ≤ c.1) :
    c ∈ Memory.putBytes m a bs ↔ c ∈ m := by
  induction bs generalizing m a with
  | nil => rfl
  | cons b r ih =>
    simp only [List.length_cons] at h
    simp only [Memory.putBytes]
    rw [ih (by omega), Memory.mem_put b (by omega)]

theorem Memory.mem_write {m : List Host.Cell} {a n : Nat} (v : Nat) {c : Host.Cell} (h : a + n ≤ c.1) :
    c ∈ Memory.write m a n v ↔ c ∈ m := Memory.mem_putBytes _ (by simpa using h)

/-! ### The continuation -/

/-- A continuation of a class is on its way from a home to a core, with a counter's address and count (R44). -/
def ContinuationSent (s t : State) (home who cls : Nat) (adr : Word) (count : Nat) : Prop :=
  ∃ q m, t.flight = s.flight ++ [q] ∧ q.body = .msg m ∧ q.src = home ∧ q.dst = who ∧ q.net = .rply ∧ m.kind = .unreserved ∧
    m.cls = cls ∧ m.args.take 2 = [adr, BitVec.ofNat 64 count] ∧ m.narg = 2

theorem continuation_only (s : State) (home part : Nat) (adr : Word) (key : Nat) : continuation s home part adr key = { s with
    flight := (continuation s home part adr key).flight
    dies := (continuation s home part adr key).dies
    pkgs := (continuation s home part adr key).pkgs
    flows := (continuation s home part adr key).flows
    keptReq := (continuation s home part adr key).keptReq } := by
  unfold continuation
  dsimp only
  split
  · rfl
  · exact sendUnreserved_only ..

theorem continuation_sent {s : State} {key : Nat} (hwho : coreExists (Memory.read s.mem (key + 13) 3) = true) (home part : Nat)
    (adr : Word) : ContinuationSent s (continuation s home part adr key) home (Memory.read s.mem (key + 13) 3)
      (Memory.read s.mem (key + 12) 1 % 64) adr (Memory.read s.mem key 8) := by
  obtain ⟨q, m, hflight, hbody, hsrc, hdst, hnet, hkind, hcls, hargs, hnarg⟩ := sendUnreserved_packet s home
    (Memory.read s.mem (key + 13) 3) (Memory.read s.mem (key + 12) 1 % 64) [adr, BitVec.ofNat 64 (Memory.read s.mem key 8)] part
  refine ⟨q, m, ?_, hbody, hsrc, hdst, hnet, hkind, hcls, by rw [hargs]; rfl, hnarg⟩
  rw [← hflight, continuation, if_neg (by simp [hwho])]

/-- What the home does leaves the cores, the accesses held and the bits as they are. -/
structure HomeOnly (s t : State) : Prop where
  cores : t.cores = s.cores
  cur : t.cur = s.cur
  held : t.held = s.held
  full : t.full = s.full

theorem HomeOnly.trans {s t u : State} (h : HomeOnly s t) (h' : HomeOnly t u) : HomeOnly s u :=
  ⟨h'.cores.trans h.cores, h'.cur.trans h.cur, h'.held.trans h.held, h'.full.trans h.full⟩

theorem homeOnly_mem (s : State) (m : List Host.Cell) : HomeOnly s { s with mem := m } := ⟨rfl, rfl, rfl, rfl⟩

theorem homeOnly_continuation (s : State) (home part : Nat) (adr : Word) (key : Nat) :
    HomeOnly s (continuation s home part adr key) := by
  rw [continuation_only]
  exact ⟨rfl, rfl, rfl, rfl⟩

theorem homeOnly_noteWrite (s : State) (src home : Nat) (stamp vec : Vec16) : HomeOnly s (noteWrite s src home stamp vec) :=
  ⟨rfl, rfl, rfl, rfl⟩

/-! ### A counter that fires -/

theorem homeOnly_fireCounter (s : State) (home part : Nat) (adr : Word) (key : Nat) : HomeOnly s (fireCounter s home part adr key) :=
  (homeOnly_mem ..).trans (homeOnly_continuation ..)

/-- Firing clears ARM. -/
theorem fireCounter_mem (s : State) (home part : Nat) (adr : Word) (key : Nat) : (fireCounter s home part adr key).mem =
    Memory.write s.mem (key + 12) 1 (Memory.read s.mem (key + 12) 1 % 128) := by
  rw [fireCounter, continuation_only]

/-- Firing sends the continuation that ARM, WHO and COUNT tell. -/
theorem fireCounter_sent {s : State} {key : Nat} (hw : Memory.wf s.mem = true)
    (hwho : coreExists (Memory.read s.mem (key + 13) 3) = true) (home part : Nat) (adr : Word) :
    ContinuationSent s (fireCounter s home part adr key) home (Memory.read s.mem (key + 13) 3)
      (Memory.read s.mem (key + 12) 1 % 64) adr (Memory.read s.mem key 8) := by
  have hread : Memory.read (Memory.write s.mem (key + 12) 1 (Memory.read s.mem (key + 12) 1 % 128)) (key + 12) 1 % 64 =
      Memory.read s.mem (key + 12) 1 % 64 := by
    rw [Memory.read_write_same _ _ _ hw]
    omega
  have hcount := Memory.read_write_other hw (a := key + 12) (n := 1) (b := key) (k := 8)
    (Memory.read s.mem (key + 12) 1 % 128) (by omega)
  have hdst := Memory.read_write_other hw (a := key + 12) (n := 1) (b := key + 13) (k := 3)
    (Memory.read s.mem (key + 12) 1 % 128) (by omega)
  have hsent := continuation_sent (s := { s with mem := Memory.write s.mem (key + 12) 1 (Memory.read s.mem (key + 12) 1 % 128) })
    (key := key) (by rw [hdst]; exact hwho) home part adr
  rw [hread, hcount, hdst] at hsent
  exact hsent

/-! ### Adding to a counter -/

/-- COUNT after an addition. -/
def countAfter (s : State) (key x : Nat) : Nat := (Memory.read s.mem key 8 + x) % 2 ^ 64

/-- A counter whose COUNT has taken a sum. -/
def counted (s : State) (key x : Nat) : State := { s with mem := Memory.write s.mem key 8 (countAfter s key x) }

/-- A counter at its key after an addition: COUNT holds the sum, TARGET, ARM and WHO are as before. -/
theorem counted_reads {s : State} (hw : Memory.wf s.mem = true) (key x : Nat) :
    Memory.wf (counted s key x).mem = true ∧ Memory.read (counted s key x).mem key 8 = countAfter s key x ∧
      Memory.read (counted s key x).mem (key + 8) 4 = Memory.read s.mem (key + 8) 4 ∧
      Memory.read (counted s key x).mem (key + 12) 1 = Memory.read s.mem (key + 12) 1 ∧
      Memory.read (counted s key x).mem (key + 13) 3 = Memory.read s.mem (key + 13) 3 := by
  refine ⟨Memory.wf_write _ _ _ hw, ?_, Memory.read_write_other hw _ (by omega), Memory.read_write_other hw _ (by omega),
    Memory.read_write_other hw _ (by omega)⟩
  refine (Memory.read_write_same _ _ _ hw).trans (Nat.mod_eq_of_lt ?_)
  exact Nat.mod_lt _ (by decide)

/-- A counter that is not armed, or stays below its target, does not fire. -/
theorem addCounter_rests {s : State} (hw : Memory.wf s.mem = true) {key x : Nat}
    (h : Memory.read s.mem (key + 12) 1 < 128 ∨ countAfter s key x < Memory.read s.mem (key + 8) 4) (home part : Nat) (adr : Word) :
    addCounter s home part adr key x = counted s key x := by
  obtain ⟨-, -, htarget, harm, -⟩ := counted_reads hw key x
  have hrests : ¬(decide (128 ≤ Memory.read (counted s key x).mem (key + 12) 1) &&
      decide (Memory.read (counted s key x).mem (key + 8) 4 ≤ countAfter s key x)) = true := by
    rw [htarget, harm]
    simp
    omega
  exact if_neg hrests

/-- An armed counter that reaches its target fires. -/
theorem addCounter_fires {s : State} (hw : Memory.wf s.mem = true) {key x : Nat} (harmed : 128 ≤ Memory.read s.mem (key + 12) 1)
    (hreach : Memory.read s.mem (key + 8) 4 ≤ countAfter s key x) (home part : Nat) (adr : Word) :
    addCounter s home part adr key x = fireCounter (counted s key x) home part adr key := by
  obtain ⟨-, -, htarget, harm, -⟩ := counted_reads hw key x
  have hfires : (decide (128 ≤ Memory.read (counted s key x).mem (key + 12) 1) &&
      decide (Memory.read (counted s key x).mem (key + 8) 4 ≤ countAfter s key x)) = true := by
    rw [htarget, harm]
    simp [harmed, hreach]
  exact if_pos hfires

/-- All that the firing of an addition does: COUNT takes the sum, ARM is clear, no other byte changes, and the continuation goes. -/
theorem addCounter_fired {s : State} (hw : Memory.wf s.mem = true) {key x : Nat} (harmed : 128 ≤ Memory.read s.mem (key + 12) 1)
    (hreach : Memory.read s.mem (key + 8) 4 ≤ countAfter s key x) (hwho : coreExists (Memory.read s.mem (key + 13) 3) = true)
    (home part : Nat) (adr : Word) :
    let t := addCounter s home part adr key x
    Memory.read t.mem key 8 = countAfter s key x ∧ Memory.read t.mem (key + 12) 1 = Memory.read s.mem (key + 12) 1 - 128 ∧
      (∀ k, (k < key ∨ key + 8 ≤ k) → k ≠ key + 12 → Memory.get t.mem k = Memory.get s.mem k) ∧
      ContinuationSent s t home (Memory.read s.mem (key + 13) 3) (Memory.read s.mem (key + 12) 1 % 64) adr (countAfter s key x) := by
  obtain ⟨hwf, hcount, -, harm, hdst⟩ := counted_reads hw key x
  have hlt := Memory.read_lt s.mem (key + 12) 1
  have hsent := fireCounter_sent hwf (hdst ▸ hwho) home part adr
  rw [hdst, harm, hcount] at hsent
  rw [addCounter_fires hw harmed hreach]
  dsimp only
  rw [fireCounter_mem, harm]
  refine ⟨?_, ?_, fun k hk hne => ?_, hsent⟩
  · rw [Memory.read_write_other hwf _ (by omega), hcount]
  · rw [Memory.read_write_same _ _ _ hwf]
    omega
  · rw [Memory.get_write_outside _ hwf (by omega)]
    exact Memory.get_write_outside _ hw hk

end Sys2Proof.Machine

/-! ## Counters in the core's own memory (R44, R268) -/

namespace Sys2Proof.Machine

/-! ### An own access that is acknowledged, whatever its home does -/

theorem HomeOnly.me {s t : State} (h : HomeOnly s t) : me t = me s := by
  rw [Sys2Proof.Machine.me, h.cur, ctxAt_congr h.cores, Sys2Proof.Machine.me]

/-- The data of an answer goes on from the home's state, in which a store has been noted. -/
theorem settle_word {s t : State} (h : HomeOnly s t) (a : Access) (x : Vec16) (ord w : Nat) :
    ∃ u, settle s a x ord (okWord t a w) true = deliver u ⟨a, .data (BitVec.ofNat 1024 w), allBits, [], replyVec t a⟩ ∧
      HomeOnly s u ∧ u.mem = t.mem ∧ u.flight = t.flight := by
  cases hstore : a.op.storeLike with
  | false => exact ⟨t, by simp only [settle, okWord, okReply, hstore]; rfl, h, rfl, rfl⟩
  | true =>
    exact ⟨noteWrite t a.core a.home x a.vec, by simp only [settle, okWord, okReply, hstore]; rfl,
      h.trans (homeOnly_noteWrite ..), rfl, rfl⟩

/-- An own access with neither slot nor flags notes its acknowledgement, and maybe its generation. -/
theorem noteAccess_unslotted {t : Ctx} {a : Access} (h : a.slotted = false) : ∃ w, noteAccess t a 1 = { t with
    acks := t.acks ++ [⟨a.num, a.gen, a.home, a.op.vector, 1, none⟩]
    wgens := w } := by
  unfold noteAccess
  dsimp only
  rw [if_neg (show ¬ a.slotted = true by simp [h])]
  split
  · exact ⟨_, rfl⟩
  · exact ⟨t.wgens, rfl⟩

/-- All that an own access does that its home answers at once, when it is only acknowledged: what the home did, and the
instruction goes on. -/
theorem issue_own_word {s t : State} (h : Quiet s) {a : Access} {p : Place} (ha : OwnAccess s a p) (st : Stall) (len : Nat)
    (wait : Option Cause) (hs : a.slotted = false) (hv : a.op.vector = false) (hp : placeOf (issued s st len a) a = .ok p) {w : Nat}
    (hap : applyOp (issued s st len a) a (ownStamp s) p = okWord t a w) (hhome : HomeOnly (issued s st len a) t) :
    ∃ u, issue s st len a p wait = .next u ∧ u.mem = t.mem ∧ u.full = s.full ∧ u.flight = t.flight ∧ OthersSame s u ∧
      me u = { wentOn s st len with wgens := (me u).wgens } := by
  obtain ⟨d, hsettle, hd, hmem, hflight⟩ := settle_word hhome a (ownStamp s) (s.serial + 1) w
  obtain ⟨g, hnote⟩ := noteAccess_unslotted (t := wentOn s st len) hs
  have hme : me d = _ := hd.me.trans ((me_issued s st len a).trans hnote)
  have hslots : ∀ r ∈ (me s).rslots, r.num < a.num := by rw [ha.num]; exact h.slots
  have hacks : ∀ u ∈ (me s).acks, u.num < a.num := by rw [ha.num]; exact h.acks
  have hdeliver := deliver_ack d a (BitVec.ofNat 1024 w) allBits [] (replyVec t a) (me s).acks (ha.core.trans (by rw [hd.cur]; rfl))
    (ha.ctx.trans (by rw [hd.cur]; rfl)) hs (by rw [hme]; rfl) hacks (by rw [hme]; exact hslots) (by rw [hme, ha.act]; rfl)
    (by rw [hme]; exact h.runs)
  have hack : ackFlags (me d) a (BitVec.ofNat 1024 w) = (me d).lanef := by simp [ackFlags, hv]
  have hsend := sendAccess_own h ha st len hp
  rw [hap, hsettle, hdeliver, hack, hme] at hsend
  generalize hR : ({ wentOn s st len with wgens := g } : Ctx) = R
  have hX : sendAccess (issued s st len a) a p = afterServe (setMe (forgetAnswered d a) R) a := by rw [hsend, ← hR]; rfl
  have hme' := me_setMe (forgetAnswered d a) R
  have hothers := others_setMe s (forgetAnswered d a) R (by exact hd.cur) fun n c hn =>
    (ctxAt_congr (by exact hd.cores) n c).trans (others_issued s st len a n c hn)
  rw [afterServe_quiet (by exact hd.held.trans h.held)] at hX
  have hout : (me (setMe (forgetAnswered d a) R)).outstanding a.num = false := by
    rw [hme', ← hR]
    exact not_outstanding hslots hacks
  refine ⟨setMe (forgetAnswered d a) R, ?_, hmem, hd.full, hflight, hothers, by rw [hme', ← hR]⟩
  rw [issue_eq s st len a p wait h.room (by rw [ha.home, ha.who]), hX]
  cases wait with
  | none => rfl
  | some c => exact congrArg Host.Outcome.next (parkFor_answered _ _ _ hout)

/-- An instruction whose own access is answered at once, without a packet of its home's. -/
theorem accessOnly_word {i : Instr} {s t : State} {st : Stall} {a : Access} {p : Place} {wait : Option Cause} (h : Quiet s)
    (he : exec i s = issue s st 4 a p wait) (ha : OwnAccess s a p) (hs : a.slotted = false) (hv : a.op.vector = false)
    (hp : placeOf (issued s st 4 a) a = .ok p) {w : Nat} (hap : applyOp (issued s st 4 a) a (ownStamp s) p = okWord t a w)
    (hhome : HomeOnly (issued s st 4 a) t) (hflight : t.flight = s.flight) {memory : State → Prop}
    (hm : ∀ u, u.mem = t.mem → memory u) : AccessOnly i s st 4 s.full memory := by
  obtain ⟨u, hu, hmem, hfull, hfly, hothers, hme⟩ := issue_own_word h ha st 4 wait hs hv hp hap hhome
  refine ⟨u, he.trans hu, ⟨hfly.trans hflight, hothers, ?_⟩, hm u hmem, hfull, ?_⟩
  · rw [WentOn, hme]
    exact ⟨rfl, rfl, rfl⟩
  · rw [hme]
    rfl

end Sys2Proof.Machine

/-! ## Counters that are armed -/

namespace Sys2Proof.Machine

/-! ### Memory as CNTARM writes it -/

/-- Memory in which a counter at a key has been armed: TARGET, ARM with its class, WHO. -/
def armedMem (m : List Host.Cell) (key target cls who : Nat) : List Host.Cell :=
  Memory.write (Memory.write (Memory.write m (key + 8) 4 target) (key + 12) 1 (128 + cls)) (key + 13) 3 who

section
variable {m : List Host.Cell} (hw : Memory.wf m = true) (key target cls who : Nat)
include hw

theorem armedMem_wf : Memory.wf (armedMem m key target cls who) = true :=
  Memory.wf_write _ _ _ (Memory.wf_write _ _ _ (Memory.wf_write _ _ _ hw))

/-- Arming writes the second half of the counter alone. -/
theorem armedMem_get {k : Nat} (h : k < key + 8 ∨ key + 16 ≤ k) :
    Memory.get (armedMem m key target cls who) k = Memory.get m k := by
  have hw1 := Memory.wf_write (key + 8) 4 target hw
  have hw2 := Memory.wf_write (key + 12) 1 (128 + cls) hw1
  rw [armedMem, Memory.get_write_outside _ hw2 (by omega), Memory.get_write_outside _ hw1 (by omega),
    Memory.get_write_outside _ hw (by omega)]

theorem armedMem_count : Memory.read (armedMem m key target cls who) key 8 = Memory.read m key 8 :=
  Memory.read_congr fun _ _ hx => armedMem_get hw _ _ _ _ (by omega)

/-- What an armed counter reads. -/
theorem armedMem_reads (ht : target < 2 ^ 32) (hc : cls < 64) (hwho : who < 2 ^ 24) :
    Memory.read (armedMem m key target cls who) (key + 8) 4 = target ∧
      Memory.read (armedMem m key target cls who) (key + 12) 1 = 128 + cls ∧
      Memory.read (armedMem m key target cls who) (key + 13) 3 = who := by
  have hw1 := Memory.wf_write (key + 8) 4 target hw
  have hw2 := Memory.wf_write (key + 12) 1 (128 + cls) hw1
  refine ⟨?_, ?_, ?_⟩
  · rw [armedMem, Memory.read_write_other hw2 _ (by omega), Memory.read_write_other hw1 _ (by omega), Memory.read_write_same _ _ _ hw]
    omega
  · rw [armedMem, Memory.read_write_other hw2 _ (by omega), Memory.read_write_same _ _ _ hw1]
    omega
  · rw [armedMem, Memory.read_write_same _ _ _ hw2]
    omega

end

/-- Arming lists no cells behind the counter. -/
theorem armedMem_cells (m : List Host.Cell) (key target cls who : Nat) {c : Host.Cell} (h : key + 16 ≤ c.1) :
    c ∈ armedMem m key target cls who ↔ c ∈ m := by
  rw [armedMem, Memory.mem_write _ (by omega), Memory.mem_write _ (by omega), Memory.mem_write _ (by omega)]

/-! ### Own slices lie before the service block of their package -/

/-- What of a core's window is a core's own is its slice at the offset. -/
theorem window_own {w : Who} {t off n : Nat} {load : Bool} {p : Place} (h : window w t off load = .ok p) (hown : isOwn n p = true) :
    p = .slice n off := by
  unfold window at h
  dsimp only at h
  split_ifs at h <;> cases h <;> simp_all [isOwn]

/-- An address that does not name the own window, and leads to an own place, leads into the slice, unless to the mirror or the
supervisor's space. -/
theorem resolve_own {s : State} {w : Who} {adr : Word} {load : Bool} {n : Nat} {p : Place} (h : resolve s w adr load = .ok p)
    (hown : isOwn n p = true) (hsup : ∀ o, p ≠ .sup o) (hmirror : ∀ o, p ≠ .mirror o) (hpriv : isPrivAdr adr = false) :
    ∃ off < 2 ^ 23, p = .slice n off := by
  have hoff : bitsOf adr 0 23 < 2 ^ 23 := Nat.mod_lt _ (by decide)
  have hspace : bitsOf adr 62 2 < 4 := Nat.mod_lt _ (by decide)
  unfold resolve at h
  dsimp only at h
  split at h
  · split at h
    · cases h
    · split at h
      · cases h
      · exact ⟨_, hoff, window_own h hown⟩
  · split at h
    · split at h
      · cases h
      · exact ⟨_, hoff, window_own h hown⟩
    · split at h
      · split_ifs at h
        · cases h
          exact absurd rfl (hsup _)
        · split at h <;> cases h
          simp [isOwn] at hown
      · split at h
        · next hform =>
          exfalso
          simp only [isPrivAdr, hform] at hpriv
          simp at hpriv
          omega
        · cases h
          exact absurd rfl (hmirror _)

theorem descView_key {s : State} {n off len i : Nat} {e f : Bool} {v : View} (h : descView s n off len i e f = .ok v)
    (hoff : off < 2 ^ 23) : v.key < sliceKey n (2 ^ 24) := by
  have htwin : nbits (descWord s n i 1) 22 22 < 2 ^ 22 := Nat.mod_lt _ (by decide)
  unfold descView at h
  dsimp only at h
  generalize (if nbits (descWord s n i 0) 52 2 = 0 then [] else _) = hs at h
  split at h
  · cases h
  · cases h
    simp only [sliceKey]
    split <;> omega

theorem sliceView_key {s : State} {core part n off len : Nat} {supr rd wr eng : Bool} {v : View}
    (h : sliceView s core part supr n off len rd wr eng = .ok v) (hoff : off < 2 ^ 23) : v.key < sliceKey n (2 ^ 24) := by
  unfold sliceView at h
  cases hdesc : findDesc s n off with
  | none => simp [hdesc] at h
  | some i =>
    simp only [hdesc] at h
    split_ifs at h
    all_goals exact descView_key h hoff

/-- A counter in the core's own slice ends before the service block of its package. -/
theorem OwnAt.before_service {s : State} {adr : Word} {load rd wr : Bool} {n : Nat} {p : Place} {v : View}
    (h : OwnAt s adr load n rd wr p v) (hworker : isWorker s.cur.core = true) (hmirror : ∀ o, p ≠ .mirror o)
    (hpriv : isPrivAdr adr = false) : v.key + 16 ≤ sliceKey (serviceCore (pkgOf s.cur.core)) 0 := by
  obtain ⟨off, hoff, rfl⟩ := resolve_own h.leads h.own h.plain hmirror hpriv
  have hkey := sliceView_key h.view hoff
  have hdie : s.cur.core / 1024 % 16 < 8 := of_decide_eq_true hworker
  simp only [sliceKey, serviceCore, pkgOf] at hkey ⊢
  omega

/-- Arming a counter there renames no core. -/
theorem coreAdr_armedMem {s : State} {n key : Nat} (hw : Memory.wf s.mem = true)
    (hkey : key + 16 ≤ sliceKey (serviceCore (pkgOf n)) 0) (target cls who m : Nat) :
    coreAdr { s with mem := armedMem s.mem key target cls who } n m = coreAdr s n m :=
  coreAdr_congr_service (fun off => armedMem_get hw _ _ _ _ (.inr (by simp only [sliceKey] at hkey ⊢; omega)))
    (fun _ hc => armedMem_cells _ _ _ _ _ (Nat.le_trans hkey hc)) m

end Sys2Proof.Machine

/-! ## The counter instructions on the core's own memory (R44, R268) -/

namespace Sys2Proof.Machine

/-- An access of a counter: its address, and the word that goes with it. -/
def countAccess (s : State) (op : AccOp) (adr x : Word) : Access := { newAccess s op adr 4 with val := x.setWidth 1024 }

theorem fresh_countAccess (s : State) {op : AccOp} (h : ∀ n, op ≠ .get n ∧ op ≠ .put n) (adr x : Word) :
    Fresh s (countAccess s op adr x) := ⟨rfl, rfl, rfl, rfl, rfl, rfl, rfl, rfl, rfl, rfl, rfl, h⟩

theorem countAccess_val (s : State) (op : AccOp) (adr x : Word) : (countAccess s op adr x).val.toNat = x.toNat := by
  rw [countAccess, BitVec.toNat_setWidth_of_le (by decide)]

/-- An own place other than the mirror is allowed to counters. -/
theorem denySpecial_own {n : Nat} {p : Place} (hown : isOwn n p = true) (hmirror : ∀ o, p ≠ .mirror o) : denySpecial p = false := by
  cases p with
  | mirror o => exact absurd rfl (hmirror o)
  | istore m o => simp [isOwn] at hown
  | ctl m o => simp [isOwn] at hown
  | _ => rfl

/-- The absolute form of an address depends on the names of cores alone. -/
theorem absolute_congr {s t : State} {a : Access} (h : ∀ m, coreAdr t a.core m = coreAdr s a.core m) : a.absolute t = a.absolute s := by
  simp only [Access.absolute, absAdr, h]

theorem homeOnly_addCounter (s : State) (home part : Nat) (adr : Word) (key x : Nat) :
    HomeOnly s (addCounter s home part adr key x) := by
  unfold addCounter
  dsimp only
  split
  · exact (homeOnly_mem ..).trans (homeOnly_fireCounter ..)
  · exact homeOnly_mem ..

/-- An instruction on an own counter goes on, and its core sends a continuation. -/
def Fires (i : Instr) (s : State) (st : Stall) (dst cls : Nat) (adr : Word) (count : Nat) (memory : State → Prop) : Prop :=
  ∃ u, exec i s = .next u ∧ OthersSame s u ∧ WentOn s u st 4 ∧ u.full = s.full ∧
    ContinuationSent s u s.cur.core dst cls adr count ∧ memory u

theorem fires_word {i : Instr} {s t : State} {st : Stall} {a : Access} {p : Place} {wait : Option Cause} (h : Quiet s)
    (he : exec i s = issue s st 4 a p wait) (ha : OwnAccess s a p) (hs : a.slotted = false) (hv : a.op.vector = false)
    (hp : placeOf (issued s st 4 a) a = .ok p) {w : Nat} (hap : applyOp (issued s st 4 a) a (ownStamp s) p = okWord t a w)
    (hhome : HomeOnly (issued s st 4 a) t) {dst cls count : Nat} {adr : Word}
    (hsent : ContinuationSent s t s.cur.core dst cls adr count) {memory : State → Prop}
    (hm : ∀ u, u.mem = t.mem → memory u) : Fires i s st dst cls adr count memory := by
  obtain ⟨u, hu, hmem, hfull, hflight, hothers, hme⟩ := issue_own_word h ha st 4 wait hs hv hp hap hhome
  refine ⟨u, he.trans hu, hothers, ?_, hfull, ?_, hm u hmem⟩
  · rw [WentOn, hme]
    exact ⟨rfl, rfl, rfl⟩
  · rw [ContinuationSent, hflight]
    exact hsent

theorem applyOp_of_cntadd {s : State} {a : Access} {stamp : Vec16} {p : Place} (h : a.op = .cntadd) :
    applyOp s a stamp p = applyCntadd s a stamp p := by unfold applyOp; rw [h]
theorem applyOp_of_cntarm {s : State} {a : Access} {stamp : Vec16} {p : Place} (h : a.op = .cntarm) :
    applyOp s a stamp p = applyCntarm s a p := by unfold applyOp; rw [h]
theorem applyOp_of_cntrd {s : State} {a : Access} {stamp : Vec16} {p : Place} (h : a.op = .cntrd) :
    applyOp s a stamp p = applyCntrd s a p := by unfold applyOp; rw [h]

/-- The counter that x[a] names lies in the core's own memory, at the view `v` of place `p`, and nothing of the running context
is under way. -/
structure OwnCounter (s : State) (a : Reg) (load rd wr : Bool) (p : Place) (v : View) : Prop where
  quiet : Quiet s
  notMirror : ∀ o, p ≠ .mirror o
  notPriv : isPrivAdr (xr s a) = false
  aligned : (xr s a).toNat % 16 = 0
  own : OwnAt s (xr s a) load 16 rd wr p v

namespace OwnCounter

variable {s : State} {a : Reg} {load rd wr : Bool} {p : Place} {v : View}

/-- An access of such a counter is issued. -/
theorem issues (h : OwnCounter s a load rd wr p v) {acc : Access} (hfresh : Fresh s acc) (hadr : acc.adr = xr s a) (st : Stall)
    (wait : Option Cause) : access s st 4 16 16 true rd wr load denySpecial acc wait = issue s st 4 acc p wait := by
  refine access_own acc (by rw [hadr]; exact h.own) hfresh.core hfresh.part hfresh.supr st 4 16 true ?_ (by rw [hadr]; exact h.aligned)
    denySpecial (denySpecial_own h.own.own h.notMirror) wait
  rw [hadr, h.notPriv, Bool.and_false]

/-! ### CNTADD -/

theorem exec_cntadd (h : OwnCounter s a false true true p v) (st : Stall) (b : Reg) :
    exec (.cntadd st a b) s = issue s st 4 (countAccess s .cntadd (xr s a) (xr s b)) p none :=
  h.issues (fresh_countAccess s (op := .cntadd) (fun _ => ⟨nofun, nofun⟩) (xr s a) (xr s b)) rfl st none

/-- What the home does for CNTADD: it notes the write, and adds. -/
theorem applyOp_cntadd (h : OwnCounter s a false true true p v) (st : Stall) (x : Word) :
    ∃ t part, applyOp (issued s st 4 (countAccess s .cntadd (xr s a) x)) (countAccess s .cntadd (xr s a) x) (ownStamp s) p =
        okWord (addCounter t s.cur.core part ((absAdr s s.cur.core (xr s a)).getD (xr s a)) v.key x.toNat)
          (countAccess s .cntadd (xr s a) x) 0 ∧
      HomeOnly (issued s st 4 (countAccess s .cntadd (xr s a) x)) t ∧ t.mem = s.mem ∧ t.flight = s.flight := by
  generalize hacc : countAccess s .cntadd (xr s a) x = acc
  have hfresh : Fresh s acc := hacc ▸ fresh_countAccess s (op := .cntadd) (fun _ => ⟨nofun, nofun⟩) (xr s a) x
  have habs : acc.absolute (issued s st 4 acc) = (absAdr s s.cur.core (xr s a)).getD (xr s a) := by
    rw [absolute_congr (s := s) (coreAdr_congr (by rfl) _), ← hacc]
    rfl
  refine ⟨noteWrite (issued s st 4 acc) acc.core acc.home (ownStamp s) acc.vec, acc.part, ?_, homeOnly_noteWrite .., rfl, rfl⟩
  have hval : acc.val.toNat = x.toNat := by rw [← hacc, countAccess_val]
  rw [applyOp_of_cntadd (show acc.op = .cntadd by rw [← hacc]; rfl), applyCntadd, hval, habs, hfresh.home]
  exact withBoth_own h.own.own h.own.plain h.notMirror (OwnAt.seen hfresh h.own st 4) _

theorem cntadd_rests (h : OwnCounter s a false true true p v) (st : Stall) {b : Reg}
    (hrests : Memory.read s.mem (v.key + 12) 1 < 128 ∨ countAfter s v.key (xr s b).toNat < Memory.read s.mem (v.key + 8) 4) :
    AccessOnly (.cntadd st a b) s st 4 s.full fun u => Stored s u v.key 8 (countAfter s v.key (xr s b).toNat) := by
  have hfresh := fresh_countAccess s (op := .cntadd) (fun _ => ⟨nofun, nofun⟩) (xr s a) (xr s b)
  obtain ⟨t, part, hap, hhome, hmem, hflight⟩ := h.applyOp_cntadd st (xr s b)
  have hsum : countAfter t v.key (xr s b).toNat = countAfter s v.key (xr s b).toNat := by rw [countAfter, hmem, countAfter]
  rw [addCounter_rests (hmem ▸ h.quiet.mem) (by rw [hsum, hmem]; exact hrests)] at hap
  refine accessOnly_word h.quiet (h.exec_cntadd st b) (.of hfresh h.own) rfl rfl h.own.leads hap
    (hhome.trans (homeOnly_mem ..)) hflight fun u hu => stored_of h.quiet.mem v.key 8 _ (hu.trans ?_)
  rw [counted, hsum, hmem, Nat.mod_eq_of_lt (show countAfter s v.key (xr s b).toNat < 256 ^ 8 from Nat.mod_lt _ (by decide))]

theorem cntadd_fires (h : OwnCounter s a false true true p v) (st : Stall) {b : Reg}
    (harmed : 128 ≤ Memory.read s.mem (v.key + 12) 1)
    (hreach : Memory.read s.mem (v.key + 8) 4 ≤ countAfter s v.key (xr s b).toNat)
    (hwho : coreExists (Memory.read s.mem (v.key + 13) 3) = true) :
    Fires (.cntadd st a b) s st (Memory.read s.mem (v.key + 13) 3) (Memory.read s.mem (v.key + 12) 1 % 64)
      ((absAdr s s.cur.core (xr s a)).getD (xr s a)) (countAfter s v.key (xr s b).toNat) fun u =>
        Memory.read u.mem v.key 8 = countAfter s v.key (xr s b).toNat ∧
        Memory.read u.mem (v.key + 12) 1 = Memory.read s.mem (v.key + 12) 1 - 128 ∧
        ∀ k, (k < v.key ∨ v.key + 8 ≤ k) → k ≠ v.key + 12 → Memory.get u.mem k = Memory.get s.mem k := by
  have hfresh := fresh_countAccess s (op := .cntadd) (fun _ => ⟨nofun, nofun⟩) (xr s a) (xr s b)
  obtain ⟨t, part, hap, hhome, hmem, hflight⟩ := h.applyOp_cntadd st (xr s b)
  have hsum : countAfter t v.key (xr s b).toNat = countAfter s v.key (xr s b).toNat := by rw [countAfter, hmem, countAfter]
  have hfired := addCounter_fired (hmem ▸ h.quiet.mem) (hmem ▸ harmed) (by rw [hsum, hmem]; exact hreach) (hmem ▸ hwho) s.cur.core part
    ((absAdr s s.cur.core (xr s a)).getD (xr s a))
  rw [hsum, hmem] at hfired
  obtain ⟨hread, harm, hother, hsent⟩ := hfired
  rw [ContinuationSent, hflight] at hsent
  refine fires_word h.quiet (h.exec_cntadd st b) (.of hfresh h.own) rfl rfl h.own.leads hap
    (hhome.trans (homeOnly_addCounter ..)) hsent fun u hu => ?_
  rw [hu]
  exact ⟨hread, harm, hother⟩

end OwnCounter

end Sys2Proof.Machine

/-! ### CNTARM and CNTRD -/

namespace Sys2Proof.Machine

/-- What the home does for CNTRD on an own place. -/
theorem applyCntrd_own {u : State} {a : Access} {p : Place} {v : View} {k : Nat} (hown : isOwn k p = true) (hsup : ∀ v, p ≠ .sup v)
    (hmirror : ∀ o, p ≠ .mirror o) (hview : accView u a p 16 true false = .ok v) :
    applyCntrd u a p = okWord u a (Memory.read u.mem v.key 8) := by
  have hseen : withView u a (accView u a p 16 true false redDeny) (fun v =>
      if v.red then failOwn u a fPROTECT else okWord u a (Memory.read u.mem v.key 8)) = okWord u a (Memory.read u.mem v.key 8) := by
    rw [accView_early u a p 16 true false redDeny hown, hview]
    simp [withView, own_red hown hsup hview]
  unfold applyCntrd
  cases p with
  | ctl n o => simp [isOwn] at hown
  | mirror o => exact absurd rfl (hmirror o)
  | _ => exact hseen

/-- A counter in own memory as CNTARM leaves it. -/
def armedBy (s : State) (key : Nat) (x : Word) : List Host.Cell :=
  armedMem s.mem key (x.toNat % 2 ^ 32) (bitsOf x 32 6) (s.cur.core % 2 ^ 24)

/-- A counter at a key reads as armed for a word by the running core, with a byte in the place of ARM, and nothing else has changed. -/
def ReadsArmed (s : State) (m : List Host.Cell) (key : Nat) (x : Word) (arm : Nat) : Prop :=
  Memory.read m (key + 8) 4 = x.toNat % 2 ^ 32 ∧ Memory.read m (key + 12) 1 = arm ∧
    Memory.read m (key + 13) 3 = s.cur.core % 2 ^ 24 ∧
    ∀ k, k < key + 8 ∨ key + 16 ≤ k → Memory.get m k = Memory.get s.mem k

theorem readsArmed_armedBy {s : State} (hw : Memory.wf s.mem = true) (key : Nat) (x : Word) :
    ReadsArmed s (armedBy s key x) key x (128 + bitsOf x 32 6) := by
  obtain ⟨htarget, harm, hwho⟩ := armedMem_reads hw key (x.toNat % 2 ^ 32) (bitsOf x 32 6) (s.cur.core % 2 ^ 24)
    (Nat.mod_lt _ (by decide)) (Nat.mod_lt _ (by decide)) (Nat.mod_lt _ (by decide))
  exact ⟨htarget, harm, hwho, fun _ hk => armedMem_get hw _ _ _ _ hk⟩

/-- Once it has fired, ARM is clear. -/
theorem readsArmed_fired {s t : State} {key : Nat} {x : Word} (hw : Memory.wf s.mem = true) (h : t.mem = armedBy s key x)
    (home part : Nat) (adr : Word) :
    ReadsArmed s (fireCounter t home part adr key).mem key x (bitsOf x 32 6) := by
  obtain ⟨htarget, harm, hwho, hother⟩ := readsArmed_armedBy hw key x
  have hcls : bitsOf x 32 6 < 64 := Nat.mod_lt _ (by decide)
  have hw' : Memory.wf (armedBy s key x) = true := armedMem_wf hw ..
  rw [fireCounter_mem, h, harm]
  refine ⟨?_, ?_, ?_, fun k hk => ?_⟩
  · rw [Memory.read_write_other hw' _ (by omega), htarget]
  · rw [Memory.read_write_same _ _ _ hw']
    omega
  · rw [Memory.read_write_other hw' _ (by omega), hwho]
  · rw [Memory.get_write_outside _ hw' (by omega), hother k hk]

namespace OwnCounter

variable {s : State} {a : Reg} {p : Place} {v : View}

theorem exec_cntarm (h : OwnCounter s a false true true p v) (st : Stall) {b : Reg} (hres : bitsOf (xr s b) 38 26 = 0) :
    exec (.cntarm st a b) s = issue s st 4 (countAccess s .cntarm (xr s a) (xr s b)) p (some .reply) := by
  refine (if_neg (not_not.mpr hres)).trans ?_
  exact h.issues (fresh_countAccess s (op := .cntarm) (fun _ => ⟨nofun, nofun⟩) (xr s a) (xr s b)) rfl st (some .reply)

/-- What the home does for CNTARM: it refuses, arms, or arms and fires. -/
theorem applyOp_cntarm (h : OwnCounter s a false true true p v) (st : Stall) (x : Word) :
    ∃ t part, applyOp (issued s st 4 (countAccess s .cntarm (xr s a) x)) (countAccess s .cntarm (xr s a) x) (ownStamp s) p =
        (if x.toNat % 2 ^ 32 < Memory.read s.mem v.key 8 then
          failOwn (issued s st 4 (countAccess s .cntarm (xr s a) x)) (countAccess s .cntarm (xr s a) x) fCNTOVER
        else okWord (if Memory.read s.mem v.key 8 = x.toNat % 2 ^ 32 then
            fireCounter t s.cur.core part ((absAdr s s.cur.core (xr s a)).getD (xr s a)) v.key
          else t) (countAccess s .cntarm (xr s a) x) 0) ∧
      HomeOnly (issued s st 4 (countAccess s .cntarm (xr s a) x)) t ∧ t.mem = armedBy s v.key x ∧ t.flight = s.flight := by
  generalize hacc : countAccess s .cntarm (xr s a) x = acc
  have hfresh : Fresh s acc := hacc ▸ fresh_countAccess s (op := .cntarm) (fun _ => ⟨nofun, nofun⟩) (xr s a) x
  have hbefore := h.own.before_service h.quiet.worker h.notMirror h.notPriv
  have habs : acc.absolute { issued s st 4 acc with mem := armedBy s v.key x } = (absAdr s s.cur.core (xr s a)).getD (xr s a) := by
    have hcores (m : Nat) : coreAdr { issued s st 4 acc with mem := armedBy s v.key x } acc.core m = coreAdr s acc.core m := by
      rw [hfresh.core]
      exact (coreAdr_congr (s := { s with mem := armedBy s v.key x }) (by rfl) _ _).trans
        (coreAdr_armedMem h.quiet.mem hbefore _ _ _ m)
    rw [absolute_congr hcores, ← hacc]
    rfl
  have hval : acc.val.toNat % wordMod = x.toNat := by
    rw [← hacc, countAccess_val]
    exact Nat.mod_eq_of_lt x.isLt
  refine ⟨{ issued s st 4 acc with mem := armedBy s v.key x }, acc.part, ?_, homeOnly_mem .., rfl, rfl⟩
  rw [applyOp_of_cntarm (show acc.op = .cntarm by rw [← hacc]; rfl), applyCntarm, hval, ← habs, hfresh.home, hfresh.core]
  exact withBoth_own h.own.own h.own.plain h.notMirror (OwnAt.seen hfresh h.own st 4) _

theorem cntarm_rests (h : OwnCounter s a false true true p v) (st : Stall) {b : Reg} (hres : bitsOf (xr s b) 38 26 = 0)
    (hbelow : Memory.read s.mem v.key 8 < (xr s b).toNat % 2 ^ 32) :
    AccessOnly (.cntarm st a b) s st 4 s.full fun u => ReadsArmed s u.mem v.key (xr s b) (128 + bitsOf (xr s b) 32 6) := by
  have hfresh := fresh_countAccess s (op := .cntarm) (fun _ => ⟨nofun, nofun⟩) (xr s a) (xr s b)
  obtain ⟨t, part, hap, hhome, hmem, hflight⟩ := h.applyOp_cntarm st (xr s b)
  rw [if_neg (Nat.not_lt_of_gt hbelow), if_neg (Nat.ne_of_lt hbelow)] at hap
  refine accessOnly_word h.quiet (h.exec_cntarm st hres) (.of hfresh h.own) rfl rfl h.own.leads hap hhome hflight fun u hu => ?_
  rw [hu, hmem]
  exact readsArmed_armedBy h.quiet.mem v.key (xr s b)

theorem cntarm_fires (h : OwnCounter s a false true true p v) (st : Stall) {b : Reg} (hres : bitsOf (xr s b) 38 26 = 0)
    (hreached : Memory.read s.mem v.key 8 = (xr s b).toNat % 2 ^ 32) (hwho : coreExists (s.cur.core % 2 ^ 24) = true) :
    Fires (.cntarm st a b) s st (s.cur.core % 2 ^ 24) (bitsOf (xr s b) 32 6) ((absAdr s s.cur.core (xr s a)).getD (xr s a))
      (Memory.read s.mem v.key 8) fun u => ReadsArmed s u.mem v.key (xr s b) (bitsOf (xr s b) 32 6) := by
  have hfresh := fresh_countAccess s (op := .cntarm) (fun _ => ⟨nofun, nofun⟩) (xr s a) (xr s b)
  obtain ⟨t, part, hap, hhome, hmem, hflight⟩ := h.applyOp_cntarm st (xr s b)
  obtain ⟨-, harm, hdst, -⟩ := readsArmed_armedBy h.quiet.mem v.key (xr s b)
  rw [if_neg (by omega), if_pos hreached] at hap
  have hcls : bitsOf (xr s b) 32 6 < 64 := Nat.mod_lt _ (by decide)
  have hsent := fireCounter_sent (s := t) (key := v.key) (by rw [hmem]; exact armedMem_wf h.quiet.mem ..)
    (by rw [hmem, hdst]; exact hwho) s.cur.core part ((absAdr s s.cur.core (xr s a)).getD (xr s a))
  rw [hmem, hdst, harm, show (128 + bitsOf (xr s b) 32 6) % 64 = bitsOf (xr s b) 32 6 by omega,
    show Memory.read (armedBy s v.key (xr s b)) v.key 8 = Memory.read s.mem v.key 8 from armedMem_count h.quiet.mem ..,
    ContinuationSent, hflight] at hsent
  refine fires_word h.quiet (h.exec_cntarm st hres) (.of hfresh h.own) rfl rfl h.own.leads hap
    (hhome.trans (homeOnly_fireCounter ..)) hsent fun u hu => ?_
  rw [hu]
  exact readsArmed_fired h.quiet.mem hmem ..

theorem cntrd_reads (h : OwnCounter s a true true false p v) (st : Stall) (d : Reg) :
    AccessX (.cntrd st d a) s st 4 d (BitVec.ofNat 64 (Memory.read s.mem v.key 8)) s.full (MemSame s) := by
  generalize hacc : ({ newAccess s .cntrd (xr s a) 4 with dest := xCode d } : Access) = acc
  have hfresh : Fresh s acc := by
    rw [← hacc]
    exact ⟨rfl, rfl, rfl, rfl, rfl, rfl, rfl, rfl, rfl, rfl, rfl, fun _ => ⟨nofun, nofun⟩⟩
  have hexec : exec (.cntrd st d a) s = issue s st 4 acc p none :=
    hacc ▸ h.issues (hacc ▸ hfresh) rfl st none
  have hplace : placeOf (issued s st 4 acc) acc = .ok p := by rw [← hacc]; exact h.own.leads
  have hop : acc.op = .cntrd := by rw [← hacc]; rfl
  have hap : applyOp (issued s st 4 acc) acc (ownStamp s) p =
      okWord { issued s st 4 acc with mem := s.mem, full := s.full } acc (Memory.read s.mem v.key 8) :=
    (applyOp_of_cntrd hop).trans (applyCntrd_own h.own.own h.own.plain h.notMirror (OwnAt.seen hfresh h.own st 4))
  exact accessX_of h.quiet hexec (.of hfresh h.own) (by rw [Access.slotted, hop]; rfl) (by rw [hop]; exact nofun) (by rw [← hacc])
    (by rw [← hacc]; rfl) hplace hap fun t ht k => by rw [ht]

end OwnCounter

end Sys2Proof.Machine

/-! ## An own access that faults after its issue (R199) -/

namespace Sys2Proof.Machine

/-- `t` differs from `s` at most in its cores and in the requests that are kept. -/
def CoresOnly (s t : State) : Prop :=
  t = { s with
    cores := t.cores
    keptReq := t.keptReq }

namespace CoresOnly

variable {s t u : State}

theorem trans (h : CoresOnly s t) (h' : CoresOnly t u) : CoresOnly s u := by rw [CoresOnly, h', h]
theorem mem (h : CoresOnly s t) : t.mem = s.mem := by rw [h]
theorem full (h : CoresOnly s t) : t.full = s.full := by rw [h]
theorem flight (h : CoresOnly s t) : t.flight = s.flight := by rw [h]
theorem held (h : CoresOnly s t) : t.held = s.held := by rw [h]
theorem cur (h : CoresOnly s t) : t.cur = s.cur := by rw [h]

end CoresOnly

theorem WakesOnly.coresOnly {s t : State} (h : WakesOnly s t) : CoresOnly s t := by rw [CoresOnly, h.rest]

/-- A context waits for the upcall of a fault (R199). -/
def WaitsUpcall (t : Ctx) (code : Nat) (adr pc : Word) : Prop :=
  t.st = .parked ∧ t.cause = .upcall ∧ t.fcode = code ∧ t.fadr = adr ∧ t.fpc = pc

/-- A context as the upcall of its fault leaves it, with the access that waits for it. -/
def Ctx.upcalled (t : Ctx) (code : Nat) (adr pc : Word) (len : Nat) (kept : Option Access) : Ctx :=
  { t with
    st := .parked
    cause := .upcall
    fcode := code
    fadr := adr
    fpc := pc
    flen := len
    late := kept.isSome
    kept := kept
    bwait := none
    block := .none }

/-- An upcall queues a record and parks its context. -/
theorem raiseUpcall_parks {s : State} {n c : Nat} (h : (ctxAt s n c).c63 = false) (code : Nat) (adr pc : Word) (len : Nat)
    (kept : Option Access) : CoresOnly s (raiseUpcall s n c code adr pc len kept) ∧
      WaitsUpcall (ctxAt (raiseUpcall s n c code adr pc len kept) n c) code adr pc := by
  have hraise : raiseUpcall s n c code adr pc len kept =
      queueUpcall (setCtx s n c ((ctxAt s n c).upcalled code adr pc len kept)) n ⟨code, adr, c, pc, 0, partNum s n, none⟩ :=
    if_neg (by simp [h])
  have hhalt : ((ctxAt s n c).upcalled code adr pc len kept).woken .halt = (ctxAt s n c).upcalled code adr pc len kept :=
    Ctx.woken_of_cause nofun
  rw [hraise, queueUpcall]
  refine ⟨.trans (by rfl) (wakesOnly_wakeHalted ..).coresOnly, ?_⟩
  rw [ctxAt_wakeHalted, if_pos rfl, ctxAt_setCore (by rfl), ctxAt_setCtx_same, hhalt]
  exact ⟨rfl, rfl, rfl, rfl, rfl⟩

/-- A fault that is the user's own: no supervisor is told of it, and it is no loss. -/
structure UserFault (core code : Nat) (adr : Word) : Prop where
  space : isSupSpace core adr = false
  user : toSupervisor code = false
  notLost : code ≠ fDIELOST

/-- A late fault of a running context is an upcall. -/
theorem lateFault_running {s : State} {a : Access} {code : Nat} {adr : Word} (hop : ∀ n, a.op ≠ .payload n)
    (hact : (ctxAt s a.core a.ctx).act = a.act) (hrun : (ctxAt s a.core a.ctx).st = .running) (hc63 : (ctxAt s a.core a.ctx).c63 = false)
    (hfault : UserFault a.core code adr) :
    lateFault s a code adr = raiseUpcall s a.core a.ctx code adr a.pc a.len (some a.whole) := by
  obtain ⟨hspace, huser, hlost⟩ := hfault
  unfold lateFault
  dsimp only
  split
  · next n hn => exact absurd hn (hop n)
  · simp [hact, hrun, hc63, hspace, huser, hlost]

/-- The fault of the newest access, which is only acknowledged. -/
theorem deliver_fault {t : State} {a : Access} {code : Nat} {adr : Word} {old : List Unack} (hop : ∀ n, a.op ≠ .payload n)
    (hs : a.slotted = false) (hacks : (ctxAt t a.core a.ctx).acks = old ++ [⟨a.num, a.gen, a.home, a.op.vector, 1, none⟩])
    (hold : ∀ r ∈ old, r.num < a.num) (hact : (ctxAt t a.core a.ctx).act = a.act) (hrun : (ctxAt t a.core a.ctx).st = .running)
    (hc63 : (ctxAt t a.core a.ctx).c63 = false) (hfault : UserFault a.core code adr) (vec : Vec16) :
    CoresOnly t (deliver t ⟨a, .fault code adr, 0, [], vec⟩) ∧
      WaitsUpcall (ctxAt (deliver t ⟨a, .fault code adr, 0, [], vec⟩) a.core a.ctx) code adr a.pc := by
  obtain ⟨x, hxact, hxrun, hxc63, hdeliver⟩ : ∃ x : Ctx, x.act = a.act ∧ x.st = .running ∧ x.c63 = false ∧
      deliver t ⟨a, .fault code adr, 0, [], vec⟩ = lateFault (setCtx (forgetAnswered t a) a.core a.ctx x) a code adr := by
    generalize hnoted : (Unack.mk _ _ _ _ _ _) = u at hacks
    refine ⟨{ ctxAt t a.core a.ctx with acks := (ctxAt t a.core a.ctx).acks.map fun y => if y.num = a.num then
      { u with left := 0, flt := some (lowLane a.pred, code, adr) } else y }, hact, hrun, hc63, ?_⟩
    have hctx : ctxAt (forgetAnswered t a) a.core a.ctx = ctxAt t a.core a.ctx := rfl
    have hnow : ¬((ctxAt t a.core a.ctx).act ≠ a.act ∨ (ctxAt t a.core a.ctx).st = .free) := by rw [hact, hrun]; simp
    have hfind : (ctxAt t a.core a.ctx).acks.find? (fun u => u.num == a.num) = some u := by
      rw [hacks]
      exact findAck_new hold u (by rw [← hnoted])
    unfold deliver
    dsimp only
    rw [hctx, if_neg hnow, if_neg (by simp [hs]), deliverAck]
    dsimp only
    rw [hctx, hfind]
    subst hnoted
    rfl
  rw [hdeliver, lateFault_running hop (by rw [ctxAt_setCtx_same]; exact hxact) (by rw [ctxAt_setCtx_same]; exact hxrun)
    (by rw [ctxAt_setCtx_same]; exact hxc63) hfault]
  obtain ⟨honly, hwaits⟩ := raiseUpcall_parks (s := setCtx (forgetAnswered t a) a.core a.ctx x) (n := a.core) (c := a.ctx)
    (by rw [ctxAt_setCtx_same]; exact hxc63) code adr a.pc a.len (some a.whole)
  exact ⟨.trans (by rfl) honly, hwaits⟩

/-- A context that is parked already is not parked for its access. -/
theorem parkFor_parked {s : State} (h : (me s).st = .parked) (n : Nat) (c : Cause) : parkFor s n c = s := if_neg (by simp [h])

/-- An own access that its home refuses at once, when it is only acknowledged: its context waits for an upcall. -/
theorem issue_own_fault {s : State} (h : Quiet s) {a : Access} {p : Place} (ha : OwnAccess s a p) (st : Stall) (len : Nat)
    (wait : Option Cause) (hs : a.slotted = false) (hop : ∀ n, a.op ≠ .payload n) (hp : placeOf (issued s st len a) a = .ok p)
    {code : Nat} {adr : Word} (hap : applyOp (issued s st len a) a (ownStamp s) p = failReply (issued s st len a) a code adr)
    (hc63 : (me s).c63 = false) (hfault : UserFault s.cur.core code adr) :
    ∃ u, issue s st len a p wait = .next u ∧ u.mem = s.mem ∧ u.full = s.full ∧ u.flight = s.flight ∧
      WaitsUpcall (me u) code adr a.pc := by
  obtain ⟨g, hnote⟩ := noteAccess_unslotted (t := wentOn s st len) hs
  have hissued : me (issued s st len a) = noteAccess (wentOn s st len) a 1 := me_issued s st len a
  have hctx : ctxAt (issued s st len a) a.core a.ctx = me (issued s st len a) := by
    rw [ha.core, ha.ctx]
    rfl
  rw [hissued, hnote] at hctx
  obtain ⟨honly, hwaits⟩ := deliver_fault (t := issued s st len a) (old := (me s).acks) hop hs (by rw [hctx]; rfl)
    (by rw [ha.num]; exact h.acks) (by rw [hctx, ha.act]; rfl) (by rw [hctx]; exact h.runs) (by rw [hctx]; exact hc63)
    (by rw [ha.core]; exact hfault) (replyVec (issued s st len a) a)
  have hsend := sendAccess_own h ha st len hp
  rw [hap, show settle (issued s st len a) a (ownStamp s) (s.serial + 1) (failReply (issued s st len a) a code adr) true =
    deliver (issued s st len a) ⟨a, .fault code adr, 0, [], replyVec (issued s st len a) a⟩ from rfl] at hsend
  generalize deliver (issued s st len a) _ = u at honly hwaits hsend
  have hme : ctxAt u a.core a.ctx = me u := by
    rw [ha.core, ha.ctx, me, honly.cur]
    rfl
  rw [hme] at hwaits
  rw [afterServe_quiet (honly.held.trans h.held)] at hsend
  have ⟨hparked, _⟩ := hwaits
  refine ⟨u, ?_, honly.mem, honly.full, honly.flight, hwaits⟩
  rw [issue_eq s st len a p wait h.room (by rw [ha.home, ha.who]), hsend]
  cases wait with
  | none => rfl
  | some c => exact congrArg Host.Outcome.next (parkFor_parked hparked _ _)

/-- CNTARM on a counter that is above the target. -/
theorem OwnCounter.cntarm_over {s : State} {a b : Reg} {p : Place} {v : View} (h : OwnCounter s a false true true p v) (st : Stall)
    (hres : bitsOf (xr s b) 38 26 = 0) (habove : (xr s b).toNat % 2 ^ 32 < Memory.read s.mem v.key 8) (hc63 : (me s).c63 = false) :
    ∃ u, exec (.cntarm st a b) s = .next u ∧ u.mem = s.mem ∧ u.full = s.full ∧ u.flight = s.flight ∧
      WaitsUpcall (me u) fCNTOVER (xr s a) (me s).pc := by
  have hfresh := fresh_countAccess s (op := .cntarm) (fun _ => ⟨nofun, nofun⟩) (xr s a) (xr s b)
  obtain ⟨t, part, hap, -⟩ := h.applyOp_cntarm st (xr s b)
  rw [if_pos habove] at hap
  have hspace : isSupSpace s.cur.core (xr s a) = false := by
    have hworker : dieField s.cur.core < 8 := of_decide_eq_true h.quiet.worker
    have hnot : isSupCore s.cur.core = false := beq_false_of_ne (Nat.ne_of_lt hworker)
    rw [isSupSpace, hnot, Bool.false_and, Bool.false_and]
  obtain ⟨u, hu, hleft⟩ := issue_own_fault h.quiet (.of hfresh h.own) st 4 (some .reply) rfl nofun h.own.leads hap hc63
    ⟨hspace, by decide, by decide⟩
  exact ⟨u, (h.exec_cntarm st hres).trans hu, hleft⟩

/-! ## The obligation -/

/-- Settles O13: the home of an own counter answers at once, and what it did to the counter, with the continuation that it sent or
the fault that it found, is all that the instruction does. -/
theorem countersCount : Obligations.CountersCount := by
  refine ⟨?_, fun s home part adr key x hw harmed hreach hwho => addCounter_fired hw harmed hreach hwho home part adr⟩
  intro s st d a b p v
  dsimp only
  intro hquiet hmirror hpriv halign
  refine ⟨fun hown => ?_, fun hres => if_pos hres, fun hown => ?_⟩
  · have h : OwnCounter s a false true true p v := ⟨hquiet, hmirror, hpriv, halign, hown⟩
    refine ⟨fun hrests => h.cntadd_rests st hrests, fun harmed hreach hwho => ?_, fun hres hbelow => h.cntarm_rests st hres hbelow,
      fun hres hreached hwho => ?_, fun hres habove hc63 => h.cntarm_over st hres habove hc63⟩
    · obtain ⟨u, hexec, hothers, hwent, hfull, ⟨q, m, hflight, hbody, hsrc, hdst, hnet, hkind, hcls, hargs, hnarg⟩, hmem⟩ :=
        h.cntadd_fires st harmed hreach hwho
      exact ⟨u, q, m, hexec, hothers, hwent, hfull, hflight, hbody, hsrc, hdst, hnet, hkind, hcls, hargs, hnarg, hmem⟩
    · obtain ⟨u, hexec, hothers, hwent, hfull, ⟨q, m, hflight, hbody, hsrc, hdst, hnet, hkind, hcls, hargs, hnarg⟩, hmem⟩ :=
        h.cntarm_fires st hres hreached hwho
      exact ⟨u, q, m, hexec, hothers, hwent, hfull, hflight, hbody, hsrc, hdst, hnet, hkind, hcls, hargs, hnarg, hmem⟩
  · exact OwnCounter.cntrd_reads ⟨hquiet, hmirror, hpriv, halign, hown⟩ st d

end Sys2Proof.Machine

/-! ## Memory stays canonical in every step (R62, R67, R71) -/

namespace Sys2Proof.Machine

-- Proofs elaborated all at once need more threads than the memory limit of the check allows.
set_option Elab.async false

/-- The memory of a state is in its canonical form. -/
def Canonical (s : State) : Prop := Memory.wf s.mem = true

/-! ### States inside results

A theorem `Canonical.f` below says of the model's function `f` that what it answers from canonical states holds only canonical
states. The functions stand in the model's order, each proved from those it calls; the writes of memory are at the bottom. -/

/-- The state that a step answers, if it answers one, is canonical. -/
def CanonicalOut (o : Out) : Prop := ∀ t, o = .next t → Canonical t

/-- An optional state. -/
def CanonicalSome (o : Option State) : Prop := ∀ t, o = some t → Canonical t

/-- An optional state beside a number. -/
def CanonicalSomeSnd (o : Option (Nat × State)) : Prop := ∀ n t, o = some (n, t) → Canonical t

/-- The state of a computation that succeeds. -/
def CanonicalOk {ε : Type} (x : Except ε State) : Prop := ∀ t, x = .ok t → Canonical t

/-- The state of a computation that succeeds with a value. -/
def CanonicalOkFst {ε α : Type} (x : Except ε (State × α)) : Prop := ∀ t a, x = .ok (t, a) → Canonical t

/-- The state that a Mill command's work leaves. -/
def CanonicalMill (x : Except Unit MillOut) : Prop := ∀ o, x = .ok o → Canonical o.s

/-- The states in which an access has been applied, at once or in parts. -/
def Applied.Canonical (x : Applied) : Prop := ∀ t, (∃ r, x = .answer t r) ∨ x = .parts t → Machine.Canonical t

/-- The states that a step of a copy command leaves. -/
def CopyStep.Canonical : CopyStep → Prop
  | .more t _ => Machine.Canonical t
  | .over t => Machine.Canonical t
  | .wait => True

/-- The states that a step of a routing command leaves. -/
def DispStep.Canonical : DispStep → Prop
  | .more t _ => Machine.Canonical t
  | .over t => Machine.Canonical t
  | .wait => True

/-- The state that an accepted write of a special register leaves. -/
def Written.Canonical : Written → Prop
  | .ok t => Machine.Canonical t
  | .bad _ => True

/-- The state of a core's cycle, which ends there or runs an instruction. -/
def Cycle.Canonical : Cycle → Prop
  | .over t => Machine.Canonical t
  | .run t _ => Machine.Canonical t

/-- The state that a move of the machine by itself leaves. -/
def Move.Canonical : Move → Prop
  | .state t => Machine.Canonical t
  | _ => True

variable {s t u : State}

theorem Canonical.ite {c : Prop} {_ : Decidable c} (h : Canonical s) (h' : Canonical t) : Canonical (if c then s else t) := by
  split <;> assumption

theorem Canonical.foldl {α : Type} {f : State → α → State} {l : List α} (h : Canonical s)
    (hf : ∀ t a, Canonical t → Canonical (f t a)) : Canonical (l.foldl f s) := by
  induction l generalizing s with
  | nil => exact h
  | cons a l ih => exact ih (hf s a h)

theorem Canonical.of_mem {m : List Host.Cell} (h : Memory.wf m = true) (ht : s.mem = m := by rfl) : Canonical s := by
  rw [Canonical, ht]; exact h

theorem Canonical.withAborted {l : List Nat} (h : Canonical s) : Canonical { s with aborted := l } := h
theorem Canonical.withCur {c : Cur} (h : Canonical s) : Canonical { s with cur := c } := h

theorem canonical_foldl_snd {α β : Type} {f : β × State → α → β × State} {l : List α} {r : β × State} (h : Canonical r.2)
    (hf : ∀ r a, Canonical r.2 → Canonical (f r a).2) : Canonical (l.foldl f r).2 := by
  induction l generalizing r with
  | nil => exact h
  | cons a l ih => exact ih (hf r a h)

theorem canonical_next (h : Canonical s) : CanonicalOut (.next s) := fun _ ht => Host.Outcome.next.inj ht ▸ h
theorem canonical_fault {e : Fault} : CanonicalOut (.fault e) := fun _ ht => by cases ht
theorem canonical_refused {r : Refusal} : CanonicalOut (.refused r) := fun _ ht => by cases ht

theorem canonical_some (h : Canonical s) : CanonicalSome (some s) := fun _ ht => Option.some.inj ht ▸ h

theorem canonical_someSnd {p : Nat × State} (h : Canonical p.2) : CanonicalSomeSnd (some p) := by
  rintro n t ⟨⟩; exact h

theorem canonical_ok {ε : Type} (h : Canonical s) : CanonicalOk (.ok s : Except ε State) := fun _ ht => Except.ok.inj ht ▸ h

theorem canonical_okFst {ε α : Type} {p : State × α} (h : Canonical p.1) : CanonicalOkFst (.ok p : Except ε (State × α)) := by
  rintro t a ⟨⟩; exact h

theorem canonical_mill {o : MillOut} (h : Canonical o.s) : CanonicalMill (.ok o) := fun _ ht => Except.ok.inj ht ▸ h

theorem canonical_none : CanonicalSome none := nofun
theorem canonical_noneSnd : CanonicalSomeSnd none := nofun
theorem canonical_error {ε : Type} {e : ε} : CanonicalOk (.error e : Except ε State) := fun _ ht => by cases ht
theorem canonical_errorFst {ε α : Type} {e : ε} : CanonicalOkFst (.error e : Except ε (State × α)) :=
  fun _ _ ht => by cases ht
theorem canonical_errorMill {e : Unit} : CanonicalMill (.error e) := fun _ ht => by cases ht

theorem canonical_snd {α : Type} {p : α × State} {a : α} (hp : p = (a, s)) (h : Canonical p.2) : Canonical s := by
  subst hp; exact h

theorem canonical_fst {α : Type} {p : State × α} {a : α} (hp : p = (s, a)) (h : Canonical p.1) : Canonical s := by
  subst hp; exact h

/-! ### Memory -/

theorem Memory.wfFrom_filter {m : List Host.Cell} {lo : Nat} (p : Host.Cell → Bool) (h : Memory.wfFrom lo m = true) :
    Memory.wfFrom lo (m.filter p) = true := by
  induction m generalizing lo with
  | nil => rfl
  | cons e r ih =>
    obtain ⟨k, b⟩ := e
    have hk := h
    simp only [Memory.wfFrom, Bool.and_eq_true, decide_eq_true_eq] at hk
    obtain ⟨⟨hlo, hb⟩, hr⟩ := hk
    rw [List.filter_cons]
    split
    · simp only [Memory.wfFrom, Bool.and_eq_true, decide_eq_true_eq]
      exact ⟨⟨hlo, hb⟩, ih hr⟩
    · exact ih (Memory.wfFrom_mono hr (by omega))

section
variable {m : List Host.Cell}

theorem Memory.wf_filter (p : Host.Cell → Bool) (h : Memory.wf m = true) : Memory.wf (m.filter p) = true :=
  Memory.wfFrom_filter p h

theorem Memory.wf_clearRange {lo len : Nat} (h : Memory.wf m = true) : Memory.wf (clearRange m lo len) = true :=
  Memory.wf_filter _ h

theorem Memory.wf_flipBit {key bit : Nat} (h : Memory.wf m = true) : Memory.wf (flipBit m key bit) = true :=
  Memory.wf_put _ _ h

theorem Memory.wf_putHeads {ks hs : List Nat} (h : Memory.wf m = true) : Memory.wf (putHeads m ks hs) = true := by
  induction ks generalizing m hs with
  | nil => exact h
  | cons k ks ih =>
    cases hs with
    | nil => exact h
    | cons x hs => exact ih (Memory.wf_write _ _ _ h)

theorem Memory.wf_putMasked {key n data mask : Nat} (h : Memory.wf m = true) : Memory.wf (putMasked m key n data mask) = true :=
  Memory.wf_write _ _ _ h

theorem Memory.wf_putPlane {k : Nat} {p : Plane} (h : Memory.wf m = true) : Memory.wf (putPlane m k p) = true := by
  unfold putPlane
  split
  exacts [h, Memory.wf_putBytes _ _ h]

end

theorem Memory.wf_putAccs {m : List Host.Cell} {k : Nat} {l : List (Nat × BitVec 32)} (h : Memory.wf m = true) :
    Memory.wf (putAccs m k l) = true := by
  unfold putAccs
  induction l generalizing m with
  | nil => exact h
  | cons e l ih => exact ih (Memory.wf_write _ _ _ h)

theorem Memory.wf_saveMill {m : List Host.Cell} {k : Nat} {c : Mill} (h : Memory.wf m = true) :
    Memory.wf (saveMill m k c) = true :=
  Memory.wf_putBytes _ _ (Memory.wf_putPlane (Memory.wf_putPlane (Memory.wf_putAccs (Memory.wf_putBytes _ _ (Memory.wf_clearRange h)))))

/-! ### The state that a result holds -/

theorem canonical_answer {r : Reply} (h : Canonical s) : Applied.Canonical (.answer s r) := by
  rintro t (⟨r', ht⟩ | ht) <;> cases ht
  exact h

theorem canonical_parts (h : Canonical s) : Applied.Canonical (.parts s) := by
  rintro t (⟨r', ht⟩ | ht) <;> cases ht
  exact h

theorem canonical_wait : Applied.Canonical .wait := by
  rintro t (⟨r', ht⟩ | ht) <;> cases ht

theorem Applied.Canonical.answer {x : Applied} {r : Reply} (h : x.Canonical) (hx : x = .answer t r) : Machine.Canonical t :=
  h t (.inl ⟨r, hx⟩)

theorem Applied.Canonical.parts {x : Applied} (h : x.Canonical) (hx : x = .parts t) : Machine.Canonical t := h t (.inr hx)

theorem Applied.Canonical.ite {c : Prop} {_ : Decidable c} {x y : Applied} (hx : x.Canonical) (hy : y.Canonical) :
    (if c then x else y).Canonical := by
  split <;> assumption

theorem CopyStep.Canonical.more {x : CopyStep} {c : CopyCmd} (h : x.Canonical) (hx : x = .more t c) : Machine.Canonical t := by
  subst hx; exact h

theorem CopyStep.Canonical.over {x : CopyStep} (h : x.Canonical) (hx : x = .over t) : Machine.Canonical t := by
  subst hx; exact h

theorem DispStep.Canonical.more {x : DispStep} {c : DispCmd} (h : x.Canonical) (hx : x = .more t c) : Machine.Canonical t := by
  subst hx; exact h

theorem DispStep.Canonical.over {x : DispStep} (h : x.Canonical) (hx : x = .over t) : Machine.Canonical t := by
  subst hx; exact h

theorem Written.Canonical.ok {x : Written} (h : x.Canonical) (hx : x = .ok t) : Machine.Canonical t := by
  subst hx; exact h

theorem Cycle.Canonical.over {x : Cycle} (h : x.Canonical) (hx : x = .over t) : Machine.Canonical t := by
  subst hx; exact h

theorem Cycle.Canonical.run {x : Cycle} {i : Instr} (h : x.Canonical) (hx : x = .run t i) : Machine.Canonical t := by
  subst hx; exact h

theorem Move.Canonical.state {x : Move} (h : x.Canonical) (hx : x = .state t) : Machine.Canonical t := by
  subst hx; exact h

theorem CanonicalSome.getD {o : Option State} (h : CanonicalSome o) (hs : Canonical s) : Canonical (o.getD s) := by
  cases o with
  | none => exact hs
  | some t => exact h t rfl

theorem canonical_map {α : Type} {o : Option α} {f : α → State} (h : ∀ a, o = some a → Canonical (f a)) :
    CanonicalSome (o.map f) := by
  rintro t ht
  obtain ⟨a, ha, rfl⟩ := Option.map_eq_some_iff.mp ht
  exact h a ha

theorem canonical_bind {α : Type} {o : Option α} {f : α → Option State} (h : ∀ a, CanonicalSome (f a)) :
    CanonicalSome (o.bind f) := by
  rintro t ht
  obtain ⟨a, -, ha⟩ := Option.bind_eq_some_iff.mp ht
  exact h a t ha

theorem canonical_findSome {α : Type} {l : List α} {f : α → Option State} (h : ∀ a, CanonicalSome (f a)) :
    CanonicalSome (l.findSome? f) := by
  rintro t ht
  obtain ⟨a, -, ha⟩ := List.exists_of_findSome?_eq_some ht
  exact h a t ha

theorem canonical_firstOf {is : List Nat} {f : Nat → Option State} (h : ∀ n, CanonicalSome (f n)) : CanonicalSome (firstOf is f) :=
  canonical_findSome h

theorem canonical_ifMoved {α : Type} [DecidableEq α] {look : State → α} (h : Canonical t) : CanonicalSome (ifMoved look s t) := by
  unfold ifMoved
  split
  exacts [canonical_none, canonical_some h]

/-! ### Ops -/

theorem Canonical.setCore {n} {k} (h : Canonical s) : Canonical (setCore s n k) := h

theorem Canonical.setCtx {n} {c} {t} (h : Canonical s) : Canonical (setCtx s n c t) := h.setCore

theorem Canonical.setDie {d} {k} (h : Canonical s) : Canonical (setDie s d k) := h

theorem Canonical.setPkg {p} {k} (h : Canonical s) : Canonical (setPkg s p k) := h

theorem Canonical.setPod {p} {k} (h : Canonical s) : Canonical (setPod s p k) := h

theorem Canonical.setBar {key} {b} (h : Canonical s) : Canonical (setBar s key b) := h

theorem Canonical.setMe {t} (h : Canonical s) : Canonical (setMe s t) := h.setCtx

theorem Canonical.setMyCore {k} (h : Canonical s) : Canonical (setMyCore s k) := h.setCore

theorem Canonical.fresh (h : Canonical s) : Canonical (fresh s).2 := Canonical.of_mem h

theorem Canonical.setSvc {pkg} {off} {n} {v} (h : Canonical s) :
    Canonical (setSvc s pkg off n v) := Canonical.of_mem (Memory.wf_write _ _ _ h)

theorem Canonical.setStop {pkg} {p} {v} (h : Canonical s) : Canonical (setStop s pkg p v) := h.setSvc

theorem Canonical.wrX {lat} {r} {v} (h : Canonical s) : Canonical (wrX s lat r v) := h.setMe

theorem Canonical.wrV {lat} {r} {v} {mask} (h : Canonical s) : Canonical (wrV s lat r v mask) := h.setMe

theorem Canonical.wrP {lat} {r} {v} {mask} (h : Canonical s) : Canonical (wrP s lat r v mask) := h.setMe

theorem Canonical.jumpTo {st} {n} (h : Canonical s) : Canonical (jumpTo s st n) := h.setMe

theorem Canonical.advance {st} {len} (h : Canonical s) : Canonical (advance s st len) := h.jumpTo

theorem Canonical.done {st} {len} (h : Canonical s) : CanonicalOut (done st len s) := canonical_next h.advance

theorem Canonical.stampOf {src} {dst} {isWrite} (h : Canonical s) : Canonical (stampOf s src dst isWrite).2 := by
  unfold Machine.stampOf
  dsimp only
  split
  · exact h
  · split
    · exact h
    · split
      · exact h
      · split
        · exact h.setDie
        · split
          exacts [h.setDie.setPkg, h.setDie]

theorem Canonical.transmit {src} {dst} {net} {part} {inc} {isWrite} {body} (h : Canonical s) :
    Canonical (transmit s src dst net part inc isWrite body) := by
  unfold Machine.transmit
  dsimp only
  split <;> exact Canonical.of_mem h.stampOf

theorem Canonical.parkHere {c} (h : Canonical s) : Canonical (parkHere s c) := h.setMe

theorem Canonical.wakeAll {n} {c} (h : Canonical s) : Canonical (wakeAll s n c) := h.setCore

theorem Canonical.wakePkg {pkg} {c} (h : Canonical s) : Canonical (wakePkg s pkg c) := h.foldl fun _ _ h => h.wakeAll.ite h

theorem Canonical.dropSlot {n} {c} (h : Canonical s) :
    Canonical (dropSlot s n c) := Canonical.setCtx (by split; exacts [h.setCore, h])

theorem Canonical.giveSlot {n} {c} (h : Canonical s) : Canonical (giveSlot s n c) := by
  unfold Machine.giveSlot
  split
  exacts [h.dropSlot.wakeAll, h.dropSlot]

theorem Canonical.mergeWrite {src} {home} {stamp} {vec} (h : Canonical s) : Canonical (mergeWrite s src home stamp vec) := by
  unfold Machine.mergeWrite
  dsimp only
  split
  exacts [h, h.setDie]

theorem Canonical.sendUnreserved {src} {dst} {cls} {args} {part} (h : Canonical s) :
    Canonical (sendUnreserved s src dst cls args part) := h.transmit

theorem Canonical.supMessage {n} {c} {code} {c63} {engine} {adr} {pc} (h : Canonical s) :
    Canonical (supMessage s n c code c63 engine adr pc) := h.sendUnreserved

theorem Canonical.raiseSup {n} {c} {code} {adr} {pc} (h : Canonical s) :
    Canonical (raiseSup s n c code adr pc) := h.setCtx.supMessage

theorem Canonical.noteWork {n} {job} (h : Canonical s) : Canonical (noteWork s n job) := by
  unfold Machine.noteWork
  dsimp only
  split
  exacts [h, h.setCore]

theorem Canonical.wakeHalted {n} (h : Canonical s) : Canonical (wakeHalted s n) := (h.foldl fun _ _ h => h.noteWork).wakeAll

theorem Canonical.queueUpcall {n} {u} (h : Canonical s) : Canonical (queueUpcall s n u) := h.setCore.wakeHalted

theorem Canonical.raiseUpcall {n} {c} {code} {adr} {pc} {len} {kept} (h : Canonical s) :
    Canonical (raiseUpcall s n c code adr pc len kept) := by
  unfold Machine.raiseUpcall
  dsimp only
  split
  exacts [h.raiseSup, h.setCtx.queueUpcall]

theorem Canonical.raiseNotice {n} {c} {code} {adr} {die} (h : Canonical s) : Canonical (raiseNotice s n c code adr die) := by
  unfold Machine.raiseNotice
  dsimp only
  split
  exacts [h.queueUpcall, h.setCore]

theorem Canonical.raiseSupExc {n} {c} {code} {adr} {pc} (h : Canonical s) :
    Canonical (raiseSupExc s n c code adr pc) := h.setCtx

theorem Canonical.supFault {code} {adr} (h : Canonical s) : CanonicalOut (supFault s code adr) := canonical_next h.raiseSup

theorem Canonical.upcall {code} {adr} {len} (h : Canonical s) :
    CanonicalOut (upcall s code adr len) := canonical_next h.raiseUpcall

theorem Canonical.returnFrom {st} (h : Canonical s) : CanonicalOut (returnFrom s st) := by
  unfold Machine.returnFrom
  dsimp only
  split
  exacts [h.supFault, canonical_next h.setMe.jumpTo]

/-! ### Address -/

theorem Canonical.enterTlb {pkg} {part} {voff} {pte} (h : Canonical s) : Canonical (enterTlb s pkg part voff pte) := h.setDie

theorem Canonical.supKeep {n} {voff} (h : Canonical s) : Canonical (supKeep s n voff) := by
  unfold Machine.supKeep
  dsimp only
  split
  · exact h
  · split
    exacts [h, h.setCore]

/-! ### Barriers -/

theorem Canonical.barWritten {key} (h : Canonical s) : Canonical (barWritten s key) := by
  unfold Machine.barWritten
  dsimp only
  split <;> exact h.setBar

theorem Canonical.wakeBwaits {key} {ph} {aborted} {vec} (h : Canonical s) : Canonical (wakeBwaits s key ph aborted vec) := h

theorem Canonical.crierMsg {n} {kind} {poff} {val} {acc} {vec} (h : Canonical s) :
    Canonical (crierMsg s n kind poff val acc vec) := h.setPkg

theorem Canonical.issuePod {n} {key} {vec} (h : Canonical s) : Canonical (issuePod s n key vec) := h.crierMsg.setBar

theorem Canonical.closePhase {key} {aborted} (h : Canonical s) : Canonical (closePhase s key aborted) := h.setBar.wakeBwaits

theorem Canonical.markArrived {key} {m} {vec} (h : Canonical s) : Canonical (markArrived s key m vec) := h.setBar

theorem Canonical.countStalled {key} {n} (h : Canonical s) : Canonical (countStalled s key n) := by
  induction n generalizing s with
  | zero => exact h
  | succ n ih =>
    unfold Machine.countStalled
    split
    · exact h
    · extract_lets t vec u v w
      have hw : Canonical w := h.setCtx.markArrived
      split
      exacts [ih h.setCtx.issuePod, ih (hw.closePhase.ite hw)]

theorem Canonical.stallOn {key} (h : Canonical s) : Canonical (stallOn s key) := h

theorem Canonical.recount {key} (h : Canonical s) : Canonical (recount s key) := h.countStalled.stallOn

theorem Canonical.endPhase {key} {aborted} (h : Canonical s) : Canonical (endPhase s key aborted) := h.closePhase.recount

theorem Canonical.recountPods {pkg} (h : Canonical s) : Canonical (recountPods s pkg) := h.foldl fun _ _ h => h.recount

theorem Canonical.arrive {key} {m} {vec} (h : Canonical s) : Canonical (arrive s key m vec) := by
  unfold Machine.arrive
  dsimp only
  split
  exacts [h.markArrived.endPhase, h.markArrived]

theorem Canonical.settleBwaits {key} {m} {ph} (h : Canonical s) : Canonical (settleBwaits s key m ph) := h

theorem Canonical.barTimeout {key} (h : Canonical s) : Canonical (barTimeout s key) := by
  unfold Machine.barTimeout
  dsimp only
  split
  exacts [h, h.endPhase.foldl fun _ _ h => by split; exacts [h.raiseNotice, h]]

/-! ### Image -/

theorem Canonical.saveCtx {n} {c} {tagpnd} {mark} (h : Canonical s) : Canonical (saveCtx s n c tagpnd mark) :=
  (((Canonical.of_mem (Memory.wf_putBytes _ _ h.dropSlot)).setDie).setCore).setCtx

theorem Canonical.saveEngines {n} (h : Canonical s) : Canonical (saveEngines s n) :=
  Canonical.of_mem (Memory.wf_putBytes _ _ (Memory.wf_putBytes _ _ (Memory.wf_clearRange (Memory.wf_saveMill h))))

theorem Canonical.restoreEngines {n} (h : Canonical s) : Canonical (restoreEngines s n) := by
  unfold Machine.restoreEngines
  dsimp only
  split
  exacts [h, h.setCore]

/-! ### Deliver -/

theorem Canonical.dieLostNotice {n} {c} {die} {adr} (h : Canonical s) : Canonical (dieLostNotice s n c die adr) := by
  unfold Machine.dieLostNotice
  dsimp only
  split
  exacts [h, h.raiseNotice]

theorem Canonical.landInImage {n} {c} {i} {data} (h : Canonical s) :
    Canonical (landInImage s n c i data) := Canonical.of_mem (Memory.wf_write _ _ _ (Memory.wf_write _ _ _ h))

theorem Canonical.finishSlot {n} {c} {r} {data} {mask} (h : Canonical s) : Canonical (finishSlot s n c r data mask) := by
  unfold Machine.finishSlot
  dsimp only
  split
  exacts [h.setCtx.landInImage, h.setCtx]

theorem Canonical.lateFault {a} {code} {adr} (h : Canonical s) : Canonical (lateFault s a code adr) := by
  unfold Machine.lateFault
  extract_lets now u t
  have hu : Canonical u := by
    dsimp only [u]
    split
    exacts [h.giveSlot.ite h, h]
  clear_value u
  split
  · split
    · exact hu.raiseNotice
    · split
      · exact hu.supMessage
      · split
        exacts [hu.dieLostNotice, hu.raiseNotice]
  · split
    · exact hu.setCtx.raiseSupExc
    · split
      · exact hu.setCtx.raiseSup
      · split
        · exact hu.setCtx.dieLostNotice
        · split
          · exact hu.setCtx.raiseSup
          · split
            · split
              exacts [hu.finishSlot, hu.setCtx]
            · split
              exacts [hu.setCtx.raiseUpcall, hu.raiseUpcall]

theorem Canonical.nextQueued {n} {c} (h : Canonical s) : Canonical (nextQueued s n c) := by
  unfold Machine.nextQueued
  dsimp only
  split
  exacts [h, h.setCtx.raiseUpcall]

theorem Canonical.putGranules {key} {bytes} (h : Canonical s) :
    Canonical (putGranules s key bytes) := Canonical.of_mem (Memory.wf_putBytes _ _ h)

theorem Canonical.getWrite {r} {key} (h : Canonical s) : Canonical (getWrite s r key) := h.putGranules.mergeWrite

theorem Canonical.deliverSlotted {r} (h : Canonical s) : Canonical (deliverSlotted s r) := by
  unfold Machine.deliverSlotted
  dsimp only
  split
  · exact h
  · split
    · split
      · exact h.setCtx.setCtx
      · split
        exacts [h.setCtx, h.setCtx.getWrite]
    · split
      · exact Canonical.finishSlot (by split; exacts [h.setCtx.setCtx, by split; exacts [h.setCtx, h.setCtx.getWrite]])
      · exact Canonical.lateFault (by split; exacts [h.setCtx.setCtx, by split; exacts [h.setCtx, h.setCtx.getWrite]])

theorem Canonical.landFlags {n} {c} {fl} (h : Canonical s) : Canonical (landFlags s n c fl) := by
  unfold Machine.landFlags
  dsimp only
  split
  exacts [Canonical.of_mem (Memory.wf_putBytes _ _ h), h.setCtx]

theorem Canonical.deliverAck {r} (h : Canonical s) : Canonical (deliverAck s r) := by
  unfold Machine.deliverAck
  dsimp only
  split
  · exact h
  · split
    · exact Canonical.setCtx (by split; exacts [by split; exacts [h.landFlags, h], h])
    · split
      · exact Canonical.setCtx (by split; exacts [by split; exacts [h.landFlags, h], h])
      · exact (Canonical.setCtx (by split; exacts [by split; exacts [h.landFlags, h], h])).lateFault

theorem Canonical.forgetAnswered {a} (h : Canonical s) : Canonical (forgetAnswered s a) := h

theorem Canonical.deliver {r} (h : Canonical s) : Canonical (deliver s r) := by
  unfold Machine.deliver
  dsimp only
  split
  · split
    · exact h.forgetAnswered
    · split
      exacts [h.forgetAnswered, h.forgetAnswered.lateFault, h.forgetAnswered.lateFault]
  · split
    exacts [h.forgetAnswered.deliverSlotted, h.forgetAnswered.deliverAck]

theorem Canonical.releaseResv {n} {id} (h : Canonical s) : Canonical (releaseResv s n id) := h.setCore.wakeAll

theorem Canonical.loseBody {b} (h : Canonical s) : Canonical (loseBody s b) := by
  unfold Machine.loseBody
  split
  · exact h.deliver
  · split
    exacts [h.deliver, h]
  · split
    exacts [h.dieLostNotice.releaseResv, h.dieLostNotice, h]
  · exact h

/-! ### Messages -/

theorem Canonical.setEn {n} {cls} {on} (h : Canonical s) :
    Canonical (setEn s n cls on) := Canonical.of_mem (Memory.wf_write _ _ _ h)

theorem Canonical.acceptMsg {m} {slots} (h : Canonical s) : Canonical (acceptMsg s m slots) := h.setCore.wakeHalted

theorem Canonical.answerMsg {m} {kind} {cls} {args} (h : Canonical s) : Canonical (answerMsg s m kind cls args) := h.transmit

theorem Canonical.refuseMsg {m} {id} {reason} (h : Canonical s) : Canonical (refuseMsg s m id reason) := h.answerMsg

theorem Canonical.grantSlots {core} {n} (h : Canonical s) : Canonical (grantSlots s core n) := by
  induction n generalizing s with
  | zero => exact h
  | succ n ih =>
    unfold Machine.grantSlots
    dsimp only
    split
    · exact h
    · split
      exacts [ih h.setCore.acceptMsg, h]

theorem Canonical.arriveMsg {m} (h : Canonical s) : Canonical (arriveMsg s m) := by
  unfold Machine.arriveMsg
  dsimp only
  split
  · split
    exacts [h.acceptMsg, h.refuseMsg]
  · split
    exacts [h.acceptMsg, h.setPkg]
  · split
    exacts [h.acceptMsg, h]
  · split
    exacts [h.acceptMsg, h]
  · exact h.releaseResv
  · exact h.releaseResv
  · exact h.setCore.grantSlots

theorem Canonical.activate {n} {c} {cls} {prio} {args} {src} {rply} {owes} {c63} {vec} (h : Canonical s) :
    Canonical (activate s n c cls prio args src rply owes c63 vec) := by
  unfold Machine.activate
  split
  exact ((canonical_snd ‹_› h.fresh).noteWork).setCtx

theorem Canonical.startMsg {n} {c} {i} (h : Canonical s) : Canonical (startMsg s n c i) := by
  unfold Machine.startMsg
  extract_lets k u
  have hu : Canonical u := h.setCore
  split
  · exact h
  · extract_lets m prio v rply owes w
    have hv : Canonical v := by
      dsimp only [v]
      split
      exacts [hu.releaseResv, hu.releaseResv, hu.grantSlots, hu]
    exact Canonical.of_mem (Memory.wf_putBytes _ _ hv.activate)

theorem Canonical.startUpcall {n} {c} (h : Canonical s) : Canonical (startUpcall s n c) := by
  unfold Machine.startUpcall
  dsimp only
  split
  · exact h
  · exact (Canonical.activate (by split; exacts [by split; exacts [h.setCore.setCore.queueUpcall, h.setCore],
    h.setCore])).setCtx

theorem Canonical.startTask {n} {c} (h : Canonical s) : Canonical (startTask s n c) := by
  unfold Machine.startTask
  dsimp only
  split
  exacts [h, h.setCore.activate]

theorem Canonical.dispatchCore {n} (h : Canonical s) : Canonical (dispatchCore s n) := by
  unfold Machine.dispatchCore
  split
  exacts [h.startMsg, h.startUpcall, h.startTask, h]

theorem Canonical.dispatchMany {core} {n} (h : Canonical s) : Canonical (dispatchMany s core n) := by
  induction n generalizing s with
  | zero => exact h
  | succ n ih =>
    unfold Machine.dispatchMany
    split
    exacts [ih h.dispatchCore, h]

theorem Canonical.dispatchAll {n} (h : Canonical s) : Canonical (dispatchAll s n) := h.dispatchMany

theorem Canonical.freeContext {n} {c} (h : Canonical s) : Canonical (freeContext s n c) := h.giveSlot.setCtx

theorem Canonical.enqueueMsg {n} {m} (h : Canonical s) : Canonical (enqueueMsg s n m) := h.setCore

theorem Canonical.countSqfull {n} (h : Canonical s) : Canonical (countSqfull s n) := h.setCore

theorem Canonical.leaveQueue {n} (h : Canonical s) : Canonical (leaveQueue s n) := by
  unfold Machine.leaveQueue
  extract_lets k
  split
  · exact h
  · extract_lets note u v w
    have hv : Canonical v := h.setCore.wakeAll
    have hw : Canonical w := hv.loseBody.ite hv.transmit
    split
    exacts [hw.sendUnreserved, hw]

theorem Canonical.pushBottom {n} {t} (h : Canonical s) : Canonical (pushBottom s n t) := h.setCore

theorem Canonical.pushTop {n} {ts} (h : Canonical s) : Canonical (pushTop s n ts) := h.setCore

/-! ### Paths -/

theorem Canonical.setFab {pkg} {off} {v} (h : Canonical s) :
    Canonical (setFab s pkg off v) := Canonical.of_mem (Memory.wf_write _ _ _ h)

/-! ### Tapes -/

theorem Canonical.setTape {d} {t} (h : Canonical s) : Canonical (setTape s d t) := h.setDie

theorem Canonical.tapeReserve {d} {part} {job} {size} {e} (h : Canonical s) :
    CanonicalSomeSnd (tapeReserve s d part job size e) := by
  unfold Machine.tapeReserve
  dsimp only
  split
  exacts [canonical_noneSnd, canonical_someSnd h.setTape]

theorem Canonical.tapeEdit {d} {part} {job} {pos} {f} (h : Canonical s) : Canonical (tapeEdit s d part job pos f) := h.setTape

theorem Canonical.tapeClear {d} {part} {job} (h : Canonical s) : Canonical (tapeClear s d part job) := by
  unfold Machine.tapeClear
  dsimp only
  split
  exacts [h, h.setTape]

theorem Canonical.voidAll {part} {job} {tid} (h : Canonical s) : Canonical (voidAll s part job tid) := h

theorem Canonical.reserveFar {part} {job} {l} (h : Canonical s) : CanonicalSome (reserveFar s part job l) := by
  induction l generalizing s with
  | nil => exact canonical_some h
  | cons p l ih =>
    unfold Machine.reserveFar
    split
    · exact canonical_none
    · next x hx => exact ih (h.tapeReserve x.1 x.2 hx)

theorem Canonical.reserveSome {part} {job} {l} (h : Canonical s) : Canonical (reserveSome s part job l) := by
  induction l generalizing s with
  | nil => exact h
  | cons p l ih =>
    unfold Machine.reserveSome
    split
    · exact h
    · next x hx => exact ih (h.tapeReserve x.1 x.2 hx)

theorem Canonical.markRec {part} {job} {tid} {idx} {f} (h : Canonical s) : Canonical (markRec s part job tid idx f) := h

/-! ### Reset -/

theorem Canonical.serviceNotice {pkg} {part} {what} (h : Canonical s) : Canonical (serviceNotice s pkg part what) := by
  unfold Machine.serviceNotice
  dsimp only
  split
  exacts [h, h.sendUnreserved]

theorem Canonical.stopCore {n} (h : Canonical s) : Canonical (stopCore s n) := by
  unfold Machine.stopCore
  dsimp only
  split
  exacts [(h.foldl fun _ _ h => h.saveCtx).setCore, ((h.foldl fun _ _ h => h.saveCtx).setCore).saveEngines]

theorem Canonical.stopPart {pkg} {part} (h : Canonical s) :
    Canonical (stopPart s pkg part) := h.setStop.foldl fun _ _ h => h.stopCore

theorem Canonical.resetCore {n} (h : Canonical s) : Canonical (resetCore s n) := h.setCore

theorem Canonical.clearMirror {pkg} {part} (h : Canonical s) :
    Canonical (clearMirror s pkg part) := Canonical.of_mem (Memory.wf_clearRange h)

theorem Canonical.resetPart {pkg} {part} (h : Canonical s) : Canonical (resetPart s pkg part) :=
  (((Canonical.of_mem (Memory.wf_write _ _ _ (Memory.wf_write _ _ _ h))).foldl fun _ _ h => h.resetCore).foldl
    fun _ _ h => h.endPhase).foldl fun _ _ h => h.clearMirror

theorem Canonical.powerOn (h : Canonical s) : Canonical (powerOn s) :=
  Canonical.of_mem (Memory.wf_filter _ h)

/-! ### Control -/

theorem Canonical.serviceCrier {pkg} {kind} {val} {body} (h : Canonical s) :
    Canonical (serviceCrier s pkg kind val body) := h.setPkg

theorem Canonical.blackBox {pkg} {code} {src} {fatal} {unit} {a} {b} (h : Canonical s) :
    Canonical (blackBox s pkg code src fatal unit a b) := by
  unfold Machine.blackBox
  dsimp only
  split
  · exact h
  · split
    · exact ((((((Canonical.of_mem h).setSvc).setSvc).setSvc).setSvc).setSvc).setSvc
    · exact (((((Canonical.of_mem h).setSvc).setSvc).setSvc).setSvc).setSvc

theorem Canonical.boxMcheck {n} {src} {adr} (h : Canonical s) : Canonical (boxMcheck s n src adr) := h.blackBox

theorem Canonical.licenceCheck {pkg} (h : Canonical s) : Canonical (licenceCheck s pkg) := by
  unfold Machine.licenceCheck
  dsimp only
  split
  exacts [h.setPkg.setSvc.blackBox, h.setSvc.blackBox]

theorem Canonical.stopCommand {pkg} {part} {cmd} (h : Canonical s) : Canonical (stopCommand s pkg part cmd) := by
  unfold Machine.stopCommand
  dsimp only
  split
  · exact h.stopPart
  · split
    · exact h.setStop.foldl fun _ _ h => h.restoreEngines
    · split
      exacts [h.resetPart, h]

theorem Canonical.ctlEffect {n} {w} {val} (h : Canonical t) : Canonical (ctlEffect s t n w val) := by
  unfold Machine.ctlEffect
  extract_lets k pkg old back o new u v
  have hback : ∀ t, Canonical t → Canonical (back t) := fun _ h => Canonical.of_mem (Memory.wf_write _ _ _ h)
  split
  · exact h.barWritten
  · exact h.barWritten
  · exact h.tapeClear.ite h
  · exact hback t h
  · exact Canonical.of_mem (Memory.wf_write _ _ _ h)
  · exact (hback t h).stopCommand
  · exact (hback t h).licenceCheck
  · exact (hback t h).setSvc
  · exact Canonical.of_mem (Memory.wf_write _ _ _ h)
  · exact h.setPkg.ite h
  · exact Canonical.serviceCrier (Canonical.of_mem (Memory.wf_write _ _ _ (hback t h)))
  · exact h

theorem Canonical.ctlStore {supr} {part} {n} {off} {bytes} (h : Canonical s) : Canonical (ctlStore s supr part n off bytes).2 := by
  unfold Machine.ctlStore
  extract_lets ws offs m
  have hm : Canonical { s with mem := m } := Canonical.of_mem (Memory.wf_putBytes _ _ h)
  split
  · exact h
  · split
    · exact h
    · split
      exacts [h, hm.foldl fun _ _ h => h.ctlEffect]

/-! ### Home -/

theorem Canonical.setFull {key} {n} {b} (h : Canonical s) : Canonical (setFull s key n b) := h

theorem Canonical.noteWrite {src} {home} {stamp} {vec} (h : Canonical s) :
    Canonical (noteWrite s src home stamp vec) := h.setDie

theorem Canonical.okReply {a} {v} {mask} {bytes} (h : Canonical s) :
    Applied.Canonical (okReply s a v mask bytes) := canonical_answer h

theorem Canonical.okWord {a} {v} (h : Canonical s) : Applied.Canonical (okWord s a v) := h.okReply

theorem Canonical.failReply {a} {code} {adr} (h : Canonical s) :
    Applied.Canonical (failReply s a code adr) := canonical_answer h

theorem Canonical.failOwn {a} {code} (h : Canonical s) : Applied.Canonical (failOwn s a code) := h.failReply

theorem Canonical.withView {a} {seen} {f} (h : Canonical s) (hf : ∀ y0, Applied.Canonical (f y0)) :
    Applied.Canonical (withView s a seen f) := by
  unfold Machine.withView
  split
  exacts [h.failReply, hf _]

theorem Canonical.armStore {a} {pkg} {root} {voff} {key} {v} {aux} (h : Canonical s) :
    Applied.Canonical (armStore s a pkg root voff key v aux) := by
  unfold Machine.armStore
  extract_lets w
  have hw : Canonical w := Canonical.of_mem (Memory.wf_write _ _ _ h)
  split
  · exact hw.okWord
  · split
    · exact h.failOwn
    · split
      · exact h.failOwn
      · extract_lets d k page others
        split
        · exact h.failReply
        · dsimp only
          exact Canonical.okWord (Canonical.of_mem (Memory.wf_write _ _ _ hw))

theorem Canonical.cachedRead {a} {key} {n} (h : Canonical s) : Canonical (cachedRead s a key n).2 := by
  unfold Machine.cachedRead
  dsimp only
  split
  exacts [h, h.setCore]

theorem Canonical.writeThrough {n} {gs} (h : Canonical t) : Canonical (writeThrough s t n gs) := h.setCore

theorem Canonical.applyCtlLoad {a} {n} {off} {len} {k} (h : Canonical s) (hk : ∀ y0, Applied.Canonical (k y0)) :
    Applied.Canonical (applyCtlLoad s a n off len k) := by
  unfold Machine.applyCtlLoad
  dsimp only
  split
  exacts [h.failOwn, hk _]

theorem Canonical.applyLoad {a} {p} {q} {n} (h : Canonical s) : Applied.Canonical (applyLoad s a p q n) := by
  unfold Machine.applyLoad
  dsimp only
  split
  · exact h.applyCtlLoad (fun _ => h.okWord)
  · refine h.withView fun _ => ?_
    split
    · exact h.failOwn
    · split
      · exact h.cachedRead.okWord
      · split
        exacts [h.okWord, canonical_wait]
      · split
        exacts [h.setFull.okWord, canonical_wait]

theorem Canonical.putQual {q} {key} {n} {v} (h : Canonical s) : Canonical (putQual s q key n v) := by
  unfold Machine.putQual
  dsimp only
  split
  exacts [Canonical.of_mem (Memory.wf_write _ _ _ h), (Canonical.of_mem (Memory.wf_write _ _ _ h)).setFull]

theorem Canonical.applyStore {a} {p} {q} {n} (h : Canonical s) : Applied.Canonical (applyStore s a p q n) := by
  unfold Machine.applyStore
  extract_lets val arm
  split
  · extract_lets r
    split
    exacts [h.failOwn, h.ctlStore.okWord]
  · split
    exacts [Canonical.okWord (Canonical.of_mem (Memory.wf_write _ _ _ h)), h.failOwn]
  · refine h.withView fun v => ?_
    clear_value arm
    split
    · exact h.failOwn
    · split
      · split
        · exact canonical_wait
        · split
          · next t rep ht =>
            have ht' : Canonical t := h.armStore.answer ht
            exact canonical_answer (ht'.ite (by split; exacts [ht'.setFull, ht']))
          · exact h.armStore
      · split
        · exact h.failOwn
        · split
          exacts [canonical_wait, h.putQual.okWord]

theorem Canonical.applyVload {a} {p} {q} {t} (h : Canonical s) : Applied.Canonical (applyVload s a p q t) := by
  unfold Machine.applyVload
  split
  · exact h.applyCtlLoad fun _ => h.okReply
  · refine h.withView fun v => ?_
    split
    · exact h.failOwn
    · split
      · exact canonical_wait
      · extract_lets d r
        have hd : Canonical d.2 := by
          dsimp only [d]
          split
          exacts [h.cachedRead, h]
        exact (hd.setFull.ite hd).okReply

theorem Canonical.applyContribution {a} {stamp} {t} {v} (h : Canonical s) :
    Applied.Canonical (applyContribution s a stamp t v) := by
  unfold Machine.applyContribution
  dsimp only
  split
  · exact h.failOwn
  · split
    · exact h.failOwn
    · split
      exacts [h.okReply, canonical_parts h]

theorem Canonical.applyVstore {a} {p} {stamp} {q} {t} (h : Canonical s) : Applied.Canonical (applyVstore s a p stamp q t) := by
  unfold Machine.applyVstore
  split
  · extract_lets bytes r
    have hr : Canonical r.2 := canonical_foldl_snd h fun r _ hr => by
      split
      exacts [hr, hr.ctlStore]
    split
    exacts [h.failOwn, hr.okReply]
  · refine h.withView fun v => ?_
    split
    · exact h.applyContribution
    · split
      · exact h.failOwn
      · split
        · exact h.failOwn
        · split
          · exact canonical_wait
          · extract_lets st m u
            have hu : Canonical u := Canonical.of_mem (Memory.wf_putHeads (Memory.wf_putMasked h))
            exact (hu.ite hu.setFull).okReply

theorem Canonical.applyGath {a} {p} {t} (h : Canonical s) : Applied.Canonical (applyGath s a p t) := by
  unfold Machine.applyGath
  dsimp only
  split
  · exact h.applyCtlLoad (fun _ => h.okReply)
  · refine h.withView fun _ => ?_
    split
    exacts [h.failOwn, h.okReply]

theorem Canonical.applyScat {a} {p} {t} (h : Canonical s) : Applied.Canonical (applyScat s a p t) := by
  unfold Machine.applyScat
  dsimp only
  split
  · split
    exacts [h.failOwn, h.ctlStore.okReply]
  · split
    exacts [(Canonical.of_mem (Memory.wf_write _ _ _ h)).okReply, h.failOwn]
  · refine h.withView fun _ => ?_
    split
    · exact h.failOwn
    · split
      exacts [h.failOwn, (Canonical.of_mem (Memory.wf_write _ _ _ h)).okReply]

theorem Canonical.withBoth {a} {p} {len} {f} (h : Canonical s) (hf : ∀ y0, Applied.Canonical (f y0)) :
    Applied.Canonical (withBoth s a p len f) := by
  unfold Machine.withBoth
  split
  · exact h.failOwn
  · exact h.failOwn
  · exact h.failOwn
  · refine h.withView fun _ => ?_
    split
    · exact h.failOwn
    · split
      exacts [h.failOwn, hf _]

theorem Canonical.applyAmo {a} {p} {op} {dbl} (h : Canonical s) :
    Applied.Canonical (applyAmo s a p op dbl) := h.withBoth (fun _ => (Canonical.of_mem (Memory.wf_write _ _ _ h)).okWord)

theorem Canonical.applyCas {a} {p} {dbl} (h : Canonical s) : Applied.Canonical (applyCas s a p dbl) :=
  h.withBoth (fun _ => ((Canonical.of_mem (Memory.wf_write _ _ _ h)).ite h).okWord)

theorem Canonical.continuation {home} {part} {adr} {key} (h : Canonical s) :
    Canonical (continuation s home part adr key) := by
  unfold Machine.continuation
  dsimp only
  split
  exacts [h, h.sendUnreserved]

theorem Canonical.fireCounter {home} {part} {adr} {key} (h : Canonical s) :
    Canonical (fireCounter s home part adr key) := (Canonical.of_mem (Memory.wf_write _ _ _ h)).continuation

theorem Canonical.addCounter {home} {part} {adr} {key} {x} (h : Canonical s) :
    Canonical (addCounter s home part adr key x) := by
  unfold Machine.addCounter
  dsimp only
  split
  exacts [(Canonical.of_mem (Memory.wf_write _ _ _ h)).fireCounter, Canonical.of_mem (Memory.wf_write _ _ _ h)]

theorem Canonical.applyCntadd {a} {stamp} {p} (h : Canonical s) :
    Applied.Canonical (applyCntadd s a stamp p) := h.withBoth (fun _ => h.noteWrite.addCounter.okWord)

theorem Canonical.applyCntarm {a} {p} (h : Canonical s) : Applied.Canonical (applyCntarm s a p) := by
  unfold Machine.applyCntarm
  refine h.withBoth fun v => ?_
  extract_lets n x target m m' m'' u
  have hm : Memory.wf m'' = true := Memory.wf_write _ _ _ (Memory.wf_write _ _ _ (Memory.wf_write _ _ _ h))
  have hu : Canonical u := hm
  exact Applied.Canonical.ite h.failOwn (hu.fireCounter.ite hu).okWord

theorem Canonical.applyCntrd {a} {p} (h : Canonical s) : Applied.Canonical (applyCntrd s a p) := by
  unfold Machine.applyCntrd
  split
  · exact h.failOwn
  · exact h.failOwn
  · refine h.withView fun _ => ?_
    split
    exacts [h.failOwn, h.okWord]

theorem Canonical.withRing {a} {p} {wr} {i} {f} (h : Canonical s) (hf : ∀ v r k, Applied.Canonical (f v r k)) :
    Applied.Canonical (withRing s a p wr i f) := by
  unfold Machine.withRing
  refine h.withBoth fun v => ?_
  extract_lets r
  refine Applied.Canonical.ite h.failOwn (Applied.Canonical.ite h.failOwn ?_)
  split
  · exact h.failOwn
  · exact h.withView fun e => Applied.Canonical.ite h.failOwn (hf v r _)

theorem Canonical.applyEnq {a} {p} (h : Canonical s) : Applied.Canonical (applyEnq s a p) := by
  unfold Machine.applyEnq
  dsimp only
  refine h.withRing fun _ _ _ => ?_
  split
  exacts [h.okWord, (Canonical.of_mem (Memory.wf_write _ _ _ (Memory.wf_write _ _ _ h))).okWord]

theorem Canonical.applyDeq {a} {p} (h : Canonical s) : Applied.Canonical (applyDeq s a p) := by
  unfold Machine.applyDeq
  dsimp only
  refine h.withRing fun _ _ _ => ?_
  split
  exacts [h.okWord, (Canonical.of_mem (Memory.wf_write _ _ _ h)).okWord]

theorem Canonical.applyGet {a} {p} {n} (h : Canonical s) : Applied.Canonical (applyGet s a p n) := by
  unfold Machine.applyGet
  split
  · exact h.failOwn
  · refine h.withView fun _ => ?_
    split
    exacts [h.failOwn, h.okReply]

theorem Canonical.applyPut {a} {p} {n} (h : Canonical s) : Applied.Canonical (applyPut s a p n) := by
  unfold Machine.applyPut
  refine h.withView fun _ => ?_
  split
  · exact h.failOwn
  · split
    exacts [h.failOwn, ((Canonical.of_mem (Memory.wf_putBytes _ _ h)).setFull).okWord]

theorem Canonical.applyFeqry {a} {p} (h : Canonical s) : Applied.Canonical (applyFeqry s a p) := by
  unfold Machine.applyFeqry
  split
  exacts [h.failOwn, h.withView (fun _ => h.okWord)]

theorem Canonical.applyFeset {a} {p} {n} {b} (h : Canonical s) : Applied.Canonical (applyFeset s a p n b) := by
  unfold Machine.applyFeset
  split
  · exact h.failOwn
  · exact h.failOwn
  · refine h.withView fun _ => ?_
    split
    exacts [h.failOwn, h.setFull.okWord]

theorem Canonical.applyPublish {a} {p} (h : Canonical s) : Applied.Canonical (applyPublish s a p) := by
  unfold Machine.applyPublish
  dsimp only
  refine h.withView fun _ => ?_
  split
  · exact h.failOwn
  · split
    · exact (Canonical.of_mem (Memory.wf_flipBit h)).okWord
    · exact (h.setDie.ite (Canonical.of_mem (Memory.wf_flipBit h))).okWord
    · exact h.failOwn

theorem Canonical.applyMbput {a} {p} (h : Canonical s) : Applied.Canonical (applyMbput s a p) := by
  unfold Machine.applyMbput
  dsimp only
  split
  · split
    exacts [h.okWord, h.setCore.okWord]
  · exact h.failOwn

theorem Canonical.applyMbtake {a} {p} (h : Canonical s) : Applied.Canonical (applyMbtake s a p) := by
  unfold Machine.applyMbtake
  dsimp only
  split
  · split
    exacts [h.okWord, h.setCore.okWord]
  · exact h.failOwn

theorem Canonical.applyTmset {a} {p} (h : Canonical s) : Applied.Canonical (applyTmset s a p) := by
  unfold Machine.applyTmset
  dsimp only
  split
  · exact h.applyCtlLoad (fun _ => h.okWord)
  · refine h.withView fun _ => ?_
    split
    exacts [h.failOwn, h.cachedRead.okWord]

theorem Canonical.applyPayload {a} {p} {n} (h : Canonical s) : Applied.Canonical (applyPayload s a p n) := by
  unfold Machine.applyPayload
  split
  · exact h.applyCtlLoad (fun _ => h.okReply)
  · refine h.withView fun _ => ?_
    split
    exacts [h.failOwn, h.okReply]

theorem Canonical.applyOp {a} {stamp} {p} (h : Canonical s) : Applied.Canonical (applyOp s a stamp p) := by
  unfold Machine.applyOp
  split
  · exact h.applyLoad
  · exact h.applyStore
  · exact h.applyVload
  · exact h.applyVstore
  · exact h.applyGath
  · exact h.applyScat
  · exact h.applyAmo
  · exact h.applyCas
  · exact h.applyCntadd
  · exact h.applyCntarm
  · exact h.applyCntrd
  · exact h.applyEnq
  · exact h.applyDeq
  · exact h.applyGet
  · exact h.applyPut
  · exact h.applyFeqry
  · exact h.applyFeset
  · exact h.applyPublish
  · exact h.applyMbput
  · exact h.applyMbtake
  · exact h.applyTmset
  · exact h.applyPayload

theorem Canonical.applyAt {a} {stamp} {p} (h : Canonical s) : Applied.Canonical (applyAt s a stamp p) := by
  unfold Machine.applyAt
  have hx := h.applyOp (a := a) (stamp := stamp) (p := p)
  split
  · next t r ht =>
    have ht' : Canonical t := hx.answer ht
    split
    exacts [canonical_answer ht'.writeThrough, canonical_answer ht']
  · exact hx

/-! ### Arrive -/

theorem Canonical.removeAt {k} (h : Canonical s) : Canonical (removeAt s k) := h

theorem Canonical.moveFlow {p} (h : Canonical s) : Canonical (moveFlow s p) := by
  unfold Machine.moveFlow
  dsimp only
  split <;> exact h

theorem Canonical.forgetKept {p} (h : Canonical s) : Canonical (forgetKept s p) := h

theorem Canonical.sendProbe {a} {src} (h : Canonical s) : Canonical (sendProbe s a src) := h.transmit

theorem Canonical.keepSent (h : Canonical s) : Canonical (keepSent s) := by
  unfold Machine.keepSent
  split <;> exact h

theorem Canonical.dropProbes {num} (h : Canonical s) : Canonical (dropProbes s num) := h

theorem Canonical.hold {a} {stamp} {ord} {why} (h : Canonical s) : Canonical (hold s a stamp ord why) := h

theorem Canonical.sendBack {r} (h : Canonical s) : Canonical (sendBack s r) := by
  unfold Machine.sendBack
  dsimp only
  split
  · exact h
  · split
    exacts [h.transmit, h.transmit.keepSent]

theorem Canonical.settle {a} {stamp} {ord} {res} {now} (h : Canonical s) (hres : res.Canonical) :
    Canonical (settle s a stamp ord res now) := by
  unfold Machine.settle
  split
  · exact h.hold
  · exact hres.parts rfl
  · next t r =>
    have ht : Canonical t := hres.answer rfl
    extract_lets u
    have hu : Canonical u := by
      dsimp only [u]
      split
      exacts [ht.noteWrite.ite ht, ht]
    split
    exacts [hu.deliver, hu.sendBack]

theorem Canonical.serveHere {a} {stamp} {ord} {now} (h : Canonical s) : Canonical (serveHere s a stamp ord now) := by
  unfold Machine.serveHere
  split
  · exact h.settle h.failOwn
  · split
    exacts [h.hold, h.settle h.applyAt]

theorem Canonical.serveWalk {a} {stamp} {ord} {now} (h : Canonical s) : Canonical (serveWalk s a stamp ord now) := by
  unfold Machine.serveWalk
  split
  · split
    exacts [h.hold, h.serveHere]
  · exact h.serveHere

theorem Canonical.serveAs {a} {stamp} {ord} {now} (h : Canonical s) : Canonical (serveAs s a stamp ord now) := by
  unfold Machine.serveAs
  split
  exacts [h.serveWalk, h.hold.foldl fun _ _ h => h.sendProbe]

theorem Canonical.serve {a} {stamp} {now} (h : Canonical s) : Canonical (serve s a stamp now) := h.serveAs

theorem Canonical.forgetHeld {h} (hs : Canonical s) : Canonical (forgetHeld s h) := hs.forgetAnswered.dropProbes

theorem Canonical.dropHeld {k} {h} (hs : Canonical s) : Canonical (dropHeld s k h) := (Canonical.of_mem hs).forgetHeld

theorem Canonical.serveWaiters {n} (h : Canonical s) : Canonical (serveWaiters s n) := by
  induction n generalizing s with
  | zero => exact h
  | succ n ih =>
    unfold Machine.serveWaiters
    split
    · exact h
    · split
      exacts [h, ih (Canonical.serveHere (Canonical.of_mem h))]

theorem Canonical.afterServe {a} (h : Canonical s) : Canonical (afterServe s a) := by
  unfold Machine.afterServe
  split
  exacts [h.serveWaiters, h]

theorem Canonical.arriveAccess {k} {p} {a} (h : Canonical s) : Canonical (arriveAccess s k p a) := by
  unfold Machine.arriveAccess
  extract_lets u v
  have hu : Canonical u := h.removeAt.moveFlow
  have hv : Canonical v := hu.ite hu.noteWork
  split
  · exact h.removeAt.moveFlow.forgetKept
  · split
    exacts [hv.hold, hv.serve.afterServe]

theorem Canonical.localise {k} {p} (h : Canonical s) : Canonical (localise s k p) := Canonical.of_mem h.removeAt.moveFlow

theorem Canonical.dropDup {k} {p} (h : Canonical s) : Canonical (dropDup s k p) := by
  unfold Machine.dropDup
  dsimp only
  split
  exacts [h, h, h, h.removeAt]

theorem Canonical.deliverPacket {k} (h : Canonical s) : Canonical (deliverPacket s k) := by
  unfold Machine.deliverPacket
  split
  · exact h
  · exact h.dropDup
  · split
    · exact h
    · split
      · split
        exacts [h, h.arriveAccess]
      · split
        exacts [h.localise, h.removeAt.moveFlow]
      · exact (h.removeAt.moveFlow.ite h.localise).forgetKept
      · exact (h.removeAt.moveFlow.ite h.localise).forgetKept
      · exact h.localise

theorem Canonical.meshArrival {k} (h : Canonical s) : Canonical (meshArrival s k) := by
  unfold Machine.meshArrival
  split
  · split
    · split
      exacts [h, h.arriveAccess]
    · exact h
  · exact h

theorem Canonical.ctlArrival {k} {row} (h : Canonical s) : Canonical (ctlArrival s k row) := by
  unfold Machine.ctlArrival
  split
  · split
    · split
      · split
        exacts [h.arriveAccess, h]
      · exact h
    · exact h
  · exact h

theorem Canonical.msgArrival {k} {rply} (h : Canonical s) : Canonical (msgArrival s k rply) := by
  unfold Machine.msgArrival
  split
  · split
    · split
      · exact h
      · split
        exacts [h.removeAt, h.removeAt.dispatchAll.arriveMsg]
    · exact h
  · exact h

theorem Canonical.answerArrival {k} {p} {r} (h : Canonical s) : Canonical (answerArrival s k p r) := by
  unfold Machine.answerArrival
  split
  · exact h
  · split
    exacts [h.removeAt.forgetAnswered, h.removeAt.deliver]

theorem Canonical.replyArrival {k} (h : Canonical s) : Canonical (replyArrival s k) := by
  unfold Machine.replyArrival
  split
  · split
    exacts [h.answerArrival, h]
  · exact h

theorem Canonical.ackArrival {k} (h : Canonical s) : Canonical (ackArrival s k) := by
  unfold Machine.ackArrival
  split
  · split
    exacts [h.answerArrival, h]
  · exact h

theorem Canonical.waiterApplied {k} (h : Canonical s) : Canonical (waiterApplied s k) := by
  unfold Machine.waiterApplied
  dsimp only
  split
  · exact h
  · split
    · exact h.dropHeld
    · split
      · exact (Canonical.of_mem h).serveHere
      · split
        exacts [((Canonical.of_mem h).serveAs).afterServe, h]

theorem Canonical.pageWalked {k} (h : Canonical s) : Canonical (pageWalked s k) := by
  unfold Machine.pageWalked
  split
  · exact h
  · split
    · exact h.dropHeld
    · split
      · extract_lets part
        split
        next v size hv =>
        have hv' : Canonical v := by
          split at hv <;> cases hv
          exacts [h.enterTlb.ite h, h]
        extract_lets lo mine w
        have hw : Canonical w := hv'
        exact hw.foldl fun _ _ h => h.forgetHeld.ite h.serveHere.afterServe
      · exact h

theorem Canonical.probeArrival {k} (h : Canonical s) : Canonical (probeArrival s k) := by
  unfold Machine.probeArrival
  dsimp only
  split
  · exact h.dropDup
  · split
    · split
      · exact h.localise
      · split
        exacts [h, h.removeAt.transmit.keepSent]
    · exact h
  · exact h

theorem Canonical.markerArrival.markerDone {k} {h} {need} (hs : Canonical s) :
    Canonical (markerArrival.markerDone s k h need) := by
  unfold Machine.markerArrival.markerDone
  dsimp only
  split
  exacts [((Canonical.of_mem hs).serveWalk).afterServe, hs]

theorem Canonical.markerArrival {k} {src} (h : Canonical s) : Canonical (markerArrival s k src) := by
  unfold Machine.markerArrival
  split
  · exact h
  · split
    · split
      · exact h.dropHeld
      · extract_lets mine d
        split
        · exact (Canonical.markerArrival.markerDone h).ite h
        · next i hi =>
          extract_lets count u v q w
          have hv : Canonical v := h.removeAt (k := i)
          have hw : Canonical w := hv.setDie.ite hv
          exact Canonical.markerArrival.markerDone hw
    · exact h

/-! ### Access -/

theorem Canonical.faultOf {code} {adr} {len} (h : Canonical s) : Canonical (faultOf s code adr len) := by
  unfold Machine.faultOf
  split
  · exact h.raiseSupExc
  · split
    exacts [h.raiseSup, h.raiseUpcall]

theorem Canonical.sendAccess {a} {p} (h : Canonical s) : Canonical (sendAccess s a p) := by
  unfold Machine.sendAccess
  extract_lets a' b u
  have hu : Canonical u := by
    dsimp only [u]
    split
    exacts [h.supKeep, h]
  split
  · exact hu.serve.afterServe
  · split
    exacts [hu.deliver, hu.transmit]

theorem Canonical.parkFor {num} {c} (h : Canonical s) : Canonical (parkFor s num c) := by
  unfold Machine.parkFor
  dsimp only
  split
  exacts [h.setMe, h]

theorem Canonical.issue {st} {len} {a} {p} {wait} (h : Canonical s) : CanonicalOut (issue s st len a p wait) := by
  unfold Machine.issue
  dsimp only
  split
  · exact canonical_next h.parkHere
  · split
    · exact canonical_next ((((Canonical.of_mem h).advance).setMe).sendAccess)
    · exact canonical_next (((((Canonical.of_mem h).advance).setMe).sendAccess).parkFor)

theorem Canonical.accessAt {st} {len} {n} {rd} {wr} {load} {deny} {a} {wait} (h : Canonical s) :
    CanonicalOut (accessAt s st len n rd wr load deny a wait) := by
  unfold Machine.accessAt
  dsimp only
  split
  · exact canonical_next h.faultOf
  · split
    · exact canonical_next h.faultOf
    · split
      exacts [canonical_next h.faultOf, h.issue]

theorem Canonical.access {st} {len} {align} {n} {noPriv} {rd} {wr} {load} {deny} {a} {wait} (h : Canonical s) :
    CanonicalOut (access s st len align n noPriv rd wr load deny a wait) := by
  unfold Machine.access
  dsimp only
  split
  exacts [canonical_next h.faultOf, h.accessAt]

theorem Canonical.releasing {f} (h : Canonical s) (hf : ∀ y0, Canonical y0 → CanonicalOut (f y0)) :
    CanonicalOut (releasing s f) := by
  unfold Machine.releasing
  split
  exacts [hf _ h, canonical_next h.parkHere]

theorem Canonical.readAtIssue {len} {adr} {n} {f} (h : Canonical s) (hf : ∀ t b, Canonical t → CanonicalOut (f t b)) :
    CanonicalOut (readAtIssue s len adr n f) := by
  unfold Machine.readAtIssue
  extract_lets a bad
  have hbad : ∀ t c x, Canonical t → CanonicalOut (bad t c x) := fun _ _ _ h => canonical_next h.giveSlot.faultOf
  split
  · exact hbad s _ _ h
  · split
    · exact hbad s _ _ h
    · extract_lets c a' u
      split
      · exact hbad s _ _ h
      · split
        · split
          · next t r ht =>
            have ht' : Canonical t := h.applyPayload.answer ht
            split
            exacts [hbad t _ _ ht', hf t _ ht']
          · exact canonical_next h
        · split
          · exact canonical_next h.parkHere
          · exact canonical_next (Canonical.sendAccess (Canonical.setMe (Canonical.of_mem h))).parkFor

theorem Canonical.withBytes {len} {adr} {n} {f} (h : Canonical s) (hf : ∀ t b, Canonical t → CanonicalOut (f t b)) :
    CanonicalOut (withBytes s len adr n f) := by
  unfold Machine.withBytes
  split
  exacts [hf _ _ h.setMe, h.readAtIssue hf]

theorem Canonical.withParts {len} {next} {f} {n} (h : Canonical s) (hf : ∀ t b, Canonical t → CanonicalOut (f t b)) :
    CanonicalOut (withParts len next f n s) := by
  induction n generalizing s with
  | zero => exact hf _ _ h.setMe
  | succ n ih =>
    unfold Machine.withParts
    dsimp only
    split
    · exact hf _ _ h.setMe
    · exact h.readAtIssue fun _ _ h => ih h.setMe

/-! ### Issue -/

theorem Canonical.keepParcel {n} {key} {p} (h : Canonical s) : Canonical (keepParcel s n key p) := h.setCore

theorem Canonical.fetchKeep {n} {mode} {pc} (h : Canonical s) : Canonical (fetchKeep s n mode pc) := by
  unfold Machine.fetchKeep
  split
  exacts [h, h.keepParcel.supKeep]

theorem Canonical.beginCycle {n} (h : Canonical s) : Canonical (beginCycle s n) := by
  unfold Machine.beginCycle
  dsimp only
  split
  exacts [h, h.setCore]

theorem Canonical.wakeRedo {n} {c} (h : Canonical s) : Canonical (wakeRedo s n c) := by
  unfold Machine.wakeRedo
  dsimp only
  split
  exacts [h.setCtx, h]

theorem Canonical.nextExc {n} {c} (h : Canonical s) : Canonical (nextExc s n c) := by
  unfold Machine.nextExc
  dsimp only
  split
  exacts [h, h.setCtx.raiseSupExc]

theorem Canonical.parkDue {n} {c} (h : Canonical s) : Canonical (parkDue s n c) := by
  unfold Machine.parkDue
  dsimp only
  split
  · exact h.nextExc
  · split
    · exact h.nextQueued
    · split
      · exact h
      · split
        · exact h.setCtx
        · split
          · exact h
          · split
            · split
              exacts [h.setCtx, h]
            · exact h

theorem Canonical.readyCore {n} (h : Canonical s) :
    Canonical (readyCore s n) := h.beginCycle.dispatchAll.foldl fun _ _ h => h.wakeRedo.parkDue

theorem Canonical.noteIssue {n} {cs} {c} {q} (h : Canonical s) : Canonical (noteIssue s n cs c q) := h.setCore

theorem Canonical.illegal {f} (h : Canonical s) : Canonical (illegal s f) := h.raiseSup

theorem Canonical.fetchFault {n} {c} {code} {adr} (h : Canonical s) : Canonical (fetchFault s n c code adr) := by
  unfold Machine.fetchFault
  split
  exacts [h.raiseSupExc, h.raiseSup]

theorem Canonical.fetchRun {n} {c} (h : Canonical s) : Cycle.Canonical (fetchRun s n c) := by
  unfold Machine.fetchRun
  dsimp only
  split
  · exact h.fetchFault
  · split
    · split
      exacts [(h.fetchKeep.ite h).raiseUpcall, h.fetchKeep.ite h]
    · exact (h.fetchKeep.ite h).illegal

theorem Canonical.cycleOf {n} {late} (h : Canonical s) : Cycle.Canonical (cycleOf s n late) := by
  unfold Machine.cycleOf
  split
  · exact h
  · extract_lets u cs
    have hu : Canonical u := h.readyCore
    clear_value u
    split
    · exact hu
    · exact hu.noteIssue.withCur.fetchRun

/-! ### Flags -/

theorem Canonical.raiseSflags {f} (h : Canonical s) : Canonical (raiseSflags s f) := h.setMe

theorem Canonical.raiseLanes {q} {fs} (h : Canonical s) : Canonical (raiseLanes s q fs) := by
  unfold Machine.raiseLanes
  split
  exacts [h, h.setMe]

/-! ### Operands -/

theorem Canonical.jumpChecked {st} {t} (h : Canonical s) : CanonicalOut (jumpChecked s st t) := by
  unfold Machine.jumpChecked
  split
  · exact h.supFault
  · split
    exacts [h.supFault, canonical_next h.jumpTo]

theorem Canonical.jumpLinked {st} {t} {d} (h : Canonical s) : CanonicalOut (jumpLinked s st t d) := by
  unfold Machine.jumpLinked
  split
  · exact h.supFault
  · split
    exacts [h.supFault, canonical_next h.wrX.jumpTo]

theorem Canonical.varResult {code} {op} {v} {mask} (h : Canonical s) : Canonical (varResult s code op v mask) := by
  unfold Machine.varResult
  dsimp only
  split <;> exact h.setMe

theorem Canonical.varX {d} {v} (h : Canonical s) : Canonical (varX s d v) := h.varResult

/-! ### Tiles -/

theorem Canonical.engNote {e} {home} (h : Canonical s) : Canonical (engNote s e home) := h.noteWrite

theorem Canonical.engWrite {e} {adr} {n} {v} (h : Canonical s) : CanonicalOk (engWrite s e adr n v) := by
  unfold Machine.engWrite
  dsimp only
  split
  exacts [canonical_ok (((Canonical.of_mem (Memory.wf_write _ _ _ h)).setFull).engNote), canonical_error]

theorem Canonical.putPiece {v} {p} (h : Canonical s) :
    Canonical (putPiece s v p) := (Canonical.of_mem (Memory.wf_putHeads (Memory.wf_putMasked h))).setFull

theorem Canonical.writePieces {e} {ba} {bits} {enc} {had} {done} {l} (h : Canonical s) :
    Canonical (writePieces s e ba bits enc had done l).1 := by
  induction l generalizing s had done with
  | nil => exact h
  | cons p l ih =>
    unfold Machine.writePieces
    dsimp only
    split
    exacts [h, ih h.putPiece.engNote]

theorem Canonical.writeRow {e} {ba} {bits} {n} {enc} (h : Canonical s) : Canonical (writeRow s e ba bits n enc).1 := by
  unfold Machine.writeRow
  split
  exacts [h, h.writePieces]

theorem Canonical.sendData {e} {m} {tag} {home} {ps} (h : Canonical s) :
    Canonical (sendData s e m tag home ps) := h.noteWork.transmit

theorem Canonical.moveAway {e} {m} {ba} {bits} {n} {enc} (h : Canonical s) : Canonical (moveAway s e m ba bits n enc).1 := by
  unfold Machine.moveAway
  extract_lets away cut w dies
  have hw : Canonical w.1 := h.writePieces
  split
  · exact h
  · exact h
  · split
    · exact hw
    · exact hw.fresh.foldl fun _ _ h => h.sendData

theorem Canonical.moveOut {e} {m} {ba} {bits} {n} {enc} (h : Canonical s) : Canonical (moveOut s e m ba bits n enc).1 := by
  unfold Machine.moveOut
  dsimp only
  split
  exacts [h.writeRow, h.moveAway]

theorem Canonical.putPieces {e} {src} {stamp} {done} {l} (h : Canonical s) : Canonical (putPieces s e src stamp done l).1 := by
  induction l generalizing s done with
  | nil => exact h
  | cons p l ih =>
    unfold Machine.putPieces
    split
    exacts [h, ih h.putPiece.noteWrite]

theorem Canonical.engExc {e} {code} {adr} (h : Canonical s) : Canonical (engExc s e code adr) := by
  unfold Machine.engExc
  dsimp only
  split
  exacts [h.raiseNotice, h.setCtx]

theorem Canonical.engTell {e} {f} (h : Canonical s) : Canonical (engTell s e f) := by
  unfold Machine.engTell
  split
  · split
    · exact h.engExc
    · split
      exacts [h.raiseNotice, h.supMessage]
  · exact h.dieLostNotice
  · exact h

theorem Canonical.engComplete {e} {cadr} {t} {status} {count} {spec} {bad} (h : Canonical s) :
    CanonicalOk (engComplete s e cadr t status count spec bad) := by
  unfold Machine.engComplete
  dsimp only
  split
  · exact canonical_ok (((h.engTell.engWrite _ ‹_›).raiseNotice).ite (h.engTell.engWrite _ ‹_›))
  · exact canonical_error
  · exact canonical_ok ((Canonical.raiseNotice (by split; exacts [h.engTell,
    h.engTell.engTell])).ite (by split; exacts [h.engTell, h.engTell.engTell]))

/-! ### Mill -/

theorem Canonical.pushMill {cs} {c} (h : Canonical s) : Canonical (pushMill s cs c) := h.foldl fun _ _ h => h.setCore

theorem Canonical.millIssue {st} {op} {c} {map} {b} {g} {flag} {t} (h : Canonical s) :
    CanonicalOut (millIssue s st op c map b g flag t) := by
  unfold Machine.millIssue
  extract_lets w n m o
  split
  · exact h.supFault
  · split
    · exact h.supFault
    · exact h.supFault
    · refine h.releasing fun u hu => ?_
      extract_lets cs r
      split
      exacts [canonical_next hu.parkHere, hu.fresh.pushMill.done]

theorem Canonical.millFail {m} {op} {a} {count} {f} (h : Canonical s) : Canonical (millFail s m op a count f).s := by
  unfold Machine.millFail
  split <;> exact h

theorem Canonical.doMload {e} {m} {c} {cols} (h : Canonical s) : CanonicalMill (doMload s e m c cols) := by
  unfold Machine.doMload
  split
  · exact canonical_errorMill
  · extract_lets k code r bytes one
    split
    · exact canonical_mill h.millFail
    · split
      · exact canonical_errorMill
      · split
        exacts [canonical_mill h.millFail, canonical_mill h]

theorem Canonical.doMstrm {e} {m} {c} {rows} (h : Canonical s) : CanonicalMill (doMstrm s e m c rows) := by
  unfold Machine.doMstrm
  split
  · exact canonical_errorMill
  · extract_lets k a off pair code r ow new m'
    split
    · exact canonical_mill h.millFail
    · split
      · exact canonical_mill h
      · split
        · exact canonical_errorMill
        · split
          exacts [canonical_mill h.millFail, canonical_mill h]

theorem Canonical.drainRows {e} {m} {c} {a} {row0} {col0} {n} {l} {k} (h : Canonical s) :
    Canonical (drainRows e m c a row0 col0 n l s k).1 := by
  induction l generalizing s k with
  | nil => exact h
  | cons r l ih =>
    unfold Machine.drainRows
    extract_lets ba vs w
    have hw : Canonical w.1 := h.writeRow
    split
    · exact h
    · split
      exacts [hw, ih hw]

theorem Canonical.doMdrain {e} {m} {c} {row0} {col0} (h : Canonical s) : CanonicalMill (doMdrain s e m c row0 col0) := by
  unfold Machine.doMdrain
  split
  · exact canonical_errorMill
  · extract_lets a gang n rows code r m'
    have hr : Canonical r.1 := h.drainRows
    split
    · exact canonical_mill h.millFail
    · split
      · exact canonical_mill h
      · split
        · exact canonical_errorMill
        · split
          exacts [canonical_mill hr.millFail, canonical_mill hr]

theorem Canonical.millShare {e} {m} {c} {qr} {qc} (h : Canonical s) : CanonicalMill (millShare s e m c qr qc) := by
  unfold Machine.millShare
  dsimp only
  split
  · exact canonical_mill h.millFail
  · split
    · exact canonical_mill h
    · split
      exacts [h.doMload, canonical_mill h, h.doMstrm, h.doMdrain, canonical_mill h]

theorem Canonical.millShares {c} {e} {l} {acc} (h : Canonical s) : CanonicalOkFst (millShares c e l s acc) := by
  induction l generalizing s acc with
  | nil => exact canonical_okFst h
  | cons n l ih =>
    unfold Machine.millShares
    split
    · exact canonical_errorFst
    · next o ho => exact ih (h.millShare o ho).setCore

theorem Canonical.tellLost {e} {outs} (h : Canonical s) :
    Canonical (tellLost s e outs) := h.foldl fun _ _ h => by split; exacts [h.engTell, h]

theorem Canonical.millStep {n} (h : Canonical s) : Canonical (millStep s n) := by
  unfold Machine.millStep
  split
  · exact h
  · split
    · exact h
    · extract_lets cs ready e
      split
      · exact h
      · split
        · exact h
        · next t outs ht =>
          have ht' : Canonical t := h.millShares t outs ht
          split
          · exact h
          · split
            · exact h
            · next u hu => exact (ht'.tellLost.engComplete u hu).foldl fun _ _ h => h.wakeAll

/-! ### Copy -/

theorem Canonical.pushCopy {st} {c} (h : Canonical s) :
    CanonicalOut (pushCopy s st c) := (((Canonical.of_mem h).setMyCore).setMe).done

theorem Canonical.reserveIssuer {n} {kind} {base} {ne} (h : Canonical s) : CanonicalSomeSnd (reserveIssuer s n kind base ne) := by
  unfold Machine.reserveIssuer
  split
  · exact canonical_someSnd h
  · rintro p t ht
    obtain ⟨x, hx, he⟩ := Option.map_eq_some_iff.mp ht
    cases he
    exact (h.tapeReserve x.1 x.2 hx).setMe

theorem Canonical.copyIssue {st} {fn} {a} {b} {c} {acc} (h : Canonical s) : CanonicalOut (copyIssue s st fn a b c acc) := by
  unfold Machine.copyIssue
  dsimp only
  split
  · exact h.supFault
  · split
    · exact h.supFault
    · exact h.supFault
    · exact h.supFault
    · refine h.releasing fun _ h => ?_
      split
      exacts [canonical_next h.parkHere, h.pushCopy]

theorem Canonical.withList {mcast} {l} {rec} {f} (h : Canonical s) (hf : ∀ t b, Canonical t → CanonicalOut (f t b)) :
    CanonicalOut (withList s mcast l rec f) := by
  unfold Machine.withList
  split
  · exact h.withParts hf
  · split
    exacts [h.withBytes hf, hf s _ h]

theorem Canonical.listIssue {st} {fn} {a} {b} {c} {mcast} {kind} {count} (h : Canonical s) :
    CanonicalOut (listIssue s st fn a b c mcast kind count) := by
  unfold Machine.listIssue
  extract_lets w l n t map bad
  split
  · exact h.supFault
  · split
    · exact h.supFault
    · split
      · exact h.supFault
      · split
        · exact h.supFault
        · exact h.supFault
        · exact h.supFault
        · extract_lets cmd
          refine h.releasing fun u hu => hu.withList fun v bytes hv => ?_
          extract_lets enter
          have henter : ∀ t pos, Canonical t → CanonicalOut (enter t pos) := fun t pos ht => by
            dsimp only [enter]
            split
            exacts [canonical_next ht.setMe.parkHere, ht.pushCopy]
          split
          · exact hv.supFault
          · split
            · exact henter v none hv
            · split
              · exact hv.upcall
              · next p t ht => exact henter t _ (hv.reserveIssuer p t ht)

theorem Canonical.execCopym {st} {a} {b} {c} {g} {o} {t} (h : Canonical s) :
    CanonicalOut (execCopym st a b c g o t s) := h.copyIssue

theorem Canonical.execMcast {st} {a} {b} {c} {r} (h : Canonical s) : CanonicalOut (execMcast st a b c r s) := h.listIssue

theorem Canonical.execGather {st} {a} {b} {c} {r} (h : Canonical s) : CanonicalOut (execGather st a b c r s) := h.listIssue

theorem Canonical.copyRecord {e} {c} {pos} {nd} (h : Canonical s) : CanonicalSome (copyRecord s e c pos nd) :=
  h.tapeEdit.reserveFar

theorem Canonical.copyEnd {e} {c} {status} {count} {spec} {bad} (h : Canonical s) :
    CopyStep.Canonical (copyEnd s e c status count spec bad) := by
  unfold Machine.copyEnd
  split
  exacts [(h.engComplete _ ‹_›), trivial]

theorem Canonical.copyVoid {e} {c} (h : Canonical s) : Canonical (copyVoid s e c) := by
  unfold Machine.copyVoid
  split
  exacts [h.voidAll, h]

theorem Canonical.copyFail {e} {c} {code} {bad} (h : Canonical s) :
    CopyStep.Canonical (copyFail s e c code bad) := (h.copyVoid.ite h).copyEnd

theorem Canonical.copyStart {e} {c} (h : Canonical s) : CopyStep.Canonical (copyStart s e c) := by
  unfold Machine.copyStart
  split
  · exact trivial
  · exact trivial
  · split
    · exact h.copyFail
    · split
      · exact h.copyFail
      · split
        · exact h
        · split
          exacts [h.reserveSome.copyFail, (h.copyRecord _ ‹_›)]

theorem Canonical.copyLost {e} {c} {adr} {die} (h : Canonical s) : Canonical (copyLost s e c adr die).1 := by
  unfold Machine.copyLost
  split
  exacts [h, h.dieLostNotice]

theorem Canonical.copyMark {e} {c} {nd} (h : Canonical s) : Canonical (copyMark s e c nd) := by
  unfold Machine.copyMark
  split
  exacts [h, h.markRec]

theorem Canonical.moveRow {e} {c} {x} (h : Canonical s) : Canonical (moveRow s e c x).1 := by
  unfold Machine.moveRow
  split
  exacts [h, h.moveOut]

theorem Canonical.followOn {e} {c} (h : Canonical s) : CopyStep.Canonical (followOn s e c) := by
  unfold Machine.followOn
  dsimp only
  split
  exacts [trivial, h.fresh.pushMill]

theorem Canonical.copyFinish {e} {c} (h : Canonical s) : CopyStep.Canonical (copyFinish s e c) := by
  unfold Machine.copyFinish
  split
  exacts [h.followOn, h.copyEnd]

theorem Canonical.copyMoved {e} {c} {nd} {m} (h : Canonical s) : CopyStep.Canonical (copyMoved s e c nd m) := by
  unfold Machine.copyMoved
  dsimp only
  split
  · exact h
  · split
    exacts [h.copyMark, trivial, h.copyLost, h.copyFail]

theorem Canonical.copyRun {e} {c} (h : Canonical s) : CopyStep.Canonical (copyRun s e c) := by
  unfold Machine.copyRun
  dsimp only
  split
  · exact h.copyStart
  · split
    · exact h.copyFinish
    · split
      · exact trivial
      · split
        · exact trivial
        · exact trivial
        · exact h.copyFail
        · exact h.copyFail
        · split
          · exact h.copyMoved
          · split
            exacts [h, h.moveRow.copyMoved]

theorem Canonical.copyStep {n} {k} (h : Canonical s) : Canonical (copyStep s n k) := by
  unfold Machine.copyStep
  dsimp only
  split
  · exact h
  · split
    · exact h
    · split
      exacts [h, (h.copyRun.more ‹_›).setCore, ((h.copyRun.over ‹_›).setCore).wakeAll]

theorem Canonical.editMove {core} {disp} {cmd} {tag} {f} (h : Canonical s) : Canonical (editMove s core disp cmd tag f) := by
  unfold Machine.editMove
  dsimp only
  split <;> exact h.setCore

theorem Canonical.dataAnswer {d} {n} {bad} (h : Canonical s) : Canonical (dataAnswer s d n bad) := by
  unfold Machine.dataAnswer
  dsimp only
  split
  · exact h
  · split
    exacts [h.transmit, h.transmit.keepSent]

theorem Canonical.dataArrival {k} (h : Canonical s) : Canonical (dataArrival s k) := by
  unfold Machine.dataArrival
  split
  · split
    · split
      · exact h
      · split
        · exact h.removeAt
        · extract_lets w
          have hw : Canonical w.1 := h.removeAt.noteWork.putPieces
          split
          exacts [h, hw.dataAnswer]
    · exact h
  · exact h

theorem Canonical.forgetData {tag} {die} (h : Canonical s) : Canonical (forgetData s tag die) := h

theorem Canonical.doneArrival {k} (h : Canonical s) : Canonical (doneArrival s k) := by
  unfold Machine.doneArrival
  dsimp only
  split
  · split
    · split
      · exact h
      · split
        exacts [h.removeAt.forgetData, h.removeAt.forgetData.editMove]
    · exact h
  · exact h

theorem Canonical.loseData {d} (h : Canonical s) : Canonical (loseData s d) := h.editMove

theorem Canonical.loseMoves {pkg} (h : Canonical s) :
    Canonical (loseMoves s pkg) := h.foldl fun _ _ h => by split; exacts [by split; exacts [h.forgetData.loseData, h], h]

/-! ### Route -/

theorem Canonical.pushDisp {st} {c} (h : Canonical s) :
    CanonicalOut (pushDisp s st c) := (((Canonical.of_mem h).setMyCore).setMe).done

theorem Canonical.routeIssue {st} {kind} {tape} {a} {b} {c} {bound} (h : Canonical s) :
    CanonicalOut (routeIssue s st kind tape a b c bound) := by
  unfold Machine.routeIssue
  dsimp only
  split
  · exact h.supFault
  · split
    · exact h.supFault
    · split
      · exact h.supFault
      · split
        · exact h.supFault
        · exact h.supFault
        · exact h.supFault
        · refine h.releasing fun _ h => ?_
          refine h.withBytes fun _ _ h => ?_
          split
          · split
            exacts [canonical_next h.setMe.parkHere, h.pushDisp]
          · split
            · exact h.upcall
            · split
              exacts [canonical_next (((h.reserveIssuer _ _ ‹_›).setMe).parkHere), (h.reserveIssuer _ _ ‹_›).pushDisp]

theorem Canonical.execDres {st} {a} {b} {n} (h : Canonical s) : CanonicalOut (execDres st a b n s) := by
  unfold Machine.execDres
  dsimp only
  split
  · exact h.supFault
  · split
    · exact h.supFault
    · split
      · exact h.supFault
      · exact h.supFault
      · refine h.releasing fun _ h => ?_
        split
        exacts [canonical_next h.parkHere, h.pushDisp]

theorem Canonical.grantSlot {k} {n} {token} {src} {gate} {ridx} (h : Canonical s) :
    CanonicalSomeSnd (grantSlot s k n token src gate ridx) := by
  unfold Machine.grantSlot
  dsimp only
  split
  · exact canonical_someSnd (Canonical.of_mem (Memory.wf_write _ _ _ h))
  · split
    exacts [canonical_noneSnd, canonical_someSnd (Canonical.of_mem (Memory.wf_write _ _ _ h))]

theorem Canonical.dispEnd {e} {c} {status} {spec} {bad} (h : Canonical s) :
    DispStep.Canonical (dispEnd s e c status spec bad) := by
  unfold Machine.dispEnd
  split
  exacts [(h.engComplete _ ‹_›), trivial]

theorem Canonical.tellStrict {e} {c} (h : Canonical s) : Canonical (tellStrict s e c) := by
  unfold Machine.tellStrict
  split
  exacts [h.raiseNotice, h]

theorem Canonical.dispFail {e} {c} {code} {bad} (h : Canonical s) : DispStep.Canonical (dispFail s e c code bad) :=
  (Canonical.tellStrict (by split; exacts [by split; exacts [h, h.voidAll], h])).dispEnd

theorem Canonical.dispStop {e} {c} {f} (h : Canonical s) : DispStep.Canonical (dispStop s e c f) := by
  unfold Machine.dispStop
  split
  exacts [trivial, h, h.dieLostNotice]

theorem Canonical.dispMark {e} {c} {i} {f} (h : Canonical s) : Canonical (dispMark s e c i f) := by
  unfold Machine.dispMark
  split
  exacts [h, h.markRec]

theorem Canonical.withdraw {n} {num} (h : Canonical s) : Canonical (withdraw s n num) := h

theorem Canonical.listAdd {e} {c} {i} {lost} (h : Canonical s) : CanonicalOkFst (listAdd s e c i lost) := by
  unfold Machine.listAdd
  extract_lets c' mark
  have hmark : ∀ t, Canonical t → CanonicalOkFst (.ok (mark t, c') : Except EFail (State × DispCmd)) := fun _ h =>
    canonical_okFst h.dispMark
  split
  · next t ht => exact hmark t (h.engWrite t ht)
  · exact hmark _ h.dieLostNotice
  · exact canonical_errorFst

theorem Canonical.undelivered {e} {c} {lost} (h : Canonical s) : DispStep.Canonical (undelivered s e c lost) := by
  unfold Machine.undelivered
  split
  exacts [h.dispStop, (h.listAdd _ _ ‹_›).withdraw]

theorem Canonical.routeStart {e} {c} (h : Canonical s) : DispStep.Canonical (routeStart s e c) := by
  unfold Machine.routeStart
  dsimp only
  split
  · exact trivial
  · split
    · exact h.dispFail
    · split
      · exact h
      · split
        exacts [(h.tapeEdit.reserveFar _ ‹_›), h.reserveSome.dispFail]

theorem Canonical.slotWritten {e} {a} (h : Canonical s) : Canonical (slotWritten s e a) := by
  unfold Machine.slotWritten
  dsimp only
  split
  exacts [Canonical.of_mem (Memory.wf_write _ _ _ h), (Canonical.of_mem (Memory.wf_write _ _ _ h)).addCounter]

theorem Canonical.delivered {e} {c} {m} {a} (h : Canonical s) : DispStep.Canonical (delivered s e c m a) := by
  unfold Machine.delivered
  dsimp only
  split
  · exact h
  · split
    exacts [trivial, h.dieLostNotice.undelivered, h.dispStop, h.slotWritten.dispMark]

theorem Canonical.deliverRow {e} {c} {r} {x} {k} {slot} (h : Canonical s) :
    DispStep.Canonical (deliverRow s e c r x k slot) := by
  unfold Machine.deliverRow
  dsimp only
  split
  exacts [h.dieLostNotice.undelivered, h.dispStop, h.moveOut.delivered]

theorem Canonical.grantNow {g} (h : Canonical s) : CanonicalSome (grantNow s g) := by
  unfold Machine.grantNow
  split
  · exact canonical_some h
  · dsimp only
    split
    · exact canonical_none
    · split
      · exact canonical_none
      · exact canonical_map fun r hr => h.grantSlot r.1 r.2 hr

theorem Canonical.grantServe {n} (h : Canonical s) : Canonical (grantServe s n) := by
  unfold Machine.grantServe
  extract_lets gs first
  split
  · exact h
  · next i t ht =>
    obtain ⟨j, -, hj⟩ := List.exists_of_findSome?_eq_some ht
    split at hj
    · split at hj
      · obtain ⟨u, hu, he⟩ := Option.map_eq_some_iff.mp hj
        cases he
        exact (h.grantNow u hu).noteWork.setCore
      · cases hj
    · cases hj

theorem Canonical.grantsServed {n} (h : Canonical s) : Canonical (grantsServed s n) := h.foldl fun _ _ h => h.grantServe

theorem Canonical.dispRecord {e} {c} {r} (h : Canonical s) : DispStep.Canonical (dispRecord s e c r) := by
  unfold Machine.dispRecord
  dsimp only
  split
  · exact h.dieLostNotice.undelivered
  · exact h.dispStop
  · split
    · exact h
    · split
      · exact trivial
      · split
        · exact h.grantsServed.noteWork.dieLostNotice.undelivered
        · exact h.grantsServed.noteWork.dispStop
        · split
          exacts [(h.grantsServed.noteWork.grantSlot _ _ ‹_›).deliverRow, h.grantsServed.noteWork.setCore]

theorem Canonical.grantExpire {n} {k} (h : Canonical s) : Canonical (grantExpire s n k) := by
  unfold Machine.grantExpire
  dsimp only
  split
  · exact h
  · split
    · exact h
    · split
      · split
        · exact ((h.foldl fun _ _ h => h.grantsServed.ite h).undelivered.more ‹_›).setCore
        · exact h.foldl fun _ _ h => h.grantsServed.ite h
      · exact h.foldl fun _ _ h => h.grantsServed.ite h

theorem Canonical.dresStart {e} {c} (h : Canonical s) : DispStep.Canonical (dresStart s e c) := by
  unfold Machine.dresStart
  split
  · exact trivial
  · exact h.engTell
  · extract_lets code28 short
    split
    · exact trivial
    · split
      · exact h.dispEnd
      · split
        · exact trivial
        · split
          exacts [h.dieLostNotice.dispFail, h.dieLostNotice.dispEnd]
        · extract_lets k'
          split
          · exact trivial
          · extract_lets code
            split
            · exact h.dispFail
            · split
              · exact h.routeStart
              · split
                exacts [h.dispStop, h.dispStop, h]

theorem Canonical.execDcur {st} {a} {b} (h : Canonical s) : CanonicalOut (execDcur st a b s) := by
  unfold Machine.execDcur
  dsimp only
  split
  · exact h.supFault
  · split
    · exact h.supFault
    · split
      · exact h.supFault
      · refine h.releasing fun _ h => ?_
        split
        · exact canonical_next h
        · exact canonical_next h.faultOf
        · exact h.dieLostNotice.done
        · split
          exacts [(h.engWrite _ ‹_›).done, (((h.engWrite _ ‹_›).setCore).withdraw).done]

/-! ### Replay -/

theorem Canonical.tellMoved {e} {ms} (h : Canonical s) : Canonical (tellMoved s e ms) :=
  h.foldl fun _ _ h => by
    split
    exacts [h.dieLostNotice, h]

theorem Canonical.sendParts {e} {c} {row} {home} {base} {bf16} {n} {ps} (h : Canonical s) :
    Canonical (sendParts s e c row home base bf16 n ps) := h.foldl fun _ _ h => h.noteWork.transmit

theorem Canonical.combMark {e} {rs} {l} {c} (h : Canonical s) : CanonicalOkFst (combMark e rs l s c) := by
  induction l generalizing s c with
  | nil => exact canonical_okFst h
  | cons p l ih =>
    have hadd : ∀ lost, CanonicalOkFst (match Machine.listAdd s e c p.1 lost with
        | .error f => .error f
        | .ok x => Machine.combMark e rs l x.1 x.2) := fun lost => by
      split
      · exact canonical_errorFst
      · next x hx => exact ih (h.listAdd x.1 x.2 hx)
    unfold Machine.combMark
    split
    · exact ih h.dispMark
    · exact hadd true
    · exact hadd false

theorem Canonical.combRow {e} {c} {rs} {t} (h : Canonical s) : DispStep.Canonical (combRow s e c rs t) := by
  unfold Machine.combRow
  extract_lets mine row next
  split
  · split
    · exact h.dispStop
    · next x hx => exact h.dieLostNotice.combMark x.1 x.2 hx
  · exact h.dispStop
  · split
    · exact h.dispStop
    · split
      · exact h.dispStop
      · next u c' hu =>
        have hu' : Canonical u := h.tellMoved.combMark u c' hu
        extract_lets ps
        split
        exacts [hu', hu'.sendParts]

theorem Canonical.replayStart {e} {c} (h : Canonical s) : DispStep.Canonical (replayStart s e c) := by
  unfold Machine.replayStart
  dsimp only
  split
  · exact h.dispFail
  · split
    · exact h.dispFail
    · split
      · exact trivial
      · split
        exacts [h.dispFail, h]

theorem Canonical.replayStep {e} {c} {r} (h : Canonical s) : DispStep.Canonical (replayStep s e c r) := by
  unfold Machine.replayStep
  dsimp only
  split
  · exact h
  · split
    · exact Canonical.dispStop (by split; exacts [h.dieLostNotice, h])
    · split
      · exact Canonical.tellMoved (by split; exacts [h.dieLostNotice, h])
      · exact (Canonical.tellMoved (by split; exacts [h.dieLostNotice, h])).sendParts

theorem Canonical.execReplay {st} {a} {b} {c} {k} (h : Canonical s) : CanonicalOut (execReplay st a b c k s) := by
  unfold Machine.execReplay
  dsimp only
  split
  · exact h.supFault
  · split
    · exact h.supFault
    · exact h.supFault
    · refine h.releasing fun _ h => ?_
      split
      exacts [canonical_next h.parkHere, h.pushDisp]

theorem Canonical.dispFinish {e} {c} (h : Canonical s) : DispStep.Canonical (dispFinish s e c) := by
  unfold Machine.dispFinish
  split
  exacts [h.tellStrict.dispEnd, h.dispEnd]

theorem Canonical.dispBegin {e} {c} (h : Canonical s) : DispStep.Canonical (dispBegin s e c) := by
  unfold Machine.dispBegin
  split
  exacts [h.dresStart, h.replayStart, h.routeStart]

theorem Canonical.dispNext {e} {c} (h : Canonical s) : DispStep.Canonical (dispNext s e c) := by
  unfold Machine.dispNext
  split
  · split
    exacts [h.replayStep, h]
  · split
    · exact h.dieLostNotice.undelivered
    · exact h.dispStop
    · split
      · exact h
      · split
        exacts [h, h.combRow]
  · split
    · exact h.dieLostNotice.undelivered
    · exact h.dispStop
    · split
      exacts [h.dispRecord, h]

theorem Canonical.cursorAgain {e} {c} (h : Canonical s) : Canonical (cursorAgain s e c) := by
  unfold Machine.cursorAgain
  split
  · exact h
  · split
    exacts [(h.engWrite _ ‹_›), h]

theorem Canonical.listLate {e} {c} {i} {r} (h : Canonical s) : DispStep.Canonical (listLate s e c i r) := by
  unfold Machine.listLate
  split
  · exact h.dispStop
  · next x hx => exact (h.listAdd x.1 x.2 hx).cursorAgain

theorem Canonical.dispMoved {e} {c} {m} {a} (h : Canonical s) : DispStep.Canonical (dispMoved s e c m a) := by
  unfold Machine.dispMoved
  split
  · exact trivial
  · have hx := h.delivered (e := e) (c := c) (m := m) (a := a)
    split
    · next t c ht => exact (hx.more ht).cursorAgain
    · exact hx

theorem Canonical.dispRun {e} {c} (h : Canonical s) : DispStep.Canonical (dispRun s e c) := by
  unfold Machine.dispRun
  split
  · exact h.listLate
  · exact h.dispMoved
  · split
    exacts [trivial, h.cursorAgain.dispFail]
  · split
    · split
      exacts [h.dispEnd, trivial]
    · split
      · exact h.dispBegin
      · split
        · exact h.dispNext
        · split
          exacts [trivial, h.dispFinish]

theorem Canonical.dispStep {n} {k} (h : Canonical s) : Canonical (dispStep s n k) := by
  unfold Machine.dispStep
  dsimp only
  split
  · exact h
  · split
    · exact h
    · split
      exacts [h, (h.dispRun.more ‹_›).setCore, ((h.dispRun.over ‹_›).setCore).wakeAll]

theorem Canonical.editDisp {n} {num} {f} (h : Canonical s) : Canonical (editDisp s n num f) := h.setCore

theorem Canonical.rowOver {r} {bad} (h : Canonical s) : Canonical (rowOver s r bad) := by
  unfold Machine.rowOver
  split
  exacts [h.editDisp, h.dieLostNotice.editDisp, h.editDisp]

theorem Canonical.writeSum {r} {a} (h : Canonical s) : CanonicalSome (writeSum s r a) := by
  unfold Machine.writeSum
  split
  · exact canonical_some h.rowOver
  · split
    · exact canonical_some h.rowOver
    · extract_lets f w
      have hw : Canonical w.1 := h.writeRow
      split
      exacts [canonical_none, canonical_some hw.rowOver]

theorem Canonical.keepAcc {r} {a} (h : Canonical s) : CanonicalSome (keepAcc s r a) := by
  unfold Machine.keepAcc
  extract_lets d k rest
  split
  exacts [canonical_some h.setDie, h.setDie.writeSum]

theorem Canonical.applyPart {k} {r} (h : Canonical s) : Canonical (applyPart s k r) :=
  (canonical_bind fun _ => h.removeAt.keepAcc).getD h

theorem Canonical.rowArrival {k} (h : Canonical s) : Canonical (rowArrival s k) := by
  unfold Machine.rowArrival
  split
  · split
    · split
      · exact h
      · split
        · exact h.removeAt
        · extract_lets u t
          have hu : Canonical u := h.noteWork
          split
          exacts [hu.applyPart, Canonical.applyPart (Canonical.of_mem hu)]
    · exact h
  · exact h

theorem Canonical.losePart {r} (h : Canonical s) : Canonical (losePart s r) := by
  unfold Machine.losePart
  dsimp only
  split
  exacts [h.editDisp, h]

theorem Canonical.loseRows {pkg} (h : Canonical s) :
    Canonical (loseRows s pkg) := h.foldl fun _ _ h => by split; exacts [h.dieLostNotice.editDisp, h]

theorem Canonical.execTtrim {st} {a} (h : Canonical s) : CanonicalOut (execTtrim st a s) := by
  unfold Machine.execTtrim
  dsimp only
  split
  exacts [h.supFault, h.setTape.done]

/-! ### Fabric -/

theorem Canonical.installTables {pkg} (h : Canonical s) :
    Canonical (installTables s pkg) := Canonical.of_mem (Memory.wf_putBytes _ _ h)

theorem Canonical.markFailed {pkg} {link} (h : Canonical s) : Canonical (markFailed s pkg link).2 := by
  unfold Machine.markFailed
  dsimp only
  split
  · exact h
  · split
    · exact h.setPkg
    · split
      · exact h.setPkg.setPkg
      · split
        exacts [h.setPkg, h]

theorem Canonical.queueGen {pkg} {cause} (h : Canonical s) : Canonical (queueGen s pkg cause) := h.serviceCrier

theorem Canonical.failLink {pkg} {link} (h : Canonical s) : Canonical (failLink s pkg link) := by
  unfold Machine.failLink
  dsimp only
  split
  exacts [h.markFailed.queueGen, h.markFailed]

theorem Canonical.laneWindow {pkg} {lane} {count} (h : Canonical s) : Canonical (laneWindow s pkg lane count) := by
  unfold Machine.laneWindow
  dsimp only
  split
  exacts [h, h.setPkg.setFab]

theorem Canonical.laneTurn {pkg} {lane} (h : Canonical s) : Canonical (laneTurn s pkg lane) := by
  unfold Machine.laneTurn
  dsimp only
  split
  exacts [h, h.setPkg.setFab]

theorem Canonical.laneRetrained {pkg} {lane} {pass} (h : Canonical s) : Canonical (laneRetrained s pkg lane pass) := by
  unfold Machine.laneRetrained
  dsimp only
  split
  · exact h
  · split
    · exact h.setFab.laneTurn
    · split
      · exact h.setFab
      · split
        exacts [h.setFab.setPkg.laneTurn.failLink, h.setFab.setPkg.laneTurn]

theorem Canonical.divert {k} (h : Canonical s) : Canonical (divert s k) := by
  unfold Machine.divert
  split
  · split <;> exact h
  · exact h

/-! ### Crier -/

theorem Canonical.tokenFrame {pod} (h : Canonical s) : Canonical (tokenFrame s pod) := by
  unfold Machine.tokenFrame
  dsimp only
  split
  · exact h
  · split
    exacts [h.setPkg.setPod, h.setPkg.setPod.recountPods.wakePkg]

theorem Canonical.silentHolder {pod} (h : Canonical s) : Canonical (silentHolder s pod) := by
  unfold Machine.silentHolder
  dsimp only
  split
  · exact h
  · split
    exacts [h, h.setPod.queueGen]

theorem Canonical.resendRequest {pkg} (h : Canonical s) : Canonical (resendRequest s pkg) := by
  unfold Machine.resendRequest
  dsimp only
  split
  · exact h.setPkg
  · split
    exacts [h.setPkg, h]

theorem Canonical.applyCrier {pkg} {kind} {f} (h : Canonical s) (hf : ∀ y0 y1, Canonical y0 → Canonical (f y0 y1)) :
    Canonical (applyCrier s pkg kind f) := by
  unfold Machine.applyCrier
  dsimp only
  split
  · exact h
  · split
    exacts [hf _ _ h.setPkg, h]

theorem Canonical.putMirror {pkg} {m} {v} (h : Canonical s) :
    Canonical (putMirror s pkg m v) := ((Canonical.of_mem (Memory.wf_write _ _ _ h)).setFull).setPkg

theorem Canonical.answerCrier {pkg} {m} {v} {vec} (h : Canonical s) : Canonical (answerCrier s pkg m v vec) := by
  unfold Machine.answerCrier
  split
  · split
    exacts [h.deliver, h]
  · exact h

theorem Canonical.crierSt {pkg} (h : Canonical s) : Canonical (crierSt s pkg) := by
  unfold Machine.crierSt
  refine h.applyCrier fun _ _ h => ?_
  split
  exacts [h.putMirror, h]

theorem Canonical.crierAdd {pkg} (h : Canonical s) : Canonical (crierAdd s pkg) := by
  unfold Machine.crierAdd
  dsimp only
  refine h.applyCrier fun _ _ h => ?_
  split
  exacts [h.putMirror.answerCrier, h]

theorem Canonical.crierMark {pkg} (h : Canonical s) : Canonical (crierMark s pkg) := by
  unfold Machine.crierMark
  refine h.applyCrier fun _ _ h => ?_
  split
  exacts [h.answerCrier, h]

theorem Canonical.podArrival {pkg} {m} (h : Canonical s) : Canonical (podArrival s pkg m) := by
  unfold Machine.podArrival
  extract_lets key b u
  have hu : Canonical u := h.setBar.ite h
  split
  exacts [hu.settleBwaits, hu.settleBwaits.arrive]

theorem Canonical.crierBarrier {pkg} (h : Canonical s) :
    Canonical (crierBarrier s pkg) := h.applyCrier (fun _ _ h => h.podArrival)

theorem Canonical.crierMarket {pkg} (h : Canonical s) : Canonical (crierMarket s pkg) := h.applyCrier (fun _ _ h => h.setPkg)

theorem Canonical.crierUnknown {pkg} (h : Canonical s) :
    Canonical (crierUnknown s pkg) := h.applyCrier (fun _ _ h => h.blackBox)

theorem Canonical.loseTo {out} (h : Canonical s) : Canonical (loseTo s out) :=
  (Canonical.of_mem h).foldl fun _ _ h => by split; exacts [h.losePart, h.loseData, h.loseBody]

theorem Canonical.abortBars {pkg} {dies} (h : Canonical s) :
    Canonical (abortBars s pkg dies) := h.foldl fun _ _ h => h.endPhase

theorem Canonical.closeGen {pkg} {gen} (h : Canonical s) :
    Canonical (closeGen s pkg gen) := ((((Canonical.of_mem h).loseTo).loseRows).loseMoves).abortBars

theorem Canonical.tryClose {pkg} (h : Canonical s) : Canonical (tryClose s pkg) := h.foldl fun _ _ h => h.closeGen

theorem Canonical.applyGen {pkg} {m} (h : Canonical s) : Canonical (applyGen s pkg m) := by
  unfold Machine.applyGen
  dsimp only
  split
  exacts [((Canonical.of_mem h).installTables).setFab, h]

theorem Canonical.crierGen {pkg} (h : Canonical s) : Canonical (crierGen s pkg) := h.applyCrier (fun _ _ h => h.applyGen)

theorem Canonical.sendDrained {pkg} (h : Canonical s) : Canonical (sendDrained s pkg) := by
  unfold Machine.sendDrained
  dsimp only
  split
  · exact h
  · split
    exacts [h, h.setPkg.serviceCrier]

theorem Canonical.crierDrained {pkg} (h : Canonical s) :
    Canonical (crierDrained s pkg) := h.applyCrier (fun _ _ h => h.setPkg.tryClose)

theorem Canonical.sendAdmit {pkg} {pos} (h : Canonical s) : Canonical (sendAdmit s pkg pos) := by
  unfold Machine.sendAdmit
  split
  exacts [h, h.serviceCrier.queueGen]

theorem Canonical.admitMember {pkg} {m} (h : Canonical s) : Canonical (admitMember s pkg m) := by
  unfold Machine.admitMember
  dsimp only
  split
  exacts [h, h.setPod.setPkg.setSvc]

theorem Canonical.crierMember {pkg} (h : Canonical s) :
    Canonical (crierMember s pkg) := h.applyCrier (fun _ _ h => h.admitMember.tryClose)

theorem Canonical.packetLost {k} (h : Canonical s) : Canonical (packetLost s k) := by
  unfold Machine.packetLost
  dsimp only
  split
  · exact h
  · split <;> exact h

theorem Canonical.crierIntent {pkg} (h : Canonical s) : Canonical (crierIntent s pkg) := h.applyCrier (fun _ _ h => h.setPkg)

theorem Canonical.commitCheck {pkg} (h : Canonical s) : Canonical (commitCheck s pkg) := by
  unfold Machine.commitCheck
  dsimp only
  split
  · exact h
  · split
    exacts [h.setPkg.setFab, h.setPkg.queueGen]

/-! ### Reduction -/

theorem Canonical.raiseLate {attr} (h : Canonical s) :
    Canonical (raiseLate s attr) := Canonical.of_mem (Memory.wf_write _ _ _ h)

theorem Canonical.keepSlot {d} {x} (h : Canonical s) : Canonical (keepSlot s d x) := by
  unfold Machine.keepSlot
  dsimp only
  split
  exacts [Canonical.of_mem (Memory.wf_write _ _ _ h), h.setDie]

theorem Canonical.endGran {page} {i} {v} (h : Canonical s) :
    Canonical (endGran s page i v) := (Canonical.of_mem (Memory.wf_write _ _ _ h)).setFull

theorem Canonical.addContribution {r} (h : Canonical s) : Canonical (addContribution s r) := by
  unfold Machine.addContribution
  dsimp only
  split
  · exact h.raiseLate
  · split
    · exact h.raiseLate
    · split
      exacts [h.keepSlot, h.endGran.keepSlot]

theorem Canonical.ackContribution {p} {r} (h : Canonical s) : Canonical (ackContribution s p r) := by
  unfold Machine.ackContribution
  dsimp only
  split
  · exact h
  · split
    exacts [h.noteWrite.sendBack, h]

theorem Canonical.wakeXinv (h : Canonical s) : Canonical (wakeXinv s) := h.foldl fun _ _ h => h.wakeAll.ite h

theorem Canonical.contribute {k} (h : Canonical s) : Canonical (contribute s k) := by
  unfold Machine.contribute
  dsimp only
  split
  · split
    · split
      exacts [h.removeAt.wakeXinv, h.removeAt.noteWork.addContribution.mergeWrite.ackContribution.wakeXinv]
    · exact h
  · exact h

theorem Canonical.abortGrans {d} {x} {is} (h : Canonical s) : Canonical (abortGrans s d x is) := by
  unfold Machine.abortGrans
  extract_lets u b v y
  have hu : Canonical u := h.foldl fun _ _ h => h.endGran.withAborted
  exact Canonical.keepSlot (Canonical.of_mem (Memory.wf_write _ _ _ hu))

theorem Canonical.deadline {d} {i} (h : Canonical s) : Canonical (deadline s d i) := by
  unfold Machine.deadline
  split
  · exact h
  · split
    exacts [h, h.abortGrans]

theorem Canonical.sumError {d} {i} {gran} (h : Canonical s) : Canonical (sumError s d i gran) := by
  unfold Machine.sumError
  dsimp only
  split
  · exact h
  · split
    exacts [h, h.abortGrans.boxMcheck.sendUnreserved]

/-! ### Service -/

theorem Canonical.drawFree (h : Canonical s) : Canonical (drawFree s).2 := Canonical.of_mem h

theorem Canonical.sendAsk {pkg} {n} {fresh} {draw} (h : Canonical s) :
    Canonical (sendAsk s pkg n fresh draw) := h.setPkg.serviceCrier

theorem Canonical.firstAsk {pkg} (h : Canonical s) : Canonical (firstAsk s pkg) := by
  unfold Machine.firstAsk
  split
  · exact h
  · split
    exact (canonical_snd ‹_› h.drawFree).sendAsk

theorem Canonical.marketStep {pkg} {grant} (h : Canonical s) : Canonical (marketStep s pkg grant) := by
  unfold Machine.marketStep
  split
  exact ((((((canonical_snd ‹_› h.drawFree).setPkg).setPkg).setSvc).setSvc).setSvc).sendAsk

theorem Canonical.marketEnd {pod} (h : Canonical s) : Canonical (marketEnd s pod) := by
  unfold Machine.marketEnd
  split
  exacts [h.foldl fun _ _ h => h.marketStep, h]

theorem Canonical.energyUpdate {pkg} (h : Canonical s) : Canonical (energyUpdate s pkg) :=
  (Canonical.of_mem h).foldl fun _ _ h => by split; exact (canonical_snd ‹_› h.drawFree).setSvc

theorem Canonical.extendLog {pkg} {d} (h : Canonical s) : Canonical (extendLog s pkg d) := h.setPkg

theorem Canonical.startSup {pkg} {entry} {c} (h : Canonical s) : Canonical (startSup pkg entry s c) := by
  unfold Machine.startSup
  split
  exact ((canonical_snd ‹_› h.fresh).setCore).setCtx

theorem Canonical.placeImage {pkg} {image} (h : Canonical s) : Canonical (placeImage s pkg image) := by
  unfold Machine.placeImage
  dsimp only
  split
  exacts [h, (Canonical.of_mem (Memory.wf_putBytes _ _ h)).setFull]

theorem Canonical.bootImage {pkg} {image} (h : Canonical s) : Canonical (bootImage s pkg image) := by
  unfold Machine.bootImage
  dsimp only
  split
  · exact h
  · split
    exacts [h.placeImage.extendLog.setPkg.foldl fun _ _ h => h.startSup, h.setPkg.blackBox]

theorem Canonical.attest {n} {nonce} (h : Canonical s) : Canonical (attest s n nonce) := by
  unfold Machine.attest
  dsimp only
  split
  exacts [h.setPkg, h]

theorem Canonical.hostWrite {pkg} {k} {off} {data} (h : Canonical s) : Canonical (hostWrite s pkg k off data) := by
  unfold Machine.hostWrite
  dsimp only
  split
  · exact h
  · split
    exacts [h.setPkg, h.transmit]

theorem Canonical.hostRetry {pkg} (h : Canonical s) : Canonical (hostRetry s pkg) := by
  unfold Machine.hostRetry
  dsimp only
  split
  exacts [h, h.setPkg.foldl fun _ _ h => h.transmit]

theorem Canonical.report {pkg} {clear} (h : Canonical s) : Canonical (report s pkg clear) := by
  unfold Machine.report
  dsimp only
  split
  exacts [h.drawFree.setPkg, h.drawFree.setPkg]

theorem Canonical.marginReplan {pkg} (h : Canonical s) : Canonical (marginReplan s pkg) := by
  unfold Machine.marginReplan
  split
  exact (canonical_snd ‹_› h.drawFree).setPkg

theorem Canonical.powerLimit {pkg} (h : Canonical s) : Canonical (powerLimit s pkg) := by
  unfold Machine.powerLimit
  split
  exacts [h, h.blackBox]

theorem Canonical.failRead {a} {stamp} {ord} (h : Canonical s) : Canonical (failRead s a stamp ord) := by
  unfold Machine.failRead
  extract_lets src u
  have hu : Canonical u := h.boxMcheck
  exact hu.settle hu.failReply

theorem Canonical.heldError {k} (h : Canonical s) : Canonical (heldError s k) := by
  unfold Machine.heldError
  split
  · exact h
  · split
    exacts [h, (Canonical.of_mem h).failRead]

theorem Canonical.dataError {k} (h : Canonical s) : Canonical (dataError s k) := by
  unfold Machine.dataError
  dsimp only
  split
  · exact h.heldError
  · split
    · split
      · split
        · exact h
        · split
          exacts [h.removeAt.moveFlow.forgetKept, h.removeAt.moveFlow.failRead]
      · exact h
    · exact h

theorem Canonical.engCheck {n} {c} (h : Canonical s) : Canonical (engCheck s n c) := h.supMessage.boxMcheck

theorem Canonical.serviceError {pkg} (h : Canonical s) : Canonical (serviceError s pkg) := by
  unfold Machine.serviceError
  split
  exacts [h, h.blackBox]

theorem Canonical.millError {n} {code} (h : Canonical s) : Canonical (millError s n code) := by
  unfold Machine.millError
  split
  · exact h
  · extract_lets e peers ready
    split
    · exact h
    · split
      · exact h
      · next t outs ht =>
        have ht' : Canonical t := h.millShares t outs ht
        extract_lets o u
        split
        · exact h
        · next v hv => exact ((ht'.setCore.engComplete v hv).foldl fun _ _ h => h.wakeAll).engCheck

theorem Canonical.copyError {n} {code} (h : Canonical s) : Canonical (copyError s n code) := by
  unfold Machine.copyError
  dsimp only
  split
  · exact h
  · split
    exacts [(((h.copyFail.over ‹_›).setCore).wakeAll).engCheck, h]

theorem Canonical.dispError {n} {code} (h : Canonical s) : Canonical (dispError s n code) := by
  unfold Machine.dispError
  dsimp only
  split
  · exact h
  · split
    exacts [h, h.setCore.engCheck]

theorem Canonical.memError {k} {u} (h : Canonical s) : Canonical (memError s k u) := by
  unfold Machine.memError
  split
  split
  · exact h.dataError
  · exact (canonical_snd ‹_› h.drawFree).millError
  · exact (canonical_snd ‹_› h.drawFree).copyError
  · exact (canonical_snd ‹_› h.drawFree).dispError
  · exact h.serviceError

theorem Canonical.dropDie {d} (h : Canonical s) : Canonical (dropDie s d) := (Canonical.of_mem h).setDie

theorem Canonical.powerLoss {pkg} {die} (h : Canonical s) : Canonical (powerLoss s pkg die) := by
  unfold Machine.powerLoss
  dsimp only
  split
  · split
    exacts [h.dropDie, h.dropDie.queueGen]
  · exact (h.foldl fun _ _ h => h.dropDie).setPkg

/-! ### ControlFlow -/

theorem Canonical.branch {len} {c} {off} (h : Canonical s) : CanonicalOut (branch s len c off) := by
  unfold Machine.branch
  split
  exacts [h.jumpChecked, h.done]

theorem Canonical.execLoop {st} {a} {i} (h : Canonical s) : CanonicalOut (execLoop st a i s) := by
  unfold Machine.execLoop
  dsimp only
  split
  · split
    exacts [h.supFault, h.setMe.done]
  · split
    · exact h.supFault
    · split
      · exact canonical_next h.jumpTo
      · split
        exacts [h.supFault, h.setMe.done]

theorem Canonical.emptyReply (h : Canonical s) : Canonical (emptyReply s) := by
  unfold Machine.emptyReply
  dsimp only
  split
  exacts [h, h.transmit]

theorem Canonical.endActivation (h : Canonical s) : CanonicalOut (endActivation s) := by
  unfold Machine.endActivation
  dsimp only
  split
  exacts [canonical_next h.parkHere, canonical_next (((h.emptyReply.ite h).setMyCore).freeContext)]

theorem Canonical.execTrap {st} {a} (h : Canonical s) : CanonicalOut (execTrap st a s) := by
  unfold Machine.execTrap
  split
  exacts [h.upcall, canonical_next h.parkHere]

/-! ### MemOps -/

theorem Canonical.scalarLoad {st} {len} {t} {adr} {n} {q} (h : Canonical s) :
    CanonicalOut (scalarLoad s st len t adr n q) := h.access

theorem Canonical.scalarStore {st} {len} {t} {adr} {n} {q} (h : Canonical s) :
    CanonicalOut (scalarStore s st len t adr n q) := by
  unfold Machine.scalarStore
  dsimp only
  split
  exacts [canonical_next h.faultOf, h.accessAt]

theorem Canonical.execAmo {st} {d} {a} {b} {n} {z} {o} (h : Canonical s) : CanonicalOut (execAmo st d a b n z o s) := h.access

theorem Canonical.execCas {st} {d} {a} {b} {z} (h : Canonical s) : CanonicalOut (execCas st d a b z s) := h.access

theorem Canonical.execCntarm {st} {a} {b} (h : Canonical s) : CanonicalOut (execCntarm st a b s) := by
  unfold Machine.execCntarm
  dsimp only
  split
  exacts [h.supFault, h.access]

theorem Canonical.execGet {st} {d} {a} {b} (h : Canonical s) : CanonicalOut (execGet st d a b s) := by
  unfold Machine.execGet
  dsimp only
  split
  · exact canonical_next h.faultOf
  · split
    · exact canonical_next h.faultOf
    · split
      exacts [canonical_next h.faultOf, h.accessAt]

theorem Canonical.execPut {st} {d} {a} {b} (h : Canonical s) : CanonicalOut (execPut st d a b s) := by
  unfold Machine.execPut
  dsimp only
  split
  · exact canonical_next h.faultOf
  · split
    · exact canonical_next h.faultOf
    · split
      · exact canonical_next h.faultOf
      · split
        exacts [canonical_next h.parkHere, h.withBytes (fun _ _ h => h.accessAt)]

theorem Canonical.execFeset {st} {a} {b} (h : Canonical s) : CanonicalOut (execFeset st a b s) := by
  unfold Machine.execFeset
  dsimp only
  split
  · exact h.supFault
  · split
    exacts [h.supFault, h.accessAt]

theorem Canonical.vectorLoad {st} {v} {b} {p} {t} {o} {q} (h : Canonical s) :
    CanonicalOut (vectorLoad s st v b p t o q) := h.access

theorem Canonical.vectorStore {st} {v} {b} {p} {t} {o} {q} (h : Canonical s) :
    CanonicalOut (vectorStore s st v b p t o q) := by
  unfold Machine.vectorStore
  dsimp only
  split
  exacts [canonical_next h.faultOf, h.accessAt]

theorem Canonical.sendLanes {a} {t} {load} {l} (h : Canonical s) : Canonical (sendLanes s a t load l) := by
  induction l generalizing s with
  | nil => exact h
  | cons i l ih =>
    unfold Machine.sendLanes
    dsimp only
    split
    exacts [ih h, ih h.sendAccess]

theorem Canonical.lanewise {st} {a} {t} {load} (h : Canonical s) : CanonicalOut (lanewise s st a t load) := by
  unfold Machine.lanewise
  extract_lets ls u
  have hu : Canonical u := Canonical.advance (Canonical.of_mem h)
  split
  · exact canonical_next h.faultOf
  · split
    · exact canonical_next h.parkHere
    · split
      exacts [h.done, canonical_next hu.setMe.sendLanes]

theorem Canonical.execPublish {st} {a} (h : Canonical s) : CanonicalOut (execPublish st a s) := by
  unfold Machine.execPublish
  dsimp only
  split
  · exact canonical_next h.faultOf
  · split
    exacts [canonical_next h.parkHere, h.accessAt]

theorem Canonical.execMbput {st} {a} {b} {c} (h : Canonical s) : CanonicalOut (execMbput st a b c s) := by
  unfold Machine.execMbput
  dsimp only
  split
  · exact h.supFault
  · split
    · exact h.supFault
    · split
      exacts [h.supFault, h.issue]

theorem Canonical.execMbtake {st} {a} {d} (h : Canonical s) : CanonicalOut (execMbtake st a d s) := by
  unfold Machine.execMbtake
  dsimp only
  split
  · exact h.supFault
  · split
    · exact h.supFault
    · split
      exacts [h.supFault, h.issue]

theorem Canonical.execMbcfg {st} {a} (h : Canonical s) : CanonicalOut (execMbcfg st a s) := by
  unfold Machine.execMbcfg
  dsimp only
  split
  exacts [h.supFault, h.setMyCore.done]

/-! ### Send -/

theorem Canonical.queueFull {adr} (h : Canonical s) : CanonicalOut (queueFull s adr) := by
  unfold Machine.queueFull
  split
  exacts [h.giveSlot.countSqfull.upcall, canonical_next h.parkHere]

theorem Canonical.takeSlot (h : Canonical s) : Canonical (takeSlot s).2 := by
  unfold Machine.takeSlot
  dsimp only
  split
  exacts [h, h.setMyCore.setMe]

theorem Canonical.sendRequest {st} {hd} {dest} {dst} {narg} {bulk} {pay} (h : Canonical s) :
    CanonicalOut (sendRequest s st hd dest dst narg bulk pay) := by
  refine h.releasing fun t h => ?_
  split
  · exact canonical_next h.parkHere
  · split
    · exact h.queueFull
    · extract_lets r go
      have hr : Canonical r.2 := h.takeSlot
      have hgo : ∀ t b, Canonical t → CanonicalOut (go t b) := fun _ _ h => h.setMe.enqueueMsg.done
      split
      · exact hr.queueFull
      · split
        exacts [hgo r.2 _ hr, hr.withBytes hgo]

theorem Canonical.sendCommon {st} {a} {b} {pay} (h : Canonical s) : CanonicalOut (sendCommon s st a b pay) := by
  unfold Machine.sendCommon
  extract_lets hd adr pay' f
  split
  · exact h.supFault
  · split
    · exact h.supFault
    · split
      exacts [canonical_next h.faultOf, h.sendRequest]

theorem Canonical.execSysc {st} {a} (h : Canonical s) : CanonicalOut (execSysc st a s) := by
  unfold Machine.execSysc
  dsimp only
  split
  · split
    exacts [h.supFault, h.sendRequest]
  · split
    exacts [h.supFault, canonical_next h.setMe.jumpTo]

theorem Canonical.execReply {st} {b} (h : Canonical s) : CanonicalOut (execReply st b s) := by
  unfold Machine.execReply
  dsimp only
  split
  · exact h.supFault
  · split
    · exact h.supFault
    · refine h.releasing fun _ h => ?_
      split
      · exact canonical_next h.parkHere
      · split
        exacts [h.setMe.done, h.setMe.enqueueMsg.done]

theorem Canonical.execSpawn {st} {b} (h : Canonical s) : CanonicalOut (execSpawn st b s) := by
  unfold Machine.execSpawn
  dsimp only
  split
  · exact h.supFault
  · refine h.releasing fun _ h => ?_
    split
    · exact h.pushBottom.done
    · split
      · exact h.queueFull
      · split
        exacts [h.pushBottom.done, h.upcall]

theorem Canonical.setMask {n} {m} {on} (h : Canonical s) : Canonical (setMask s n m on) := h.foldl fun _ _ h => h.setEn.ite h

/-! ### Sync -/

theorem Canonical.fenceCaches {k} (h : Canonical s) : Canonical (fenceCaches s k) := by
  unfold Machine.fenceCaches
  dsimp only
  split
  · exact h
  · split
    exacts [h, h.setMyCore, h.setMyCore]

theorem Canonical.execFence {k} {c} (h : Canonical s) : CanonicalOut (execFence k c s) := by
  unfold Machine.execFence
  dsimp only
  split
  exacts [h.setMe.fenceCaches.done, canonical_next h.setMe]

theorem Canonical.queueCrier {kind} {poff} {val} {acc} {vec} (h : Canonical s) :
    Canonical (queueCrier s kind poff val acc vec) := h.crierMsg

theorem Canonical.withShare {f} (h : Canonical s) (hf : ∀ y0, Canonical y0 → CanonicalOut (f y0)) :
    CanonicalOut (withShare s f) := by
  unfold Machine.withShare
  split
  exacts [canonical_next h.parkHere, hf _ h]

theorem Canonical.crierAsk {st} {kind} {d} {adr} {val} {vec} (h : Canonical s) :
    CanonicalOut (crierAsk s st kind d adr val vec) := by
  unfold Machine.crierAsk
  dsimp only
  split
  exacts [canonical_next h.parkHere, h.withShare (fun _ h => (((Canonical.of_mem h).setMe).queueCrier).done)]

theorem Canonical.execCrySt {st} {a} {b} (h : Canonical s) : CanonicalOut (execCrySt st a b s) := by
  unfold Machine.execCrySt
  dsimp only
  split
  exacts [h.supFault, h.releasing (fun _ h => h.withShare (fun _ h => h.queueCrier.done))]

theorem Canonical.execCryAdd {st} {d} {a} {b} (h : Canonical s) : CanonicalOut (execCryAdd st d a b s) := by
  unfold Machine.execCryAdd
  dsimp only
  split
  exacts [h.supFault, h.releasing (fun _ h => h.crierAsk)]

theorem Canonical.execBarr {st} {c} {i} (h : Canonical s) : CanonicalOut (execBarr st c i s) := by
  unfold Machine.execBarr
  dsimp only
  split
  · exact h.supFault
  · refine h.releasing fun _ h => ?_
    split
    · exact canonical_next h.setMe
    · split
      exacts [h.withShare (fun _ h => h.setMe.issuePod.done), h.setMe.arrive.done]

theorem Canonical.noteGang {n} {key} (h : Canonical s) : Canonical (noteGang s n key) := by
  unfold Machine.noteGang
  dsimp only
  split
  exacts [h, h.setPkg]

theorem Canonical.execBwait {st} {d} {c} {i} (h : Canonical s) : CanonicalOut (execBwait st d c i s) := by
  unfold Machine.execBwait
  dsimp only
  split
  · exact h.supFault
  · split
    exacts [h.wrX.setMe.done, canonical_next h.noteGang.setMe]

/-! ### System -/

theorem Canonical.execSrd {st} {d} {n} (h : Canonical s) : CanonicalOut (execSrd st d n s) := by
  unfold Machine.execSrd
  split
  · exact h.supFault
  · split
    · exact h.supFault
    · split
      exacts [canonical_next h.parkHere, h.wrX.done]

theorem Canonical.writeIf {c} (h : Canonical s) : Written.Canonical (writeIf c s) := by
  unfold Machine.writeIf
  split
  exacts [h, trivial]

theorem Canonical.writeTapeLimit {v} (h : Canonical s) : Written.Canonical (writeTapeLimit s v) := by
  unfold Machine.writeTapeLimit
  dsimp only
  split
  · exact trivial
  · split
    · exact trivial
    · split
      · exact Canonical.of_mem (Memory.wf_write _ _ _ (Memory.wf_write _ _ _ h))
      · split
        exacts [Canonical.of_mem (Memory.wf_write _ _ _ (Memory.wf_write _ _ _ h)), trivial]

theorem Canonical.srWrite {n} {w} (h : Canonical s) : Written.Canonical (srWrite s n w) := by
  unfold Machine.srWrite
  dsimp only
  split
  · exact h.setMe.writeIf
  · exact h.setMe.writeIf
  · exact h.setMe.writeIf
  · exact h.writeTapeLimit
  · exact h.setMe.writeIf
  · exact h.setMe.writeIf
  · exact h.setMyCore.writeIf
  · exact h.setMyCore.writeIf
  · exact h.setMe.writeIf
  · exact h.setMe.writeIf
  · exact h.setMyCore.writeIf
  · exact h.setMyCore.writeIf
  · exact h.setMyCore.writeIf
  · exact trivial

theorem Canonical.execSwr {st} {a} {n} (h : Canonical s) : CanonicalOut (execSwr st a n s) := by
  unfold Machine.execSwr
  split
  · exact h.supFault
  · split
    exacts [h.supFault, (h.srWrite.ok ‹_›).done]

theorem Canonical.execCtxsv {st} {a} {b} (h : Canonical s) : CanonicalOut (execCtxsv st a b s) := by
  unfold Machine.execCtxsv
  dsimp only
  split
  · exact h.supFault
  · split
    · exact h.supFault
    · split
      · exact h.supFault
      · split
        · exact (h.setCore.saveCtx.wakeAll.freeContext.ite h.setCore.saveCtx.wakeAll).done
        · exact (h.freeContext.ite h).done
        · exact h.supFault

theorem Canonical.restoreCtx {n} {m} {i} {c} {k} {own} (h : Canonical s) : Canonical (restoreCtx s n m i c k own) := by
  unfold Machine.restoreCtx
  extract_lets u
  have hu : Canonical u := h.restoreEngines
  split
  · exact hu.setCtx
  · dsimp only
    exact (hu.fresh.noteWork).setCtx

theorem Canonical.execCtxld {st} {a} {b} (h : Canonical s) : CanonicalOut (execCtxld st a b s) := by
  unfold Machine.execCtxld
  split
  · exact h.supFault
  · split
    · exact h.supFault
    · split
      · exact h.supFault
      · extract_lets k own fits
        split
        · exact h.supFault
        · split
          exacts [canonical_next h.setMe.parkHere, h.setMe.restoreCtx.done]

theorem Canonical.dropTlb {pkg} {part} {voff} {all} (h : Canonical s) :
    Canonical (dropTlb s pkg part voff all) := h.foldl fun _ _ h => h.setDie

theorem Canonical.execXinv {st} {a} {b} (h : Canonical s) : CanonicalOut (execXinv st a b s) := by
  unfold Machine.execXinv
  extract_lets adr w part voff all
  split
  · exact h.supFault
  · split
    · exact h.supFault
    · split
      · exact h.supFault
      · split
        · exact h.supFault
        · split
          · exact h.supFault
          · split
            · exact canonical_next h.parkHere
            · split
              next nums t ht =>
              have ht' : Canonical t := by
                split at ht <;> cases ht
                exacts [h, h.dropTlb]
              split
              exacts [ht'.setMe.done, canonical_next ht'.setMe.parkHere]

theorem Canonical.execEret {st} (h : Canonical s) : CanonicalOut (execEret st s) := by
  unfold Machine.execEret
  split
  exacts [h.returnFrom, h.supFault]

theorem Canonical.execHalt {st} (h : Canonical s) : CanonicalOut (execHalt st s) := by
  unfold Machine.execHalt
  split
  exacts [canonical_next h.advance.parkHere, h.supFault]

theorem Canonical.resend {a} (h : Canonical s) : Canonical (resend s a) := by
  unfold Machine.resend
  dsimp only
  split
  · exact h.setCtx.sendLanes
  · exact h.setCtx.sendLanes
  · split
    exacts [h.setCtx.deliver, h.setCtx.sendAccess]

theorem Canonical.skipGet {a} {n} (h : Canonical s) : Canonical (skipGet s a n) := by
  unfold Machine.skipGet
  split
  · exact h
  · split
    exacts [h.putGranules, h]

theorem Canonical.skipKept {a} {code} (h : Canonical s) :
    Canonical (skipKept s a code) := Canonical.setCtx (by split; exacts [by split; exacts [h.skipGet, h], h])

theorem Canonical.resumeCtx {m} {c} (h : Canonical s) : Canonical (resumeCtx s m c) := by
  unfold Machine.resumeCtx
  dsimp only
  split
  · exact h
  · split
    exacts [h.setCore.setCtx.resend, h.setCore.setCtx.skipKept, h.setCore.setCtx, h.setCore.setCtx]

theorem Canonical.execResume {st} {m} {a} (h : Canonical s) : CanonicalOut (execResume st m a s) := by
  unfold Machine.execResume
  dsimp only
  split
  exacts [h.supFault, h.resumeCtx.done]

/-! ### Events -/

theorem Canonical.execStoreAcknowledgement {k} (h : Canonical s) : CanonicalOut (execStoreAcknowledgement k s) := by
  have key : Canonical (match (s.flight[k]?).map Packet.body with
    | some (.dataDone _) => Machine.doneArrival s k
    | _ => Machine.ackArrival s k) := by
    split
    exacts [h.doneArrival, h.ackArrival]
  exact canonical_next key

theorem Canonical.execRemoteAccessArrival {k} (h : Canonical s) : CanonicalOut (execRemoteAccessArrival k s) := by
  have key : Canonical (match (s.flight[k]?).map Packet.body with
    | some (.data _) => Machine.dataArrival s k
    | _ => Machine.meshArrival s k) := by
    split
    exacts [h.dataArrival, h.meshArrival]
  exact canonical_next key

theorem Canonical.promote {n} {c} (h : Canonical s) : Canonical (promote s n c) := by
  unfold Machine.promote
  dsimp only
  split
  exacts [h.setCtx, h]

theorem Canonical.execSendQueueEntryLeaves {core} (h : Canonical s) :
    CanonicalOut (execSendQueueEntryLeaves core s) := canonical_next (h.ite h.leaveQueue)

theorem Canonical.varDone {n} {c} (h : Canonical s) : Canonical (varDone s n c) := by
  unfold Machine.varDone
  dsimp only
  split
  · exact h
  · split
    · exact h
    · split
      exacts [h, h.setCtx]

theorem Canonical.stealPacket {n} {m} {b} (h : Canonical s) : Canonical (stealPacket s n m b) := h.transmit

theorem Canonical.stealAsk {n} (h : Canonical s) : Canonical (stealAsk s n) := by
  unfold Machine.stealAsk
  dsimp only
  split
  · exact h
  · split
    · exact h
    · split
      exacts [h.setCore.stealPacket, h.setCore]

theorem Canonical.stealTake {k} {f} (h : Canonical s) (hf : ∀ t p b, Canonical t → CanonicalSome (f t p b)) :
    Canonical (stealTake s k f) := by
  unfold Machine.stealTake
  split
  · split
    · split
      exacts [h.removeAt, (hf _ _ _ h.removeAt).getD h]
    · exact h
  · exact h

theorem Canonical.stealYield {k} (h : Canonical s) : Canonical (stealYield s k) := by
  unfold Machine.stealYield
  dsimp only
  refine h.stealTake fun _ _ _ h => ?_
  split
  · split
    exacts [canonical_some h, canonical_some h.setCore.stealPacket]
  · exact canonical_none

theorem Canonical.stealPlace {k} (h : Canonical s) : Canonical (stealPlace s k) := by
  unfold Machine.stealPlace
  refine h.stealTake fun _ _ _ h => ?_
  split
  · split
    exacts [canonical_some h.pushTop, canonical_none]
  · exact canonical_none

theorem Canonical.levelAsk {n} (h : Canonical s) : Canonical (levelAsk s n) := by
  unfold Machine.levelAsk
  dsimp only
  split
  · exact h
  · split
    exacts [h, h.stealPacket]

theorem Canonical.levelPlace {k} (h : Canonical s) : Canonical (levelPlace s k) := by
  unfold Machine.levelPlace
  dsimp only
  refine h.stealTake fun _ _ _ h => ?_
  split
  exacts [canonical_some h.setCore.pushTop, canonical_none]

theorem Canonical.recordTimeout {n} {off} (h : Canonical s) : Canonical (recordTimeout s n off) := by
  unfold Machine.recordTimeout
  split
  exacts [h.barTimeout, h]

theorem Canonical.stopDone {pkg} {part} (h : Canonical s) : Canonical (stopDone s pkg part) := by
  unfold Machine.stopDone
  dsimp only
  split
  exacts [h, ((h.foldl fun _ _ h => h.ite h.saveEngines).setStop).serviceNotice]

theorem Canonical.resetDone {pkg} {part} (h : Canonical s) : Canonical (resetDone s pkg part) := by
  unfold Machine.resetDone
  split
  exacts [h, h.setStop.serviceNotice]

/-! ### Gauss -/

theorem Canonical.gaussResult {st} {rs} (h : Canonical s) : CanonicalOut (gaussResult s st rs) := by
  unfold Machine.gaussResult
  dsimp only
  split
  exacts [h.setMyCore.setMe.done, h.setMe.done]

theorem Canonical.execGadd {st} {d} {a} {b} (h : Canonical s) : CanonicalOut (execGadd st d a b s) := by
  unfold Machine.execGadd
  dsimp only
  split
  exacts [h.supFault, h.gaussResult]

theorem Canonical.execGdamp {st} {d} {a} {b} (h : Canonical s) : CanonicalOut (execGdamp st d a b s) := by
  unfold Machine.execGdamp
  dsimp only
  split
  · exact h.supFault
  · split
    exacts [h.supFault, h.gaussResult]

theorem Canonical.execGsolve {st} {d} {a} (h : Canonical s) : CanonicalOut (execGsolve st d a s) := by
  unfold Machine.execGsolve
  split
  exacts [h.supFault, h.gaussResult]

theorem Canonical.execGres {st} {d} {a} {b} {h} (hs : Canonical s) : CanonicalOut (execGres st d a b h s) := by
  unfold Machine.execGres
  dsimp only
  split
  exacts [hs.supFault, hs.gaussResult]

theorem Canonical.execGelim {st} {d} {a} {m} {t} {p} (h : Canonical s) : CanonicalOut (execGelim st d a m t p s) := by
  unfold Machine.execGelim
  dsimp only
  split
  · exact h.supFault
  · split
    · exact h.gaussResult
    · split
      · exact canonical_next h.parkHere
      · split
        exacts [h.setMe.upcall, h.gaussResult]

theorem Canonical.gaussDone {n} (h : Canonical s) : Canonical (gaussDone s n) := by
  unfold Machine.gaussDone
  dsimp only
  split
  · exact h
  · split
    exacts [h.setCore, h.setCore.setCtx.wakeAll]

/-! ### Auto -/

theorem Canonical.packetStep {k} (h : Canonical s) : CanonicalSome (packetStep s k) := by
  unfold Machine.packetStep
  split
  · exact canonical_none
  · exact canonical_some h.deliverPacket
  · extract_lets near t
    refine canonical_ifMoved ?_
    dsimp only [t]
    split
    · exact h.arriveAccess
    · exact h.msgArrival.ite h.deliverPacket
    · exact h.replyArrival.ite h.deliverPacket
    · exact h.ackArrival.ite h.deliverPacket
    · exact h.rowArrival.ite h.deliverPacket
    · exact h.contribute
    · exact h.probeArrival
    · exact h.ite h.deliverPacket
    · exact h.dataArrival.ite h.deliverPacket
    · exact h.doneArrival.ite h.deliverPacket
    · split
      exacts [h.stealYield, h.stealPlace, h.levelPlace]

theorem Canonical.heldStep {k} (h : Canonical s) : CanonicalSome (heldStep s k) := by
  unfold Machine.heldStep
  split
  · exact canonical_none
  · split
    · exact canonical_ifMoved h.waiterApplied
    · exact canonical_ifMoved h.waiterApplied
    · exact canonical_ifMoved h.pageWalked
    · exact canonical_findSome fun _ => canonical_ifMoved h.markerArrival

theorem Canonical.crierStep {pkg} (h : Canonical s) : CanonicalSome (crierStep s pkg) := by
  unfold Machine.crierStep
  split
  · exact canonical_some h.resendRequest
  · split
    · exact canonical_none
    · exact canonical_some (by split; exacts [h.crierSt, h.crierAdd, h.crierMark, h.crierBarrier, h.crierMarket,
      h.crierGen, h.crierDrained, h.crierMember, h.crierIntent, h.crierUnknown])

theorem Canonical.tokenStep {pod} (h : Canonical s) : CanonicalSome (tokenStep s pod) := by
  unfold Machine.tokenStep
  split
  · split
    exacts [canonical_some h.tokenFrame, canonical_none]
  · exact canonical_ifMoved h.silentHolder

theorem Canonical.engineStep {n} (h : Canonical s) : CanonicalSome (engineStep s n) := by
  unfold Machine.engineStep
  extract_lets k q
  have hmill := canonical_firstOf (is := [0]) fun _ => canonical_ifMoved (look := q) (s := s) (h.millStep (n := n))
  have hcopy := canonical_firstOf (is := List.range k.copyq.length) fun i =>
    canonical_ifMoved (look := q) (s := s) (h.copyStep (n := n) (k := i))
  split
  · exact canonical_some h.gaussDone
  · split
    · next t ht => exact canonical_some (hmill t ht)
    · split
      · next t ht => exact canonical_some (hcopy t ht)
      · split
        · next t ht => exact canonical_some (canonical_ifMoved h.grantServe t ht)
        · exact canonical_firstOf fun _ => canonical_ifMoved h.dispStep

theorem Canonical.varStep {n} (h : Canonical s) : CanonicalSome (varStep s n) := canonical_map fun _ _ => h.varDone

theorem Canonical.timerStep (h : Canonical s) : CanonicalSome (timerStep s) := by
  unfold Machine.timerStep
  dsimp only
  split
  · exact canonical_some h.barTimeout
  · split
    · exact canonical_some h.deadline
    · split
      · exact canonical_firstOf fun _ => canonical_ifMoved h.grantExpire
      · exact canonical_none

theorem Canonical.autoParts {f} (h : Canonical s) (hf : f ∈ autoParts s) : CanonicalSome (f ()) := by
  unfold Machine.autoParts at hf
  simp only [List.mem_cons, List.not_mem_nil, or_false] at hf
  obtain rfl | rfl | rfl | rfl | rfl | rfl | rfl | rfl | rfl | rfl | rfl := hf <;> refine canonical_firstOf fun n => ?_
  · exact h.packetStep
  · exact h.heldStep
  · split
    exacts [canonical_some h.dispatchCore, canonical_none]
  · split
    exacts [canonical_none, canonical_some h.leaveQueue]
  · exact h.crierStep
  · exact canonical_ifMoved h.sendDrained
  · exact canonical_ifMoved h.commitCheck
  · exact h.tokenStep
  · exact h.engineStep
  · exact h.varStep
  · refine canonical_firstOf fun q => ?_
    split
    · exact canonical_ifMoved h.stopDone
    · split
      exacts [canonical_some h.resetDone, canonical_none]

theorem Canonical.autoMove (h : Canonical s) : Move.Canonical (autoMove s) := by
  unfold Machine.autoMove
  split
  · next t ht =>
    obtain ⟨f, hf, hft⟩ := List.exists_of_findSome?_eq_some ht
    exact h.autoParts hf t hft
  · split
    · exact trivial
    · split
      · next t ht => exact h.timerStep t ht
      · exact trivial

/-! ### Scalar -/

theorem Canonical.alu {st} {len} {d} {v} (h : Canonical s) : CanonicalOut (alu s st len d v) := h.wrX.done

theorem Canonical.mulResult {st} {d} {v} (h : Canonical s) : CanonicalOut (mulResult s st d v) := h.wrX.done

theorem Canonical.execMin {st} {d} {a} {b} (h : Canonical s) : CanonicalOut (execMin st d a b s) := h.alu

theorem Canonical.execMax {st} {d} {a} {b} (h : Canonical s) : CanonicalOut (execMax st d a b s) := h.alu

theorem Canonical.execMinu {st} {d} {a} {b} (h : Canonical s) : CanonicalOut (execMinu st d a b s) := h.alu

theorem Canonical.execMaxu {st} {d} {a} {b} (h : Canonical s) : CanonicalOut (execMaxu st d a b s) := h.alu

theorem Canonical.divResult {st} {isSigned} {quotient} {d} {a} {b} (h : Canonical s) :
    CanonicalOut (divResult s st isSigned quotient d a b) := h.raiseSflags.varX.done

theorem Canonical.execCmp {st} {d} {a} {b} {c} (h : Canonical s) : CanonicalOut (execCmp st d a b c s) := h.alu

theorem Canonical.execBfx {st} {d} {a} {p} {l} (h : Canonical s) : CanonicalOut (execBfx st d a p l s) := by
  unfold Machine.execBfx
  split
  exacts [h.supFault, h.alu]

theorem Canonical.execBfi {st} {d} {a} {p} {l} (h : Canonical s) : CanonicalOut (execBfi st d a p l s) := by
  unfold Machine.execBfi
  split
  exacts [h.supFault, h.alu]

theorem Canonical.execMkadr {st} {d} {a} {b} (h : Canonical s) : CanonicalOut (execMkadr st d a b s) := by
  unfold Machine.execMkadr
  dsimp only
  split
  exacts [h.supFault, h.alu]

theorem Canonical.execAbsa {st} {d} {a} (h : Canonical s) : CanonicalOut (execAbsa st d a s) := by
  unfold Machine.execAbsa
  dsimp only
  split
  · split
    · exact h.supFault
    · split
      exacts [h.supFault, h.alu]
  · exact h.alu

theorem Canonical.execGptr {st} {d} {a} (h : Canonical s) : CanonicalOut (execGptr st d a s) := by
  unfold Machine.execGptr
  dsimp only
  split
  · split
    · exact h.supFault
    · split
      exacts [h.supFault, h.alu]
  · exact h.alu

theorem Canonical.execSel {st} {d} {a} {b} {c} (h : Canonical s) : CanonicalOut (execSel st d a b c s) := h.alu

/-! ### Vector -/

theorem Canonical.vecFp {st} {d} {p} {q} {t} {f} (h : Canonical s) :
    CanonicalOut (vecFp s st d p q t f) := h.wrV.raiseLanes.done

theorem Canonical.vecFn {st} {d} {p} {q} {t} {f} (h : Canonical s) :
    CanonicalOut (vecFn s st d p q t f) := h.raiseLanes.varResult.done

theorem Canonical.vecFp2 {st} {d} {a} {b} {p} {q} {t} {f} (h : Canonical s) :
    CanonicalOut (vecFp2 s st d a b p q t f) := h.vecFp

theorem Canonical.vecFma {st} {d} {a} {b} {p} {q} {t} {np} {nc} (h : Canonical s) :
    CanonicalOut (vecFma s st d a b p q t np nc) := h.vecFp

theorem Canonical.vecInt {st} {d} {a} {b} {p} {t} {f} (h : Canonical s) : CanonicalOut (vecInt s st d a b p t f) := h.wrV.done

theorem Canonical.vecBits {st} {d} {p} {v} (h : Canonical s) : CanonicalOut (vecBits s st d p v) := h.wrV.done

theorem Canonical.execVimin {st} {d} {a} {b} {p} {t} (h : Canonical s) : CanonicalOut (execVimin st d a b p t s) := h.vecInt

theorem Canonical.execVimax {st} {d} {a} {b} {p} {t} (h : Canonical s) : CanonicalOut (execVimax st d a b p t s) := h.vecInt

theorem Canonical.execViminu {st} {d} {a} {b} {p} {t} (h : Canonical s) : CanonicalOut (execViminu st d a b p t s) := h.vecInt

theorem Canonical.execVimaxu {st} {d} {a} {b} {p} {t} (h : Canonical s) : CanonicalOut (execVimaxu st d a b p t s) := h.vecInt

theorem Canonical.execVcmp {st} {d} {a} {b} {p} {k} (h : Canonical s) : CanonicalOut (execVcmp st d a b p k s) := by
  unfold Machine.execVcmp
  dsimp only
  split
  exacts [h.wrP.raiseLanes.done, h.wrP.done]

theorem Canonical.execVcvt {st} {d} {a} {p} {q} {f} (h : Canonical s) :
    CanonicalOut (execVcvt st d a p q f s) := h.setMe.wrV.raiseLanes.done

theorem Canonical.vecTree {st} {d} {a} {p} {q} {t} {idle} {f} (h : Canonical s) :
    CanonicalOut (vecTree s st d a p q t idle f) := h.wrV.raiseLanes.done

theorem Canonical.predResult {st} {d} {v} (h : Canonical s) : CanonicalOut (predResult s st d v) := h.wrP.done

theorem Canonical.afterVectors {f} (h : Canonical s) (hf : ∀ y0, Canonical y0 → CanonicalOut (f y0)) :
    CanonicalOut (afterVectors s f) := by
  unfold Machine.afterVectors
  split
  · exact hf _ h
  · split
    exacts [canonical_next h.parkHere, canonical_next h]

/-! ### A step -/

theorem Canonical.execVfmin {st d a b p q t} (h : Canonical s) : CanonicalOut (execVfmin st d a b p q t s) := h.vecFp2

theorem Canonical.execVfmax {st d a b p q t} (h : Canonical s) : CanonicalOut (execVfmax st d a b p q t s) := h.vecFp2

theorem Canonical.execViadd {st d a b p t} (h : Canonical s) : CanonicalOut (execViadd st d a b p t s) := h.vecInt

theorem Canonical.execVisub {st d a b p t} (h : Canonical s) : CanonicalOut (execVisub st d a b p t s) := h.vecInt

theorem Canonical.execVimul {st d a b p t} (h : Canonical s) : CanonicalOut (execVimul st d a b p t s) := h.vecInt

theorem Canonical.execVimulh {st d a b p t} (h : Canonical s) : CanonicalOut (execVimulh st d a b p t s) := h.vecInt

theorem Canonical.execVshl {st d a b p t} (h : Canonical s) : CanonicalOut (execVshl st d a b p t s) := h.vecInt

theorem Canonical.execVshr {st d a b p t} (h : Canonical s) : CanonicalOut (execVshr st d a b p t s) := h.vecInt

theorem Canonical.execVsra {st d a b p t} (h : Canonical s) : CanonicalOut (execVsra st d a b p t s) := h.vecInt

theorem Canonical.execVrol {st d a b p t} (h : Canonical s) : CanonicalOut (execVrol st d a b p t s) := h.vecInt

theorem Canonical.execFlgrd {st d} (h : Canonical s) : CanonicalOut (execFlgrd st d s) :=
  h.afterVectors fun _ h => h.varResult.done

theorem Canonical.execFlgclr {st p} (h : Canonical s) : CanonicalOut (execFlgclr st p s) := h.afterVectors fun _ h => h.setMe.done

theorem Canonical.execScatter {st a b c} (h : Canonical s) : CanonicalOut (execScatter st a b c s) := by
  unfold Machine.execScatter
  exact h.listIssue

/-- An instruction that stands in a program. -/
theorem Canonical.execCode {i} (hc : i.isCode = true) (h : Canonical s) : CanonicalOut (exec i s) := by
  cases i with
  | nopShort | nop => exact h.done
  | mov | li | addShort | subShort | andShort | orShort | xorShort | addiShort | shliShort | shriShort | sraiShort
    | add | sub | and | or | xor | andn | shl | shr | sra | rol | clz | ctz | popc | addi | andi | ori | xori | shli
    | shri | srai | roli | lih | pcnt => exact h.alu
  | ldDShort | ld | ldw | ldc => exact h.scalarLoad
  | stDShort | st | stp | stf => exact h.scalarStore
  | jrShort | j | jr => exact h.jumpChecked
  | endShort | endAct => exact h.endActivation
  | beqz | bnez | beq | bne | blt | bge | bltu | bgeu => exact h.branch
  | min => exact h.execMin
  | max => exact h.execMax
  | minu => exact h.execMinu
  | maxu => exact h.execMaxu
  | mul | mulh | mulhu | madd | msub => exact h.mulResult
  | div | divu | rem | remu => exact h.divResult
  | cmp => exact h.execCmp
  | bfx => exact h.execBfx
  | bfi => exact h.execBfi
  | mkadr => exact h.execMkadr
  | absa => exact h.execAbsa
  | gptr => exact h.execGptr
  | sel => exact h.execSel
  | jal | jalr => exact h.jumpLinked
  | loop => exact h.execLoop
  | sysc => exact h.execSysc
  | eret => exact h.execEret
  | halt => exact h.execHalt
  | resume => exact h.execResume
  | get => exact h.execGet
  | put => exact h.execPut
  | feqry | enq | deq | tmset | cntadd | cntrd => exact h.access
  | feset => exact h.execFeset
  | amo => exact h.execAmo
  | cas => exact h.execCas
  | vld | vldw | vldc => exact h.vectorLoad
  | vst | vstp | vstf => exact h.vectorStore
  | vgath | vscat => exact h.lanewise
  | vfadd | vfsub | vfmul => exact h.vecFp2
  | vfmin => exact h.execVfmin
  | vfmax => exact h.execVfmax
  | vfabs | vfneg | vfcpys => exact h.vecFp
  | vfma | vfms | vfnma | vfnms => exact h.vecFma
  | vrcp | vrsq | vexp2 | vlog2 => exact h.vecFn
  | viadd => exact h.execViadd
  | visub => exact h.execVisub
  | vimul => exact h.execVimul
  | vimulh => exact h.execVimulh
  | vimin => exact h.execVimin
  | vimax => exact h.execVimax
  | viminu => exact h.execViminu
  | vimaxu => exact h.execVimaxu
  | vand | vor | vxor | vandn => exact h.vecBits
  | vshl => exact h.execVshl
  | vshr => exact h.execVshr
  | vsra => exact h.execVsra
  | vrol => exact h.execVrol
  | vcmp => exact h.execVcmp
  | vsel | vshuf | vbcast | vinsr | vdot => exact h.wrV.done
  | vcvt => exact h.execVcvt
  | vrsum | vrmax | vrmin => exact h.vecTree
  | vextr => exact h.wrX.done
  | pand | por | pxor | pnot => exact h.predResult
  | flgrd => exact h.execFlgrd
  | flgclr => exact h.execFlgclr
  | gadd => exact h.execGadd
  | gdamp => exact h.execGdamp
  | gsolve => exact h.execGsolve
  | gres => exact h.execGres
  | gelim => exact h.execGelim
  | mload | mflip | mstrm | mdrain | mclr => exact h.millIssue
  | copy => exact h.copyIssue
  | copym => exact h.execCopym
  | gather => exact h.execGather
  | scatter => exact h.execScatter
  | mcast => exact h.execMcast
  | tmadv => exact h.setMe.done
  | disp | comb => exact h.routeIssue
  | dcur => exact h.execDcur
  | dres => exact h.execDres
  | tmark | tagpnd => exact h.varResult.done
  | replay => exact h.execReplay
  | ttrim => exact h.execTtrim
  | send | sendb => exact h.sendCommon
  | reply => exact h.execReply
  | spawn => exact h.execSpawn
  | tagen | tagdis => exact h.setMask.done
  | mbput => exact h.execMbput
  | mbtake => exact h.execMbtake
  | mbcfg => exact h.execMbcfg
  | crySt => exact h.execCrySt
  | cryAdd => exact h.execCryAdd
  | cryMark => exact h.crierAsk
  | fence => exact h.execFence
  | publish => exact h.execPublish
  | barr => exact h.execBarr
  | bwait => exact h.execBwait
  | cntarm => exact h.execCntarm
  | srd => exact h.execSrd
  | swr => exact h.execSwr
  | ctxsv => exact h.execCtxsv
  | ctxld => exact h.execCtxld
  | xinv => exact h.execXinv
  | trap st => exact h.execTrap (st := st)
  | _ => cases hc

/-- An event that the machine raises itself. -/
theorem Canonical.execEvent {i} (hc : i.isCode = false) (h : Canonical s) : CanonicalOut (exec i s) := by
  cases i with
  | gaussComplete => exact canonical_next h.gaussDone
  | millExecute => exact canonical_next h.millStep
  | copyEngineExecute => exact canonical_next h.copyStep
  | dispatchEngineExecute => exact canonical_next h.dispStep
  | grantServed => exact canonical_next h.grantServe
  | grantBoundExpiry => exact canonical_next h.grantExpire
  | rowContribution => exact canonical_next h.rowArrival
  | messageArrival | rplyArrival => exact canonical_next h.msgArrival
  | dispatch => exact canonical_next h.dispatchCore
  | priorityPromotion => exact canonical_next h.promote
  | sendQueueEntryLeaves => exact h.execSendQueueEntryLeaves
  | stealRequest => exact canonical_next h.stealAsk
  | stealRequestArrival => exact canonical_next h.stealYield
  | stolenRecordsArrival => exact canonical_next h.stealPlace
  | levellingInterval => exact canonical_next h.levelAsk
  | levellingShipmentArrival => exact canonical_next h.levelPlace
  | barrierTimeout => exact canonical_next h.recordTimeout
  | fullEmptyWaiterApplied => exact canonical_next h.waiterApplied
  | accessReplyArrival => exact canonical_next h.replyArrival
  | storeAcknowledgement => exact h.execStoreAcknowledgement
  | pageWalk => exact canonical_next h.pageWalked
  | contribution => exact canonical_next h.contribute
  | reductionDeadline => exact canonical_next h.deadline
  | catchupProbe => exact canonical_next h.probeArrival
  | marker => exact canonical_next h.markerArrival
  | packetDelivery => exact canonical_next h.deliverPacket
  | packetLost => exact canonical_next h.packetLost
  | flitRetransmit | sramScrub | lpddr6Scrub | endToEndCheckFailure => exact canonical_next h
  | escapeChannelDivert => exact canonical_next h.divert
  | linkFailure => exact canonical_next h.failLink
  | laneErrorWindow => exact canonical_next h.laneWindow
  | laneRetrainDone => exact canonical_next h.laneRetrained
  | crierTokenFrame => exact canonical_next h.tokenFrame
  | crierSilentHolder => exact canonical_next h.silentHolder
  | crierResendRequest => exact canonical_next h.resendRequest
  | crierStApplied => exact canonical_next h.crierSt
  | crierAddApplied => exact canonical_next h.crierAdd
  | crierMarkApplied => exact canonical_next h.crierMark
  | crierBarrierArrival => exact canonical_next h.crierBarrier
  | crierMarket => exact canonical_next h.crierMarket
  | crierGen => exact canonical_next h.crierGen
  | crierDrained => exact canonical_next h.crierDrained
  | drainedSend => exact canonical_next h.sendDrained
  | crierMember => exact canonical_next h.crierMember
  | crierIntent => exact canonical_next h.crierIntent
  | crierUnknownKind => exact canonical_next h.crierUnknown
  | commit | stop | go | partitionReset | partitionEntryWrite | quadTableWrite | classTableWrite | barrierRecordWrite
    | regionDescriptorWrite | tapeQuotaWrite | savebaseWrite | hostPortWrite | lcommit | energyCounterClear | unfreeze
    | controlWordWrite => exact canonical_next h.ctlArrival
  | commitCheck => exact canonical_next h.commitCheck
  | stopComplete => exact canonical_next h.stopDone
  | resetComplete => exact canonical_next h.resetDone
  | marketInterval => exact canonical_next h.marketEnd
  | energyUpdate => exact canonical_next h.energyUpdate
  | powerOnReset => exact canonical_next h.powerOn
  | boot => exact canonical_next h.bootImage
  | attestationRequest => exact canonical_next h.attest
  | hostWindowWrite => exact canonical_next h.hostWrite
  | hostRetry => exact canonical_next h.hostRetry
  | telemetry | ageingMonitor => exact canonical_next h.report
  | marginReplan => exact canonical_next h.marginReplan
  | memoryError => exact canonical_next h.memError
  | sumStoreError => exact canonical_next h.sumError
  | illegalInstruction => exact canonical_next h.illegal
  | variableLatencyResult => exact canonical_next h.varDone
  | remoteAccessArrival => exact h.execRemoteAccessArrival
  | powerLoss => exact canonical_next h.powerLoss
  | powerLimit => exact canonical_next h.powerLimit
  | _ => cases hc

theorem Canonical.exec {i} (h : Canonical s) : CanonicalOut (exec i s) := by
  cases hc : i.isCode
  exacts [h.execEvent hc, h.execCode hc]

theorem Canonical.coreStep {n} {late} (h : Canonical s) : CanonicalOut (coreStep s n late) := by
  unfold Machine.coreStep
  split
  · exact canonical_fault
  · split
    · next t ht => exact canonical_next (h.cycleOf.over ht)
    · next t i ht => exact (h.cycleOf.run ht).exec

theorem Canonical.step (h : Canonical s) : CanonicalOut (step s) := by
  unfold Machine.step
  extract_lets u
  have hu : Canonical u := h
  split
  · exact Canonical.coreStep hu
  · exact canonical_next (Canonical.sendAdmit hu)
  · exact canonical_next (Canonical.firstAsk hu)
  · split
    · exact Canonical.exec hu
    · exact canonical_next hu
  · split
    · next t ht => exact canonical_next (hu.autoMove.state ht)
    · exact hu.coreStep
    · exact canonical_next hu

/-- Settles O59: every operation of the model keeps memory canonical, from the writes of single bytes up to a whole step. -/
theorem stepsKeepMemory : Obligations.StepsKeepMemory := by
  intro s t hs ht
  exact Canonical.step hs t ht

end Sys2Proof.Machine

/-! ## Scalar accesses leave for their homes (R56) -/

namespace Sys2Proof.Machine

/-- A scalar load of the running context. -/
theorem leaves_scalarLoad {i : Instr} {s : State} {st : Stall} {len n : Nat} {t : Reg} {adr : Word} {q : Qual} {p : Place}
    (he : exec i s = scalarLoad s st len t adr n q)
    (h : Reaches s { newAccess s (.load q n) adr len with dest := xCode t } n n false true false true
      (if q = .consume then denyMirror else denyNone) p) :
    Leaves i s st len { newAccess s (.load q n) adr len with dest := xCode t } p :=
  leaves_access he rfl h

/-- A scalar store of the running context, whose form is checked as a store's. -/
theorem leaves_scalarStore {i : Instr} {s : State} {st : Stall} {len n : Nat} {t : Reg} {adr : Word} {q : Qual} {p : Place}
    (he : exec i s = scalarStore s st len t adr n q)
    (h : storeForm s adr n = 0 ∧ Reaches s { newAccess s (.store q n) adr len with val := (xr s t).setWidth 1024 } 1 n false false true
      false denyMirror p) :
    Leaves i s st len { newAccess s (.store q n) adr len with val := (xr s t).setWidth 1024 } p := by
  obtain ⟨hform, h⟩ := h
  have hissue : scalarStore s st len t adr n q = accessAt s st len n false true false denyMirror _
      (if q = .wait then some .fullEmpty else none) := if_neg (not_not.mpr hform)
  exact leaves_accessAt (he.trans hissue) rfl h.leads h.allowed h.permitted h.away

/-- Settles O15: each instruction issues its access through the checks that the hypothesis passes, and what issues leaves. -/
theorem scalarsLeave : Obligations.ScalarsLeave := by
  intro s st t b d a c z o p n dbl op
  exact ⟨leaves_scalarLoad rfl, leaves_scalarLoad rfl, leaves_scalarLoad rfl, leaves_scalarStore rfl, leaves_scalarStore rfl,
    leaves_scalarStore rfl, leaves_access (i := .amo st d a c n dbl op) rfl rfl, leaves_access (i := .cas st d a c dbl) rfl rfl⟩

end Sys2Proof.Machine

/-! ## A home in another package notes the job it works for (R56, R224)

An access that reaches a home in another package than its issuer's does more than its operation: the home notes that the access's job
has had work there. So what it leaves of the cores is not what the operation alone leaves, once the job is new at that home. -/

namespace Sys2Proof.Machine

/-- A plain load by a worker core of bytes outside reduction pages reads them, and changes nothing. -/
theorem applyAt_load_slice {s : State} {a : Access} {stamp : Vec16} {m off n : Nat} {v : View} (hop : a.op = .load .plain n)
    (hview : accView s a (.slice m off) n true false = .ok v) (hred : v.red = false) (hworker : isSupCore a.core = false) :
    applyAt s a stamp (.slice m off) = okWord s a (Memory.read s.mem v.key n) := by
  have hload : applyOp s a stamp (.slice m off) = okWord s a (Memory.read s.mem v.key n) := by
    simp [applyOp, hop, applyLoad, hview, withView, timedOut, hred, cachedRead, isCached, hworker]
  rw [applyAt, hload]
  simp [okWord, okReply, hworker]

/-- A plain load by core 16384, of package 1, of the word at OFFSET 0x1000 of core 0. -/
def abroadLoad : Access := { newAccess State.reset (.load .plain 8) 0x1000 4 with core := 16384 }

/-- The load on its way between the dies. -/
def abroadPacket : Packet := ⟨16384, 0, .req, 1, 0, 0, 0, zeroVec, .access abroadLoad, false, 0, false⟩

/-- The load is on its way to core 0, where no job has had work: partition 0 exists in package 0 and owns its quad 0, package 1 sees
package 0 as its package 0, and a region descriptor covers the whole slice of core 0. -/
def abroad : State :=
  let s := { State.reset with flight := [abroadPacket] }
  let s := setSvc (setSvc s 0 0x0007 1 0x80) 0 0x40000 1 0x80
  let s := setSvc s 1 0x1000 2 0x8000
  { s with mem := Memory.write s.mem (sliceKey 0 0x410400) 8 0xFC02C00000000000 }

/-- The load has been taken off its flow. -/
def abroadHome : State := moveFlow (removeAt abroad 0) abroadPacket

/-- Where the loaded word stands: plain bytes of core 0's slice, under the region descriptor at OFFSET 0x410400. -/
def abroadView : View := { rawView (sliceKey 0 0x1000) with flip := sliceKey 0 0x410406 }

/-- What the load answers. -/
def abroadReply : Reply :=
  ⟨abroadLoad, .data (BitVec.ofNat 1024 (Memory.read abroadHome.mem abroadView.key 8)), allBits, [], replyVec abroadHome abroadLoad⟩

/-- The load reaches core 0 and is applied there. -/
theorem abroad_arrives : Arrives abroad 0 abroadPacket abroadLoad (.slice 0 0x1000) abroadHome abroadReply where
  turn := by decide +kernel
  body := rfl
  live := by decide +kernel
  order := by decide +kernel
  seen := by decide +kernel
  leads := by decide +kernel
  walked := nofun
  quiet := rfl
  applies :=
    have hview : accView abroadHome abroadLoad (.slice 0 0x1000) 8 true false = .ok abroadView := by decide +kernel
    applyAt_load_slice rfl hview rfl rfl
  of := rfl
  still := rfl
  back := by decide +kernel

/-- The step that delivers the load notes its job at core 0; the load itself does not. -/
theorem abroad_work : (coreAt (deliverPacket abroad 0) 0).work = [abroadLoad.job] ∧ (coreAt abroadHome 0).work = [] := by
  decide +kernel

/-- Refutes O18: where a load arrives from another package, the cores are not what the load alone makes of them, since its home has
noted the load's job. -/
theorem not_accessesArrive : ¬ Obligations.AccessesArrive := by
  unfold Obligations.AccessesArrive
  intro h
  obtain ⟨-, hbetween, -⟩ := h abroad 0 abroadPacket abroadLoad (.slice 0 0x1000) abroadHome abroadReply abroad_arrives
  obtain ⟨u, -, hexec, -, -, hcores, -⟩ := hbetween (by decide +kernel) (by decide +kernel)
  obtain ⟨hnoted, hfree⟩ := abroad_work
  have hu : deliverPacket abroad 0 = u := Host.Outcome.next.inj hexec
  rw [hu, coreAt_congr hcores, hfree] at hnoted
  cases hnoted

end Sys2Proof.Machine

/-! ## An access held for its turn goes on by the event of the waiters (R63, R118)

FULL_EMPTY_WAITER_APPLIED serves two kinds of held access: one that waits on full/empty bits, and one that waits for earlier accesses of
its context. The second kind has no full/empty condition, yet it does not stay once its turn has come. -/

namespace Sys2Proof.Machine

/-- A plain load by core 1 of the word at OFFSET 0x1000 of core 0 that has waited at its home for its turn. -/
def turnHeld : Held := ⟨{ abroadLoad with core := 1 }, zeroVec, .turn, 0⟩

/-- The home of the load, where nothing is left for it to wait for. -/
def turnHome : State := { abroad with flight := [], held := [turnHeld] }

/-- The load's partition runs as it did when the load was issued. -/
theorem turnHeld_live : heldStale turnHome turnHeld = false := by decide +kernel

/-- Its turn has come: it is held no longer. -/
theorem waiterApplied_turnHome : (waiterApplied turnHome 0).held = [] := by decide +kernel

/-- Refutes O41: an access that is held for its turn, not for a full/empty condition, does not stay when the event of the waiters comes
and no earlier access of its context is left. -/
theorem not_heldAndProbed : ¬ Obligations.HeldAndProbed := by
  unfold Obligations.HeldAndProbed
  rintro ⟨hwaiters, -⟩
  obtain ⟨hstays, -⟩ := hwaiters turnHome 0 turnHeld (.slice 0 0x1000) turnHome abroadReply 0 0 0 0
  have hexec : exec (.fullEmptyWaiterApplied 0) turnHome = .next turnHome := hstays rfl turnHeld_live (.inl nofun)
  have hsame : waiterApplied turnHome 0 = turnHome := Host.Outcome.next.inj hexec
  have hheld := waiterApplied_turnHome
  rw [hsame] at hheld
  cases hheld

end Sys2Proof.Machine

/-! ## Reduction pages: contributions and deadlines (R72, R73, R94, R176) -/

namespace Sys2Proof.Machine

/-! ### Rising lists -/

theorem memb_cons {k n : Nat} {r : List Nat} : memb (k :: r) n = true ↔ k = n ∨ k < n ∧ memb r n = true := by
  rw [memb]
  split_ifs with heq hlt
  · simp [heq]
  · simp [heq, hlt.not_gt]
  · simp [heq, show k < n by omega]

theorem memb_addMem_self (l : List Nat) (n : Nat) : memb (addMem l n) n = true := by
  induction l with
  | nil => exact memb_cons.mpr (.inl rfl)
  | cons k r ih =>
    unfold addMem
    split_ifs with heq hlt
    · exact memb_cons.mpr (.inl heq)
    · exact memb_cons.mpr (.inl rfl)
    · exact memb_cons.mpr (.inr ⟨by omega, ih⟩)

theorem memb_addMem_of_memb {l : List Nat} {m : Nat} (n : Nat) (h : memb l m = true) : memb (addMem l n) m = true := by
  induction l with
  | nil => cases h
  | cons k r ih =>
    have hm := memb_cons.mp h
    unfold addMem
    split_ifs with heq hlt
    · exact h
    · exact memb_cons.mpr (.inr ⟨by omega, h⟩)
    · exact memb_cons.mpr (hm.imp_right fun hr => ⟨hr.1, ih hr.2⟩)

/-! ### A granule that ends -/

@[simp] theorem endGran_mem (s : State) (page i v : Nat) : (endGran s page i v).mem = Memory.write s.mem (page + 16 * i) 16 v := by
  simp only [endGran, setFull]

theorem isFull_endGran (s : State) (page i v : Nat) : isFull (endGran s page i v) (page + 16 * i) = true := memb_addMem_self _ _

/-! ### Slots of a die -/

theorem granAt_idx (x : RedSlot) (i : Nat) : (granAt x i).idx = i := by
  unfold granAt
  cases h : x.grans.find? fun g => g.idx == i with
  | none => rfl
  | some g => simpa using List.find?_some h

theorem granAt_setGran {x : RedSlot} {g : RedGran} {i : Nat} (h : g.idx = i) : granAt (setGran x g) i = g := by
  simp [granAt, setGran, h]

/-- A slot that is kept stands among its die's in the place of the slot of its page. -/
theorem keepSlot_of_open (s : State) (d : Nat) {x y : RedSlot} (hopen : y.opens ≠ 0) (hx : x ∈ (dieAt s d).slots)
    (hpage : x.page = y.page) :
    (keepSlot s d y).mem = s.mem ∧ (keepSlot s d y).full = s.full ∧ (keepSlot s d y).flight = s.flight ∧
      y ∈ (dieAt (keepSlot s d y) d).slots := by
  unfold keepSlot
  rw [if_neg hopen]
  refine ⟨rfl, rfl, rfl, ?_⟩
  rw [dieAt_setDie_same]
  exact List.mem_map.mpr ⟨x, hx, if_pos hpage⟩

/-! ### Contributions -/

theorem wakesOnly_wakeXinv (s : State) : WakesOnly s (wakeXinv s) := by
  have hfold (l : List (Nat × Core)) (t : State) :
      WakesOnly t (l.foldl (fun u e => if isSupCore e.1 then wakeAll u e.1 .unit else u) t) := by
    induction l generalizing t with
    | nil => exact .refl t
    | cons e l ih =>
      refine WakesOnly.trans ?_ (ih _)
      dsimp only
      split
      exacts [wakesOnly_wakeAll .., .refl t]
  exact hfold s.cores s

/-- A write noted at its home's die changes that die's merged vector. -/
theorem mergeWrite_only (s : State) (src home : Nat) (stamp vec : Vec16) :
    mergeWrite s src home stamp vec = { s with dies := (mergeWrite s src home stamp vec).dies } := by
  unfold mergeWrite
  split <;> rfl

theorem slots_mergeWrite (s : State) (src home : Nat) (stamp vec : Vec16) (d : Nat) :
    (dieAt (mergeWrite s src home stamp vec) d).slots = (dieAt s d).slots := by
  unfold mergeWrite
  split
  · rfl
  · by_cases hd : d = dieOf home
    · subst hd; rw [dieAt_setDie_same]
    · rw [dieAt_setDie_other _ _ hd]

/-- What a contribution that is not its store's last does beside its granule: it leaves its packet, its die notes the work and the
write, and waiting supervisor cores look again. `v` is the state in which it is added. -/
theorem contribution_leaves {s : State} {k : Nat} {p : Packet} {r : RedPart} (htake : takeAt s k = .yes p) (hbody : p.body = .red r)
    (hlive : stale s p = false) (hlast : r.last = false) :
    ∃ v u, (v.mem = s.mem ∧ v.full = s.full ∧ v.flight = s.flight.eraseIdx k ∧ dieAt v r.die = dieAt s r.die) ∧
      exec (.contribution k) s = .next u ∧ u.mem = (addContribution v r).mem ∧ u.full = (addContribution v r).full ∧
      u.flight = (addContribution v r).flight ∧ (dieAt u r.die).slots = (dieAt (addContribution v r) r.die).slots := by
  generalize hv : noteWork (removeAt s k) (1024 * r.die) r.acc.job = v
  have hwork := (wakesOnly_noteWork (removeAt s k) (1024 * r.die) r.acc.job).rest
  rw [hv] at hwork
  generalize ht : mergeWrite (addContribution v r) r.acc.core r.acc.home p.stamp r.acc.vec = t
  have hmerge := mergeWrite_only (addContribution v r) r.acc.core r.acc.home p.stamp r.acc.vec
  have hslots := slots_mergeWrite (addContribution v r) r.acc.core r.acc.home p.stamp r.acc.vec r.die
  rw [ht] at hmerge hslots
  have hwake := (wakesOnly_wakeXinv t).rest
  refine ⟨v, wakeXinv t, ?_, ?_, ?_, ?_, ?_, ?_⟩
  · rw [hwork]; exact ⟨rfl, rfl, rfl, rfl⟩
  · have hcontr : contribute s k = wakeXinv t := by
      unfold contribute
      rw [htake]
      simp [hbody, hlive, ackContribution, hlast, hv, ht]
    exact next_congr hcontr
  · rw [hwake, hmerge]
  · rw [hwake, hmerge]
  · rw [hwake, hmerge]
  · rw [hwake]; exact hslots

theorem addContribution_none {s : State} {r : RedPart}
    (h : (dieAt s r.die).slots.find? (fun y => y.page == r.page && y.round == r.round) = none) :
    addContribution s r = raiseLate s r.attr := by
  unfold addContribution
  rw [h]

section
variable {s : State} {r : RedPart} {x : RedSlot}
  (hfound : (dieAt s r.die).slots.find? (fun y => y.page == r.page && y.round == r.round) = some x)
include hfound

theorem addContribution_ended (hended : (granAt x r.idx).ended = true) : addContribution s r = raiseLate s r.attr := by
  unfold addContribution
  rw [hfound]
  exact if_pos hended

/-- A contribution's granule with its count raised and its elements added. -/
def granWith (x : RedSlot) (r : RedPart) : RedGran :=
  { granAt x r.idx with
    count := (granAt x r.idx).count + 1
    sums := ((granAt x r.idx).sums.zip (granElems x.bf16 r.val.toNat)).map fun e => exAdd e.1 e.2 }

theorem addContribution_adds (hopen : (granAt x r.idx).ended = false) (hmore : (granAt x r.idx).count + 1 < x.rcnt) :
    addContribution s r = keepSlot s r.die (setGran x (granWith x r)) := by
  unfold addContribution
  rw [hfound]
  exact (if_neg (by simp [hopen])).trans (if_pos hmore)

theorem addContribution_completes (hopen : (granAt x r.idx).ended = false) (hlast : x.rcnt ≤ (granAt x r.idx).count + 1) :
    addContribution s r = keepSlot (endGran s r.page r.idx (granResult x.bf16 (granWith x r).sums)) r.die
      { setGran x { granWith x r with ended := true, sums := [] } with opens := x.opens - 1 } := by
  unfold addContribution
  rw [hfound]
  exact (if_neg (by simp [hopen])).trans (if_neg (Nat.not_lt.mpr hlast))

end

/-! ### What a contribution leaves -/

theorem stored_write {s t : State} {key n v : Nat} (hwf : Memory.wf s.mem = true) (h : t.mem = Memory.write s.mem key n v) :
    Stored s t key n v :=
  ⟨by rw [h, Memory.read_write_same _ _ _ hwf], fun _ ha => by rw [h, Memory.get_write_outside _ hwf ha]⟩

section
variable {s : State} {k : Nat} {p : Packet} {r : RedPart} {x : RedSlot} (htake : takeAt s k = .yes p) (hbody : p.body = .red r)
  (hlive : stale s p = false) (hlast : r.last = false)
include htake hbody hlive hlast

/-- A contribution that is discarded raises LATE. -/
theorem contribution_late (hwf : Memory.wf s.mem = true)
    (hdiscard : ∀ v, dieAt v r.die = dieAt s r.die → addContribution v r = raiseLate v r.attr) :
    ∃ u, exec (.contribution k) s = .next u ∧ u.full = s.full ∧ u.flight = s.flight.eraseIdx k ∧
      Stored s u (r.attr + 30) 2 (Nat.min 65535 (Memory.read s.mem (r.attr + 30) 2 + 1)) := by
  obtain ⟨v, u, ⟨hmem, hfull, hflight, hdie⟩, hexec, hmemu, hfullu, hflightu, -⟩ := contribution_leaves htake hbody hlive hlast
  rw [hdiscard v hdie] at hmemu hfullu hflightu
  refine ⟨u, hexec, hfullu.trans hfull, hflightu.trans hflight, stored_write hwf ?_⟩
  rw [hmemu, ← hmem]
  rfl

variable (hfound : (dieAt s r.die).slots.find? (fun y => y.page == r.page && y.round == r.round) = some x)
  (hopen : (granAt x r.idx).ended = false)
include hfound hopen

/-- A contribution that does not complete its granule is counted and added in its slot. -/
theorem contribution_adds (hmore : (granAt x r.idx).count + 1 < x.rcnt) (hopens : x.opens ≠ 0) :
    ∃ u, exec (.contribution k) s = .next u ∧ u.mem = s.mem ∧ u.full = s.full ∧ u.flight = s.flight.eraseIdx k ∧
      ∃ y ∈ (dieAt u r.die).slots, y.page = x.page ∧ granAt y r.idx = granWith x r := by
  obtain ⟨v, u, ⟨hmem, hfull, hflight, hdie⟩, hexec, hmemu, hfullu, hflightu, hslots⟩ := contribution_leaves htake hbody hlive hlast
  rw [← hdie] at hfound
  rw [addContribution_adds hfound hopen hmore] at hmemu hfullu hflightu hslots
  obtain ⟨kmem, kfull, kflight, kslot⟩ := keepSlot_of_open v r.die (y := setGran x (granWith x r)) hopens
    (List.mem_of_find?_eq_some hfound) rfl
  rw [← hslots] at kslot
  exact ⟨u, hexec, (hmemu.trans kmem).trans hmem, (hfullu.trans kfull).trans hfull, (hflightu.trans kflight).trans hflight,
    _, kslot, rfl, granAt_setGran (granAt_idx x r.idx)⟩

/-- A contribution that completes its granule writes its rounded sums. -/
theorem contribution_completes (hwf : Memory.wf s.mem = true) (hall : x.rcnt ≤ (granAt x r.idx).count + 1) (hopens : 2 ≤ x.opens) :
    ∃ u, exec (.contribution k) s = .next u ∧
      Stored s u (r.page + 16 * r.idx) 16 (granResult x.bf16 (granWith x r).sums) ∧ isFull u (r.page + 16 * r.idx) = true ∧
      ∃ y ∈ (dieAt u r.die).slots, y.page = x.page ∧ y.opens = x.opens - 1 ∧ (granAt y r.idx).ended = true := by
  obtain ⟨v, u, ⟨hmem, -, -, hdie⟩, hexec, hmemu, hfullu, -, hslots⟩ := contribution_leaves htake hbody hlive hlast
  rw [← hdie] at hfound
  rw [addContribution_completes hfound hopen hall] at hmemu hfullu hslots
  obtain ⟨kmem, kfull, -, kslot⟩ := keepSlot_of_open (endGran v r.page r.idx (granResult x.bf16 (granWith x r).sums)) r.die
    (y := { setGran x { granWith x r with ended := true, sums := [] } with opens := x.opens - 1 }) (by dsimp only; omega)
    (List.mem_of_find?_eq_some hfound) rfl
  rw [← hslots] at kslot
  have hfull : isFull u (r.page + 16 * r.idx) = true := by
    rw [isFull, hfullu.trans kfull]
    exact isFull_endGran ..
  refine ⟨u, hexec, stored_write hwf ?_, hfull, _, kslot, rfl, rfl, ?_⟩
  · rw [hmemu, kmem, endGran_mem, hmem]
  · have hg : granAt (setGran x { granWith x r with ended := true, sums := [] }) r.idx =
        { granWith x r with ended := true, sums := [] } := granAt_setGran (granAt_idx x r.idx)
    exact congrArg RedGran.ended hg

end

/-! ### The deadline -/

/-- A granule that is aborted (R73). -/
def abortOne (x : RedSlot) (s : State) (i : Nat) : State :=
  { endGran s x.page i (abortGran x.bf16) with aborted := setRun s.aborted (x.page / 16 + i) true 1 }

section
variable (x : RedSlot) (s : State) (i : Nat)

theorem abortOne_mem : (abortOne x s i).mem = Memory.write s.mem (x.page + 16 * i) 16 (abortGran x.bf16) := by
  rw [abortOne, endGran_mem]
theorem abortOne_full : (abortOne x s i).full = addMem s.full ((x.page + 16 * i) / 16) := rfl
theorem abortOne_aborted : (abortOne x s i).aborted = addMem s.aborted (x.page / 16 + i) := rfl
theorem abortOne_rest : abortOne x s i = { s with
    mem := (abortOne x s i).mem
    full := (abortOne x s i).full
    aborted := (abortOne x s i).aborted } := by
  simp only [abortOne, endGran, setFull]

end

/-- `t` is `s` with granules of a slot's page aborted. -/
structure Aborts (x : RedSlot) (is : List Nat) (s t : State) : Prop where
  rest : t = { s with mem := t.mem, full := t.full, aborted := t.aborted }
  wf : Memory.wf t.mem = true
  frame : ∀ a, (∀ i ∈ is, a < x.page + 16 * i ∨ x.page + 16 * i + 16 ≤ a) → Memory.get t.mem a = Memory.get s.mem a
  pattern : ∀ i ∈ is, Memory.read t.mem (x.page + 16 * i) 16 = abortGran x.bf16
  full : ∀ i ∈ is, isFull t (x.page + 16 * i) = true
  aborted : ∀ i ∈ is, memb t.aborted (x.page / 16 + i) = true
  keepsFull : ∀ key, isFull s key = true → isFull t key = true
  keepsAborted : ∀ g, memb s.aborted g = true → memb t.aborted g = true

theorem abortGran_lt (bf16 : Bool) : abortGran bf16 < 256 ^ 16 := by cases bf16 <;> decide

theorem Aborts.nil (x : RedSlot) {s : State} (hwf : Memory.wf s.mem = true) : Aborts x [] s s where
  rest := rfl
  wf := hwf
  frame _ _ := rfl
  pattern := nofun
  full := nofun
  aborted := nofun
  keepsFull _ h := h
  keepsAborted _ h := h

theorem Aborts.cons {x : RedSlot} {i : Nat} {is : List Nat} {s t : State} (hwf : Memory.wf s.mem = true)
    (h : Aborts x is (abortOne x s i) t) : Aborts x (i :: is) s t := by
  have hstored : Stored s (abortOne x s i) (x.page + 16 * i) 16 (abortGran x.bf16) := stored_write hwf (abortOne_mem ..)
  have hfull : isFull (abortOne x s i) (x.page + 16 * i) = true := by
    rw [isFull, abortOne_full]; exact memb_addMem_self _ _
  have haborted : memb (abortOne x s i).aborted (x.page / 16 + i) = true := by
    rw [abortOne_aborted]; exact memb_addMem_self _ _
  have hpattern : i ∉ is → Memory.read t.mem (x.page + 16 * i) 16 = abortGran x.bf16 := fun hnew => by
    rw [Memory.read_congr fun a hlo hhi => h.frame a fun k hk => ?_, hstored.1, Nat.mod_eq_of_lt (abortGran_lt _)]
    have hne : k ≠ i := fun e => hnew (e ▸ hk)
    omega
  constructor
  case rest => rw [h.rest, abortOne_rest]
  case wf => exact h.wf
  case frame =>
    intro a ha
    obtain ⟨hi, his⟩ := List.forall_mem_cons.mp ha
    rw [h.frame a his, hstored.2 a hi]
  case pattern =>
    intro j hj
    by_cases hmem : j ∈ is
    · exact h.pattern j hmem
    · obtain rfl : j = i := (List.mem_cons.mp hj).resolve_right hmem
      exact hpattern hmem
  case full => exact List.forall_mem_cons.mpr ⟨h.keepsFull _ hfull, h.full⟩
  case aborted => exact List.forall_mem_cons.mpr ⟨h.keepsAborted _ haborted, h.aborted⟩
  case keepsFull =>
    intro key hk
    refine h.keepsFull key ?_
    rw [isFull, abortOne_full]; exact memb_addMem_of_memb _ hk
  case keepsAborted =>
    intro g hg
    refine h.keepsAborted g ?_
    rw [abortOne_aborted]; exact memb_addMem_of_memb _ hg

theorem aborts_foldl (x : RedSlot) (is : List Nat) {s : State} (hwf : Memory.wf s.mem = true) :
    Aborts x is s (is.foldl (abortOne x) s) := by
  induction is generalizing s with
  | nil => exact .nil x hwf
  | cons i is ih =>
    have hwf' : Memory.wf (abortOne x s i).mem = true := by rw [abortOne_mem]; exact Memory.wf_write _ _ _ hwf
    rw [List.foldl_cons]
    exact Aborts.cons hwf (ih (s := abortOne x s i) hwf')

/-- A slot that is kept or freed changes nothing but its die and, when it is freed, ARMED. -/
theorem keepSlot_leaves (s : State) (d : Nat) (x : RedSlot) :
    (keepSlot s d x).full = s.full ∧ (keepSlot s d x).aborted = s.aborted ∧ (keepSlot s d x).flight = s.flight ∧
      (keepSlot s d x).cores = s.cores ∧ ((keepSlot s d x).mem = s.mem ∨
        (keepSlot s d x).mem = Memory.write s.mem (x.attr + 24) 1 (Memory.read s.mem (x.attr + 24) 1 / 2 * 2)) := by
  unfold keepSlot
  split
  exacts [⟨rfl, rfl, rfl, rfl, .inr rfl⟩, ⟨rfl, rfl, rfl, rfl, .inl rfl⟩]

theorem attr_foldl_setGran (x : RedSlot) (is : List Nat) :
    (is.foldl (fun x i => setGran x { granAt x i with ended := true, sums := [] }) x).attr = x.attr := by
  induction is generalizing x with
  | nil => rfl
  | cons i is ih => exact ih _

/-- ABT is raised in the record of a page (R73). -/
def raiseAbt (s : State) (attr : Nat) : State :=
  let b := Memory.read s.mem (attr + 24) 1
  { s with mem := Memory.write s.mem (attr + 24) 1 (b / 4 * 4 + 2 + b % 2) }

theorem abortGrans_eq (s : State) (d : Nat) (x : RedSlot) (is : List Nat) :
    ∃ y, y.attr = x.attr ∧ abortGrans s d x is = keepSlot (raiseAbt (is.foldl (abortOne x) s) x.attr) d y :=
  ⟨{ is.foldl (fun x i => setGran x { granAt x i with ended := true, sums := [] }) x with
      opens := (is.foldl (fun x i => setGran x { granAt x i with ended := true, sums := [] }) x).opens - is.length },
    attr_foldl_setGran x is, rfl⟩

/-- `t` is `s` in memory, but for byte 24 of the record of a page, in which ABT is set. -/
def AbtRaised (attr : Nat) (s t : State) : Prop :=
  Memory.read t.mem (attr + 24) 1 / 2 % 2 = 1 ∧ ∀ a, a ≠ attr + 24 → Memory.get t.mem a = Memory.get s.mem a

theorem abtRaised_write {s t : State} {attr v : Nat} (hwf : Memory.wf s.mem = true) (hv : v < 256) (habt : v / 2 % 2 = 1)
    (ht : t.mem = Memory.write s.mem (attr + 24) 1 v) : AbtRaised attr s t := by
  obtain ⟨hread, hframe⟩ := stored_write hwf ht
  refine ⟨?_, fun a ha => hframe a (by omega)⟩
  rw [hread, pow_one, Nat.mod_eq_of_lt hv, habt]

theorem abtRaised_raiseAbt {s : State} (attr : Nat) (hwf : Memory.wf s.mem = true) : AbtRaised attr s (raiseAbt s attr) := by
  have hlt : Memory.read s.mem (attr + 24) 1 < 256 := Memory.read_lt ..
  exact abtRaised_write hwf (by omega) (by omega) rfl

/-- Freeing a slot clears ARMED, and leaves ABT. -/
theorem abtRaised_keepSlot {attr : Nat} {s t : State} {y : RedSlot} (h : AbtRaised attr s t) (hwf : Memory.wf t.mem = true)
    (hattr : y.attr = attr) (d : Nat) : AbtRaised attr s (keepSlot t d y) := by
  obtain ⟨habt, hframe⟩ := h
  subst hattr
  have hlt : Memory.read t.mem (y.attr + 24) 1 < 256 := Memory.read_lt ..
  obtain ⟨-, -, -, -, hmem | hmem⟩ := keepSlot_leaves t d y
  · rw [AbtRaised, hmem]; exact ⟨habt, hframe⟩
  · obtain ⟨habt', hframe'⟩ := abtRaised_write (t := keepSlot t d y) hwf (by omega) (by omega) hmem
    exact ⟨habt', fun a ha => (hframe' a ha).trans (hframe a ha)⟩

/-- All that a deadline does outside its die's slots: granules are aborted, and ABT is set. -/
theorem abortGrans_leaves (d : Nat) (x : RedSlot) (is : List Nat) {s : State} (hwf : Memory.wf s.mem = true) :
    ∃ t, Aborts x is s t ∧ AbtRaised x.attr t (abortGrans s d x is) ∧ (abortGrans s d x is).full = t.full ∧
      (abortGrans s d x is).aborted = t.aborted ∧ (abortGrans s d x is).flight = t.flight ∧
      (abortGrans s d x is).cores = t.cores := by
  have haborts := aborts_foldl x is hwf
  obtain ⟨y, hattr, heq⟩ := abortGrans_eq s d x is
  generalize is.foldl (abortOne x) s = t at haborts heq
  have hwf' : Memory.wf (raiseAbt t x.attr).mem = true := Memory.wf_write _ _ _ haborts.wf
  obtain ⟨hfull, haborted, hflight, hcores, -⟩ := keepSlot_leaves (raiseAbt t x.attr) d y
  rw [heq]
  exact ⟨t, haborts, abtRaised_keepSlot (abtRaised_raiseAbt x.attr haborts.wf) hwf' hattr d, hfull, haborted, hflight, hcores⟩

theorem mem_openGrans {x : RedSlot} {j : Nat} : j ∈ openGrans x ↔ j < 4096 ∧ (granAt x j).ended = false := by
  simp only [openGrans, List.mem_filter, List.mem_range, Bool.not_eq_true']

section
variable {s : State} {d i : Nat} {x : RedSlot} (hslot : (dieAt s d).slots[i]? = some x)
include hslot

/-- A slot without a deadline has none to reach. -/
theorem deadline_none (h : x.rdl = 0) : exec (.reductionDeadline d i) s = .next s := by
  have hstay : deadline s d i = s := by
    unfold deadline
    rw [hslot]
    exact if_pos h
  exact next_congr hstay

/-- At its deadline a slot's page has every granule that has not ended aborted, and the others as they were. -/
theorem deadline_aborts (h : x.rdl ≠ 0) (hwf : Memory.wf s.mem = true) (hpage : x.page % 65536 = 0)
    (hattr : x.attr + 32 ≤ x.page ∨ x.page + 65536 ≤ x.attr) :
    ∃ u, exec (.reductionDeadline d i) s = .next u ∧ u.flight = s.flight ∧ u.cores = s.cores ∧
      Memory.read u.mem (x.attr + 24) 1 / 2 % 2 = 1 ∧ ∀ j, j < 4096 →
        ((granAt x j).ended = false → Memory.read u.mem (x.page + 16 * j) 16 = abortGran x.bf16 ∧
          isFull u (x.page + 16 * j) = true ∧ memb u.aborted (x.page / 16 + j) = true) ∧
        ((granAt x j).ended = true → ∀ b, b < 16 →
          Memory.get u.mem (x.page + 16 * j + b) = Memory.get s.mem (x.page + 16 * j + b)) := by
  obtain ⟨t, haborts, ⟨habt, hframe⟩, hfull, haborted, hflight, hcores⟩ := abortGrans_leaves d x (openGrans x) hwf
  have hexec : deadline s d i = abortGrans s d x (openGrans x) := by
    unfold deadline
    rw [hslot]
    exact if_neg h
  have hrest := haborts.rest
  refine ⟨abortGrans s d x (openGrans x), next_congr hexec, by rw [hflight, hrest], by rw [hcores, hrest], habt,
    fun j hj => ⟨fun hopen => ⟨?_, ?_, ?_⟩, fun hended b hb => ?_⟩⟩
  · rw [Memory.read_congr fun a hlo hhi => hframe a (by omega)]
    exact haborts.pattern j (mem_openGrans.mpr ⟨hj, hopen⟩)
  · rw [isFull, hfull]
    exact haborts.full j (mem_openGrans.mpr ⟨hj, hopen⟩)
  · rw [haborted]
    exact haborts.aborted j (mem_openGrans.mpr ⟨hj, hopen⟩)
  · rw [hframe _ (by omega)]
    refine haborts.frame _ fun k hk => ?_
    have hne : k ≠ j := by
      rintro rfl
      exact absurd hended (Bool.eq_false_iff.mp (mem_openGrans.mp hk).2)
    omega

end

/-- Settles O42: a contribution comes to what its granule comes to, and a deadline to its granules aborted one after another. -/
theorem reductionsRound : Obligations.ReductionsRound := by
  unfold Obligations.ReductionsRound
  refine ⟨fun s k p r x => ?_, fun s d i x hslot => ⟨deadline_none hslot, deadline_aborts hslot⟩⟩
  intro i slots found g sums late htake hbody hlive hlast hwf
  refine ⟨fun hfound => ?_, fun hfound hended => ?_, fun hfound hopen hmore hopens => ?_, fun hfound hopen hall hopens hpage => ?_⟩
  · exact contribution_late htake hbody hlive hlast hwf fun v hdie => addContribution_none (hdie ▸ hfound)
  · exact contribution_late htake hbody hlive hlast hwf fun v hdie => addContribution_ended (hdie ▸ hfound) hended
  · exact contribution_adds htake hbody hlive hlast hfound hopen hmore hopens
  · exact contribution_completes htake hbody hlive hlast hfound hopen hwf hall hopens

end Sys2Proof.Machine

/-! ## What reset leaves (R62) -/

namespace Sys2Proof.Machine

/-- A byte that power-on reset keeps, by its address. -/
def keptAt (a : Nat) : Bool := keptCell (a, 0)

/-- Of a filtered memory the bytes at the addresses kept read as before, and every other as an unlisted one. -/
theorem Memory.get_filter {m : List Host.Cell} (q : Nat → Bool) (h : Memory.wf m = true) (a : Nat) :
    Memory.get (m.filter fun c => q c.1) a = if q a then Memory.get m a else unlisted a := by
  suffices hfrom : ∀ lo, Memory.wfFrom lo m = true →
      Memory.get (m.filter fun c => q c.1) a = if q a then Memory.get m a else unlisted a from hfrom 0 h
  clear h
  induction m with
  | nil => intro _ _; simp [Memory.get]
  | cons e r ih =>
    obtain ⟨k, b⟩ := e
    intro lo h
    simp only [Memory.wfFrom, Bool.and_eq_true] at h
    obtain ⟨-, hr⟩ := h
    have hrest := ih _ hr
    have hbelow : a < k → Memory.get r a = unlisted a := fun hlt => Memory.get_of_wfFrom hr (by omega)
    rw [List.filter_cons]
    by_cases hka : k = a
    · subst hka
      cases hq : q k <;> simp [hq, Memory.get] at hrest ⊢
      exact hrest
    · by_cases hlt : a < k
      · rw [hbelow hlt] at hrest
        cases hq : q k <;> simp [Memory.get, hka, hlt, hrest]
      · cases hq : q k <;> simp [Memory.get, hka, hlt, hrest]


/-! ### Bytes of windows that nothing has written -/

theorem sliceKey_parts {n off : Nat} (hn : n < 16777216) (hoff : off < 8388608) :
    sliceKey n off < 4611686018427387904 ∧ sliceKey n off / 8388608 = n ∧ sliceKey n off % 8388608 = off := by
  unfold sliceKey; omega

/-- Of the windows, reset keeps the black box of the service dies. -/
theorem keptAt_sliceKey {n off : Nat} (hn : n < 16777216) (hoff : off < 8388608) (h : n % 16384 ≠ 8256 ∨ off < 0x30000) :
    keptAt (sliceKey n off) = false := by
  obtain ⟨hlt, hcore, hmod⟩ := sliceKey_parts hn hoff
  simp only [keptAt, keptCell, hcore, hmod, Bool.or_eq_false_iff, Bool.and_eq_false_iff, decide_eq_false_iff_not, beq_eq_false_iff_ne]
  omega

theorem unlisted_sliceKey {n off : Nat} (hn : n < 16777216) (hoff : off < 8388608) (hloc : n % 16384 ≠ 8224 ∧ n % 16384 ≠ 8256) :
    unlisted (sliceKey n off) = if off = 0x410200 then 16 else 0 := by
  obtain ⟨hlt, hcore, hmod⟩ := sliceKey_parts hn hoff
  simp only [unlisted, hlt, hcore, hmod, hloc.1, hloc.2, if_true, if_false]

theorem unlisted_fabric {p off : Nat} (hp : p < 1024) (hoff : off < 8388608) (hlow : off < 0x410200) :
    unlisted (sliceKey (fabricCore p) off) =
      if off = 0x410100 then 0xA0 else if off = 0x410101 then 0x86 else if off = 0x410102 then 0x01 else 0 := by
  obtain ⟨hlt, hcore, hmod⟩ := sliceKey_parts (n := fabricCore p) (by unfold fabricCore; omega) hoff
  have hloc : fabricCore p % 16384 = 8224 := by unfold fabricCore; omega
  have hhigh : ¬(0x410200 ≤ off ∧ off < 0x410A00 ∧ off % 64 = 0) := by omega
  simp only [unlisted, hlt, hcore, hmod, hloc, hhigh, if_true, if_false]

theorem unlisted_service {p off : Nat} (hp : p < 1024) (hlow : off < 0x20000) : unlisted (sliceKey (serviceCore p) off) = 0 := by
  obtain ⟨hlt, hcore, hmod⟩ := sliceKey_parts (n := serviceCore p) (off := off) (by unfold serviceCore; omega) (by omega)
  have hloc : serviceCore p % 16384 = 8256 := by unfold serviceCore; omega
  have hlist : ¬(0x20000 ≤ off ∧ off < 0x20200) := by omega
  simp only [unlisted, hlt, hcore, hmod, hloc, hlist, if_true, if_false]
  exact if_neg (by decide)

theorem worker_loc {n : Nat} (hw : isWorker n = true) : n % 16384 ≠ 8224 ∧ n % 16384 ≠ 8256 := by
  have hdie : n / 1024 % 16 < 8 := of_decide_eq_true hw
  omega

/-- What a run of bytes reads as. -/
theorem Memory.read_of_bytes {m : List Host.Cell} {a : Nat} {bs : List Byte}
    (h : ∀ i, i < bs.length → Memory.get m (a + i) = bs.getD i 0) :
    Memory.read m a bs.length = ofBytes bs := by
  induction bs generalizing a with
  | nil => rfl
  | cons b bs ih =>
    have hfirst : Memory.get m a = b := h 0 (by simp)
    have hrest : Memory.read m (a + 1) bs.length = ofBytes bs := ih fun i hi => by
      rw [Nat.add_assoc, Nat.add_comm 1 i]; exact h (i + 1) (by simpa using hi)
    simp only [List.length_cons, Memory.read, ofBytes, hfirst, hrest]

/-! ### Reset -/

/-- The machine as reset leaves it: its parts at reset, nothing on its way, and memory cleared but for the Granary and the black box. -/
structure Cleared (u : State) : Prop where
  full : u.full = []
  flight : u.flight = []
  cores : u.cores = []
  pkgs : u.pkgs = []
  mem : ∀ a, keptAt a = false → Memory.get u.mem a = unlisted a

theorem cleared_reset : Cleared State.reset := ⟨rfl, rfl, rfl, rfl, fun _ _ => rfl⟩

theorem mem_powerOn (s : State) : (powerOn s).mem = s.mem.filter fun c => keptAt c.1 := rfl

theorem cleared_powerOn {s : State} (h : Memory.wf s.mem = true) : Cleared (powerOn s) where
  full := rfl
  flight := rfl
  cores := rfl
  pkgs := rfl
  mem a ha := by rw [mem_powerOn, Memory.get_filter _ h, ha]; rfl

namespace Cleared

variable {u : State} (h : Cleared u)
include h

theorem coreAt (n : Nat) : coreAt u n = Core.reset := by rw [Machine.coreAt, h.cores, look]
theorem ctxAt_st (n c : Nat) : (ctxAt u n c).st = .free := by rw [ctxAt, h.coreAt]; rfl
theorem pkgAt (p : Nat) : pkgAt u p = Pkg.reset := by rw [Machine.pkgAt, h.pkgs, look]

theorem get_worker {n off : Nat} (hn : n < 16777216) (hoff : off < 8388608) (hw : isWorker n = true) :
    Memory.get u.mem (sliceKey n off) = if off = 0x410200 then 16 else 0 := by
  rw [h.mem _ (keptAt_sliceKey hn hoff (.inl (worker_loc hw).2)), unlisted_sliceKey hn hoff (worker_loc hw)]

theorem get_service {p off : Nat} (hp : p < 1024) (hlow : off < 0x20000) : Memory.get u.mem (sliceKey (serviceCore p) off) = 0 := by
  rw [h.mem _ (keptAt_sliceKey (by unfold serviceCore; omega) (by omega) (.inr (by omega))), unlisted_service hp hlow]

theorem slices {n off : Nat} (hn : n < 16777216) (hw : isWorker n = true) (hoff : off < 0x400000) :
    Memory.get u.mem (sliceKey n off) = 0 := by
  rw [h.get_worker hn (by omega) hw, if_neg (by omega)]

theorem balint {n : Nat} (hn : n < 16777216) (hw : isWorker n = true) : Memory.read u.mem (sliceKey n 0x410200) 8 = 16 := by
  refine Memory.read_of_bytes (bs := [16, 0, 0, 0, 0, 0, 0, 0]) fun i hi => ?_
  have hi' : i < 8 := hi
  rw [sliceKey, Nat.add_assoc, ← sliceKey, h.get_worker hn (by omega) hw]
  interval_cases i <;> rfl

theorem errmax {p : Nat} (hp : p < 1024) : fabWord u p 0x410100 = 100000 := by
  refine Memory.read_of_bytes (bs := [0xA0, 0x86, 0x01, 0, 0, 0, 0, 0]) fun i hi => ?_
  have hi' : i < 8 := hi
  have hkept : keptAt (sliceKey (fabricCore p) (0x410100 + i)) = false :=
    keptAt_sliceKey (by unfold fabricCore; omega) (by omega) (.inl (by unfold fabricCore; omega))
  rw [sliceKey, Nat.add_assoc, ← sliceKey, h.mem _ hkept, unlisted_fabric hp (by omega) (by omega)]
  interval_cases i <;> rfl

theorem partition {p k : Nat} (hp : p < 1024) (hk : k < 24) :
    partEn u p k = false ∧ stopState u p k = 0 ∧ partSup u p k = 0 ∧ partInc u p k = 0 := by
  have hbyte {off : Nat} (hlow : off < 0x20000) : svcByte u p off = 0 := by rw [svcByte, h.get_service hp hlow]; rfl
  refine ⟨?_, ?_, ?_, ?_⟩
  · rw [partEn, hbyte (by omega)]; rfl
  · rw [stopState, hbyte (by omega)]
  · rw [partSup, hbyte (by omega)]
  · refine Memory.read_of_bytes (bs := [0, 0]) fun i hi => ?_
    have hi' : i < 2 := hi
    rw [sliceKey, Nat.add_assoc, ← sliceKey, h.get_service hp (by omega)]
    interval_cases i <;> rfl

end Cleared

/-- Settles O60: reset and power-on reset both leave a cleared machine, and power-on reset keeps what lies in the Granary. -/
theorem resetLeaves : Obligations.ResetLeaves := by
  unfold Obligations.ResetLeaves
  intro clean
  have hclean {u : State} (h : Cleared u) : clean u :=
    ⟨h.full, h.flight, h.ctxAt_st, fun n => by rw [h.coreAt]; rfl, fun p => by rw [h.pkgAt]; rfl,
      fun n off hn hw hoff => h.slices hn hw hoff, fun n hn hw => h.balint hn hw, fun p hp => h.errmax hp,
      fun p k hp hk => h.partition hp hk⟩
  refine ⟨rfl, hclean cleared_reset, fun s hwf => ⟨powerOn s, rfl, ?_, hclean (cleared_powerOn hwf), fun a hlo hhi => ?_⟩⟩
  · exact Canonical.powerOn hwf
  · have hkept : keptAt a = true := by
      simp only [keptAt, keptCell, Bool.or_eq_true, Bool.and_eq_true, decide_eq_true_eq]
      exact .inl ⟨hlo, hhi⟩
    rw [mem_powerOn, Memory.get_filter _ hwf, hkept, if_pos rfl]

end Sys2Proof.Machine

/-! ## Moves and immediates (R98, R257, R260, R305, R306, R324, R329) -/

namespace Sys2Proof.Machine

/-- A scalar result of latency 1. -/
theorem writesX_alu {i : Instr} {s : State} {st : Stall} {len : Nat} {d : Reg} {v : Word} (h : exec i s = alu s st len d v) :
    WritesX i s st len 1 d v := writesX_of h

/-- Settles O4: NOP goes on, and every other instruction of the family is one scalar result of latency 1. -/
theorem movesAndImmediates : Obligations.MovesAndImmediates := by
  intro s st d a b c i n j h m
  exact ⟨doesNothing_of rfl, doesNothing_of rfl, writesX_alu rfl, writesX_alu rfl, writesX_alu rfl, writesX_alu rfl, writesX_alu rfl,
    writesX_alu rfl, writesX_alu rfl, writesX_alu rfl, writesX_alu rfl, writesX_alu rfl, writesX_alu rfl, writesX_alu rfl,
    writesX_alu rfl, writesX_alu rfl, writesX_alu rfl, writesX_alu rfl⟩

end Sys2Proof.Machine

/-! ## Special registers (R107, R331)

A read is one of three: refused for the mode, refused for the number, or a scalar result. A write comes to a change of the running
context or of its core where the value is good, and to RESFIELD where it is not; each register then needs one line, which says what
values it takes and what it changes. -/

namespace Sys2Proof.Machine

/-! ### The modes (R331) -/

theorem srPriv_user (s : State) {n : Nat} (h : n < 0x100 ∨ 0x200 ≤ n) : srPriv s n = false := by
  rcases h with h | h
  · simp [srPriv, Nat.not_le.mpr h]
  · simp [srPriv, Nat.not_lt.mpr h]

theorem srPriv_sup {s : State} (h : (me s).sup = true) (n : Nat) : srPriv s n = false := by simp [srPriv, h]

theorem srPriv_refuses {s : State} {n : Nat} (hlo : 0x100 ≤ n) (hhi : n < 0x200) (h : (me s).sup = false) : srPriv s n = true := by
  simp [srPriv, hlo, hhi, h]

/-! ### Reads -/

section
variable {s : State} {st : Stall} {d : Reg} {n : BitVec 12}

theorem srd_reads {v : Word} (hmode : srPriv s n.toNat = false) (hv : srValue s n.toNat = some v)
    (hlanes : lanesComing s n.toNat = false) : WritesX (.srd st d n) s st 4 1 d v :=
  writesX_of (show execSrd st d n s = _ by simp [execSrd, hmode, hv, hlanes])

theorem srd_none (hmode : srPriv s n.toNat = false) (hv : srValue s n.toNat = none) : TakesSup (.srd st d n) s fRESFIELD 0 :=
  show execSrd st d n s = supFault s fRESFIELD 0 by simp [execSrd, hmode, hv]

theorem srd_priv (hmode : srPriv s n.toNat = true) : TakesSup (.srd st d n) s fPRIV 0 := if_pos hmode

/-- A number below 0x100 is read in either mode. -/
theorem srd_user {v : Word} (hn : n.toNat < 0x100) (hv : srValue s n.toNat = some v) (hlanes : lanesComing s n.toNat = false) :
    WritesX (.srd st d n) s st 4 1 d v := srd_reads (srPriv_user s (.inl hn)) hv hlanes

end

/-- The numbers of no register (R107). -/
theorem srValue_none (s : State) {n : Nat} (hlo : 0x019 ≤ n) (hhi : n < 0x100 ∨ 0x107 ≤ n) : srValue s n = none := by
  unfold srValue
  dsimp only
  split
  case h_33 => rfl
  all_goals omega

/-! ### %LANEF (R89) -/

theorem getLsbD_foldl_or {w : Nat} (l : List (BitVec w)) (z : BitVec w) (j : Nat) :
    (l.foldl (· ||| ·) z).getLsbD j = (z.getLsbD j || l.any fun x => x.getLsbD j) := by
  induction l generalizing z with
  | nil => simp
  | cons x l ih => rw [List.foldl_cons, ih, BitVec.getLsbD_or, List.any_cons, Bool.or_assoc]

/-- A flag of %LANEF is one that some lane's set has. -/
theorem getLsbD_laneOr (t : Ctx) (j : Nat) : (laneOr t).getLsbD j = decide (∃ i : Fin 32, (t.lanef.get i).getLsbD j = true) := by
  have hzero : (0 : Flags).getLsbD j = false := BitVec.getLsbD_zero
  rw [laneOr, getLsbD_foldl_or, hzero, Bool.false_or, Bool.eq_iff_iff, List.any_eq_true, decide_eq_true_iff]
  constructor
  · rintro ⟨x, hmem, hx⟩
    obtain ⟨i, hi, rfl⟩ := Vector.mem_iff_getElem.mp (Vector.mem_toList_iff.mp hmem)
    exact ⟨⟨i, hi⟩, hx⟩
  · rintro ⟨i, hi⟩
    exact ⟨_, Vector.mem_toList_iff.mpr (Vector.mem_iff_getElem.mpr ⟨i, i.isLt, rfl⟩), hi⟩

theorem getLsbD_setWidth_laneOr (t : Ctx) (j : Nat) :
    ((laneOr t).setWidth 64).getLsbD j = decide (∃ i : Fin 32, (t.lanef.get i).getLsbD j = true) := by
  rw [BitVec.getLsbD_setWidth, ← getLsbD_laneOr]
  by_cases hj : j < 64
  · simp [hj]
  · rw [BitVec.getLsbD_of_ge (laneOr t) j (by omega), Bool.and_false]

theorem lanesComing_other (s : State) {n : Nat} (h : n ≠ 0x018) : lanesComing s n = false := by simp [lanesComing, h]

theorem lanesComing_none {s : State} (h : ∀ u ∈ (me s).acks, u.vec = false) (n : Nat) : lanesComing s n = false := by
  have hany : ((me s).acks.any fun u => u.vec) = false := by simpa using h
  rw [lanesComing, hany, Bool.and_false]

/-! ### What a write changes -/

/-- `i` completes, leaves the running context as `u` but that it goes on, and changes nothing else. -/
def SetsCtx (i : Instr) (s : State) (st : Stall) (u : Ctx) : Prop :=
  ∃ r, exec i s = .next r ∧ MineOnly s r ∧ WentOn s r st 4 ∧
    me r = { u with
      pc := (me r).pc
      loops := (me r).loops
      stall := (me r).stall }

/-- `i` completes, leaves the running core's own state with `is`, and otherwise only goes on. -/
def SetsCore (i : Instr) (s : State) (st : Stall) (is : Core → Prop) : Prop :=
  ∃ r, exec i s = .next r ∧ r.mem = s.mem ∧ r.full = s.full ∧ r.flight = s.flight ∧ OthersSame s r ∧ WentOn s r st 4 ∧ is (myCore r) ∧
    me r = { me s with
      pc := (me r).pc
      loops := (me r).loops
      stall := (me r).stall }

theorem setsCtx_of {i : Instr} {s : State} {st : Stall} {u : Ctx} (h : exec i s = done st 4 (setMe s u))
    (hpc : u.pc = (me s).pc) (hloops : u.loops = (me s).loops) : SetsCtx i s st u := by
  rw [done, advance_setMe, hpc] at h
  refine ⟨_, h, mineOnly_setMe .., ?_, ?_⟩
  · simp only [WentOn, me_setMe, Ctx.goto_pc, Ctx.goto_loops, hloops, and_self]
  · rw [me_setMe]
    rfl

theorem ctxAt_setMyCore {s : State} {k : Core} (h : k.ctxs = (myCore s).ctxs) (n c : Nat) :
    ctxAt (setMyCore s k) n c = ctxAt s n c := ctxAt_setCore h n c

theorem setsCore_of {i : Instr} {s : State} {st : Stall} {k : Core} {is : Core → Prop} (h : exec i s = done st 4 (setMyCore s k))
    (hctxs : k.ctxs = (myCore s).ctxs) (hcycle : k.cycle = (myCore s).cycle) (his : ∀ cs, is { k with ctxs := cs }) :
    SetsCore i s st is := by
  have hme : me (setMyCore s k) = me s := ctxAt_setMyCore hctxs ..
  have hcore : myCore (setMyCore s k) = k := myCore_setMyCore ..
  rw [done, advance, jumpTo, hme, hcore, hcycle] at h
  refine ⟨_, h, rfl, rfl, rfl, others_setMe _ _ _ rfl fun n c _ => ctxAt_setMyCore hctxs n c, ?_, ?_, ?_⟩
  · rw [WentOn, me_setMe]
    exact ⟨rfl, rfl, rfl⟩
  · rw [myCore_setMe, hcore]
    exact his _
  · rw [me_setMe]
    rfl

/-! ### Writes -/

section
variable {s : State} {st : Stall} {a : Reg} {n : BitVec 12}

theorem swr_ok {t : State} (hmode : srPriv s n.toNat = false) (hw : srWrite s n.toNat (xr s a) = .ok t) :
    exec (.swr st a n) s = done st 4 t :=
  show execSwr st a n s = _ by simp [execSwr, hmode, hw]

theorem swr_bad {code : Nat} (hmode : srPriv s n.toNat = false) (hw : srWrite s n.toNat (xr s a) = .bad code) :
    TakesSup (.swr st a n) s code 0 :=
  show execSwr st a n s = supFault s code 0 by simp [execSwr, hmode, hw]

theorem swr_priv (hmode : srPriv s n.toNat = true) : TakesSup (.swr st a n) s fPRIV 0 := if_pos hmode

end

theorem writeIf_true {c : Bool} (s : State) (h : c = true) : writeIf c s = .ok s := if_pos h
theorem writeIf_false {c : Bool} (s : State) (h : ¬c = true) : writeIf c s = .bad fRESFIELD := if_neg h

/-- The numbers that a write refuses whatever the value: read-only registers and those of no register (R331). -/
abbrev srReadOnly (n : Nat) : Prop :=
  n < 6 ∨ (8 < n ∧ n < 0x0F) ∨ (0x0F < n ∧ n < 0x14) ∨ (0x17 < n ∧ n < 0x100) ∨ 0x104 < n

theorem srWrite_readOnly (s : State) {n : Nat} (w : Word) (h : srReadOnly n) : srWrite s n w = .bad fRESFIELD := by
  unfold srReadOnly at h
  unfold srWrite
  dsimp only
  split
  case h_14 => rfl
  all_goals omega

theorem srWrite_tapelim (s : State) (w : Word) : srWrite s (0x00F : BitVec 12).toNat w = writeTapeLimit s w.toNat := rfl

theorem writeTapeLimit_protect {s : State} (v : Nat) (hsup : (me s).sup = false) (hldr : (me s).ldr = false) :
    writeTapeLimit s v = .bad fPROTECT := by simp [writeTapeLimit, hsup, hldr]

/-- SWR to the register `n` takes the values with `P`, which leave the running context as `u`, and no others. -/
def SwrCtx (s : State) (st : Stall) (a : Reg) (n : BitVec 12) (P : Prop) (u : Ctx) : Prop :=
  (P → SetsCtx (.swr st a n) s st u) ∧ (¬P → TakesSup (.swr st a n) s fRESFIELD 0)

/-- SWR to the register `n` takes the values with `P`, which leave the running core's own state with `is`, and no others. -/
def SwrCore (s : State) (st : Stall) (a : Reg) (n : BitVec 12) (P : Prop) (is : Core → Prop) : Prop :=
  (P → SetsCore (.swr st a n) s st is) ∧ (¬P → TakesSup (.swr st a n) s fRESFIELD 0)

section
variable {s : State} {st : Stall} {a : Reg} {n : BitVec 12} {c : Bool} {P : Prop}

theorem swrCtx_of {u : Ctx} (hmode : srPriv s n.toNat = false) (hw : srWrite s n.toNat (xr s a) = writeIf c (setMe s u))
    (hP : c = true ↔ P) (hpc : u.pc = (me s).pc) (hloops : u.loops = (me s).loops) : SwrCtx s st a n P u :=
  ⟨fun h => setsCtx_of (swr_ok hmode (hw.trans (writeIf_true _ (hP.mpr h)))) hpc hloops,
    fun h => swr_bad hmode (hw.trans (writeIf_false _ (mt hP.mp h)))⟩

theorem swrCore_of {k : Core} {is : Core → Prop} (hmode : srPriv s n.toNat = false)
    (hw : srWrite s n.toNat (xr s a) = writeIf c (setMyCore s k)) (hP : c = true ↔ P)
    (hctxs : k.ctxs = (myCore s).ctxs) (hcycle : k.cycle = (myCore s).cycle) (his : ∀ cs, is { k with ctxs := cs }) :
    SwrCore s st a n P is :=
  ⟨fun h => setsCore_of (swr_ok hmode (hw.trans (writeIf_true _ (hP.mpr h)))) hctxs hcycle his,
    fun h => swr_bad hmode (hw.trans (writeIf_false _ (mt hP.mp h)))⟩

end

/-! ### The registers that either mode writes (R38, R84, R86, R91) -/

section
variable (s : State) (st : Stall) (a : Reg)

theorem swr_round : SwrCtx s st a 0x006 ((xr s a).toNat < 32 ∧ (xr s a).toNat % 8 ≤ 4)
    { me s with round := BitVec.ofNat 5 (xr s a).toNat } :=
  swrCtx_of (srPriv_user s (.inl (by decide))) rfl (by simp) rfl rfl

theorem swr_sflags : SwrCtx s st a 0x007 ((xr s a).toNat < 4) { me s with sflags := BitVec.ofNat 2 (xr s a).toNat } :=
  swrCtx_of (srPriv_user s (.inl (by decide))) rfl decide_eq_true_iff rfl rfl

theorem swr_check : SwrCtx s st a 0x008 ((xr s a).toNat < 2) { me s with check := (xr s a).toNat == 1 } :=
  swrCtx_of (srPriv_user s (.inl (by decide))) rfl decide_eq_true_iff rfl rfl

theorem swr_seed : SwrCtx s st a 0x014 ((xr s a).toNat < 65536)
    { me s with seed := if (xr s a).toNat = 0 then 1 else BitVec.ofNat 16 (xr s a).toNat } :=
  swrCtx_of (srPriv_user s (.inl (by decide))) rfl decide_eq_true_iff rfl rfl

theorem swr_prio : SwrCtx s st a 0x015 ((xr s a).toNat < 4) { me s with prio := (xr s a).toNat } :=
  swrCtx_of (srPriv_user s (.inl (by decide))) rfl decide_eq_true_iff rfl rfl

theorem swr_sqlim : SwrCore s st a 0x016 (1 ≤ (xr s a).toNat ∧ (xr s a).toNat ≤ 32)
    fun c => c.sqlim = (xr s a).toNat ∧ c.sqnote = (myCore s).sqnote ∧ c.sendq = (myCore s).sendq :=
  swrCore_of (srPriv_user s (.inl (by decide))) rfl (by simp) rfl rfl fun _ => ⟨rfl, rfl, rfl⟩

theorem swr_sqnote : SwrCore s st a 0x017 ((xr s a).toNat < 64)
    fun c => c.sqnote = (xr s a).toNat ∧ c.sqlim = (myCore s).sqlim :=
  swrCore_of (srPriv_user s (.inl (by decide))) rfl decide_eq_true_iff rfl rfl fun _ => ⟨rfl, rfl⟩

theorem swr_tapelim (hsup : (me s).sup = false) (hldr : (me s).ldr = false) : TakesSup (.swr st a 0x00F) s fPROTECT 0 :=
  swr_bad (srPriv_user s (.inl (by decide))) ((srWrite_tapelim s _).trans (writeTapeLimit_protect _ hsup hldr))

end

/-! ### The supervisor's registers (R19, R287, R337) -/

section
variable {s : State} (hsup : (me s).sup = true) (st : Stall) (a : Reg)
include hsup

theorem swr_epc : SwrCtx s st a 0x100 ((xr s a).toNat % 2 = 0) { me s with epc := xr s a } :=
  swrCtx_of (srPriv_sup hsup _) rfl beq_iff_eq rfl rfl

theorem swr_emode : SwrCtx s st a 0x101 ((xr s a).toNat < 2) { me s with emode := (xr s a).toNat == 1 } :=
  swrCtx_of (srPriv_sup hsup _) rfl decide_eq_true_iff rfl rfl

theorem swr_svec : SwrCore s st a 0x102 ((xr s a).toNat % 2 = 0) fun c => c.svec = xr s a :=
  swrCore_of (srPriv_sup hsup _) rfl beq_iff_eq rfl rfl fun _ => rfl

theorem swr_sptr : SwrCore s st a 0x103 (nbits (xr s a).toNat 1 11 = 0 ∧ nbits (xr s a).toNat 47 17 = 0)
    fun c => c.sptr = xr s a ∧ c.stlb = [] :=
  swrCore_of (srPriv_sup hsup _) rfl (by simp [and_comm]) rfl rfl fun _ => ⟨rfl, rfl⟩

theorem swr_spart : SwrCore s st a 0x104 ((xr s a).toNat ≤ 23) fun c => c.spart = (xr s a).toNat :=
  swrCore_of (srPriv_sup hsup _) rfl decide_eq_true_iff rfl rfl fun _ => rfl

theorem swr_readOnly_sup {n : BitVec 12} (hn : srReadOnly n.toNat) : TakesSup (.swr st a n) s fRESFIELD 0 :=
  swr_bad (srPriv_sup hsup _) (srWrite_readOnly s _ hn)

end

/-! ### The obligation -/

/-- Settles O39: a read is the register's value as a scalar result, and a write changes its register alone; the modes and the
layouts refuse the rest. -/
theorem specialRegisters : Obligations.SpecialRegisters := by
  unfold Obligations.SpecialRegisters
  refine ⟨fun s st d n => ?_, fun s st a n => ?_⟩
  · intro t k c reads
    have user {m : BitVec 12} {v : Word} (hv : srValue s m.toNat = some v) (hm : m.toNat < 0x018) : reads m v :=
      srd_user (by omega) hv (lanesComing_other s (by omega))
    have sup (hsup : t.sup = true) {m : BitVec 12} {v : Word} (hv : srValue s m.toNat = some v) (hm : 0x018 < m.toNat) : reads m v :=
      srd_reads (srPriv_sup hsup _) hv (lanesComing_other s (by omega))
    refine ⟨user rfl (by decide), user rfl (by decide), user rfl (by decide), user rfl (by decide), user rfl (by decide),
      user rfl (by decide), user rfl (by decide), user rfl (by decide), user rfl (by decide), user rfl (by decide),
      user rfl (by decide), user rfl (by decide), user rfl (by decide), user rfl (by decide), user rfl (by decide),
      user rfl (by decide), user rfl (by decide), user rfl (by decide), user rfl (by decide), user rfl (by decide),
      user rfl (by decide), user rfl (by decide), user rfl (by decide), user rfl (by decide), fun hvec => ?_, fun hsup => ?_,
      fun hlo hhi => ?_, fun hlo hhi hsup => ?_, fun hlo hhi hsup => ?_⟩
    · exact ⟨_, srd_user (by decide) rfl (lanesComing_none hvec _), getLsbD_setWidth_laneOr t⟩
    · exact ⟨sup hsup rfl (by decide), sup hsup rfl (by decide), sup hsup rfl (by decide), sup hsup rfl (by decide),
        sup hsup rfl (by decide), sup hsup rfl (by decide), sup hsup rfl (by decide)⟩
    · exact srd_none (srPriv_user s hhi) (srValue_none s hlo (by omega))
    · exact srd_priv (srPriv_refuses hlo hhi hsup)
    · exact srd_none (srPriv_sup hsup _) (srValue_none s (by omega) (.inr hlo))
  · intro t k w v i bad sets core
    have hv : v = (xr s a).toNat := rfl
    refine ⟨fun h h' => (swr_round s st a).1 ⟨h, h'⟩, fun h => (swr_round s st a).2 (by omega), (swr_sflags s st a).1,
      fun h => (swr_sflags s st a).2 (Nat.not_lt.mpr h), (swr_check s st a).1, fun h => (swr_check s st a).2 (Nat.not_lt.mpr h),
      (swr_seed s st a).1, fun h => (swr_seed s st a).2 (Nat.not_lt.mpr h), (swr_prio s st a).1,
      fun h => (swr_prio s st a).2 (Nat.not_lt.mpr h), fun h h' => (swr_sqlim s st a).1 ⟨h, h'⟩,
      fun h => (swr_sqlim s st a).2 (by omega), (swr_sqnote s st a).1, fun h => (swr_sqnote s st a).2 (Nat.not_lt.mpr h),
      swr_tapelim s st a, fun hsup => ?_, fun hlo hhi hsup => ?_, fun hn => ?_⟩
    · exact ⟨(swr_epc hsup st a).1, fun h => (swr_epc hsup st a).2 (by omega), (swr_emode hsup st a).1,
        fun h => (swr_emode hsup st a).2 (Nat.not_lt.mpr h), (swr_svec hsup st a).1, fun h => (swr_svec hsup st a).2 (by omega),
        fun h h' => (swr_sptr hsup st a).1 ⟨h, h'⟩, (swr_spart hsup st a).1, fun h => (swr_spart hsup st a).2 (Nat.not_le.mpr h),
        swr_readOnly_sup hsup st a (by decide), swr_readOnly_sup hsup st a (by decide)⟩
    · exact swr_priv (srPriv_refuses hlo hhi hsup)
    · exact swr_bad (srPriv_user s (by omega)) (srWrite_readOnly s _ (by unfold srReadOnly; omega))

end Sys2Proof.Machine

/-! ## The Gaussian unit's completions and tensor origins (R131, R149, R340) -/

namespace Sys2Proof.Machine

/-! ### Elements of a packed number -/

theorem elemOf_packElems {w : Nat} (hw : 0 < w) (es : List Nat) (k : Nat) : elemOf w k (packElems w es) = es.getD k 0 % 2 ^ w := by
  apply Nat.eq_of_testBit_eq
  intro j
  rw [testBit_elemOf, testBit_packElems w hw, Nat.testBit_mod_two_pow]
  by_cases hj : j < w
  · rw [Nat.mul_add_div hw, Nat.div_eq_of_lt hj, Nat.add_zero, Nat.mul_add_mod, Nat.mod_eq_of_lt hj]
  · simp [hj]

theorem packElems_lt (w : Nat) (es : List Nat) : packElems w es < 2 ^ (w * es.length) := by
  induction es with
  | nil => simp [packElems]
  | cons e r ih =>
    have hlow : e % 2 ^ w < 2 ^ w := Nat.mod_lt _ (Nat.two_pow_pos w)
    calc packElems w (e :: r) < 2 ^ w + 2 ^ w * packElems w r := Nat.add_lt_add_right hlow _
      _ = 2 ^ w * (packElems w r + 1) := by ring
      _ ≤ 2 ^ w * 2 ^ (w * r.length) := Nat.mul_le_mul_left _ ih
      _ = 2 ^ (w * (e :: r).length) := by rw [← Nat.pow_add, List.length_cons]; ring_nf

/-! ### TMADV (R340) -/

/-- Each of the four parts of an origin is added modulo 2^16. -/
theorem elemOf_addOrigin (o d : BitVec 64) {k : Nat} (hk : k < 4) :
    elemOf 16 k (addOrigin o d).toNat = (elemOf 16 k o.toNat + elemOf 16 k d.toNat) % 65536 := by
  have hlt : packElems 16 ((List.range 4).map fun k => elemOf 16 k o.toNat + elemOf 16 k d.toNat) < 2 ^ 64 := packElems_lt 16 _
  rw [addOrigin, BitVec.toNat_ofNat, Nat.mod_eq_of_lt hlt, elemOf_packElems (by decide), getD_map_range, if_pos hk]
  rfl

@[simp] theorem Ctx.rorg_wtm_same (t : Ctx) (a : TReg) (m : BitVec 256) (o : BitVec 64) : (t.wtm a m o).rorg a = o := by
  simp [Ctx.wtm, Ctx.rorg, Vector.get_eq_getElem]

theorem Ctx.rorg_wtm_other (t : Ctx) {a r : TReg} (m : BitVec 256) (o : BitVec 64) (h : r ≠ a) :
    (t.wtm a m o).rorg r = t.rorg r := by
  have hne : a.toNat ≠ r.toNat := fun he => h (BitVec.eq_of_toNat_eq he.symm)
  simp [Ctx.wtm, Ctx.rorg, Vector.get_eq_getElem, Vector.getElem_set_ne _ _ hne]

/-- A tensor register that takes its own record again changes at most its origin. -/
theorem Ctx.wtm_rtm_only (t : Ctx) (a : TReg) (o : BitVec 64) :
    t.wtm a (t.rtm a) o = { t with org := (t.wtm a (t.rtm a) o).org } := by
  have htm : (t.wtm a (t.rtm a) o).tm = t.tm := by simp [Ctx.wtm, Ctx.rtm, Vector.get_eq_getElem]
  rw [← htm]
  rfl

/-- TMADV changes the origin of its tensor register alone. -/
theorem tmadv_adds (s : State) (st : Stall) (a : TReg) (b : Reg) :
    ∃ t, exec (.tmadv st a b) s = .next t ∧ MineOnly s t ∧ WentOn s t st 4 ∧
      me t = { me s with
        org := (me t).org
        pc := (me t).pc
        loops := (me t).loops
        stall := (me t).stall } ∧
      (∀ k, k < 4 → elemOf 16 k ((me t).rorg a).toNat =
        (elemOf 16 k ((me s).rorg a).toNat + elemOf 16 k (xr s b).toNat) % 65536) ∧
      (∀ r, r ≠ a → (me t).rorg r = (me s).rorg r) ∧ ∀ r, (me t).rtm r = (me s).rtm r := by
  have hexec : exec (.tmadv st a b) s = .next _ := next_congr (advance_setMe ..)
  have honly := Ctx.wtm_rtm_only (me s) a (addOrigin ((me s).rorg a) (xr s b))
  have hsame := Ctx.rorg_wtm_same (me s) a ((me s).rtm a) (addOrigin ((me s).rorg a) (xr s b))
  have hother {r : TReg} := @Ctx.rorg_wtm_other (me s) a r ((me s).rtm a) (addOrigin ((me s).rorg a) (xr s b))
  generalize (me s).wtm a ((me s).rtm a) (addOrigin ((me s).rorg a) (xr s b)) = w at hexec honly hsame hother
  refine ⟨_, hexec, mineOnly_setMe .., ?_⟩
  rw [WentOn, me_setMe]
  refine ⟨by rw [honly]; exact ⟨rfl, rfl, rfl⟩, by rw [honly]; rfl, fun k hk => ?_, fun r hr => hother hr, fun r => by rw [honly]; rfl⟩
  calc elemOf 16 k (w.rorg a).toNat = elemOf 16 k (addOrigin ((me s).rorg a) (xr s b)).toNat := by rw [hsame]
    _ = _ := elemOf_addOrigin _ _ hk

/-! ### The unit's oldest operation (R131, R149) -/

/-- The wake that follows a result parks no context. -/
theorem Ctx.replyWake_not_parked {t : Ctx} {c : Cause} (h : ¬(t.st = .parked ∧ t.cause = c)) :
    ¬(t.replyWake.st = .parked ∧ t.replyWake.cause = c) := by
  unfold Ctx.replyWake
  split
  · rintro ⟨hst, -⟩
    cases hst
  · exact h

/-- A write of v[d] and the list of results to come do not meet. -/
theorem Ctx.putV_var (t : Ctx) (es : List VarRes) (d : VReg) (v m : VWord) :
    ({ t with var := es } : Ctx).put 0 0 (vCode d) v m = { t.put 0 0 (vCode d) v m with var := es } := by
  have hd := d.isLt
  have hx : ¬vCode d < 0x20 := by unfold vCode; omega
  have hv : vCode d < 0x30 := by unfold vCode; omega
  rw [← Ctx.putNow_eq, ← Ctx.putNow_eq]
  unfold Ctx.putNow Ctx.wcode
  rw [if_neg hx, if_pos hv, if_neg hx, if_pos hv]
  rfl

/-- A vector written whole into v[d] at once, whatever of the context but its registers differs. -/
theorem vSameBut_put {t u : Ctx} {d : VReg} {v : VWord} (hv : u.v = (t.put 0 0 (vCode d) v allBits).v)
    (hp : u.pend = (t.put 0 0 (vCode d) v allBits).pend) (hx : u.x = t.x) (hpr : u.p = t.p) :
    (∀ cy, u.vAt cy d = v) ∧ VSameBut d t u := by
  have hd := d.isLt
  have honly := Ctx.putV_only t 0 0 d v allBits
  refine ⟨fun cy => ?_, fun cy r hr => ?_, fun cy r => ?_, fun cy r => ?_⟩
  · rw [Ctx.vAt_congr hv hp, Ctx.vAt_put_same t 0 0 d v allBits cy (Nat.zero_le cy), Ctx.vAfter, if_neg allBits_ne]
    exact mergeBits_all ..
  · rw [Ctx.vAt_congr hv hp]
    exact Ctx.vAt_put_other t 0 0 (vCode d) _ _ cy r fun h => hr (BitVec.eq_of_toNat_eq (by unfold vCode at h; omega))
  · have hr := r.isLt
    rw [Ctx.xAt_congr (hx.trans (by rw [honly])) hp]
    exact Ctx.xAt_put_other t 0 0 (vCode d) _ _ cy r (by unfold vCode; omega)
  · rw [Ctx.pAt_congr (hpr.trans (by rw [honly])) hp]
    exact Ctx.pAt_put_other t 0 0 (vCode d) _ _ cy r (by unfold vCode; omega)

theorem gaussDone_idle {s : State} {n : Nat} (h : (coreAt s n).gaussq = []) : gaussDone s n = s := by simp [gaussDone, h]

/-- An operation with one result, behind which no predicate stands, writes it and leaves the unit. -/
theorem gaussDone_of {s : State} {n c code : Nat} {r : List Nat} {v mask : VWord} {es : List VarRes}
    (hq : (coreAt s n).gaussq = c :: r) (hvar : (ctxAt s n c).var = ⟨code, .value v, mask, true⟩ :: es)
    (hone : ∀ f ∈ es.head?, ¬(0x30 ≤ f.code ∧ f.code < 0x38)) :
    gaussDone s n = wakeAll (setCtx (setCore s n { coreAt s n with gaussq := r }) n c
      (({ ctxAt s n c with var := es } : Ctx).put 0 0 code v mask).replyWake) n .unit := by
  cases es with
  | nil => simp [gaussDone, hq, hvar, List.findIdx?_cons, Ctx.putNow_eq]
  | cons f fs =>
    have hf : ¬(0x30 ≤ f.code ∧ f.code < 0x38) := hone f rfl
    have hnone : ¬(f.unit = true ∧ 0x30 ≤ f.code ∧ f.code < 0x38 ∧ 0x20 ≤ code) := fun h => hf ⟨h.2.1, h.2.2.1⟩
    simp [gaussDone, hq, hvar, List.findIdx?_cons, Ctx.putNow_eq, hnone]

/-- The oldest operation's one result reaches v[d], and no other context changes. -/
theorem gaussComplete_writes {s : State} {n c : Nat} {r : List Nat} {es : List VarRes} {v : VWord} {d : VReg}
    (hq : (coreAt s n).gaussq = c :: r) (hvar : (ctxAt s n c).var = ⟨vCode d, .value v, allBits, true⟩ :: es)
    (hone : ∀ f ∈ es.head?, ¬(0x30 ≤ f.code ∧ f.code < 0x38))
    (hwaits : ∀ y, ¬((ctxAt s n y).st = .parked ∧ (ctxAt s n y).cause = .unit)) :
    ∃ t, exec (.gaussComplete n) s = .next t ∧ t.mem = s.mem ∧ t.full = s.full ∧ t.flight = s.flight ∧ (coreAt t n).gaussq = r ∧
      (∀ x y, ¬(x = n ∧ y = c) → ctxAt t x y = ctxAt s x y) ∧ (ctxAt t n c).var = es ∧
      (∀ cy, (ctxAt t n c).vAt cy d = v) ∧ VSameBut d (ctxAt s n c) (ctxAt t n c) := by
  have hdone := gaussDone_of hq hvar hone
  rw [Ctx.putV_var] at hdone
  have hput := Ctx.putV_only (ctxAt s n c) 0 0 d v allBits
  have hvec {u : Ctx} := @vSameBut_put (ctxAt s n c) u d v
  generalize (ctxAt s n c).put 0 0 (vCode d) v allBits = w at hdone hput hvec
  have hwake := Ctx.replyWake_only { w with var := es }
  have hmine : ¬(({ w with var := es } : Ctx).replyWake.st = .parked ∧ ({ w with var := es } : Ctx).replyWake.cause = .unit) :=
    Ctx.replyWake_not_parked (by rw [hput]; exact hwaits c)
  generalize ({ w with var := es } : Ctx).replyWake = u at hdone hwake hmine
  generalize hs1 : setCore s n { coreAt s n with gaussq := r } = s1 at hdone
  have hctx (x y : Nat) : ctxAt s1 x y = ctxAt s x y := by rw [← hs1]; exact ctxAt_setCore (by rfl) x y
  have hcore : (coreAt s1 n).gaussq = r := by rw [← hs1, coreAt_setCore_same]
  have hat : ctxAt (wakeAll (setCtx s1 n c u) n .unit) n c = u := by
    rw [ctxAt_wakeAll, if_pos rfl, ctxAt_setCtx_same, Ctx.woken, if_neg hmine]
  refine ⟨_, next_congr hdone, by rw [← hs1]; rfl, by rw [← hs1]; rfl, by rw [← hs1]; rfl, ?_, fun x y hxy => ?_, ?_⟩
  · simp [wakeAll, setCtx, hcore]
  · rw [ctxAt_wakeAll, ctxAt_setCtx_other _ _ hxy, hctx]
    split
    · next hx => subst hx; exact if_neg (hwaits y)
    · rfl
  · rw [hat, hwake]
    exact ⟨rfl, hvec rfl rfl (by rw [hput]) (by rw [hput])⟩

/-- Settles O28: the unit's completion writes the one result that stands first, and TMADV adds part by part. -/
theorem unitsAndOrigins : Obligations.UnitsAndOrigins := by
  unfold Obligations.UnitsAndOrigins
  refine ⟨fun s n c r e rest v d => ⟨fun hq => next_congr (gaussDone_idle hq), fun hq hvar he hone hwaits => ?_⟩, tmadv_adds⟩
  subst he
  exact gaussComplete_writes hq hvar hone hwaits

end Sys2Proof.Machine

/-! ## A phase that ends while a context blocked at its record waits in BWAIT (R46, R47)

The end of a phase first wakes the BWAITs that wait on it and then counts the arrivals that stall at its record in the next phase. A
stalled arrival is known by its context's block, and the wake from BWAIT leaves the block alone. So a context that waits in BWAIT while
its block still names the record stalls nowhere before the phase ends, yet counts in the next one. The statement rules such a block out
for the context whose BWAIT returns, but for no other. -/

namespace Sys2Proof.Machine

/-- The key of record 0 of the quad of core 0. -/
def blockedKey : Nat := sliceKey 0 0x411000

/-- Context 0 of core 1 waits in BWAIT for phase 0 of the record, and its block names the record. -/
def blockedWaiter : Ctx :=
  { Ctx.reset 1 0 with
    st := .parked
    cause := .bwait
    bwait := some ⟨blockedKey, 0, 3, 1, 0, none⟩
    block := .barr blockedKey 0 0 }

/-- The record, with a timeout of 1 µs, has cores 0 and 1 as its members; core 0 has arrived. -/
def blockedRecord : Barrier :=
  { Barrier.reset with
    word := 0x8000000100000000
    mask := [0, 1]
    arrived := [0]
    last := [(0, 0, none)] }

/-- The machine at reset but for the waiting context and the record. -/
def blockedWait : State := setBar (setCtx State.reset 1 0 blockedWaiter) blockedKey blockedRecord

/-- Before the phase ends no context stalls at the record. -/
theorem stalledBarrs_blockedWait : stalledBarrs blockedWait blockedKey = [] := by decide +kernel

/-- The timeout ends the phase, and core 1 counts as arrived in the next. -/
theorem recordTimeout_blockedWait : (barAt (recordTimeout blockedWait 0 0x411000) blockedKey).arrived = [1] := by decide +kernel

/-- Refutes O37: the phase that follows a timeout does not start without arrivals, though no context stalls at the record, since a
context that the end of the phase wakes from BWAIT, its block naming the record, counts as a stalled arrival. -/
theorem not_fencesAndBarriers : ¬ Obligations.FencesAndBarriers := by
  unfold Obligations.FencesAndBarriers
  rintro ⟨-, -, htimeout⟩
  obtain ⟨-, hends⟩ := htimeout blockedWait 0 0x411000 (by decide) (by decide) (by decide +kernel)
  obtain ⟨t, hexec, -, -, -, hnext, -⟩ := hends (by decide +kernel) (by decide +kernel)
  have hnone : (barAt t blockedKey).arrived = [] := (hnext stalledBarrs_blockedWait).2
  have ht : recordTimeout blockedWait 0 0x411000 = t := Host.Outcome.next.inj hexec
  rw [← ht, recordTimeout_blockedWait] at hnone
  cases hnone

end Sys2Proof.Machine

/-! ## Results of the Gaussian unit (R131, R149)

What the unit leaves at its registers is one write after the other of whole registers; a result that has to wait stands among the
results to come. -/

namespace Sys2Proof.Machine

/-! ### Whole registers, one after the other -/

/-- The context after the results `rs`, each of a whole register. -/
def Ctx.takes (t : Ctx) (rs : List (Nat × VWord)) : Ctx := rs.foldl (fun t r => t.putNow r.1 r.2 allBits) t

/-- `u` is `t` but for its x, v and p registers and the results still to come to them. -/
def RegsOnly (t u : Ctx) : Prop := ∃ x v p q, u = { t with x := x, v := v, p := p, pend := q }

theorem RegsOnly.trans {t u w : Ctx} (h : RegsOnly t u) (h' : RegsOnly u w) : RegsOnly t w := by
  obtain ⟨x, v, p, q, rfl⟩ := h
  obtain ⟨x, v, p, q, rfl⟩ := h'
  exact ⟨x, v, p, q, rfl⟩

/-- A write below the codes of tensor registers. -/
theorem regsOnly_putNow (t : Ctx) {k : Nat} (hk : k < 0x38) (v m : VWord) : RegsOnly t (t.putNow k v m) := by
  unfold Ctx.putNow Ctx.wcode
  split
  · unfold Ctx.wx
    dsimp only
    split
    · exact ⟨_, _, _, _, rfl⟩
    · exact ⟨_, _, _, _, rfl⟩
  · split
    · exact ⟨_, _, _, _, rfl⟩
    · unfold Ctx.wp
      dsimp only
      split
      · exact ⟨_, _, _, _, rfl⟩
      · exact ⟨_, _, _, _, rfl⟩

theorem regsOnly_takes (t : Ctx) {rs : List (Nat × VWord)} (h : ∀ r ∈ rs, r.1 < 0x38) : RegsOnly t (t.takes rs) := by
  induction rs generalizing t with
  | nil => exact ⟨_, _, _, _, rfl⟩
  | cons r rs ih =>
    obtain ⟨hr, hrs⟩ := List.forall_mem_cons.mp h
    exact (regsOnly_putNow t hr r.2 allBits).trans (ih _ hrs)

/-- An instruction whose meaning is the unit's results: they are written at once, or come later. -/
theorem unitWrites_of {i : Instr} {s : State} {st : Stall} {rs : List (Nat × VWord)} {regs : Ctx → Prop}
    (h : exec i s = gaussResult s st rs) (hrs : ∀ r ∈ rs, r.1 < 0x38)
    (hregs : ∀ u : Ctx, u.x = ((me s).takes rs).x → u.v = ((me s).takes rs).v → u.p = ((me s).takes rs).p →
      u.pend = ((me s).takes rs).pend → regs u) : UnitWrites i s st rs regs := by
  constructor
  · intro hlate hidle
    have hnow : exec i s = .next (setMe s { ((me s).takes rs).goto (((me s).takes rs).pc + BitVec.ofNat 64 4) with
        stall := (myCore s).cycle + st.toNat + 1 }) := by
      rw [h, gaussResult, if_neg (by simp [hlate, hidle])]
      exact next_congr (advance_setMe ..)
    have honly := regsOnly_takes (me s) hrs
    generalize (me s).takes rs = w at hnow honly hregs
    refine ⟨_, hnow, mineOnly_setMe .., ?_⟩
    rw [WentOn, me_setMe]
    obtain ⟨x, v, p, q, rfl⟩ := honly
    exact ⟨⟨rfl, rfl, rfl⟩, hregs _ rfl rfl rfl rfl, rfl⟩
  · intro hwait
    have hbusy : (s.cur.late || !(myCore s).gaussq.isEmpty) = true := by
      rcases hwait with hlate | hq
      · simp [hlate]
      · simp [hq]
    have hlater : exec i s = .next (setMe (setMyCore s { myCore s with gaussq := (myCore s).gaussq ++ [s.cur.ctx] })
        { ({ me s with var := (me s).var ++ rs.map fun r => ⟨r.1, .value r.2, allBits, true⟩ } : Ctx).goto
            ((me s).pc + BitVec.ofNat 64 4) with
          stall := (myCore (setMyCore s { myCore s with gaussq := (myCore s).gaussq ++ [s.cur.ctx] })).cycle + st.toNat + 1 }) := by
      rw [h, gaussResult, if_pos hbusy]
      exact next_congr (advance_setMe ..)
    refine ⟨_, hlater, fun _ => rfl, fun n c hne => ?_, ?_⟩
    · rw [setMe, ctxAt_setCtx_other _ _ (by exact hne)]
      exact ctxAt_setMyCore (by rfl) n c
    · rw [WentOn, me_setMe, myCore_setMe, setMyCore_cur, myCore_setMyCore]
      exact ⟨⟨rfl, rfl, rfl⟩, rfl, rfl⟩

/-! ### What the registers read then -/

/-- One block. -/
theorem blockTo_of {i : Instr} {s : State} {st : Stall} {d : VReg} {v : VWord} (h : exec i s = gaussResult s st [(vCode d, v)]) :
    BlockTo i s st d v := by
  have hd := d.isLt
  have htakes : (me s).takes [(vCode d, v)] = (me s).put 0 0 (vCode d) v allBits := Ctx.putNow_eq ..
  have honly := Ctx.putV_only (me s) 0 0 d v allBits
  refine unitWrites_of h (by simp [vCode]; omega) fun u hx hv hp hpend => ?_
  rw [htakes] at hx hv hp hpend
  exact vSameBut_put hv hpend (hx.trans (by rw [honly])) (hp.trans (by rw [honly]))

/-- One word. -/
theorem unitWrites_word {i : Instr} {s : State} {st : Stall} {d : Reg} {n : Nat}
    (h : exec i s = gaussResult s st [(xCode d, BitVec.ofNat 1024 n)]) :
    UnitWrites i s st [(xCode d, BitVec.ofNat 1024 n)] fun u =>
      (∀ c, u.xAt c d = if d = 0 then 0 else BitVec.ofNat 64 n) ∧ XSameBut d (me s) u := by
  have hd := d.isLt
  have htakes : (me s).takes [(xCode d, BitVec.ofNat 1024 n)] = _ := putNow_word ..
  have honly := Ctx.putX_only (me s) 0 0 d ((BitVec.ofNat 64 n).setWidth 1024) allBits
  refine unitWrites_of h (by simp [xCode]; omega) fun u hx hv hp hpend => ?_
  rw [htakes] at hx hv hp hpend
  exact xSameBut_put hx hpend (hv.trans (by rw [honly])) (hp.trans (by rw [honly]))

/-- A predicate takes the low bits of what is written. -/
theorem putNow_pred (t : Ctx) (p : PReg) (q : VWord) :
    t.putNow (pCode p) q allBits = t.put 0 0 (pCode p) ((q.setWidth 32).setWidth 1024) ((BitVec.allOnes 32).setWidth 1024) := by
  have hp := p.isLt
  have hx : ¬pCode p < 0x20 := by unfold pCode; omega
  have hv : ¬pCode p < 0x30 := by unfold pCode; omega
  have hpred : pCode p < 0x38 := by unfold pCode; omega
  have hstrip : stripPend t.pend (pCode p) ((BitVec.allOnes 32).setWidth 1024) = stripPend t.pend (pCode p) allBits := by
    rw [stripPend, if_neg (setWidth_ne (by decide)), stripPend, if_neg allBits_ne]
  have hvalue : ((q.setWidth 32).setWidth 1024 : VWord).setWidth 32 = q.setWidth 32 := by simp
  have hmask : ((BitVec.allOnes 32).setWidth 1024 : VWord).setWidth 32 = allBits.setWidth 32 := by
    rw [allBits_setWidth 32 (by decide)]
    simp
  rw [← Ctx.putNow_eq, Ctx.putNow, Ctx.putNow, hstrip]
  unfold Ctx.wcode
  rw [if_neg hx, if_neg hv, if_pos hpred, if_neg hx, if_neg hv, if_pos hpred, hvalue, hmask]

/-- A block and behind it a predicate. -/
theorem blockAndPred {t u : Ctx} {d : VReg} {p : PReg} {v q : VWord} (hx : u.x = (t.takes [(vCode d, v), (pCode p, q)]).x)
    (hv : u.v = (t.takes [(vCode d, v), (pCode p, q)]).v) (hp : u.p = (t.takes [(vCode d, v), (pCode p, q)]).p)
    (hpend : u.pend = (t.takes [(vCode d, v), (pCode p, q)]).pend) :
    (∀ c, u.vAt c d = v) ∧ (∀ c, u.pAt c p = if p = 0 then BitVec.allOnes 32 else q.setWidth 32) ∧
      (∀ c r, u.xAt c r = t.xAt c r) ∧ (∀ c r, r ≠ d → u.vAt c r = t.vAt c r) ∧ ∀ c r, r ≠ p → u.pAt c r = t.pAt c r := by
  have hd := d.isLt
  have hp' := p.isLt
  obtain ⟨hblock, hother, hxs, hps⟩ := vSameBut_put (t := t) (u := t.put 0 0 (vCode d) v allBits) (d := d) (v := v) rfl rfl
    (by rw [Ctx.putV_only]) (by rw [Ctx.putV_only])
  have htakes : t.takes [(vCode d, v), (pCode p, q)] = (t.put 0 0 (vCode d) v allBits).put 0 0 (pCode p) ((q.setWidth 32).setWidth 1024)
      ((BitVec.allOnes 32).setWidth 1024) := by
    rw [← putNow_pred, ← Ctx.putNow_eq]
    rfl
  rw [htakes] at hx hv hp hpend
  refine ⟨fun c => ?_, fun c => ?_, fun c r => ?_, fun c r hr => ?_, fun c r hr => ?_⟩
  · rw [Ctx.vAt_congr hv hpend, Ctx.vAt_put_other _ _ _ _ _ _ _ _ (by unfold pCode; omega), hblock]
  · rw [Ctx.pAt_congr hp hpend, Ctx.pAt_put_same _ 0 0 p _ _ c (Nat.zero_le c), Ctx.pAfter,
      if_neg (show BitVec.allOnes 32 ≠ 0 by decide), mergeBits_all]
  · have hr := r.isLt
    rw [Ctx.xAt_congr hx hpend, Ctx.xAt_put_other _ _ _ _ _ _ _ _ (by unfold pCode; omega), hxs]
  · have hr' := r.isLt
    rw [Ctx.vAt_congr hv hpend, Ctx.vAt_put_other _ _ _ _ _ _ _ _ (by unfold pCode; omega), hother c r hr]
  · have hne : pCode p ≠ 0x30 + r.toNat := fun h => hr (BitVec.eq_of_toNat_eq (by unfold pCode at h; omega))
    rw [Ctx.pAt_congr hp hpend, Ctx.pAt_put_other _ _ _ _ _ _ _ _ hne, hps]

end Sys2Proof.Machine

/-! ## Blocks of the Gaussian unit, lane by lane (R149) -/

namespace Sys2Proof.Machine

/-! ### Lanes of a list -/

theorem gLanes_length (lam : Nat → Nat → Nat) (eta : Nat → Nat) : (gLanes lam eta).length = 27 := rfl

/-- Lanes 0 to 20 hold the lower half of Λ, row by row. -/
theorem gLanes_lam (lam : Nat → Nat → Nat) (eta : Nat → Nat) {i j : Nat} (hi : i < 6) (hj : j ≤ i) :
    (gLanes lam eta).getD (lamLane i j) 0 = lam i j := by
  interval_cases i <;> interval_cases j <;> rfl

/-- Lanes 21 to 26 hold η. -/
theorem gLanes_eta (lam : Nat → Nat → Nat) (eta : Nat → Nat) {i : Nat} (hi : i < 6) : (gLanes lam eta).getD (21 + i) 0 = eta i := by
  interval_cases i <;> rfl

theorem gLanes_congr {lam lam' : Nat → Nat → Nat} {eta eta' : Nat → Nat} (hlam : ∀ i j, i < 6 → j ≤ i → lam i j = lam' i j)
    (heta : ∀ i, i < 6 → eta i = eta' i) : gLanes lam eta = gLanes lam' eta' := by
  unfold gLanes
  congr 1
  · apply List.flatMap_congr
    intro i hi
    apply List.map_congr_left
    intro j hj
    exact hlam i j (List.mem_range.mp hi) (Nat.le_of_lt_succ (List.mem_range.mp hj))
  · exact List.map_congr_left fun i hi => heta i (List.mem_range.mp hi)

theorem gRead_length (v : VWord) : (gRead v).length = 27 := rfl

/-- What the unit reads of a lane fits it. -/
theorem gRead_lt (v : VWord) (k : Nat) : (gRead v).getD k 0 < 2 ^ 32 := by
  have hlane (p : Prop) [Decidable p] (n : Nat) : (if p then elemOf 32 n v.toNat else 0) < 2 ^ 32 := by
    split
    · exact elemOf_lt 32 _ _
    · decide
  have hall : ∀ x ∈ gRead v, x < 2 ^ 32 := by
    intro x hx
    rcases List.mem_append.mp hx with hx | hx
    · obtain ⟨i, -, hx⟩ := List.mem_flatMap.mp hx
      obtain ⟨j, -, rfl⟩ := List.mem_map.mp hx
      exact hlane _ _
    · obtain ⟨i, -, rfl⟩ := List.mem_map.mp hx
      exact hlane _ _
  rw [List.getD_eq_getElem?_getD]
  cases h : (gRead v)[k]? with
  | none => exact Nat.two_pow_pos 32
  | some x => exact hall x (List.mem_of_getElem? h)

/-! ### A block from its lanes -/

/-- A register of 32 lanes, of which the last four are those of `va`. -/
theorem keepsTail_of {lanes : List Nat} (hlen : lanes.length = 27) {desc : Nat} (hdesc : desc < 2 ^ 32) (va : VWord) :
    KeepsTail (gBlock lanes desc va) va desc := by
  have hbehind {k : Nat} (hlo : 27 ≤ k) (hhi : k < 32) : elemOf 32 k (gBlock lanes desc va).toNat =
      (desc :: (List.range 4).map fun i => elemOf 32 (28 + i) va.toNat).getD (k - 27) 0 % 2 ^ 32 := by
    rw [gBlock, elemOf_ofElems 32 (by decide) _ _ hhi, List.append_assoc, List.getD_append_right _ _ _ _ (by omega), hlen]
    rfl
  constructor
  · rw [hbehind (Nat.le_refl 27) (by decide)]
    exact Nat.mod_eq_of_lt hdesc
  · intro k hlo hhi
    obtain ⟨i, rfl⟩ := Nat.exists_eq_add_of_le hlo
    rw [hbehind (by omega) hhi, show 28 + i - 27 = i + 1 by omega, List.getD_cons_succ, getD_map_range, if_pos (by omega),
      Nat.mod_eq_of_lt (elemOf_lt 32 (28 + i) va.toNat)]

theorem gBlock_lane {lanes : List Nat} (hlen : lanes.length = 27) (desc : Nat) (va : VWord) {k : Nat} (hk : k < 27) :
    elemOf 32 k (gBlock lanes desc va).toNat = lanes.getD k 0 % 2 ^ 32 := by
  rw [gBlock, elemOf_ofElems 32 (by decide) _ _ (by omega), List.append_assoc, List.getD_append _ _ _ _ (by omega)]

/-- Lane by lane, of two blocks. -/
theorem getD_zip_map {xs ys : List Nat} (f : Nat → Nat → Nat) {k : Nat} (hx : k < xs.length) (hy : k < ys.length) :
    ((xs.zip ys).map fun e => f e.1 e.2).getD k 0 = f (xs.getD k 0) (ys.getD k 0) := by
  simp [List.getD_eq_getElem?_getD, hx, hy]

/-- The block that an operation makes of two others, lane by lane. -/
theorem gBlock_zip (f : Nat → Nat → Nat) (va vb : VWord) :
    let v := gBlock (((gRead va).zip (gRead vb)).map fun e => f e.1 e.2) (gDesc va) va
    KeepsTail v va (gDesc va) ∧
      ∀ k, k < 27 → elemOf 32 k v.toNat = f ((gRead va).getD k 0) ((gRead vb).getD k 0) % 2 ^ 32 := by
  have hlen : (((gRead va).zip (gRead vb)).map fun e => f e.1 e.2).length = 27 := by
    rw [List.length_map, List.length_zip, gRead_length, gRead_length]
    rfl
  refine ⟨keepsTail_of hlen (elemOf_lt 32 27 _) va, fun k hk => ?_⟩
  rw [gBlock_lane hlen _ va hk, getD_zip_map f (by rw [gRead_length]; exact hk) (by rw [gRead_length]; exact hk)]

/-- A well-formed block has at most six slots. -/
theorem gDim_le {v : VWord} (h : gOk v = true) : gDim v ≤ 6 := by
  simp only [gOk, Bool.and_eq_true, bne_iff_ne] at h
  unfold gDim
  omega

/-- Lane 27 of a well-formed block is its number of slots and, from bit 4 on, their ids. -/
theorem gDesc_of_gOk {v : VWord} (h : gOk v = true) :
    gDesc v = gDim v + 16 * packElems 4 ((List.range (gDim v)).map fun k => nbits (gDesc v) (4 * k + 4) 4) := by
  simp only [gOk, Bool.and_eq_true, bne_iff_ne, beq_iff_eq] at h
  obtain ⟨⟨-, hbit⟩, hhigh⟩ := h
  have hids : packElems 4 ((List.range (gDim v)).map fun k => nbits (gDesc v) (4 * k + 4) 4) = gDesc v / 16 % 2 ^ (4 * gDim v) := by
    apply Nat.eq_of_testBit_eq
    intro i
    rw [testBit_packElems 4 (by decide), getD_map_range, Nat.testBit_mod_two_pow, show (16 : Nat) = 2 ^ 4 from rfl,
      Nat.testBit_div_two_pow]
    have hlt : i / 4 < gDim v ↔ i < 4 * gDim v := by omega
    split
    · next hi =>
      rw [decide_eq_true (hlt.mp hi), nbits, Nat.testBit_mod_two_pow, Nat.testBit_div_two_pow,
        decide_eq_true (Nat.mod_lt i (by decide)), Bool.true_and, Bool.true_and]
      congr 1
      omega
    · next hi => rw [decide_eq_false (fun h => hi (hlt.mpr h)), Bool.false_and, Nat.zero_testBit]
  have hfit : gDesc v / 16 < 2 ^ (4 * gDim v) := by
    have h2 : gDesc v < 2 ^ (4 * gDim v + 4) := Nat.lt_of_div_eq_zero (Nat.two_pow_pos _) hhigh
    rw [Nat.pow_add] at h2
    omega
  rw [hids, Nat.mod_eq_of_lt hfit]
  unfold nbits at hbit
  unfold gDim
  omega

end Sys2Proof.Machine

/-! ## Factors and their solutions (R151) -/

namespace Sys2Proof.Machine

/-! ### The factor, column by column -/

/-- The columns made so far are those of `l`, where it is a factor's: on the diagonal and below it. -/
structure ColsOf (l : Nat → Nat → Nat) (m j : Nat) (cols : List (List Nat)) : Prop where
  count : cols.length = j
  entry : ∀ k i, k < j → k ≤ i → i < m → colAt cols i k = l i k

theorem ColsOf.nil (l : Nat → Nat → Nat) (m : Nat) : ColsOf l m 0 [] := ⟨rfl, fun _ _ h => absurd h (Nat.not_lt_zero _)⟩

/-- The pivot of the column that comes next. -/
theorem ColsOf.pivot {a l : Nat → Nat → Nat} {m j : Nat} {cols : List (List Nat)} (h : ColsOf l m j cols) (hj : j < m) :
    (List.range j).foldl (fun p k => fnmaRne (colAt cols j k) (colAt cols j k) p) (a j j) = pivotOf a l j := by
  unfold pivotOf
  apply List.foldl_ext
  intro p k hk
  have hk := List.mem_range.mp hk
  rw [h.entry k j hk (Nat.le_of_lt hk) hj]

theorem cholCol_singular {a l : Nat → Nat → Nat} {m j : Nat} {dmax : Fp} {cols : List (List Nat)} (h : ColsOf l m j cols) (hj : j < m)
    (hbad : badPivot (pivotOf a l j) dmax = true) : cholCol a m dmax cols j = none := by
  rw [cholCol, h.pivot hj, if_pos hbad]

/-- The next column of a factor is made as R151 says, and stands behind the others. -/
theorem cholCol_factor {a l : Nat → Nat → Nat} {m j : Nat} {dmax : Fp} {cols : List (List Nat)} (h : ColsOf l m j cols) (hj : j < m)
    (hgood : badPivot (pivotOf a l j) dmax = false) (hdiag : l j j = sqrtRne (pivotOf a l j))
    (hbelow : ∀ i, i < m → j < i → l i j = divRne ((List.range j).foldl (fun q k => fnmaRne (l i k) (l j k) q) (a i j)) (l j j)) :
    ∃ c, cholCol a m dmax cols j = some c ∧ ColsOf l m (j + 1) (cols ++ [c]) := by
  refine ⟨_, by rw [cholCol, h.pivot hj, if_neg (by rw [hgood]; decide)], by rw [List.length_append, h.count]; rfl, ?_⟩
  intro k i hk hki hi
  rcases Nat.lt_succ_iff_lt_or_eq.mp hk with hk | rfl
  · rw [← h.entry k i hk hki hi, colAt, colAt, List.getD_append _ _ _ _ (by rw [h.count]; exact hk)]
  · rw [colAt, List.getD_append_right _ _ _ _ (by rw [h.count]), h.count, Nat.sub_self]
    show List.getD (List.map _ _) i 0 = _
    rw [getD_map_range, if_pos hi, if_neg (by omega)]
    split
    · next heq => rw [heq, hdiag]
    · next hne =>
      rw [hbelow i hi (by omega), hdiag]
      congr 1
      apply List.foldl_ext
      intro q k' hk'
      have hk' := List.mem_range.mp hk'
      rw [h.entry k' i hk' (by omega) hi, h.entry k' k hk' (by omega) hj]

/-- The columns of a factor are made one after the other. -/
theorem cholGo_reaches {a l : Nat → Nat → Nat} {m : Nat} (n : Nat) {k j : Nat} {cols : List (List Nat)} (h : ColsOf l m j cols)
    (hm : j + k ≤ m) (hfactor : FactorOf a m (j + k) l) :
    let dmax := maxFp ((List.range m).map fun i => fmtF32.unpack (a i i))
    ∃ cols', ColsOf l m (j + k) cols' ∧ cholGo a m dmax (k + n) j cols = cholGo a m dmax n (j + k) cols' := by
  intro dmax
  induction k generalizing j cols with
  | zero => exact ⟨cols, h, by rw [Nat.zero_add, Nat.add_zero]⟩
  | succ k ih =>
    obtain ⟨hgood, hdiag, hbelow⟩ := hfactor j (by omega)
    obtain ⟨c, hc, hcols⟩ := cholCol_factor h (by omega) hgood hdiag hbelow
    rw [show j + (k + 1) = j + 1 + k by omega] at hm hfactor ⊢
    obtain ⟨cols', hcols', hgo⟩ := ih hcols hm hfactor
    exact ⟨cols', hcols', by rw [show k + 1 + n = (k + n) + 1 by omega, cholGo, hc]; exact hgo⟩

theorem cholesky_factor {a l : Nat → Nat → Nat} {m : Nat} (h : FactorOf a m m l) :
    ∃ cols, cholesky a m = .inr cols ∧ ColsOf l m m cols := by
  have hgo := cholGo_reaches (a := a) 0 (k := m) (ColsOf.nil l m) (by omega) (by rwa [Nat.zero_add])
  rw [Nat.zero_add] at hgo
  obtain ⟨cols, hcols, hgo⟩ := hgo
  exact ⟨cols, hgo, hcols⟩

theorem cholesky_singular {a l : Nat → Nat → Nat} {m n : Nat} (h : SingularAt a m n l) : cholesky a m = .inl n := by
  obtain ⟨hn, hfactor, hbad⟩ := h
  have hgo := cholGo_reaches (a := a) (m - n) (k := n) (ColsOf.nil l m) (by omega) (by rwa [Nat.zero_add])
  rw [Nat.zero_add, show n + (m - n) = m by omega] at hgo
  obtain ⟨cols, hcols, hgo⟩ := hgo
  unfold cholesky
  rw [hgo, show m - n = (m - n - 1) + 1 by omega, cholGo, cholCol_singular hcols hn hbad]

/-- A singular pivot is one of the matrix's. -/
theorem cholGo_inl {a : Nat → Nat → Nat} {m : Nat} {dmax : Fp} {n j e : Nat} {cols : List (List Nat)}
    (h : cholGo a m dmax n j cols = .inl e) : e < j + n := by
  induction n generalizing j cols with
  | zero => cases h
  | succ n ih =>
    rw [cholGo] at h
    split at h
    · cases h; omega
    · have := ih h; omega

theorem cholesky_inl {a : Nat → Nat → Nat} {m e : Nat} (h : cholesky a m = .inl e) : e < m := by
  have := cholGo_inl h
  omega

/-! ### Solutions -/

theorem forwardSub_length (cols : List (List Nat)) (m : Nat) (b : Nat → Nat) : (forwardSub cols m b).length = m := by
  unfold forwardSub
  induction m with
  | zero => rfl
  | succ m ih => rw [List.range_succ, List.foldl_append, List.foldl_cons, List.foldl_nil, List.length_append, ih]; rfl

/-- Forward substitution solves its equations, from the first on. -/
theorem forwardSub_eq {l : Nat → Nat → Nat} {m : Nat} {cols : List (List Nat)} (h : ColsOf l m m cols) {b z : Nat → Nat}
    (hz : ForwardOf l m b z) : forwardSub cols m b = (List.range m).map z := by
  unfold forwardSub
  suffices hpre : ∀ n, n ≤ m → (List.range n).foldl (fun z j =>
      z ++ [divRne ((List.range j).foldl (fun y k => fnmaRne (colAt cols j k) (z.getD k 0) y) (b j)) (colAt cols j j)]) [] =
      (List.range n).map z from hpre m (Nat.le_refl m)
  intro n hn
  induction n with
  | zero => rfl
  | succ n ih =>
    rw [List.range_succ, List.foldl_append, ih (by omega), List.map_append, List.foldl_cons, List.foldl_nil, List.map_cons, List.map_nil,
      hz n hn, h.entry n n hn (Nat.le_refl n) hn]
    congr 3
    apply List.foldl_ext
    intro y k hk
    have hk := List.mem_range.mp hk
    rw [getD_map_range, if_pos hk, h.entry k n (by omega) (by omega) hn]

theorem backSub_length (cols : List (List Nat)) (m : Nat) (z : List Nat) : (backSub cols m z).length = m := by
  unfold backSub
  suffices hlen : ∀ (is w : List Nat) (f : List Nat → Nat → Nat), (is.foldl (fun w i => f w i :: w) w).length = w.length + is.length by
    exact (hlen _ _ _).trans (by simp)
  intro is w f
  induction is generalizing w with
  | nil => rfl
  | cons i is ih => rw [List.foldl_cons, ih, List.length_cons, List.length_cons]; omega

/-- Back substitution solves its equations, from the last back. -/
theorem backSub_eq {l : Nat → Nat → Nat} {m : Nat} {cols : List (List Nat)} (h : ColsOf l m m cols) {z w : Nat → Nat}
    (hw : BackOf l m z w) : backSub cols m ((List.range m).map z) = (List.range m).map w := by
  unfold backSub
  suffices hsuf : ∀ n, n ≤ m → (List.range n).foldl (fun w i =>
      let j := m - 1 - i
      let y := ((List.range m).filter fun k => decide (j < k)).foldl
        (fun y k => fnmaRne (colAt cols k j) (w.getD (k - j - 1) 0) y) (((List.range m).map z).getD j 0)
      divRne y (colAt cols j j) :: w) [] = (List.range n).map fun i => w (m - n + i) by
    rw [hsuf m (Nat.le_refl m)]
    simp
  intro n hn
  induction n with
  | zero => rfl
  | succ n ih =>
    rw [List.range_succ, List.foldl_append, ih (by omega), List.foldl_cons, List.foldl_nil, ← List.range_succ, List.range_succ_eq_map,
      List.map_cons, List.map_map]
    dsimp only
    congr 1
    · rw [show m - (n + 1) + 0 = m - 1 - n by omega, hw _ (by omega), h.entry (m - 1 - n) (m - 1 - n) (by omega) (Nat.le_refl _) (by omega),
        getD_map_range, if_pos (by omega)]
      congr 1
      apply List.foldl_ext
      intro y k hk
      obtain ⟨hkm, hjk⟩ := List.mem_filter.mp hk
      have hkm := List.mem_range.mp hkm
      have hjk := of_decide_eq_true hjk
      rw [getD_map_range, if_pos (by omega), h.entry (m - 1 - n) k (by omega) (by omega) hkm]
      congr 2
      omega
    · apply List.map_congr_left
      intro i _
      show w (m - n + i) = w (m - (n + 1) + (i + 1))
      congr 1
      omega

theorem cholSolve_length (cols : List (List Nat)) (m : Nat) (b : Nat → Nat) : (cholSolve cols m b).length = m := backSub_length ..

theorem cholSolve_eq {l : Nat → Nat → Nat} {m : Nat} {cols : List (List Nat)} (h : ColsOf l m m cols) {b z w : Nat → Nat}
    (hz : ForwardOf l m b z) (hw : BackOf l m z w) : cholSolve cols m b = (List.range m).map w := by
  rw [cholSolve, forwardSub_eq h hz, backSub_eq h hw]

end Sys2Proof.Machine

/-! ## GADD, GDAMP, GSOLVE and GRES (R150) -/

namespace Sys2Proof.Machine

/-! ### The means and variances that GSOLVE leaves -/

/-- The lanes of GSOLVE's block: means from lane 0 on, variances from lane 6 on, zeros between and behind them. -/
def solveLanes (d : Nat) (mean var : List Nat) : List Nat := mean ++ List.replicate (6 - d) 0 ++ var

/-- A block with these lanes, and lanes 27 to 31 of `va`. -/
def solveBlock (d : Nat) (mean var : List Nat) (va : VWord) : VWord :=
  ofElems 32 (solveLanes d mean var ++ List.replicate (27 - (solveLanes d mean var).length) 0 ++
    (List.range 5).map fun i => elemOf 32 (27 + i) va.toNat)

section
variable {d : Nat} {mean var : List Nat} (va : VWord) (hd : d ≤ 6) (hmean : mean.length = d) (hvar : var.length = d)
include hd hmean hvar

theorem solveLanes_length : (solveLanes d mean var).length = 6 + d := by
  rw [solveLanes, List.length_append, List.length_append, List.length_replicate, hmean, hvar]
  omega

theorem solveBlock_keeps : KeepsTail (solveBlock d mean var va) va (gDesc va) := by
  have hlen := solveLanes_length hd hmean hvar
  have htail {i : Nat} (hi : i < 5) : elemOf 32 (27 + i) (solveBlock d mean var va).toNat = elemOf 32 (27 + i) va.toNat := by
    rw [solveBlock, elemOf_ofElems 32 (by decide) _ _ (by omega),
      List.getD_append_right _ _ _ _ (by rw [List.length_append, List.length_replicate, hlen]; omega), List.length_append,
      List.length_replicate, hlen, show 27 + i - (6 + d + (27 - (6 + d))) = i by omega, getD_map_range, if_pos hi]
    exact Nat.mod_eq_of_lt (elemOf_lt 32 _ _)
  refine ⟨htail (i := 0) (by decide), fun k hlo hhi => ?_⟩
  obtain ⟨i, rfl⟩ := Nat.exists_eq_add_of_le hlo
  rw [show 28 + i = 27 + (i + 1) by omega]
  exact htail (by omega)

theorem solveBlock_lane {k : Nat} (hk : k < 27) : elemOf 32 k (solveBlock d mean var va).toNat =
    (if k < d then mean.getD k 0 else if 6 ≤ k ∧ k < 6 + d then var.getD (k - 6) 0 else 0) % 2 ^ 32 := by
  have hlen := solveLanes_length hd hmean hvar
  rw [solveBlock, elemOf_ofElems 32 (by decide) _ _ (by omega),
    List.getD_append _ _ _ _ (by rw [List.length_append, List.length_replicate, hlen]; omega)]
  congr 1
  by_cases hbehind : k < 6 + d
  · rw [List.getD_append _ _ _ _ (by rw [hlen]; exact hbehind), solveLanes]
    by_cases h6 : k < 6
    · rw [List.getD_append _ _ _ _ (by rw [List.length_append, List.length_replicate, hmean]; omega)]
      by_cases hkd : k < d
      · rw [List.getD_append _ _ _ _ (by rw [hmean]; exact hkd), if_pos hkd]
      · rw [List.getD_append_right _ _ _ _ (by rw [hmean]; omega), if_neg hkd, if_neg (by omega)]
        exact List.getD_replicate _ (by omega)
    · rw [List.getD_append_right _ _ _ _ (by rw [List.length_append, List.length_replicate, hmean]; omega), List.length_append,
        List.length_replicate, hmean, if_neg (by omega), if_pos (by omega), show d + (6 - d) = 6 by omega]
  · rw [List.getD_append_right _ _ _ _ (by rw [hlen]; omega), if_neg (by omega), if_neg (by omega), hlen]
    exact List.getD_replicate _ (by omega)

end

theorem gSolve_inl {va : VWord} {e : Nat} (h : cholesky (gLam va) (gDim va) = .inl e) :
    gSolve va = solveBlock (gDim va) (List.replicate (gDim va) fmtF32.canonNan) (List.replicate (gDim va) fmtF32.canonNan) va := by
  simp only [gSolve, h]
  rfl

/-- The variances that GSOLVE makes with the columns of a factor. -/
def solveVars (d : Nat) (cols : List (List Nat)) : List Nat :=
  (List.range d).map fun i => ((forwardSub cols d fun j => if j = i then 0x3f800000 else 0).drop i).foldl (fun s x => fmaRne x x s) 0

theorem gSolve_inr {va : VWord} {cols : List (List Nat)} (h : cholesky (gLam va) (gDim va) = .inr cols) :
    gSolve va = solveBlock (gDim va) (cholSolve cols (gDim va) (gEta va)) (solveVars (gDim va) cols) va := by
  simp only [gSolve, h]
  rfl

theorem solveVars_length (d : Nat) (cols : List (List Nat)) : (solveVars d cols).length = d := by
  rw [solveVars, List.length_map, List.length_range]

theorem gSolve_keeps {va : VWord} (h : gOk va = true) : KeepsTail (gSolve va) va (gDesc va) := by
  cases hfactor : cholesky (gLam va) (gDim va) with
  | inl e => rw [gSolve_inl hfactor]; exact solveBlock_keeps va (gDim_le h) List.length_replicate List.length_replicate
  | inr cols => rw [gSolve_inr hfactor]; exact solveBlock_keeps va (gDim_le h) (cholSolve_length ..) (solveVars_length ..)

/-- A singular pivot leaves the canonical NaN in every mean and variance. -/
theorem gSolve_singular {va : VWord} {l : Nat → Nat → Nat} {j k : Nat} (h : gOk va = true)
    (hsing : SingularAt (gLam va) (gDim va) j l) (hk : k < 27) : elemOf 32 k (gSolve va).toNat =
      if k < gDim va ∨ (6 ≤ k ∧ k < 6 + gDim va) then fmtF32.canonNan else 0 := by
  rw [gSolve_inl (cholesky_singular hsing), solveBlock_lane va (gDim_le h) List.length_replicate List.length_replicate hk]
  by_cases hmean : k < gDim va
  · rw [if_pos hmean, if_pos (Or.inl hmean), List.getD_replicate _ hmean]
    decide
  · by_cases hvar : 6 ≤ k ∧ k < 6 + gDim va
    · rw [if_neg hmean, if_pos hvar, if_pos (Or.inr hvar), List.getD_replicate _ (by omega)]
      decide
    · rw [if_neg hmean, if_neg hvar, if_neg (by omega), Nat.zero_mod]

/-- What is left of a list of values from the `i`-th on, folded. -/
theorem foldl_drop_range (f : Nat → Nat) (g : Nat → Nat → Nat) (i n t : Nat) :
    (((List.range n).map f).drop i).foldl g t = (List.range n).foldl (fun t m => if i ≤ m then g t (f m) else t) t := by
  induction n generalizing t with
  | zero => simp
  | succ n ih =>
    rw [List.range_succ, List.map_append, List.drop_append, List.foldl_append, List.foldl_append, ih, List.length_map, List.length_range]
    by_cases hi : i ≤ n
    · simp [hi, Nat.sub_eq_zero_of_le hi]
    · rw [List.drop_eq_nil_of_le (by simp; omega)]
      simp [hi]

/-- With a factor GSOLVE's lanes are the solutions of its equations. -/
theorem gSolve_factor {va : VWord} {l u : Nat → Nat → Nat} {z w : Nat → Nat} {k : Nat} (h : gOk va = true)
    (hfactor : FactorOf (gLam va) (gDim va) (gDim va) l) (hz : ForwardOf l (gDim va) (gEta va) z) (hw : BackOf l (gDim va) z w)
    (hu : ∀ i, i < gDim va → ForwardOf l (gDim va) (fun j => if j = i then 0x3f800000 else 0) (u i)) (hk : k < 27) :
    elemOf 32 k (gSolve va).toNat =
      (if k < gDim va then w k
        else if 6 ≤ k ∧ k < 6 + gDim va then
          (List.range (gDim va)).foldl (fun t m => if k - 6 ≤ m then fmaRne (u (k - 6) m) (u (k - 6) m) t else t) 0
        else 0) % 2 ^ 32 := by
  obtain ⟨cols, hcols, hof⟩ := cholesky_factor hfactor
  rw [gSolve_inr hcols, solveBlock_lane va (gDim_le h) (cholSolve_length ..) (solveVars_length ..) hk, cholSolve_eq hof hz hw]
  congr 1
  by_cases hmean : k < gDim va
  · rw [if_pos hmean, if_pos hmean, getD_map_range, if_pos hmean]
  · rw [if_neg hmean, if_neg hmean]
    by_cases hvar : 6 ≤ k ∧ k < 6 + gDim va
    · rw [if_pos hvar, if_pos hvar, solveVars, getD_map_range, if_pos (by omega), forwardSub_eq hof (hu (k - 6) (by omega)),
        foldl_drop_range]
    · rw [if_neg hvar, if_neg hvar]

/-! ### GRES -/

/-- GRES's difference of a lane. -/
def resDiff (x y : Nat) : Nat := fmtF32.abs (addRne x (if fmtF32.isNan y then y else fmtF32.neg y))

theorem gResOf_eq (va vb : VWord) : gResOf va vb =
    if (List.range 27).any fun k => fmtF32.isNan (resDiff ((gRead va).getD k 0) ((gRead vb).getD k 0)) then fmtF32.canonNan else
      (List.range 27).foldl (fun m k => Nat.max m (resDiff ((gRead va).getD k 0) ((gRead vb).getD k 0))) 0 := by
  have hds : ((gRead va).zip (gRead vb)).map (fun e => resDiff e.1 e.2) =
      (List.range 27).map fun k => resDiff ((gRead va).getD k 0) ((gRead vb).getD k 0) := rfl
  show (if (((gRead va).zip (gRead vb)).map fun e => resDiff e.1 e.2).any fmtF32.isNan then _ else
    (((gRead va).zip (gRead vb)).map fun e => resDiff e.1 e.2).foldl Nat.max 0) = _
  rw [hds, List.any_map, List.foldl_map]
  rfl

/-! ### The obligation -/

section
variable {s : State} (st : Stall) {d a b : VReg}

theorem gadd_adds (ha : gOk (vr s a) = true) (hb : gOk (vr s b) = true) (hdesc : gDesc (vr s a) = gDesc (vr s b)) :
    BlockTo (.gadd st d a b) s st d (gAdd (vr s a) (vr s b)) :=
  blockTo_of (by show execGadd st d a b s = _; simp [execGadd, ha, hb, hdesc])

theorem gdamp_damps {beta : Dy} (ha : gOk (vr s a) = true) (hb : gOk (vr s b) = true) (hdesc : gDesc (vr s a) = gDesc (vr s b))
    (hbeta : gBeta (vr s a) = some beta) : BlockTo (.gdamp st d a b) s st d (gDampOf beta (vr s a) (vr s b)) :=
  blockTo_of (by show execGdamp st d a b s = _; simp [execGdamp, ha, hb, hdesc, hbeta])

theorem gdamp_factor (hbeta : gBeta (vr s a) = none) : TakesSup (.gdamp st d a b) s fRESFIELD 0 := by
  show execGdamp st d a b s = _
  rw [execGdamp, hbeta]
  exact ite_self _

theorem gsolve_solves (ha : gOk (vr s a) = true) : BlockTo (.gsolve st d a) s st d (gSolve (vr s a)) :=
  blockTo_of (by show execGsolve st d a s = _; simp [execGsolve, ha])

theorem gres_writes (h : Bool) (ha : gOk (vr s a) = true) (hb : gOk (vr s b) = true) :
    exec (.gres st d a b h) s = gaussResult s st
      [(xCode (BitVec.ofNat 5 (d.toNat + if h then 16 else 0)), BitVec.ofNat 1024 (gResOf (vr s a) (vr s b)))] := by
  have hcode : xCode (BitVec.ofNat 5 (d.toNat + if h then 16 else 0)) = d.toNat + if h then 16 else 0 := by
    have hd := d.isLt
    rw [xCode, BitVec.toNat_ofNat]
    apply Nat.mod_eq_of_lt
    split <;> omega
  rw [hcode]
  show execGres st d a b h s = _
  simp [execGres, ha, hb]

theorem gadd_refuses (hbad : gOk (vr s a) = false ∨ gOk (vr s b) = false ∨ gDesc (vr s a) ≠ gDesc (vr s b)) :
    TakesSup (.gadd st d a b) s fRESFIELD 0 ∧ TakesSup (.gdamp st d a b) s fRESFIELD 0 := by
  have hcond : (!gOk (vr s a) || !gOk (vr s b) || gDesc (vr s a) != gDesc (vr s b)) = true := by
    simpa [or_assoc] using hbad
  exact ⟨if_pos hcond, if_pos hcond⟩

theorem gsolve_refuses (ha : gOk (vr s a) = false) : TakesSup (.gsolve st d a) s fRESFIELD 0 :=
  if_pos (by simp [ha])

theorem gres_refuses (h : Bool) (hbad : gOk (vr s a) = false ∨ gOk (vr s b) = false) : TakesSup (.gres st d a b h) s fRESFIELD 0 :=
  if_pos (by simpa using hbad)

end

/-- Settles O26: each operation's block by its lanes, the solutions by the factor's columns. -/
theorem gaussianBlocks : Obligations.GaussianBlocks := by
  unfold Obligations.GaussianBlocks
  intro s st d a b h l u z w va vb n one x y diff r res
  refine ⟨fun ha hb hdesc => ⟨?_, fun beta hbeta => ?_, gdamp_factor st⟩, fun ha => ?_, fun ha hb => ?_, fun ha i hi => ?_,
    fun hb => gres_refuses st h (Or.inr hb), fun hbad => gadd_refuses st (Or.inr hbad)⟩
  · exact ⟨_, gadd_adds st ha hb hdesc, gBlock_zip addRne va vb⟩
  · exact ⟨_, gdamp_damps st ha hb hdesc hbeta, gBlock_zip (dampElem beta) va vb⟩
  · exact ⟨_, gsolve_solves st ha, gSolve_keeps ha, fun j hsing k hk => gSolve_singular ha hsing hk,
      fun hfactor hz hw hu k hk => gSolve_factor ha hfactor hz hw hu hk⟩
  · have hres : gResOf va vb = res := gResOf_eq va vb
    rw [← hres]
    exact unitWrites_word (gres_writes st h ha hb)
  · rcases hi with rfl | rfl | rfl | rfl
    · exact (gadd_refuses st (Or.inl ha)).1
    · exact (gadd_refuses st (Or.inl ha)).2
    · exact gsolve_refuses st ha
    · exact gres_refuses st h (Or.inl ha)

end Sys2Proof.Machine

/-! ## GELIM (R151, R152) -/

namespace Sys2Proof.Machine

/-! ### The slots of a mask -/

theorem mem_gSlots {d k : Nat} {m : BitVec 6} {sel : Bool} : k ∈ gSlots d m sel ↔ k < d ∧ m.getLsbD k = sel := by
  simp [gSlots]

theorem gSlots_length_le (d : Nat) (m : BitVec 6) (sel : Bool) : (gSlots d m sel).length ≤ d :=
  (List.length_filter_le _ _).trans (by rw [List.length_range])

/-- Where nothing is eliminated every slot stays. -/
theorem gSlots_all {d : Nat} {m : BitVec 6} (h : gSlots d m true = []) : gSlots d m false = List.range d := by
  apply List.filter_eq_self.mpr
  intro k hk
  have hnot : k ∉ gSlots d m true := by rw [h]; exact List.not_mem_nil
  cases hbit : m.getLsbD k with
  | true => exact absurd (mem_gSlots.mpr ⟨List.mem_range.mp hk, hbit⟩) hnot
  | false => rfl

/-- An index of a list names one of its members. -/
theorem getD_mem_of_lt {l : List Nat} {k : Nat} (h : k < l.length) : l.getD k 0 ∈ l := by
  rw [List.getD_eq_getElem _ _ h]
  exact List.getElem_mem h

/-! ### What elimination makes -/

/-- The ids of the slots that stay, in their order. -/
def elimIds (va : VWord) (kept : List Nat) : Nat := packElems 4 (kept.map fun k => nbits (gDesc va) (4 * k + 4) 4)

/-- The matrix of the eliminated slots. -/
def elimLam (va : VWord) (gone : List Nat) (i j : Nat) : Nat := gLam va (gone.getD i 0) (gone.getD j 0)

/-- A lane of a slot that stays less its Λ times the solution `z` of a column, one step for each eliminated slot. -/
def elimLess (va : VWord) (kept gone : List Nat) (r : Nat) (z : Nat → Nat) (x : Nat) : Nat :=
  (List.range gone.length).foldl (fun x k => fnmaRne (gLam va (kept.getD r 0) (gone.getD k 0)) (z k) x) x

/-- The block of the slots that stay, from the solutions of their columns and of η. -/
def elimBlock (va : VWord) (kept gone : List Nat) (zs : Nat → Nat → Nat) (zeta : Nat → Nat) : VWord :=
  gBlock (gLanes
    (fun r c => if r < kept.length then elimLess va kept gone r (zs c) (gLam va (kept.getD r 0) (kept.getD c 0)) else 0)
    (fun r => if r < kept.length then elimLess va kept gone r zeta (gEta va (kept.getD r 0)) else 0))
    (kept.length + 16 * elimIds va kept) va

section
variable {va : VWord} {m : BitVec 6}

theorem gElim_nothing (h : gSlots (gDim va) m true = []) : gElim va m = .inr (gBlock (gRead va) (gDesc va) va) := by
  simp [gElim, h]

theorem gElim_inl {j : Nat} (h : gSlots (gDim va) m true ≠ [])
    (hchol : cholesky (elimLam va (gSlots (gDim va) m true)) (gSlots (gDim va) m true).length = .inl j) :
    gElim va m = .inl ((gSlots (gDim va) m true).getD j 0) := by
  unfold elimLam at hchol
  rw [gElim, if_neg (by simpa using h)]
  simp only [hchol]

/-- The solutions of the columns of the slots that stay. -/
def elimZs (va : VWord) (kept gone : List Nat) (cols : List (List Nat)) (c k : Nat) : Nat :=
  ((kept.map fun t => cholSolve cols gone.length fun k => gLam va (gone.getD k 0) t).getD c []).getD k 0

theorem gElim_inr {cols : List (List Nat)} (h : gSlots (gDim va) m true ≠ [])
    (hchol : cholesky (elimLam va (gSlots (gDim va) m true)) (gSlots (gDim va) m true).length = .inr cols) :
    gElim va m = .inr (elimBlock va (gSlots (gDim va) m false) (gSlots (gDim va) m true)
      (elimZs va (gSlots (gDim va) m false) (gSlots (gDim va) m true) cols)
      fun k => (cholSolve cols (gSlots (gDim va) m true).length fun k => gEta va ((gSlots (gDim va) m true).getD k 0)).getD k 0) := by
  unfold elimLam at hchol
  rw [gElim, if_neg (by simpa using h)]
  simp only [hchol]
  rfl

theorem elimBlock_keeps (hok : gOk va = true) (zs : Nat → Nat → Nat) (zeta : Nat → Nat) :
    KeepsTail (elimBlock va (gSlots (gDim va) m false) (gSlots (gDim va) m true) zs zeta) va
      ((gSlots (gDim va) m false).length + 16 * elimIds va (gSlots (gDim va) m false)) := by
  have hlen : (gSlots (gDim va) m false).length ≤ 6 := (gSlots_length_le ..).trans (gDim_le hok)
  have hids : elimIds va (gSlots (gDim va) m false) < 2 ^ 24 := by
    refine (packElems_lt 4 _).trans_le (Nat.pow_le_pow_right (by decide) ?_)
    rw [List.length_map]
    omega
  exact keepsTail_of (gLanes_length ..) (by omega) va

/-- Nothing eliminated, the block is the one that the unit reads. -/
theorem elimBlock_nothing (hok : gOk va = true) (h : gSlots (gDim va) m true = []) (zs : Nat → Nat → Nat) (zeta : Nat → Nat) :
    elimBlock va (gSlots (gDim va) m false) (gSlots (gDim va) m true) zs zeta = gBlock (gRead va) (gDesc va) va := by
  have hself {k : Nat} (hk : k < gDim va) : (List.range (gDim va)).getD k 0 = k := by
    rw [List.getD_eq_getElem _ _ (by rw [List.length_range]; exact hk), List.getElem_range]
  rw [gSlots_all h, h, elimBlock, List.length_range, elimIds, ← gDesc_of_gOk hok, gRead]
  congr 1
  apply gLanes_congr
  · intro i j _ hj
    split
    · next hi =>
      rw [hself hi, hself (by omega)]
      rfl
    · next hi => rw [gLam, if_neg (fun hlt => hi hlt.1)]
  · intro i _
    split
    · next hi =>
      rw [hself hi]
      rfl
    · next hi => rw [gEta, if_neg hi]

/-- A new block keeps the tail of the old one, under the slots that stay. -/
theorem gElim_keeps {v : VWord} (hok : gOk va = true) (hv : gElim va m = .inr v) :
    KeepsTail v va ((gSlots (gDim va) m false).length + 16 * elimIds va (gSlots (gDim va) m false)) := by
  by_cases h : gSlots (gDim va) m true = []
  · rw [gElim_nothing h, ← elimBlock_nothing hok h (fun _ _ => 0) fun _ => 0] at hv
    rw [← Sum.inr.inj hv]
    exact elimBlock_keeps hok ..
  · cases hchol : cholesky (elimLam va (gSlots (gDim va) m true)) (gSlots (gDim va) m true).length with
    | inl j => rw [gElim_inl h hchol] at hv; cases hv
    | inr cols =>
      rw [gElim_inr h hchol] at hv
      rw [← Sum.inr.inj hv]
      exact elimBlock_keeps hok ..

/-- A singular pivot is that of a slot of the mask. -/
theorem gElim_slot {e : Nat} (hv : gElim va m = .inl e) : e < gDim va ∧ m.getLsbD e = true := by
  by_cases h : gSlots (gDim va) m true = []
  · rw [gElim_nothing h] at hv; cases hv
  · cases hchol : cholesky (elimLam va (gSlots (gDim va) m true)) (gSlots (gDim va) m true).length with
    | inl j =>
      rw [gElim_inl h hchol] at hv
      cases hv
      exact mem_gSlots.mp (getD_mem_of_lt (cholesky_inl hchol))
    | inr cols => rw [gElim_inr h hchol] at hv; cases hv

theorem gElim_singular {l : Nat → Nat → Nat} {j : Nat}
    (hsing : SingularAt (elimLam va (gSlots (gDim va) m true)) (gSlots (gDim va) m true).length j l) :
    gElim va m = .inl ((gSlots (gDim va) m true).getD j 0) := by
  have hne : gSlots (gDim va) m true ≠ [] := fun h => by
    have hlt := hsing.1
    rw [h] at hlt
    exact absurd hlt (Nat.not_lt_zero j)
  exact gElim_inl hne (cholesky_singular hsing)

/-- The column of index `c`: of the slot that stays there, behind them η. -/
def elimColumn (va : VWord) (kept gone : List Nat) (c k : Nat) : Nat :=
  if c < kept.length then gLam va (gone.getD k 0) (kept.getD c 0) else gEta va (gone.getD k 0)

/-- With a factor the new block is the Schur complement. -/
theorem gElim_factor {l y z : Nat → Nat → Nat} (hok : gOk va = true)
    (hfactor : FactorOf (elimLam va (gSlots (gDim va) m true)) (gSlots (gDim va) m true).length (gSlots (gDim va) m true).length l)
    (hsolved : ∀ c, c ≤ (gSlots (gDim va) m false).length →
      ForwardOf l (gSlots (gDim va) m true).length (elimColumn va (gSlots (gDim va) m false) (gSlots (gDim va) m true) c) (y c) ∧
        BackOf l (gSlots (gDim va) m true).length (y c) (z c)) :
    gElim va m = .inr (elimBlock va (gSlots (gDim va) m false) (gSlots (gDim va) m true) z (z (gSlots (gDim va) m false).length)) := by
  by_cases h : gSlots (gDim va) m true = []
  · rw [gElim_nothing h, elimBlock_nothing hok h]
  · obtain ⟨cols, hchol, hof⟩ := cholesky_factor hfactor
    rw [gElim_inr h hchol]
    generalize gSlots (gDim va) m true = gone at hof hsolved
    generalize gSlots (gDim va) m false = kept at hsolved
    have hless (r x : Nat) {c : Nat} {f : Nat → Nat} (hc : c ≤ kept.length)
        (hf : ∀ k, f k = (cholSolve cols gone.length (elimColumn va kept gone c)).getD k 0) :
        elimLess va kept gone r f x = elimLess va kept gone r (z c) x := by
      apply List.foldl_ext
      intro x k hk
      have hk := List.mem_range.mp hk
      obtain ⟨hy, hz⟩ := hsolved c hc
      rw [hf, cholSolve_eq hof hy hz, getD_map_range, if_pos hk]
    rw [elimBlock, elimBlock]
    congr 2
    apply gLanes_congr
    · intro r c _ hcr
      split
      · next hr =>
        have hc : c < kept.length := by omega
        refine hless r _ (Nat.le_of_lt hc) fun k => ?_
        have hcolumn : elimColumn va kept gone c = fun k => gLam va (gone.getD k 0) (kept.getD c 0) := funext fun k => if_pos hc
        rw [elimZs, hcolumn, List.getD_eq_getElem (List.map _ kept) _ (by rw [List.length_map]; exact hc), List.getElem_map,
          List.getD_eq_getElem kept _ hc]
      · rfl
    · intro r _
      split
      · have hcolumn : elimColumn va kept gone kept.length = fun k => gEta va (gone.getD k 0) :=
          funext fun k => if_neg (Nat.lt_irrefl _)
        exact hless r _ (Nat.le_refl _) fun k => by rw [hcolumn]
      · rfl

end

/-! ### The instruction -/

section
variable {s : State} (st : Stall) {d a : VReg} {m : BitVec 6} (t : Bool) {p : PReg}

theorem gelim_block {v : VWord} (hok : gOk (vr s a) = true) (hm : m.toNat < 2 ^ gDim (vr s a)) (hv : gElim (vr s a) m = .inr v) :
    exec (.gelim st d a m t p) s = gaussResult s st [(vCode d, v), (pCode p, allBits)] := by
  show execGelim st d a m t p s = _
  rw [execGelim, if_neg (by simp [hok]; omega), hv]

theorem gelim_zeros {e : Nat} (hok : gOk (vr s a) = true) (hm : m.toNat < 2 ^ gDim (vr s a)) (hv : gElim (vr s a) m = .inl e) :
    exec (.gelim st d a m false p) s = gaussResult s st [(vCode d, 0), (pCode p, 0)] := by
  show execGelim st d a m false p s = _
  rw [execGelim, if_neg (by simp [hok]; omega), hv]
  rfl

theorem gelim_waits {e : Nat} (hok : gOk (vr s a) = true) (hm : m.toNat < 2 ^ gDim (vr s a)) (hv : gElim (vr s a) m = .inl e)
    (hq : (myCore s).gaussq ≠ []) : ParksFor (.gelim st d a m true p) s .unit := by
  show execGelim st d a m true p s = _
  rw [execGelim, if_neg (by simp [hok]; omega), hv]
  exact if_pos (by simpa using hq)

theorem gelim_upcall {e : Nat} (hok : gOk (vr s a) = true) (hm : m.toNat < 2 ^ gDim (vr s a)) (hv : gElim (vr s a) m = .inl e)
    (hq : (myCore s).gaussq = []) : exec (.gelim st d a m true p) s =
      upcall (setMe s ((me s).takes [(vCode d, 0), (pCode p, 0)])) fSINGULAR (BitVec.ofNat 64 e) 4 := by
  show execGelim st d a m true p s = _
  rw [execGelim, if_neg (by simp [hok]; omega), hv]
  simp only [hq]
  rfl

theorem gelim_refuses (hbad : ¬(gOk (vr s a) = true ∧ m.toNat < 2 ^ gDim (vr s a))) :
    TakesSup (.gelim st d a m t p) s fRESFIELD 0 := by
  show execGelim st d a m t p s = _
  rw [execGelim]
  refine if_pos ?_
  cases hok : gOk (vr s a) with
  | false => rfl
  | true => simpa [hok] using hbad

/-- A block into v[d] and a predicate into p[p], as the unit's results. -/
theorem unitWrites_both {v q : VWord} {i : Instr} (h : exec i s = gaussResult s st [(vCode d, v), (pCode p, q)]) :
    UnitWrites i s st [(vCode d, v), (pCode p, q)] fun u =>
      (∀ c, u.vAt c d = v) ∧ (∀ c, u.pAt c p = if p = 0 then BitVec.allOnes 32 else q.setWidth 32) ∧
      (∀ c r, u.xAt c r = (me s).xAt c r) ∧ (∀ c r, r ≠ d → u.vAt c r = (me s).vAt c r) ∧
      ∀ c r, r ≠ p → u.pAt c r = (me s).pAt c r := by
  have hd := d.isLt
  have hp := p.isLt
  exact unitWrites_of h (by simp [vCode, pCode]; omega) fun u => blockAndPred

theorem zero_setWidth : (0 : VWord).setWidth 32 = (0 : BitVec 32) := by simp

/-- The context that takes the upcall has zeros in both registers. -/
theorem zeros_read (t : Ctx) (d : VReg) (p : PReg) : let u := t.takes [(vCode d, 0), (pCode p, 0)]
    u.pc = t.pc ∧ (∀ c, u.vAt c d = 0) ∧ ∀ c, u.pAt c p = if p = 0 then BitVec.allOnes 32 else 0 := by
  have hd := d.isLt
  have hp := p.isLt
  intro u
  obtain ⟨hblock, hpred, -⟩ := blockAndPred (t := t) (u := u) (d := d) (p := p) (v := 0) (q := 0) rfl rfl rfl rfl
  rw [zero_setWidth] at hpred
  have honly : RegsOnly t u := regsOnly_takes t (by simp [vCode, pCode]; omega)
  clear_value u
  obtain ⟨x, v, q, r, rfl⟩ := honly
  exact ⟨rfl, hblock, hpred⟩

end

/-- Settles O27: the new block is the Schur complement by the factor's columns; a singular pivot leaves zeros, or the upcall. -/
theorem elimination : Obligations.Elimination := by
  unfold Obligations.Elimination
  intro s st d a m tt p l y z va i kept gone ki gi lam column less ids both ok
  have hone : (allBits : VWord).setWidth 32 = BitVec.allOnes 32 := allBits_setWidth 32 (by decide)
  have hboth (h : ok) (t : Bool) {v : VWord} (hv : gElim va m = .inr v) : both t v allBits (BitVec.allOnes 32) := by
    have h := unitWrites_both st (gelim_block st (d := d) t (p := p) h.1 h.2 hv)
    rwa [hone] at h
  have hzero (h : ok) {e : Nat} (hv : gElim va m = .inl e) : both false 0 0 0 := by
    have h := unitWrites_both st (gelim_zeros st (d := d) (p := p) h.1 h.2 hv)
    rwa [zero_setWidth] at h
  refine ⟨fun h v hv => ⟨hboth h tt hv, gElim_keeps h.1 hv⟩, fun h hfactor hsolved => ?_, fun h j hsing => gElim_singular hsing,
    fun h hm => ?_, fun h e hv => ?_, gelim_refuses st tt⟩
  · have hv := gElim_factor h.1 hfactor hsolved
    refine ⟨_, hboth h tt hv, elimBlock_keeps h.1 .., fun r c hc hr => ?_, fun r hr => ?_⟩
    · have hlane : lamLane r c < 27 := by interval_cases r <;> interval_cases c <;> decide
      rw [elimBlock, gBlock_lane (gLanes_length ..) _ _ hlane, gLanes_lam _ _ hr hc]
      exact apply_ite (· % 2 ^ 32) _ _ _
    · rw [elimBlock, gBlock_lane (gLanes_length ..) _ _ (by omega), gLanes_eta _ _ hr]
      exact apply_ite (· % 2 ^ 32) _ _ _
  · have hnone : gSlots (gDim va) m true = [] := by
      subst hm
      exact List.filter_eq_nil_iff.mpr fun k _ => by simp
    refine ⟨_, gElim_nothing hnone, fun k hk => ?_⟩
    rw [gBlock_lane (gRead_length va) _ _ hk, Nat.mod_eq_of_lt (gRead_lt va k)]
  · obtain ⟨hslot, hbit⟩ := gElim_slot hv
    obtain ⟨hpc, hblock, hpred⟩ := zeros_read (me s) d p
    refine ⟨hslot, hbit, hzero h hv, gelim_waits st h.1 h.2 hv, fun hq =>
      ⟨_, ?_, mineOnly_setMe .., by rw [me_setMe]; exact hblock, by rw [me_setMe]; exact hpred⟩⟩
    rw [gelim_upcall st h.1 h.2 hv hq, upcall, me_setMe, hpc]
    rfl

end Sys2Proof.Machine

/-! ## A tile of a format that its region's geometry does not allow (R60, R134)

A region descriptor whose GEOM is 0 may not have FMT 7 (E4M3 in blocks). The terms of the statement take the format and the geometry as
the descriptor gives them, so that such a tile counts as one of scalars of the 8-bit set; the Mill finds the pair before any data
move, and the command fails with code 0x04. A store of such a descriptor is refused, so that no program meets it; the statement speaks
of every state. -/

namespace Sys2Proof.Machine

/-- A descriptor of 4,096 bytes from OFFSET 0, which its own core may read, with FMT 7 and GEOM 0. -/
def oddDescriptor : Nat := 2 ^ 63 + 2 ^ 62 + 7 * 2 ^ 54 + 12 * 2 ^ 45

/-- The machine at reset, but that partition 0 owns the quad of core 0, and core 0 has the descriptor. -/
def oddFormat : State :=
  { State.reset with
    mem := Memory.write (Memory.write [] (sliceKey 0 0x410400) 8 oddDescriptor) (sliceKey (serviceCore 0) 0x40000) 1 128 }

/-- The tile: one row of 32 bytes from the first byte of the issuing core's slice on. -/
def oddMap : BitVec 256 :=
  BitVec.ofNat 256 (2 ^ 62 + 2 ^ 64 * (32 + 2 ^ 16 * (1 + 2 ^ 16 * (1 + 2 ^ 16))) + 2 ^ 128 * 32 + 2 ^ 200 * 32 + 2 ^ 212 + 2 ^ 224)

/-- MSTRM of the tile by core 0 into accumulator 0. -/
def oddCmd : MillCmd where
  fn := 2
  c := 0
  core := 0
  ctx := 0
  t := false
  map := oddMap
  org := 0
  cadr := 0
  gang := none
  part := 0
  acc := 0
  job := 0
  supr := false
  vec := zeroVec

/-- The engine of that command. -/
def oddEng : Eng := engOf 0 0 0 false zeroVec

/-- Where the engine finds the piece of the row from element `k` on. -/
def oddView (k : Nat) : View := { rawView k with fmt := 7, blkOff := k % 16, flip := sliceKey 0 0x410406 }

theorem oddPieces : rowPieces (8 * (rowBit oddMap 0 0 / 8)) (8 * 1) 32 = [(0, 16), (16, 16)] := by decide +kernel

/-- The tile is one of scalars in slices, as the statement has it. -/
theorem oddTile : TileAt oddFormat oddEng oddMap 0 1 false 7 fun _ => 0 := by
  refine ⟨by decide +kernel, by decide +kernel, by decide, fun r hr => ?_⟩
  have hr : r = 0 := Nat.lt_one_iff.mp hr
  subst hr
  refine ⟨by decide +kernel, fun p hp => ?_⟩
  rw [show mapT0 oddMap = 32 by decide +kernel, oddPieces] at hp
  rcases List.mem_pair.mp hp with rfl | rfl
  · exact ⟨0, 0, oddView 0, by decide +kernel, by decide +kernel, rfl, rfl, rfl, rfl, rfl⟩
  · exact ⟨0, 16, oddView 16, by decide +kernel, by decide +kernel, rfl, rfl, rfl, rfl, rfl⟩

/-- The command fails: the Mill finds the format and the geometry not to match. -/
theorem oddCmd_fails : (millShare oddFormat oddEng Mill.reset oddCmd 0 0).map (fun o => (o.status, o.code)) = .ok (stENGERR, 4) := by
  decide +kernel

/-- Refutes O33: with an invalid active plane MSTRM of a tile of FMT 7 with GEOM 0 does not complete INVALID, but fails with code 0x04. -/
theorem not_millComputes : ¬ Obligations.MillComputes := by
  unfold Obligations.MillComputes
  intro h
  obtain ⟨-, -, -, hinvalid, -⟩ := h oddFormat oddEng Mill.reset oddCmd ⟨oddFormat, Mill.reset, 0, 0, 0, none⟩ 0 0 7 1 (fun _ => 0)
    rfl rfl rfl (by decide +kernel)
  have hshare := hinvalid (by decide) (by decide +kernel) (by decide +kernel) (by decide +kernel) (Or.inr rfl) (Or.inl rfl) oddTile
  have hfails := oddCmd_fails
  rw [hshare] at hfails
  cases hfails

end Sys2Proof.Machine
/-! ## Numbers in memory, completions and the Mill (R112, R142-R144, R148)

A completion granule is one write of 16 bytes of which the fields are read back one by one; what else a Mill's step does after it, notices
and wakes, changes neither memory nor any Mill. -/

namespace Sys2Proof.Machine

/-! ### Parts of a number in memory -/

/-- The number at an address is its first bytes and, above them, the rest. -/
theorem Memory.read_add (m : List Host.Cell) (a i k : Nat) :
    Memory.read m a (i + k) = Memory.read m a i + 256 ^ i * Memory.read m (a + i) k := by
  induction i generalizing a with
  | zero => simp [Memory.read]
  | succ i ih =>
    rw [Nat.succ_add, Memory.read, Memory.read, ih, Nat.add_assoc a 1 i, Nat.add_comm 1 i, Nat.pow_succ]
    ring

/-- The first bytes of a number in memory. -/
theorem Memory.read_take (m : List Host.Cell) (a : Nat) {k n : Nat} (h : k ≤ n) :
    Memory.read m a k = Memory.read m a n % 256 ^ k := by
  obtain ⟨j, rfl⟩ := Nat.exists_eq_add_of_le h
  rw [Memory.read_add, Nat.add_mul_mod_self_left, Nat.mod_eq_of_lt (Memory.read_lt m a k)]

/-- The bytes of a number in memory from its byte `i` on. -/
theorem Memory.read_drop (m : List Host.Cell) (a i k : Nat) : Memory.read m (a + i) k = Memory.read m a (i + k) / 256 ^ i := by
  rw [Memory.read_add, Nat.add_mul_div_left _ _ (by positivity), Nat.div_eq_of_lt (Memory.read_lt m a i), Nat.zero_add]

/-- A part of the bytes that were written at one instant. -/
theorem Memory.read_write_part {m : List Host.Cell} (hw : Memory.wf m = true) (a v : Nat) {n i k : Nat} (h : i + k ≤ n) :
    Memory.read (Memory.write m a n v) (a + i) k = v / 256 ^ i % 256 ^ k := by
  have hlow : v % 256 ^ n % 256 ^ (i + k) = v % 256 ^ (i + k) := Nat.mod_mod_of_dvd _ (Nat.pow_dvd_pow 256 h)
  rw [Memory.read_drop, Memory.read_take _ _ h, Memory.read_write_same _ _ _ hw, hlow, Nat.pow_add, Nat.mod_mul_right_div_self]

/-! ### What a notice and a wake leave -/

/-- Memory, its full/empty bits and every Mill are as they were. -/
structure KeepsMills (s t : State) : Prop where
  mem : t.mem = s.mem
  full : t.full = s.full
  mill : ∀ k, (coreAt t k).mill = (coreAt s k).mill

theorem KeepsMills.refl (s : State) : KeepsMills s s := ⟨rfl, rfl, fun _ => rfl⟩

theorem KeepsMills.trans {s t u : State} (h : KeepsMills s t) (h' : KeepsMills t u) : KeepsMills s u :=
  ⟨h'.mem.trans h.mem, h'.full.trans h.full, fun k => (h'.mill k).trans (h.mill k)⟩

theorem WakesOnly.keepsMills {s t : State} (h : WakesOnly s t) : KeepsMills s t := ⟨h.mem, h.full, fun k => by rw [h.core]⟩

theorem keepsMills_setCore (s : State) (n : Nat) {k : Core} (h : k.mill = (coreAt s n).mill) : KeepsMills s (setCore s n k) := by
  refine ⟨rfl, rfl, fun m => ?_⟩
  by_cases hm : m = n
  · rw [hm, coreAt_setCore_same, h]
  · rw [coreAt_setCore_other _ _ hm]

theorem keepsMills_wakes (cause : Cause) (cs : List Nat) (s : State) : KeepsMills s (cs.foldl (fun t k => wakeAll t k cause) s) := by
  induction cs generalizing s with
  | nil => exact .refl s
  | cons c cs ih => exact (wakesOnly_wakeAll s c cause).keepsMills.trans (ih _)

theorem keepsMills_raiseNotice (s : State) (n c code : Nat) (adr : Word) : KeepsMills s (raiseNotice s n c code adr) := by
  unfold raiseNotice
  dsimp only
  split
  · exact (keepsMills_setCore s n (by rfl)).trans (wakesOnly_wakeHalted ..).keepsMills
  · exact keepsMills_setCore s n (by rfl)

/-! ### A completion (R112) -/

/-- The number that a completion granule holds. -/
def completionOf (status count spec : Nat) : Nat :=
  status % 4294967296 + 4294967296 * (count % 4294967296) + wordMod * (spec % wordMod)

/-- A state whose memory and full/empty bits are those of `s` with a completion granule written, and set full. -/
theorem completed_of {s u : State} {key status count spec : Nat} (hwf : Memory.wf s.mem = true)
    (hmem : u.mem = Memory.write s.mem key 16 (completionOf status count spec)) (hfull : u.full = setRun s.full (key / 16) true 1) :
    Completed s u key status count spec := by
  have hpart {i k : Nat} (h : i + k ≤ 16) :
      Memory.read u.mem (key + i) k = completionOf status count spec / 256 ^ i % 256 ^ k := by
    rw [hmem, Memory.read_write_part hwf _ _ h]
  refine ⟨?_, ?_, ?_, ?_, fun a ha => ?_⟩
  · rw [← Nat.add_zero key, hpart (by omega)]; simp only [completionOf, wordMod]; omega
  · rw [hpart (by omega)]; simp only [completionOf, wordMod]; omega
  · rw [hpart (by omega)]; simp only [completionOf, wordMod]; omega
  · rw [isFull, hfull]; exact memb_addMem_self _ _
  · rw [hmem, Memory.get_write_outside _ hwf ha]

/-- An engine writes a granule where it may complete: the bytes, their bit, and what its die has seen. -/
theorem engWrite_granule {s : State} {e : Eng} {cadr : Word} {v : View} (h : MayComplete s e cadr v) (x : Nat) :
    ∃ w, engWrite s e cadr 16 x = .ok w ∧ w.mem = Memory.write s.mem v.key 16 x ∧ w.full = setRun s.full (v.key / 16) true 1 ∧
      w.cores = s.cores := by
  obtain ⟨-, halign, home, hview⟩ := h
  have hone : (v.key % 16 + 16 + 15) / 16 = 1 := by omega
  refine ⟨_, by rw [engWrite, hview], ?_⟩
  simp only [hone, engNote]
  rw [noteWrite_only]
  exact ⟨rfl, rfl, rfl⟩

/-- A completion that tells of no refusal is the write of its granule, and with T and a failure a notice. -/
theorem engComplete_written {s w : State} {e : Eng} {cadr : Word} {status count spec : Nat}
    (h : engWrite s e cadr 16 (completionOf status count spec) = .ok w) (t : Bool) :
    engComplete s e cadr t status count spec none =
      .ok (if t && status == stENGERR then raiseNotice w e.who.core e.who.ctx fENGERR cadr else w) := by
  simp only [completionOf] at h
  simp only [engComplete, engTell, h]

/-- An engine that has met no refusal writes its completion where it may; the rest changes neither memory nor Mills. -/
theorem engComplete_of {s : State} {e : Eng} {cadr : Word} {v : View} (h : MayComplete s e cadr v) (t : Bool) (status count spec : Nat) :
    ∃ u, engComplete s e cadr t status count spec none = .ok u ∧ Completed s u v.key status count spec ∧
      ∀ k, (coreAt u k).mill = (coreAt s k).mill := by
  obtain ⟨w, hwrite, hmem, hfull, hcores⟩ := engWrite_granule h (completionOf status count spec)
  have hkeeps : KeepsMills w (if t && status == stENGERR then raiseNotice w e.who.core e.who.ctx fENGERR cadr else w) := by
    split
    · exact keepsMills_raiseNotice ..
    · exact .refl _
  exact ⟨_, engComplete_written hwrite t, completed_of h.1 (hkeeps.mem.trans hmem) (hkeeps.full.trans hfull),
    fun k => (hkeeps.mill k).trans (by rw [coreAt_congr hcores])⟩

/-! ### A Mill's share of a command (R139, R142, R143, R148) -/

/-- What every outcome of a Mill's share keeps: the inbox, and, where the command only `reads`, the state; a failure halts the Mill. -/
structure ShareKeeps (s : State) (m : Mill) (reads : Prop) (o : MillOut) : Prop where
  halts : o.status = stENGERR ∨ o.status = stLOST → o.mill.halted = true
  inbox : o.mill.inbox = m.inbox
  state : reads → o.s = s

theorem millSpoil_inbox (m : Mill) (op a : Nat) : (millSpoil m op a).inbox = m.inbox := by unfold millSpoil; dsimp only; split <;> rfl
theorem millSpoil_alien (m : Mill) (op a : Nat) : (millSpoil m op a).alien = m.alien := by unfold millSpoil; dsimp only; split <;> rfl

theorem millFail_mill (s : State) (m : Mill) (op a count : Nat) (f : EFail ⊕ Nat) :
    (millFail s m op a count f).mill = { millSpoil m op a with halted := true } := by unfold millFail; split <;> rfl

theorem millFail_state (s : State) (m : Mill) (op a count : Nat) (f : EFail ⊕ Nat) : (millFail s m op a count f).s = s := by
  unfold millFail; split <;> rfl

/-- A failure halts its Mill; with the state and the inbox that the command had. -/
theorem ShareKeeps.of_fail {s t : State} {m m' : Mill} {reads : Prop} (hinbox : m'.inbox = m.inbox) (hstate : reads → t = s)
    (op a count : Nat) (f : EFail ⊕ Nat) : ShareKeeps s m reads (millFail t m' op a count f) where
  halts _ := by rw [millFail_mill]
  inbox := by rw [millFail_mill]; exact (millSpoil_inbox ..).trans hinbox
  state h := (millFail_state ..).trans (hstate h)

/-- An outcome that is no failure. -/
theorem ShareKeeps.of_done {s t : State} {m m' : Mill} {reads : Prop} (hinbox : m'.inbox = m.inbox) (hstate : reads → t = s)
    {status : Nat} (hgood : status ≠ stENGERR ∧ status ≠ stLOST) (count : Nat) :
    ShareKeeps s m reads ⟨t, m', status, count, 0, none⟩ where
  halts h := absurd h (not_or.mpr hgood)
  inbox := hinbox
  state := hstate

section
variable {s : State} {e : Eng} {m : Mill} {c : MillCmd} {o : MillOut}

theorem doMload_keeps {cols : List Nat} (h : doMload s e m c cols = .ok o) : ShareKeeps s m True o := by
  unfold doMload at h
  split at h
  · cases h
  · dsimp only at h
    obtain ⟨-, hfail⟩ | ⟨-, hreads⟩ := ite_eq_iff.mp h
    · cases hfail; exact .of_fail (by rfl) (fun _ => rfl) ..
    · obtain ⟨-, hwait⟩ | ⟨-, hrows⟩ := ite_eq_iff.mp hreads
      · cases hwait
      · split at hrows
        · cases hrows; exact .of_fail (by rfl) (fun _ => rfl) ..
        · cases hrows; exact .of_done (by rfl) (fun _ => rfl) (by decide) _

theorem doMstrm_keeps {rows : List Nat} (h : doMstrm s e m c rows = .ok o) : ShareKeeps s m True o := by
  unfold doMstrm at h
  split at h
  · cases h
  · dsimp only at h
    obtain ⟨-, hfail⟩ | ⟨-, hgood⟩ := ite_eq_iff.mp h
    · cases hfail; exact .of_fail (by rfl) (fun _ => rfl) ..
    · obtain ⟨-, hoff⟩ | ⟨-, hreads⟩ := ite_eq_iff.mp hgood
      · cases hoff; exact .of_done (by rfl) (fun _ => rfl) (by decide) _
      · obtain ⟨-, hwait⟩ | ⟨-, hrows⟩ := ite_eq_iff.mp hreads
        · cases hwait
        · split at hrows
          · cases hrows; exact .of_fail (by rfl) (fun _ => rfl) ..
          · cases hrows; exact .of_done (by rfl) (fun _ => rfl) (by decide) _

theorem doMdrain_keeps {row col : Nat} (h : doMdrain s e m c row col = .ok o) : ShareKeeps s m False o := by
  unfold doMdrain at h
  split at h
  · cases h
  · dsimp only at h
    obtain ⟨-, hfail⟩ | ⟨-, hgood⟩ := ite_eq_iff.mp h
    · cases hfail; exact .of_fail rfl False.elim ..
    · obtain ⟨-, hoff⟩ | ⟨-, hwrites⟩ := ite_eq_iff.mp hgood
      · cases hoff; exact .of_done rfl False.elim (by decide) _
      · obtain ⟨-, hwait⟩ | ⟨-, hrows⟩ := ite_eq_iff.mp hwrites
        · cases hwait
        · split at hrows
          · cases hrows; exact .of_fail rfl False.elim ..
          · cases hrows; exact .of_done (by split <;> rfl) False.elim (by decide) _

/-- Is the command the MCLR with R that a halted Mill and one from an alien image execute? -/
def MillCmd.resets (c : MillCmd) : Prop := c.fn.toNat % 16 = 4 ∧ c.fn.getLsbD 6 = true

theorem MillCmd.resets_iff (c : MillCmd) : (c.fn.toNat % 16 == 4 && c.fn.getLsbD 6) = true ↔ c.resets := by simp [MillCmd.resets]

/-- R148: the first command after an image of another version was restored fails. -/
theorem millShare_alien (ha : m.alien = true) (hc : ¬c.resets) (qr qc : Nat) :
    millShare s e m c qr qc = .ok (millFail s { m with alien := false } (c.fn.toNat % 16) (c.c % 4) 0 (.inr 8)) := by
  rw [← MillCmd.resets_iff, Bool.not_eq_true] at hc
  simp only [millShare, ha, hc, Bool.not_false, Bool.and_true, if_true]

/-- R143: a halted Mill answers HALTED. -/
theorem millShare_halted (ha : m.alien = false) (hh : m.halted = true) (hc : ¬c.resets) (qr qc : Nat) :
    millShare s e m c qr qc = .ok ⟨s, m, stHALTED, 0, 0, none⟩ := by
  rw [← MillCmd.resets_iff, Bool.not_eq_true] at hc
  simp only [millShare, ha, hh, hc, Bool.not_false, Bool.and_true, Bool.false_eq_true, if_false, if_true]

/-- May the Mill execute the command: it is neither halted nor from an alien image, or the command ends both? -/
def MillCmd.goesOn (c : MillCmd) (m : Mill) : Prop := m.halted = true ∨ m.alien = true → c.resets

/-- What a Mill does with a command that it may execute. -/
theorem millShare_goesOn (h : c.goesOn m) (qr qc : Nat) :
    let run (lo : Nat) : List Nat := if c.gang.isSome then (List.range 32).map fun i => 32 * lo + i else List.range (mapT1 c.map)
    millShare s e m c qr qc = match c.fn.toNat % 16 with
      | 0 => doMload s e m c (run qc)
      | 1 => .ok ⟨s, { m with
          active := m.shadow
          shadow := m.active }, stOK, 0, 0, none⟩
      | 2 => doMstrm s e m c (run qr)
      | 3 => doMdrain s e m c (if c.gang.isSome then 32 * qr else 0) (if c.gang.isSome then 32 * qc else 0)
      | _ => .ok ⟨s, { m with
          acc := clearAcc m.acc (c.c % 4)
          bad := m.bad.filter fun a => a != c.c % 4
          halted := false
          alien := false }, stOK, 0, 0, none⟩ := by
  have hskip {b : Bool} (hb : b = true → c.resets) : (b && !(c.fn.toNat % 16 == 4 && c.fn.getLsbD 6)) = false := by
    cases b with
    | false => rfl
    | true => rw [(MillCmd.resets_iff c).mpr (hb rfl)]; rfl
  simp only [millShare]
  rw [if_neg (by rw [hskip fun hb => h (.inr hb)]; decide), if_neg (by rw [hskip fun hb => h (.inl hb)]; decide)] <;> rfl

theorem millShare_keeps {qr qc : Nat} (h : millShare s e m c qr qc = .ok o) :
    ShareKeeps s m (c.fn.toNat % 16 = 0 ∨ c.fn.toNat % 16 = 2) o := by
  by_cases hgo : c.goesOn m
  · rw [millShare_goesOn hgo] at h
    split at h
    · exact ⟨(doMload_keeps h).halts, (doMload_keeps h).inbox, fun _ => (doMload_keeps h).state trivial⟩
    · cases h; exact .of_done (by rfl) (fun _ => rfl) (by decide) _
    · exact ⟨(doMstrm_keeps h).halts, (doMstrm_keeps h).inbox, fun _ => (doMstrm_keeps h).state trivial⟩
    · exact ⟨(doMdrain_keeps h).halts, (doMdrain_keeps h).inbox, by omega⟩
    · cases h; exact .of_done (by rfl) (fun _ => rfl) (by decide) _
  · obtain ⟨hstuck, hc⟩ := Classical.not_imp.mp hgo
    cases ha : m.alien with
    | true => rw [millShare_alien ha hc] at h; cases h; exact .of_fail (by rfl) (fun _ => rfl) ..
    | false =>
      rw [millShare_halted ha (by simpa [ha] using hstuck) hc] at h
      cases h
      exact .of_done (by rfl) (fun _ => rfl) (by decide) _

/-- MCLR leaves nothing but +0 in its accumulator. -/
theorem look_clearAcc (l : List (Nat × BitVec 32)) {a x : Nat} (hlow : 4096 * a ≤ x) (hhigh : x < 4096 * a + 4096) :
    look (0 : BitVec 32) (clearAcc l a) x = 0 := by
  induction l with
  | nil => rfl
  | cons p l ih =>
    rw [clearAcc, List.filter_cons]
    split
    · next hp =>
      have hne : p.1 ≠ x := by rintro rfl; simp at hp; omega
      rw [look, if_neg hne]
      exact ih
    · exact ih

theorem accAt_clearAcc (m : Mill) {a r x : Nat} (hr : r < 128) (hx : x < 32) : accAt { m with acc := clearAcc m.acc a } a r x = 0 := by
  rw [accAt, look_clearAcc _ (by omega) (by omega)]; rfl

end

/-! ### The step of a Mill (R142, R144) -/

section
variable {s : State} {n : Nat} {c : MillCmd} {rest : List MillCmd}

theorem millStep_idle (h : (coreAt s n).mill.inbox = [] ∨ engRuns s n = false) : millStep s n = s := by
  unfold millStep
  split
  · rfl
  · next hr => rw [h.resolve_right (by simpa using hr)]

/-- A gang command waits for a Mill of the quad whose oldest command is not it. -/
theorem millStep_waits (hin : (coreAt s n).mill.inbox = c :: rest) (hgang : c.gang.isSome = true) {k : Nat} (hk : k ∈ quadCores n)
    (hne : k ≠ n) (hother : ∀ x, (coreAt s k).mill.inbox.head? = some x → x.gang ≠ c.gang) : millStep s n = s := by
  have hwait : (quadCores n).all (fun k => !(coreAt s k).saved &&
      ((coreAt s k).mill.inbox.head?).any fun x => k == n || x.gang == c.gang) = false := by
    rw [List.all_eq_false]
    refine ⟨k, hk, ?_⟩
    cases hhead : (coreAt s k).mill.inbox.head? with
    | none => simp
    | some x => simp [hne, hother x hhead]
  unfold millStep
  split
  · rfl
  · simp only [hin, hgang, if_true, hwait]; rfl

/-- A single Mill's command: its share, its end in the inbox, its completion and the wakes. -/
theorem millStep_alone {o : MillOut} (hin : (coreAt s n).mill.inbox = c :: rest) (hgang : c.gang = none) (hruns : engRuns s n = true)
    (hshare : millShare s (engOf c.core c.ctx c.part c.supr c.vec) (coreAt s n).mill c (rowOf n % 2) (colOf n % 2) = .ok o)
    (hbad : o.bad = none) {u : State}
    (hdone : engComplete (setCore o.s n { coreAt o.s n with mill := { o.mill with inbox := o.mill.inbox.drop 1 } })
      (engOf c.core c.ctx c.part c.supr c.vec) c.cadr c.t o.status o.count (if o.status = stENGERR then o.code else 0) none = .ok u) :
    millStep s n = (quadCores n).foldl (fun t k => wakeAll t k .unit) u := by
  have hsaved : (coreAt s n).saved = false := by
    rw [engRuns, engUpTo] at hruns
    simp only [Bool.and_eq_true, Bool.not_eq_true'] at hruns
    exact hruns.1.1.2
  have htells : refusedBad [o] = none := by rw [refusedBad, List.findSome?_cons, hbad]; rfl
  have hlost (t : State) (e : Eng) : tellLost t e [o] = t := by rw [tellLost, List.foldl_cons, hbad]; rfl
  have hready : ([n].all fun k => !(coreAt s k).saved && ((coreAt s k).mill.inbox.head?).any fun x => k == n || x.gang == c.gang) = true := by
    simp [hin, hsaved]
  unfold millStep
  rw [hruns]
  simp only [hin, hgang, Option.isSome_none] at hready ⊢
  simp only [hready, millShares, hshare, worstOut, hlost, htells, List.nil_append, List.foldl_nil, hdone, Bool.not_true,
    Bool.false_eq_true, if_false]

end

/-- Settles O32: a Mill's share of a command goes by cases of the Mill and the command (`millShare_alien`, `millShare_halted`,
`millShare_goesOn`), every one of which keeps what `ShareKeeps` names; the completion is one write after it. -/
theorem millExecutes : Obligations.MillExecutes := by
  intro s n c rest o v m e i op share t
  have hstep : exec i s = .next (millStep s n) := rfl
  refine ⟨fun h => by rw [hstep, millStep_idle h], ?_, fun hin hgang hruns => ⟨?_, ?_, ?_, ?_, ?_, ?_, ?_, ?_⟩⟩
  · rintro hin hgang ⟨k, hk, hne, hother⟩
    rw [hstep, millStep_waits hin hgang hk hne hother]
  · intro hshare hbad hmay
    obtain ⟨u, hu, hdone, hmill⟩ := engComplete_of hmay c.t o.status o.count (if o.status = stENGERR then o.code else 0)
    have hkeeps := keepsMills_wakes .unit (quadCores n) u
    refine ⟨_, by rw [hstep, millStep_alone hin hgang hruns hshare hbad hu], ?_, ?_⟩
    · rw [hkeeps.mill, hmill, coreAt_setCore_same]
    · obtain ⟨h0, h4, h8, hfull, hother⟩ := hdone
      rw [← hkeeps.mem] at h0 h4 h8
      exact ⟨h0, h4, h8, by rw [isFull, hkeeps.full]; exact hfull, fun a ha => by rw [hkeeps.mem]; exact hother a ha⟩
  · intro ha hc
    exact ⟨_, millShare_alien ha hc _ _, rfl, rfl, rfl, rfl, millSpoil_alien ..⟩
  · exact fun ha hh hc => millShare_halted ha hh hc _ _
  · intro ha hh hop
    have hgo : c.goesOn m := by simp [MillCmd.goesOn, ha, hh]
    simp only [share, millShare_goesOn hgo, show c.fn.toNat % 16 = 1 from hop]
  · intro hop hreset
    have hgo : c.goesOn m := fun h => ⟨hop, hreset h⟩
    refine ⟨clearAcc m.acc (c.c % 4), _, ?_, rfl, fun r x hr hx => accAt_clearAcc m hr hx⟩
    simp only [share, millShare_goesOn hgo, show c.fn.toNat % 16 = 4 from hop]
  · exact fun h => (millShare_keeps h).halts
  · exact fun h => (millShare_keeps h).inbox
  · exact fun h => (millShare_keeps h).state

end Sys2Proof.Machine
/-! ## Mailboxes and the Crier instructions (R153-R155, R163-R165, R276) -/

namespace Sys2Proof.Machine

/-! ### Mailboxes at their home -/

@[simp] theorem mbInsert_length (k : Nat) (l : List MbEntry) (e : MbEntry) : (mbInsert k l e).length = min k (l.length + 1) := by
  have hsplit := congrArg List.length (List.takeWhile_append_dropWhile (p := fun x => mbBefore x e.prio) (l := l))
  rw [List.length_append] at hsplit
  rw [mbInsert, List.length_take, List.length_append, List.length_cons, ← Nat.add_assoc, hsplit]

/-- A mailbox with room keeps the entry. -/
theorem mem_mbInsert {k : Nat} {l : List MbEntry} (e : MbEntry) (h : l.length < k) : e ∈ mbInsert k l e := by
  have hall : mbInsert k l e = (l.takeWhile fun x => mbBefore x e.prio) ++ e :: l.dropWhile fun x => mbBefore x e.prio := by
    rw [mbInsert, List.take_of_length_le]
    have hsplit := congrArg List.length (List.takeWhile_append_dropWhile (p := fun x => mbBefore x e.prio) (l := l))
    rw [List.length_append] at hsplit
    rw [List.length_append, List.length_cons]
    omega
  rw [hall]
  exact List.mem_append_right _ List.mem_cons_self

/-- An entry goes behind those of its priority or a higher one, before the first of a lower one. -/
theorem mbInsert_append {e : MbEntry} {hi lo : List MbEntry} (k : Nat) (hhi : ∀ y ∈ hi, mbBefore y e.prio = true)
    (hlo : ∀ y, lo.head? = some y → mbBefore y e.prio = false) : mbInsert k (hi ++ lo) e = (hi ++ e :: lo).take k := by
  have hnone : (lo.takeWhile fun x => mbBefore x e.prio) = [] ∧ (lo.dropWhile fun x => mbBefore x e.prio) = lo := by
    cases lo with
    | nil => exact ⟨rfl, rfl⟩
    | cons y ys => simp [hlo y rfl]
  rw [mbInsert, List.takeWhile_append_of_pos hhi, List.dropWhile_append_of_pos hhi, hnone.1, hnone.2, List.append_nil]

/-- The index of a mailbox by its place. -/
theorem mailbox_index (i : Nat) : (0x418000 + 16 * i - 0x418000) / 16 = i := by omega

section
variable {s : State} {a : Access} {n i : Nat}

theorem applyOp_mbput_none (hop : a.op = .mbput) (hi : mbCount (coreAt s n).mbcfg ≤ i) (stamp : Vec16) :
    applyOp s a stamp (.ctl n (0x418000 + 16 * i)) = okWord s a 0 := by
  simp only [applyOp, hop, applyMbput, mailbox_index]
  rw [if_pos hi]

theorem applyOp_mbput (hop : a.op = .mbput) (hi : i < mbCount (coreAt s n).mbcfg) (stamp : Vec16) :
    let k := coreAt s n
    let e : MbEntry := ⟨a.val.setWidth 64, a.val2.setWidth 32, (a.val2 >>> 32).setWidth 32⟩
    applyOp s a stamp (.ctl n (0x418000 + 16 * i)) =
      okWord (setCore s n { k with mboxes := upd k.mboxes i (mbInsert (mbDepth k.mbcfg) (look [] k.mboxes i) e) }) a 0 := by
  simp only [applyOp, hop, applyMbput, mailbox_index]
  rw [if_neg (Nat.not_le.mpr hi)]

/-- MBTAKE finds a mailbox that does not exist empty. -/
theorem applyOp_mbtake_none (hop : a.op = .mbtake) (hi : mbCount (coreAt s n).mbcfg ≤ i ∨ look [] (coreAt s n).mboxes i = [])
    (stamp : Vec16) : applyOp s a stamp (.ctl n (0x418000 + 16 * i)) = okWord s a (0xFFFFFFFF00000000 * wordMod) := by
  have hnone : (if mbCount (coreAt s n).mbcfg ≤ i then [] else look [] (coreAt s n).mboxes i) = [] := by
    rcases hi with hi | hl
    · exact if_pos hi
    · rw [hl, ite_self]
  simp only [applyOp, hop, applyMbtake, mailbox_index, hnone]

theorem applyOp_mbtake (hop : a.op = .mbtake) (hi : i < mbCount (coreAt s n).mbcfg) (stamp : Vec16) {e : MbEntry} {r : List MbEntry}
    (hl : look [] (coreAt s n).mboxes i = e :: r) : applyOp s a stamp (.ctl n (0x418000 + 16 * i)) =
      okWord (setCore s n { coreAt s n with mboxes := upd (coreAt s n).mboxes i r }) a
        (e.val.toNat + wordMod * (e.tag.toNat + 4294967296 * e.prio.toNat)) := by
  simp only [applyOp, hop, applyMbtake, mailbox_index, if_neg (Nat.not_le.mpr hi), hl]

end

/-! ### The end of an instruction -/

/-- An instruction of four bytes ends in a state in which its context is `c`, still at the instruction: the context goes on, and no
other part of the machine changes. -/
structure Ends (s u r : State) (c : Ctx) (st : Stall) : Prop where
  cur : r.cur = u.cur
  mem : r.mem = u.mem
  full : r.full = u.full
  flight : r.flight = u.flight
  pkgs : r.pkgs = u.pkgs
  others : OthersSame s r
  went : WentOn s r st 4
  me : me r = { c with
    pc := (me r).pc
    loops := (me r).loops
    stall := (me r).stall }
  core : ∀ n, coreAt r n = { coreAt u n with ctxs := (coreAt r n).ctxs }

theorem core_setMe (u : State) (t : Ctx) (n : Nat) : coreAt (setMe u t) n = { coreAt u n with ctxs := (coreAt (setMe u t) n).ctxs } := by
  rw [setMe, setCtx]
  by_cases hn : n = u.cur.core
  · rw [hn, coreAt_setCore_same]
  · rw [coreAt_setCore_other _ _ hn]

theorem done_ends {s u : State} {c : Ctx} (hcur : u.cur = s.cur) (hme : me u = c) (hpc : c.pc = (me s).pc)
    (hloops : c.loops = (me s).loops) (hcycle : (myCore u).cycle = (myCore s).cycle) (hothers : OthersSame s u) (st : Stall) :
    ∃ r, done st 4 u = .next r ∧ Ends s u r c st := by
  subst hme
  refine ⟨advance u st 4, rfl, rfl, rfl, rfl, rfl, rfl, others_setMe _ _ _ hcur hothers, ?_, ?_, core_setMe u _⟩
  · rw [WentOn, advance, jumpTo, me_setMe, hcycle, ← hpc, ← hloops]
    exact ⟨rfl, rfl, rfl⟩
  · rw [advance, jumpTo, me_setMe]
    rfl

/-! ### Messages of the Crier -/

/-- Setting the running context leaves every core's partition. -/
theorem partNum_setMe (s : State) (t : Ctx) (n : Nat) : partNum (setMe s t) n = partNum s n := by
  rw [partNum, partNum, core_setMe]
  rfl

/-- `t` is `s` but for the running context's reply slots, which are `l`, and for what the statements about the Crier leave open. -/
structure HoldsSlots (s t : State) (l : List RSlot) : Prop where
  cur : t.cur = s.cur
  mem : t.mem = s.mem
  full : t.full = s.full
  flight : t.flight = s.flight
  pkgs : t.pkgs = s.pkgs
  others : OthersSame s t
  me : me t = { me s with rslots := l }
  cycle : (myCore t).cycle = (myCore s).cycle
  part : partNum t s.cur.core = partNum s s.cur.core

theorem holdsSlots_refl (s : State) : HoldsSlots s s (me s).rslots := ⟨rfl, rfl, rfl, rfl, rfl, fun _ _ _ => rfl, rfl, rfl, rfl⟩

/-- A message takes a number and a reply slot. -/
theorem holdsSlots_next (s : State) (l : List RSlot) :
    HoldsSlots s (setMe { s with serial := s.serial + 1 } { me s with rslots := l }) l where
  cur := rfl
  mem := rfl
  full := rfl
  flight := rfl
  pkgs := rfl
  others := others_setMe s { s with serial := s.serial + 1 } _ rfl fun _ _ _ => rfl
  me := me_setMe ..
  cycle := myCore_setMe_cycle ..
  part := partNum_setMe ..

/-- What a queued message comes to: it stands last in its package's queue, its sender goes on, and nothing else is changed but the
sender's reply slots. -/
theorem done_queueCrier {s s1 : State} {l : List RSlot} (h : HoldsSlots s s1 l) (st : Stall) (kind poff : Nat) (v : Word)
    (acc : Option Access) (vec : Vec16) : ∃ t q, done st 4 (queueCrier s1 kind poff v acc vec) = .next t ∧ t.mem = s.mem ∧
      t.full = s.full ∧ t.flight = s.flight ∧ OthersSame s t ∧ WentOn s t st 4 ∧
      (pkgAt t (pkgOf s.cur.core)).queue = (pkgAt s (pkgOf s.cur.core)).queue ++ [q] ∧ q.kind = kind ∧ q.poff = poff ∧ q.val = v ∧
      q.core = s.cur.core ∧ q.part = partNum s s.cur.core ∧ (me t).x = (me s).x ∧ q.acc = acc ∧ (me t).rslots = l := by
  let u := queueCrier s1 kind poff v acc vec
  have hme : me u = { me s with rslots := l } := h.me
  have hcycle : (myCore u).cycle = (myCore s).cycle := h.cycle
  have hqueue : ∃ q : CMsg, (pkgAt u (pkgOf s1.cur.core)).queue = (pkgAt s1 (pkgOf s1.cur.core)).queue ++ [q] ∧ q.kind = kind ∧
      q.poff = poff ∧ q.val = v ∧ q.core = s1.cur.core ∧ q.part = partNum s1 s1.cur.core ∧ q.acc = acc :=
    ⟨_, by simp only [u, queueCrier, crierMsg, pkgAt_setPkg_same]; rfl, rfl, rfl, rfl, rfl, rfl, rfl⟩
  have hpkg (p : Nat) : pkgAt s1 p = pkgAt s p := by rw [pkgAt, h.pkgs, pkgAt]
  obtain ⟨q, hq, hkind, hpoff, hval, hcore, hpart, hacc⟩ := hqueue
  rw [h.cur, hpkg] at hq
  rw [h.cur] at hcore hpart
  obtain ⟨t, ht, hends⟩ := done_ends (s := s) (u := u) h.cur hme rfl rfl hcycle h.others st
  refine ⟨t, q, ht, hends.mem.trans h.mem, hends.full.trans h.full, hends.flight.trans h.flight, hends.others, hends.went, ?_, hkind,
    hpoff, hval, hcore, hpart.trans h.part, by rw [hends.me], hacc, by rw [hends.me]⟩
  rw [pkgAt, hends.pkgs]
  exact hq

theorem withShare_room {s : State} (h : shareFull s (pkgOf s.cur.core) (partNum s s.cur.core) = false) (f : State → Out) :
    withShare s f = f s := by rw [withShare, h]; rfl

theorem withShare_full {s : State} (h : shareFull s (pkgOf s.cur.core) (partNum s s.cur.core) = true) (f : State → Out) :
    withShare s f = .next (parkHere s .crier) := by rw [withShare, h]; rfl

theorem releasing_of {s : State} (h : mayRelease s = true) (f : State → Out) : releasing s f = f s := if_pos h

theorem slotsFull_of {t : Ctx} (h : t.rslots.length < 12) : ¬slotsFull t = true := by simp [slotsFull]; omega

theorem crierAsk_full {s : State} (hslots : (me s).rslots.length < 12)
    (h : shareFull s (pkgOf s.cur.core) (partNum s s.cur.core) = true) (st : Stall) (kind : Nat) (d : Reg) (adr v : Word) (vec : Vec16) :
    crierAsk s st kind d adr v vec = .next (parkHere s .crier) := by
  rw [crierAsk, if_neg (slotsFull_of hslots), withShare_full h]

theorem crierAsk_room {s : State} (hslots : (me s).rslots.length < 12)
    (h : shareFull s (pkgOf s.cur.core) (partNum s s.cur.core) = false) (st : Stall) (kind : Nat) (d : Reg) (adr v : Word) (vec : Vec16) :
    let a := { newAccess s (.load .plain 8) adr 4 with dest := xCode d }
    crierAsk s st kind d adr v vec = done st 4 (queueCrier (setMe { s with serial := s.serial + 1 }
      { me s with rslots := (me s).rslots ++ [⟨a.num, a.dest, noCode, 4, adr, false, 0, 0, 1, none⟩] }) kind (bitsOf adr 0 16) v
        (some a) vec) := by
  rw [crierAsk, if_neg (slotsFull_of hslots), withShare_room h]

/-! ### The checks of a mirror address (R165) -/

theorem mirrorFault_ok {a : Word} (hspace : bitsOf a 62 2 = 3) (hpod : bitsOf a 58 4 ≠ 0) (hmbz : mbzOk a = true)
    (halign : a.toNat % 8 = 0) :
    mirrorFault a = 0 := by simp [mirrorFault, hspace, hpod, hmbz, halign]

theorem mirrorFault_protect {a : Word} (h : bitsOf a 62 2 ≠ 3 ∨ bitsOf a 58 4 = 0) : mirrorFault a = fPROTECT := if_pos h

theorem mirrorFault_resfield {a : Word} (hspace : bitsOf a 62 2 = 3) (hpod : bitsOf a 58 4 ≠ 0) (hmbz : mbzOk a = false) :
    mirrorFault a = fRESFIELD := by simp [mirrorFault, hspace, hpod, hmbz]

theorem mirrorFault_misalign {a : Word} (hspace : bitsOf a 62 2 = 3) (hpod : bitsOf a 58 4 ≠ 0) (hmbz : mbzOk a = true)
    (halign : a.toNat % 8 ≠ 0) : mirrorFault a = fMISALIGN := by simp [mirrorFault, hspace, hpod, hmbz, halign]

section
variable {s : State} {a : Reg} {code : Nat}

theorem crySt_refused (h : mirrorFault (xr s a) = code) (hcode : code ≠ 0) (st : Stall) (b : Reg) :
    TakesSup (.crySt st a b) s code (xr s a) := by subst h; exact if_pos hcode

theorem cryAdd_refused (h : mirrorFault (xr s a) = code) (hcode : code ≠ 0) (st : Stall) (d b : Reg) :
    TakesSup (.cryAdd st d a b) s code (xr s a) := by subst h; exact if_pos hcode

theorem crySt_ok (h : mirrorFault (xr s a) = 0) (hrel : mayRelease s = true) (st : Stall) (b : Reg) :
    exec (.crySt st a b) s =
      withShare s fun s' => done st 4 (queueCrier s' 0 (bitsOf (xr s a) 0 16) (xr s' b) none (releaseVec s')) := by
  show execCrySt st a b s = _
  rw [execCrySt, if_neg (by rw [h]; decide), releasing_of hrel]

theorem cryAdd_ok (h : mirrorFault (xr s a) = 0) (hrel : mayRelease s = true) (st : Stall) (d b : Reg) :
    exec (.cryAdd st d a b) s = crierAsk s st 1 d (xr s a) (xr s b) (releaseVec s) := by
  show execCryAdd st d a b s = _
  rw [execCryAdd, if_neg (by rw [h]; decide), releasing_of hrel]

end

/-- Settles O38: the mailboxes by what their home does with the list of entries (`mbInsert_append`), the Crier instructions by the
message that they queue (`done_queueCrier`). -/
theorem mailboxesAndCrier : Obligations.MailboxesAndCrier := by
  constructor
  · intro s st x a n i stamp l e k p code put depth empty
    refine ⟨fun hcode => if_pos hcode, fun hcode => ?_, fun hop hi => ⟨_, applyOp_mbput_none hop hi stamp⟩, ?_,
      fun hop hempty => ⟨_, applyOp_mbtake_none hop hempty stamp, rfl⟩, ?_⟩
    · have hexec : exec (.mbcfg st x) s = done st 4 (setMyCore s { myCore s with mbcfg := code, mboxes := [] }) :=
        if_neg (Nat.not_lt.mpr hcode)
      obtain ⟨t, ht, hmem, hfull, hflight, hothers, hwent, his, -⟩ :=
        setsCore_of (is := fun c => c.mbcfg = code ∧ c.mboxes = []) hexec rfl rfl fun _ => ⟨rfl, rfl⟩
      exact ⟨t, ht, hmem, hfull, hflight, hothers, hwent, his.1, his.2⟩
    · intro hop hi hl he hlen
      subst he hl
      refine ⟨_, _, applyOp_mbput hop hi stamp, rfl, ?_⟩
      rw [coreAt_setCore_same, look_upd_same]
      refine ⟨fun hroom => ⟨mem_mbInsert _ hroom, ?_⟩, ?_, fun hi lo hsplit hhi hlo => ?_⟩
      · rw [mbInsert_length]
        exact Nat.min_eq_right hroom
      · rw [mbInsert_length]
        exact Nat.min_le_left ..
      · rw [show look [] (coreAt s n).mboxes i = hi ++ lo from hsplit]
        exact mbInsert_append _ hhi hlo
    · intro hop hi hl
      refine ⟨_, _, applyOp_mbtake hop hi stamp hl, ?_, rfl⟩
      rw [coreAt_setCore_same, look_upd_same]
  · intro s st d a b n adr k full ok st8 add mark queues
    have hok (h : ok) : mirrorFault adr = 0 := by
      obtain ⟨hspace, hpod, hmbz, halign⟩ := h
      exact mirrorFault_ok hspace hpod hmbz halign
    have hasks {i : Instr} {kind : Nat} {x v : Word} {vec : Vec16} (hslots : (me s).rslots.length < 12) (hroom : full = false)
        (h : exec i s = crierAsk s st kind d x v vec) : queues i kind (bitsOf x 0 16) v true := by
      obtain ⟨t, q, hdone, hmem, hfull, hflight, hothers, hwent, hqueue, hkind, hpoff, hval, hcore, hpart, hx, hacc, hl⟩ :=
        done_queueCrier (holdsSlots_next s _) st kind (bitsOf x 0 16) v _ vec
      exact ⟨t, q, (h.trans (crierAsk_room hslots hroom ..)).trans hdone, hmem, hfull, hflight, hothers, hwent, hqueue, hkind, hpoff,
        hval, hcore, hpart, hx, nofun, fun _ => ⟨_, _, hacc, rfl, hl, rfl, rfl⟩⟩
    refine ⟨fun h hrel hroom => ?_, fun h hrel hroom hslots => hasks hslots hroom (cryAdd_ok (hok h) hrel ..),
      fun hslots hroom => hasks (i := mark) (kind := 2) (x := 0) (v := 0) hslots hroom rfl, fun h hrel hfull => ?_,
      fun h hrel hslots hfull => ?_,
      fun hslots hfull => crierAsk_full hslots hfull .., fun h => ?_, fun hspace hpod hmbz => ?_, fun hspace hpod hmbz halign => ?_⟩
    · obtain ⟨t, q, hdone, hmem, hfull, hflight, hothers, hwent, hqueue, hkind, hpoff, hval, hcore, hpart, hx, hacc, hl⟩ :=
        done_queueCrier (holdsSlots_refl s) st 0 (bitsOf adr 0 16) (xr s b) none (releaseVec s)
      have hexec := (crySt_ok (hok h) hrel st b).trans (withShare_room hroom _)
      exact ⟨t, q, hexec.trans hdone, hmem, hfull, hflight, hothers, hwent, hqueue, hkind, hpoff, hval, hcore, hpart, hx,
        fun _ => ⟨hacc, hl⟩, nofun⟩
    · exact (crySt_ok (hok h) hrel st b).trans (withShare_full hfull _)
    · exact (cryAdd_ok (hok h) hrel st d b).trans (crierAsk_full hslots hfull ..)
    · exact ⟨crySt_refused (mirrorFault_protect h) (by decide) st b, cryAdd_refused (mirrorFault_protect h) (by decide) st d b⟩
    · have hfault := mirrorFault_resfield hspace hpod hmbz
      exact ⟨crySt_refused hfault (by decide) st b, cryAdd_refused hfault (by decide) st d b⟩
    · have hfault := mirrorFault_misalign hspace hpod hmbz halign
      exact ⟨crySt_refused hfault (by decide) st b, cryAdd_refused hfault (by decide) st d b⟩

end Sys2Proof.Machine
/-! ## Mill commands are queued (R135-R137, R144, R37) -/

namespace Sys2Proof.Machine

/-! ### Completion words -/

theorem cwordFault_false {w : Word} {acc : Bool} (h3 : w.getLsbD 3 = false) (hacc : acc = true ∨ cwAcc w = 0)
    (hpriv : isPrivAdr (cwAdr w) = false) : cwordFault w acc = false := by
  rcases hacc with rfl | hacc
  · rw [cwordFault, h3, hpriv]; rfl
  · rw [cwordFault, h3, hpriv, hacc]; simp

/-- A completion word that is at fault in itself is refused. -/
theorem cwordFault_true {w : Word} (h : w.getLsbD 3 = true ∨ cwAcc w ≠ 0 ∨ isPrivAdr (cwAdr w) = true) :
    cwordFault w false = true := by
  rcases h with h | h | h
  · rw [cwordFault, h]; rfl
  · rw [cwordFault, bne_iff_ne.mpr h]; simp
  · rw [cwordFault, h, Bool.or_true]

/-- The completion word in absolute form keeps T. -/
theorem cwT_cwordAbs {s : State} {w w' : Word} (h : cwordAbs s w = some w') : cwT w' = w.getLsbD 0 := by
  obtain ⟨a, -, rfl⟩ := Option.map_eq_some_iff.mp h
  simp [cwT]

/-! ### A command put into inboxes -/

/-- `t` differs from `s` at most in its cores' Mills. -/
structure MillsOnly (s t : State) : Prop where
  rest : t = { s with cores := t.cores }
  core : ∀ n, coreAt t n = { coreAt s n with mill := (coreAt t n).mill }

theorem MillsOnly.refl (s : State) : MillsOnly s s := ⟨rfl, fun _ => rfl⟩

theorem MillsOnly.trans {s t u : State} (h : MillsOnly s t) (h' : MillsOnly t u) : MillsOnly s u :=
  ⟨by rw [h'.rest, h.rest], fun n => by rw [h'.core, h.core]⟩

theorem MillsOnly.ctxAt {s t : State} (h : MillsOnly s t) (n c : Nat) : ctxAt t n c = ctxAt s n c := by
  rw [Machine.ctxAt, h.core, Machine.ctxAt]

theorem millsOnly_setCore (s : State) (n : Nat) (m : Mill) : MillsOnly s (setCore s n { coreAt s n with mill := m }) := by
  refine ⟨rfl, fun k => ?_⟩
  by_cases hk : k = n
  · rw [hk, coreAt_setCore_same]
  · rw [coreAt_setCore_other _ _ hk]

theorem millsOnly_pushMill (s : State) (cs : List Nat) (c : MillCmd) : MillsOnly s (pushMill s cs c) := by
  induction cs generalizing s with
  | nil => exact .refl s
  | cons n cs ih => exact (millsOnly_setCore s n _).trans (ih _)

theorem pushMill_other {s : State} {cs : List Nat} {n : Nat} (c : MillCmd) (h : n ∉ cs) :
    (coreAt (pushMill s cs c) n).mill = (coreAt s n).mill := by
  induction cs generalizing s with
  | nil => rfl
  | cons k cs ih =>
    obtain ⟨hk, hcs⟩ := not_or.mp (List.mem_cons.not.mp h)
    exact (ih hcs).trans (by rw [coreAt_setCore_other _ _ hk])

/-- Each of the cores named has the command last in its inbox. -/
theorem pushMill_mem {s : State} {cs : List Nat} {n : Nat} (c : MillCmd) (hnodup : cs.Nodup) (h : n ∈ cs) :
    (coreAt (pushMill s cs c) n).mill = { (coreAt s n).mill with inbox := (coreAt s n).mill.inbox ++ [c] } := by
  induction cs generalizing s with
  | nil => cases h
  | cons k cs ih =>
    obtain ⟨hk, hcs⟩ := List.nodup_cons.mp hnodup
    rw [pushMill, List.foldl_cons]
    rcases List.mem_cons.mp h with rfl | hmem
    · exact (pushMill_other c hk).trans (by rw [coreAt_setCore_same])
    · have hne : n ≠ k := by rintro rfl; exact hk hmem
      exact (ih hcs hmem).trans (by rw [coreAt_setCore_other _ _ hne])

theorem millTargets_nodup (n t : Nat) (g : Bool) : (millTargets n t g).Nodup := by
  cases g with
  | false => exact List.nodup_singleton _
  | true => simp [millTargets, quadCores]

/-! ### The issue of a Mill command -/

/-- fn of a Mill command: its operation, target, modifier and G (R144). -/
def millFn (op : BitVec 4) (g flag : Bool) (t : BitVec 2) : BitVec 8 :=
  op.setWidth 8 ||| (t.setWidth 8 <<< 4) ||| (if flag then 64 else 0) ||| (if g then 128 else 0)

theorem millFn_toNat (op : BitVec 4) (g flag : Bool) (t : BitVec 2) : (millFn op g flag t).toNat =
    op.toNat + 16 * t.toNat + (if flag then 64 else 0) + if g then 128 else 0 := by
  revert op g flag t
  decide +kernel

/-- The command that the running context issues. -/
def millCommand (s : State) (op : BitVec 4) (c : Nat) (g flag : Bool) (t : BitVec 2) (w' : Word) (m : BitVec 256) (o : BitVec 64) :
    MillCmd :=
  { fn := millFn op g flag t
    c := c
    core := s.cur.core
    ctx := s.cur.ctx
    t := cwT w'
    map := m
    org := o
    cadr := cwAdr w'
    gang := if g then some s.serial else none
    part := partNum s s.cur.core
    acc := 0
    job := (me s).job
    supr := suprNow s
    vec := releaseVec s }

/-- A command that its issue admits enters the inboxes, or waits for room. -/
def millEnter (s : State) (st : Stall) (cs : List Nat) (cmd : MillCmd) : Out :=
  if !millRoom s cs then .next (parkHere s .unit) else done st 4 (pushMill (fresh s).2 cs cmd)

section
variable {s : State} {b : Reg} {g : Bool} {t : BitVec 2} {w' : Word}

/-- A completion word and a target that R136 and R144 allow. -/
structure MillWord (s : State) (b : Reg) (g : Bool) (t : BitVec 2) (w' : Word) : Prop where
  good : cwordFault (xr s b) false = false
  gang : (g && t != 0) = false
  abs : cwordAbs s (xr s b) = some w'

theorem millIssue_tile (h : MillWord s b g t w') {a : TReg} {m : BitVec 256} (hpriv : mapPrivate ((me s).rtm a) = false)
    (hmap : resolveMap s s.cur.core ((me s).rtm a) ((me s).rorg a) = some m) (st : Stall) (op : BitVec 4) (c : Nat) (flag : Bool) :
    millIssue s st op c (some a) b g flag t = releasing s fun s' =>
      millEnter s' st (millTargets s.cur.core t.toNat g) (millCommand s' op c g flag t w' m ((me s).rorg a)) := by
  have hgo : ¬(cwordFault (xr s b) false || (g && t != 0) || ((some a).isSome && mapPrivate ((me s).rtm a))) = true := by
    rw [h.good, h.gang, hpriv]; simp
  simp only [millIssue]
  rw [if_neg hgo, h.abs]
  simp only [Option.isSome_some, if_true, hmap]
  by_cases hrel : mayRelease s = true
  · rw [releasing_of hrel, releasing_of hrel]; rfl
  · rw [releasing, if_neg hrel, releasing, if_neg hrel]

theorem millIssue_plain (h : MillWord s b g t w') (st : Stall) (op : BitVec 4) (c : Nat) (flag : Bool) :
    millIssue s st op c none b g flag t = releasing s fun s' =>
      millEnter s' st (millTargets s.cur.core t.toNat g) (millCommand s' op c g flag t w' 0 0) := by
  have hgo : ¬(cwordFault (xr s b) false || (g && t != 0) || ((none : Option TReg).isSome && mapPrivate 0)) = true := by
    rw [h.good, h.gang]; decide
  simp only [millIssue]
  rw [if_neg hgo, h.abs]
  simp only [Option.isSome_none, Bool.false_eq_true, if_false]
  by_cases hrel : mayRelease s = true
  · rw [releasing_of hrel, releasing_of hrel]; rfl
  · rw [releasing, if_neg hrel, releasing, if_neg hrel]

/-- What R312 names at the issue of a Mill command: a fault of its completion word, a gang with a target, and an address of the own window. -/
theorem millFaults {w : Word} {p : Bool}
    (h : w.getLsbD 3 = true ∨ cwAcc w ≠ 0 ∨ (g = true ∧ t ≠ 0) ∨ isPrivAdr (cwAdr w) = true ∨ p = true) :
    (cwordFault w false || (g && t != 0) || p) = true := by
  rcases h with h3 | hacc | ⟨hg, ht⟩ | hw | hp
  · rw [cwordFault_true (.inl h3)]; rfl
  · rw [cwordFault_true (.inr (.inl hacc))]; rfl
  · rw [hg, bne_iff_ne.mpr ht, Bool.true_and, Bool.or_true]; rfl
  · rw [cwordFault_true (.inr (.inr hw))]; rfl
  · rw [hp, Bool.or_true]

theorem millIssue_tile_refuses {a : TReg} (h : (xr s b).getLsbD 3 = true ∨ cwAcc (xr s b) ≠ 0 ∨ (g = true ∧ t ≠ 0) ∨
      [cwAdr (xr s b), baseAdr ((me s).rtm a)].any isPrivAdr = true) (st : Stall) (op : BitVec 4) (c : Nat) (flag : Bool) :
    millIssue s st op c (some a) b g flag t = supFault s fRESFIELD (privateOf [cwAdr (xr s b), baseAdr ((me s).rtm a)]) := by
  refine if_pos (millFaults ?_)
  rcases h with h3 | hacc | hgang | hpriv
  · exact .inl h3
  · exact .inr (.inl hacc)
  · exact .inr (.inr (.inl hgang))
  · exact .inr (.inr (.inr (by simpa [mapPrivate] using hpriv)))

theorem privateOf_zero (a : Word) : privateOf [a, baseAdr 0] = privateOf [a] := by
  have hzero : isPrivAdr (baseAdr 0) = false := by decide
  rw [privateOf, privateOf, List.find?_cons, List.find?_cons, List.find?_cons, hzero]

theorem millIssue_plain_refuses (h : (xr s b).getLsbD 3 = true ∨ cwAcc (xr s b) ≠ 0 ∨ (g = true ∧ t ≠ 0) ∨
      [cwAdr (xr s b)].any isPrivAdr = true) (st : Stall) (op : BitVec 4) (c : Nat) (flag : Bool) :
    millIssue s st op c none b g flag t = supFault s fRESFIELD (privateOf [cwAdr (xr s b)]) := by
  rw [← privateOf_zero]
  refine if_pos (millFaults ?_)
  rcases h with h3 | hacc | hgang | hpriv
  · exact .inl h3
  · exact .inr (.inl hacc)
  · exact .inr (.inr (.inl hgang))
  · exact .inr (.inr (.inr (.inl (by simpa using hpriv))))

end

/-- What a queued command comes to: it stands last in the inboxes of its targets, its sender goes on. -/
theorem millEnter_of {s : State} {cs : List Nat} (hroom : millRoom s cs = true) (hnodup : cs.Nodup) (st : Stall) (cmd : MillCmd) :
    ∃ u, millEnter s st cs cmd = .next u ∧ u.mem = s.mem ∧ u.full = s.full ∧ u.flight = s.flight ∧ OthersSame s u ∧
      WentOn s u st 4 ∧
      me u = { me s with
        pc := (me u).pc
        loops := (me u).loops
        stall := (me u).stall } ∧
      (∀ x ∈ cs, (coreAt u x).mill = { (coreAt s x).mill with inbox := (coreAt s x).mill.inbox ++ [cmd] }) ∧
      ∀ x, x ∉ cs → (coreAt u x).mill = (coreAt s x).mill := by
  have honly := millsOnly_pushMill (fresh s).2 cs cmd
  have hcur : (pushMill (fresh s).2 cs cmd).cur = s.cur := by rw [honly.rest]; rfl
  have hctx (n c : Nat) : ctxAt (pushMill (fresh s).2 cs cmd) n c = ctxAt s n c := honly.ctxAt n c
  have hcycle : (myCore (pushMill (fresh s).2 cs cmd)).cycle = (myCore s).cycle := by rw [myCore, hcur, honly.core]; rfl
  obtain ⟨u, hu, hends⟩ := done_ends (s := s) (c := me s) hcur (by rw [me, hcur, hctx]; rfl) rfl rfl hcycle (fun n c _ => hctx n c) st
  have hmill (x : Nat) : (coreAt u x).mill = (coreAt (pushMill (fresh s).2 cs cmd) x).mill := by rw [hends.core]
  refine ⟨u, ?_, hends.mem.trans (by rw [honly.rest]; rfl), hends.full.trans (by rw [honly.rest]; rfl),
    hends.flight.trans (by rw [honly.rest]; rfl), hends.others, hends.went, hends.me, fun x hx => ?_, fun x hx => ?_⟩
  · rw [millEnter, hroom]; exact hu
  · rw [hmill, pushMill_mem cmd hnodup hx]; rfl
  · rw [hmill, pushMill_other cmd hx]; rfl

theorem millEnter_full {s : State} {cs : List Nat} (hroom : millRoom s cs = false) (st : Stall) (cmd : MillCmd) :
    millEnter s st cs cmd = .next (parkHere s .unit) := by rw [millEnter, hroom]; rfl

theorem releasing_waits {s : State} (h : mayRelease s = false) (f : State → Out) : releasing s f = .next (parkHere s .reply) := by
  rw [releasing, h]; rfl

end Sys2Proof.Machine
/-! ## Bytes read at issue, and copy commands (R271, R274, R294, R37) -/

namespace Sys2Proof.Machine

/-! ### Bytes that an instruction reads of its own memory at its issue -/

/-- The running context with the bytes that its instruction has read. -/
def buffered (s : State) (b : Option (List Byte)) : State := setMe s { me s with paybuf := b }

theorem me_buffered (s : State) (b : Option (List Byte)) : me (buffered s b) = { me s with paybuf := b } := me_setMe ..

theorem buffered_buffered (s : State) (b b' : Option (List Byte)) :
    setMe (buffered s b) { me (buffered s b) with paybuf := b' } = buffered s b' := by
  rw [me_buffered, buffered, setMe_setMe]; rfl

theorem whoAmI_buffered (s : State) (b : Option (List Byte)) : whoAmI (buffered s b) = whoAmI s := by
  rw [whoAmI, whoAmI, me_buffered, buffered, partNum_setMe]; rfl

/-- Setting the running context leaves what its core's own places show. -/
theorem accView_setMe (s : State) (t : Ctx) (a : Access) {p : Place} {k : Nat} (n : Nat) (rd wr : Bool) (hown : isOwn k p = true)
    (hsup : ∀ v, p ≠ .sup v) : accView (setMe s t) a p n rd wr = accView s a p n rd wr := by
  cases p with
  | sup v => exact absurd rfl (hsup v)
  | gran g v => simp [isOwn] at hown
  | _ => rfl

theorem Quiet.buffered {s : State} (h : Quiet s) (b : Option (List Byte)) : Quiet (buffered s b) where
  now := h.now
  worker := h.worker
  runs := by rw [me_buffered]; exact h.runs
  room := by rw [me_buffered]; exact h.room
  slots := by rw [me_buffered]; exact h.slots
  acks := by rw [me_buffered]; exact h.acks
  held := h.held
  alone := h.alone
  gets := h.gets
  seen := by rw [me_buffered]; exact h.seen
  mem := h.mem

theorem OwnAt.buffered {s : State} {adr : Word} {load rd wr : Bool} {n : Nat} {p : Place} {v : View} (h : OwnAt s adr load n rd wr p v)
    (b : Option (List Byte)) : OwnAt (buffered s b) adr load n rd wr p v where
  form := h.form
  leads := by rw [whoAmI_buffered]; exact h.leads
  own := h.own
  plain := h.plain
  view := by
    rw [Machine.buffered, accView_setMe _ _ _ _ _ _ h.own h.plain, ← h.view]
    exact accView_congr s _ _ p n rd wr rfl (partNum_setMe ..) (by rw [newAccess, me_setMe]; rfl) h.own h.plain

/-- Nothing of the context's that is still on its way is in the way of a load. -/
theorem mayTouch_quiet {s : State} (h : Quiet s) (num : Nat) (span : Nat × Nat) :
    mayTouch s s.cur.core s.cur.ctx num span false = true := by
  have hnone : (unapplied s).any (fun b => b.core == s.cur.core && b.ctx == s.cur.ctx && decide (b.num < num) &&
      ((spansMeet (accSpan s b) span && (false || b.net != .col)) || (false && b.op.storeLike && dieOf b.home == dieOf s.cur.core))) =
      false := by
    refine List.any_eq_false.mpr fun b hb hmeets => ?_
    simp only [Bool.and_eq_true] at hmeets
    exact h.alone b hb (by simpa using hmeets.1.1)
  rw [mayTouch, hnone, h.gets]
  rfl

theorem applyPayload_own {s : State} {a : Access} {p : Place} {v : View} {n k : Nat} (hown : isOwn k p = true) (hsup : ∀ v, p ≠ .sup v)
    (hview : accView s a p n true false = .ok v) : applyPayload s a p n = okReply s a 0 0 (Memory.readBytes s.mem v.key n) := by
  have htime : timedOut s v n = false := by rw [timedOut, own_red hown hsup hview]; rfl
  unfold applyPayload
  cases p with
  | ctl n o => simp [isOwn] at hown
  | _ =>
    dsimp only
    rw [hview, withView, htime]
    rfl

/-- What its own memory holds comes at once. -/
theorem readAtIssue_own {s : State} {adr : Word} {n : Nat} {p : Place} {v : View} (hq : Quiet s) (h : OwnAt s adr true n true false p v)
    (len : Nat) (f : State → List Byte → Out) : readAtIssue s len adr n f = f s (Memory.readBytes s.mem v.key n) := by
  let a := newAccess s (.payload n) adr len
  have hview : accView s a p n true false = .ok v := by
    rw [← h.view]; exact accView_congr s a _ p n true false rfl rfl rfl h.own h.plain
  have hfault : ownFault s a p n true false = 0 := by
    rw [ownFault, hview, show isOwn a.core p = true from h.own]; rfl
  have hnow : (isOwn a.core p && !s.cur.late && mayTouch s a.core a.ctx s.serial (placeNum a.core a.part p, n) false) = true := by
    rw [show isOwn a.core p = true from h.own, hq.now,
      show mayTouch s a.core a.ctx s.serial (placeNum a.core a.part p, n) false = true from mayTouch_quiet hq ..]
    rfl
  unfold readAtIssue
  dsimp only
  rw [h.form, h.leads]
  dsimp only
  rw [if_neg (by decide), if_neg (not_not.mpr hfault), if_pos hnow, applyPayload_own h.own h.plain hview]
  rfl

theorem Memory.readBytes_add (m : List Host.Cell) (a i k : Nat) :
    Memory.readBytes m a (i + k) = Memory.readBytes m a i ++ Memory.readBytes m (a + i) k := by
  induction i generalizing a with
  | zero => simp [Memory.readBytes]
  | succ i ih =>
    rw [Nat.succ_add, Memory.readBytes, Memory.readBytes, ih, Nat.add_assoc a 1 i, Nat.add_comm 1 i]
    rfl

@[simp] theorem Memory.readBytes_length (m : List Host.Cell) (a n : Nat) : (Memory.readBytes m a n).length = n := by
  induction n generalizing a with
  | zero => rfl
  | succ n ih => rw [Memory.readBytes, List.length_cons, ih]

theorem Memory.take_readBytes (m : List Host.Cell) (a : Nat) {k n : Nat} (h : k ≤ n) :
    (Memory.readBytes m a n).take k = Memory.readBytes m a k := by
  obtain ⟨j, rfl⟩ := Nat.exists_eq_add_of_le h
  rw [Memory.readBytes_add, List.take_left' (Memory.readBytes_length ..)]

/-! ### The list of an MCAST (R274) -/

/-- How many addresses a list names that says it has `nd`. -/
def listCount (nd : Nat) : Nat := if 1 ≤ nd ∧ nd ≤ 64 then nd else 0

theorem mcastPart_empty (l : Word) : mcastPart l [] = some (l, 16) := rfl

theorem mcastPart_next {l : Word} {got : List Byte} {i : Nat} (hlen : got.length = 16 + 8 * i)
    (hi : i < listCount (ofBytes (got.take 2))) : mcastPart l got = some (l + BitVec.ofNat 64 (16 + 8 * i), 8) := by
  unfold listCount at hi
  split at hi
  · simp only [mcastPart, hlen]
    rw [if_neg (by omega), if_neg (by omega)]
  · omega

theorem mcastPart_all {l : Word} {got : List Byte} (hlen : got.length = 16 + 8 * listCount (ofBytes (got.take 2))) :
    mcastPart l got = none := by
  simp only [mcastPart]
  rw [if_neg (by omega), if_pos]
  unfold listCount at hlen
  split at hlen <;> omega

theorem length_of_mcastPart {l : Word} {got : List Byte} (h : mcastPart l got = none) : 16 ≤ got.length := by
  by_contra hlt
  rw [mcastPart, if_pos (by omega)] at h
  cases h

/-- The rest of a list in own memory is read address by address. -/
theorem withParts_list {s : State} (hq : Quiet s) {l : Word} {key m : Nat} (hm : m = listCount (ofBytes (Memory.readBytes s.mem key 2)))
    (hparts : ∀ i, i < m → ∃ p w, OwnAt s (l + BitVec.ofNat 64 (16 + 8 * i)) true 8 true false p w ∧ w.key = key + (16 + 8 * i))
    (f : State → List Byte → Out) {i fuel : Nat} (hi : i ≤ m) (hfuel : m ≤ i + fuel) :
    withParts 4 (mcastPart l) f fuel (buffered s (some (Memory.readBytes s.mem key (16 + 8 * i)))) =
      f (buffered s none) (Memory.readBytes s.mem key (16 + 8 * m)) := by
  have hhead (j : Nat) : (Memory.readBytes s.mem key (16 + 8 * j)).take 2 = Memory.readBytes s.mem key 2 :=
    Memory.take_readBytes _ _ (by omega)
  have hgot (j : Nat) : (me (buffered s (some (Memory.readBytes s.mem key (16 + 8 * j))))).paybuf.getD [] =
      Memory.readBytes s.mem key (16 + 8 * j) := by rw [me_buffered]; rfl
  induction fuel generalizing i with
  | zero =>
    obtain rfl : i = m := by omega
    rw [withParts, buffered_buffered, hgot]
  | succ fuel ih =>
    rw [withParts]
    simp only [hgot]
    rcases Nat.lt_or_eq_of_le hi with hlt | rfl
    · obtain ⟨p, w, hown, hkey⟩ := hparts i hlt
      rw [mcastPart_next (i := i) (Memory.readBytes_length ..) (by rw [hhead, ← hm]; exact hlt)]
      dsimp only
      rw [readAtIssue_own (hq.buffered _) (hown.buffered _), buffered_buffered, hkey]
      rw [show (buffered s (some (Memory.readBytes s.mem key (16 + 8 * i)))).mem = s.mem from rfl, ← Memory.readBytes_add]
      exact ih (i := i + 1) (by omega) (by omega)
    · rw [mcastPart_all (by rw [Memory.readBytes_length, hhead, ← hm])]
      dsimp only
      rw [buffered_buffered]

/-- A list that has come, or that own memory holds, is at hand at the issue. -/
theorem withParts_listOf {s : State} {l : Word} {bytes : List Byte} (h : ListOf s l bytes) (f : State → List Byte → Out) :
    withParts 4 (mcastPart l) f 66 s = f (buffered s none) bytes := by
  obtain ⟨hend, hbuf | ⟨hbuf, hq, hlen, p, v, hown, hbytes, hparts⟩⟩ := h
  · rw [withParts, hbuf, Option.getD_some, hend]
    rfl
  · have hcount : bytes.length = 16 + 8 * listCount (ofBytes (bytes.take 2)) := hlen
    have hle : listCount (ofBytes (bytes.take 2)) ≤ 64 := by unfold listCount; split <;> omega
    have hhead : bytes.take 2 = Memory.readBytes s.mem v.key 2 := by
      rw [hbytes, Memory.take_readBytes _ _ (by omega)]
    rw [withParts, hbuf, Option.getD_none, mcastPart_empty]
    dsimp only
    rw [readAtIssue_own hq hown, List.nil_append]
    have hall := withParts_list hq (l := l) (key := v.key) (m := listCount (ofBytes (bytes.take 2))) (by rw [hhead])
      (fun i hi => hparts i (by omega)) f (i := 0) (fuel := 65) (Nat.zero_le _) (by omega)
    rw [← hcount, ← hbytes] at hall
    exact hall

end Sys2Proof.Machine
/-! ## The issue of copy commands (R271, R294, R37) -/

namespace Sys2Proof.Machine

/-! ### A command put into the copy engine -/

/-- `t` is `s`, or `s` with other bytes read by the running instruction. -/
def AtIssue (s t : State) : Prop := t = s ∨ ∃ b, t = buffered s b

/-- A state with the command last in the running core's copy engine. -/
def withCopy (t : State) (cmd : CopyCmd) : State :=
  setMyCore { t with serial := t.serial + 1 } { myCore t with copyq := (myCore t).copyq ++ [cmd] }

theorem ctxAt_withCopy (t : State) (cmd : CopyCmd) (n c : Nat) : ctxAt (withCopy t cmd) n c = ctxAt t n c := by
  rw [withCopy]
  exact ctxAt_setMyCore (s := { t with serial := t.serial + 1 }) (k := { myCore t with copyq := (myCore t).copyq ++ [cmd] }) rfl n c

section
variable {s t : State} (h : AtIssue s t)
include h

theorem AtIssue.me_eq : ∃ b, me t = { me s with paybuf := b } := by
  obtain rfl | ⟨b, rfl⟩ := h
  · exact ⟨_, rfl⟩
  · exact ⟨b, me_buffered ..⟩

theorem AtIssue.cur : t.cur = s.cur := by obtain rfl | ⟨b, rfl⟩ := h <;> rfl
theorem AtIssue.mem : t.mem = s.mem := by obtain rfl | ⟨b, rfl⟩ := h <;> rfl
theorem AtIssue.full : t.full = s.full := by obtain rfl | ⟨b, rfl⟩ := h <;> rfl
theorem AtIssue.flight : t.flight = s.flight := by obtain rfl | ⟨b, rfl⟩ := h <;> rfl

theorem AtIssue.others : OthersSame s t := by
  obtain rfl | ⟨b, rfl⟩ := h
  · exact fun _ _ _ => rfl
  · exact others_setMe s s _ rfl fun _ _ _ => rfl

theorem AtIssue.core : myCore t = { myCore s with ctxs := (myCore t).ctxs } := by
  obtain rfl | ⟨b, rfl⟩ := h
  · rfl
  · exact core_setMe s _ _

theorem AtIssue.supr : suprNow t = suprNow s := by
  obtain ⟨b, hme⟩ := h.me_eq
  rw [suprNow, suprNow, h.cur, hme]

/-- What a command put into the copy engine comes to: it stands last in the queue, its sender goes on. -/
theorem pushCopy_of (st : Stall) (cmd : CopyCmd) : ∃ u, pushCopy t st cmd = .next u ∧ u.mem = s.mem ∧ u.full = s.full ∧
    u.flight = s.flight ∧ OthersSame s u ∧ WentOn s u st 4 ∧
    me u = { me s with
      pc := (me u).pc
      loops := (me u).loops
      stall := (me u).stall
      tapeAt := none
      paybuf := none } ∧ (myCore u).copyq = (myCore s).copyq ++ [cmd] := by
  obtain ⟨b, hme⟩ := h.me_eq
  let q := withCopy t cmd
  have hcore : myCore q = { myCore t with copyq := (myCore t).copyq ++ [cmd] } := myCore_setMyCore ..
  let c : Ctx := { me s with tapeAt := none, paybuf := none }
  have hqme : { me q with tapeAt := none, paybuf := none } = c := by
    rw [show me q = me t from ctxAt_withCopy t cmd _ _, hme]
  have hcycle : (myCore (setMe q c)).cycle = (myCore s).cycle := by rw [myCore_setMe_cycle, hcore, h.core]
  have hothers : OthersSame s (setMe q c) := others_setMe s q _ h.cur fun n k hne => (ctxAt_withCopy t cmd n k).trans (h.others n k hne)
  obtain ⟨u, hu, hends⟩ := done_ends (s := s) (u := setMe q c) h.cur (me_setMe ..) rfl rfl hcycle hothers st
  have hpush : pushCopy t st cmd = done st 4 (setMe q c) := by rw [← hqme]; rfl
  refine ⟨u, hpush.trans hu, hends.mem.trans h.mem, hends.full.trans h.full, hends.flight.trans h.flight, hends.others, hends.went,
    hends.me, ?_⟩
  have hu' : (myCore u).copyq = (myCore (setMe q c)).copyq := by rw [myCore, hends.cur, hends.core]; rfl
  rw [hu', myCore_setMe, hcore, h.core]

end

/-! ### Operands that the issue refuses -/

/-- An operand that is fit does not change the first that is not. -/
theorem badOperand_append {l : List Word} {a : Word} (h : operandBad a = false) : badOperand (l ++ [a]) = badOperand l := by
  rw [badOperand, badOperand, List.find?_append, List.find?_cons_of_neg (by simp [h]), List.find?_nil, Option.or_none]

theorem operandBad_of_priv {a : Word} (h : isPrivAdr a = true) : operandBad a = true := by rw [operandBad, h]; rfl

theorem isPrivAdr_of_operandBad {a : Word} (h : operandBad a = false) : isPrivAdr a = false := by
  rw [operandBad, Bool.or_eq_false_iff] at h
  exact h.1

/-! ### COPY and COPYM -/

/-- A command that its issue admits enters the copy engine, or waits for room. -/
def copyEnter (s : State) (st : Stall) (cmd : CopyCmd) : Out :=
  if !copyRoom s s.cur.core then .next (parkHere s .unit) else pushCopy s st cmd

section
variable {s : State} {fn : BitVec 8} {a c : TReg} {b : Reg} {acc : Bool}

theorem copyIssue_admits {w' : Word} {m md : BitVec 256} (hword : cwordFault (xr s b) acc = false)
    (hgang : (fn.getLsbD 7 && nbits fn.toNat 4 2 != 0) = false)
    (hfit : operandBad (cwAdr (xr s b)) = false ∧ operandBad (baseAdr ((me s).rtm a)) = false ∧
      operandBad (baseAdr ((me s).rtm c)) = false)
    (habs : cwordOperand s (xr s b) = some w') (hsrc : mapOperand s s.cur.core ((me s).rtm a) ((me s).rorg a) = some m)
    (hdst : mapOperand s s.cur.core ((me s).rtm c) ((me s).rorg c) = some md) (st : Stall) :
    copyIssue s st fn a b c acc = releasing s fun s' =>
      copyEnter s' st (copyCmd s' fn c.toNat w' m ((me s).rorg a) md ((me s).rorg c) 0 none) := by
  obtain ⟨hw, ha, hc⟩ := hfit
  have hgo : ¬(cwordFault (xr s b) acc || (fn.getLsbD 7 && nbits fn.toNat 4 2 != 0) ||
      [cwAdr (xr s b), baseAdr ((me s).rtm a), baseAdr ((me s).rtm c)].any operandBad) = true := by
    rw [hword, hgang, List.any_cons, List.any_cons, List.any_cons, hw, ha, hc]
    simp
  simp only [copyIssue]
  rw [if_neg hgo, habs, hsrc, hdst]
  dsimp only
  by_cases hrel : mayRelease s = true
  · rw [releasing_of hrel, releasing_of hrel]; rfl
  · rw [releasing, if_neg hrel, releasing, if_neg hrel]

theorem copyIssue_refuses (h : cwordFault (xr s b) acc = true ∨ (fn.getLsbD 7 && nbits fn.toNat 4 2 != 0) = true ∨
      [cwAdr (xr s b), baseAdr ((me s).rtm a), baseAdr ((me s).rtm c)].any operandBad = true) (st : Stall) :
    copyIssue s st fn a b c acc =
      supFault s fRESFIELD (badOperand [cwAdr (xr s b), baseAdr ((me s).rtm a), baseAdr ((me s).rtm c)]) := by
  refine if_pos ?_
  rcases h with h | h | h
  · rw [h]; rfl
  · rw [h, Bool.or_true]; rfl
  · exact Bool.or_eq_true_iff.mpr (.inr h)

end

/-- fn of COPYM: its operation, target, OVW and G (R294). -/
theorem copymFn (g o : Bool) (t : BitVec 2) :
    (copyFn 1 (t.setWidth 4 ||| (if o then 4 else 0) ||| (if g then 8 else 0))).toNat =
        1 + 16 * t.toNat + (if o then 64 else 0) + (if g then 128 else 0) ∧
      ((copyFn 1 (t.setWidth 4 ||| (if o then 4 else 0) ||| (if g then 8 else 0))).getLsbD 7 &&
        nbits (copyFn 1 (t.setWidth 4 ||| (if o then 4 else 0) ||| (if g then 8 else 0))).toNat 4 2 != 0) = (g && t != 0) := by
  revert g o t
  decide +kernel

/-! ### MCAST, GATHER and SCATTER that record nothing -/

/-- What their issue does with the bytes of the list that it reads. -/
def listEnter (st : Stall) (mcast : Bool) (cmd : State → CopyCmd) (n : Nat) (s : State) (bytes : List Byte) : Out :=
  if mcast ∧ (mcastBases bytes).any operandBad then supFault s fRESFIELD (badOperand (mcastBases bytes))
  else if !copyRoom s n then .next (parkHere (setMe s { me s with paybuf := if bytes = [] then none else some bytes }) .unit)
  else pushCopy s st (cmd s)

/-- The operand that names the source tile is refused: of MCAST as any operand, of the others by R52 alone. -/
def mapRefused (mcast : Bool) (map : Word) : Bool := if mcast then operandBad map else !mbzOk map

/-- A completion word, a source tile and a list that R271 admits at the issue. -/
structure ListIssue (s : State) (a : TReg) (b c : Reg) (mcast : Bool) : Prop where
  word : cwordFault (xr s b) false = false
  adr : operandBad (cwAdr (xr s b)) = false
  list : isPrivAdr (xr s c) = false
  map : mapRefused mcast (baseAdr ((me s).rtm a)) = false

section
variable {s : State} {fn : BitVec 8} {a : TReg} {b c : Reg} {mcast : Bool} {kind : Nat}

theorem listIssue_refuses (h : (xr s b).getLsbD 3 = true ∨ cwAcc (xr s b) ≠ 0 ∨ operandBad (cwAdr (xr s b)) = true ∨
      isPrivAdr (xr s c) = true ∨ mapRefused mcast (baseAdr ((me s).rtm a)) = true) (st : Stall) (count : Option (Nat → Nat)) :
    listIssue s st fn a b c mcast kind count = supFault s fRESFIELD (badOperand ([cwAdr (xr s b), xr s c] ++
      if mapRefused mcast (baseAdr ((me s).rtm a)) then [baseAdr ((me s).rtm a)] else [])) := by
  refine if_pos ?_
  change (cwordFault (xr s b) false || operandBad (cwAdr (xr s b)) || isPrivAdr (xr s c) ||
    mapRefused mcast (baseAdr ((me s).rtm a))) = true
  rcases h with h | h | h | h | h
  · rw [cwordFault_true (.inl h)]; rfl
  · rw [cwordFault_true (.inr (.inl h))]; rfl
  · rw [h, Bool.or_true]; rfl
  · rw [h, Bool.or_true]; rfl
  · rw [h, Bool.or_true]

theorem listIssue_of_word {w' : Word} (hword : (xr s b).getLsbD 3 = false ∧ operandBad (cwAdr (xr s b)) = false ∧
      cwordOperand s (xr s b) = some w') (hacc : cwAcc (xr s b) = 0) (hpriv : isPrivAdr (xr s c) = false)
    (hmap : mapRefused mcast (baseAdr ((me s).rtm a)) = false) : ListIssue s a b c mcast := by
  obtain ⟨h3, hbad, -⟩ := hword
  exact ⟨cwordFault_false h3 (.inr hacc) (isPrivAdr_of_operandBad hbad), hbad, hpriv, hmap⟩

/-- An issue that admits its operands goes on to the form of its list's address. -/
theorem listIssue_form (h : ListIssue s a b c mcast) (st : Stall) (count : Option (Nat → Nat)) :
    ((xr s c).toNat % 16 ≠ 0 → listIssue s st fn a b c mcast kind count = supFault s fMISALIGN (xr s c)) ∧
    ((xr s c).toNat % 16 = 0 → mbzOk (xr s c) = false → listIssue s st fn a b c mcast kind count = supFault s fRESFIELD (xr s c)) := by
  have hgo : ¬(cwordFault (xr s b) false || operandBad (cwAdr (xr s b)) || isPrivAdr (xr s c) ||
      mapRefused mcast (baseAdr ((me s).rtm a))) = true := by rw [h.word, h.adr, h.list, h.map]; decide
  refine ⟨fun halign => (if_neg hgo).trans (if_pos halign), fun halign hmbz => ?_⟩
  exact (if_neg hgo).trans ((if_neg (not_not.mpr halign)).trans (if_pos (by rw [hmbz]; rfl)))

theorem listIssue_admits {w' l' : Word} {m : BitVec 256} (h : ListIssue s a b c mcast) (halign : (xr s c).toNat % 16 = 0)
    (hmbz : mbzOk (xr s c) = true) (habs : cwordOperand s (xr s b) = some w')
    (hsrc : mapOperand s s.cur.core ((me s).rtm a) ((me s).rorg a) = some m) (hlist : absOperand s s.cur.core (xr s c) = some l')
    (st : Stall) : listIssue s st fn a b c mcast kind none = releasing s fun s' => withList s' mcast (xr s c) false
      (listEnter st mcast (fun s' => copyCmd s' fn c.toNat w' m ((me s).rorg a) m ((me s).rorg a) l' none) s.cur.core) := by
  have hgo : ¬(cwordFault (xr s b) false || operandBad (cwAdr (xr s b)) || isPrivAdr (xr s c) ||
      mapRefused mcast (baseAdr ((me s).rtm a))) = true := by rw [h.word, h.adr, h.list, h.map]; decide
  refine (if_neg hgo).trans ((if_neg (not_not.mpr halign)).trans ((if_neg (by rw [hmbz]; decide)).trans ?_))
  rw [habs, hsrc, hlist]
  dsimp only
  by_cases hrel : mayRelease s = true
  · rw [releasing_of hrel, releasing_of hrel]; rfl
  · rw [releasing, if_neg hrel, releasing, if_neg hrel]

end

/-! ### What the statement calls a command that enters the copy engine -/

/-- A command with the fields of `cmd` enters the copy engine; while earlier accesses are outstanding, and without room, it parks. -/
theorem copyEnter_of {s : State} (hroom : copyRoom s s.cur.core = true) (st : Stall) (cmd : CopyCmd) :
    copyEnter s st cmd = pushCopy s st cmd := by rw [copyEnter, hroom]; rfl

theorem copyEnter_full {s : State} (hroom : copyRoom s s.cur.core = false) (st : Stall) (cmd : CopyCmd) :
    copyEnter s st cmd = .next (parkHere s .unit) := by rw [copyEnter, hroom]; rfl

theorem AtIssue.copyRoom {s t : State} (h : AtIssue s t) : copyRoom t s.cur.core = copyRoom s s.cur.core := by
  have hq : (coreAt t s.cur.core).copyq = (coreAt s s.cur.core).copyq := by
    have hcore := congrArg Core.copyq h.core
    rwa [myCore, h.cur] at hcore
  rw [Machine.copyRoom, hq, Machine.copyRoom]

section
variable {s t : State} (h : AtIssue s t) {bytes : List Byte} {mcast : Bool}
  (hfit : mcast = true → (mcastBases bytes).any operandBad = false)
include h hfit

theorem listEnter_of (hroom : Machine.copyRoom s s.cur.core = true) (st : Stall) (cmd : State → CopyCmd) :
    listEnter st mcast cmd s.cur.core t bytes = pushCopy t st (cmd t) := by
  rw [listEnter, if_neg (fun hbad => by rw [hfit hbad.1] at hbad; cases hbad.2), h.copyRoom, hroom]
  rfl

theorem listEnter_full (hroom : Machine.copyRoom s s.cur.core = false) (st : Stall) (cmd : State → CopyCmd) :
    listEnter st mcast cmd s.cur.core t bytes = .next (setMe s { me s with
      st := .parked
      cause := .unit
      paybuf := if bytes = [] then none else some bytes }) := by
  rw [listEnter, if_neg (fun hbad => by rw [hfit hbad.1] at hbad; cases hbad.2), h.copyRoom, hroom]
  obtain rfl | ⟨b, rfl⟩ := h
  · rw [parkHere, me_setMe, setMe_setMe]; rfl
  · rw [buffered_buffered, parkHere, me_buffered, buffered, setMe_setMe]; rfl

end

/-! ### The two halves of O29 -/

section
variable {s : State} {i : Instr} {st : Stall} {cmd : State → CopyCmd}

/-- What a command that its issue admits comes to: it enters the queue from a state at issue, or waits for what is outstanding or for
room. -/
structure QueuesCopy (s : State) (i : Instr) (st : Stall) (cmd : State → CopyCmd) (kept : Option (List Byte)) : Prop where
  enters : mayRelease s = true → copyRoom s s.cur.core = true → ∃ t, AtIssue s t ∧ exec i s = pushCopy t st (cmd t)
  waits : mayRelease s = false → ParksFor i s .reply
  full : mayRelease s = true → copyRoom s s.cur.core = false → exec i s = .next (setMe s { me s with
    st := .parked
    cause := .unit
    paybuf := kept })

theorem queuesCopy_copy (h : exec i s = releasing s fun s' => copyEnter s' st (cmd s')) : QueuesCopy s i st cmd (me s).paybuf where
  enters hrel hroom := ⟨s, .inl rfl, by rw [h, releasing_of hrel, copyEnter_of hroom]⟩
  waits hrel := by rw [ParksFor, h, releasing_waits hrel]; rfl
  full hrel hroom := by rw [h, releasing_of hrel, copyEnter_full hroom]; rfl

/-- The same of a command with a list, whose issue comes to the state `t` with the bytes that it reads. -/
theorem queuesCopy_list {mcast : Bool} {l : Word} {bytes : List Byte} {t : State}
    (h : exec i s = releasing s fun s' => withList s' mcast l false (listEnter st mcast cmd s.cur.core)) (hat : AtIssue s t)
    (hlist : ∀ f, withList s mcast l false f = f t bytes) (hfit : mcast = true → (mcastBases bytes).any operandBad = false) :
    QueuesCopy s i st cmd (if bytes = [] then none else some bytes) where
  enters hrel hroom := ⟨t, hat, by rw [h, releasing_of hrel, hlist, listEnter_of hat hfit hroom]⟩
  waits hrel := by rw [ParksFor, h, releasing_waits hrel]; rfl
  full hrel hroom := by rw [h, releasing_of hrel, hlist, listEnter_full hat hfit hroom]

end

/-! What each instruction issues. -/

section
variable (s : State) (st : Stall) (a : TReg) (b : Reg) (g f : Bool) (t : BitVec 2)

theorem exec_mload : exec (.mload st a b g t) s = millIssue s st 0 0 (some a) b g false t := rfl
theorem exec_mstrm (c : AccN) : exec (.mstrm st a b c g f t) s = millIssue s st 2 c.toNat (some a) b g f t := rfl
theorem exec_mdrain (c : AccN) : exec (.mdrain st a b c g f t) s = millIssue s st 3 c.toNat (some a) b g f t := rfl
theorem exec_mflip : exec (.mflip st b g t) s = millIssue s st 1 0 none b g false t := rfl
theorem exec_mclr (c : AccN) : exec (.mclr st b c g f t) s = millIssue s st 4 c.toNat none b g f t := rfl
theorem exec_copy (d : TReg) : exec (.copy st a b d) s = copyIssue s st (copyFn 0 0) a b d false := rfl
theorem exec_copym (d : TReg) : exec (.copym st a b d g f t) s =
    copyIssue s st (copyFn 1 (t.setWidth 4 ||| (if f then 4 else 0) ||| (if g then 8 else 0))) a b d true := rfl
theorem exec_mcast (c : Reg) : exec (.mcast st a b c false) s = listIssue s st (copyFn 4 0) a b c true 0 none := rfl
theorem exec_gather (c : Reg) : exec (.gather st a b c false) s = listIssue s st (copyFn 2 0) a b c false 1 none := rfl
theorem exec_scatter (c : Reg) : exec (.scatter st a b c) s = listIssue s st (copyFn 3 0) a b c false 0 none := rfl

end

/-- Settles O29: the issue of a Mill command and of a copy command each come to one of a refusal, a wait and the queue
(`millIssue_tile`, `copyIssue_admits`, `listIssue_admits`); an MCAST's list is read part by part (`withParts_listOf`). -/
theorem millAndCopyCommands : Obligations.MillAndCopyCommands := by
  constructor
  · intro s st a b c g f t w' m w n targets word tile base refuses fn enters
    have henters {i : Instr} {op : BitVec 4} {k acc : Nat} {flag : Bool} {map : BitVec 256} {org : BitVec 64}
        (h : exec i s = releasing s fun s' => millEnter s' st targets (millCommand s' op acc g flag t w' map org)) (hword : word)
        (hfn : fn op.toNat flag = k) : enters i k acc map org := by
      obtain ⟨-, -, -, habs, -⟩ := hword
      refine ⟨fun hrel hroom => ?_, fun hrel => ?_, fun hrel hroom => ?_⟩
      · obtain ⟨u, hu, hmem, hfull, hflight, hothers, hwent, hme, hin, hout⟩ :=
          millEnter_of hroom (millTargets_nodup ..) st (millCommand s op acc g flag t w' map org)
        refine ⟨u, _, by rw [h, releasing_of hrel, hu], hmem, hfull, hflight, hothers, hwent, hme, (millFn_toNat ..).trans hfn,
          rfl, rfl, rfl, rfl, rfl, cwT_cwordAbs habs, rfl, ?_, hin, hout⟩
        cases g <;> rfl
      · rw [ParksFor, h, releasing_waits hrel]; rfl
      · rw [ParksFor, h, releasing_of hrel, millEnter_full hroom]; rfl
    have hadmits (hword : word) : MillWord s b g t w' := by
      obtain ⟨h3, hacc, hpriv, habs, hgang⟩ := hword
      refine ⟨cwordFault_false h3 (.inr hacc) hpriv, ?_, habs⟩
      cases g with
      | false => rfl
      | true => rw [hgang rfl]; rfl
    refine ⟨fun hword htile => ?_, fun hword => ?_, fun h => (exec_mload ..).trans (millIssue_tile_refuses h ..),
      fun h => (exec_mstrm ..).trans (millIssue_tile_refuses h ..), fun h => (exec_mdrain ..).trans (millIssue_tile_refuses h ..),
      fun h => (exec_mflip ..).trans (millIssue_plain_refuses h ..), fun h => (exec_mclr ..).trans (millIssue_plain_refuses h ..)⟩
    · obtain ⟨hpriv, hmap⟩ := htile
      have hissue := millIssue_tile (hadmits hword) hpriv hmap st
      exact ⟨henters ((exec_mload ..).trans (hissue 0 0 false)) hword rfl,
        henters ((exec_mstrm ..).trans (hissue 2 c.toNat f)) hword rfl,
        henters ((exec_mdrain ..).trans (hissue 3 c.toNat f)) hword rfl⟩
    · have hissue := millIssue_plain (hadmits hword) st
      exact ⟨henters ((exec_mflip ..).trans (hissue 1 0 false)) hword rfl,
        henters ((exec_mclr ..).trans (hissue 4 c.toNat f)) hword rfl⟩
  · intro s st a d b c g f t w' l' m md bytes w l n org word from' to' source target refuses list enters rowsOnly
    have henters {i : Instr} {fn : BitVec 8} {k c' : Nat} {dm : BitVec 256} {dorg : BitVec 64} {lst : Word} {kept : Option (List Byte)}
        (h : QueuesCopy s i st (fun t => copyCmd t fn c' w' m (org a) dm dorg lst none) kept) (hfn : fn.toNat = k) :
        enters i k dm dorg lst kept := by
      refine ⟨fun hrel hroom => ?_, h.waits, h.full⟩
      obtain ⟨t, hat, hexec⟩ := h.enters hrel hroom
      obtain ⟨u, hu, hmem, hfull, hflight, hothers, hwent, hme, hq⟩ :=
        pushCopy_of hat st (copyCmd t fn c' w' m (org a) dm dorg lst none)
      exact ⟨u, _, hexec.trans hu, hmem, hfull, hflight, hothers, hwent, hme, hq, hfn, (by rw [← hat.cur]; rfl), rfl, rfl, rfl, rfl,
        rfl, rfl, rfl, rfl, rfl, hat.supr⟩
    have hrows (i : Instr) (hi : rowsOnly i) : ∃ (fn : BitVec 8) (kind : Nat),
        exec i s = listIssue s st fn a b c false kind none := by
      rcases hi with rfl | rfl
      · exact ⟨_, _, exec_gather ..⟩
      · exact ⟨_, _, exec_scatter ..⟩
    refine ⟨fun hword hacc hfrom hsrc htgt => ?_, fun hword hgang hfrom hsrc htgt => ?_, fun hword hacc hfrom hsrc hlist hof => ?_,
      fun hword hacc hfrom hsrc hlist => ?_, fun i hi hword hacc hpriv => ?_, ⟨fun h => ?_, fun h => ?_⟩,
      fun h => ?_, fun i hi h => ?_⟩
    · obtain ⟨h3, hbad, habs⟩ := hword
      obtain ⟨hto, hdst⟩ := htgt
      have hissue := copyIssue_admits (fn := copyFn 0 0) (cwordFault_false (acc := false) h3 (.inr hacc) (isPrivAdr_of_operandBad hbad))
        (by decide) ⟨hbad, hfrom, hto⟩ habs hsrc hdst st
      exact henters (queuesCopy_copy ((exec_copy ..).trans hissue)) (by decide)
    · obtain ⟨h3, hbad, habs⟩ := hword
      obtain ⟨hto, hdst⟩ := htgt
      have hfn := copymFn g f t
      have htarget : (g && t != 0) = false := by
        cases g with
        | false => rfl
        | true => rw [hgang rfl]; rfl
      have hissue := copyIssue_admits (cwordFault_false (acc := true) h3 (.inl rfl) (isPrivAdr_of_operandBad hbad)) (hfn.2.trans htarget)
        ⟨hbad, hfrom, hto⟩ habs hsrc hdst st
      exact henters (queuesCopy_copy ((exec_copym ..).trans hissue)) hfn.1
    · obtain ⟨hpriv, halign, hmbz, hl⟩ := hlist
      have hexec := (exec_mcast s st a b c).trans
        (listIssue_admits (listIssue_of_word (mcast := true) hword hacc hpriv hfrom) halign hmbz hword.2.2 hsrc hl st)
      have hread : ∀ k, withList s true l false k = k (buffered s none) bytes := withParts_listOf hof
      refine ⟨fun hfit => ?_, fun hbad hrel => ?_⟩
      · have hne : bytes ≠ [] := by rintro rfl; exact absurd (length_of_mcastPart hof.1) (by simp)
        have hqueues := queuesCopy_list hexec (.inr ⟨none, rfl⟩) hread fun _ => hfit
        rw [if_neg hne] at hqueues
        exact henters hqueues (by decide)
      · rw [hexec, releasing_of hrel, hread, listEnter, if_pos ⟨rfl, hbad⟩, supFault, me_buffered]
        rfl
    · obtain ⟨hpriv, halign, hmbz, hl⟩ := hlist
      have hadmits (fn : BitVec 8) (kind : Nat) := listIssue_admits (fn := fn) (kind := kind)
        (listIssue_of_word (mcast := false) hword hacc hpriv (by rw [mapRefused, hfrom]; rfl)) halign hmbz hword.2.2 hsrc hl st
      exact ⟨henters (queuesCopy_list (bytes := []) ((exec_gather ..).trans (hadmits _ _)) (.inl rfl) (fun _ => rfl) nofun) (by decide),
        henters (queuesCopy_list (bytes := []) ((exec_scatter ..).trans (hadmits _ _)) (.inl rfl) (fun _ => rfl) nofun) (by decide)⟩
    · rcases hi with ⟨rfl, hfrom⟩ | ⟨hi, hfrom⟩
      · rw [TakesSup, TakesSup, exec_mcast]
        exact listIssue_form (listIssue_of_word (mcast := true) hword hacc hpriv hfrom) st none
      · obtain ⟨fn, kind, hexec⟩ := hrows i hi
        rw [TakesSup, TakesSup, hexec]
        exact listIssue_form (listIssue_of_word (mcast := false) hword hacc hpriv (by rw [mapRefused, hfrom]; rfl)) st none
    · refine (exec_copy ..).trans (copyIssue_refuses ?_ st)
      rcases h with h3 | hacc | hany
      · exact .inl (cwordFault_true (.inl h3))
      · exact .inl (cwordFault_true (.inr (.inl hacc)))
      · exact .inr (.inr hany)
    · refine (exec_copym ..).trans (copyIssue_refuses ?_ st)
      rcases h with h3 | ⟨hg, ht⟩ | hany
      · exact .inl (by rw [cwordFault, h3]; rfl)
      · exact .inr (.inl ((copymFn g f t).2.trans (by rw [hg, bne_iff_ne.mpr ht]; rfl)))
      · exact .inr (.inr hany)
    · have hrefused := (exec_mcast s st a b c).trans (listIssue_refuses h st none)
      cases hfrom : operandBad from' with
      | true => rw [mapRefused, hfrom] at hrefused; exact hrefused
      | false =>
        rw [mapRefused, hfrom] at hrefused
        rw [show [cwAdr w, l, from'] = [cwAdr w, l] ++ [from'] from rfl, badOperand_append hfrom]
        exact hrefused
    · obtain ⟨fn, kind, hexec⟩ := hrows i hi
      have hrefused := hexec.trans (listIssue_refuses (mcast := false) (by simpa [mapRefused] using h) st none)
      cases hfrom : mbzOk from' with
      | true => rw [mapRefused, hfrom] at hrefused; exact hrefused
      | false => rw [mapRefused, hfrom] at hrefused; exact hrefused

end Sys2Proof.Machine

/-! ## Links, lanes and packets of the fabric (R123, R159, R167, R168, R172-R174)

The service die's own Crier messages and the words of a package's fabric-control block are the two things that the events of this section and
of the next ones change. One rule for each stands first. -/

namespace Sys2Proof.Machine

/-! ### Words of the fabric-control block -/

@[simp] theorem fabWord_setPkg (s : State) (p : Nat) (k : Pkg) (pkg off : Nat) : fabWord (setPkg s p k) pkg off = fabWord s pkg off := rfl
@[simp] theorem laneState_setPkg (s : State) (p : Nat) (k : Pkg) (pkg lane : Nat) :
    laneState (setPkg s p k) pkg lane = laneState s pkg lane := rfl
@[simp] theorem pkgAt_setFab (s : State) (pkg off v p : Nat) : pkgAt (setFab s pkg off v) p = pkgAt s p := rfl

theorem fabWord_setFab_same {s : State} (hwf : Memory.wf s.mem = true) (pkg off v : Nat) :
    fabWord (setFab s pkg off v) pkg off = v % 256 ^ 8 := Memory.read_write_same _ _ _ hwf

theorem fabWord_setFab_other {s : State} (hwf : Memory.wf s.mem = true) (pkg v : Nat) {off off' : Nat}
    (h : off' + 8 ≤ off ∨ off + 8 ≤ off') : fabWord (setFab s pkg off v) pkg off' = fabWord s pkg off' :=
  Memory.read_write_other hwf v (by simp only [sliceKey]; omega)

theorem stored_setFab {s t : State} (hwf : Memory.wf s.mem = true) {pkg off v : Nat} (h : t.mem = (setFab s pkg off v).mem) :
    Stored s t (sliceKey (fabricCore pkg) off) 8 v := stored_write hwf h

/-! ### Messages of the service die (R162) -/

/-- A Crier message of a package's service die. -/
def serviceMsg (pkg kind : Nat) (val : Word) (body : List Nat) : CMsg :=
  ⟨0, kind, pkg % 8, 0xFF, 0, 0, val, body, serviceCore pkg, none, zeroVec⟩

theorem pkgAt_serviceCrier (s : State) (pkg kind : Nat) (val : Word) (body : List Nat) :
    pkgAt (serviceCrier s pkg kind val body) pkg =
      { pkgAt s pkg with queue := (pkgAt s pkg).queue ++ [serviceMsg pkg kind val body] } := pkgAt_setPkg_same ..

theorem pkgAt_serviceCrier_other (s : State) {pkg q : Nat} (kind : Nat) (val : Word) (body : List Nat) (h : q ≠ pkg) :
    pkgAt (serviceCrier s pkg kind val body) q = pkgAt s q := pkgAt_setPkg_other _ _ h

theorem pkgAt_queueGen (s : State) (pkg cause : Nat) :
    pkgAt (queueGen s pkg cause) pkg =
      { pkgAt s pkg with queue := (pkgAt s pkg).queue ++ [serviceMsg pkg 5 0 [cause, 0]] } := pkgAt_serviceCrier ..

/-! ### A link that fails (R173) -/

theorem failLink_failed {s : State} {pkg link : Nat} (h : link ∈ (pkgAt s pkg).failed) : failLink s pkg link = s := by
  have hmark : markFailed s pkg link = (false, s) := if_pos (by simp [h])
  simp only [failLink, hmark, Bool.false_eq_true, if_false]

/-- A package marks a link of its own. -/
def markLink (s : State) (pkg link : Nat) : State :=
  setPkg s pkg { pkgAt s pkg with
    failed := if (pkgAt s pkg).failed.contains link then (pkgAt s pkg).failed else link :: (pkgAt s pkg).failed }

theorem mem_failed_markLink (s : State) (pkg link : Nat) : link ∈ (pkgAt (markLink s pkg link) pkg).failed := by
  rw [markLink, pkgAt_setPkg_same]
  split
  · next h => simpa using h
  · exact List.mem_cons_self

theorem pkgAt_markLink_other (s : State) {pkg q : Nat} (link : Nat) (h : q ≠ pkg) : pkgAt (markLink s pkg link) q = pkgAt s q :=
  pkgAt_setPkg_other _ _ h

section
variable {s : State} {pkg link : Nat} (hpower : (pkgAt s pkg).dead = false) (hup : link ∉ (pkgAt s pkg).failed)
include hpower hup

/-- A bridge's or a fibre's other end is in the same package or has no mark. -/
theorem failLink_single (h : link < 27 ∨ (64 ≤ link ∧ link < 80)) : failLink s pkg link = queueGen (markLink s pkg link) pkg 0 := by
  have hmark : markFailed s pkg link = (true, markLink s pkg link) := by
    unfold markFailed
    dsimp only
    rw [if_neg (by simp [hpower, hup])]
    rcases h with h | ⟨hlo, hhi⟩
    · rw [if_pos h]; rfl
    · rw [if_neg (by omega), if_neg (by omega), if_pos ⟨hlo, hhi⟩]; rfl
  simp only [failLink, hmark, if_true]

/-- A rail is marked at both of its packages. -/
theorem failLink_rail (hlo : 32 ≤ link) (hhi : link < 64) (hfar : link % 8 ≠ pkg % 8) :
    failLink s pkg link = queueGen (markLink (markLink s pkg link) (pkg / 8 * 8 + link % 8) (railLink ((link - 32) / 8) (pkg % 8))) pkg 0 := by
  have hmark : markFailed s pkg link =
      (true, markLink (markLink s pkg link) (pkg / 8 * 8 + link % 8) (railLink ((link - 32) / 8) (pkg % 8))) := by
    unfold markFailed
    dsimp only
    rw [if_neg (by simp [hpower, hup]), if_neg (by omega), if_pos ⟨hlo, hhi, hfar⟩]
    rfl
  simp only [failLink, hmark, if_true]

omit hpower in
theorem pkgAt_markLink : pkgAt (markLink s pkg link) pkg = { pkgAt s pkg with failed := link :: (pkgAt s pkg).failed } := by
  rw [markLink, pkgAt_setPkg_same, if_neg (by simpa using hup)]

/-- What a failed bridge or fibre leaves. -/
theorem linkFailure_single (h : link < 27 ∨ (64 ≤ link ∧ link < 80)) :
    ∃ u, exec (.linkFailure pkg link) s = .next u ∧ u.mem = s.mem ∧ u.flight = s.flight ∧ u.cores = s.cores ∧
      (pkgAt u pkg).failed = link :: (pkgAt s pkg).failed ∧
      (∃ m : CMsg, (pkgAt u pkg).queue = (pkgAt s pkg).queue ++ [m] ∧ m.kind = 5 ∧ m.pos = pkg % 8 ∧ m.body = [0, 0]) ∧
      ∀ q, q ≠ pkg → pkgAt u q = pkgAt s q := by
  refine ⟨_, next_congr (failLink_single hpower hup h), rfl, rfl, rfl, ?_, ⟨serviceMsg pkg 5 0 [0, 0], ?_, rfl, rfl, rfl⟩, fun q hq => ?_⟩
  · rw [pkgAt_queueGen, pkgAt_markLink hup]
  · rw [pkgAt_queueGen, pkgAt_markLink hup]
  · exact (pkgAt_serviceCrier_other _ _ _ _ hq).trans (pkgAt_markLink_other _ _ hq)

/-- What a failed rail leaves. -/
theorem linkFailure_rail (hlo : 32 ≤ link) (hhi : link < 64) (hfar : link % 8 ≠ pkg % 8) :
    ∃ u, exec (.linkFailure pkg link) s = .next u ∧ u.mem = s.mem ∧ u.flight = s.flight ∧ u.cores = s.cores ∧
      (pkgAt u pkg).failed = link :: (pkgAt s pkg).failed ∧
      (∃ m : CMsg, (pkgAt u pkg).queue = (pkgAt s pkg).queue ++ [m] ∧ m.kind = 5 ∧ m.pos = pkg % 8 ∧ m.body = [0, 0]) ∧
      railLink ((link - 32) / 8) (pkg % 8) ∈ (pkgAt u (pkg / 8 * 8 + link % 8)).failed ∧
      ∀ q, q ≠ pkg → q ≠ pkg / 8 * 8 + link % 8 → pkgAt u q = pkgAt s q := by
  have hne : pkg / 8 * 8 + link % 8 ≠ pkg := by omega
  have hown (l : Nat) : pkgAt (markLink (markLink s pkg link) (pkg / 8 * 8 + link % 8) l) pkg =
      { pkgAt s pkg with failed := link :: (pkgAt s pkg).failed } :=
    (pkgAt_markLink_other _ _ hne.symm).trans (pkgAt_markLink hup)
  refine ⟨_, next_congr (failLink_rail hpower hup hlo hhi hfar), rfl, rfl, rfl, ?_, ⟨serviceMsg pkg 5 0 [0, 0], ?_, rfl, rfl, rfl⟩, ?_,
    fun q hq hqfar => ?_⟩
  · rw [pkgAt_queueGen, hown]
  · rw [pkgAt_queueGen, hown]
  · rw [queueGen, pkgAt_serviceCrier_other _ _ _ _ hne]
    exact mem_failed_markLink ..
  · exact ((pkgAt_serviceCrier_other _ _ _ _ hq).trans (pkgAt_markLink_other _ _ hqfar)).trans (pkgAt_markLink_other _ _ hq)

end

/-! ### Lanes (R174) -/

/-- ERRMAX of a package. -/
def errMax (s : State) (pkg : Nat) : Nat := nbits (fabWord s pkg 0x410100) 0 32

/-- A lane of a package with power that has a state. -/
structure RealLane (s : State) (pkg lane : Nat) : Prop where
  low : lane < 256
  peer : lane % 8 ≠ 0
  power : (pkgAt s pkg).dead = false
  wf : Memory.wf s.mem = true

/-- `i` stores `v` at the word of a lane, and changes neither cores nor packets nor what the package knows of its links and has queued. -/
def StoresLane (i : Instr) (s : State) (pkg lane v : Nat) : Prop :=
  ∃ u, exec i s = .next u ∧ Stored s u (sliceKey (fabricCore pkg) (laneOff lane)) 8 v ∧ u.cores = s.cores ∧ u.flight = s.flight ∧
    (pkgAt u pkg).failed = (pkgAt s pkg).failed ∧ (pkgAt u pkg).queue = (pkgAt s pkg).queue

theorem laneState_setFab_same {s : State} (hwf : Memory.wf s.mem = true) (pkg lane v : Nat) :
    laneState (setFab s pkg (laneOff lane) v) pkg lane = v % 4 := by
  rw [laneState, fabWord_setFab_same hwf, nbits]
  omega

theorem laneState_setFab_other {s : State} (hwf : Memory.wf s.mem = true) (pkg v : Nat) {lane l : Nat} (h : l ≠ lane) :
    laneState (setFab s pkg (laneOff lane) v) pkg l = laneState s pkg l := by
  rw [laneState, fabWord_setFab_other hwf _ _ (by simp only [laneOff]; omega), laneState]

theorem errMax_setFab_lane {s : State} (hwf : Memory.wf s.mem = true) (pkg lane v : Nat) :
    errMax (setFab s pkg (laneOff lane) v) pkg = errMax s pkg := by
  rw [errMax, fabWord_setFab_other hwf _ _ (by simp only [laneOff]; omega), errMax]

section
variable {s : State} {pkg lane : Nat}

/-- A window over ERRMAX makes a live lane a bad one. -/
def laneBad (s : State) (pkg lane count : Nat) : Bool :=
  laneState s pkg lane == 0 && errMax s pkg != 0 && decide (errMax s pkg < count)

/-- A bad lane is removed while fewer than two of its rail retrain. -/
def laneGoes (s : State) (pkg lane count : Nat) : Bool := laneBad s pkg lane count && decide (lanesBusy s pkg lane < 2)

/-- The lanes that wait for another to return, once the window of one has been judged. -/
def laneWaits (s : State) (pkg lane count : Nat) : List Nat :=
  let others := (pkgAt s pkg).laneWait.filter fun l => l != lane
  if laneBad s pkg lane count && !laneGoes s pkg lane count then others ++ [lane] else others

theorem laneWindow_real (h : RealLane s pkg lane) (count : Nat) :
    laneWindow s pkg lane count = setFab (setPkg s pkg { pkgAt s pkg with laneWait := laneWaits s pkg lane count }) pkg (laneOff lane)
      (Nat.min count 65535 * 2 ^ 48 + nbits (fabWord s pkg (laneOff lane)) 40 8 * 2 ^ 40 +
        if laneGoes s pkg lane count then 1 else laneState s pkg lane) := by
  unfold laneWindow
  dsimp only
  rw [if_neg (by simp [h.low, h.peer, h.power])]
  rfl

theorem laneErrorWindow_stores (h : RealLane s pkg lane) (count : Nat) :
    StoresLane (.laneErrorWindow pkg lane count) s pkg lane (Nat.min count 65535 * 2 ^ 48 + nbits (fabWord s pkg (laneOff lane)) 40 8 * 2 ^ 40 +
      if laneState s pkg lane = 0 ∧ errMax s pkg ≠ 0 ∧ errMax s pkg < count ∧ lanesBusy s pkg lane < 2 then 1 else laneState s pkg lane) := by
  have hgoes : laneGoes s pkg lane count = true ↔
      laneState s pkg lane = 0 ∧ errMax s pkg ≠ 0 ∧ errMax s pkg < count ∧ lanesBusy s pkg lane < 2 := by
    simp [laneGoes, laneBad, and_assoc]
  simp only [← hgoes]
  refine ⟨_, next_congr (laneWindow_real h count), stored_setFab (t := setFab _ _ _ _) h.wf rfl, rfl, rfl, ?_, ?_⟩
  · rw [pkgAt_setFab, pkgAt_setPkg_same]
  · rw [pkgAt_setFab, pkgAt_setPkg_same]

/-- A bad lane waits exactly when two of its rail retrain. -/
theorem laneErrorWindow_waits (h : RealLane s pkg lane) {count : Nat} (hlive : laneState s pkg lane = 0) (hmax : errMax s pkg ≠ 0)
    (hover : errMax s pkg < count) : ∃ u, exec (.laneErrorWindow pkg lane count) s = .next u ∧
      (lanesBusy s pkg lane < 2 → lane ∉ (pkgAt u pkg).laneWait) ∧ (2 ≤ lanesBusy s pkg lane → lane ∈ (pkgAt u pkg).laneWait) := by
  have hbad : laneBad s pkg lane count = true := by simp [laneBad, hlive, hmax, hover]
  refine ⟨_, next_congr (laneWindow_real h count), fun hbusy => ?_, fun hbusy => ?_⟩
  · rw [pkgAt_setFab, pkgAt_setPkg_same]
    simp [laneWaits, laneGoes, hbad, hbusy]
  · rw [pkgAt_setFab, pkgAt_setPkg_same]
    simp [laneWaits, laneGoes, hbad, Nat.not_lt.mpr hbusy]

/-- No lane of the rail waits, or ERRMAX = 0 has turned retraining off. -/
def NoneWaits (s : State) (pkg lane : Nat) : Prop := errMax s pkg = 0 ∨ ∀ l ∈ (pkgAt s pkg).laneWait, l ∉ laneMates lane

theorem NoneWaits.congr {t : State} (h : NoneWaits s pkg lane) (hmax : errMax t pkg = errMax s pkg)
    (hwait : (pkgAt t pkg).laneWait = (pkgAt s pkg).laneWait) : NoneWaits t pkg lane := by
  rw [NoneWaits, hmax, hwait]; exact h

theorem laneTurn_none (h : NoneWaits s pkg lane) : laneTurn s pkg lane = s := by
  have hfind : ((pkgAt s pkg).laneWait.find? fun l => (laneMates lane).contains l && laneState s pkg l == 0 && errMax s pkg != 0) = none := by
    rw [List.find?_eq_none]
    intro l hl
    rcases h with h | h
    · simp [h]
    · simp [h l hl]
  unfold laneTurn
  dsimp only
  unfold errMax at hfind
  rw [hfind]

/-- The one lane that waits is removed. -/
theorem laneTurn_one {l : Nat} (hmax : errMax s pkg ≠ 0) (hwait : (pkgAt s pkg).laneWait = [l]) (hmate : l ∈ laneMates lane)
    (hlive : laneState s pkg l = 0) :
    laneTurn s pkg lane = setFab (setPkg s pkg { pkgAt s pkg with laneWait := [] }) pkg (laneOff l)
      (fabWord s pkg (laneOff l) / 4 * 4 + 1) := by
  have hfind : ((pkgAt s pkg).laneWait.find? fun l => (laneMates lane).contains l && laneState s pkg l == 0 && errMax s pkg != 0) = some l := by
    rw [hwait]
    simp [hmate, hlive, hmax]
  unfold laneTurn
  dsimp only
  unfold errMax at hfind
  rw [hfind, hwait]
  simp

theorem laneRetrained_busy (h : laneState s pkg lane ≠ 1) (pass : Bool) : laneRetrained s pkg lane pass = s :=
  if_pos (.inr (.inr (.inr h)))

section
variable (h : RealLane s pkg lane) (hbusy : laneState s pkg lane = 1)
include h hbusy

theorem laneRetrained_pass : laneRetrained s pkg lane true = laneTurn (setFab s pkg (laneOff lane) 0) pkg lane := by
  unfold laneRetrained
  dsimp only
  rw [if_neg (by simp [h.low, h.peer, h.power, hbusy]), if_pos rfl]

theorem laneRetrained_again (hfew : nbits (fabWord s pkg (laneOff lane)) 40 8 < 2) :
    laneRetrained s pkg lane false = setFab s pkg (laneOff lane)
      (nbits (fabWord s pkg (laneOff lane)) 48 16 * 2 ^ 48 + (nbits (fabWord s pkg (laneOff lane)) 40 8 + 1) * 2 ^ 40 + 1) := by
  unfold laneRetrained
  dsimp only
  rw [if_neg (by simp [h.low, h.peer, h.power, hbusy]), if_neg Bool.false_ne_true, if_pos (by omega)]

/-- The third failure in a row disables the lane; its rail stays, as another lane toward the peer is not disabled. -/
theorem laneRetrained_third (hfew : 2 = nbits (fabWord s pkg (laneOff lane)) 40 8) (hwaits : NoneWaits s pkg lane)
    (hother : ∃ l ∈ laneMates lane, l ≠ lane ∧ laneState s pkg l ≠ 2) :
    laneRetrained s pkg lane false =
      (let t := setFab s pkg (laneOff lane) (nbits (fabWord s pkg (laneOff lane)) 48 16 * 2 ^ 48 + 3 * 2 ^ 40 + 2)
       setPkg t pkg { pkgAt s pkg with laneNotes := (pkgAt s pkg).laneNotes ++ [lane] }) := by
  unfold laneRetrained
  dsimp only
  rw [if_neg (by simp [h.low, h.peer, h.power, hbusy]), if_neg Bool.false_ne_true, if_neg (by omega), ← hfew, laneTurn_none, if_neg]
  · rfl
  · obtain ⟨l, hl, hne, hstate⟩ := hother
    intro hall
    have := List.all_eq_true.mp hall l hl
    rw [laneState_setPkg, laneState_setFab_other h.wf _ _ hne] at this
    exact hstate (by simpa using this)
  · exact hwaits.congr (errMax_setFab_lane h.wf ..) (by rw [pkgAt_setPkg_same]; rfl)

/-- The lane is handed back, and the one that waits for it is removed in its stead. -/
theorem laneRetrainDone_passesOn {l : Nat} (hmax : errMax s pkg ≠ 0) (hwait : (pkgAt s pkg).laneWait = [l]) (hmate : l ∈ laneMates lane)
    (hne : l ≠ lane) (hlive : laneState s pkg l = 0) :
    ∃ u, exec (.laneRetrainDone pkg lane true) s = .next u ∧ laneState u pkg lane = 0 ∧ laneState u pkg l = 1 ∧ (pkgAt u pkg).laneWait = [] := by
  have hwf := Memory.wf_write (sliceKey (fabricCore pkg) (laneOff lane)) 8 0 h.wf
  have hturn := laneTurn_one (s := setFab s pkg (laneOff lane) 0) (by rwa [errMax_setFab_lane h.wf]) hwait hmate
    (by rwa [laneState_setFab_other h.wf _ _ hne])
  refine ⟨_, next_congr ((laneRetrained_pass h hbusy).trans hturn), ?_, ?_, ?_⟩
  · rw [laneState_setFab_other hwf _ _ hne.symm, laneState_setPkg, laneState_setFab_same h.wf]
  · rw [laneState_setFab_same hwf]
    omega
  · rw [pkgAt_setFab, pkgAt_setPkg_same]

theorem laneRetrainDone_returns (hwaits : NoneWaits s pkg lane) : StoresLane (.laneRetrainDone pkg lane true) s pkg lane 0 := by
  have hturn := laneTurn_none (hwaits.congr (t := setFab s pkg (laneOff lane) 0) (errMax_setFab_lane h.wf ..) rfl)
  exact ⟨_, next_congr ((laneRetrained_pass h hbusy).trans hturn), stored_setFab h.wf rfl, rfl, rfl, rfl, rfl⟩

theorem laneRetrainDone_again (hfew : nbits (fabWord s pkg (laneOff lane)) 40 8 < 2) :
    StoresLane (.laneRetrainDone pkg lane false) s pkg lane
      (nbits (fabWord s pkg (laneOff lane)) 48 16 * 2 ^ 48 + (nbits (fabWord s pkg (laneOff lane)) 40 8 + 1) * 2 ^ 40 + 1) :=
  ⟨_, next_congr (laneRetrained_again h hbusy hfew), stored_setFab h.wf rfl, rfl, rfl, rfl, rfl⟩

theorem laneRetrainDone_third (hfew : 2 = nbits (fabWord s pkg (laneOff lane)) 40 8) (hwaits : NoneWaits s pkg lane)
    (hother : ∃ l ∈ laneMates lane, l ≠ lane ∧ laneState s pkg l ≠ 2) :
    StoresLane (.laneRetrainDone pkg lane false) s pkg lane (nbits (fabWord s pkg (laneOff lane)) 48 16 * 2 ^ 48 + 3 * 2 ^ 40 + 2) ∧
      ∃ u, exec (.laneRetrainDone pkg lane false) s = .next u ∧ (pkgAt u pkg).laneNotes = (pkgAt s pkg).laneNotes ++ [lane] := by
  have hexec := next_congr (laneRetrained_third h hbusy hfew hwaits hother)
  refine ⟨⟨_, hexec, stored_setFab h.wf rfl, rfl, rfl, ?_, ?_⟩, _, hexec, ?_⟩ <;> rw [pkgAt_setPkg_same]

end

end

/-! ### Packets on their way (R123, R168, R172) -/

section
variable {s : State} {k : Nat} {p : Packet} (hk : s.flight[k]? = some p)
include hk

theorem divert_near (hnear : p.near = true) : divert s k = s := by
  simp only [divert, hk, hnear, if_true]

theorem divert_far (hfar : p.near = false) : divert s k = { s with flight := s.flight.set k { p with esc := true } } := by
  simp only [divert, hk, hfar, Bool.false_eq_true, if_false]

/-- A packet that no hop is left to is not taken. -/
theorem takeAt_noWay (hfar : p.near = false) (hway : p.hasWay s = false) : takeAt s k = .no := by
  unfold takeAt
  rw [hk]
  dsimp only
  rw [hfar, hway]
  simp

/-- Does a kept packet agree with one on its way in generation, flow and number? -/
def samePacket (p q : Packet) : Bool :=
  q.gen == p.gen && q.seq == p.seq && q.net == p.net && dieOf q.src == dieOf p.src && dieOf q.dst == dieOf p.dst

theorem packetLost_stays (h : p.near = true ∨ ¬∃ e ∈ (pkgAt s (pkgOf p.src)).gens, e.gen = p.gen) : packetLost s k = s := by
  unfold packetLost
  rw [hk]
  exact if_pos (h.imp_right fun h => by simpa using h)

theorem packetLost_draining (hfar : p.near = false) (h : ∃ e ∈ (pkgAt s (pkgOf p.src)).gens, e.gen = p.gen) :
    packetLost s k = { removeAt s k with
      keptReq := s.keptReq.map fun q => if samePacket p q then { q with gen := (pkgAt s (pkgOf p.src)).gen } else q } := by
  unfold packetLost
  rw [hk]
  exact if_neg (by simpa [hfar] using h)

end

theorem samePacket_self (p : Packet) : samePacket p p = true := by simp [samePacket]

/-! ### The obligation -/

/-- Settles O46: a link's failure is its marks and one GEN message (`failLink_single`, `failLink_rail`); a lane's window and the end of its
retraining store its word, and lanes that wait are dealt with by `laneTurn_none` and `laneTurn_one`; packets keep their places. -/
theorem fabricFares : Obligations.FabricFares := by
  refine ⟨fun s pkg link lane count => ?_, fun s k p => ?_⟩
  · intro g told fails far key w max busy real writes
    have hreal : real → RealLane s pkg lane := fun ⟨hlow, hpeer, hpower, hwf⟩ => ⟨hlow, hpeer, hpower, hwf⟩
    exact ⟨fun h => next_congr (failLink_failed h), fun hpower hup hlow => linkFailure_single hpower hup (.inl hlow),
      fun hpower hup hlo hhi hfar => linkFailure_rail hpower hup hlo hhi hfar,
      fun hpower hup hlo hhi => linkFailure_single hpower hup (.inr ⟨hlo, hhi⟩),
      fun h hlive hmax hover => laneErrorWindow_waits (hreal h) hlive hmax hover,
      fun h => laneErrorWindow_stores (hreal h) count,
      fun hbusy pass => next_congr (laneRetrained_busy hbusy pass),
      fun l h hmax hbusy hwait hmate hne hlive => laneRetrainDone_passesOn (hreal h) hbusy hmax hwait hmate hne hlive,
      fun h hbusy hwaits => ⟨laneRetrainDone_returns (hreal h) hbusy hwaits, laneRetrainDone_again (hreal h) hbusy,
        fun hfew hother => laneRetrainDone_third (hreal h) hbusy hfew hwaits hother⟩⟩
  · intro g draining
    refine ⟨rfl, rfl, fun hk hfar => ?_, fun hk hnear => ⟨next_congr (divert_near hk hnear), next_congr (packetLost_stays hk (.inl hnear))⟩,
      fun hk hfar hway => ?_, fun hk hdrain => next_congr (packetLost_stays hk (.inr hdrain)), fun hk hfar hdrain => ?_⟩
    · obtain ⟨hlt, -⟩ := List.getElem?_eq_some_iff.mp hk
      exact ⟨_, next_congr (divert_far hk hfar), rfl, rfl, List.getElem?_set_self hlt, fun j hj => List.getElem?_set_ne hj.symm⟩
    · refine next_congr ?_
      rw [deliverPacket, takeAt_noWay hk hfar hway]
    · refine ⟨_, next_congr (packetLost_draining hk hfar hdrain), rfl, rfl, rfl, List.length_map .., fun j q hq => ?_⟩
      refine ⟨if samePacket p q then g.gen else q.gen, ?_, ?_, ?_⟩
      · simp only [List.getElem?_map, hq, Option.map_some]
        split <;> rfl
      · split
        · exact .inr rfl
        · exact .inl rfl
      · rintro rfl
        exact if_pos (samePacket_self q)

end Sys2Proof.Machine

/-! ## Crier messages taken in order, and commits of route tables (R161, R162, R171) -/

namespace Sys2Proof.Machine

/-! ### The next message of a package -/

/-- A package has taken its next message. -/
def takenNext (s : State) (pkg : Nat) : State := setPkg s pkg { pkgAt s pkg with applied := (pkgAt s pkg).applied + 1 }

@[simp] theorem pkgAt_takenNext (s : State) (pkg : Nat) :
    pkgAt (takenNext s pkg) pkg = { pkgAt s pkg with applied := (pkgAt s pkg).applied + 1 } := pkgAt_setPkg_same ..

theorem applyCrier_next {s : State} {pkg : Nat} {m : CMsg} (h : nextCrier s pkg = some m) {kind : Nat → Bool} (hk : kind m.kind = true)
    (f : State → CMsg → State) : applyCrier s pkg kind f = f (takenNext s pkg) m := by
  unfold applyCrier
  rw [h]
  exact if_pos hk

/-- A message that a package applies next stands in its pod's order, and the package is heard. -/
theorem nextCrier_some {s : State} {pkg : Nat} {m : CMsg} (h : nextCrier s pkg = some m) :
    heard s pkg = true ∧ (podAt s (pkg / 8)).sent[(pkgAt s pkg).applied]? = some m := by
  unfold nextCrier at h
  dsimp only at h
  split at h
  · cases h
  · next hwaits =>
    simp only [Bool.or_eq_true, Bool.not_eq_true', not_or, Bool.not_eq_false] at hwaits
    exact ⟨hwaits.1, h⟩

/-! ### Commits (R171) -/

section
variable {s : State} {pkg : Nat}

/-- A commit may be judged: its package is heard and has applied its INTENT, none is being installed, and no earlier one is open. -/
def CommitDue (s : State) (pkg : Nat) : Prop :=
  heard s pkg = true ∧ fabStatus s pkg = 1 ∧ hasIntent s pkg = true ∧ (pkgAt s pkg).commitBy = none ∧ openBefore s pkg = []

/-- The commits that a check leaves open; a refused one is open no more. -/
def intentsLeft (s : State) (pkg : Nat) : List (Nat × Nat) :=
  (pkgAt s pkg).intents.filter fun e => commitOpen s e && (refuseReason s pkg == 0 || e.1 != pkg)

theorem commitCheck_waits (h : ¬CommitDue s pkg) : commitCheck s pkg = s := by
  refine if_pos ?_
  by_contra hdue
  simp only [not_or, Bool.not_eq_true', Bool.not_eq_false, Option.not_isSome_iff_eq_none, ne_eq, not_not] at hdue
  exact h hdue

theorem commitCheck_due (h : CommitDue s pkg) :
    commitCheck s pkg =
      (let t := setPkg s pkg { pkgAt s pkg with
          intents := intentsLeft s pkg
          commitBy := if refuseReason s pkg = 0 then some pkg else none }
       if refuseReason s pkg ≠ 0 then setFab t pkg 0x410008 (3 + 256 * refuseReason s pkg) else queueGen t pkg 1) := by
  obtain ⟨hheard, hstatus, hintent, hby, hopen⟩ := h
  exact if_neg (by simp [hheard, hstatus, hintent, hby, hopen])

theorem commitCheck_refuses (h : CommitDue s pkg) (hbad : refuseReason s pkg ≠ 0) (hwf : Memory.wf s.mem = true) :
    ∃ u, exec (.commitCheck pkg) s = .next u ∧ u.cores = s.cores ∧
      Stored s u (sliceKey (fabricCore pkg) 0x410008) 8 (3 + 256 * refuseReason s pkg) ∧ (pkgAt u pkg).queue = (pkgAt s pkg).queue ∧
      hasIntent u pkg = false := by
  refine ⟨_, next_congr ((commitCheck_due h).trans (if_pos hbad)), rfl, stored_setFab hwf rfl, ?_, ?_⟩
  · rw [pkgAt_setFab, pkgAt_setPkg_same]
  · rw [hasIntent, pkgAt_setFab, pkgAt_setPkg_same, List.any_eq_false]
    intro e he
    have hkept := (List.mem_filter.mp he).2
    simp only [Bool.and_eq_true, Bool.or_eq_true, beq_iff_eq, hbad, false_or, bne_iff_ne] at hkept
    simpa using hkept.2

theorem commitCheck_accepts (h : CommitDue s pkg) (hgood : refuseReason s pkg = 0) :
    ∃ u n, exec (.commitCheck pkg) s = .next u ∧ u.mem = s.mem ∧ u.cores = s.cores ∧ (pkgAt u pkg).commitBy = some pkg ∧
      (pkgAt u pkg).queue = (pkgAt s pkg).queue ++ [n] ∧ n.kind = 5 ∧ n.body = [1, 0] := by
  refine ⟨_, serviceMsg pkg 5 0 [1, 0], next_congr ((commitCheck_due h).trans (if_neg (not_not.mpr hgood))), rfl, rfl, ?_, ?_, rfl, rfl⟩
  · rw [pkgAt_queueGen, pkgAt_setPkg_same, if_pos hgood]
  · rw [pkgAt_queueGen, pkgAt_setPkg_same]

theorem crierIntent_next {m : CMsg} (h : nextCrier s pkg = some m) (hkind : m.kind = 8) :
    crierIntent s pkg = setPkg (takenNext s pkg) pkg { pkgAt s pkg with
      applied := (pkgAt s pkg).applied + 1
      intents := (pkgAt s pkg).intents ++ [(8 * (pkg / 8) + m.pos, m.seq)] } := by
  rw [crierIntent, applyCrier_next h (by simp [hkind]), pkgAt_takenNext]

end

/-- Settles O47: an INTENT is taken in its place (`crierIntent_next`); a commit that is not due changes nothing, and one that is due is refused or
accepted as the checker says (`commitCheck_due`). -/
theorem commitsAreChecked : Obligations.CommitsAreChecked := by
  intro s pkg m g i due
  refine ⟨fun hnext hkind => ?_, fun hdue => next_congr (commitCheck_waits hdue), commitCheck_refuses, commitCheck_accepts, rfl⟩
  exact ⟨_, next_congr (crierIntent_next hnext hkind), rfl, rfl, pkgAt_setPkg_same ..⟩

end Sys2Proof.Machine

/-! ## A token frame makes room for an arrival that waits (R163, R262)

A BARR at a POD barrier stalls while its partition's share of the Crier queue is full, and its arrival is queued as soon as there is room.
The messages that the holder sends make that room, so the frame may leave one message more than the ones it did not send. -/

namespace Sys2Proof.Machine

/-- A CRY.ST of core 0's partition, as it waits in package 0's queue. -/
def shareMsg : CMsg := ⟨0, 0, 0, 0, 0, 0, 0, [], 0, none, zeroVec⟩

/-- The key of POD record 0 in package 0. -/
def shareKey : Nat := barKey 0 .pod 0

/-- Context 0 of core 0 has stalled at its second BARR since phase 0. -/
def shareWaiter : Ctx :=
  { Ctx.reset 0 0 with
    st := .running
    block := .barr shareKey 0 0 }

/-- The record, of which package 0 is the one member, is in phase 1. -/
def shareRecord : Barrier :=
  { Barrier.reset with
    word := 0x8000000000000000
    mask := [0]
    phase := 1 }

/-- The machine at reset but for the record, the stalled context, and the 32 messages that fill its partition's share. -/
def fullShare : State :=
  setPkg (setBar (setCtx State.reset 0 0 shareWaiter) shareKey shareRecord) 0 { Pkg.reset with queue := List.replicate 32 shareMsg }

/-- The stalled arrival waits for nothing but room. -/
theorem fullShare_waits : countsNow fullShare shareKey 0 = true ∧ noShare fullShare shareKey 0 = true := by decide +kernel

/-- The frame sends four of the 32 messages, and behind the 28 others the arrival is queued. -/
theorem queue_tokenFrame_fullShare :
    ((pkgAt (tokenFrame fullShare 0) 0).queue.map fun y => y.kind) = List.replicate 28 0 ++ [3] := by decide +kernel

/-- Refutes O48: the queue that a token frame leaves is not what it did not send, since an arrival that stalled for want of room is queued in the
same step. -/
theorem not_crierToken : ¬ Obligations.CrierToken := by
  unfold Obligations.CrierToken
  intro h
  obtain ⟨-, hsends, -⟩ := h fullShare 0 0 0 shareMsg (List.replicate 32 shareMsg)
  obtain ⟨u, hexec, -, -, hqueue, -⟩ := hsends (by decide +kernel) (by decide +kernel) fun y hy => by
    rw [List.eq_of_mem_replicate hy]; decide
  have hu : tokenFrame fullShare 0 = u := Host.Outcome.next.inj hexec
  have hkinds := queue_tokenFrame_fullShare
  rw [hu] at hkinds
  have hlen : (pkgAt u 0).queue.length = 29 := by
    simpa using congrArg List.length hkinds
  have hrest : (pkgAt u 0).queue.length = 28 := congrArg List.length hqueue
  omega

end Sys2Proof.Machine

/-! ## A barrier arrival with an offset beyond the POD records (R45, R46, R162)

The POFF of a barrier arrival picks the record, and the records of POD scope end at index 15. The statement bounds POFF nowhere, though, and an
arrival whose POFF leads past the package's control space names a record of another scope, at which a stalled arrival counts at once and not
by a message of the Crier. As in the refutation of O37, a context in BWAIT whose block names the record stalls there only when the end of the
phase wakes it. -/

namespace Sys2Proof.Machine

/-- The first POFF that leads past a control space of 8 MiB. -/
def strayPoff : Nat := 0x3EC0

/-- The record that it names in package 0: by its place one of QUAD scope. -/
def strayKey : Nat := barKey (16384 * 0) .pod strayPoff

theorem strayKey_scope : keyScope strayKey = .quad := by decide

/-- The arrival of position 0 at that record, of the current incarnation. -/
def strayMsg : CMsg := ⟨0, 3, 0, 0, 0, strayPoff, 0, [1], 0, none, zeroVec⟩

/-- Context 0 of core 1 waits in BWAIT for phase 0 of the record, and its block names the record. -/
def strayWaiter : Ctx :=
  { blockedWaiter with
    bwait := some ⟨strayKey, 0, 3, 1, 0, none⟩
    block := .barr strayKey 0 0 }

/-- The record has members 0 and 1, of which member 1 has arrived. -/
def strayRecord : Barrier :=
  { Barrier.reset with
    word := 0x8000000000000000
    mask := [0, 1]
    arrived := [1] }

/-- The machine at reset but for the record, the waiting context, and the arrival, which every package has still to apply. -/
def strayArrival : State :=
  setPod (setBar (setCtx State.reset 1 0 strayWaiter) strayKey strayRecord) 0
    { Pod.reset with
      seq := 1
      sent := [strayMsg] }

theorem nextCrier_strayArrival : nextCrier strayArrival 0 = some strayMsg := by decide +kernel

/-- The arrival is the last that the phase awaits, and no context stalls at the record. -/
theorem strayArrival_last : curInc strayArrival 0 strayMsg = true ∧ barEn (barAt strayArrival strayKey) = true ∧
    (∀ x ∈ (barAt strayArrival strayKey).mask, x = 0 ∨ x ∈ (barAt strayArrival strayKey).arrived) ∧
    stalledBarrs strayArrival strayKey = [] := by decide +kernel

/-- The phase ends, and core 1 counts as arrived in the next. -/
theorem arrived_crierBarrier_strayArrival : (barAt (crierBarrier strayArrival 0) strayKey).arrived = [1] := by decide +kernel

/-- Refutes O49: the last arrival of a phase does not leave the record without arrivals, when its POFF names a record of QUAD scope at which the
end of the phase lets another one count. -/
theorem not_crierApplies : ¬ Obligations.CrierApplies := by
  unfold Obligations.CrierApplies
  intro h
  obtain ⟨hinc, hen, hlast, hstalled⟩ := strayArrival_last
  obtain ⟨-, -, -, -, -, -, -, -, hends, -⟩ := h strayArrival 0 strayMsg nextCrier_strayArrival rfl
  obtain ⟨u, hexec, -, -, -, harrived⟩ := hends rfl ⟨hinc, hen, by decide +kernel, by decide +kernel⟩ hlast (by decide +kernel) hstalled
  have hu : crierBarrier strayArrival 0 = u := Host.Outcome.next.inj hexec
  have hone := arrived_crierBarrier_strayArrival
  rw [hu] at hone
  exact absurd (hone.symm.trans harrived) (by decide)

end Sys2Proof.Machine

/-! ## What settles a lost die leaves the generations alone (R123, R167, R168, R215)

A generation that closes is taken off its package's list, and then everything that the package can no longer reach is settled: accesses are
answered, notices raised, messages sent, barrier phases aborted. None of that touches a list of generations. The functions stand in the model's
order, each shown from those it calls; only the writes of a package at the bottom have anything to show. -/

namespace Sys2Proof.Machine

/-- Every package's list of open and draining generations is that of `G`. -/
def GensAre (G : Nat → List GenSt) (s : State) : Prop := ∀ p, (pkgAt s p).gens = G p

namespace GensAre

variable {G : Nat → List GenSt} {s t : State}

theorem congr (h : GensAre G s) (hpkgs : t.pkgs = s.pkgs := by rfl) : GensAre G t := fun p => by
  rw [pkgAt, hpkgs]; exact h p

theorem ite {c : Prop} {_ : Decidable c} (h : GensAre G s) (h' : GensAre G t) : GensAre G (if c then s else t) := by
  split <;> assumption

theorem foldl {α : Type} {f : State → α → State} {l : List α} (h : GensAre G s) (hf : ∀ t a, GensAre G t → GensAre G (f t a)) :
    GensAre G (l.foldl f s) := by
  induction l generalizing s with
  | nil => exact h
  | cons a l ih => exact ih (hf s a h)

theorem setPkg {p : Nat} {k : Pkg} (h : GensAre G s) (hk : k.gens = (pkgAt s p).gens) : GensAre G (setPkg s p k) := fun q => by
  by_cases hq : q = p
  · rw [hq, pkgAt_setPkg_same, hk]; exact h p
  · rw [pkgAt_setPkg_other _ _ hq]; exact h q

theorem setCore {n : Nat} {k : Core} (h : GensAre G s) : GensAre G (setCore s n k) := h.congr
theorem setCtx {n c : Nat} {t : Ctx} (h : GensAre G s) : GensAre G (setCtx s n c t) := h.congr
theorem wakeAll {n : Nat} {c : Cause} (h : GensAre G s) : GensAre G (wakeAll s n c) := h.setCore

/-! ### Packets, wakes and faults -/

theorem stampOf {src dst : Nat} {w : Bool} (h : GensAre G s) : GensAre G (stampOf s src dst w).2 := by
  unfold Machine.stampOf
  dsimp only
  split_ifs
  exacts [h, h, h, h.congr, GensAre.setPkg h.congr rfl, h.congr]

theorem transmit {src dst part inc : Nat} {net : Net} {w : Bool} {b : Body} (h : GensAre G s) :
    GensAre G (transmit s src dst net part inc w b) := by
  unfold Machine.transmit
  dsimp only
  split <;> exact h.stampOf.congr

theorem supMessage {n c code : Nat} {c63 engine : Bool} {adr pc : Word} (h : GensAre G s) :
    GensAre G (supMessage s n c code c63 engine adr pc) := h.transmit

theorem raiseSup {n c code : Nat} {adr pc : Word} (h : GensAre G s) : GensAre G (raiseSup s n c code adr pc) :=
  h.setCtx.supMessage

theorem raiseSupExc {n c code : Nat} {adr pc : Word} (h : GensAre G s) : GensAre G (raiseSupExc s n c code adr pc) := h.setCtx

theorem queueUpcall {n : Nat} {u : Upcall} (h : GensAre G s) : GensAre G (queueUpcall s n u) :=
  h.congr (wakesOnly_wakeHalted ..).pkgs

theorem raiseUpcall {n c code len : Nat} {adr pc : Word} {kept : Option Access} (h : GensAre G s) :
    GensAre G (raiseUpcall s n c code adr pc len kept) := h.raiseSup.ite h.setCtx.queueUpcall

theorem raiseNotice {n c code : Nat} {adr : Word} {die : Option Nat} (h : GensAre G s) : GensAre G (raiseNotice s n c code adr die) :=
  h.queueUpcall.ite h.setCore

theorem dieLostNotice {n c die : Nat} {adr : Word} (h : GensAre G s) : GensAre G (dieLostNotice s n c die adr) := by
  unfold Machine.dieLostNotice
  dsimp only
  split
  exacts [h, h.raiseNotice]

theorem dropSlot {n c : Nat} (h : GensAre G s) : GensAre G (dropSlot s n c) := by
  unfold Machine.dropSlot
  dsimp only
  split
  exacts [h.setCore.setCtx, h.setCtx]

theorem giveSlot {n c : Nat} (h : GensAre G s) : GensAre G (giveSlot s n c) := by
  unfold Machine.giveSlot
  split
  exacts [h.dropSlot.wakeAll, h.dropSlot]

/-! ### An access that is answered as lost -/

theorem landInImage {n c i : Nat} {data : VWord} (h : GensAre G s) : GensAre G (landInImage s n c i data) :=
  h.congr (by unfold Machine.landInImage; dsimp only)

theorem finishSlot {n c : Nat} {r : RSlot} {data mask : VWord} (h : GensAre G s) : GensAre G (finishSlot s n c r data mask) := by
  unfold Machine.finishSlot
  dsimp only
  split
  exacts [h.setCtx.landInImage, h.setCtx]

theorem lateFault {a : Access} {code : Nat} {adr : Word} (h : GensAre G s) : GensAre G (lateFault s a code adr) := by
  unfold Machine.lateFault
  extract_lets now u t
  have hu : GensAre G u := by
    dsimp only [u]
    split
    exacts [h.giveSlot.ite h, h]
  clear_value u
  split
  · exact hu.raiseNotice.ite (hu.supMessage.ite (hu.dieLostNotice.ite hu.raiseNotice))
  · refine hu.setCtx.raiseSupExc.ite (hu.setCtx.raiseSup.ite (hu.setCtx.dieLostNotice.ite (hu.setCtx.raiseSup.ite (ite ?_ ?_))))
    · split
      exacts [hu.finishSlot, hu.setCtx]
    · split
      exacts [hu.setCtx.raiseUpcall, hu.raiseUpcall]

theorem getWrite {r : Reply} {key : Nat} (h : GensAre G s) : GensAre G (getWrite s r key) := by
  unfold Machine.getWrite mergeWrite
  dsimp only
  split <;> exact h.congr

theorem deliverSlotted {r : Reply} (h : GensAre G s) : GensAre G (deliverSlotted s r) := by
  unfold Machine.deliverSlotted
  extract_lets a t
  split
  · exact h
  · extract_lets data x' t' u v
    have hu : GensAre G u := h.setCtx
    have hv : GensAre G v := by
      dsimp only [v]
      split
      exacts [hu.setCtx, hu.ite hu.getWrite]
    clear_value v
    refine hv.ite ?_
    split
    exacts [hv.finishSlot, hv.lateFault]

theorem landFlags {n c : Nat} {fl : VWord} (h : GensAre G s) : GensAre G (landFlags s n c fl) := by
  unfold Machine.landFlags
  dsimp only
  split <;> exact h.congr

theorem deliverAck {r : Reply} (h : GensAre G s) : GensAre G (deliverAck s r) := by
  unfold Machine.deliverAck
  extract_lets a
  split
  · exact h
  · next v t flt _ _ _ =>
    have hv : GensAre G v := by
      dsimp only [v]
      split
      exacts [h.landFlags.ite h, h]
    clear_value v
    extract_lets u'
    refine hv.setCtx.ite ?_
    split
    exacts [hv.setCtx, hv.setCtx.lateFault]

theorem deliver {r : Reply} (h : GensAre G s) : GensAre G (deliver s r) := by
  unfold Machine.deliver
  extract_lets a u t
  have hu : GensAre G u := h.congr
  clear_value u
  split_ifs
  · exact hu
  · split
    exacts [hu, hu.lateFault, hu.lateFault]
  · exact hu.deliverSlotted
  · exact hu.deliverAck

/-! ### Everything on its way that is lost -/

theorem loseBody {b : Body} (h : GensAre G s) : GensAre G (loseBody s b) := by
  unfold Machine.loseBody
  split
  · exact h.deliver
  · exact h.deliver.ite h
  · split
    exacts [h.dieLostNotice.congr, h.dieLostNotice, h]
  · exact h

theorem losePart {r : RowPart} (h : GensAre G s) : GensAre G (losePart s r) := ite h.congr h.congr

theorem loseData {d : DataPart} (h : GensAre G s) : GensAre G (loseData s d) := ite h.congr h.congr

theorem loseTo {out : List (Nat × Nat)} (h : GensAre G s) : GensAre G (loseTo s out) :=
  foldl h.congr fun _ _ h => by split; exacts [h.losePart, h.loseData, h.loseBody]

theorem loseRows {pkg : Nat} (h : GensAre G s) : GensAre G (loseRows s pkg) :=
  h.foldl fun _ _ h => by split; exacts [h.dieLostNotice.congr, h]

theorem loseMoves {pkg : Nat} (h : GensAre G s) : GensAre G (loseMoves s pkg) :=
  h.foldl fun _ _ h => by split; exacts [ite (loseData h.congr) h, h]

/-! ### Barrier phases that end -/

theorem crierMsg {n kind poff : Nat} {v : Word} {acc : Option Access} {vec : Vec16} (h : GensAre G s) :
    GensAre G (crierMsg s n kind poff v acc vec) := h.setPkg rfl

theorem issuePod {n key : Nat} {vec : Vec16} (h : GensAre G s) : GensAre G (issuePod s n key vec) :=
  h.crierMsg.congr

theorem countStalled {key n : Nat} (h : GensAre G s) : GensAre G (countStalled s key n) := by
  induction n generalizing s with
  | zero => exact h
  | succ n ih =>
    unfold Machine.countStalled
    split
    · exact h
    · extract_lets t vec u v w
      have hw : GensAre G w := h.congr
      split_ifs
      exacts [ih (issuePod h.congr), ih hw.congr, ih hw]

theorem endPhase {key : Nat} {aborted : Bool} (h : GensAre G s) : GensAre G (endPhase s key aborted) :=
  congr (countStalled (s := closePhase s key aborted) h.congr)

theorem abortBars {pkg : Nat} {dies : List Nat} (h : GensAre G s) : GensAre G (abortBars s pkg dies) := h.foldl fun _ _ h => h.endPhase

end GensAre

/-! ### Generations that close (R168) -/

/-- A closed generation is all that leaves its package's list. -/
theorem gens_closeGen (s : State) (pkg x : Nat) :
    (pkgAt (closeGen s pkg x) pkg).gens = (pkgAt s pkg).gens.filter fun f => f.gen != x := by
  let t := setPkg s pkg { pkgAt s pkg with
    gens := (pkgAt s pkg).gens.filter fun f => f.gen != x
    unreach := outOfReach s pkg }
  have ht : GensAre (fun p => (pkgAt t p).gens) t := fun _ => rfl
  have hclosed := GensAre.abortBars (pkg := pkg)
    (dies := (lostDies s pkg (outOfReach s pkg)).filter fun d => !(lostDies s pkg (pkgAt s pkg).unreach).contains d)
    (GensAre.loseMoves (pkg := pkg) (GensAre.loseRows (pkg := pkg) (GensAre.loseTo (out := outOfReach s pkg)
      (ht.congr (t := { t with keptRep := t.keptRep.filter fun p => !(pkgOf p.src == pkg && p.gen == x) })))))
  exact (hclosed pkg).trans (by simp only [t, pkgAt_setPkg_same])

theorem mem_gens_closeGens {s : State} {pkg : Nat} {l : List GenSt} {f : GenSt}
    (hf : f ∈ (pkgAt (l.foldl (fun s e => closeGen s pkg e.gen) s) pkg).gens) : ∀ e ∈ l, f.gen ≠ e.gen := by
  suffices hall : f ∈ (pkgAt s pkg).gens ∧ ∀ e ∈ l, f.gen ≠ e.gen from hall.2
  induction l generalizing s with
  | nil => exact ⟨hf, nofun⟩
  | cons e l ih =>
    obtain ⟨hmem, hrest⟩ := ih hf
    rw [gens_closeGen, List.mem_filter] at hmem
    obtain ⟨hmem, hne⟩ := hmem
    refine ⟨hmem, fun e' he' => ?_⟩
    rcases List.mem_cons.mp he' with rfl | he'
    · exact bne_iff_ne.mp hne
    · exact hrest e' he'

/-- Has every live member told that a generation has drained? -/
def allDrained (s : State) (pkg : Nat) (e : GenSt) : Prop := ∀ x ∈ membersSeen s pkg, x ∈ e.drained

theorem tryClose_closes {s : State} {pkg : Nat} {e : GenSt} (he : e ∈ (pkgAt s pkg).gens) (hall : allDrained s pkg e) :
    ∀ f ∈ (pkgAt (tryClose s pkg) pkg).gens, f.gen ≠ e.gen := fun f hf =>
  mem_gens_closeGens hf e (List.mem_filter.mpr ⟨he, by simpa [allDrained] using hall⟩)

theorem tryClose_none {s : State} {pkg : Nat} (h : ∀ e ∈ (pkgAt s pkg).gens, ¬allDrained s pkg e) : tryClose s pkg = s := by
  have hfilter : ((pkgAt s pkg).gens.filter fun e => (membersSeen s pkg).all fun x => e.drained.contains x) = [] :=
    List.filter_eq_nil_iff.mpr fun e he => by simpa [allDrained] using h e he
  unfold tryClose
  dsimp only
  rw [hfilter, List.foldl_nil]

end Sys2Proof.Machine

/-! ## Generations open, drain and close (R123, R161, R166-R168, R171) -/

namespace Sys2Proof.Machine

variable {s : State} {pkg : Nat} {m : CMsg}

@[simp] theorem podAt_setPod_same (s : State) (n : Nat) (t : Pod) : podAt (setPod s n t) n = t := by simp [podAt, setPod]

/-! ### Tables installed (R171) -/

theorem Memory.getElem?_readBytes (l : List Host.Cell) (a : Nat) {n i : Nat} (hi : i < n) :
    (Memory.readBytes l a n)[i]? = some (Memory.get l (a + i)) := by
  induction n generalizing a i with
  | zero => omega
  | succ n ih =>
    cases i with
    | zero => rfl
    | succ i => rw [Memory.readBytes, List.getElem?_cons_succ, ih (a + 1) (by omega), Nat.add_assoc, Nat.add_comm 1 i]

/-- A byte of a range reads in the copy as in the original. -/
theorem Memory.get_copied {l : List Host.Cell} (hwf : Memory.wf l = true) (a b : Nat) {n i : Nat} (hi : i < n) :
    Memory.get (Memory.putBytes l b (Memory.readBytes l a n)) (b + i) = Memory.get l (a + i) := by
  rw [Memory.get_putBytes_inside _ hwf i (by simpa using hi)]
  exact Option.some.inj ((List.getElem?_eq_getElem _).symm.trans (Memory.getElem?_readBytes l a hi))

/-- A number inside a range reads in the copy as in the original. -/
theorem Memory.read_copied {l : List Host.Cell} (hwf : Memory.wf l = true) (a b : Nat) {n i k : Nat} (h : i + k ≤ n) :
    Memory.read (Memory.putBytes l b (Memory.readBytes l a n)) (b + i) k = Memory.read l (a + i) k := by
  induction k generalizing i with
  | zero => rfl
  | succ k ih =>
    rw [Memory.read, Memory.read, Memory.get_copied hwf a b (by omega), Nat.add_assoc, Nat.add_assoc, ih (by omega)]

@[simp] theorem setFab_cores (s : State) (pkg off v : Nat) : (setFab s pkg off v).cores = s.cores := rfl
@[simp] theorem setFab_flight (s : State) (pkg off v : Nat) : (setFab s pkg off v).flight = s.flight := rfl

/-- `t` differs from `s` in memory alone. -/
def MemOnly (s t : State) : Prop := ∃ l, t = { s with mem := l }

theorem memOnly_installTables (s : State) (pkg : Nat) : MemOnly s (installTables s pkg) := ⟨_, rfl⟩

namespace MemOnly

variable {t : State} (h : MemOnly s t)
include h

theorem cores : t.cores = s.cores := by obtain ⟨l, rfl⟩ := h; rfl
theorem flight : t.flight = s.flight := by obtain ⟨l, rfl⟩ := h; rfl
theorem pkgAt (p : Nat) : pkgAt t p = Machine.pkgAt s p := by obtain ⟨l, rfl⟩ := h; rfl

end MemOnly

/-- Each live word of a table is the staged one. -/
theorem fabWord_installTables (hwf : Memory.wf s.mem = true) {off : Nat} (h : off + 8 ≤ 0xD00) :
    fabWord (installTables s pkg) pkg (liveOff + off) = fabWord s pkg off := by
  have hcopied := Memory.read_copied hwf (sliceKey (fabricCore pkg) 0) (sliceKey (fabricCore pkg) 0 + liveOff) h
  simp only [fabWord, installTables]
  rwa [show sliceKey (fabricCore pkg) (liveOff + off) = sliceKey (fabricCore pkg) 0 + liveOff + off by simp only [sliceKey]; omega,
    show sliceKey (fabricCore pkg) off = sliceKey (fabricCore pkg) 0 + off from rfl]

/-! ### A GEN message (R166, R167) -/

theorem dieDead_setPkg {k : Pkg} (h : k.dead = (pkgAt s pkg).dead) (d : Nat) : dieDead (setPkg s pkg k) d = dieDead s d := by
  unfold dieDead
  by_cases hd : d / 16 = pkg
  · rw [hd, pkgAt_setPkg_same, h]; rfl
  · rw [pkgAt_setPkg_other _ _ hd]; rfl

theorem dieDead_setPkg_takenNext {k : Pkg} (h : k.dead = (pkgAt s pkg).dead) (d : Nat) :
    dieDead (setPkg (takenNext s pkg) pkg k) d = dieDead s d :=
  (dieDead_setPkg (by rw [pkgAt_takenNext, h]) d).trans
    (dieDead_setPkg (k := { pkgAt s pkg with applied := (pkgAt s pkg).applied + 1 }) rfl d)

/-- What a package keeps and has the power to send again. -/
def keptBy (s : State) (pkg : Nat) : List Packet := s.keptReq.filter fun q => pkgOf q.src == pkg && !dieDead s (dieOf q.src)

/-- Does a GEN message install the tables of the package that applies it? -/
def commitsHere (pkg : Nat) (m : CMsg) : Bool := m.pos == pkg % 8 && m.body.getD 0 0 == 1

/-- The generation after a package's own. -/
def genAfter (s : State) (pkg : Nat) : Nat := ((pkgAt s pkg).gen + 1) % 65536

/-- A package takes a GEN message: the next generation is open, the one before drains, and what is kept goes out again. -/
def genOpened (s : State) (pkg : Nat) (m : CMsg) : State :=
  { setPkg (takenNext s pkg) pkg { pkgAt s pkg with
      applied := (pkgAt s pkg).applied + 1
      gen := genAfter s pkg
      gens := (pkgAt s pkg).gens ++ [⟨(pkgAt s pkg).gen, [], false⟩]
      intents := if m.body.getD 0 0 = 1 then (pkgAt s pkg).intents.filter fun e => e.1 != pkg / 8 * 8 + m.pos else (pkgAt s pkg).intents
      commitBy := if commitsHere pkg m then none else (pkgAt s pkg).commitBy }
    with flight := s.flight ++ (keptBy s pkg).map fun q => { q with gen := genAfter s pkg } }

theorem crierGen_next (h : nextCrier s pkg = some m) (hkind : m.kind = 5) :
    crierGen s pkg = if commitsHere pkg m then setFab (installTables (genOpened s pkg m) pkg) pkg 0x410008 (2 + 2 ^ 48 * genAfter s pkg)
      else genOpened s pkg m := by
  rw [crierGen, applyCrier_next h (by simp [hkind]), applyGen, pkgAt_takenNext]
  simp only [dieDead_setPkg_takenNext]
  rfl

theorem pkgAt_genOpened (s : State) (pkg : Nat) (m : CMsg) :
    (pkgAt (genOpened s pkg m) pkg).gen = genAfter s pkg ∧ (pkgAt (genOpened s pkg m) pkg).applied = (pkgAt s pkg).applied + 1 ∧
      (pkgAt (genOpened s pkg m) pkg).gens = (pkgAt s pkg).gens ++ [⟨(pkgAt s pkg).gen, [], false⟩] := by
  have hpkg : ∀ k fl, pkgAt { setPkg (takenNext s pkg) pkg k with flight := fl } pkg = k := fun k _ => pkgAt_setPkg_same _ _ k
  rw [genOpened, hpkg]
  exact ⟨rfl, rfl, rfl⟩

theorem headD_eq_getD {α : Type} (l : List α) (d : α) : l.headD d = l.getD 0 d := by cases l <;> rfl

theorem commitsHere_iff (pkg : Nat) (m : CMsg) : commitsHere pkg m = true ↔ m.pos = pkg % 8 ∧ m.body.headD 0 = 1 := by
  rw [commitsHere, Bool.and_eq_true, beq_iff_eq, beq_iff_eq, headD_eq_getD]

/-- What a GEN message leaves of the package, the packets and the memory. -/
theorem crierGen_leaves (h : nextCrier s pkg = some m) (hkind : m.kind = 5) (hwf : Memory.wf s.mem = true) :
    ∃ u, exec (.crierGen pkg) s = .next u ∧ u.cores = s.cores ∧ (pkgAt u pkg).gen = genAfter s pkg ∧
      (pkgAt u pkg).applied = (pkgAt s pkg).applied + 1 ∧ (pkgAt u pkg).gens = (pkgAt s pkg).gens ++ [⟨(pkgAt s pkg).gen, [], false⟩] ∧
      u.flight = s.flight ++ ((keptBy s pkg).map fun q => { q with gen := genAfter s pkg }) ∧
      (¬(m.pos = pkg % 8 ∧ m.body.headD 0 = 1) → u.mem = s.mem) ∧
      (m.pos = pkg % 8 ∧ m.body.headD 0 = 1 → fabWord u pkg 0x410008 = 2 + 2 ^ 48 * genAfter s pkg ∧
        ∀ off, off < 0xCF8 → fabWord u pkg (0x10000 + off) = fabWord s pkg off) := by
  obtain ⟨hgen, happlied, hgens⟩ := pkgAt_genOpened s pkg m
  rw [← commitsHere_iff]
  cases hmine : commitsHere pkg m with
  | false =>
    have hnext : crierGen s pkg = genOpened s pkg m := by rw [crierGen_next h hkind, hmine]; rfl
    exact ⟨_, next_congr hnext, rfl, hgen, happlied, hgens, rfl, fun _ => rfl, nofun⟩
  | true =>
    have hnext : crierGen s pkg = setFab (installTables (genOpened s pkg m) pkg) pkg 0x410008 (2 + 2 ^ 48 * genAfter s pkg) := by
      rw [crierGen_next h hkind, hmine]; rfl
    have hinstalled : Memory.wf (installTables (genOpened s pkg m) pkg).mem = true :=
      Canonical.installTables (s := genOpened s pkg m) hwf
    refine ⟨_, next_congr hnext, ?_, ?_, ?_, ?_, ?_, fun hnot => absurd rfl hnot,
      fun _ => ⟨?_, fun off hoff => ?_⟩⟩
    · exact (setFab_cores ..).trans ((memOnly_installTables ..).cores)
    · rw [pkgAt_setFab, (memOnly_installTables ..).pkgAt, hgen]
    · rw [pkgAt_setFab, (memOnly_installTables ..).pkgAt, happlied]
    · rw [pkgAt_setFab, (memOnly_installTables ..).pkgAt, hgens]
    · exact (setFab_flight ..).trans ((memOnly_installTables ..).flight)
    · rw [fabWord_setFab_same hinstalled]
      have hlt : genAfter s pkg < 65536 := Nat.mod_lt _ (by decide)
      exact Nat.mod_eq_of_lt (by omega)
    · rw [fabWord_setFab_other hinstalled _ _ (by omega)]
      exact fabWord_installTables (s := genOpened s pkg m) hwf (by omega)

/-! ### DRAINED messages (R168) -/

theorem sendDrained_none (h : ∀ x ∈ (pkgAt s pkg).gens, x.sent = true ∨ drainedNow s pkg x.gen = false) : sendDrained s pkg = s := by
  have hfind : ((pkgAt s pkg).gens.find? fun x => !x.sent && drainedNow s pkg x.gen) = none :=
    List.find?_eq_none.mpr fun x hx => by rcases h x hx with h | h <;> simp [h]
  unfold sendDrained
  dsimp only
  rw [hfind]

theorem sendDrained_tells {e : GenSt} (h : ((pkgAt s pkg).gens.find? fun x => !x.sent && drainedNow s pkg x.gen) = some e)
    (hheard : heard s pkg = true) :
    sendDrained s pkg = serviceCrier (setPkg s pkg { pkgAt s pkg with
      gens := (pkgAt s pkg).gens.map fun x => if x.gen = e.gen then { x with sent := true } else x }) pkg 6 (BitVec.ofNat 64 e.gen) [] := by
  unfold sendDrained
  dsimp only
  rw [h]
  dsimp only
  rw [if_neg (by simp [hheard])]

theorem membersSeen_congr {t : State} (hpods : t.pods = s.pods) (happlied : (pkgAt t pkg).applied = (pkgAt s pkg).applied) :
    membersSeen t pkg = membersSeen s pkg := by
  have hpod : podAt t (pkg / 8) = podAt s (pkg / 8) := by rw [podAt, hpods, podAt]
  rw [membersSeen, membersSeen, members, members, hpod, happlied]

/-- Only a MEMBER message changes the members that its package sees. -/
theorem membersSeen_takenNext (h : nextCrier s pkg = some m) (hkind : m.kind ≠ 7) :
    membersSeen (takenNext s pkg) pkg = membersSeen s pkg := by
  obtain ⟨hlt, hmsg⟩ := List.getElem?_eq_some_iff.mp (nextCrier_some h).2
  have hpod : podAt (takenNext s pkg) (pkg / 8) = podAt s (pkg / 8) := rfl
  rw [membersSeen, membersSeen, members, members, hpod, pkgAt_takenNext, List.drop_eq_getElem_cons hlt, hmsg, List.foldr_cons]
  dsimp only
  rw [if_pos hkind]

/-- A package takes a DRAINED message: its sender is noted at the generation. -/
def drainedNoted (s : State) (pkg : Nat) (m : CMsg) : State :=
  setPkg (takenNext s pkg) pkg { pkgAt s pkg with
    applied := (pkgAt s pkg).applied + 1
    gens := (pkgAt s pkg).gens.map fun e => if e.gen = m.val.toNat then { e with drained := m.pos :: e.drained } else e }

theorem crierDrained_next (h : nextCrier s pkg = some m) (hkind : m.kind = 6) :
    crierDrained s pkg = tryClose (drainedNoted s pkg m) pkg := by
  rw [crierDrained, applyCrier_next h (by simp [hkind])]
  dsimp only
  rw [pkgAt_takenNext]
  rfl

theorem gens_drainedNoted (s : State) (pkg : Nat) (m : CMsg) : (pkgAt (drainedNoted s pkg m) pkg).gens =
    (pkgAt s pkg).gens.map fun e => if e.gen = m.val.toNat then { e with drained := m.pos :: e.drained } else e := by
  rw [drainedNoted, pkgAt_setPkg_same]

theorem membersSeen_drainedNoted (h : nextCrier s pkg = some m) (hkind : m.kind = 6) :
    membersSeen (drainedNoted s pkg m) pkg = membersSeen s pkg :=
  (membersSeen_congr (s := takenNext s pkg) (t := drainedNoted s pkg m) rfl (by rw [drainedNoted, pkgAt_setPkg_same, pkgAt_takenNext])).trans
    (membersSeen_takenNext h (by omega))

theorem crierDrained_closes {e : GenSt} (h : nextCrier s pkg = some m) (hkind : m.kind = 6) (he : e ∈ (pkgAt s pkg).gens)
    (hgen : e.gen = m.val.toNat) (hall : ∀ x ∈ membersSeen s pkg, x = m.pos ∨ x ∈ e.drained) :
    ∀ f ∈ (pkgAt (crierDrained s pkg) pkg).gens, f.gen ≠ e.gen := by
  rw [crierDrained_next h hkind]
  refine tryClose_closes (e := { e with drained := m.pos :: e.drained }) ?_ fun x hx => ?_
  · rw [gens_drainedNoted]
    exact List.mem_map.mpr ⟨e, he, if_pos hgen⟩
  · rw [membersSeen_drainedNoted h hkind] at hx
    exact List.mem_cons.mpr (hall x hx)

theorem crierDrained_waits (h : nextCrier s pkg = some m) (hkind : m.kind = 6)
    (hmore : ∀ x ∈ (pkgAt s pkg).gens, ∃ y ∈ membersSeen s pkg, y ≠ m.pos ∧ y ∉ x.drained) :
    crierDrained s pkg = drainedNoted s pkg m := by
  rw [crierDrained_next h hkind]
  refine tryClose_none fun e he hall => ?_
  rw [gens_drainedNoted, List.mem_map] at he
  obtain ⟨x, hx, rfl⟩ := he
  obtain ⟨y, hy, hpos, hnot⟩ := hmore x hx
  have hdrained := hall y (by rwa [membersSeen_drainedNoted h hkind])
  split at hdrained
  · exact (List.mem_cons.mp hdrained).elim hpos hnot
  · exact hnot hdrained

/-! ### MEMBER messages (R161, R167) -/

section
variable {p : Nat}

theorem crierMember_next (h : nextCrier s pkg = some m) (hkind : m.kind = 7) :
    crierMember s pkg = tryClose (admitMember (takenNext s pkg) pkg m) pkg := by
  rw [crierMember, applyCrier_next h (by simp [hkind])]

theorem crierMember_removes {e : GenSt} (h : nextCrier s pkg = some m) (hkind : m.kind = 7) (hbody : m.body = [p, 0])
    (he : e ∈ (pkgAt s pkg).gens) (hall : allDrained (takenNext s pkg) pkg e) :
    ∀ f ∈ (pkgAt (crierMember s pkg) pkg).gens, f.gen ≠ e.gen := by
  have hadmit : admitMember (takenNext s pkg) pkg m = takenNext s pkg := if_pos (.inl (by rw [hbody]; rfl))
  rw [crierMember_next h hkind, hadmit]
  exact tryClose_closes (by rw [pkgAt_takenNext]; exact he) hall

/-- The newcomer goes on from where the package that admits it stands. -/
def newcomer (s : State) (pkg q : Nat) : Pkg :=
  { pkgAt s q with
    applied := (pkgAt s pkg).applied
    gen := (pkgAt s pkg).gen
    gens := (pkgAt s pkg).gens.map fun e => { e with sent := false }
    intents := (pkgAt s pkg).intents.filter fun e => e.1 != q
    market := (pkgAt s pkg).market
    asked := false }

theorem admitMember_admits (hbody : m.body = [p, 1]) (hnew : p ∉ members s (pkg / 8)) :
    admitMember s pkg m =
      (let q := pkg / 8 * 8 + p
       let t := setPod s (pkg / 8) { podAt s (pkg / 8) with members := p :: members s (pkg / 8) }
       setSvc (setPkg t q (newcomer s pkg q)) q 0xE010 8 (svcWord s pkg 0xE010 8)) := by
  unfold admitMember
  rw [hbody]
  exact if_neg (by simpa [members] using hnew)

/-- What a MEMBER message that admits a package leaves, where no generation is left to close. -/
theorem crierMember_admits (h : nextCrier s pkg = some m) (hkind : m.kind = 7) (hbody : m.body = [p, 1])
    (hnew : p ∉ members s (pkg / 8)) (hgens : (pkgAt s pkg).gens = []) (hwf : Memory.wf s.mem = true) :
    ∃ u, exec (.crierMember pkg) s = .next u ∧
      Stored s u (sliceKey (serviceCore (pkg / 8 * 8 + p)) 0xE010) 8 (svcWord s pkg 0xE010 8) ∧
      u.cores = s.cores ∧ members u (pkg / 8) = p :: members s (pkg / 8) ∧
      pkgAt u (pkg / 8 * 8 + p) = newcomer (takenNext s pkg) pkg (pkg / 8 * 8 + p) := by
  have hadmit := admitMember_admits (s := takenNext s pkg) (pkg := pkg) hbody hnew
  have hnone : (pkgAt (admitMember (takenNext s pkg) pkg m) pkg).gens = [] := by
    rw [hadmit]
    dsimp only
    show (pkgAt (setPkg _ _ _) pkg).gens = []
    by_cases hq : pkg = pkg / 8 * 8 + p
    · rw [← hq, pkgAt_setPkg_same, newcomer, pkgAt_takenNext, hgens, List.map_nil]
    · rw [pkgAt_setPkg_other _ _ hq]
      exact (congrArg Pkg.gens (pkgAt_takenNext s pkg)).trans hgens
  have hclose : tryClose (admitMember (takenNext s pkg) pkg m) pkg = admitMember (takenNext s pkg) pkg m :=
    tryClose_none fun e he => by rw [hnone] at he; cases he
  refine ⟨_, next_congr (((crierMember_next h hkind).trans hclose).trans hadmit), stored_write hwf rfl, rfl, ?_, ?_⟩
  · show (podAt (setPod (takenNext s pkg) _ _) _).members = _
    rw [podAt_setPod_same]
    rfl
  · exact pkgAt_setPkg_same ..

theorem queue_sendAdmit (hheard : heard s pkg = true) (hlow : p < 8) (hnew : p ∉ members s (pkg / 8))
    (hpower : dieDead s (16 * (pkg / 8 * 8 + p) + 8) = false) :
    (pkgAt (sendAdmit s pkg p) pkg).queue = (pkgAt s pkg).queue ++ [serviceMsg pkg 7 0 [p, 1], serviceMsg pkg 5 0 [2, 0]] := by
  have hsend : sendAdmit s pkg p = queueGen (serviceCrier s pkg 7 0 [p, 1]) pkg 2 :=
    if_neg (by simp [hheard, hlow, hnew, hpower])
  rw [hsend, pkgAt_queueGen, pkgAt_serviceCrier, List.append_assoc]
  rfl

end

/-! ### The obligation -/

/-- Settles O50: a GEN message opens a generation (`crierGen_leaves`), a drained one is told of (`sendDrained_tells`) and closes when nobody is awaited
any more (`tryClose_closes`), and a MEMBER message removes or admits its package. -/
theorem generationsGo : Obligations.GenerationsGo := by
  intro s pkg p m e g new mine kept next t closed
  refine ⟨crierGen_leaves, fun h => next_congr (sendDrained_none h), fun hfind hheard => ?_,
    fun h hkind he hgen hall => ⟨_, rfl, crierDrained_closes h hkind he hgen hall⟩, fun h hkind hmore => ?_,
    fun h hkind hbody he hall => ⟨_, rfl, crierMember_removes h hkind hbody he hall⟩,
    fun h hkind hbody hnew hgens hwf => ?_,
    fun hheard hlow hnew hpower => ⟨_, _, queue_sendAdmit hheard hlow hnew hpower, rfl, rfl, rfl, rfl⟩⟩
  · refine ⟨_, serviceMsg pkg 6 (BitVec.ofNat 64 e.gen) [], next_congr (sendDrained_tells hfind hheard), rfl, rfl, ?_, rfl, rfl,
      fun x hx hgen => ?_⟩
    · rw [pkgAt_serviceCrier, pkgAt_setPkg_same]
    · rw [pkgAt_serviceCrier, pkgAt_setPkg_same] at hx
      obtain ⟨y, -, rfl⟩ := List.mem_map.mp hx
      split at hgen
      · next hy => rw [if_pos hy]
      · next hy => exact absurd hgen hy
  · refine ⟨_, next_congr (crierDrained_waits h hkind hmore), rfl, rfl, rfl, ?_, fun x hx hgen => ?_⟩
    · rw [gens_drainedNoted, List.map_map]
      exact List.map_congr_left fun x _ => by rw [Function.comp_apply]; split <;> rfl
    · rw [gens_drainedNoted] at hx
      obtain ⟨y, -, rfl⟩ := List.mem_map.mp hx
      split at hgen
      · next hy => rw [if_pos hy]; exact List.mem_cons_self
      · next hy => exact absurd hgen hy
  · obtain ⟨u, hexec, hstored, hcores, hmembers, hpkg⟩ := crierMember_admits h hkind hbody hnew hgens hwf
    refine ⟨u, hexec, hstored, hcores, hmembers, ?_⟩
    rw [hpkg]
    simp only [newcomer, pkgAt_takenNext]
    exact ⟨rfl, rfl, rfl, rfl⟩

end Sys2Proof.Machine

/-! ## Steps of the dispatch engine (R185-R187, R208, R284)

A command takes one step at a time: `dispStep` puts what `dispRun` makes of it back into its place, or takes it out of the queue. -/

namespace Sys2Proof.Machine

/-! ### What a step does with the queue -/

/-- The engine of a command of core `n`. -/
abbrev DispCmd.engAt (c : DispCmd) (n : Nat) : Eng := engOf n c.ctx c.part c.supr c.vec

/-- A state with command `k` of a dispatch engine replaced. -/
def withDisp (t : State) (n k : Nat) (c : DispCmd) : State :=
  setCore t n { coreAt t n with dispq := (coreAt t n).dispq.set k c }

@[simp] theorem withDisp_mem (t : State) (n k : Nat) (c : DispCmd) : (withDisp t n k c).mem = t.mem := rfl
@[simp] theorem withDisp_full (t : State) (n k : Nat) (c : DispCmd) : (withDisp t n k c).full = t.full := rfl
@[simp] theorem withDisp_flight (t : State) (n k : Nat) (c : DispCmd) : (withDisp t n k c).flight = t.flight := rfl
@[simp] theorem dispq_withDisp (t : State) (n k : Nat) (c : DispCmd) :
    (coreAt (withDisp t n k c) n).dispq = (coreAt t n).dispq.set k c := by rw [withDisp, coreAt_setCore_same]

theorem WakesOnly.dispq {s t : State} (h : WakesOnly s t) (m : Nat) : (coreAt t m).dispq = (coreAt s m).dispq := by rw [h.core]

/-- The event of a command's step is `dispStep`. -/
theorem exec_dispatch (s : State) (n k : Nat) : exec (.dispatchEngineExecute n k) s = .next (dispStep s n k) := rfl

section
variable {s t : State} {n k : Nat} {c d : DispCmd} (hq : (coreAt s n).dispq[k]? = some c)
  (hruns : dispRuns s n c = true)
include hq hruns

theorem dispStep_of : dispStep s n k = match dispRun s (c.engAt n) c with
    | .wait => s
    | .more t c => withDisp t n k c
    | .over t => wakeAll (setCore t n { coreAt t n with dispq := (coreAt t n).dispq.eraseIdx k }) n .unit := by
  rw [dispStep, hq]
  simp only [hruns, Bool.not_true, Bool.false_eq_true, if_false]
  rfl

theorem dispStep_more (h : dispRun s (c.engAt n) c = .more t d) : dispStep s n k = withDisp t n k d := by
  rw [dispStep_of hq hruns, h]

end

/-! ### What a step of a command is -/

/-- Command `k` of a dispatch engine has begun and goes on with its next record. -/
structure AtRecord (s : State) (n k : Nat) (c : DispCmd) : Prop where
  queued : (coreAt s n).dispq[k]? = some c
  runs : dispRuns s n c = true
  late : c.late = []
  move : c.move = none
  bad : c.bad = none
  halt : c.halt = false
  started : c.started = true
  next : c.next < c.n

theorem dispRun_idle {s : State} {e : Eng} {c : DispCmd} (hlate : c.late = []) (hmove : c.move = none) (hbad : c.bad = none) :
    dispRun s e c =
      if c.halt then (if c.rows = [] then dispEnd s e c stHALTED (c.pos.getD 0) none else .wait)
      else if !c.started then dispBegin s e c
      else if c.next < c.n then dispNext s e c
      else if c.rows ≠ [] then .wait
      else dispFinish s e c := by
  rw [dispRun, hlate, hmove, hbad]

section
variable {s t : State} {n k : Nat} {c d : DispCmd} (h : AtRecord s n k c)
include h

theorem AtRecord.run (e : Eng) : dispRun s e c = dispNext s e c := by
  rw [dispRun_idle h.late h.move h.bad, h.halt, h.started, if_pos h.next]
  rfl

/-- What the next record makes of its command stands in the queue. -/
theorem AtRecord.exec_more (hnext : dispNext s (c.engAt n) c = .more t d) :
    exec (.dispatchEngineExecute n k) s = .next (withDisp t n k d) := by
  rw [exec_dispatch, dispStep_more h.queued h.runs ((h.run _).trans hnext)]

end

/-! ### What an engine writes, and the list of its command (R185) -/

/-- An engine's write where it may write: the bytes, their granules' bits, and what its die has seen. -/
structure EngWrote (s t : State) (key n x : Nat) : Prop where
  mem : t.mem = Memory.write s.mem key n x
  full : t.full = setRun s.full (key / 16) true ((key % 16 + n + 15) / 16)
  rest : t = { s with
    mem := t.mem
    full := t.full
    dies := t.dies }

theorem engWrite_of {s : State} {e : Eng} {adr : Word} {n home : Nat} {v : View} (h : engView s e adr n true = .ok (v, home)) (x : Nat) :
    ∃ t, engWrite s e adr n x = .ok t ∧ EngWrote s t v.key n x := by
  refine ⟨_, by rw [engWrite, h], ?_⟩
  rw [engNote, noteWrite_only]
  exact ⟨rfl, rfl, rfl⟩

section
variable {s t : State} {key n x : Nat} (h : EngWrote s t key n x)
include h

theorem EngWrote.cores : t.cores = s.cores := by rw [h.rest]
theorem EngWrote.flight : t.flight = s.flight := by rw [h.rest]
theorem EngWrote.cur : t.cur = s.cur := by rw [h.rest]
theorem EngWrote.coreAt (m : Nat) : coreAt t m = Machine.coreAt s m := coreAt_congr h.cores m
theorem EngWrote.stored (hwf : Memory.wf s.mem = true) : Stored s t key n x := stored_write hwf h.mem

end

/-- A command that records nothing marks nothing. -/
theorem dispMark_none {c : DispCmd} (h : c.pos = none) (s : State) (e : Eng) (i : Nat) (f : TapeRec → TapeRec) :
    dispMark s e c i f = s := by rw [dispMark, h]

/-- A command with one more entry in its list. -/
def DispCmd.listed (c : DispCmd) (lost : Bool) : DispCmd :=
  { c with
    nlist := c.nlist + 1
    lost := if lost then c.lost + 1 else c.lost
    deferred := if lost then c.deferred else c.deferred + 1 }

/-- A record is listed where the next entry of the command's list may be written. -/
theorem listAdd_of {s : State} {e : Eng} {c : DispCmd} {v : View} {home : Nat} (hpos : c.pos = none)
    (hview : engView s e (c.list + BitVec.ofNat 64 (4 * c.nlist)) 4 true = .ok (v, home)) (i : Nat) (lost : Bool) :
    ∃ t, listAdd s e c i lost = .ok (t, c.listed lost) ∧ EngWrote s t v.key 4 (i + if lost then 2147483648 else 0) := by
  obtain ⟨t, ht, hwrote⟩ := engWrite_of hview (i + if lost then 2147483648 else 0)
  refine ⟨t, ?_, hwrote⟩
  rw [listAdd, ht]
  dsimp only
  rw [dispMark_none hpos]
  rfl

end Sys2Proof.Machine

/-! ## Contributions leave for the homes of their rows (R186, R193, R194) -/

namespace Sys2Proof.Machine

/-! ### Places of a list -/

/-- The places of a list whose elements have a property. -/
def placesOf {α : Type} (l : List α) (d : α) (p : α → Bool) : List Nat := (List.range l.length).filter fun j => p (l.getD j d)

theorem mem_placesOf {α : Type} {l : List α} {d : α} {p : α → Bool} {j : Nat} :
    j ∈ placesOf l d p ↔ j < l.length ∧ p (l.getD j d) = true := by simp [placesOf]

theorem filter_getElem?_any {α : Type} (l : List α) (d : α) (p : α → Bool) :
    ((List.range l.length).filter fun i => (l[i]?).any p) = placesOf l d p :=
  List.filter_congr fun i hi => by
    rw [List.getD_eq_getElem?_getD, List.getElem?_eq_getElem (List.mem_range.mp hi)]
    rfl

/-- One of the first `k` elements has a property where an earlier place of them is among those that have it. -/
theorem any_take_iff {α : Type} {l : List α} (d : α) (p : α → Bool) {k : Nat} (hk : k < l.length) :
    (l.take k).any p = true ↔ ∃ j, j < k ∧ j ∈ placesOf l d p := by
  simp only [List.any_eq_true, List.mem_take_iff_getElem, mem_placesOf]
  constructor
  · rintro ⟨x, ⟨i, hi, rfl⟩, hp⟩
    exact ⟨i, by omega, by omega, by rwa [List.getD_eq_getElem _ _ (by omega)]⟩
  · rintro ⟨j, hj, hlen, hp⟩
    exact ⟨_, ⟨j, by omega, rfl⟩, by rwa [List.getD_eq_getElem _ _ hlen] at hp⟩

/-! ### The records of a row (R193, R194) -/

/-- Every record of a row is served: what it comes to is its values, from the core that holds them. -/
def AllLive (src : Nat → Nat) (val : Nat → List ExAcc) (is : List Nat) (ms : List (Nat × Moved)) : Prop :=
  List.Forall₂ (fun i m => ∃ slot adr, m = (i, Moved.live (src i) (val i) slot adr)) is ms

section
variable {src : Nat → Nat} {val : Nat → List ExAcc} {is : List Nat} {ms : List (Nat × Moved)}

theorem gather_live {f : Nat → Except EFail Moved} (h : ∀ j ∈ is, ∃ slot adr, f j = .ok (.live (src j) (val j) slot adr)) :
    ∃ ms, AllLive src val is ms ∧ ∀ acc, gather f is acc = .ok (acc ++ ms) := by
  induction is with
  | nil => exact ⟨[], .nil, fun acc => by rw [gather, List.append_nil]⟩
  | cons i is ih =>
    obtain ⟨slot, adr, hi⟩ := h i List.mem_cons_self
    obtain ⟨ms, hlive, hms⟩ := ih fun j hj => h j (List.mem_cons_of_mem _ hj)
    exact ⟨_, .cons ⟨slot, adr, rfl⟩ hlive, fun acc => by rw [gather, hi]; exact (hms _).trans (by rw [List.append_assoc]; rfl)⟩

/-- A row of one record that comes to nothing. -/
theorem gather_one {f : Nat → Except EFail Moved} {i : Nat} {m : Moved} (h : f i = .ok m) : gather f [i] [] = .ok [(i, m)] := by
  rw [gather, h]
  rfl

theorem AllLive.parts (h : AllLive src val is ms) : liveParts ms = is.map fun j => (src j, j, val j) := by
  induction h with
  | nil => rfl
  | cons hm _ ih =>
    obtain ⟨slot, adr, rfl⟩ := hm
    exact congrArg (List.cons _) ih

theorem AllLive.tell (h : AllLive src val is ms) (s : State) (e : Eng) : tellMoved s e ms = s := by
  induction h with
  | nil => rfl
  | cons hm _ ih =>
    obtain ⟨slot, adr, rfl⟩ := hm
    exact ih

theorem AllLive.length (h : AllLive src val is ms) : ms.length = is.length := (List.Forall₂.length_eq h).symm

/-- The records that have moved, by a property of their numbers. -/
theorem AllLive.filter_moved (h : AllLive src val is ms) (p : Nat → Bool) {q : Nat × Moved → Bool}
    (hq : ∀ i src vals slot adr, q (i, .live src vals slot adr) = true) :
    ((ms.filter q).filter fun m => p m.1).length = (is.filter p).length := by
  induction h with
  | nil => rfl
  | @cons i _ _ _ hm _ ih =>
    obtain ⟨slot, adr, rfl⟩ := hm
    rw [List.filter_cons_of_pos (hq ..), List.filter_cons, List.filter_cons]
    cases p i with
    | false => exact ih
    | true => exact congrArg (· + 1) ih

theorem AllLive.mark (h : AllLive src val is ms) {c : DispCmd} (hpos : c.pos = none) (s : State) (e : Eng) (rs : List RouteRec) :
    combMark e rs ms s c = .ok (s, { c with done := c.done + is.length }) := by
  induction h generalizing c with
  | nil => rfl
  | cons hm _ ih =>
    obtain ⟨slot, adr, rfl⟩ := hm
    rw [combMark, dispMark_none hpos]
    refine (ih (c := { c with done := c.done + 1 }) hpos).trans ?_
    rw [List.length_cons, Nat.add_assoc, Nat.add_comm 1]

end

/-! ### What is sent (R156, R194) -/

/-- A packet carries the contribution `x` of a command to a row: the core that holds it, its record and its values. -/
def IsRowPart (e : Eng) (c : DispCmd) (row : Word) (home : Nat) (base bf16 : Bool) (t0 expect : Nat) (x : Nat × Nat × List ExAcc)
    (p : Packet) : Prop :=
  p.src = x.1 ∧ p.dst = home ∧ p.net = .bulk ∧ ∃ part, p.body = .row part ∧
    part.core = e.who.core ∧ part.ctx = e.who.ctx ∧ part.cmd = c.num ∧ part.row = row ∧ part.home = home ∧ part.idx = x.2.1 ∧
    part.expect = expect ∧ part.base = base ∧ part.bf16 = bf16 ∧ part.n = t0 ∧ part.vals = x.2.2 ∧ part.live = true ∧
    part.vec = c.vec

/-- Memory, its full/empty bits and the queue of every dispatch engine are as they were. -/
structure KeepsQueues (s t : State) : Prop where
  mem : t.mem = s.mem
  full : t.full = s.full
  dispq : ∀ n, (coreAt t n).dispq = (coreAt s n).dispq

theorem KeepsQueues.refl (s : State) : KeepsQueues s s := ⟨rfl, rfl, fun _ => rfl⟩

theorem KeepsQueues.trans {s t u : State} (h : KeepsQueues s t) (h' : KeepsQueues t u) : KeepsQueues s u :=
  ⟨h'.mem.trans h.mem, h'.full.trans h.full, fun n => (h'.dispq n).trans (h.dispq n)⟩

theorem WakesOnly.keepsQueues {s t : State} (h : WakesOnly s t) : KeepsQueues s t := ⟨h.mem, h.full, h.dispq⟩

theorem keepsQueues_transmit (s : State) (src dst : Nat) (net : Net) (part inc : Nat) (w : Bool) (b : Body) :
    KeepsQueues s (transmit s src dst net part inc w b) :=
  ⟨transmit_mem .., transmit_full .., fun n => by rw [coreAt_transmit]⟩

/-- One of `expect` contributions of a command to a row. -/
def rowPart (s : State) (e : Eng) (c : DispCmd) (row : Word) (home : Nat) (base bf16 : Bool) (t0 expect : Nat)
    (x : Nat × Nat × List ExAcc) : RowPart :=
  { core := e.who.core
    ctx := e.who.ctx
    cmd := c.num
    row := row
    home := home
    idx := x.2.1
    expect := expect
    base := base
    bf16 := bf16
    n := t0
    vals := x.2.2
    live := true
    part := c.part
    inc := partInc s (pkgOf e.who.core) c.part
    job := c.job
    supr := c.supr
    vec := c.vec }

/-- It leaves from the core that holds its values. -/
def sendPart (e : Eng) (c : DispCmd) (row : Word) (home : Nat) (base bf16 : Bool) (t0 expect : Nat) (s : State)
    (x : Nat × Nat × List ExAcc) : State :=
  transmit (noteWork s x.1 c.job) x.1 home .bulk c.part (partInc s (pkgOf e.who.core) c.part) false
    (.row (rowPart s e c row home base bf16 t0 expect x))

theorem sendParts_eq (s : State) (e : Eng) (c : DispCmd) (row : Word) (home : Nat) (base bf16 : Bool) (t0 : Nat)
    (ps : List (Nat × Nat × List ExAcc)) :
    sendParts s e c row home base bf16 t0 ps = ps.foldl (sendPart e c row home base bf16 t0 ps.length) s := rfl

/-- The contributions to a row leave one after the other, each behind those that are on their way. -/
theorem sendPart_foldl (s : State) (e : Eng) (c : DispCmd) (row : Word) (home : Nat) (base bf16 : Bool) (t0 expect : Nat)
    (ps : List (Nat × Nat × List ExAcc)) : KeepsQueues s (ps.foldl (sendPart e c row home base bf16 t0 expect) s) ∧
      ∃ qs, (ps.foldl (sendPart e c row home base bf16 t0 expect) s).flight = s.flight ++ qs ∧
        List.Forall₂ (IsRowPart e c row home base bf16 t0 expect) ps qs := by
  induction ps generalizing s with
  | nil => exact ⟨.refl s, [], (List.append_nil _).symm, .nil⟩
  | cons x ps ih =>
    have hwork := wakesOnly_noteWork s x.1 c.job
    obtain ⟨q, hflight, hbody, hsrc, hdst, hnet⟩ := transmit_packet (noteWork s x.1 c.job) x.1 home .bulk c.part
      (partInc s (pkgOf e.who.core) c.part) false (b := .row (rowPart s e c row home base bf16 t0 expect x)) fun _ => rfl
    obtain ⟨hkeeps, qs, hqs, hall⟩ := ih (sendPart e c row home base bf16 t0 expect s x)
    refine ⟨(hwork.keepsQueues.trans (keepsQueues_transmit ..)).trans hkeeps, q :: qs, ?_, .cons ?_ hall⟩
    · rw [List.foldl_cons, hqs, sendPart, hflight, hwork.flight, List.append_assoc]
      rfl
    · exact ⟨hsrc, hdst, hnet, _, hbody, rfl, rfl, rfl, rfl, rfl, rfl, rfl, rfl, rfl, rfl, rfl, rfl, rfl⟩

/-- A command's step leaves a row's contributions on their way and the command `d` in its place. -/
def SendsRow (s u : State) (e : Eng) (n k : Nat) (d : DispCmd) (row : Word) (home : Nat) (base bf16 : Bool) (t0 : Nat)
    (parts : List (Nat × Nat × List ExAcc)) : Prop :=
  u.mem = s.mem ∧ u.full = s.full ∧ (coreAt u n).dispq = (coreAt s n).dispq.set k d ∧
    ∃ qs, u.flight = s.flight ++ qs ∧ List.Forall₂ (IsRowPart e d row home base bf16 t0 parts.length) parts qs

section
variable {s : State} {n k : Nat} {c c' d : DispCmd}

theorem AtRecord.sendsRow (h : AtRecord s n k c) {row : Word} {home : Nat} {base bf16 : Bool} {t0 : Nat}
    {parts : List (Nat × Nat × List ExAcc)}
    (hnext : dispNext s (c.engAt n) c = .more (sendParts s (c.engAt n) c' row home base bf16 t0 parts) d)
    (hnum : d.num = c'.num) (hvec : d.vec = c'.vec) :
    ∃ u, exec (.dispatchEngineExecute n k) s = .next u ∧ SendsRow s u (c.engAt n) n k d row home base bf16 t0 parts := by
  obtain ⟨hkeeps, qs, hflight, hall⟩ := sendPart_foldl s (c.engAt n) c' row home base bf16 t0 parts.length parts
  refine ⟨_, h.exec_more hnext, hkeeps.mem, hkeeps.full, (dispq_withDisp ..).trans (by rw [sendParts_eq, hkeeps.dispq]),
    qs, hflight, hall.imp ?_⟩
  intro x p hp
  rw [IsRowPart, hnum, hvec]
  exact hp

/-- A step that sends nothing leaves memory, bits and packets as they are. -/
theorem AtRecord.passes (h : AtRecord s n k c) (hnext : dispNext s (c.engAt n) c = .more s d) :
    ∃ u, exec (.dispatchEngineExecute n k) s = .next u ∧ u.mem = s.mem ∧ u.full = s.full ∧ u.flight = s.flight ∧
      (coreAt u n).dispq = (coreAt s n).dispq.set k d := ⟨_, h.exec_more hnext, rfl, rfl, rfl, dispq_withDisp ..⟩

end

end Sys2Proof.Machine

/-! ## The records of COMB and REPLAY (R186, R193, R195) -/

namespace Sys2Proof.Machine

/-! ### COMB (R186) -/

/-- What a COMB reads for a record that its table does not have. -/
abbrev noRecord : RouteRec := ⟨0, false, true, 0, 0⟩

/-- The records of a table that name the row of a token. -/
def combPlaces (rs : List RouteRec) (t : Nat) : List Nat := placesOf rs noRecord fun r => r.valid && r.token == t

section
variable {s : State} {e : Eng} {c : DispCmd} {rs : List RouteRec}

theorem dispNext_comb (hkind : c.kind = .comb) (hrows : tableRows s e c = .ok rs) (hlt : c.next < rs.length) :
    dispNext s e c =
      if !(rs.getD c.next noRecord).valid ||
          (rs.take c.next).any fun x => x.valid && x.token == (rs.getD c.next noRecord).token then
        .more s { c with next := c.next + 1 }
      else combRow s e c rs (rs.getD c.next noRecord).token := by
  rw [dispNext, hkind]
  simp only [hrows, List.getElem?_eq_getElem hlt, List.getD_eq_getElem _ _ hlt]

/-- A record with V = 0, and a later one of its row, are passed over. -/
theorem dispNext_comb_passes (hkind : c.kind = .comb) (hrows : tableRows s e c = .ok rs) (hlt : c.next < rs.length)
    (h : (rs.getD c.next noRecord).valid = false ∨ ∃ j, j < c.next ∧ j ∈ combPlaces rs (rs.getD c.next noRecord).token) :
    dispNext s e c = .more s { c with next := c.next + 1 } := by
  rw [dispNext_comb hkind hrows hlt, if_pos]
  rcases h with h | h
  · rw [h]; rfl
  · rw [(any_take_iff noRecord _ hlt).mpr h, Bool.or_true]

theorem dispNext_comb_row (hkind : c.kind = .comb) (hrows : tableRows s e c = .ok rs) (hlt : c.next < rs.length)
    (hvalid : (rs.getD c.next noRecord).valid = true)
    (hfirst : ¬∃ j, j < c.next ∧ j ∈ combPlaces rs (rs.getD c.next noRecord).token) :
    dispNext s e c = combRow s e c rs (rs.getD c.next noRecord).token := by
  rw [dispNext_comb hkind hrows hlt, if_neg]
  rw [hvalid, Bool.not_true, Bool.false_or]
  exact fun h => hfirst ((any_take_iff noRecord _ hlt).mp h)

variable {t home : Nat} {bf16 : Bool} {row : Word} (hpos : c.pos = none) (hrow : row = BitVec.ofNat 64 (rowBit c.map c.org t / 8))
  (hhome : rowHome s e row = .ok (home, bf16))
include hpos hrow hhome

/-- A row of which every record is served: its contributions leave. -/
theorem combRow_live {src : Nat → Nat} {val : Nat → List ExAcc}
    (hall : ∀ j ∈ combPlaces rs t, ∃ slot adr, combRecord s e c (rs.getD j noRecord) = .ok (.live (src j) (val j) slot adr))
    (hne : combPlaces rs t ≠ []) :
    combRow s e c rs t = .more
      (sendParts s e { c with done := c.done + (combPlaces rs t).length } row home false bf16 (mapT0 c.map)
        ((combPlaces rs t).map fun j => (src j, j, val j)))
      { c with
        next := c.next + 1
        done := c.done + (combPlaces rs t).length
        rows := (row, combPlaces rs t) :: c.rows
        moved := true } := by
  obtain ⟨ms, hlive, hms⟩ := gather_live hall
  have hids : ((combPlaces rs t).map fun j => (src j, j, val j)).map (fun p => p.2.1) = combPlaces rs t := by
    rw [List.map_map]; exact List.map_id _
  simp only [combRow, filter_getElem?_any rs noRecord]
  rw [← hrow, hhome]
  dsimp only
  rw [← combPlaces, hms, List.nil_append]
  dsimp only
  rw [hlive.tell, hlive.mark hpos, hlive.parts]
  dsimp only
  rw [if_neg (by simpa using hne), hids]

/-- A record alone in its row for which there is no result is listed. -/
theorem combRow_deferred {v : View} {far : Nat} (hmine : combPlaces rs t = [c.next])
    (hnone : combRecord s e c (rs.getD c.next noRecord) = .ok .none)
    (hview : engView s e (c.list + BitVec.ofNat 64 (4 * c.nlist)) 4 true = .ok (v, far)) :
    ∃ u, combRow s e c rs t = .more u { c.listed false with next := c.next + 1 } ∧ EngWrote s u v.key 4 c.next := by
  obtain ⟨u, hu, hwrote⟩ := listAdd_of hpos hview c.next false
  refine ⟨u, ?_, hwrote⟩
  simp only [combRow, filter_getElem?_any rs noRecord]
  rw [← hrow, hhome]
  dsimp only
  rw [← combPlaces, hmine, gather_one hnone]
  dsimp only
  rw [show tellMoved s e [(c.next, Moved.none)] = s from rfl, combMark, hu]
  rfl

end

section
variable {s : State} {e : Eng} {c : DispCmd} {r : RouteRec} {x : Expert} {v : View} {home : Nat}

/-- The slot of a record's token and source, filled (R186). -/
theorem slotIs_iff (m : List Host.Cell) (k token src n : Nat) :
    slotIs m k token src (fun t => t == n) = true ↔
      Memory.read m k 4 = token ∧ Memory.read m (k + 4) 3 = src ∧ Memory.read m (k + 7) 1 = n := by
  simp [slotIs, and_assoc]

theorem combRecord_good (hx : readExpert s e r.exp = .ok x) (hgood : x.good = true)
    (hview : engView s e x.stab (16 * x.nslot) false = .ok (v, home)) :
    combRecord s e c r = match findSlot s.mem v.key x.nslot r.token e.who.core fun t => t == 2 with
      | none => .ok .none
      | some i => (readFarRow s e (slotAdr x.outb x i) (mapT0 c.map)).map fun els =>
          .live x.core (gated r.gate els) i (slotAdr x.outb x i) := by
  rw [combRecord, hx]
  simp only [hgood, hview, Bool.not_true, Bool.false_eq_true, if_false] <;> rfl

end

theorem find?_range_none {n : Nat} {p : Nat → Bool} : (List.range n).find? p = none ↔ ∀ j, j < n → ¬p j = true := by
  simp [List.find?_eq_none]

theorem find?_range_some {n i : Nat} {p : Nat → Bool} :
    (List.range n).find? p = some i ↔ i < n ∧ p i = true ∧ ∀ j, j < i → ¬p j = true := by
  rw [List.find?_range_eq_some]
  simp [and_left_comm]

theorem gated_length (gate : Nat) (els : List Elem) : (gated gate els).length = els.length := List.length_map ..

theorem gated_getElem? (gate : Nat) {els : List Elem} {m : Nat} {y : Elem} (h : els[m]? = some y) :
    (gated gate els)[m]? = some (exAdd exZero (fmtF32.unpack (fpMul fmtF32 0 gate (f32Of y.val)).1)) := by
  rw [gated, List.getElem?_map, h]
  rfl

/-! ### REPLAY (R193, R195) -/

/-- What a REPLAY reads for a record that its entry does not have. -/
abbrev noTapeRec : TapeRec := ⟨0, 0, 0, 0, 0, 0, 0, 0, 0⟩

/-- The records of a REPLAY that take part in a row. -/
def replayPlaces (c : DispCmd) (row : Word) : List Nat :=
  placesOf c.recs noTapeRec fun x => x.flags != recDEFERRED && replayRow c x == row

section
variable {s : State} {e : Eng} {c : DispCmd}

theorem dispNext_replay (hkind : c.kind = .replay) (hlt : c.next < c.recs.length) :
    dispNext s e c = replayStep s e c (c.recs.getD c.next noTapeRec) := by
  rw [dispNext, hkind]
  simp only [List.getElem?_eq_getElem hlt, List.getD_eq_getElem _ _ hlt]

/-- A DEFERRED record, and a later one of its row, are passed over. -/
theorem replayStep_passes {r : TapeRec} (hlt : c.next < c.recs.length)
    (h : r.flags = recDEFERRED ∨ ∃ j, j < c.next ∧ j ∈ replayPlaces c (replayRow c r)) :
    replayStep s e c r = .more s { c with next := c.next + 1 } := by
  rw [replayStep, if_pos]
  exact h.imp_right (any_take_iff noTapeRec _ hlt).mpr

variable {r : TapeRec} {home : Nat} {bf16 : Bool} {row : Word} (hlt : c.next < c.recs.length) (hmoved : r.flags ≠ recDEFERRED)
  (hfirst : ¬∃ j, j < c.next ∧ j ∈ replayPlaces c (replayRow c r)) (hrow : row = replayRow c r)
  (hhome : rowHome s e row = .ok (home, bf16))
include hlt hmoved hfirst hrow hhome

/-- A row of which every record is served: its contributions leave. -/
theorem replayStep_live {src : Nat → Nat} {val : Nat → List ExAcc}
    (hall : ∀ j ∈ replayPlaces c row, ∃ slot adr, replayRecord s e c (c.recs.getD j noTapeRec) = .ok (.live (src j) (val j) slot adr))
    (hne : replayPlaces c row ≠ []) :
    let rerouted := (replayPlaces c row).filter fun j => (c.recs.getD j noTapeRec).gen != genNow s e.who.core &&
      nbits (c.recs.getD j noTapeRec).path 2 1 == 0
    let d : DispCmd := { c with
      next := c.next + 1
      done := c.done + (replayPlaces c row).length
      rerouted := c.rerouted + rerouted.length }
    replayStep s e c r = .more
      (sendParts s e d row home true bf16 (mapT0 c.map) ((replayPlaces c row).map fun j => (src j, j, val j)))
      { d with
        rows := (row, replayPlaces c row) :: c.rows
        moved := true } := by
  intro rerouted d
  have hsame {j : Nat} (hj : j ∈ replayPlaces c row) : c.recs.getD j r = c.recs.getD j noTapeRec := by
    obtain ⟨hlen, -⟩ := mem_placesOf.mp hj
    rw [List.getD_eq_getElem _ _ hlen, List.getD_eq_getElem _ _ hlen]
  obtain ⟨ms, hlive, hms⟩ := gather_live (f := fun j => replayRecord s e c (c.recs.getD j r)) fun j hj => by
    rw [hsame hj]; exact hall j hj
  have hids : ((replayPlaces c row).map fun j => (src j, j, val j)).map (fun p => p.2.1) = replayPlaces c row := by
    rw [List.map_map]; exact List.map_id _
  have hrer : ((replayPlaces c row).filter fun i => (c.recs.getD i r).gen != genNow s e.who.core &&
      nbits (c.recs.getD i r).path 2 1 == 0) = rerouted := List.filter_congr fun j hj => by rw [hsame hj]
  have hgo : ¬(r.flags = recDEFERRED ∨
      (c.recs.take c.next).any (fun x => x.flags != recDEFERRED && replayRow c x == replayRow c r) = true) :=
    not_or.mpr ⟨hmoved, fun h => hfirst ((any_take_iff noTapeRec _ hlt).mp h)⟩
  simp only [replayStep]
  rw [if_neg hgo, ← hrow, hhome]
  dsimp only
  rw [filter_getElem?_any c.recs noTapeRec, ← replayPlaces, hms, List.nil_append]
  dsimp only [Except.map]
  rw [hlive.tell, hlive.parts, hlive.filter_moved fun i => (c.recs.getD i r).gen != genNow s e.who.core &&
    nbits (c.recs.getD i r).path 2 1 == 0, hrer, if_neg (by simpa using hne), hids, hlive.length, List.length_map, Nat.sub_self]
  · rfl
  · exact fun _ _ _ _ _ => rfl

/-- A record alone in its row whose far end does not serve it is lost. -/
theorem replayStep_lost (hmine : replayPlaces c row = [c.next]) (hat : c.recs.getD c.next noTapeRec = r)
    (hfar : farServes s e c r = false) :
    replayStep s e c r = .more s { c with
      next := c.next + 1
      lost := c.lost + 1 } := by
  have hlost : replayRecord s e c (c.recs.getD c.next r) = .ok (.lost none) := by
    rw [show c.recs.getD c.next r = r by rw [← hat, List.getD_eq_getElem _ _ hlt, List.getD_eq_getElem _ _ hlt], replayRecord, hfar]
    rfl
  have hgo : ¬(r.flags = recDEFERRED ∨
      (c.recs.take c.next).any (fun x => x.flags != recDEFERRED && replayRow c x == replayRow c r) = true) :=
    not_or.mpr ⟨hmoved, fun h => hfirst ((any_take_iff noTapeRec _ hlt).mp h)⟩
  simp only [replayStep]
  rw [if_neg hgo, ← hrow, hhome]
  dsimp only
  rw [filter_getElem?_any c.recs noTapeRec, ← replayPlaces, hmine, gather_one hlost]
  rfl

end

/-- What a record of a REPLAY comes to where its far end serves it: the issuer's row, or the far row's gradient. -/
theorem replayRecord_served {s : State} {e : Eng} {c : DispCmd} {r : TapeRec} (h : farServes s e c r = true) :
    replayRecord s e c r = match c.rkind with
      | 1 => (readTileRow s e c.map c.org r.row).map fun els => .live (rowSource s e (rowBit c.map c.org r.row)) (exactly els) 0 0
      | 3 => (readTileRow s e c.map c.org r.row).map fun els =>
          .live (rowSource s e (rowBit c.map c.org r.row)) (gated r.gate.toNat els) 0 0
      | _ => (readFarRow s e (r.adr + c.goff) (mapT0 c.map)).map fun els => .live r.fin (exactly els) 0 0 := by
  rw [replayRecord, h]
  rfl

end Sys2Proof.Machine

/-! ## Contributions are summed at the homes of their rows (R157, R194, R196) -/

namespace Sys2Proof.Machine

/-! ### A contribution leaves the mesh (R157) -/

/-- Packet `k` is a contribution to a row whose turn has come at its home. -/
structure PartArrives (s : State) (k : Nat) (p : Packet) (r : RowPart) : Prop where
  turn : takeAt s k = .yes p
  body : p.body = .row r
  near : p.near = true
  live : stale s p = false

/-- The state in which the contribution stands at its home's collective engine. -/
def partHome (s : State) (k : Nat) (p : Packet) (r : RowPart) : State :=
  let s1 := noteWork s r.home r.job
  if p.here then s1 else { removeAt s1 k with flight := (removeAt s1 k).flight ++ [{ p with here := true }] }

/-- Its place there among the packets. -/
def partPlace (s : State) (k : Nat) (p : Packet) (r : RowPart) : Nat :=
  if p.here then k else (removeAt (noteWork s r.home r.job) k).flight.length

section
variable {s : State} {k : Nat} {p : Packet} {r : RowPart}

theorem PartArrives.applies (h : PartArrives s k p r) :
    exec (.rowContribution k) s = .next (applyPart (partHome s k p r) (partPlace s k p r) r) := by
  have hstep : rowArrival s k = applyPart (partHome s k p r) (partPlace s k p r) r := by
    rw [rowArrival, h.turn]
    dsimp only
    rw [h.body]
    dsimp only
    rw [h.near, h.live]
    cases hhere : p.here <;> simp only [partHome, partPlace, hhere, h.body] <;> rfl
  exact congrArg Host.Outcome.next hstep

/-- Taken from there, it is off the fabric. -/
theorem removeAt_partHome (s : State) (k : Nat) (p : Packet) (r : RowPart) :
    removeAt (partHome s k p r) (partPlace s k p r) = removeAt (noteWork s r.home r.job) k := by
  cases hhere : p.here with
  | true => simp [partHome, partPlace, hhere]
  | false =>
    simp only [partHome, partPlace, hhere, Bool.false_eq_true, if_false]
    simp only [removeAt, List.eraseIdx_append_of_length_le (Nat.le_refl _), Nat.sub_self, List.eraseIdx_cons_zero, List.append_nil]

theorem dieAt_noteWork (s : State) (n job d : Nat) : dieAt (noteWork s n job) d = dieAt s d := by
  rw [dieAt, (wakesOnly_noteWork s n job).rest, dieAt]

theorem dieAt_partHome (s : State) (k : Nat) (p : Packet) (r : RowPart) (d : Nat) : dieAt (partHome s k p r) d = dieAt s d := by
  rw [partHome]
  dsimp only
  split
  · exact dieAt_noteWork ..
  · exact dieAt_noteWork ..

end

/-! ### The accumulators of a row (R194) -/

/-- An accumulator as the first contribution to a row takes it. -/
def newAcc (r : RowPart) : RowAcc := ⟨r.core, r.cmd, r.row, 0, false, none, segments r.n, []⟩

section
variable {v : State} {j : Nat} {r : RowPart} {a b : RowAcc}

/-- No accumulator at the home holds the row. -/
def RowIsNew (v : State) (r : RowPart) : Prop := ∀ y ∈ (dieAt v (dieOf r.home)).rowacc, y.row ≠ r.row

theorem sameRow_row {y : RowAcc} (h : sameRow y r = true) : y.row = r.row := by
  simp only [sameRow, Bool.and_eq_true, beq_iff_eq] at h
  exact h.2

theorem RowIsNew.find (h : RowIsNew v r) : ((dieAt v (dieOf r.home)).rowacc.find? fun y => sameRow y r) = none :=
  List.find?_eq_none.mpr fun y hy hsame => h y hy (sameRow_row hsame)

theorem RowIsNew.rest (h : RowIsNew v r) :
    ((dieAt v (dieOf r.home)).rowacc.filter fun y => !sameRow y r) = (dieAt v (dieOf r.home)).rowacc :=
  List.filter_eq_self.mpr fun y hy => by
    rw [Bool.not_eq_true', ← Bool.not_eq_true]
    exact fun hsame => h y hy (sameRow_row hsame)

/-- A row that finds too few accumulators, or that an earlier row waits before, takes none. -/
theorem RowIsNew.acc_none (h : RowIsNew v r)
    (hfull : 32 < accsUsed (dieAt v (dieOf r.home)) + segments r.n ∨ rowsWaiting v j r = true) : accFor v j r = none := by
  rw [accFor, h.find]
  dsimp only
  refine if_pos ?_
  rcases hfull with hfull | hfull
  · rw [decide_eq_true hfull, Bool.or_true]; rfl
  · rw [hfull, Bool.or_true]

theorem RowIsNew.acc_new (h : RowIsNew v r) (hroom : accsUsed (dieAt v (dieOf r.home)) + segments r.n ≤ 32)
    (hturn : rowsWaiting v j r = false) : accFor v j r = some (newAcc r) := by
  have hnone : ((dieAt v (dieOf r.home)).rowacc.any fun a => a.row == r.row) = false :=
    List.any_eq_false.mpr fun y hy hrow => h y hy (beq_iff_eq.mp hrow)
  rw [accFor, h.find]
  dsimp only
  rw [hnone, hturn, decide_eq_false (by omega)]
  rfl

theorem accFor_old (h : ((dieAt v (dieOf r.home)).rowacc.find? fun y => sameRow y r) = some a) : accFor v j r = some a := by
  rw [accFor, h]

theorem applyPart_none (h : accFor v j r = none) : applyPart v j r = v := by rw [applyPart, h]; rfl

theorem applyPart_acc (h : accFor v j r = some a) :
    applyPart v j r = ((addPart v a r).bind fun a => keepAcc (removeAt v j) r a).getD v := by rw [applyPart, h]; rfl

/-! ### A contribution is added -/

/-- A row's sum with one contribution more. -/
def addedTo (r : RowPart) (l : List ExAcc) : List ExAcc := (List.range r.n).map fun i => exMerge (l.getD i exZero) (r.vals.getD i exZero)

theorem addedTo_getD (r : RowPart) (l : List ExAcc) {i : Nat} (hi : i < r.n) :
    (addedTo r l).getD i exZero = exMerge (l.getD i exZero) (r.vals.getD i exZero) := by
  rw [addedTo, List.getD_eq_getElem _ _ (by simpa using hi), List.getElem_map, List.getElem_range]

/-- One that brings no values, and one to a row that cannot be read, is only counted. -/
theorem addPart_counts (h : r.live = false ∨ a.fail.isSome = true) : addPart v a r = some { a with got := a.got + 1 } := by
  refine if_pos ?_
  rcases h with h | h
  · exact .inl (by rw [h]; rfl)
  · exact .inr h

theorem addPart_adds (hlive : r.live = true) (hfail : a.fail = none) (ha : a.live = true) :
    addPart v a r = some { a with
      got := a.got + 1
      sums := addedTo r a.sums } := by
  rw [addPart]
  simp only [hlive, hfail, ha, Bool.not_true, Bool.false_eq_true, Option.isSome_none, or_self, if_false, if_true]
  rfl

/-- The first values that come for a row are added to the row's own. -/
theorem addPart_first (hlive : r.live = true) (hfail : a.fail = none) (ha : a.live = false) :
    addPart v a r = match firstValue v r with
      | .error .wait => none
      | .error f => some { a with
          got := a.got + 1
          fail := some f }
      | .ok x => some { a with
          got := a.got + 1
          live := true
          sums := addedTo r x } := by
  rw [addPart]
  simp only [hlive, hfail, ha, Bool.not_true, Bool.false_eq_true, Option.isSome_none, or_self, if_false]
  rfl

theorem addPart_got (h : addPart v a r = some b) : b.got = a.got + 1 := by
  by_cases hcounts : r.live = false ∨ a.fail.isSome = true
  · rw [addPart_counts hcounts] at h
    cases h
    rfl
  · obtain ⟨hlive, hfail⟩ := not_or.mp hcounts
    rw [Bool.not_eq_false] at hlive
    rw [Bool.not_eq_true, Option.isSome_eq_false_iff, Option.isNone_iff_eq_none] at hfail
    cases ha : a.live with
    | true => rw [addPart_adds hlive hfail ha] at h; cases h; rfl
    | false =>
      rw [addPart_first hlive hfail ha] at h
      split at h <;> cases h <;> rfl

/-! ### The row stays, or is complete -/

/-- The home's die with other accumulators. -/
def withAccs (s : State) (r : RowPart) (l : List RowAcc) : State :=
  setDie s (dieOf r.home) { dieAt s (dieOf r.home) with rowacc := l }

/-- The accumulators of the other rows. -/
def otherAccs (s : State) (r : RowPart) : List RowAcc := (dieAt s (dieOf r.home)).rowacc.filter fun y => !sameRow y r

theorem keepAcc_more (s : State) (h : a.got < r.expect) : keepAcc s r a = some (withAccs s r (otherAccs s r ++ [a])) := if_pos h

theorem keepAcc_last (s : State) (h : r.expect ≤ a.got) : keepAcc s r a = writeSum (withAccs s r (otherAccs s r)) r a :=
  if_neg (Nat.not_lt.mpr h)

theorem writeSum_fails (s : State) {f : EFail} (h : a.fail = some f) : writeSum s r a = some (rowOver s r (some f)) := by
  rw [writeSum, h]
  rfl

/-- What is written of a complete row: each element of the sum, rounded once (R94). -/
def roundedSum (r : RowPart) (a : RowAcc) : Nat → Nat → RowCodes :=
  fun _ _ => ⟨a.sums.map (exRound (if r.bf16 then fmtBF16 else fmtF32)), [], 1⟩

theorem writeSum_writes {s t : State} {n : Nat} {bad : Option EFail} (hlive : a.live = true) (hfail : a.fail = none)
    (h : writeRow s (partEng r) (8 * r.row.toNat) (partBits r) r.n (roundedSum r a) = (t, n, bad)) :
    writeSum s r a = if bad = some .wait then none else some (rowOver t r bad) := by
  change writeRow s (partEng r) (8 * r.row.toNat) (partBits r) r.n
    (fun _ _ => ⟨a.sums.map (exRound (if r.bf16 then fmtBF16 else fmtF32)), [], 1⟩) = (t, n, bad) at h
  rw [writeSum, hfail, hlive]
  simp only [Option.isSome_none, Bool.not_true, Bool.false_eq_true, if_false, h]

end

/-! ### The commands that a row belongs to (R185, R196) -/

@[simp] theorem editDisp_mem (s : State) (n num : Nat) (f : DispCmd → DispCmd) : (editDisp s n num f).mem = s.mem := rfl
@[simp] theorem editDisp_full (s : State) (n num : Nat) (f : DispCmd → DispCmd) : (editDisp s n num f).full = s.full := rfl
@[simp] theorem dispq_editDisp (s : State) (n num : Nat) (f : DispCmd → DispCmd) :
    (coreAt (editDisp s n num f) n).dispq = (coreAt s n).dispq.map fun c => if c.num = num then f c else c := by
  rw [editDisp, coreAt_setCore_same]

/-- A row that is refused counts none of its records as done and stops its command. -/
theorem refuseRow_eq (row : Word) (code : Nat) (adr : Word) (c : DispCmd) : refuseRow row code adr c = { c with
    rows := c.rows.filter fun y => y.1 != row
    done := c.done - (c.rows.flatMap fun y => if y.1 = row then y.2 else []).length
    bad := if c.bad.isSome then c.bad else some (dispCode code, code, adr) } := by
  cases h : c.bad <;> simp [refuseRow, rowDone, rowRecs, h]

/-! ### What a contribution comes to -/

section
variable {s : State} {k : Nat} {p : Packet} {r : RowPart} {a b : RowAcc} (h : PartArrives s k p r)
include h

/-- A contribution that finds no accumulator waits at its home. -/
theorem PartArrives.stays (hacc : accFor (partHome s k p r) (partPlace s k p r) r = none) :
    exec (.rowContribution k) s = .next (partHome s k p r) := by rw [h.applies, applyPart_none hacc]

variable (hacc : accFor (partHome s k p r) (partPlace s k p r) r = some a)
include hacc

/-- So does one that must wait for its row's own value. -/
theorem PartArrives.waits (hadd : addPart (partHome s k p r) a r = none) :
    exec (.rowContribution k) s = .next (partHome s k p r) := by rw [h.applies, applyPart_acc hacc, hadd]; rfl

variable (hadd : addPart (partHome s k p r) a r = some b)
include hadd

theorem PartArrives.added : exec (.rowContribution k) s =
    .next ((keepAcc (removeAt (noteWork s r.home r.job) k) r b).getD (partHome s k p r)) := by
  rw [h.applies, applyPart_acc hacc, hadd, removeAt_partHome]
  rfl

/-- While more contributions are expected the row keeps its value. -/
theorem PartArrives.keeps (hmore : b.got < r.expect) : ∃ u, exec (.rowContribution k) s = .next u ∧ u.mem = s.mem ∧
    u.full = s.full ∧ u.flight = (removeAt (noteWork s r.home r.job) k).flight ∧
    (dieAt u (dieOf r.home)).rowacc = (dieAt s (dieOf r.home)).rowacc.filter (fun y => !sameRow y r) ++ [b] := by
  have hwork := wakesOnly_noteWork s r.home r.job
  have hdie : dieAt (removeAt (noteWork s r.home r.job) k) (dieOf r.home) = dieAt s (dieOf r.home) := dieAt_noteWork ..
  have hexec := h.added hacc hadd
  rw [keepAcc_more _ hmore, Option.getD_some] at hexec
  refine ⟨_, hexec, hwork.mem, hwork.full, rfl, ?_⟩
  rw [withAccs, dieAt_setDie_same, otherAccs, hdie]

/-- The last one writes the row, or tells its command why not. -/
theorem PartArrives.ends (hlast : r.expect ≤ b.got) : exec (.rowContribution k) s =
    .next ((writeSum (withAccs (removeAt (noteWork s r.home r.job) k) r (otherAccs s r)) r b).getD (partHome s k p r)) := by
  have hothers : otherAccs (removeAt (noteWork s r.home r.job) k) r = otherAccs s r := by
    rw [otherAccs, show dieAt (removeAt (noteWork s r.home r.job) k) (dieOf r.home) = dieAt s (dieOf r.home) from dieAt_noteWork ..]
    rfl
  rw [h.added hacc hadd, keepAcc_last _ hlast, hothers]

/-- A row whose own value cannot be read stops its command. -/
theorem PartArrives.refused (hlast : r.expect ≤ b.got) {code : Nat} {adr : Word} (hfail : b.fail = some (.refused code adr)) :
    ∃ u, exec (.rowContribution k) s = .next u ∧ u.mem = s.mem ∧ u.full = s.full ∧ (coreAt u r.core).dispq =
      (coreAt s r.core).dispq.map fun c => if c.num = r.cmd then refuseRow r.row code adr c else c := by
  have hwork := wakesOnly_noteWork s r.home r.job
  have hexec := h.ends hacc hadd hlast
  rw [writeSum_fails _ hfail, Option.getD_some] at hexec
  refine ⟨_, hexec, hwork.mem, hwork.full, ?_⟩
  rw [rowOver, dispq_editDisp]
  exact congrArg _ (hwork.dispq r.core)

/-- A complete row is written and its command told; one that is only to wait waits at its home. -/
theorem PartArrives.writes (hlast : r.expect ≤ b.got) (hlive : b.live = true) (hfail : b.fail = none) {t : State} {n : Nat}
    {bad : Option EFail} (hwrite : writeRow (withAccs (removeAt (noteWork s r.home r.job) k) r (otherAccs s r)) (partEng r)
      (8 * r.row.toNat) (partBits r) r.n (roundedSum r b) = (t, n, bad)) :
    exec (.rowContribution k) s = .next (if bad = some .wait then partHome s k p r else rowOver t r bad) := by
  rw [h.ends hacc hadd hlast, writeSum_writes hlive hfail hwrite]
  split <;> rfl

end

/-- Settles O36: a row's contributions leave together (`combRow_live`, `replayStep_live`); at the row's home each is added to an accumulator
(`addPart_adds`, `addPart_first`), and the last one writes the row (`PartArrives.ends`). -/
theorem rowsSum : Obligations.RowsSum := by
  constructor
  · intro s n k home c bf16 rs row src val q e i comb t0 passes sends one read hq hruns hlate hmove hhalt hstarted hbad hnext hpos hwf
    have hat : AtRecord s n k c := ⟨hq, hruns, hlate, hmove, hbad, hhalt, hstarted, hnext⟩
    have hsends {mine : List Nat} {base : Bool} (rerouted : Nat) (hbase : base = !comb)
        (h : ∃ u, exec i s = .next u ∧ SendsRow s u e n k { c with
          next := c.next + 1
          done := c.done + mine.length
          rerouted := c.rerouted + rerouted
          rows := (row, mine) :: c.rows
          moved := true } row home base bf16 t0 (mine.map fun j => (src j, j, val j))) : sends mine rerouted := by
      obtain ⟨u, hu, hmem, hfull, hdispq, ps, hflight, hall⟩ := h
      rw [List.forall₂_map_left_iff, List.length_map] at hall
      refine ⟨u, ps, hu, hmem, hfull, hflight, hall.length_eq.symm, fun p m j hp hj => ?_, hdispq⟩
      obtain ⟨hm, rfl⟩ := List.getElem?_eq_some_iff.mp hp
      obtain ⟨hm', rfl⟩ := List.getElem?_eq_some_iff.mp hj
      exact hbase ▸ (List.forall₂_iff_get.mp hall).2 m hm' hm
    refine ⟨fun hcomb hrows hlt => ?_, fun r x v h hx hgood hview => ?_, fun hkind hlt => ?_, fun r els hserves => ?_⟩
    · intro r mine earlier
      have hkind : c.kind = .comb := beq_iff_eq.mp hcomb
      refine ⟨fun h => hat.passes (dispNext_comb_passes hkind hrows hlt h), fun hvalid hfirst hrow hhome => ⟨fun hall => ?_, ?_⟩⟩
      · have hrow' := dispNext_comb_row hkind hrows hlt hvalid hfirst
        have hne : combPlaces rs r.token ≠ [] :=
          List.ne_nil_of_mem (mem_placesOf.mpr ⟨hlt, Bool.and_eq_true_iff.mpr ⟨hvalid, beq_self_eq_true _⟩⟩)
        exact hsends 0 (by rw [hcomb]; rfl)
          (hat.sendsRow (hrow'.trans (combRow_live hpos hrow hhome hall hne)) rfl rfl)
      · intro hmine hnone v h hview
        obtain ⟨u, hu, hwrote⟩ := combRow_deferred hpos hrow hhome hmine hnone hview
        refine ⟨_, hat.exec_more ((dispNext_comb_row hkind hrows hlt hvalid hfirst).trans hu), hwrote.stored hwf, hwrote.flight, ?_⟩
        rw [dispq_withDisp, hwrote.coreAt]
        rfl
    · intro holds
      have hiff (j : Nat) : slotIs s.mem (v.key + 16 * j) r.token e.who.core (fun t => t == 2) = true ↔ holds j := slotIs_iff ..
      refine ⟨fun hnone => ?_, fun j els hj hholds hbefore hels => ?_⟩
      · rw [combRecord_good hx hgood hview, findSlot, find?_range_none.mpr fun j hj => (hiff j).not.mpr (hnone j hj)]
      · rw [combRecord_good hx hgood hview, findSlot,
          find?_range_some.mpr ⟨hj, (hiff j).mpr hholds, fun i hi => (hiff i).not.mpr (hbefore i hi)⟩]
        refine ⟨gated r.gate els, ?_, gated_length .., fun m y hy => gated_getElem? _ hy⟩
        dsimp only
        rw [hels]
        rfl
    · intro r mine earlier
      have hcomb : comb = false := by simp [comb, hkind]
      refine ⟨fun h => hat.passes ((dispNext_replay hkind hlt).trans (replayStep_passes hlt h)),
        fun hmoved hfirst hrow hhome => ⟨fun hall => ?_, ?_⟩⟩
      · subst hrow
        have hne : replayPlaces c (replayRow c r) ≠ [] :=
          List.ne_nil_of_mem (mem_placesOf.mpr ⟨hlt, Bool.and_eq_true_iff.mpr ⟨bne_iff_ne.mpr hmoved, beq_self_eq_true _⟩⟩)
        exact hsends _ (by rw [hcomb]; rfl)
          (hat.sendsRow ((dispNext_replay hkind hlt).trans (replayStep_live hlt hmoved hfirst rfl hhome hall hne)) rfl rfl)
      · intro hmine hfar
        subst hrow
        obtain ⟨u, hu, hmem, -, hflight, hdispq⟩ := hat.passes ((dispNext_replay hkind hlt).trans
          (replayStep_lost hlt hmoved hfirst rfl hhome hmine rfl hfar))
        exact ⟨u, hu, hmem, hflight, hdispq⟩
    · intro own at'
      refine ⟨fun hk hown => ?_, fun hk hown => ?_, fun hk hels => ?_⟩
      · rw [replayRecord_served hserves, hk, show readTileRow s e c.map c.org r.row = .ok els from hown]
        rfl
      · refine ⟨gated r.gate.toNat els, ?_, fun m y hy => gated_getElem? _ hy⟩
        rw [replayRecord_served hserves, hk, show readTileRow s e c.map c.org r.row = .ok els from hown]
        rfl
      · rw [replayRecord_served hserves, hels]
        rcases hk with hk | hk <;> rw [hk] <;> rfl
  · intro s k p r a d i s1 u0 v at' new old keeps rest refused hturn hbody hnear hlive
    have h : PartArrives s k p r := ⟨hturn, hbody, hnear, hlive⟩
    have hv : v = partHome s k p r := rfl
    have hdie : dieAt (partHome s k p r) d = dieAt s d := dieAt_partHome ..
    have hrefused (t : State) (code : Nat) (adr : Word) : ((coreAt t r.core).dispq.map fun c =>
        if c.num = r.cmd then refuseRow r.row code adr c else c) = refused (coreAt t r.core).dispq code adr := by
      simp only [refuseRow_eq, refused]
    refine ⟨fun hrows => ?_, fun hfind b hadd => ?_⟩
    · have hnew : RowIsNew (partHome s k p r) r := by rw [RowIsNew, hdie]; exact hrows
      refine ⟨fun hfull => h.stays (hnew.acc_none (by rwa [hdie])), fun hroom hwaits hmore => ?_⟩
      have hacc := hnew.acc_new (j := partPlace s k p r) (by rwa [hdie]) hwaits
      have hkeeps {b : RowAcc} (hadd : addPart v (newAcc r) r = some b) : keeps (old ++ [b]) := by
        obtain ⟨u, hu, hmem, hfull, hflight, hrow⟩ := h.keeps hacc hadd (by rw [addPart_got hadd]; exact hmore)
        refine ⟨u, hu, hmem, hfull, hflight, ?_⟩
        rw [hrow, ← hdie, hnew.rest, hdie]
      refine ⟨fun hl => hkeeps (addPart_counts (.inl hl)), fun hl x hx => ?_, fun hl hx => ?_, fun hl f hx hf => ?_, fun hb => ?_⟩
      · refine ⟨_, hkeeps (by rw [addPart_first hl rfl rfl, hx]), rfl, rfl, rfl, fun j hj => addedTo_getD r x hj⟩
      · exact h.waits hacc (by rw [addPart_first hl rfl rfl, ← hv, hx])
      · refine hkeeps ?_
        rw [addPart_first hl rfl rfl, hx]
        cases f with
        | wait => exact absurd rfl hf
        | _ => rfl
      · rw [firstValue, hb]; rfl
    · have hacc : accFor (partHome s k p r) (partPlace s k p r) r = some a := accFor_old (by rw [hdie]; exact hfind)
      refine ⟨addPart_got hadd, fun hl ha hf => ?_, fun hl => ?_, fun hmore => h.keeps hacc hadd hmore, fun hlast code adr hf => ?_,
        fun hlast hb hf t m bad hwrite => ⟨fun hgood => ?_, fun hwait => ?_, fun code adr hcode => ?_⟩⟩
      · cases (addPart_adds hl hf ha).symm.trans hadd
        exact ⟨ha, hf, fun j hj => addedTo_getD r a.sums hj⟩
      · exact (Option.some.inj ((addPart_counts (.inl hl)).symm.trans hadd)).symm
      · obtain ⟨u, hu, hmem, hfull, hdispq⟩ := h.refused hacc hadd hlast hf
        exact ⟨u, hu, hmem, hfull, hdispq.trans (hrefused ..)⟩
      · subst hgood
        exact ⟨_, h.writes hacc hadd hlast hb hf hwrite, rfl, rfl, dispq_editDisp ..⟩
      · subst hwait
        exact h.writes hacc hadd hlast hb hf hwrite
      · subst hcode
        exact ⟨_, h.writes hacc hadd hlast hb hf hwrite, rfl, rfl, (dispq_editDisp ..).trans (hrefused ..)⟩

end Sys2Proof.Machine

/-! ## Tapes, commands that record, and cursors (R187, R188, R190, R192, R274, R284) -/

namespace Sys2Proof.Machine

/-! ### The tape of a job at a die -/

theorem tapeOf_names (s : State) (d part job : Nat) : (tapeOf s d part job).part = part ∧ (tapeOf s d part job).job = job := by
  rw [tapeOf]
  cases hfind : (dieAt s d).tapes.find? fun t => t.part == part && t.job == job with
  | none => exact ⟨rfl, rfl⟩
  | some t => simpa using List.find?_some hfind

theorem tapeOf_setTape (s : State) (d : Nat) {t : Tape} {part job : Nat} (hpart : t.part = part) (hjob : t.job = job) :
    tapeOf (setTape s d t) d part job = t := by
  rw [tapeOf, setTape, dieAt_setDie_same, List.find?_cons_of_pos (by simp [hpart, hjob])]
  rfl

theorem dieAt_congr {s t : State} (h : t.dies = s.dies) (d : Nat) : dieAt t d = dieAt s d := by rw [dieAt, h, dieAt]

theorem tapeOf_congr {s t : State} (h : t.dies = s.dies) (d part job : Nat) : tapeOf t d part job = tapeOf s d part job := by
  rw [tapeOf, dieAt_congr h, tapeOf]

theorem tapeHeld_congr {s t : State} (h : t.dies = s.dies) (d : Nat) : tapeHeld t d = tapeHeld s d := by
  rw [tapeHeld, dieAt_congr h, tapeHeld]

theorem quotaRec_congr {s t : State} (h : t.mem = s.mem) (d part job : Nat) : quotaRec t d part job = quotaRec s d part job := by
  rw [quotaRec, h, quotaRec]

theorem tapeLimit_congr {s t : State} (h : t.mem = s.mem) (d part job : Nat) : tapeLimit t d part job = tapeLimit s d part job := by
  delta tapeLimit
  rw [quotaRec_congr h, h]

theorem tapeTrim_kept {t : Tape} {x : Nat} (h : ∀ y ∈ t.entries, x < y.pos + y.size) : (tapeTrim t x).trim = t.trim := by
  rw [tapeTrim]
  dsimp only
  rw [List.filter_eq_nil_iff.mpr fun y hy => by simpa using h y hy]
  rfl

/-! ### TMARK and TTRIM (R192) -/

theorem xDue_zero (cy : Nat) (l : List Pend) (x : Word) : l.foldl (xDue cy 0) x = x := by
  induction l generalizing x with
  | nil => rfl
  | cons e l ih => rw [List.foldl_cons, ih]; simp [xDue]

/-- A register reads the low 64 bits of what has been written into it at once. -/
theorem Ctx.xAt_put_now (c : Ctx) (d : Reg) (v : VWord) (n : Nat) :
    (c.put 0 0 (xCode d) v allBits).xAt n d = if d = 0 then 0 else v.setWidth 64 := by
  by_cases hd : d = 0
  · subst hd
    rw [xAt_dues, xDue_zero]
    simp [Ctx.rx]
  · rw [← Ctx.putNow_eq, xAt_dues, Ctx.putNow_pend, xCode, xDue_strip_all _ _ _ _ _ allBits_ne]
    simp only [Ctx.putNow, Ctx.rx_wcode, hd, ne_eq, not_false_eq_true, and_self, if_true, if_false]
    rw [allBits_setWidth 64 (by omega), mergeBits_all]

theorem exec_tmark (s : State) (st : Stall) (d : Reg) :
    exec (.tmark st d) s = done st 4 (varResult s (xCode d) .tmark (BitVec.ofNat 1024 (myTapePos s)) allBits) := rfl

theorem exec_ttrim (s : State) (st : Stall) (a : Reg) : exec (.ttrim st a) s =
    if myTapePos s < (xr s a).toNat then supFault s fRESFIELD 0
    else done st 4 (setTape s (dieOf s.cur.core)
      (tapeTrim (tapeOf s (dieOf s.cur.core) (partNum s s.cur.core) (me s).job) (xr s a).toNat)) := rfl

theorem tmark_of (s : State) (st : Stall) (d : Reg) : ∃ t, exec (.tmark st d) s = .next t ∧ MineOnly s t ∧ WentOn s t st 4 ∧
    (s.cur.late = false → (∀ cy, (me t).xAt cy d = if d = 0 then 0 else BitVec.ofNat 64 (myTapePos s)) ∧ XSameBut d (me s) (me t)) ∧
    (s.cur.late = true → (me t).x = (me s).x ∧ (me t).var = (me s).var ++ [⟨xCode d, .tmark, allBits, false⟩]) := by
  have hd := d.isLt
  let v := BitVec.ofNat 1024 (myTapePos s)
  let c := varCtx s.cur.late (me s) (xCode d) .tmark v allBits
  have hexec : exec (.tmark st d) s = .next (setMe s
      { c.goto (c.pc + BitVec.ofNat 64 4) with stall := (myCore s).cycle + st.toNat + 1 }) := by
    rw [exec_tmark, varResult_eq]
    exact congrArg Host.Outcome.next (advance_setMe ..)
  refine ⟨_, hexec, mineOnly_setMe .., ?_, fun hlate => ?_, fun hlate => ?_⟩
  · have hpc : c.pc = (me s).pc ∧ c.loops = (me s).loops := by
      cases hl : s.cur.late
      · simp only [c, varCtx, hl, Bool.false_eq_true, if_false]
        rw [Ctx.putX_only]
        exact ⟨rfl, rfl⟩
      · rw [show c = varCtx true (me s) (xCode d) .tmark v allBits by rw [← hl]]
        exact ⟨rfl, rfl⟩
    obtain ⟨hpc, hloops⟩ := hpc
    rw [WentOn, me_setMe, ← hpc, ← hloops]
    exact ⟨rfl, rfl, rfl⟩
  · have hc : c = (me s).put 0 0 (xCode d) v allBits := by simp only [c, varCtx, hlate, Bool.false_eq_true, if_false]
    rw [me_setMe, hc]
    refine ⟨fun cy => ?_, fun cy r hr => ?_, fun cy r => ?_, fun cy r => ?_⟩
    · rw [Ctx.xAt_goto, Ctx.xAt_put_now, BitVec.setWidth_ofNat_of_le (by omega)]
    · rw [Ctx.xAt_goto]
      exact Ctx.xAt_put_other _ _ _ _ _ _ _ _ fun h => hr (BitVec.eq_of_toNat_eq h.symm)
    · rw [Ctx.vAt_goto, Ctx.vAt_put_other _ _ _ _ _ _ _ _ (by unfold xCode; omega)]
    · rw [Ctx.pAt_goto, Ctx.pAt_put_other _ _ _ _ _ _ _ _ (by unfold xCode; omega)]
  · rw [me_setMe]
    have hc : c = { me s with var := (me s).var ++ [⟨xCode d, .tmark, allBits, false⟩] } := by simp only [c, varCtx, hlate, if_true]
    rw [hc]
    exact ⟨rfl, rfl⟩

section
variable {s : State} {a : Reg}

theorem ttrim_beyond (h : myTapePos s < (xr s a).toNat) (st : Stall) : TakesSup (.ttrim st a) s fRESFIELD 0 := by
  rw [TakesSup, exec_ttrim, if_pos h]
  rfl

theorem ttrim_of (h : (xr s a).toNat ≤ myTapePos s) (st : Stall) : ∃ t, exec (.ttrim st a) s = .next t ∧ t.mem = s.mem ∧
    t.full = s.full ∧ t.flight = s.flight ∧ OthersSame s t ∧ WentOn s t st 4 ∧
    tapeOf t (dieOf s.cur.core) (partNum s s.cur.core) (me s).job =
      tapeTrim (tapeOf s (dieOf s.cur.core) (partNum s s.cur.core) (me s).job) (xr s a).toNat := by
  let d := dieOf s.cur.core
  let tp := tapeOf s d (partNum s s.cur.core) (me s).job
  let u := setTape s d (tapeTrim tp (xr s a).toNat)
  obtain ⟨hpart, hjob⟩ := tapeOf_names s d (partNum s s.cur.core) (me s).job
  obtain ⟨t, ht, hends⟩ := done_ends (s := s) (u := u) (c := me s) rfl rfl rfl rfl rfl (fun _ _ _ => rfl) st
  have hdies : t.dies = u.dies := by
    rw [done] at ht
    cases ht
    rfl
  refine ⟨t, by rw [exec_ttrim, if_neg (Nat.not_lt.mpr h)]; exact ht, hends.mem, hends.full, hends.flight, hends.others, hends.went, ?_⟩
  rw [tapeOf_congr hdies]
  exact tapeOf_setTape s d hpart hjob

end

/-! ### Granules filled in a row -/

theorem memb_setRun_of_memb {l : List Nat} {g : Nat} (h : memb l g = true) (k n : Nat) : memb (setRun l k true n) g = true := by
  induction n generalizing l k with
  | zero => exact h
  | succ n ih => exact ih (memb_addMem_of_memb k h) _

theorem memb_setRun (l : List Nat) (k : Nat) {n j : Nat} (h : j < n) : memb (setRun l k true n) (k + j) = true := by
  induction n generalizing l k j with
  | zero => omega
  | succ n ih =>
    cases j with
    | zero => exact memb_setRun_of_memb (memb_addMem_self l k) _ _
    | succ j =>
      rw [show k + (j + 1) = k + 1 + j by omega]
      exact ih _ _ (by omega)

/-- An engine's write fills every granule that it touches. -/
theorem EngWrote.filled {s t : State} {key n x j : Nat} (h : EngWrote s t key n x) (hj : j < n) : isFull t (key + j) = true := by
  rw [isFull, h.full, show (key + j) / 16 = key / 16 + (key % 16 + j) / 16 by omega]
  exact memb_setRun _ _ (by omega)

/-! ### DCUR (R187) -/

/-- The engine of the running context. -/
def myEng (s : State) : Eng := engOf s.cur.core s.cur.ctx (partNum s s.cur.core) (suprNow s) (releaseVec s)

/-- The command that a completion word names at its core, with its place. -/
def named (s : State) (word : Word) : Option (Nat × DispCmd) := findCommand s (myEng s) ((cwordAbs s word).getD word)

/-- Command `i` of a core is to halt, and has its cursor at `adr`. -/
def haltAt (t : State) (n i : Nat) (c : DispCmd) (adr : Word) : State :=
  withDisp t n i { c with
    halt := true
    cursor := some adr }

section
variable {s : State} {a b : Reg}

theorem dcur_refuses (h : (xr s b).getLsbD 3 = true ∨ cwAcc (xr s b) ≠ 0 ∨
      [xr s a, cwAdr (xr s b)].any operandBad = true) (st : Stall) :
    TakesSup (.dcur st a b) s fRESFIELD (badOperand [xr s a, cwAdr (xr s b)]) := by
  refine if_pos (Bool.or_eq_true_iff.mpr ?_)
  rcases h with h | h | h
  · exact .inl (cwordFault_true (.inl h))
  · exact .inl (cwordFault_true (.inr (.inl h)))
  · exact .inr h

variable (hgood : (xr s b).getLsbD 3 = false ∧ cwAcc (xr s b) = 0 ∧ [xr s a, cwAdr (xr s b)].any operandBad = false)
include hgood

theorem dcur_goes : ¬(cwordFault (xr s b) false || [xr s a, cwAdr (xr s b)].any operandBad) = true := by
  obtain ⟨h3, hacc, hadr⟩ := hgood
  have hword : operandBad (cwAdr (xr s b)) = false := by
    simp only [List.any_cons, List.any_nil, Bool.or_eq_false_iff] at hadr
    exact hadr.2.1
  rw [cwordFault_false h3 (.inr hacc) (isPrivAdr_of_operandBad hword), hadr]
  decide

theorem dcur_misaligned (h : (xr s a).toNat % 64 ≠ 0) (st : Stall) : TakesSup (.dcur st a b) s fMISALIGN (xr s a) :=
  (if_neg (dcur_goes hgood)).trans (if_pos h)

variable (halign : (xr s a).toNat % 64 = 0)
include halign

theorem dcur_unmapped (h : absOperand s s.cur.core (xr s a) = none) (st : Stall) : TakesSup (.dcur st a b) s fPROTECT (xr s a) := by
  refine (if_neg (dcur_goes hgood)).trans ((if_neg (not_not.mpr halign)).trans ?_)
  rw [h]
  rfl

variable {adr : Word} (habs : absOperand s s.cur.core (xr s a) = some adr) (hrel : mayRelease s = true)
include habs hrel

theorem exec_dcur {t : State} (hwrite : engWrite s (myEng s) adr 64 (cursorValue (xr s b) ((named s (xr s b)).map fun x => x.2)) = .ok t)
    (st : Stall) : exec (.dcur st a b) s = match named s (xr s b) with
      | none => done st 4 t
      | some (i, c) => done st 4 (withdraw (haltAt t s.cur.core i c adr) s.cur.core c.num) := by
  refine (if_neg (dcur_goes hgood)).trans ((if_neg (not_not.mpr halign)).trans ?_)
  rw [habs]
  dsimp only
  rw [releasing_of hrel]
  unfold named myEng at *
  rw [hwrite] <;> rfl

end

/-- DCUR has written its cursor: the rest of it changes no memory, nothing on its way and no context but its own. -/
structure WroteCursor (s t : State) (st : Stall) (key x : Nat) : Prop where
  stored : Stored s t key 64 x
  others : OthersSame s t
  went : WentOn s t st 4
  filled : ∀ j, j < 4 → isFull t (key + 16 * j) = true

/-- An instruction ends after a cursor has been written and its core's queues may have changed. -/
theorem wroteCursor_done {s t u : State} {key x : Nat} (hwrote : EngWrote s t key 64 x) (hwf : Memory.wf s.mem = true)
    (hcur : u.cur = s.cur) (hmem : u.mem = t.mem) (hfull : u.full = t.full)
    (hctx : ∀ n c, ctxAt u n c = ctxAt t n c) (hcycle : (myCore u).cycle = (myCore s).cycle) (st : Stall) :
    ∃ r, done st 4 u = .next r ∧ WroteCursor s r st key x ∧ (myCore r).dispq = (myCore u).dispq := by
  have hsame (n c : Nat) : ctxAt u n c = ctxAt s n c := (hctx n c).trans (ctxAt_congr hwrote.cores n c)
  obtain ⟨r, hr, hends⟩ := done_ends (s := s) (u := u) (c := me s) hcur (by rw [me, hcur, hsame]; rfl) rfl rfl hcycle
    (fun n c _ => hsame n c) st
  have hstored := hwrote.stored hwf
  have hmem' : r.mem = t.mem := hends.mem.trans hmem
  refine ⟨r, hr, ⟨⟨by rw [hmem']; exact hstored.1, by rw [hmem']; exact hstored.2⟩, hends.others, hends.went,
    fun j hj => ?_⟩, ?_⟩
  · rw [isFull, hends.full, hfull]
    exact hwrote.filled (by omega)
  · rw [myCore, hends.core, hends.cur]
    rfl

theorem ctxAt_withDisp (t : State) (n k m i : Nat) (c : DispCmd) : ctxAt (withDisp t n k c) m i = ctxAt t m i := by
  rw [ctxAt, ctxAt, withDisp]
  by_cases hm : m = n
  · rw [hm, coreAt_setCore_same]
  · rw [coreAt_setCore_other _ _ hm]

/-- A withdrawn grant leaves a core all but its grants. -/
theorem coreAt_withdraw (t : State) (n num m : Nat) : coreAt (withdraw t n num) m = { coreAt t m with
    grants := (coreAt t m).grants.filter fun g => !(g.core == n && g.cmd == num) } :=
  look_map (fun k : Core => { k with grants := k.grants.filter fun g => !(g.core == n && g.cmd == num) }) t.cores Core.reset m rfl

section
variable {s : State} {a b : Reg} {adr : Word} {v : View} {home : Nat}
  (hgood : (xr s b).getLsbD 3 = false ∧ cwAcc (xr s b) = 0 ∧ [xr s a, cwAdr (xr s b)].any operandBad = false)
  (halign : (xr s a).toNat % 64 = 0) (habs : absOperand s s.cur.core (xr s a) = some adr) (hrel : mayRelease s = true)
  (hview : engView s (myEng s) adr 64 true = .ok (v, home)) (hwf : Memory.wf s.mem = true)
include hgood halign habs hrel hview hwf

/-- A DCUR that finds no command writes a cursor with STATE 0. -/
theorem dcur_none (hnone : named s (xr s b) = none) (st : Stall) : ∃ t, exec (.dcur st a b) s = .next t ∧
    WroteCursor s t st v.key (2 ^ 64 * (xr s b).toNat) ∧ (myCore t).dispq = (myCore s).dispq := by
  obtain ⟨t, hwrite, hwrote⟩ := engWrite_of hview (cursorValue (xr s b) none)
  have hexec := exec_dcur hgood halign habs hrel (t := t) (by rw [hnone]; exact hwrite) st
  rw [hnone] at hexec
  have hcore : myCore t = myCore s := by rw [myCore, hwrote.cur, hwrote.coreAt, myCore]
  obtain ⟨r, hr, hcursor, hq⟩ := wroteCursor_done hwrote hwf hwrote.cur rfl rfl (fun _ _ => rfl) (by rw [hcore]) st
  exact ⟨r, hexec.trans hr, hcursor, hq.trans (by rw [hcore])⟩

/-- A DCUR that finds its command stops it and writes its cursor. -/
theorem dcur_some {i : Nat} {c : DispCmd} (hsome : named s (xr s b) = some (i, c)) (st : Stall) : ∃ t, exec (.dcur st a b) s = .next t ∧
    WroteCursor s t st v.key (ofBytes (dispCursor c)) ∧ (myCore t).dispq = (myCore s).dispq.set i { c with
      halt := true
      cursor := some adr } := by
  obtain ⟨t, hwrite, hwrote⟩ := engWrite_of hview (cursorValue (xr s b) (some c))
  have hexec := exec_dcur hgood halign habs hrel (t := t) (by rw [hsome]; exact hwrite) st
  rw [hsome] at hexec
  let u := withdraw (haltAt t s.cur.core i c adr) s.cur.core c.num
  have hctx (n k : Nat) : ctxAt u n k = ctxAt t n k := by
    rw [ctxAt, coreAt_withdraw]
    exact ctxAt_withDisp ..
  have hcur : u.cur = s.cur := hwrote.cur
  have hcycle : (myCore u).cycle = (myCore s).cycle := by
    rw [myCore, hcur, coreAt_withdraw, haltAt, withDisp, coreAt_setCore_same, hwrote.coreAt]
    rfl
  obtain ⟨r, hr, hcursor, hq⟩ := wroteCursor_done (u := u) hwrote hwf hcur rfl rfl hctx hcycle st
  refine ⟨r, hexec.trans hr, hcursor, hq.trans ?_⟩
  rw [myCore, hcur, coreAt_withdraw, haltAt, dispq_withDisp, hwrote.coreAt]
  rfl

end

end Sys2Proof.Machine

/-! ## Commands that record (R188, R190, R274, R284, R294) -/

namespace Sys2Proof.Machine

/-! ### The entry of a command (R188) -/

/-- The tape of the running context's job at its die. -/
def myTape (s : State) : Tape := tapeOf s (dieOf s.cur.core) (partNum s s.cur.core) (me s).job

/-- A tape with one more entry at its end. -/
def Tape.grown (t : Tape) (size : Nat) (e : TapeEntry) : Tape :=
  { t with
    pos := t.pos + size
    entries := t.entries ++ [{ e with
      pos := t.pos
      size := size }] }

/-- Has the quota of the running context's job, and the store of its die, room for `size` more bytes? -/
def TapeFits (s : State) (size : Nat) : Prop :=
  (myTape s).pos + size - (myTape s).trim ≤ tapeLimit s (dieOf s.cur.core) (partNum s s.cur.core) (me s).job ∧
    tapeHeld s (dieOf s.cur.core) + size ≤ 8388608

/-- The entry that a command of the running context reserves. -/
def myEntry (s : State) (kind : Nat) (base : Word) (ne : Nat) : TapeEntry :=
  newEntry (tidOf s.cur.core (myTape s).pos) kind 0 (pkgAt s (pkgOf s.cur.core)).gen base ne []

section
variable {s t : State} (h : AtIssue s t)
include h

theorem AtIssue.dies : t.dies = s.dies := by obtain rfl | ⟨b, rfl⟩ := h <;> rfl

theorem AtIssue.partNum (n : Nat) : partNum t n = Machine.partNum s n := by
  obtain rfl | ⟨b, rfl⟩ := h
  · rfl
  · exact partNum_setMe ..

theorem AtIssue.job : (me t).job = (me s).job := by
  obtain ⟨b, hme⟩ := h.me_eq
  rw [hme]

theorem AtIssue.myTape : myTape t = Machine.myTape s := by
  rw [Machine.myTape, tapeOf_congr h.dies, h.cur, h.partNum, h.job, Machine.myTape]

theorem AtIssue.fits (size : Nat) : TapeFits t size ↔ TapeFits s size := by
  rw [TapeFits, h.myTape, h.cur, h.partNum, h.job, tapeLimit_congr h.mem, tapeHeld_congr h.dies, TapeFits]

end

/-- `t` with the entry of its running command reserved. -/
def withEntry (t : State) (size : Nat) (e : TapeEntry) : State :=
  let u := setTape t (dieOf t.cur.core) ((myTape t).grown size e)
  setMe u { me t with tapeAt := some (myTape t).pos }

theorem tapeReserve_of {s : State} {size : Nat} (h : TapeFits s size) (e : TapeEntry) :
    tapeReserve s (dieOf s.cur.core) (partNum s s.cur.core) (me s).job size e =
      some ((myTape s).pos, setTape s (dieOf s.cur.core) ((myTape s).grown size e)) := by
  obtain ⟨hlimit, hstore⟩ := h
  exact if_neg (not_or.mpr ⟨Nat.not_lt.mpr hlimit, Nat.not_lt.mpr hstore⟩)

theorem tapeReserve_full {s : State} {size : Nat} (h : ¬TapeFits s size) (e : TapeEntry) :
    tapeReserve s (dieOf s.cur.core) (partNum s s.cur.core) (me s).job size e = none := by
  rw [TapeFits, Decidable.not_and_iff_or_not, Nat.not_le, Nat.not_le] at h
  exact if_pos h

section
variable {s : State} {n kind ne : Nat} {base : Word} (hnone : (me s).tapeAt = none)
include hnone

theorem reserveIssuer_of (h : TapeFits s (32 + 16 * n)) : reserveIssuer s n kind base ne =
    some ((myTape s).pos, withEntry s (32 + 16 * n) (myEntry s kind base ne)) := by
  unfold reserveIssuer
  rw [hnone]
  dsimp only
  exact congrArg _ (tapeReserve_of h (myEntry s kind base ne))

theorem reserveIssuer_full (h : ¬TapeFits s (32 + 16 * n)) : reserveIssuer s n kind base ne = none := by
  unfold reserveIssuer
  rw [hnone]
  dsimp only
  exact congrArg _ (tapeReserve_full h (myEntry s kind base ne))

end

/-! ### The command put into its engine -/

/-- `t` is a state of the issue of `s`: the memory, the other contexts and all of the running core but its contexts are those of `s`, and
its context differs in what it has reserved and read. -/
structure Issuing (s t : State) : Prop where
  cur : t.cur = s.cur
  mem : t.mem = s.mem
  others : OthersSame s t
  ctx : ∃ a b, me t = { me s with
    tapeAt := a
    paybuf := b }
  core : ∀ n, coreAt t n = { coreAt s n with ctxs := (coreAt t n).ctxs }

theorem AtIssue.issuing {s t : State} (h : AtIssue s t) : Issuing s t where
  cur := h.cur
  mem := h.mem
  others := h.others
  ctx := by
    obtain ⟨b, hme⟩ := h.me_eq
    exact ⟨(me s).tapeAt, b, hme⟩
  core n := by
    obtain rfl | ⟨b, rfl⟩ := h
    · rfl
    · exact core_setMe ..

theorem Issuing.withEntry {s t : State} (h : Issuing s t) (size : Nat) (e : TapeEntry) : Issuing s (withEntry t size e) where
  cur := h.cur
  mem := h.mem
  others := others_setMe s _ _ h.cur h.others
  ctx := by
    obtain ⟨a, b, hme⟩ := h.ctx
    exact ⟨some (myTape t).pos, b, by rw [Machine.withEntry, me_setMe, hme]⟩
  core n := by
    have hsame : coreAt (setTape t (dieOf t.cur.core) ((myTape t).grown size e)) n = coreAt t n := rfl
    rw [Machine.withEntry, core_setMe, hsame, h.core]

/-- The running core with other queues of its engines. -/
def withQueues (t : State) (dq : List DispCmd) (cq : List CopyCmd) : State :=
  setMyCore { t with serial := t.serial + 1 } { myCore t with
    dispq := dq
    copyq := cq }

theorem ctxAt_withQueues (t : State) (dq : List DispCmd) (cq : List CopyCmd) (n c : Nat) :
    ctxAt (withQueues t dq cq) n c = ctxAt t n c :=
  ctxAt_setMyCore (s := { t with serial := t.serial + 1 }) (k := { myCore t with
    dispq := dq
    copyq := cq }) rfl n c

/-- What the issue of a command comes to: it stands in a queue of its core, and its sender goes on. -/
structure Queued (s u : State) (st : Stall) (dq : List DispCmd) (cq : List CopyCmd) : Prop where
  mem : u.mem = s.mem
  others : OthersSame s u
  went : WentOn s u st 4
  dispq : (myCore u).dispq = dq
  copyq : (myCore u).copyq = cq

theorem Issuing.queued {s t : State} (h : Issuing s t) (st : Stall) (dq : List DispCmd) (cq : List CopyCmd) :
    let q := withQueues t dq cq
    ∃ u, done st 4 (setMe q { me q with
      tapeAt := none
      paybuf := none }) = .next u ∧ Queued s u st dq cq ∧ u.dies = t.dies := by
  intro q
  obtain ⟨a, b, hme⟩ := h.ctx
  let c : Ctx := { me s with
    tapeAt := none
    paybuf := none }
  have hqme : { me q with
      tapeAt := none
      paybuf := none } = c := by
    rw [show me q = me t from ctxAt_withQueues t dq cq _ _, hme]
  have hcore : myCore q = { myCore t with
      dispq := dq
      copyq := cq } := myCore_setMyCore ..
  have hcycle : (myCore (setMe q c)).cycle = (myCore s).cycle := by
    rw [myCore_setMe_cycle, hcore, myCore, h.cur, h.core]
    rfl
  have hothers : OthersSame s (setMe q c) :=
    others_setMe s q _ h.cur fun n k hne => (ctxAt_withQueues t dq cq n k).trans (h.others n k hne)
  obtain ⟨u, hu, hends⟩ := done_ends (s := s) (u := setMe q c) h.cur (me_setMe ..) rfl rfl hcycle hothers st
  have hu' : myCore u = { myCore (setMe q c) with ctxs := (myCore u).ctxs } := by
    rw [myCore, hends.core, hends.cur]
    rfl
  rw [hqme]
  refine ⟨u, hu, ⟨hends.mem.trans h.mem, hends.others, hends.went, ?_, ?_⟩, ?_⟩
  · rw [hu', myCore_setMe, hcore]
  · rw [hu', myCore_setMe, hcore]
  · rw [done] at hu
    cases hu
    rfl

theorem Issuing.pushDisp {s t : State} (h : Issuing s t) (st : Stall) (cmd : DispCmd) : ∃ u, pushDisp t st cmd = .next u ∧
    Queued s u st ((myCore s).dispq ++ [cmd]) (myCore s).copyq ∧ u.dies = t.dies := by
  have hcore : myCore t = { myCore s with ctxs := (myCore t).ctxs } := by
    rw [myCore, h.cur, h.core, myCore]
  obtain ⟨u, hu, hqueued⟩ := h.queued st ((myCore t).dispq ++ [cmd]) (myCore t).copyq
  rw [hcore] at hqueued
  exact ⟨u, hu, hqueued⟩

theorem Issuing.pushCopy {s t : State} (h : Issuing s t) (st : Stall) (cmd : CopyCmd) : ∃ u, pushCopy t st cmd = .next u ∧
    Queued s u st (myCore s).dispq ((myCore s).copyq ++ [cmd]) ∧ u.dies = t.dies := by
  have hcore : myCore t = { myCore s with ctxs := (myCore t).ctxs } := by
    rw [myCore, h.cur, h.core, myCore]
  obtain ⟨u, hu, hqueued⟩ := h.queued st (myCore t).dispq ((myCore t).copyq ++ [cmd])
  rw [hcore] at hqueued
  exact ⟨u, hu, hqueued⟩

/-! ### What a command that records comes to (R188) -/

/-- `o` is what the issue of a command with `n` records comes to: it enters `queue` with its position on the tape, or is refused. -/
structure Records (s : State) (st : Stall) (o : Out) (n : Nat) (adr : Word) (queue : State → Option Nat) : Prop where
  fits : TapeFits s (32 + 16 * n) → ∃ u dq cq e, o = .next u ∧ Queued s u st dq cq ∧ queue u = some (myTape s).pos ∧
    tapeOf u (dieOf s.cur.core) (partNum s s.cur.core) (me s).job = (myTape s).grown (32 + 16 * n) e ∧ e.role = 0 ∧ e.void = false ∧
    e.tid = tidOf s.cur.core (myTape s).pos
  full : ¬TapeFits s (32 + 16 * n) → ∃ t, o = .next (raiseUpcall t s.cur.core s.cur.ctx fTAPEFULL adr (me s).pc 4 none) ∧ AtIssue s t

/-- The issue of a command that records, once its operands and its list are read: `enter` queues it with its position. -/
def recordEnter (s : State) (n kind : Nat) (base : Word) (ne : Nat) (adr : Word) (enter : State → Nat → Out) : Out :=
  match reserveIssuer s n kind base ne with
  | none => upcall s fTAPEFULL adr 4
  | some (p, s) => enter s p

theorem records_of {s t : State} {n kind ne : Nat} {base adr : Word} {st : Stall} {enter : State → Nat → Out}
    {queue : State → Option Nat} (h : AtIssue s t) (hnone : (me s).tapeAt = none)
    (henter : ∀ u, Issuing s u → ∃ r dq cq, enter u (myTape s).pos = .next r ∧ Queued s r st dq cq ∧ r.dies = u.dies ∧
      queue r = some (myTape s).pos) : Records s st (recordEnter t n kind base ne adr enter) n adr queue := by
  obtain ⟨b, hme⟩ := h.me_eq
  have hnone' : (me t).tapeAt = none := by rw [hme]; exact hnone
  refine ⟨fun hfits => ?_, fun hfull => ?_⟩
  · let e := myEntry t kind base n
    let u := withEntry t (32 + 16 * n) (myEntry t kind base ne)
    obtain ⟨r, dq, cq, hr, hqueued, hdies, hpos⟩ := henter u (h.issuing.withEntry ..)
    obtain ⟨hpart, hjob⟩ := tapeOf_names t (dieOf t.cur.core) (partNum t t.cur.core) (me t).job
    refine ⟨r, dq, cq, myEntry t kind base ne, ?_, hqueued, hpos, ?_, rfl, rfl, ?_⟩
    · rw [recordEnter, reserveIssuer_of hnone' ((h.fits _).mpr hfits), h.myTape]
      exact hr
    · rw [tapeOf_congr hdies, ← h.myTape, ← h.job, ← h.partNum, ← h.cur]
      exact tapeOf_setTape t (dieOf t.cur.core) hpart hjob
    · rw [← h.myTape, ← h.cur]
      rfl
  · refine ⟨t, ?_, h⟩
    rw [recordEnter, reserveIssuer_full hnone' (fun hfits => hfull ((h.fits _).mp hfits)), ← h.cur]
    have hpc : (me t).pc = (me s).pc := by rw [hme]
    rw [← hpc]
    rfl

theorem getLast?_concat_pos {q : List DispCmd} {c : DispCmd} {p : Nat} (h : c.pos = some p) :
    ((q ++ [c]).getLast?.bind fun x => x.pos) = some p := by
  rw [List.getLast?_concat, Option.bind_some, h]

/-! ### DISP and COMB (R284) -/

theorem withBytes_of {s : State} {adr : Word} {n : Nat} {bytes : List Byte} (h : PayloadOf s adr n bytes) (len : Nat)
    (f : State → List Byte → Out) : ∃ t, AtIssue s t ∧ withBytes s len adr n f = f t bytes := by
  obtain hbuf | ⟨hbuf, hq, p, v, hown, rfl⟩ := h
  · exact ⟨buffered s none, .inr ⟨_, rfl⟩, by rw [withBytes, hbuf]; rfl⟩
  · exact ⟨s, .inl rfl, by rw [withBytes, hbuf]; exact readAtIssue_own hq hown len f⟩

/-- The command of a DISP or COMB whose header is read. -/
def routeCmd (kind : DKind) (cword table : Word) (m : BitVec 256) (org : BitVec 64) (bound h : Nat)
    (s : State) (pos : Option Nat) : DispCmd :=
  { withHeader (dispCmd s kind cword table m org) h pos with bound := bound }

/-- A DISP or COMB that its issue admits enters the dispatch engine, or waits for room. -/
def routeEnter (st : Stall) (n : Nat) (bytes : List Byte) (cmd : State → Option Nat → DispCmd) (s : State) (pos : Option Nat) : Out :=
  if !dispRoom s n then .next (parkHere (setMe s { me s with paybuf := some bytes }) .unit) else pushDisp s st (cmd s pos)

/-- The operands of DISP and COMB that their issue admits (R270, R284). -/
structure RouteOperands (s : State) (a : TReg) (b c : Reg) (w' l' : Word) (m : BitVec 256) : Prop where
  trap : (xr s b).getLsbD 3 = false
  acc : cwAcc (xr s b) = 0
  word : operandBad (cwAdr (xr s b)) = false
  cword : cwordOperand s (xr s b) = some w'
  base : operandBad (baseAdr ((me s).rtm a)) = false
  map : mapOperand s s.cur.core ((me s).rtm a) ((me s).rorg a) = some m
  priv : isPrivAdr (xr s c) = false
  align : (xr s c).toNat % 16 = 0
  zero : mbzOk (xr s c) = true
  list : absOperand s s.cur.core (xr s c) = some l'
  release : mayRelease s = true
  fresh : (me s).tapeAt = none

theorem Issuing.dispRoom {s t : State} (h : Issuing s t) : dispRoom t s.cur.core = Machine.dispRoom s s.cur.core := by
  rw [Machine.dispRoom, h.core, Machine.dispRoom]

theorem Issuing.copyRoom {s t : State} (h : Issuing s t) : copyRoom t s.cur.core = Machine.copyRoom s s.cur.core := by
  rw [Machine.copyRoom, h.core, Machine.copyRoom]

section
variable {s : State} {a : TReg} {b c : Reg} {w' l' : Word} {m : BitVec 256} (h : RouteOperands s a b c w' l' m)
include h

theorem RouteOperands.routeIssue (st : Stall) (kind : DKind) (tape bound : Nat) :
    routeIssue s st kind tape a b c bound = withBytes s 4 (xr s c) 16 fun t bytes =>
      let enter := routeEnter st s.cur.core bytes (routeCmd kind w' l' m ((me s).rorg a) bound (ofBytes bytes))
      if nbits (ofBytes bytes) (32 + tape) 1 = 0 then enter t none
      else recordEnter t (ofBytes bytes % 4294967296) (2 + tape) (BitVec.ofNat 64 (mapBase m)) (mapT0 m) (cwAdr w') fun u p =>
        enter u (some p) := by
  have hgo : ¬(cwordFault (xr s b) false || isPrivAdr (xr s c) ||
      [cwAdr (xr s b), baseAdr ((me s).rtm a)].any operandBad) = true := by
    rw [cwordFault_false h.trap (.inr h.acc) (isPrivAdr_of_operandBad h.word), h.priv, List.any_cons, List.any_cons, h.word, h.base]
    decide
  refine (if_neg hgo).trans ((if_neg (not_not.mpr h.align)).trans ((if_neg (by rw [h.zero]; decide)).trans ?_))
  rw [h.cword, h.map, h.list]
  dsimp only
  rw [releasing_of h.release] <;> rfl

theorem RouteOperands.records {bytes : List Byte} (hbytes : PayloadOf s (xr s c) 16 bytes) (hroom : dispRoom s s.cur.core = true)
    (st : Stall) (kind : DKind) {tape : Nat} (hrec : nbits (ofBytes bytes) (32 + tape) 1 = 1) (bound : Nat) :
    Records s st (Machine.routeIssue s st kind tape a b c bound) (ofBytes bytes % 4294967296) (cwAdr w') fun u =>
      (myCore u).dispq.getLast?.bind fun x => x.pos := by
  rw [h.routeIssue]
  obtain ⟨t, ht, heq⟩ := withBytes_of hbytes 4 fun t bytes =>
    let enter := routeEnter st s.cur.core bytes (routeCmd kind w' l' m ((me s).rorg a) bound (ofBytes bytes))
    if nbits (ofBytes bytes) (32 + tape) 1 = 0 then enter t none
    else recordEnter t (ofBytes bytes % 4294967296) (2 + tape) (BitVec.ofNat 64 (mapBase m)) (mapT0 m) (cwAdr w') fun u p =>
      enter u (some p)
  rw [heq]
  dsimp only
  rw [if_neg (by rw [hrec]; decide)]
  refine records_of ht h.fresh fun u hu => ?_
  obtain ⟨r, hr, hqueued, hdies⟩ := hu.pushDisp st
    (routeCmd kind w' l' m ((me s).rorg a) bound (ofBytes bytes) u (some (myTape s).pos))
  refine ⟨r, _, _, ?_, hqueued, hdies, ?_⟩
  · rw [routeEnter, hu.dispRoom, hroom]
    exact hr
  · rw [hqueued.dispq]
    exact getLast?_concat_pos rfl

end

/-! ### GATHER and MCAST (R274, R294) -/

/-- A copy command that records and that its issue admits enters the copy engine, or waits for room. -/
def listRecordEnter (st : Stall) (n : Nat) (bytes : List Byte) (cmd : State → Option Nat → CopyCmd) (s : State) (pos : Nat) : Out :=
  if !copyRoom s n then .next (parkHere (setMe s { me s with paybuf := if bytes = [] then none else some bytes }) .unit)
  else pushCopy s st (cmd s (some pos))

/-- What the issue of a recording copy command does with the bytes of its list: `count` gives its records. -/
def listRecord (st : Stall) (mcast : Bool) (kind : Nat) (count : Nat → Nat) (m : BitVec 256) (w' : Word)
    (cmd : State → Option Nat → CopyCmd) (n : Nat) (s : State) (bytes : List Byte) : Out :=
  if mcast ∧ (mcastBases bytes).any operandBad then supFault s fRESFIELD (badOperand (mcastBases bytes))
  else recordEnter s (count (ofBytes (bytes.take 16))) kind (BitVec.ofNat 64 (mapBase m)) (mapT0 m) (cwAdr w')
    (listRecordEnter st n bytes cmd)

section
variable {s : State} {a : TReg} {b c : Reg} {w' l' : Word} {m : BitVec 256} (h : RouteOperands s a b c w' l' m)
include h

theorem RouteOperands.listIssue (st : Stall) (fn : BitVec 8) (mcast : Bool) (kind : Nat) (count : Nat → Nat) :
    listIssue s st fn a b c mcast kind (some count) = withList s mcast (xr s c) true (listRecord st mcast kind count m w'
      (fun t => copyCmd t fn c.toNat w' m ((me s).rorg a) m ((me s).rorg a) l') s.cur.core) := by
  have hmap : mapRefused mcast (baseAdr ((me s).rtm a)) = false := by
    have hbase := h.base
    cases mcast
    · rw [operandBad, Bool.or_eq_false_iff] at hbase
      exact hbase.2
    · exact hbase
  have hgo : ¬(cwordFault (xr s b) false || operandBad (cwAdr (xr s b)) || isPrivAdr (xr s c) ||
      mapRefused mcast (baseAdr ((me s).rtm a))) = true := by
    rw [cwordFault_false h.trap (.inr h.acc) (isPrivAdr_of_operandBad h.word), h.word, h.priv, hmap]
    decide
  refine (if_neg hgo).trans ((if_neg (not_not.mpr h.align)).trans ((if_neg (by rw [h.zero]; decide)).trans ?_))
  rw [h.cword, h.map, h.list]
  dsimp only
  rw [releasing_of h.release] <;> rfl

theorem RouteOperands.copyRecords {t : State} {bytes : List Byte} {mcast : Bool} (ht : AtIssue s t)
    (hfit : mcast = true → (mcastBases bytes).any operandBad = false) (hroom : copyRoom s s.cur.core = true) (st : Stall) (kind : Nat)
    (count : Nat → Nat) {cmd : State → Option Nat → CopyCmd} (hcmd : ∀ u p, (cmd u p).pos = p) :
    Records s st (listRecord st mcast kind count m w' cmd s.cur.core t bytes) (count (ofBytes (bytes.take 16))) (cwAdr w') fun u =>
      (myCore u).copyq.getLast?.bind fun x => x.pos := by
  rw [listRecord, if_neg (fun hbad => by rw [hfit hbad.1] at hbad; cases hbad.2)]
  refine records_of ht h.fresh fun u hu => ?_
  obtain ⟨r, hr, hqueued, hdies⟩ := hu.pushCopy st (cmd u (some (myTape s).pos))
  refine ⟨r, _, _, ?_, hqueued, hdies, ?_⟩
  · rw [listRecordEnter, hu.copyRoom, hroom]
    exact hr
  · rw [hqueued.copyq, List.getLast?_concat, Option.bind_some, hcmd]

/-- R274: GATHER reads the first 16 bytes of its list, for its records. -/
theorem RouteOperands.gather {bytes : List Byte} (hbytes : PayloadOf s (xr s c) 16 bytes) (hroom : Machine.copyRoom s s.cur.core = true)
    (st : Stall) : Records s st (exec (.gather st a b c true) s) (ofBytes (bytes.take 16) % 4294967296) (cwAdr w') fun u =>
      (myCore u).copyq.getLast?.bind fun x => x.pos := by
  have hexec := h.listIssue st (copyFn 2 8) false 1 fun x => x % 4294967296
  obtain ⟨t, ht, heq⟩ := withBytes_of hbytes 4 (listRecord st false 1 (fun x => x % 4294967296) m w'
    (fun t => copyCmd t (copyFn 2 8) c.toNat w' m ((me s).rorg a) m ((me s).rorg a) l') s.cur.core)
  rw [show exec (.gather st a b c true) s = _ from hexec.trans heq]
  exact h.copyRecords (mcast := false) ht (fun hf => absurd hf Bool.false_ne_true) hroom st 1 (fun x => x % 4294967296)
    (cmd := fun t => copyCmd t (copyFn 2 8) c.toNat w' m ((me s).rorg a) m ((me s).rorg a) l') fun _ _ => rfl

/-- R274: MCAST reads all of its list. -/
theorem RouteOperands.mcast {bytes : List Byte} (hbytes : ListOf s (xr s c) bytes)
    (hfit : (mcastBases bytes).any operandBad = false) (hroom : Machine.copyRoom s s.cur.core = true) (st : Stall) :
    Records s st (exec (.mcast st a b c true) s) (mapT1 ((me s).rtm a) * (ofBytes (bytes.take 16) % 65536)) (cwAdr w') fun u =>
      (myCore u).copyq.getLast?.bind fun x => x.pos := by
  have hexec := h.listIssue st (copyFn 4 8) true 0 fun x => mapT1 ((me s).rtm a) * (x % 65536)
  have heq := withParts_listOf hbytes (listRecord st true 0 (fun x => mapT1 ((me s).rtm a) * (x % 65536)) m w'
    (fun t => copyCmd t (copyFn 4 8) c.toNat w' m ((me s).rorg a) m ((me s).rorg a) l') s.cur.core)
  rw [show exec (.mcast st a b c true) s = _ from hexec.trans heq]
  exact h.copyRecords (mcast := true) (.inr ⟨none, rfl⟩) (fun _ => hfit) hroom st 0 (fun x => mapT1 ((me s).rtm a) * (x % 65536))
    (cmd := fun t => copyCmd t (copyFn 4 8) c.toNat w' m ((me s).rorg a) m ((me s).rorg a) l') fun _ _ => rfl

end

theorem ofBytes_take_mod (l : List Byte) (n : Nat) : ofBytes (l.take n) % 256 ^ n = ofBytes l % 256 ^ n := by
  induction n generalizing l with
  | zero => rw [pow_zero, Nat.mod_one, Nat.mod_one]
  | succ n ih =>
    cases l with
    | nil => rfl
    | cons b r =>
      rw [List.take_succ_cons, ofBytes, ofBytes, pow_succ', Nat.mod_mul, Nat.mod_mul, Nat.add_mul_mod_self_left,
        Nat.add_mul_mod_self_left, Nat.add_mul_div_left _ _ (by decide), Nat.add_mul_div_left _ _ (by decide),
        Nat.div_eq_of_lt b.isLt, Nat.zero_add, Nat.zero_add, ih]

/-- The low word of a list's first 16 bytes is that of the list. -/
theorem ofBytes_take_word (l : List Byte) : ofBytes (l.take 16) % 4294967296 = ofBytes l % 4294967296 := by
  have hdvd : 4294967296 ∣ 256 ^ 16 := by decide
  rw [← Nat.mod_mod_of_dvd _ hdvd, ofBytes_take_mod, Nat.mod_mod_of_dvd _ hdvd]

/-! ### What the statement calls a command that records -/

section
variable {s : State} {st : Stall} {o : Out} {n : Nat} {adr : Word} {queue : State → Option Nat} (h : Records s st o n adr queue)
include h

theorem Records.reserves (hlimit : (myTape s).pos + (32 + 16 * n) - (myTape s).trim ≤
      tapeLimit s (dieOf s.cur.core) (partNum s s.cur.core) (me s).job)
    (hstore : tapeHeld s (dieOf s.cur.core) + (32 + 16 * n) ≤ 8388608) :
    ∃ u, o = .next u ∧ u.mem = s.mem ∧ OthersSame s u ∧ WentOn s u st 4 ∧
      (tapeOf u (dieOf s.cur.core) (partNum s s.cur.core) (me s).job).pos = (myTape s).pos + (32 + 16 * n) ∧
      (tapeOf u (dieOf s.cur.core) (partNum s s.cur.core) (me s).job).trim = (myTape s).trim ∧
      (∃ e, (tapeOf u (dieOf s.cur.core) (partNum s s.cur.core) (me s).job).entries = (myTape s).entries ++ [e] ∧
        e.pos = (myTape s).pos ∧ e.size = 32 + 16 * n ∧ e.role = 0 ∧ e.void = false ∧
        e.tid = (s.cur.core, (myTape s).pos % 2 ^ 40)) ∧ queue u = some (myTape s).pos := by
  obtain ⟨u, dq, cq, e, hu, hqueued, hpos, htape, hrole, hvoid, htid⟩ := h.fits ⟨hlimit, hstore⟩
  refine ⟨u, hu, hqueued.mem, hqueued.others, hqueued.went, ?_⟩
  rw [htape]
  exact ⟨rfl, rfl, ⟨_, rfl, rfl, rfl, hrole, hvoid, htid⟩, hpos⟩

theorem Records.refused (hfull : tapeLimit s (dieOf s.cur.core) (partNum s s.cur.core) (me s).job <
      (myTape s).pos + (32 + 16 * n) - (myTape s).trim ∨ 8388608 < tapeHeld s (dieOf s.cur.core) + (32 + 16 * n)) :
    ∃ u, o = .next (raiseUpcall u s.cur.core s.cur.ctx fTAPEFULL adr (me s).pc 4 none) ∧ u.mem = s.mem ∧
      (myCore u).dispq = (myCore s).dispq ∧ (myCore u).copyq = (myCore s).copyq ∧
      tapeOf u (dieOf s.cur.core) (partNum s s.cur.core) (me s).job = myTape s := by
  have hno : ¬TapeFits s (32 + 16 * n) := by
    rintro ⟨hlimit, hstore⟩
    exact hfull.elim (Nat.not_lt.mpr hlimit) (Nat.not_lt.mpr hstore)
  obtain ⟨t, ho, ht⟩ := h.full hno
  refine ⟨t, ho, ht.mem, ?_, ?_, tapeOf_congr ht.dies ..⟩
  · rw [ht.core]
  · rw [ht.core]

end

/-- Settles O31: a recording command queues its position with its entry or is refused, by one lemma over the four commands; DCUR, TMARK and
TTRIM each by what their one change does. -/
theorem recordingAndCursors : Obligations.RecordingAndCursors := by
  refine ⟨fun s st a b c z w' l' m bytes dests => ?_, fun s st a b d k' v home => ?_⟩
  · intro w l n d part job tp h records htrap hacc hword hcword hbase hmap hpriv halign hzero hlist hbytes hfresh hrel hdisp hcopy
    have hops : RouteOperands s a b c w' l' m := ⟨htrap, hacc, hword, hcword, hbase, hmap, hpriv, halign, hzero, hlist, hrel, hfresh⟩
    have hrec {i : Instr} {recs : Nat} {queue : State → Option Nat} (hr : Records s st (exec i s) recs (cwAdr w') queue) :
        records i recs queue := ⟨hr.reserves, hr.refused⟩
    refine ⟨fun hflag => hrec (hops.records hbytes hdisp st .disp (tape := 0) hflag z.toNat),
      fun hflag => hrec (hops.records hbytes hdisp st .comb (tape := 1) hflag 15), ?_,
      fun hdests hfit => hrec (hops.mcast hdests hfit hcopy st)⟩
    have hgather := hops.gather hbytes hcopy st
    rw [ofBytes_take_word] at hgather
    exact hrec hgather
  · intro n adr x e word ps good found dcur tp
    refine ⟨fun h => dcur_refuses h st, fun hgood h => dcur_misaligned hgood h st, fun hgood halign h => dcur_unmapped hgood halign h st,
      fun hgood halign habs hrel hview _ hwf => ⟨fun hnone => ?_, fun i c hsome => ?_⟩, tmark_of s st d, fun h => ttrim_beyond h st,
      fun h => ?_⟩
    · obtain ⟨t, ht, hcursor, hq⟩ := dcur_none hgood halign habs hrel hview hwf hnone st
      exact ⟨t, ht, hcursor.stored, hcursor.others, hcursor.went, hq, hcursor.filled⟩
    · obtain ⟨t, ht, hcursor, hq⟩ := dcur_some hgood halign habs hrel hview hwf hsome st
      exact ⟨t, ht, hcursor.stored, hcursor.others, hcursor.went, hq, hcursor.filled⟩
    · obtain ⟨t, ht, hmem, hfull, hflight, hothers, hwent, htape⟩ := ttrim_of h st
      refine ⟨t, ht, hmem, hfull, hflight, hothers, hwent, ?_, fun hkept => ?_⟩
      · rw [htape]
        rfl
      · rw [htape]
        exact tapeTrim_kept hkept

end Sys2Proof.Machine

/-! ## A row that overwrites the package table of its own command (R16, R182, R218)

A command reaches another package by the package table of its partition, which lies in the service block by the partition's number. The
statement bounds that number nowhere, and the table of a partition far beyond the 32 that there are lies, by its place, in a slice of the
next package. Where the row of a token goes to a slot that covers the entry by which the command reaches that package, the first piece of
the row takes the second piece's way from it. -/

namespace Sys2Proof.Machine

/-- A partition number whose package table starts, 33292288 tables of 2 KiB behind that of partition 0, at OFFSET 0x1000 of the first core
of package 1. -/
def beyondPart : Nat := 33292288

/-- The address of OFFSET `off` of that core, as the command names it. -/
def beyondAdr (off : Nat) : Word := BitVec.ofNat 64 (2 ^ 52 + off)

/-- The key of the same byte. -/
def beyondKey (off : Nat) : Nat := sliceKey 16384 off

/-- A tile of one row of 32 elements of 8 bits at OFFSET 0x2000. -/
def beyondMap : BitVec 256 := BitVec.ofNat 256 ((beyondAdr 0x2000).toNat + 2 ^ 200 * 32 + 2 ^ 212 + 2 ^ 224)

/-- A DISP of that row, begun, with the one record of the table at OFFSET 0x6000. -/
def beyondCmd : DispCmd where
  num := 0
  kind := .disp
  ctx := 0
  cword := 0
  table := beyondAdr 0x6000
  map := beyondMap
  org := 0
  goff := 0
  strict := false
  bound := 15
  flags := 0
  n := 1
  list := 0
  next := 0
  done := 0
  nlist := 0
  bytes := 0
  pos := none
  started := true
  halt := false
  bad := none
  lost := 0
  deferred := 0
  rerouted := 0
  recs := []
  rkind := 0
  tid := (0, 0)
  rows := []
  late := []
  move := none
  moved := false
  cursor := none
  job := 0
  part := beyondPart
  supr := true
  vec := zeroVec

/-- Its engine. -/
def beyondEng : Eng := engOf 0 0 beyondPart true zeroVec

/-- Its record: token 0 goes to the expert at OFFSET 0x3000. -/
def beyondRec : RouteRec := ⟨beyondAdr 0x3000, true, true, 0, 0⟩

/-- The expert: one slot of 32 bytes at OFFSET 0x1000, its slot table at OFFSET 0x5000, no counter. -/
def beyondExpert : Expert := ⟨16384, beyondAdr 0x1000, beyondAdr 0x4000, beyondAdr 0x5000, 0, 1, 32, true⟩

/-- What stands at OFFSET `off` of the first core of package 1. -/
def putBeyond (s : State) (off n v : Nat) : State := { s with mem := Memory.write s.mem (beyondKey off) n v }

/-- The machine at reset but for partition 0, which has both cores, a region descriptor of all of the second one's slice, the package
entry, the expert's descriptor, the record, and the command. -/
def beyondTable : State :=
  let s := setSvc (setSvc (setSvc State.reset 0 7 1 0x80) 0 0x40000 1 0x80) 1 0x40000 1 0x80
  let s := putBeyond (putBeyond s 0x410400 8 0xFC02C00000000000) 0x1002 2 0x8001
  let s := putBeyond s 0x3000 32 ((beyondAdr 0x1000).toNat + 2 ^ 64 * (beyondAdr 0x4000).toNat + 2 ^ 128 * (beyondAdr 0x5000).toNat)
  let s := putBeyond (putBeyond s 0x3020 4 (1 + 2 ^ 16 * 32)) 0x6010 8 ((beyondAdr 0x3000).toNat + 1)
  setCore s 0 { Core.reset with dispq := [beyondCmd] }

/-- The slot has been granted. -/
def beyondGranted : State := putBeyond (noteWork beyondTable 16384 0) 0x5000 16 (2 ^ 56)

/-- Where the engine finds `beyondAdr off`. -/
def beyondView (off : Nat) : View := { rawView (beyondKey off) with flip := beyondKey 0x410406 }

theorem beyondPieces (off : Nat) (h : off = 0x1000 ∨ off = 0x2000) :
    rowPieces (8 * (beyondAdr off).toNat) (8 * 1) 32 = [(0, 16), (16, 16)] := by
  rcases h with rfl | rfl
  · decide +kernel
  · decide +kernel

/-- The source row and the slot's row are rows of raw bytes in slices, as the statement has them. -/
theorem beyondRow {off : Nat} {wr : Bool} (hpieces : rowPieces (8 * (beyondAdr off).toNat) (8 * 1) 32 = [(0, 16), (16, 16)])
    (hfirst : engPlace beyondGranted beyondEng (beyondAdr off) (!wr) = some (.slice 16384 off, 16384) ∧
      engView beyondGranted beyondEng (beyondAdr off) 16 wr = .ok (beyondView off, 16384) ∧
      pieceAdr (8 * (beyondAdr off).toNat) (8 * 1) 0 16 = (beyondAdr off, 16))
    (hsecond : engPlace beyondGranted beyondEng (beyondAdr (off + 16)) (!wr) = some (.slice 16384 (off + 16), 16384) ∧
      engView beyondGranted beyondEng (beyondAdr (off + 16)) 16 wr = .ok (beyondView (off + 16), 16384) ∧
      pieceAdr (8 * (beyondAdr off).toNat) (8 * 1) 16 16 = (beyondAdr (off + 16), 16)) :
    RowAt beyondGranted beyondEng (beyondAdr off).toNat 1 32 wr 0 (beyondKey off) := by
  intro p hp
  rw [hpieces] at hp
  rcases List.mem_pair.mp hp with rfl | rfl
  · obtain ⟨hplace, hview, hadr⟩ := hfirst
    rw [hadr]
    exact ⟨16384, off, beyondView off, hplace, hview, rfl, by rw [beyondKey, Nat.mul_zero]; rfl, rfl, rfl, rfl⟩
  · obtain ⟨hplace, hview, hadr⟩ := hsecond
    rw [hadr]
    exact ⟨16384, off + 16, beyondView (off + 16), hplace, hview, rfl, by rw [beyondKey, sliceKey, sliceKey]; omega, rfl, rfl, rfl⟩

theorem beyondSource : RowAt beyondGranted beyondEng (rowBit beyondMap 0 0 / 8) 1 32 false 0 (beyondKey 0x2000) := by
  rw [show rowBit beyondMap 0 0 / 8 = (beyondAdr 0x2000).toNat by decide +kernel]
  exact beyondRow (beyondPieces _ (.inr rfl)) (by decide +kernel) (by decide +kernel)

theorem beyondSlot : RowAt beyondGranted beyondEng (slotAdr beyondExpert.inb beyondExpert 0).toNat 1 32 true 0 (beyondKey 0x1000) := by
  rw [show slotAdr beyondExpert.inb beyondExpert 0 = beyondAdr 0x1000 by decide +kernel]
  exact beyondRow (beyondPieces _ (.inl rfl)) (by decide +kernel) (by decide +kernel)

/-- The grant, with everything else that the statement asks of it. -/
theorem beyondGrant : grantSlot (noteWork beyondTable 16384 0) (beyondKey 0x5000) 1 0 0 0 0 = some (0, beyondGranted) := by
  decide +kernel

/-- The first piece of the row clears the package entry by which the second would be reached: it is refused, and no record is done. -/
theorem beyondTable_stops : (coreAt (dispStep beyondTable 0 0) 0).dispq.map (fun c => (c.next, c.bad)) =
    [(0, some (0x26, fPROTECT, beyondAdr 0x1010))] := by decide +kernel

/-- Refutes O35: with a partition number of which the package table lies in the slot, the row that is delivered cuts its own way: the
step stops the command at a refused access instead of finishing the record. -/
theorem not_dispatchAndGrants : ¬ Obligations.DispatchAndGrants := by
  unfold Obligations.DispatchAndGrants
  intro h
  obtain ⟨-, hdisp, -⟩ := h
  obtain ⟨-, hrecord⟩ := hdisp beyondTable beyondGranted 0 0 beyondCmd beyondRec beyondExpert (beyondKey 0x5000) 0 1 (beyondKey 0x2000)
    (beyondKey 0x1000)
  obtain ⟨-, hdelivers, -⟩ := hrecord rfl (by decide +kernel) rfl rfl rfl rfl rfl (by decide) rfl (by decide +kernel) rfl
    (by decide +kernel) rfl (by decide +kernel) (by decide +kernel)
  obtain ⟨u, hexec, -, -, -, -, hq⟩ := hdelivers beyondGrant (by decide) rfl (by decide +kernel) (by decide) (by decide +kernel)
    beyondSource beyondSlot (by decide +kernel) (fun hnote => absurd rfl hnote) (by decide +kernel)
  have hu : dispStep beyondTable 0 0 = u := Host.Outcome.next.inj hexec
  have hstops := beyondTable_stops
  rw [hu, hq] at hstops
  exact absurd hstops (by decide +kernel)

end Sys2Proof.Machine

/-! ## Supervisor faults, upcalls and TRAP (R198, R199, R201, R204, R341) -/

namespace Sys2Proof.Machine

/-! ### The message of a supervisor fault (R204) -/

/-- Setting a context leaves every other field of every core alone. -/
theorem coreAt_setCtx_rest (s : State) (n c : Nat) (t : Ctx) (m : Nat) :
    coreAt (setCtx s n c t) m = { coreAt s m with ctxs := (coreAt (setCtx s n c t) m).ctxs } := by
  by_cases hm : m = n
  · subst hm; rw [setCtx, coreAt_setCore_same]
  · rw [setCtx, coreAt_setCore_other _ _ hm]

theorem partNum_setCtx (s : State) (n c : Nat) (t : Ctx) (m : Nat) : partNum (setCtx s n c t) m = partNum s m := by
  rw [partNum, partNum, coreAt_setCtx_rest]
  rfl

/-- A context as a supervisor fault leaves it. -/
def Ctx.faulted (t : Ctx) : Ctx :=
  { t with
    st := .held
    cause := .none }

/-- The arguments of the message, as the supervisor core names the faulting core. -/
def supArgs (s : State) (n c code : Nat) (adr pc : Word) : List Word :=
  [coreAdr s (supCoreOf s (pkgOf n) (partNum s n)) n,
    BitVec.ofNat 64 (code + 256 * c + if (ctxAt s n c).c63 then 4096 else 0), adr, pc]

/-- A supervisor fault holds its context and sends one message; what the message says does not depend on the context that is held. -/
theorem raiseSup_eq (s : State) (n c code : Nat) (adr pc : Word) :
    raiseSup s n c code adr pc = sendUnreserved (setCtx s n c (ctxAt s n c).faulted) n (supCoreOf s (pkgOf n) (partNum s n))
      (partFclass s (pkgOf n) (partNum s n)) (supArgs s n c code adr pc) (partNum s n) := by
  have hadr (k m : Nat) : coreAdr (setCtx s n c (ctxAt s n c).faulted) k m = coreAdr s k m := coreAdr_congr (setCtx_mem ..) k m
  show supMessage (setCtx s n c (ctxAt s n c).faulted) n c code (ctxAt s n c).c63 false adr pc = _
  simp only [supMessage, partNum_setCtx, hadr, Bool.false_eq_true, if_false, Nat.add_zero]
  rfl

theorem ctxAt_raiseSup (s : State) (n c code : Nat) (adr pc : Word) (m d : Nat) :
    ctxAt (raiseSup s n c code adr pc) m d = ctxAt (setCtx s n c (ctxAt s n c).faulted) m d := by
  rw [raiseSup_eq, sendUnreserved, ctxAt_transmit]

/-! ### Upcalls (R199) -/

/-- The record that an upcall queues, but for its acceptance number. -/
def upcallOf (s : State) (n c code : Nat) (adr pc : Word) : Upcall := ⟨code, adr, c, pc, 0, partNum s n, none⟩

theorem raiseUpcall_c63 {s : State} {n c : Nat} (h : (ctxAt s n c).c63 = true) (code : Nat) (adr pc : Word) (len : Nat)
    (kept : Option Access) : raiseUpcall s n c code adr pc len kept = raiseSup s n c code adr pc := if_pos h

theorem raiseUpcall_eq {s : State} {n c : Nat} (h : (ctxAt s n c).c63 = false) (code : Nat) (adr pc : Word) (len : Nat)
    (kept : Option Access) : raiseUpcall s n c code adr pc len kept =
      queueUpcall (setCtx s n c ((ctxAt s n c).upcalled code adr pc len kept)) n (upcallOf s n c code adr pc) :=
  if_neg (by simp [h])

theorem ctxAt_queueUpcall (s : State) (n : Nat) (u : Upcall) (m d : Nat) :
    ctxAt (queueUpcall s n u) m d = if m = n then (ctxAt s m d).woken .halt else ctxAt s m d := by
  rw [queueUpcall, ctxAt_wakeHalted, ctxAt_setCore (by rfl)]

theorem upcalls_queueUpcall (s : State) (n : Nat) (u : Upcall) :
    (coreAt (queueUpcall s n u) n).upcalls = (coreAt s n).upcalls ++ [{ u with order := (coreAt s n).order }] := by
  rw [queueUpcall, (wakesOnly_wakeHalted ..).upcalls, coreAt_setCore_same]

theorem queueUpcall_coresOnly (s : State) (n : Nat) (u : Upcall) : CoresOnly s (queueUpcall s n u) :=
  .trans (by rfl) (wakesOnly_wakeHalted ..).coresOnly

/-- Where no context of the core is halted, an upcall changes no context but its own. -/
theorem ctxAt_raiseUpcall_other {s : State} {n c : Nat} (h : (ctxAt s n c).c63 = false) (hhalt : ∀ d, (ctxAt s n d).cause ≠ .halt)
    (code : Nat) (adr pc : Word) (len : Nat) (kept : Option Access) {m d : Nat} (hmd : ¬(m = n ∧ d = c)) :
    ctxAt (raiseUpcall s n c code adr pc len kept) m d = ctxAt s m d := by
  rw [raiseUpcall_eq h, ctxAt_queueUpcall, ctxAt_setCtx_other _ _ hmd]
  split
  · next hm => subst hm; exact Ctx.woken_of_cause (hhalt d)
  · rfl

theorem ctxAt_raiseUpcall_same {s : State} {n c : Nat} (h : (ctxAt s n c).c63 = false) (code : Nat) (adr pc : Word) (len : Nat)
    (kept : Option Access) :
    ctxAt (raiseUpcall s n c code adr pc len kept) n c = (ctxAt s n c).upcalled code adr pc len kept := by
  rw [raiseUpcall_eq h, ctxAt_queueUpcall, if_pos rfl, ctxAt_setCtx_same]
  exact Ctx.woken_of_cause nofun

theorem upcalls_raiseUpcall {s : State} {n c : Nat} (h : (ctxAt s n c).c63 = false) (code : Nat) (adr pc : Word) (len : Nat)
    (kept : Option Access) : (coreAt (raiseUpcall s n c code adr pc len kept) n).upcalls =
      (coreAt s n).upcalls ++ [{ upcallOf s n c code adr pc with order := (coreAt s n).order }] := by
  rw [raiseUpcall_eq h, upcalls_queueUpcall, coreAt_setCtx_rest]

/-- Settles O22: a supervisor fault is one context held and one message (`raiseSup_eq`), an upcall one context parked and one record
(`raiseUpcall_eq`), and TRAP the upcall itself once the context's loads are done. -/
theorem faultsAndTraps : Obligations.FaultsAndTraps := by
  unfold Obligations.FaultsAndTraps
  refine ⟨fun s n c code adr pc _ _ => ?_, fun s n c code adr pc len => ⟨fun hc63 => raiseUpcall_c63 hc63 .., fun hc63 hhalt => ?_⟩,
    fun s st a => ⟨fun hloads => if_pos hloads, fun hloads => ?_⟩⟩
  · intro t p
    obtain ⟨q, m, hflight, hbody, hsrc, hdst, hnet, hkind, hcls, hargs, hnarg⟩ :=
      sendUnreserved_packet (setCtx s n c (ctxAt s n c).faulted) n (supCoreOf s (pkgOf n) p) (partFclass s (pkgOf n) p)
        (supArgs s n c code adr pc) p
    have ht : t = sendUnreserved (setCtx s n c (ctxAt s n c).faulted) n (supCoreOf s (pkgOf n) p) (partFclass s (pkgOf n) p)
      (supArgs s n c code adr pc) p := raiseSup_eq ..
    have honly := sendUnreserved_only (setCtx s n c (ctxAt s n c).faulted) n (supCoreOf s (pkgOf n) p) (partFclass s (pkgOf n) p)
      (supArgs s n c code adr pc) p
    refine ⟨?_, fun m d hmd => ?_, by rw [ht, honly]; rfl, by rw [ht, honly]; rfl, q, m, by rw [ht]; exact hflight,
      hbody, hnet, hsrc, hdst, hkind, hcls, hnarg, hargs⟩
    · rw [ctxAt_raiseSup, ctxAt_setCtx_same]; rfl
    · rw [ctxAt_raiseSup, ctxAt_setCtx_other _ _ hmd]
  · have hcores : CoresOnly s (raiseUpcall s n c code adr pc len none) := (raiseUpcall_parks hc63 code adr pc len none).1
    exact ⟨ctxAt_raiseUpcall_same hc63 .., fun m d hmd => ctxAt_raiseUpcall_other hc63 hhalt _ _ _ _ _ hmd, hcores.mem, hcores.full,
      hcores.flight, _, upcalls_raiseUpcall hc63 .., rfl, rfl, rfl, rfl⟩
  · exact if_neg (by rw [hloads]; decide)

end Sys2Proof.Machine

/-! ## Data of a lost die that its keeper outlives (R123, R156, R215, R216)

What a die has sent and kept is lost with it, but for what still tells another die's command of its loss. The statement names rows'
contributions alone; the data that a copy or dispatch engine's row takes from its source are such packets too. -/

namespace Sys2Proof.Machine

/-- A row of a copy engine's command of core 0 whose data leave from core 1024, of die 1. -/
def farRow : RowMove where
  core := 0
  ctx := 0
  disp := false
  cmd := 1
  job := 0
  src := 1024

/-- Its data have left for core 2048, of die 2, and die 1 keeps them until they are acknowledged. -/
def farSent : State := sendData State.reset (engOf 0 0 0 false zeroVec) farRow 1 2048 []

/-- Die 1 loses its power: its interface's copy of the data stays, since the command belongs to die 0. -/
theorem farSent_kept : (powerLoss farSent 0 1).keptReq.map (fun q => (dieOf q.src, q.body matches .row _)) = [(1, false)] := by
  decide +kernel

/-- Refutes O55: the kept packets of a die that has lost its power hold the data of another die's command beside contributions to rows. -/
theorem not_errorsAndLosses : ¬ Obligations.ErrorsAndLosses := by
  unfold Obligations.ErrorsAndLosses
  intro h
  obtain ⟨-, -, -, -, -, hdie, -⟩ := h farSent 0 1 0 0 0 0 ⟨0, 0, .req, 0, 0, 0, 0, zeroVec, .steal .request, false, 0, false⟩
    (newAccess State.reset .cntrd 0 4) beyondCmd [] ⟨0, 0, 0, false, 0, 0, 0, [], 0⟩
  obtain ⟨u, hexec, -, -, -, -, -, -, hkept⟩ := hdie (by decide)
  have hu : powerLoss farSent 0 1 = u := Host.Outcome.next.inj hexec
  have hmem : ((1, false) : Nat × Bool) ∈ u.keptReq.map fun q => (dieOf q.src, q.body matches .row _) := by
    rw [← hu, farSent_kept]; exact List.mem_singleton_self _
  obtain ⟨q, hq, hpair⟩ := List.mem_map.mp hmem
  obtain ⟨hsrc, hbody⟩ := Prod.mk_inj.mp hpair
  obtain ⟨r, hrow, -⟩ := hkept q hq hsrc
  rw [hrow] at hbody
  cases hbody

end Sys2Proof.Machine

/-! ## Replies and acknowledgements that reach their contexts (R125, R207, R365) -/

namespace Sys2Proof.Machine

/-! ### The arrival (R207, R125) -/

/-- The packet whose turn it is stands at its place. -/
theorem takeAt_yes {s : State} {k : Nat} {q : Packet} (h : takeAt s k = .yes q) : s.flight[k]? = some q := by
  unfold takeAt at h
  split at h
  · cases h
  · next p hp =>
    have hpq : p = q := by
      split at h
      · cases h
      split at h
      · split at h
        · cases h
        · exact Take.yes.inj h
      split at h
      · cases h
      dsimp only at h
      split at h
      · cases h
      split at h
      · exact Take.yes.inj h
      · cases h
    rw [hp, hpq]

theorem answerArrival_delivers {s : State} {k : Nat} {q : Packet} (r : Reply) (hnear : q.near = true) (hlive : stale s q = false) :
    answerArrival s k q r = deliver (removeAt s k) r := by
  simp [answerArrival, hnear, hlive]

theorem exec_accessReplyArrival {s : State} {k : Nat} {q : Packet} {r : Reply} (hturn : takeAt s k = .yes q) (hbody : q.body = .reply r)
    (hnear : q.near = true) (hlive : stale s q = false) : exec (.accessReplyArrival k) s = .next (deliver (removeAt s k) r) := by
  refine next_congr ?_
  rw [← answerArrival_delivers r hnear hlive]
  simp only [replyArrival, hturn, hbody]

theorem exec_storeAcknowledgement {s : State} {k : Nat} {q : Packet} {r : Reply} (hturn : takeAt s k = .yes q) (hbody : q.body = .ack r)
    (hnear : q.near = true) (hlive : stale s q = false) : exec (.storeAcknowledgement k) s = .next (deliver (removeAt s k) r) := by
  have hplace : (s.flight[k]?).map Packet.body = some (.ack r) := by rw [takeAt_yes hturn, ← hbody]; rfl
  have hack : exec (.storeAcknowledgement k) s = .next (ackArrival s k) := by
    show execStoreAcknowledgement k s = _
    unfold execStoreAcknowledgement
    rw [hplace]
  rw [hack, ackArrival, hturn]
  refine next_congr ?_
  rw [← answerArrival_delivers r hnear hlive]
  simp only [hbody]

/-- A reply or acknowledgement finds the activation that issued its access. -/
theorem deliver_live {s : State} {r : Reply} (hact : (ctxAt s r.acc.core r.acc.ctx).act = r.acc.act)
    (hst : (ctxAt s r.acc.core r.acc.ctx).st ≠ .free) :
    deliver s r = if r.acc.slotted then deliverSlotted (forgetAnswered s r.acc) r else deliverAck (forgetAnswered s r.acc) r :=
  if_neg fun h => h.elim (fun h => h hact) hst

/-! ### A reply (R207) -/

/-- A context after a whole reply `v` to the access of slot `x`: the register is written, and the slot is free. -/
def Ctx.taken (t : Ctx) (x : RSlot) (v : VWord) (vec : Vec16) : Ctx :=
  { t.putNow x.dest v allBits with
    rslots := t.rslots.filter fun y => y.num != x.num
    dep := vmax t.dep vec }

/-- What a reply's one register takes is all that its slot delivers. -/
theorem Ctx.deliverSlot_one (t : Ctx) {r : RSlot} (hdest : r.dest ≠ noCode) (hdest2 : r.dest2 = noCode) :
    t.deliverSlot r = t.putNow r.dest r.data r.mask := by
  simp only [Ctx.deliverSlot, hdest, hdest2, if_true, if_false]

theorem finishSlot_live {s : State} {n c : Nat} {t w : Ctx} {r : RSlot} {v m : VWord} (ht : ctxAt s n c = t) (hst : t.st ≠ .saved)
    (hw : t.deliverSlot { r with data := v, mask := m } = w) :
    finishSlot s n c r v m = setCtx s n c ({ w with rslots := w.rslots.filter fun x => x.num != r.num } : Ctx).replyWake := by
  subst ht hw
  exact if_neg hst

/-- A slot with the whole of its reply. -/
def RSlot.filled (x : RSlot) (v : VWord) : RSlot :=
  { x with
    data := v
    mask := allBits
    left := 0
    flt := none }

/-- The slots of which those of slot `x`'s access have been filled. -/
def slotsFilled (l : List RSlot) (x : RSlot) (v : VWord) : List RSlot := l.map fun y => if y.num = x.num then x.filled v else y

theorem slotsFilled_rest (l : List RSlot) (x : RSlot) (v : VWord) :
    (slotsFilled l x v).filter (fun y => y.num != x.num) = l.filter fun y => y.num != x.num := by
  induction l with
  | nil => rfl
  | cons y l ih =>
    rw [slotsFilled, List.map_cons, ← slotsFilled, List.filter_cons, List.filter_cons, ih]
    by_cases hy : y.num = x.num
    · simp [hy, RSlot.filled]
    · simp [hy]

/-- A context whose slot has been filled, before it takes the data. -/
def Ctx.slotFilled (t : Ctx) (x : RSlot) (v : VWord) (vec : Vec16) : Ctx :=
  { t with
    rslots := slotsFilled t.rslots x v
    dep := vmax t.dep vec }

/-- A reply with all that its slot waits for, of one register. -/
structure Whole (r : Reply) (x : RSlot) (v : VWord) : Prop where
  ans : r.ans = .data v
  mask : r.mask = allBits
  bytes : r.bytes = []
  op : ∀ n, r.acc.op ≠ .payload n
  num : x.num = r.acc.num
  left : x.left = 1
  flt : x.flt = none
  dest : x.dest ≠ noCode
  dest2 : x.dest2 = noCode

/-- A whole reply fills its slot, whose data reach the context. -/
theorem deliverSlotted_fills {s : State} {r : Reply} {x : RSlot} {v : VWord} (h : Whole r x v) {t : Ctx}
    (ht : ctxAt s r.acc.core r.acc.ctx = t) (hfind : t.rslots.find? (fun y => y.num == r.acc.num && !y.arr) = some x) :
    deliverSlotted s r =
      finishSlot (setCtx s r.acc.core r.acc.ctx (t.slotFilled x v r.vec)) r.acc.core r.acc.ctx (x.filled v) v allBits := by
  obtain ⟨hans, hmask, hbytes, hop, hnum, hleft, hflt, -, -⟩ := h
  have hall : mergeBits x.data v allBits = v := mergeBits_all ..
  have hor : x.mask ||| allBits = allBits := BitVec.or_allOnes
  unfold Ctx.slotFilled slotsFilled RSlot.filled
  rw [hnum]
  cases hop' : r.acc.op with
  | payload n => exact absurd hop' (hop n)
  | _ =>
    simp only [deliverSlotted, ht, hfind, hans, hmask, hbytes, hnum, hleft, hflt, hall, hor, hop', lowestFlt, if_true]
    exact if_neg (by decide)

theorem deliverSlotted_whole {s : State} {r : Reply} {x : RSlot} {v : VWord} (h : Whole r x v) {t : Ctx}
    (ht : ctxAt s r.acc.core r.acc.ctx = t) (hfind : t.rslots.find? (fun y => y.num == r.acc.num && !y.arr) = some x)
    (hst : t.st ≠ .saved) : deliverSlotted s r = setCtx s r.acc.core r.acc.ctx (t.taken x v r.vec).replyWake := by
  rw [deliverSlotted_fills h ht hfind]
  refine (finishSlot_live (t := t.slotFilled x v r.vec) (ctxAt_setCtx_same ..) hst
    ((Ctx.deliverSlot_one _ (r := x.filled v) h.dest h.dest2).trans (Ctx.putNow_dep ..))).trans ?_
  rw [setCtx_setCtx, Ctx.taken, ← slotsFilled_rest t.rslots x v]
  rfl

/-- Of a word written into x[d] at once only the low 64 bits count. -/
theorem Ctx.putNow_xCode (t : Ctx) (d : Reg) (v m : VWord) :
    t.putNow (xCode d) v m = t.put 0 0 (xCode d) ((v.setWidth 64).setWidth 1024) m := by
  have hd : xCode d < 0x20 := d.isLt
  have hlow : (((v.setWidth 64).setWidth 1024).setWidth 64 : Word) = v.setWidth 64 := by simp
  rw [← Ctx.putNow_eq, Ctx.putNow, Ctx.putNow, Ctx.wcode, Ctx.wcode, if_pos hd, if_pos hd, hlow]

/-- The register of the reply takes its word, and every other register reads as before. -/
theorem Ctx.taken_reads (t : Ctx) {x : RSlot} {d : Reg} (v : VWord) (vec : Vec16) (hdest : x.dest = xCode d) :
    (∀ cy, (t.taken x v vec).replyWake.xAt cy d = if d = 0 then 0 else v.setWidth 64) ∧
      XSameBut d t (t.taken x v vec).replyWake := by
  have hput := t.putNow_xCode d v allBits
  have honly := Ctx.putX_only t 0 0 d ((v.setWidth 64).setWidth 1024) allBits
  refine xSameBut_put ?_ ?_ ?_ ?_ <;> rw [Ctx.replyWake_only] <;> simp only [Ctx.taken, hdest, hput]
  · rw [honly]
  · rw [honly]

theorem Ctx.taken_rslots (t : Ctx) (x : RSlot) (v : VWord) (vec : Vec16) :
    (t.taken x v vec).replyWake.rslots = t.rslots.filter fun y => y.num != x.num := by
  rw [Ctx.replyWake_only]
  rfl

/-- A context that waits for the access of the slot goes on. -/
theorem Ctx.taken_goesOn {t : Ctx} {x : RSlot} (v : VWord) (vec : Vec16) (hst : t.st = .parked) (hcause : t.cause = .reply)
    (hawaits : t.awaits = some x.num) (hacks : ∀ u ∈ t.acks, u.num ≠ x.num) : (t.taken x v vec).replyWake.st = .running := by
  have hput := Ctx.putNow_only t x.dest v allBits
  have hgone : (t.taken x v vec).outstanding x.num = false := by
    have hown : (t.taken x v vec).acks = t.acks := by rw [Ctx.taken, hput]
    have hrest : (t.taken x v vec).rslots = t.rslots.filter fun y => y.num != x.num := rfl
    rw [Ctx.outstanding, hown, hrest, Bool.or_eq_false_iff]
    refine ⟨List.any_eq_false.mpr fun y hy => ?_, List.any_eq_false.mpr fun u hu => ?_⟩
    · have hy' := (List.mem_filter.mp hy).2
      simp_all
    · simpa using hacks u hu
  have hst' : (t.taken x v vec).st = .parked := by rw [Ctx.taken, hput]; exact hst
  have hcause' : (t.taken x v vec).cause = .reply := by rw [Ctx.taken, hput]; exact hcause
  have hawaits' : (t.taken x v vec).awaits = some x.num := by rw [Ctx.taken, hput]; exact hawaits
  unfold Ctx.replyWake
  rw [if_pos ⟨hst', .inl hcause', by rw [hawaits', Option.any_some, hgone]; rfl⟩]

/-! ### An acknowledgement (R125) -/

/-- The acknowledgement of a scalar store takes it from its context's unacknowledged stores. -/
theorem deliverAck_whole {s : State} {r : Reply} {v : VWord} {u : Unack} (hans : r.ans = .data v) (hvec : r.acc.op.vector = false)
    (hfind : (ctxAt s r.acc.core r.acc.ctx).acks.find? (fun x => x.num == r.acc.num) = some u) (hleft : u.left = 1)
    (hflt : u.flt = none) :
    deliverAck s r = setCtx s r.acc.core r.acc.ctx ((ctxAt s r.acc.core r.acc.ctx).drop r.acc.num).replyWake := by
  simp only [deliverAck, hfind, hans, hvec, hleft, hflt, lowestFlt, Bool.false_eq_true, if_false]
  exact if_neg (by decide)

/-- Settles O19: the arrival is the delivery to the context (`exec_accessReplyArrival`, `exec_storeAcknowledgement`), which sets that
context to what `deliverSlotted_whole` and `deliverAck_whole` say. -/
theorem repliesArrive : Obligations.RepliesArrive := by
  unfold Obligations.RepliesArrive
  refine ⟨fun s k q r v x d => ?_, fun s k q r v u => ?_⟩
  · intro a c hturn hbody hnear hlive hans hmask hbytes hslot hop hact hst hfind hnum hleft hflt hdest hdest2 hacks
    have hwhole : Whole r x v := ⟨hans, hmask, hbytes, hop, hnum, hleft, hflt,
      by rw [hdest]; exact Nat.ne_of_lt (Nat.lt_trans d.isLt (by decide)), hdest2⟩
    have hfree : c.st ≠ .free := by rcases hst with h | h <;> rw [h] <;> decide
    have hsaved : c.st ≠ .saved := by rcases hst with h | h <;> rw [h] <;> decide
    have hexec := exec_accessReplyArrival hturn hbody hnear hlive
    rw [deliver_live (s := removeAt s k) hact hfree, if_pos hslot,
      deliverSlotted_whole (s := forgetAnswered (removeAt s k) a) hwhole (t := c) rfl hfind hsaved] at hexec
    obtain ⟨hreads, hsame⟩ := c.taken_reads v r.vec hdest
    refine ⟨_, hexec, rfl, rfl, rfl, fun n m hnm => ctxAt_setCtx_other _ _ hnm, ?_⟩
    rw [ctxAt_setCtx_same]
    exact ⟨hreads, hsame, hnum ▸ c.taken_rslots x v r.vec, fun hpark hcause hawaits =>
      c.taken_goesOn v r.vec hpark hcause (hnum ▸ hawaits) (hnum ▸ hacks)⟩
  · intro a c hturn hbody hnear hlive hans hslot hvec hact hfree hfind hleft hflt
    have hexec := exec_storeAcknowledgement hturn hbody hnear hlive
    rw [deliver_live (s := removeAt s k) hact hfree, if_neg (by rw [hslot]; decide),
      deliverAck_whole (s := forgetAnswered (removeAt s k) a) hans hvec hfind hleft hflt] at hexec
    refine ⟨_, hexec, rfl, rfl, rfl, fun n m hnm => ctxAt_setCtx_other _ _ hnm, ?_⟩
    rw [ctxAt_setCtx_same, Ctx.replyWake_only]
    exact ⟨rfl, rfl, rfl, rfl, rfl⟩

end Sys2Proof.Machine

/-! ## Stops and resets of partitions (R205, R211, R212, R219, R320) -/

namespace Sys2Proof.Machine

/-! ### Words of the service block -/

theorem svcByte_eq (s : State) (pkg off : Nat) : svcByte s pkg off = svcWord s pkg off 1 := by
  simp [svcByte, svcWord, Memory.read]

section
variable {s : State} (hwf : Memory.wf s.mem = true)
include hwf

theorem svcWord_setSvc_same (pkg off n v : Nat) : svcWord (setSvc s pkg off n v) pkg off n = v % 256 ^ n :=
  Memory.read_write_same _ _ _ hwf

theorem svcWord_setSvc_other (pkg n v : Nat) {off off' k : Nat} (h : off' + k ≤ off ∨ off + n ≤ off') :
    svcWord (setSvc s pkg off n v) pkg off' k = svcWord s pkg off' k :=
  Memory.read_write_other hwf v (by simp only [sliceKey]; omega)

theorem svcByte_setSvc_other (pkg n v : Nat) {off off' : Nat} (h : off' < off ∨ off + n ≤ off') :
    svcByte (setSvc s pkg off n v) pkg off' = svcByte s pkg off' := by
  rw [svcByte_eq, svcByte_eq, svcWord_setSvc_other hwf pkg n v (by omega)]

theorem stopState_setStop (pkg p : Nat) {v : Nat} (hv : v < 4) : stopState (setStop s pkg p v) pkg p = v := by
  rw [stopState, svcByte_eq, setStop, svcWord_setSvc_same hwf]
  omega

theorem svcByte_setStop_other (pkg p v : Nat) {off : Nat} (h : off ≠ 0x40 * p + 8) :
    svcByte (setStop s pkg p v) pkg off = svcByte s pkg off :=
  svcByte_setSvc_other hwf pkg 1 v (by omega)

theorem partEn_setStop (pkg p v : Nat) : partEn (setStop s pkg p v) pkg p = partEn s pkg p := by
  rw [partEn, svcByte_setStop_other hwf pkg p v (by omega), partEn]

theorem partNclass_setStop (pkg p v : Nat) : partNclass (setStop s pkg p v) pkg p = partNclass s pkg p := by
  rw [partNclass, svcByte_setStop_other hwf pkg p v (by omega), partNclass]

theorem supCoreOf_setStop (pkg p v : Nat) : supCoreOf (setStop s pkg p v) pkg p = supCoreOf s pkg p := by
  rw [supCoreOf, partSup, svcByte_setStop_other hwf pkg p v (by omega), supCoreOf, partSup]

end

/-! ### The notice of the service die (R219) -/

theorem isSupCore_supCoreOf (s : State) (pkg p : Nat) : isSupCore (supCoreOf s pkg p) = true := by
  have hsup : partSup s pkg p < 32 := Nat.mod_lt _ (by decide)
  simp only [isSupCore, dieField, supCoreOf, beq_iff_eq]
  omega

/-- A supervisor core names packages physically, whatever the state. -/
theorem coreAdr_supCore {n : Nat} (h : isSupCore n = true) (s t : State) (m : Nat) : coreAdr t n m = coreAdr s n m := by
  simp only [coreAdr, virtPkg, h, if_true]

/-- The address of a partition's stop word, as its supervisor core names it. -/
def stopAdr (s : State) (pkg p : Nat) : Word :=
  coreAdr s (supCoreOf s pkg p) (serviceCore pkg) ||| BitVec.ofNat 64 (0x40 * p + 8)

/-- A stop word that takes a value, with its notice: nothing else is told, and nothing where EN = 0. -/
theorem notice_setStop {s : State} (hwf : Memory.wf s.mem = true) (pkg p v what : Nat) :
    serviceNotice (setStop s pkg p v) pkg p what =
      if partEn s pkg p = true then
        sendUnreserved (setStop s pkg p v) (serviceCore pkg) (supCoreOf s pkg p) (partNclass s pkg p)
          [stopAdr s pkg p, BitVec.ofNat 64 what] p
      else setStop s pkg p v := by
  simp only [serviceNotice, partEn_setStop hwf, partNclass_setStop hwf, supCoreOf_setStop hwf,
    coreAdr_supCore (isSupCore_supCoreOf s pkg p) s]
  cases partEn s pkg p <;> rfl

/-- Where the partition is enabled its supervisor core is told of the new stop word, else nobody is. -/
theorem notice_tells {s : State} (hwf : Memory.wf s.mem = true) (pkg p what : Nat) {v : Nat} (hv : v < 4) :
    stopState (serviceNotice (setStop s pkg p v) pkg p what) pkg p = v ∧
      if partEn s pkg p = true then
        ∃ q m, (serviceNotice (setStop s pkg p v) pkg p what).flight = s.flight ++ [q] ∧ q.body = .msg m ∧ q.net = .rply ∧
          q.src = serviceCore pkg ∧ q.dst = supCoreOf s pkg p ∧ m.kind = .unreserved ∧ m.cls = partNclass s pkg p ∧ m.narg = 2 ∧
          m.args = [stopAdr s pkg p, BitVec.ofNat 64 what, 0, 0, 0, 0, 0, 0]
      else (serviceNotice (setStop s pkg p v) pkg p what).flight = s.flight := by
  rw [notice_setStop hwf]
  split
  · obtain ⟨q, m, hflight, hbody, hsrc, hdst, hnet, hkind, hcls, hargs, hnarg⟩ :=
      sendUnreserved_packet (setStop s pkg p v) (serviceCore pkg) (supCoreOf s pkg p) (partNclass s pkg p)
        [stopAdr s pkg p, BitVec.ofNat 64 what] p
    refine ⟨?_, q, m, hflight, hbody, hnet, hsrc, hdst, hkind, hcls, hnarg, hargs⟩
    rw [sendUnreserved_only]
    exact stopState_setStop hwf pkg p hv
  · exact ⟨stopState_setStop hwf pkg p hv, rfl⟩

/-! ### Completion (R205, R219, R320) -/

theorem stopDone_waits {s : State} {pkg p : Nat} (h : stopState s pkg p ≠ 1 ∨ ∃ n ∈ partCores s pkg p, replaysLeft s n = true) :
    stopDone s pkg p = s := if_pos (h.imp_right List.any_eq_true.mpr)

/-- Cores that have saved their engines save nothing more. -/
theorem foldl_saved (s : State) (ns : List Nat) (h : ∀ n ∈ ns, (coreAt s n).saved = true) :
    ns.foldl (fun s n => if (coreAt s n).saved then s else saveEngines s n) s = s := by
  induction ns with
  | nil => rfl
  | cons n ns ih =>
    rw [List.foldl_cons, if_pos (h n List.mem_cons_self)]
    exact ih fun m hm => h m (List.mem_cons_of_mem _ hm)

theorem stopDone_completes {s : State} {pkg p : Nat} (hstop : stopState s pkg p = 1)
    (h : ∀ n ∈ partCores s pkg p, replaysLeft s n = false ∧ (coreAt s n).saved = true) :
    stopDone s pkg p = serviceNotice (setStop s pkg p 2) pkg p 1 := by
  have hnone : ¬(partCores s pkg p).any (replaysLeft s) = true := fun hany => by
    obtain ⟨n, hn, hreplay⟩ := List.any_eq_true.mp hany
    exact Bool.false_ne_true ((h n hn).1.symm.trans hreplay)
  unfold stopDone
  dsimp only
  rw [if_neg (fun hor => hor.elim (fun h1 => h1 hstop) hnone), foldl_saved s _ fun n hn => (h n hn).2]

theorem resetDone_waits {s : State} {pkg p : Nat} (h : stopState s pkg p ≠ 3) : resetDone s pkg p = s := if_pos h

theorem resetDone_completes {s : State} {pkg p : Nat} (h : stopState s pkg p = 3) :
    resetDone s pkg p = serviceNotice (setStop s pkg p 0) pkg p 2 := if_neg (not_not_intro h)

end Sys2Proof.Machine

/-! ## What the reset of a partition leaves (R74, R211, R212) -/

namespace Sys2Proof.Machine

/-! ### Parts of a list that are changed alike -/

/-- A lookup in a list of which every part has been changed by its key. -/
theorem look_map_key {α : Type} (f : Nat → α → α) (l : List (Nat × α)) {x : α} {n : Nat} (hx : f n x = x) :
    look x (l.map fun e => (e.1, f e.1 e.2)) n = f n (look x l n) := by
  induction l with
  | nil => exact hx.symm
  | cons e r ih =>
    obtain ⟨k, b⟩ := e
    simp only [List.map_cons, look, ih]
    split
    · next hk => rw [hk]
    · rfl

/-- A core of which every context has been changed alike. -/
def Core.mapCtxs (g : Ctx → Ctx) (k : Core) : Core := { k with ctxs := k.ctxs.map fun x => (x.1, g x.2) }

/-- What holds once a step of a fold brings it about, and stays, holds after the fold. -/
theorem foldl_reaches {α : Type} {f : State → α → State} {P Q : State → Prop} {a : α} (hset : ∀ t, Q t → P (f t a))
    (hQ : ∀ t b, Q t → Q (f t b)) (hP : ∀ t b, P t → P (f t b)) {l : List α} (ha : a ∈ l) {s : State} (hs : Q s) :
    P (l.foldl f s) := by
  have hstays (l : List α) (t : State) (ht : P t) : P (l.foldl f t) :=
    List.foldlRecOn (motive := P) l f ht fun t ht b _ => hP t b ht
  induction l generalizing s with
  | nil => cases ha
  | cons b l ih =>
    rcases List.mem_cons.mp ha with rfl | ha
    · exact hstays l _ (hset s hs)
    · exact ih ha (hQ s b hs)

/-! ### A core after the reset -/

/-- A core's queues, engines and registers as a reset leaves them (R212). -/
structure Core.IsReset (k : Core) : Prop where
  inbox : k.inbox = []
  deque : k.deque = []
  upcalls : k.upcalls = []
  noticeHeld : k.noticeHeld = []
  mboxes : k.mboxes = []
  resv : k.resv = []
  copyq : k.copyq = []
  dispq : k.dispq = []
  millInbox : k.mill.inbox = []
  millBad : k.mill.bad = [0, 1, 2, 3]
  active : k.mill.active.valid = false
  shadow : k.mill.shadow.valid = false
  sqlim : k.sqlim = 32
  sqnote : k.sqnote = 0

/-- `u` has the memory of `s`, and core `n` the x, v and p registers. -/
structure KeepsRegs (s u : State) (n : Nat) : Prop where
  mem : u.mem = s.mem
  x : ∀ c, (ctxAt u n c).x = (ctxAt s n c).x
  v : ∀ c, (ctxAt u n c).v = (ctxAt s n c).v
  p : ∀ c, (ctxAt u n c).p = (ctxAt s n c).p

/-- The same, and core `n` is as a reset leaves it. -/
structure ResetHere (s u : State) (n : Nat) : Prop extends KeepsRegs s u n where
  free : ∀ c, (ctxAt u n c).st = .free
  alone : ∀ c, (ctxAt u n c).bwait = none
  seed : ∀ c, (ctxAt u n c).seed = (Ctx.reset n c).seed
  core : (coreAt u n).IsReset

theorem ctxAt_resetCore (s : State) (m n c : Nat) :
    ctxAt (resetCore s m) n c = if n = m then resetCtx n c (ctxAt s n c) else ctxAt s n c := by
  split
  · next h =>
    subst h
    rw [ctxAt, resetCore, coreAt_setCore_same]
    exact look_map_key (resetCtx n) (coreAt s n).ctxs rfl
  · next h => rw [ctxAt, resetCore, coreAt_setCore_other _ _ h, ctxAt]

theorem KeepsRegs.resetCore {s u : State} {n : Nat} (h : KeepsRegs s u n) (m : Nat) : KeepsRegs s (resetCore u m) n := by
  refine ⟨h.mem, fun c => ?_, fun c => ?_, fun c => ?_⟩ <;> rw [ctxAt_resetCore]
  · rw [← h.x c]; split <;> rfl
  · rw [← h.v c]; split <;> rfl
  · rw [← h.p c]; split <;> rfl

theorem KeepsRegs.reset {s u : State} {n : Nat} (h : KeepsRegs s u n) : ResetHere s (Machine.resetCore u n) n where
  toKeepsRegs := h.resetCore n
  free c := by rw [ctxAt_resetCore, if_pos rfl]; rfl
  alone c := by rw [ctxAt_resetCore, if_pos rfl]; rfl
  seed c := by rw [ctxAt_resetCore, if_pos rfl]; rfl
  core := by
    rw [Machine.resetCore, coreAt_setCore_same]
    exact ⟨rfl, rfl, rfl, rfl, rfl, rfl, rfl, rfl, rfl, rfl, rfl, rfl, rfl, rfl⟩

/-! ### What later steps leave of it -/

/-- From `u` to `w` core `n` changes at most in where its contexts stand: PC, loops, stall and block. -/
structure StandsHere (u w : State) (n : Nat) : Prop where
  mem : w.mem = u.mem
  core : coreAt w n = { coreAt u n with ctxs := (coreAt w n).ctxs }
  ctx : ∀ c, ctxAt w n c = { ctxAt u n c with
    pc := (ctxAt w n c).pc
    loops := (ctxAt w n c).loops
    stall := (ctxAt w n c).stall
    block := (ctxAt w n c).block }

theorem Core.IsReset.ctxs {k : Core} (h : k.IsReset) (l : List (Nat × Ctx)) : ({ k with ctxs := l } : Core).IsReset := by
  obtain ⟨h1, h2, h3, h4, h5, h6, h7, h8, h9, h10, h11, h12, h13, h14⟩ := h
  exact ⟨h1, h2, h3, h4, h5, h6, h7, h8, h9, h10, h11, h12, h13, h14⟩

theorem ResetHere.stands {s u w : State} {n : Nat} (h : ResetHere s u n) (hw : StandsHere u w n) : ResetHere s w n where
  mem := hw.mem.trans h.mem
  x c := by rw [hw.ctx]; exact h.x c
  v c := by rw [hw.ctx]; exact h.v c
  p c := by rw [hw.ctx]; exact h.p c
  free c := by rw [hw.ctx]; exact h.free c
  alone c := by rw [hw.ctx]; exact h.alone c
  seed c := by rw [hw.ctx]; exact h.seed c
  core := by rw [hw.core]; exact h.core.ctxs _

theorem StandsHere.of_cores {u w : State} (n : Nat) (hmem : w.mem = u.mem) (hcores : w.cores = u.cores) : StandsHere u w n where
  mem := hmem
  core := by rw [coreAt_congr hcores]
  ctx c := by rw [ctxAt_congr hcores]

theorem StandsHere.resetCore_other {u : State} {m n : Nat} (h : n ≠ m) : StandsHere u (resetCore u m) n where
  mem := rfl
  core := by rw [resetCore, coreAt_setCore_other _ _ h]
  ctx c := by rw [ctxAt_resetCore, if_neg h]

theorem ResetHere.resetCore {s u : State} {n : Nat} (h : ResetHere s u n) (m : Nat) : ResetHere s (resetCore u m) n := by
  by_cases hm : n = m
  · subst hm; exact h.toKeepsRegs.reset
  · exact h.stands (.resetCore_other hm)

/-! ### Barrier phases that end (R46) -/

/-- Every context of every core is changed alike, by its core and the core's cycle; core `n`'s stand as before. -/
theorem StandsHere.of_map {u w : State} {n : Nat} (g : Nat → Nat → Ctx → Ctx) (hmem : w.mem = u.mem)
    (hcores : w.cores = u.cores.map fun e => (e.1, e.2.mapCtxs (g e.1 e.2.cycle)))
    (hreset : ∀ c, g n (coreAt u n).cycle (Ctx.reset n c) = Ctx.reset n c)
    (hg : ∀ c, g n (coreAt u n).cycle (ctxAt u n c) = { ctxAt u n c with
      pc := (g n (coreAt u n).cycle (ctxAt u n c)).pc
      loops := (g n (coreAt u n).cycle (ctxAt u n c)).loops
      stall := (g n (coreAt u n).cycle (ctxAt u n c)).stall
      block := (g n (coreAt u n).cycle (ctxAt u n c)).block }) : StandsHere u w n := by
  have hcore : coreAt w n = (coreAt u n).mapCtxs (g n (coreAt u n).cycle) := by
    rw [coreAt, hcores]
    exact look_map_key (fun m k => Core.mapCtxs (g m k.cycle) k) u.cores rfl
  have hctx (c : Nat) : ctxAt w n c = g n (coreAt u n).cycle (ctxAt u n c) := by
    rw [ctxAt, hcore]
    exact look_map _ _ _ c (hreset c)
  exact ⟨hmem, by rw [hcore]; rfl, fun c => by rw [hctx]; exact hg c⟩

/-- A context after a phase that it may wait for in BWAIT has ended. -/
def Ctx.phaseEnded (key ph : Nat) (aborted : Bool) (vec : Vec16) (cycle : Nat) (t : Ctx) : Ctx :=
  match t.bwait with
  | some w =>
    if w.key = key ∧ w.phase = ph ∧ t.cause = .bwait then
      if t.st = .parked ∧ !t.redo then bwaitDone t cycle aborted vec w.d else bwaitEnded t aborted vec w
    else t
  | none => t

theorem Ctx.phaseEnded_none {t : Ctx} (h : t.bwait = none) (key ph : Nat) (aborted : Bool) (vec : Vec16) (cycle : Nat) :
    t.phaseEnded key ph aborted vec cycle = t := by rw [Ctx.phaseEnded, h]

theorem wakeBwaits_cores (s : State) (key ph : Nat) (aborted : Bool) (vec : Vec16) :
    (wakeBwaits s key ph aborted vec).cores =
      s.cores.map fun e => (e.1, e.2.mapCtxs (Ctx.phaseEnded key ph aborted vec e.2.cycle)) := by
  unfold wakeBwaits Core.mapCtxs
  refine List.map_congr_left fun e _ => ?_
  refine congrArg (fun l => (e.1, ({ e.2 with ctxs := l } : Core))) (List.map_congr_left fun x _ => ?_)
  unfold Ctx.phaseEnded
  cases x.2.bwait with
  | none => rfl
  | some w => dsimp only; split_ifs <;> rfl

/-- A context that stalls at a second BARR stalls on. -/
def Ctx.stalledOn (b : Barrier) (key n : Nat) (t : Ctx) : Ctx :=
  match t.block with
  | .barr k ph st => if k = key ∧ ph ≠ b.phase ∧ arrivedNow b (memberOf n (keyScope key)) then { t with block := .barr k b.phase st } else t
  | _ => t

theorem Ctx.stalledOn_only (b : Barrier) (key n : Nat) (t : Ctx) :
    t.stalledOn b key n = { t with block := (t.stalledOn b key n).block } := by
  unfold Ctx.stalledOn
  split
  · split <;> rfl
  · rfl

theorem stallOn_cores (s : State) (key : Nat) :
    (stallOn s key).cores = s.cores.map fun e => (e.1, e.2.mapCtxs (Ctx.stalledOn (barAt s key) key e.1)) := by
  unfold stallOn Core.mapCtxs
  refine List.map_congr_left fun e _ => ?_
  refine congrArg (fun l => (e.1, ({ e.2 with ctxs := l } : Core))) (List.map_congr_left fun x _ => ?_)
  unfold Ctx.stalledOn
  cases x.2.block with
  | barr k ph st => dsimp only; split <;> rfl
  | _ => rfl

section
variable {s u : State} {n : Nat} (h : ResetHere s u n)
include h

theorem ResetHere.of_cores {w : State} (hmem : w.mem = u.mem := by rfl) (hcores : w.cores = u.cores := by rfl) : ResetHere s w n :=
  h.stands (.of_cores n hmem hcores)

theorem ResetHere.wakeBwaits (key ph : Nat) (aborted : Bool) (vec : Vec16) : ResetHere s (wakeBwaits u key ph aborted vec) n := by
  refine h.stands (.of_map (fun _ cy => Ctx.phaseEnded key ph aborted vec cy) rfl (wakeBwaits_cores ..) (fun c => rfl) fun c => ?_)
  rw [Ctx.phaseEnded_none (h.alone c)]

theorem ResetHere.closePhase (key : Nat) (aborted : Bool) : ResetHere s (closePhase u key aborted) n :=
  (h.of_cores (w := setBar u key _)).wakeBwaits ..

theorem ResetHere.stallOn (key : Nat) : ResetHere s (stallOn u key) n := by
  refine h.stands (.of_map (fun m _ => Ctx.stalledOn (barAt u key) key m) rfl (stallOn_cores ..) (fun c => rfl) fun c => ?_)
  rw [Ctx.stalledOn_only]

/-- A context that stalled goes on behind its BARR. -/
theorem ResetHere.goOn (k c : Nat) (pc : Word) (stall : Nat) :
    ResetHere s (setCtx u k c { (ctxAt u k c).goto pc with block := .none, stall := stall }) n := by
  refine h.stands ⟨rfl, coreAt_setCtx_rest .., fun d => ?_⟩
  by_cases hd : n = k ∧ d = c
  · obtain ⟨rfl, rfl⟩ := hd
    rw [ctxAt_setCtx_same]
    rfl
  · rw [ctxAt_setCtx_other _ _ hd]

end

theorem ResetHere.countStalled {s u : State} {n : Nat} (h : ResetHere s u n) (key count : Nat) :
    ResetHere s (countStalled u key count) n := by
  induction count generalizing u with
  | zero => exact h
  | succ count ih =>
    unfold Machine.countStalled
    split
    · exact h
    · next k c _ st _ =>
      extract_lets t vec u' v w
      have hv : ResetHere s v n := h.goOn k c _ _
      have hw : ResetHere s w n := hv.of_cores
      split
      · exact ih hv.of_cores
      · refine ih ?_
        split
        exacts [hw.closePhase key false, hw]

theorem ResetHere.endPhase {s u : State} {n : Nat} (h : ResetHere s u n) (key : Nat) (aborted : Bool) :
    ResetHere s (endPhase u key aborted) n := ((h.closePhase key aborted).countStalled key _).stallOn key

end Sys2Proof.Machine

/-! ## The reset as a whole (R74, R211, R212, R219, R220) -/

namespace Sys2Proof.Machine

/-! ### The stages of a reset -/

/-- The incarnation has moved on, and the stop word says resetting. -/
def resetMarked (s : State) (pkg p : Nat) : State :=
  setStop (setSvc s pkg (0x40 * p + 2) 2 ((partInc s pkg p + 1) % 65536)) pkg p 3

/-- The contributions and the grants of some cores' commands are withdrawn. -/
def withdrawn (s : State) (mine : Nat → Bool) : State :=
  { s with
    dies := s.dies.map fun e => (e.1, { e.2 with rowacc := e.2.rowacc.filter fun a => !mine a.core })
    cores := s.cores.map fun e => (e.1, { e.2 with grants := e.2.grants.filter fun g => !mine g.core }) }

/-- The machine before the partition's cores are reset. -/
def resetBegun (s : State) (pkg p : Nat) : State :=
  withdrawn (resetMarked s pkg p) fun n => pkgOf n == pkg && partOf (resetMarked s pkg p) n == some p

/-- Every core of the partition is reset. -/
def resetCores (s : State) (pkg p : Nat) : State := (partCores (resetBegun s pkg p) pkg p).foldl resetCore (resetBegun s pkg p)

/-- The phases of the partition's barriers have ended. -/
def resetPhases (s : State) (pkg p : Nat) : State :=
  ((resetCores s pkg p).bars.filter fun e => pkgOf (e.1 / 8388608) == pkg && barInside (resetCores s pkg p) p e.1 e.2).foldl
    (fun s e => endPhase s e.1 true) (resetCores s pkg p)

theorem resetPart_eq (s : State) (pkg p : Nat) :
    resetPart s pkg p = (podPkgs pkg).foldl (fun s q => clearMirror s q p) (resetPhases s pkg p) := rfl

/-! ### Its words of the service block -/

/-- A core's partition depends on the quad table of its package alone. -/
theorem partCores_congr {s t : State} {pkg : Nat} (h : ∀ off, 0x40000 ≤ off → svcByte t pkg off = svcByte s pkg off) (p : Nat) :
    partCores t pkg p = partCores s pkg p := by
  unfold partCores
  refine List.flatMap_congr fun q hq => ?_
  have hq : q < 2048 := List.mem_range.mp hq
  have hpkg : pkgOf (16384 * pkg + 1024 * (q / 256) + 64 * (q / 16 % 16) + 2 * (q % 16)) = pkg := by unfold pkgOf; omega
  simp only [partOf, hpkg, h _ (Nat.le_add_right _ _)]

section
variable {s : State} (hwf : Memory.wf s.mem = true) {pkg p : Nat}
include hwf

theorem svcWord_resetMarked_inc : svcWord (resetMarked s pkg p) pkg (0x40 * p + 2) 2 = (partInc s pkg p + 1) % 65536 := by
  rw [resetMarked, setStop, svcWord_setSvc_other (Canonical.setSvc hwf) pkg 1 3 (by omega), svcWord_setSvc_same hwf]
  omega

theorem stopState_resetMarked : stopState (resetMarked s pkg p) pkg p = 3 := stopState_setStop (Canonical.setSvc hwf) pkg p (by decide)

theorem partCores_resetBegun (hp : p < 24) : partCores (resetBegun s pkg p) pkg p = partCores s pkg p := by
  refine partCores_congr (fun off hoff => ?_) p
  show svcByte (resetMarked s pkg p) pkg off = _
  rw [resetMarked, svcByte_setStop_other (Canonical.setSvc hwf) pkg p 3 (by omega), svcByte_setSvc_other hwf pkg 2 _ (by omega)]

end

/-! ### Mirrors of the pod (R74) -/

/-- A partition's entry and stop word lie in no mirror of that partition in the package's pod. -/
theorem entry_apart_mirrors {pkg p q off : Nat} (hp : p < 24) (hoff : off ≤ 0x40 * p + 8) (hq : q ∈ podPkgs pkg) :
    sliceKey (serviceCore pkg) off < mirrorKey q p 0 ∨ mirrorKey q p 0 + 65536 ≤ sliceKey (serviceCore pkg) off := by
  obtain ⟨i, hi, rfl⟩ := List.mem_map.mp hq
  have hi : i < 8 := List.mem_range.mp hi
  unfold sliceKey serviceCore mirrorKey
  omega

/-- Bytes outside the mirrors that are cleared read as before. -/
theorem get_clearMirrors {p a : Nat} (qs : List Nat) {s : State} (hwf : Memory.wf s.mem = true)
    (h : ∀ q ∈ qs, a < mirrorKey q p 0 ∨ mirrorKey q p 0 + 65536 ≤ a) :
    Memory.get (qs.foldl (fun s q => clearMirror s q p) s).mem a = Memory.get s.mem a := by
  induction qs generalizing s with
  | nil => rfl
  | cons q qs ih =>
    rw [List.foldl_cons, ih (Canonical.clearMirror hwf) fun r hr => h r (List.mem_cons_of_mem _ hr)]
    refine (Memory.get_filter (fun x => decide (x < mirrorKey q p 0) || decide (mirrorKey q p 0 + 65536 ≤ x)) hwf a).trans (if_pos ?_)
    simpa using h q List.mem_cons_self

theorem cores_clearMirrors (p : Nat) (qs : List Nat) (s : State) : (qs.foldl (fun s q => clearMirror s q p) s).cores = s.cores :=
  List.foldlRecOn (motive := fun u : State => u.cores = s.cores) qs _ rfl fun _ h _ _ => h

/-! ### What is left -/

theorem ctxAt_withdrawn (s : State) (mine : Nat → Bool) (n c : Nat) : ctxAt (withdrawn s mine) n c = ctxAt s n c := by
  have hcore : coreAt (withdrawn s mine) n =
      { coreAt s n with grants := (coreAt s n).grants.filter fun g => !mine g.core } :=
    look_map (fun k : Core => { k with grants := k.grants.filter fun g => !mine g.core }) s.cores Core.reset n rfl
  rw [ctxAt, hcore, ctxAt]

theorem keepsRegs_resetBegun (s : State) (pkg p n : Nat) : KeepsRegs (resetMarked s pkg p) (resetBegun s pkg p) n :=
  ⟨rfl, fun c => by rw [resetBegun, ctxAt_withdrawn], fun c => by rw [resetBegun, ctxAt_withdrawn],
    fun c => by rw [resetBegun, ctxAt_withdrawn]⟩

section
variable {s : State} (hwf : Memory.wf s.mem = true) {pkg p n : Nat} (hp : p < 24) (hn : n ∈ partCores s pkg p)
include hwf hp hn

/-- Each core of the partition is reset, and stays so while the phases of its barriers end. -/
theorem resetHere_resetPhases : ResetHere (resetMarked s pkg p) (resetPhases s pkg p) n := by
  have hmine : n ∈ partCores (resetBegun s pkg p) pkg p := by rw [partCores_resetBegun hwf hp]; exact hn
  have hcores : ResetHere (resetMarked s pkg p) (resetCores s pkg p) n :=
    foldl_reaches (P := fun u => ResetHere (resetMarked s pkg p) u n) (Q := fun u => KeepsRegs (resetMarked s pkg p) u n)
      (fun _ h => h.reset) (fun _ m h => h.resetCore m) (fun _ m h => h.resetCore m) hmine (keepsRegs_resetBegun s pkg p n)
  rw [resetPhases]
  exact List.foldlRecOn (motive := fun u => ResetHere (resetMarked s pkg p) u n) _ _ hcores fun _ h e _ => h.endPhase e.1 true

theorem get_resetPart {off : Nat} (hoff : off ≤ 0x40 * p + 8) :
    Memory.get (resetPart s pkg p).mem (sliceKey (serviceCore pkg) off) =
      Memory.get (resetMarked s pkg p).mem (sliceKey (serviceCore pkg) off) := by
  have hmem : (resetPhases s pkg p).mem = (resetMarked s pkg p).mem := (resetHere_resetPhases hwf hp hn).mem
  have hcanon : Memory.wf (resetPhases s pkg p).mem = true := by rw [hmem]; exact (Canonical.setSvc hwf).setStop
  rw [resetPart_eq, get_clearMirrors _ hcanon fun q hq => entry_apart_mirrors hp hoff hq, hmem]

theorem partInc_resetPart : partInc (resetPart s pkg p) pkg p = (partInc s pkg p + 1) % 65536 := by
  rw [← svcWord_resetMarked_inc hwf]
  refine Memory.read_congr fun a hlo hhi => ?_
  obtain ⟨i, rfl⟩ := Nat.exists_eq_add_of_le hlo
  have hnext : sliceKey (serviceCore pkg) (0x40 * p + 2) + i = sliceKey (serviceCore pkg) (0x40 * p + 2 + i) := Nat.add_assoc ..
  rw [hnext]
  exact get_resetPart hwf hp hn (by omega)

theorem stopState_resetPart : stopState (resetPart s pkg p) pkg p = 3 := by
  rw [stopState, svcByte, get_resetPart hwf hp hn (Nat.le_refl _), ← svcByte, ← stopState, stopState_resetMarked hwf]

end

/-- Settles O52: a completion is its stop word and its notice (`notice_tells`); a reset leaves each core of the partition as
`resetHere_resetPhases` says, and the partition's words of the service block apart from the mirrors that it clears. -/
theorem stopsAndResets : Obligations.StopsAndResets := by
  unfold Obligations.StopsAndResets
  refine ⟨fun s pkg p => ?_, fun s pkg p n c => ?_⟩
  · intro cs quietly tells hwf _
    have hcompletes {i : Instr} {v : Nat} (hv : v < 4) (what : Nat)
        (hexec : exec i s = .next (serviceNotice (setStop s pkg p v) pkg p what)) :
        if partEn s pkg p = true then tells i v what else quietly i v := by
      obtain ⟨hstate, htold⟩ := notice_tells hwf pkg p what hv
      split at htold
      · next hen =>
        obtain ⟨q, m, htold⟩ := htold
        rw [if_pos hen]
        exact ⟨_, q, m, hexec, hstate, htold⟩
      · next hen =>
        rw [if_neg hen]
        exact ⟨_, hexec, hstate, htold⟩
    exact ⟨fun h => next_congr (stopDone_waits (.inl h)), fun h => next_congr (stopDone_waits (.inr h)),
      fun hstop hsaved => hcompletes (by decide) 1 (next_congr (stopDone_completes hstop hsaved)),
      fun h => next_congr (resetDone_waits h), fun h => hcompletes (by decide) 2 (next_congr (resetDone_completes h))⟩
  · intro u hwf hp hn k t
    have h := resetHere_resetPhases hwf hp hn
    have hcores : u.cores = (resetPhases s pkg p).cores := cores_clearMirrors ..
    have hk : k = coreAt (resetPhases s pkg p) n := coreAt_congr hcores n
    have ht : t = ctxAt (resetPhases s pkg p) n c := ctxAt_congr hcores n c
    obtain ⟨hinbox, hdeque, hupcalls, hnotice, hmboxes, hresv, hcopyq, hdispq, hmill, hbad, hactive, hshadow, hsqlim, hsqnote⟩ :=
      show k.IsReset from hk ▸ h.core
    refine ⟨partInc_resetPart hwf hp hn, stopState_resetPart hwf hp hn, ?_, fun r => ?_, fun r => ?_, fun r => ?_, ?_, hinbox, hdeque,
      hupcalls, hnotice, hmboxes, hresv, hcopyq, hdispq, hmill, hbad, hactive, hshadow, hsqlim, hsqnote⟩
    · rw [ht]; exact h.free c
    · rw [ht, Ctx.rx, h.x c]; rfl
    · rw [ht, Ctx.rv, h.v c]; rfl
    · rw [ht, Ctx.rp, h.p c]; rfl
    · rw [ht]; exact h.seed c

end Sys2Proof.Machine
